-- ==== Sys2Proof/Word.lean ====
section
/-! DEFINITION. The word types of the machine and their plainest arithmetic. -/

namespace Sys2Proof

abbrev Byte := BitVec 8
abbrev Half := BitVec 16
abbrev Word := BitVec 32
abbrev DWord := BitVec 64

/-- A set of the 32 lanes of a cord, bit l for lane l (R80). -/
abbrev Mask := BitVec 32

/-- Code of a 6-bit vector register field (R42): 0 to 59 a register, 60 to 63 a latch or a special meaning. -/
abbrev VCode := BitVec 6

/-- Code of a 5-bit scalar register field (R43): 0 to 23 a register, 31 sz. -/
abbrev SCode := BitVec 5

/-- The 32 lanes, lowest first. -/
def lanes : List Nat := List.range 32

/-- The value of a lane-indexed function in every lane, lane 0 first. -/
def laneMap {α : Type} (f : Nat → α) : List α := lanes.map f

/-- Lanes of a mask, lowest first. -/
def Mask.toLanes (m : Mask) : List Nat := lanes.filter fun l => m.getLsbD l

/-- The lowest lane of a mask, 0 when it is empty (l0 of R225). -/
def Mask.low (m : Mask) : Nat := (Mask.toLanes m).headD 0

/-- A mask from a test of each lane. -/
def Mask.ofLanes (f : Nat → Bool) : Mask :=
  BitVec.ofNat 32 (lanes.foldl (fun acc l => if f l then acc + 2 ^ l else acc) 0)

/-- Least multiple of `k` that is at least `n`, divided by `k`. -/
def ceilDiv (n k : Nat) : Nat := (n + k - 1) / k

end Sys2Proof
end

