-- ==== Sys2Proof/Config.lean ====
section
/-! DEFINITION. What an implementation fixes, and the free values of the spec's open results. -/

namespace Sys2Proof.Config

/-- Configuration identifier of the NH-CK8-M (R79). -/
def configId : Nat := 0x01080100
/-- Bytes of HBM of one die, 96 GiB (R173, R401). -/
def hbmBytes : Nat := 0x1800000000
/-- Granules of a core's pool (R17). -/
def granules : Nat := 96
/-- Bytes of a granule (R17). -/
def granuleBytes : Nat := 16384

/-- FREE VALUE (log 3): which of several enabled moves comes next; no rule orders concurrent agents. -/
opaque freePick : Nat → Nat
/-- FREE VALUE (log 46): how many of the writes to a word a fetch does not see (R194), by draw and address. -/
opaque freeFetch : Nat → Nat → Nat
/-- FREE VALUE (log 80): how many of the newest writes to a line a forced reset loses (R412), by draw and line. -/
opaque freeLost : Nat → Nat → Nat
/-- FREE VALUE (log 3, log 4): an undefined 32-bit lane value (R7, R47), by draw and lane. -/
opaque freeWord : Nat → Nat → BitVec 32
/-- FREE VALUE (log 5): an undefined byte (R7, R209), by draw and offset. -/
opaque freeByte : Nat → Nat → BitVec 8
/-- FREE VALUE (log 6): the F32 value that a transcendental instruction returns for a source, by operation number; it
counts where it lies in the set that R129 gives. -/
opaque freeTranscend : Nat → BitVec 32 → BitVec 32
/-- FREE VALUE (log 7): a signature check of the firmware, by image digest (R416). -/
opaque freeVerify : Nat → Nat → Bool
/-- FREE VALUE (log 7): a digest or a signature the management controller computes (R416, R417), by kind and content. -/
opaque freeDigest : Nat → List (BitVec 8) → BitVec 384
/-- FREE VALUE (log 7): the signature of a report (R417) or of a repair record (R414), by kind and signed content. -/
opaque freeSignature : Nat → List (BitVec 8) → List (BitVec 8)
/-- FREE VALUE (log 8): outcome of a self-test of a domain (R413): how many parts of a kind are found failed. -/
opaque freeBist : Nat → Nat → Nat
/-- FREE VALUE (log 8): which part of a kind a self-test finds failed, by draw and count. -/
opaque freePart : Nat → Nat → Nat
/-- FREE VALUE (log 73): what a sensor of the module or of an island reads (R418), by draw and sensor. -/
opaque freeSensor : Nat → Nat → BitVec 32
/-- FREE VALUE (log 9): TRAPVAL of a fault whose entry does not state it (R375), by draw. -/
opaque freeTrapVal : Nat → BitVec 64

end Sys2Proof.Config
end

