-- ==== Sys2Proof/Syntax.lean ====
section
/-! DEFINITION. The instruction words and the device steps of the opcode table, as one inductive.
A word's register codes stand as the word has them (a code out of range is a fault of the instruction, R39), its
other selectors as constructors. A device step names the pending work it performs by its handle, or the part it acts on. -/

namespace Sys2Proof

/-- Integer element type (R54). -/
inductive IntTy | i32 | n32 | i16 | n16
  deriving DecidableEq, Repr

/-- Element width of shifts, IABS and INEG (R101, R104). -/
inductive ElW | w32 | w16
  deriving DecidableEq, Repr

/-- Float element type of the V format (R54). -/
inductive FTy | f32 | f16 | bf16 | e4m3
  deriving DecidableEq, Repr

/-- Float element type of FSET, FSCALE, FABS and FNEG (R126 to R128). -/
inductive FTy3 | f32 | f16 | bf16
  deriving DecidableEq, Repr

/-- Type of MOVI (R108). -/
inductive MoviTy | i32 | n32 | i16 | n16 | f32 | f16 | e4m3
  deriving DecidableEq, Repr

/-- Type of FADDI and FMULI (R125). -/
inductive FImmTy | f32 | f16 | e4m3
  deriving DecidableEq, Repr

/-- Source permutation (R52). -/
inductive Perm | ident | bc | rot | bfly
  deriving DecidableEq, Repr

/-- Compare condition of ISET (R105). -/
inductive ICond | eq | ne | lt | le | gt | ge
  deriving DecidableEq, Repr

/-- Compare condition of FSET (R127). -/
inductive FCond | eq | ne | lt | le | gt | ge | un | ord
  deriving DecidableEq, Repr

/-- Shuffle mode (R110). -/
inductive ShflMode | idx | up | down | xor
  deriving DecidableEq, Repr

/-- Rounding mode of a conversion (R114). -/
inductive Rnd | rne | rz | rp | rm | rs
  deriving DecidableEq, Repr

/-- Format code of FCVT (R130). -/
inductive Fmt | f32 | f16 | bf16 | e4m3 | e5m2 | e2m1 | i32 | n32
  deriving DecidableEq, Repr

/-- Form of FPACK (R133). -/
inductive PackTy | f16 | bf16 | merge
  deriving DecidableEq, Repr

/-- Size of an M-format access (R196). -/
inductive MSize | n8 | i8 | n16 | i16 | w32 | w64 | w128
  deriving DecidableEq, Repr

/-- Atomic operation (R69). -/
inductive AOp | add | min | max | minu | maxu | and | or | xor | xchg | cas | fadd | maxsi
  deriving DecidableEq, Repr

/-- Fence scope (R70). -/
inductive Scope | cord | stand | grove | die
  deriving DecidableEq, Repr

/-- Direction of CPY (R211). -/
inductive CopyDir | h2s | s2h | h2h | s2s
  deriving DecidableEq, Repr

/-- Bytes a lane of CPY copies (R211). -/
inductive CopySize | b4 | b8 | b16
  deriving DecidableEq, Repr

/-- Output format of MDRAIN (R283). -/
inductive DrainFmt | f32 | f16 | bf16 | e4m3 | e5m2 | e2m1
  deriving DecidableEq, Repr

/-- Value type of a list (R292). -/
inductive ListTy | f32 | bf16 | i32
  deriving DecidableEq, Repr

/-- Special register selected by RDSPR and WRSPR (R65). -/
inductive Spr
  | clk | ts | tsfloor | fpstat | mstat | prm | seed | cordid | standid | coreid | agelim
  | trapcause | trappc | trapval | worldstat
  deriving DecidableEq, Repr

/-- Destination of a V- or F-format ALU instruction: a register field, or NW = 1 (R51). -/
inductive Dst
  | reg (d : VCode)
  | nw
  deriving DecidableEq, Repr

/-- V format with two permuted sources. -/
structure V2 where
  dst : Dst
  a : VCode
  b : VCode
  pa : Perm
  pb : Perm
  deriving DecidableEq, Repr

/-- V format with one permuted source. -/
structure V1 where
  dst : Dst
  a : VCode
  pa : Perm
  deriving DecidableEq, Repr

/-- F format: three sources. -/
structure F3 where
  dst : Dst
  a : VCode
  b : VCode
  c : VCode
  deriving DecidableEq, Repr

/-- V format of a compare to predicate `p`. -/
structure VCmp where
  p : BitVec 3
  a : VCode
  b : VCode
  pa : Perm
  pb : Perm
  deriving DecidableEq, Repr

/-- S format with three register codes. -/
structure S3 where
  d : SCode
  a : SCode
  b : SCode
  deriving DecidableEq, Repr

/-- M format (R41). -/
structure MOps where
  d : VCode
  s : SCode
  v : VCode
  stream : BitVec 4
  size : MSize
  ordered : Bool
  deriving DecidableEq, Repr

/-- A format (R41). -/
structure AOps where
  d : VCode
  s : SCode
  v : VCode
  stream : BitVec 4
  op : AOp
  deriving DecidableEq, Repr

/-- X format naming a vector register d and a scalar s. -/
structure XOps where
  d : VCode
  s : SCode
  deriving DecidableEq, Repr

/-- What an uncorrectable soft error strikes (R374): a byte of a die's HBM by physical address, of the scratchpad or the
accumulators of a stand by the model's handle and offset, of a canopy slot of a core, its side band behind its tile, of a
slot of a grove's holding buffer, or of an outstanding element of a flume of a port by its place behind HEAD; or a lane of a
vector register of a stand's cord. -/
inductive Struck
  | hbm (addr : Nat)
  | scratchpad (sid off : Nat)
  | accumulator (sid off : Nat)
  | canopy (core slot off : Nat)
  | holding (grove slot off : Nat)
  | element (port : Nat) (qid : BitVec 32) (seq off : Nat)
  | register (sid cord reg lane : Nat)
  deriving DecidableEq, Repr

/-- One constructor for each row of spec/opcode_table.json. -/
inductive Instr
  | illegalWord (w : BitVec 32)
  -- control (R155 to R163)
  | brc (p : BitVec 3) (neg : Bool) (disp : BitVec 21)
  | jmp (disp : BitVec 21)
  | call (disp : BitVec 21)
  | jmpr (v : VCode)
  | callr (v : VCode)
  | rcv (disp : BitVec 21)
  | brk (depth : BitVec 3) (disp : BitVec 21)
  | pand (o : S3)
  | por (o : S3)
  | pxor (o : S3)
  | pandn (o : S3)
  | pnot (d a : SCode)
  | pmov (d a : SCode)
  | voteAll (d p : VCode)
  | voteAny (d p : VCode)
  | voteBal (d p : VCode)
  -- system (R392 to R398)
  | trap (code : BitVec 16)
  | rdspr (d : SCode) (r : Spr)
  | wrspr (d : SCode) (r : Spr)
  | tlbinv (a b : SCode)
  | csave (d a : SCode)
  | crst (o : S3)
  | world (o : S3)
  | rdseed (s : SCode)
  | wrseed (s : SCode)
  | rdtag (v : VCode) (s : SCode)
  -- hints (R56 to R63)
  | hprm (wx wr wb : Bool) (x r b : BitVec 5)
  | himm (payload : BitVec 21)
  | hstl (n : BitVec 21)
  | hcache (na : Bool) (l2 l1 : BitVec 2)
  | hpred (neg : Bool) (p : BitVec 3)
  -- scalar ALU (R93 to R96)
  | sadd (o : S3)
  | ssub (o : S3)
  | smul (o : S3)
  | smulh (o : S3)
  | smulhu (o : S3)
  | sand (o : S3)
  | sor (o : S3)
  | sxor (o : S3)
  | sshl (o : S3)
  | sshr (o : S3)
  | ssra (o : S3)
  | smin (o : S3)
  | smax (o : S3)
  | sminu (o : S3)
  | sslt (o : S3)
  | ssltu (o : S3)
  | saddi (d : SCode) (imm : BitVec 16)
  | smuli (d : SCode) (imm : BitVec 16)
  | sandi (d : SCode) (imm : BitVec 16)
  | sori (d : SCode) (imm : BitVec 16)
  | sxori (d : SCode) (imm : BitVec 16)
  | sshli (d : SCode) (imm : BitVec 16)
  | sshri (d : SCode) (imm : BitVec 16)
  | ssrai (d : SCode) (imm : BitVec 16)
  | sslti (d : SCode) (imm : BitVec 16)
  | ssltui (d : SCode) (imm : BitVec 16)
  | sldiH (d : SCode) (h : BitVec 2) (imm : BitVec 16)
  | sldi (d : SCode) (imm : BitVec 16)
  | s2v (v : VCode) (s : SCode)
  | v2s (v : VCode) (s : SCode) (lane : BitVec 5)
  | sld (d a : SCode) (stream : BitVec 4) (word : Bool)
  | sst (d a : SCode) (stream : BitVec 4) (word : Bool)
  -- vector integer (R97 to R110)
  | iadd (o : V2) (t : IntTy)
  | isub (o : V2) (t : IntTy)
  | imul (o : V2) (t : IntTy)
  | imulh (o : V2) (t : IntTy)
  | imad (o : F3)
  | imin (o : V2) (t : IntTy)
  | imax (o : V2) (t : IntTy)
  | iabs (o : V1) (w : ElW)
  | ineg (o : V1) (w : ElW)
  | and (o : V2)
  | or (o : V2)
  | xor (o : V2)
  | not (o : V1)
  | shl (o : V2) (w : ElW)
  | shr (o : V2) (w : ElW)
  | sra (o : V2) (w : ElW)
  | rot (o : V2) (w : ElW)
  | popc (o : V1)
  | clz (o : V1)
  | ctz (o : V1)
  | brev (o : V1)
  | iset (c : ICond) (o : VCmp) (t : IntTy)
  | sel (dst : Dst) (a b : VCode) (pa : Perm) (p : BitVec 3) (neg : Bool)
  | mov (o : V1)
  | movi (d : VCode) (t : MoviTy) (imm : BitVec 16)
  | iaddi (d : VCode) (t : IntTy) (imm : BitVec 16)
  | imuli (d : VCode) (t : IntTy) (imm : BitVec 16)
  | andi (d : VCode) (imm : BitVec 16)
  | ori (d : VCode) (imm : BitVec 16)
  | xori (d : VCode) (imm : BitVec 16)
  | laneid (dst : Dst)
  | affine (o : V2)
  | shfl (o : V2) (m : ShflMode)
  -- float (R122 to R134)
  | fadd (o : V2) (t : FTy)
  | fsub (o : V2) (t : FTy)
  | fmul (o : V2) (t : FTy)
  | ffma (o : F3)
  | fmin (o : V2) (t : FTy)
  | fmax (o : V2) (t : FTy)
  | fset (c : FCond) (o : VCmp) (t : FTy3)
  | fabs (o : V1) (t : FTy3)
  | fneg (o : V1) (t : FTy3)
  | fsqrt (o : V1)
  | frsq (o : V1)
  | frcp (o : V1)
  | fexp2 (o : V1)
  | flog2 (o : V1)
  | fsin (o : V1)
  | fcos (o : V1)
  | ftanh (o : V1)
  | ffloor (o : V1)
  | fceil (o : V1)
  | ftrunc (o : V1)
  | frint (o : V1)
  | fcvt (o : V1) (dstF srcF : Fmt) (r : Rnd) (sat : Bool)
  | fscale (o : V2) (t : FTy3)
  | fpack (o : V2) (t : PackTy)
  | funpk (o : V1) (code : BitVec 6)
  | faddi (d : VCode) (t : FImmTy) (imm : BitVec 16)
  | fmuli (d : VCode) (t : FImmTy) (imm : BitVec 16)
  | dot2 (o : F3)
  -- memory (R196 to R202)
  | ld (o : MOps)
  | st (o : MOps)
  | lds (o : MOps)
  | sts (o : MOps)
  | atom (o : AOps)
  | atoms (o : AOps)
  | fence (c : Scope)
  | fenceX (c : Scope) (m : BitVec 16)
  | fenceAcq (c : Scope)
  | fenceRel (c : Scope)
  | pref (toL2 : Bool) (s : SCode) (v : VCode)
  -- copies (R211 to R222)
  | cpy (d : VCode) (s : SCode) (v : VCode) (dir : CopyDir) (size : CopySize)
  | cpyt (o : XOps) (s2h : Bool)
  | cpyx (o : XOps)
  | cpym (o : XOps)
  | mcdrain (o : XOps)
  | cpyw (o : XOps) (nb : Bool)
  | bari (o : XOps)
  | barw (s : SCode)
  -- crews, barriers, futures, tasks, grove words, time (R229 to R254)
  | cjoin (o : XOps)
  | cleave (s : SCode)
  | cbar (o : XOps)
  | pbar (o : XOps)
  | pwait (o : XOps)
  | fres (o : XOps) (poison : Bool)
  | fwait (o : XOps)
  | ftest (o : XOps)
  | spawn (o : XOps)
  | take (o : XOps)
  | steal (o : XOps)
  | done (o : XOps)
  | gmax (s : SCode) (w : BitVec 4)
  | gmin (s : SCode) (w : BitVec 4)
  | grd (s : SCode) (w : BitVec 4)
  | gwait (s : SCode) (w : BitVec 4)
  | sleep (s : SCode)
  | rdclk (s : SCode)
  | rdts (s : SCode)
  -- matrix (R281 to R289)
  | mtask (o : XOps)
  | mdrain (o : XOps) (f : DrainFmt) (r : Rnd) (sat : Bool)
  | wpin (o : XOps)
  | wevict (o : XOps) (nb : Bool)
  | marrive (o : XOps)
  | mqcfg (s : SCode)
  | mzero (s : SCode)
  | mstatRead (s : SCode)
  | mstatClr (s : SCode)
  -- ranked lists (R307 to R312)
  | ldecl (o : XOps) (t : ListTy) (larger : Bool)
  | lins (o : XOps) (v : VCode) (t : ListTy)
  | lmerge (o : XOps)
  | lread (o : XOps)
  | lthr (p : VCode) (s : SCode) (v : VCode)
  | lclr (s : SCode)
  -- flumes (R345 to R353)
  | qbind (a : VCode) (s : SCode)
  | qrsv (o : XOps)
  | qput (o : XOps) (v : VCode)
  | qenq (o : XOps)
  | qdeq (o : XOps)
  | qtry (o : XOps)
  | qalw (a : VCode) (s : SCode)
  | qinv (s : SCode)
  | qstat (o : XOps)
  | bral (a : BitVec 3) (c : BitVec 4) (disp : BitVec 18)
  -- launch and combine (R362, R370)
  | launch (o : XOps)
  | cmbi (o : XOps)
  | cmbw (o : XOps)
  -- steps of the cord and of the core's engines
  | ageingSwap (sid cord : Nat)
  | hstlExpire (sid cord slot : Nat)
  | sleepExpire (sid cord slot : Nat)
  | futureResolve (id : Nat)
  | futureWake (id : Nat)
  | pbarBankStep (id : Nat)
  | dequeStep (id : Nat)
  | memAccessComplete (id : Nat)
  | copyDone (id : Nat)
  | cpyxBeatArrive (id : Nat)
  | shareWaitTimeout (id core : Nat)
  | cpymPark (id : Nat)
  | mcdrainMatch (id : Nat)
  | cpywClaimGrant (id : Nat)
  | cpywFillDone (id : Nat)
  | wevictClaimGrant (id : Nat)
  | taskPick (core : Nat)
  | taskComplete (core : Nat)
  | taskSkip (core seq : Nat)
  | pickerReeval (core : Nat)
  | depPoll (core seq : Nat)
  | taskBackingRefill (core : Nat) (low : Bool)
  | mdrainDone (id : Nat)
  | listInsert (core : Nat)
  | listOpPerform (core : Nat)
  -- steps of the flume ports
  | creditRequestArrive (id : Nat)
  | creditGrant (die port : Nat)
  | creditGrantArrive (id : Nat)
  | creditRetry (die entry : Nat)
  | reservationArrive (id : Nat)
  | reservationTimeout (sid cord slot : Nat)
  | elementStore (id : Nat)
  | spillRefillDone (die port : Nat) (qid : BitVec 32)
  | headDeliver (die port : Nat) (qid : BitVec 32)
  | routeCapChange (die entry cap : Nat)
  | remoteErrorReport (id : Nat)
  | combineStep (id : Nat)
  -- host requests and steps of the distributor and the save engine
  | hostLaunchStore (die : Nat)
  | launchRecordStore (id : Nat)
  | launchCapture (die : Nat)
  | standPlace (die : Nat)
  | standGangStart (sid : Nat)
  | standEnd (sid : Nat)
  | granuleClearDone (core : Nat)
  | regfileRelease (sid cord : Nat)
  | preemptCheck (die : Nat)
  | swapoutSave (sid : Nat)
  | saveWriteDone (sid : Nat)
  | standRestore (die : Nat)
  | eventPost (die : Nat)
  -- steps of the package
  | packetSend (port : Nat)
  | storeAcknowledge (id : Nat)
  | flumeReplyArrive (id : Nat)
  -- words without operands, and requests and steps from outside the cores
  | nop
  | ret
  | join
  | exit
  | yield
  | eret
  | halt
  | hyld
  | mfence
  | packageReset
  | firmwareLoad
  | hostMemAccess (write secure : Bool) (addr : Nat) (data : List (BitVec 8))
  | registerWrite (secure : Bool) (off : Nat) (value : BitVec 64)
  | hostLaunchSubmit (die : Nat) (ctx : BitVec 8)
  | contrailWantWrite (index : Nat) (want : BitVec 4)
  | keyInstall (port : Nat)
  | keySwitch (port : Nat)
  | flitReceive (port : Nat) (good : Bool)
  | laneFail (port lane : Nat)
  | coreReset (die : Nat)
  | uncoreReset (die : Nat)
  | qcoreGo (die core : Nat)
  | attestationRequest (nonce : List (BitVec 8))
  | clockThrottle (island mhz : Nat)
  | uncorrectableSoftError (die : Nat) (x : Struck)
  | tlbWalkDone (die ctx va : Nat)
  | flumeCreate (die port : Nat)
  | flumeDestroy (die port : Nat)
  | flumeForcedDestroy (die port : Nat)
  | flcmdInvalid (die port : Nat) (cmd : BitVec 3)
  | bistDone (domain : Nat)
  | qcoreReturn (die : Nat)
  | contrailChangeDone (index : Nat)
  | linkRetrainDone (port : Nat)
  deriving DecidableEq, Repr

end Sys2Proof
end

