-- ==== Sys2Proof/WellFormed.lean ====
section
/-! DEFINITION. Which instructions have a word: the limits of the opcode map that the types of Syntax do not carry. -/

namespace Sys2Proof

/-- An integer format of FCVT (R131). -/
def Fmt.isInt : Fmt → Bool
  | .i32 | .n32 => true
  | _ => false

/-- Legal pairs of FCVT and its saturate bit (R132). -/
def fcvtOk (dst src : Fmt) (sat : Bool) : Bool :=
  dst != src && !(dst.isInt && src.isInt) && (!sat || dst == .e4m3 || dst == .e5m2)

/-- Legal output, rounding and saturate of MDRAIN (R283). -/
def mdrainOk (f : DrainFmt) (r : Rnd) (sat : Bool) : Bool :=
  (!sat || f == .e4m3 || f == .e5m2) && (f != .e2m1 || r == .rne)

/-- Sizes a store has (R196). -/
def MSize.storable : MSize → Bool
  | .i8 | .i16 => false
  | _ => true

/-- An instruction that has a word of its own, with every selector among the values its row accepts.
A device step has no word, and illegalWord stands for the words no row accepts. -/
def Instr.wf : Instr → Bool
  | .fcvt _ d s _ sat => fcvtOk d s sat
  | .funpk _ c => decide (c.toNat < 20)
  | .st o => o.size.storable
  | .sts o => o.size.storable
  | .atom o => o.op != .maxsi
  | .atoms o => o.op != .fadd
  | .fenceX _ m => m != 0
  | .hcache _ l2 _ => l2 != 2
  | .sshli _ i => decide (i.toNat < 64)
  | .sshri _ i => decide (i.toNat < 64)
  | .ssrai _ i => decide (i.toNat < 64)
  | .mdrain _ f r sat => mdrainOk f r sat
  | .illegalWord _ => false
  | .ageingSwap .. | .hstlExpire .. | .sleepExpire .. | .futureResolve ..
  | .futureWake .. | .pbarBankStep .. | .dequeStep .. | .memAccessComplete ..
  | .tlbWalkDone .. | .copyDone .. | .cpyxBeatArrive .. | .shareWaitTimeout ..
  | .cpymPark .. | .mcdrainMatch .. | .cpywClaimGrant .. | .cpywFillDone ..
  | .wevictClaimGrant .. | .taskPick .. | .taskComplete .. | .taskSkip ..
  | .pickerReeval .. | .depPoll .. | .taskBackingRefill .. | .mdrainDone ..
  | .listInsert .. | .listOpPerform .. | .creditRequestArrive .. | .creditGrant ..
  | .creditGrantArrive .. | .creditRetry .. | .reservationArrive .. | .reservationTimeout ..
  | .elementStore .. | .spillRefillDone .. | .headDeliver .. | .routeCapChange ..
  | .remoteErrorReport .. | .combineStep .. | .hostMemAccess .. | .registerWrite ..
  | .flumeCreate .. | .flumeDestroy .. | .flumeForcedDestroy .. | .flcmdInvalid ..
  | .hostLaunchSubmit .. | .hostLaunchStore .. | .launchRecordStore .. | .launchCapture ..
  | .standPlace .. | .standGangStart .. | .standEnd .. | .granuleClearDone ..
  | .regfileRelease .. | .preemptCheck .. | .swapoutSave .. | .saveWriteDone ..
  | .standRestore .. | .eventPost .. | .contrailWantWrite .. | .contrailChangeDone ..
  | .keyInstall .. | .packetSend .. | .keySwitch .. | .flitReceive ..
  | .laneFail .. | .linkRetrainDone .. | .coreReset .. | .uncoreReset ..
  | .packageReset | .bistDone .. | .qcoreGo .. | .qcoreReturn ..
  | .firmwareLoad | .attestationRequest .. | .clockThrottle .. | .storeAcknowledge ..
  | .flumeReplyArrive .. | .uncorrectableSoftError .. => false
  | _ => true

/-- The steps of the device and of the host: rows of the table that are not words. -/
def Instr.isStep : Instr → Bool
  | .ageingSwap .. | .hstlExpire .. | .sleepExpire .. | .futureResolve ..
  | .futureWake .. | .pbarBankStep .. | .dequeStep .. | .memAccessComplete ..
  | .tlbWalkDone .. | .copyDone .. | .cpyxBeatArrive .. | .shareWaitTimeout ..
  | .cpymPark .. | .mcdrainMatch .. | .cpywClaimGrant .. | .cpywFillDone ..
  | .wevictClaimGrant .. | .taskPick .. | .taskComplete .. | .taskSkip ..
  | .pickerReeval .. | .depPoll .. | .taskBackingRefill .. | .mdrainDone ..
  | .listInsert .. | .listOpPerform .. | .creditRequestArrive .. | .creditGrant ..
  | .creditGrantArrive .. | .creditRetry .. | .reservationArrive .. | .reservationTimeout ..
  | .elementStore .. | .spillRefillDone .. | .headDeliver .. | .routeCapChange ..
  | .remoteErrorReport .. | .combineStep .. | .hostMemAccess .. | .registerWrite ..
  | .flumeCreate .. | .flumeDestroy .. | .flumeForcedDestroy .. | .flcmdInvalid ..
  | .hostLaunchSubmit .. | .hostLaunchStore .. | .launchRecordStore .. | .launchCapture ..
  | .standPlace .. | .standGangStart .. | .standEnd .. | .granuleClearDone ..
  | .regfileRelease .. | .preemptCheck .. | .swapoutSave .. | .saveWriteDone ..
  | .standRestore .. | .eventPost .. | .contrailWantWrite .. | .contrailChangeDone ..
  | .keyInstall .. | .packetSend .. | .keySwitch .. | .flitReceive ..
  | .laneFail .. | .linkRetrainDone .. | .coreReset .. | .uncoreReset ..
  | .packageReset | .bistDone .. | .qcoreGo .. | .qcoreReturn ..
  | .firmwareLoad | .attestationRequest .. | .clockThrottle .. | .storeAcknowledge ..
  | .flumeReplyArrive .. | .uncorrectableSoftError .. => true
  | _ => false

end Sys2Proof
end

