-- ==== Sys2Proof/Decode.lean ====
section
/-! DEFINITION. From bits to an instruction, total on any bytes, and the encoder written from the same tables
(02_encoding.md R41, R64 to R72, and the field tables of the class chapters). -/

namespace Sys2Proof

/-- Bits lo + n - 1 down to lo of a word. -/
def fld (w : BitVec 32) (lo n : Nat) : BitVec n := w.extractLsb' lo n

/-- One bit of a word. -/
def bitAt (w : BitVec 32) (k : Nat) : Bool := w.getLsbD k

/-- A Bool as one bit. -/
def bit1 (b : Bool) : BitVec 1 := BitVec.ofBool b

/-- Field value of ElW. -/
def ElW.bits : ElW → BitVec 2
  | .w32 => 0#2
  | .w16 => 2#2

/-- ElW from its field; none for a reserved value. -/
def ElW.ofBits (b : BitVec 2) : Option ElW :=
  if b = 0#2 then some .w32 else
  if b = 2#2 then some .w16 else
  none

/-- Field value of PackTy. -/
def PackTy.bits : PackTy → BitVec 2
  | .f16 => 1#2
  | .bf16 => 2#2
  | .merge => 3#2

/-- PackTy from its field; none for a reserved value. -/
def PackTy.ofBits (b : BitVec 2) : Option PackTy :=
  if b = 1#2 then some .f16 else
  if b = 2#2 then some .bf16 else
  if b = 3#2 then some .merge else
  none

/-- Field value of FImmTy. -/
def FImmTy.bits : FImmTy → BitVec 3
  | .f32 => 4#3
  | .f16 => 5#3
  | .e4m3 => 6#3

/-- FImmTy from its field; none for a reserved value. -/
def FImmTy.ofBits (b : BitVec 3) : Option FImmTy :=
  if b = 4#3 then some .f32 else
  if b = 5#3 then some .f16 else
  if b = 6#3 then some .e4m3 else
  none

/-- Field value of Spr. -/
def Spr.bits : Spr → BitVec 16
  | .clk => 0#16
  | .ts => 1#16
  | .tsfloor => 2#16
  | .fpstat => 16#16
  | .mstat => 17#16
  | .prm => 32#16
  | .seed => 33#16
  | .cordid => 48#16
  | .standid => 49#16
  | .coreid => 50#16
  | .agelim => 64#16
  | .trapcause => 80#16
  | .trappc => 81#16
  | .trapval => 82#16
  | .worldstat => 96#16

/-- Spr from its field; none for a reserved value. -/
def Spr.ofBits (b : BitVec 16) : Option Spr :=
  if b = 0#16 then some .clk else
  if b = 1#16 then some .ts else
  if b = 2#16 then some .tsfloor else
  if b = 16#16 then some .fpstat else
  if b = 17#16 then some .mstat else
  if b = 32#16 then some .prm else
  if b = 33#16 then some .seed else
  if b = 48#16 then some .cordid else
  if b = 49#16 then some .standid else
  if b = 50#16 then some .coreid else
  if b = 64#16 then some .agelim else
  if b = 80#16 then some .trapcause else
  if b = 81#16 then some .trappc else
  if b = 82#16 then some .trapval else
  if b = 96#16 then some .worldstat else
  none

/-- Field value of IntTy. -/
def IntTy.bits : IntTy → BitVec 2
  | .i32 => 0#2
  | .n32 => 1#2
  | .i16 => 2#2
  | .n16 => 3#2

/-- IntTy from its field; none for a reserved value. -/
def IntTy.ofBits (b : BitVec 2) : Option IntTy :=
  if b = 0#2 then some .i32 else
  if b = 1#2 then some .n32 else
  if b = 2#2 then some .i16 else
  if b = 3#2 then some .n16 else
  none

/-- Field value of FTy. -/
def FTy.bits : FTy → BitVec 2
  | .f32 => 0#2
  | .f16 => 1#2
  | .bf16 => 2#2
  | .e4m3 => 3#2

/-- FTy from its field; none for a reserved value. -/
def FTy.ofBits (b : BitVec 2) : Option FTy :=
  if b = 0#2 then some .f32 else
  if b = 1#2 then some .f16 else
  if b = 2#2 then some .bf16 else
  if b = 3#2 then some .e4m3 else
  none

/-- Field value of Perm. -/
def Perm.bits : Perm → BitVec 2
  | .ident => 0#2
  | .bc => 1#2
  | .rot => 2#2
  | .bfly => 3#2

/-- Perm from its field; none for a reserved value. -/
def Perm.ofBits (b : BitVec 2) : Option Perm :=
  if b = 0#2 then some .ident else
  if b = 1#2 then some .bc else
  if b = 2#2 then some .rot else
  if b = 3#2 then some .bfly else
  none

/-- Field value of ShflMode. -/
def ShflMode.bits : ShflMode → BitVec 2
  | .idx => 0#2
  | .up => 1#2
  | .down => 2#2
  | .xor => 3#2

/-- ShflMode from its field; none for a reserved value. -/
def ShflMode.ofBits (b : BitVec 2) : Option ShflMode :=
  if b = 0#2 then some .idx else
  if b = 1#2 then some .up else
  if b = 2#2 then some .down else
  if b = 3#2 then some .xor else
  none

/-- Field value of FCond. -/
def FCond.bits : FCond → BitVec 3
  | .eq => 0#3
  | .ne => 1#3
  | .lt => 2#3
  | .le => 3#3
  | .gt => 4#3
  | .ge => 5#3
  | .un => 6#3
  | .ord => 7#3

/-- FCond from its field; none for a reserved value. -/
def FCond.ofBits (b : BitVec 3) : Option FCond :=
  if b = 0#3 then some .eq else
  if b = 1#3 then some .ne else
  if b = 2#3 then some .lt else
  if b = 3#3 then some .le else
  if b = 4#3 then some .gt else
  if b = 5#3 then some .ge else
  if b = 6#3 then some .un else
  if b = 7#3 then some .ord else
  none

/-- Field value of ICond. -/
def ICond.bits : ICond → BitVec 3
  | .eq => 0#3
  | .ne => 1#3
  | .lt => 2#3
  | .le => 3#3
  | .gt => 4#3
  | .ge => 5#3

/-- ICond from its field; none for a reserved value. -/
def ICond.ofBits (b : BitVec 3) : Option ICond :=
  if b = 0#3 then some .eq else
  if b = 1#3 then some .ne else
  if b = 2#3 then some .lt else
  if b = 3#3 then some .le else
  if b = 4#3 then some .gt else
  if b = 5#3 then some .ge else
  none

/-- Field value of FTy3. -/
def FTy3.bits : FTy3 → BitVec 2
  | .f32 => 0#2
  | .f16 => 1#2
  | .bf16 => 2#2

/-- FTy3 from its field; none for a reserved value. -/
def FTy3.ofBits (b : BitVec 2) : Option FTy3 :=
  if b = 0#2 then some .f32 else
  if b = 1#2 then some .f16 else
  if b = 2#2 then some .bf16 else
  none

/-- Field value of Rnd. -/
def Rnd.bits : Rnd → BitVec 3
  | .rne => 0#3
  | .rz => 1#3
  | .rp => 2#3
  | .rm => 3#3
  | .rs => 4#3

/-- Rnd from its field; none for a reserved value. -/
def Rnd.ofBits (b : BitVec 3) : Option Rnd :=
  if b = 0#3 then some .rne else
  if b = 1#3 then some .rz else
  if b = 2#3 then some .rp else
  if b = 3#3 then some .rm else
  if b = 4#3 then some .rs else
  none

/-- Field value of Fmt. -/
def Fmt.bits : Fmt → BitVec 3
  | .f32 => 0#3
  | .f16 => 1#3
  | .bf16 => 2#3
  | .e4m3 => 3#3
  | .e5m2 => 4#3
  | .e2m1 => 5#3
  | .i32 => 6#3
  | .n32 => 7#3

/-- Fmt from its field; none for a reserved value. -/
def Fmt.ofBits (b : BitVec 3) : Option Fmt :=
  if b = 0#3 then some .f32 else
  if b = 1#3 then some .f16 else
  if b = 2#3 then some .bf16 else
  if b = 3#3 then some .e4m3 else
  if b = 4#3 then some .e5m2 else
  if b = 5#3 then some .e2m1 else
  if b = 6#3 then some .i32 else
  if b = 7#3 then some .n32 else
  none

/-- Field value of MSize. -/
def MSize.bits : MSize → BitVec 3
  | .n8 => 0#3
  | .i8 => 1#3
  | .n16 => 2#3
  | .i16 => 3#3
  | .w32 => 4#3
  | .w64 => 5#3
  | .w128 => 6#3

/-- MSize from its field; none for a reserved value. -/
def MSize.ofBits (b : BitVec 3) : Option MSize :=
  if b = 0#3 then some .n8 else
  if b = 1#3 then some .i8 else
  if b = 2#3 then some .n16 else
  if b = 3#3 then some .i16 else
  if b = 4#3 then some .w32 else
  if b = 5#3 then some .w64 else
  if b = 6#3 then some .w128 else
  none

/-- Field value of MoviTy. -/
def MoviTy.bits : MoviTy → BitVec 3
  | .i32 => 0#3
  | .n32 => 1#3
  | .i16 => 2#3
  | .n16 => 3#3
  | .f32 => 4#3
  | .f16 => 5#3
  | .e4m3 => 6#3

/-- MoviTy from its field; none for a reserved value. -/
def MoviTy.ofBits (b : BitVec 3) : Option MoviTy :=
  if b = 0#3 then some .i32 else
  if b = 1#3 then some .n32 else
  if b = 2#3 then some .i16 else
  if b = 3#3 then some .n16 else
  if b = 4#3 then some .f32 else
  if b = 5#3 then some .f16 else
  if b = 6#3 then some .e4m3 else
  none

/-- Field value of AOp. -/
def AOp.bits : AOp → BitVec 4
  | .add => 0#4
  | .min => 1#4
  | .max => 2#4
  | .minu => 3#4
  | .maxu => 4#4
  | .and => 5#4
  | .or => 6#4
  | .xor => 7#4
  | .xchg => 8#4
  | .cas => 9#4
  | .fadd => 10#4
  | .maxsi => 11#4

/-- AOp from its field; none for a reserved value. -/
def AOp.ofBits (b : BitVec 4) : Option AOp :=
  if b = 0#4 then some .add else
  if b = 1#4 then some .min else
  if b = 2#4 then some .max else
  if b = 3#4 then some .minu else
  if b = 4#4 then some .maxu else
  if b = 5#4 then some .and else
  if b = 6#4 then some .or else
  if b = 7#4 then some .xor else
  if b = 8#4 then some .xchg else
  if b = 9#4 then some .cas else
  if b = 10#4 then some .fadd else
  if b = 11#4 then some .maxsi else
  none

/-- Field value of Scope. -/
def Scope.bits : Scope → BitVec 2
  | .cord => 0#2
  | .stand => 1#2
  | .grove => 2#2
  | .die => 3#2

/-- Scope from its field; none for a reserved value. -/
def Scope.ofBits (b : BitVec 2) : Option Scope :=
  if b = 0#2 then some .cord else
  if b = 1#2 then some .stand else
  if b = 2#2 then some .grove else
  if b = 3#2 then some .die else
  none

/-- Field value of CopyDir. -/
def CopyDir.bits : CopyDir → BitVec 2
  | .h2s => 0#2
  | .s2h => 1#2
  | .h2h => 2#2
  | .s2s => 3#2

/-- CopyDir from its field; none for a reserved value. -/
def CopyDir.ofBits (b : BitVec 2) : Option CopyDir :=
  if b = 0#2 then some .h2s else
  if b = 1#2 then some .s2h else
  if b = 2#2 then some .h2h else
  if b = 3#2 then some .s2s else
  none

/-- Field value of CopySize. -/
def CopySize.bits : CopySize → BitVec 2
  | .b4 => 0#2
  | .b8 => 1#2
  | .b16 => 2#2

/-- CopySize from its field; none for a reserved value. -/
def CopySize.ofBits (b : BitVec 2) : Option CopySize :=
  if b = 0#2 then some .b4 else
  if b = 1#2 then some .b8 else
  if b = 2#2 then some .b16 else
  none

/-- Field value of DrainFmt. -/
def DrainFmt.bits : DrainFmt → BitVec 4
  | .f32 => 0#4
  | .f16 => 1#4
  | .bf16 => 2#4
  | .e4m3 => 3#4
  | .e5m2 => 4#4
  | .e2m1 => 5#4

/-- DrainFmt from its field; none for a reserved value. -/
def DrainFmt.ofBits (b : BitVec 4) : Option DrainFmt :=
  if b = 0#4 then some .f32 else
  if b = 1#4 then some .f16 else
  if b = 2#4 then some .bf16 else
  if b = 3#4 then some .e4m3 else
  if b = 4#4 then some .e5m2 else
  if b = 5#4 then some .e2m1 else
  none

/-- Field value of ListTy. -/
def ListTy.bits : ListTy → BitVec 2
  | .f32 => 0#2
  | .bf16 => 1#2
  | .i32 => 2#2

/-- ListTy from its field; none for a reserved value. -/
def ListTy.ofBits (b : BitVec 2) : Option ListTy :=
  if b = 0#2 then some .f32 else
  if b = 1#2 then some .bf16 else
  if b = 2#2 then some .i32 else
  none

/-- Destination of the V and F formats; NW = 1 needs a zero field (R51). -/
def dstOf (d : VCode) (nw : Bool) : Option Dst :=
  if nw then (if d = 0#6 then some .nw else none) else some (.reg d)

/-- The destination field. -/
def Dst.code : Dst → VCode
  | .reg d => d
  | .nw => 0#6

/-- The NW bit. -/
def Dst.nwBit : Dst → Bool
  | .reg _ => false
  | .nw => true

/-- V format with two sources (R41). -/
def decV2 (w : BitVec 32) : Option V2 := do
  let dst ← dstOf (fld w 19 6) (bitAt w 18)
  let pa ← Perm.ofBits (fld w 4 2)
  let pb ← Perm.ofBits (fld w 2 2)
  pure { dst, a := fld w 12 6, b := fld w 6 6, pa, pb }

/-- V format, unary: b holds the sub-operation and pb is zero (R67). -/
def decV1 (w : BitVec 32) : Option V1 := do
  let dst ← dstOf (fld w 19 6) (bitAt w 18)
  let pa ← Perm.ofBits (fld w 4 2)
  pure { dst, a := fld w 12 6, pa }

/-- F format (R41). -/
def decF3 (w : BitVec 32) : Option F3 := do
  let dst ← dstOf (fld w 19 6) (bitAt w 0)
  pure { dst, a := fld w 13 6, b := fld w 7 6, c := fld w 1 6 }

/-- V format of a compare; NW must be zero (R51). -/
def decVCmp (w : BitVec 32) : Option VCmp := do
  let pa ← Perm.ofBits (fld w 4 2)
  let pb ← Perm.ofBits (fld w 2 2)
  if bitAt w 18 then none
  else pure { p := fld w 19 3, a := fld w 12 6, b := fld w 6 6, pa, pb }

/-- S format registers (R41). -/
def decS3 (w : BitVec 32) : S3 := { d := fld w 20 5, a := fld w 15 5, b := fld w 10 5 }

/-- M format (R41). -/
def decM (w : BitVec 32) : Option MOps := do
  let size ← MSize.ofBits (fld w 1 3)
  pure { d := fld w 19 6, s := fld w 14 5, v := fld w 8 6, stream := fld w 4 4, size, ordered := bitAt w 0 }

/-- A format (R41). -/
def decA (w : BitVec 32) : Option AOps := do
  let op ← AOp.ofBits (fld w 0 4)
  pure { d := fld w 19 6, s := fld w 14 5, v := fld w 8 6, stream := fld w 4 4, op }

/-- X format registers d and s. -/
def decX (w : BitVec 32) : XOps := { d := fld w 19 6, s := fld w 14 5 }

/-- An X-format word with v = 111111 (R224, R280, R305, R342). -/
def v63 (w : BitVec 32) : Bool := fld w 8 6 = 63#6

/-- Keeps a value when a test holds. -/
def keep {α : Type} (c : Bool) (x : α) : Option α := if c then some x else none

/-- Opcodes 0x01 to 0x0A: control flow, predicates, votes (R155 to R162). -/
def decBranch (w : BitVec 32) : Option Instr :=
  match (fld w 25 7).toNat with
  | 0x01 => some (.brc (fld w 22 3) (bitAt w 21) (fld w 0 21))
  | 0x02 => keep (fld w 21 4 = 0) (.jmp (fld w 0 21))
  | 0x03 => keep (fld w 21 4 = 0) (.call (fld w 0 21))
  | 0x04 =>
    if fld w 14 5 ≠ 0 ∨ fld w 0 10 ≠ 0 then none else
    match (fld w 10 4).toNat with
    | 0 => some (.jmpr (fld w 19 6))
    | 1 => some (.callr (fld w 19 6))
    | 2 => keep (fld w 19 6 = 0) .ret
    | _ => none
  | 0x05 => keep (fld w 21 4 = 0) (.rcv (fld w 0 21))
  | 0x06 => keep (fld w 0 25 = 0) .join
  | 0x07 => keep (!bitAt w 21) (.brk (fld w 22 3) (fld w 0 21))
  | 0x08 =>
    if fld w 10 15 ≠ 0 ∨ fld w 0 6 ≠ 0 then none else
    match (fld w 6 4).toNat with
    | 0 => some .exit
    | 1 => some .yield
    | _ => none
  | 0x09 =>
    if fld w 0 6 ≠ 0 then none else
    match (fld w 6 4).toNat with
    | 0 => some (.pand (decS3 w))
    | 1 => some (.por (decS3 w))
    | 2 => some (.pxor (decS3 w))
    | 3 => some (.pandn (decS3 w))
    | 4 => keep (fld w 10 5 = 0) (.pnot (fld w 20 5) (fld w 15 5))
    | 5 => keep (fld w 10 5 = 0) (.pmov (fld w 20 5) (fld w 15 5))
    | _ => none
  | 0x0A =>
    if fld w 2 10 ≠ 0 ∨ bitAt w 18 then none else
    match (fld w 0 2).toNat with
    | 0 => some (.voteAll (fld w 19 6) (fld w 12 6))
    | 1 => some (.voteAny (fld w 19 6) (fld w 12 6))
    | 2 => some (.voteBal (fld w 19 6) (fld w 12 6))
    | _ => none
  | _ => none

/-- Opcodes 0x0B to 0x0F: system instructions, LFSR, tags and hints (R393, R392, R394, R163, R90, R56). -/
def decSystem (w : BitVec 32) : Option Instr :=
  match (fld w 25 7).toNat with
  | 0x0B =>
    if fld w 20 5 ≠ 0 then none else
    match (fld w 16 4).toNat with
    | 0 => some (.trap (fld w 0 16))
    | 1 => keep (fld w 0 16 = 0) .eret
    | 2 => keep (fld w 0 16 = 0) .halt
    | _ => none
  | 0x0C =>
    match (fld w 16 4).toNat with
    | 0 => (Spr.ofBits (fld w 0 16)).map (Instr.rdspr (fld w 20 5))
    | 1 => (Spr.ofBits (fld w 0 16)).map (Instr.wrspr (fld w 20 5))
    | _ => none
  | 0x0D =>
    if fld w 0 6 ≠ 0 then none else
    match (fld w 6 4).toNat with
    | 0 => keep (fld w 20 5 = 0) (.tlbinv (fld w 15 5) (fld w 10 5))
    | 1 => keep (fld w 10 5 = 0) (.csave (fld w 20 5) (fld w 15 5))
    | 2 => some (.crst (decS3 w))
    | 3 => some (.world (decS3 w))
    | _ => none
  | 0x0E =>
    if fld w 0 10 ≠ 0 then none else
    match (fld w 10 4).toNat with
    | 0 => keep (fld w 19 6 = 0) (.rdseed (fld w 14 5))
    | 1 => keep (fld w 19 6 = 0) (.wrseed (fld w 14 5))
    | 2 => some (.rdtag (fld w 19 6) (fld w 14 5))
    | _ => none
  | 0x0F =>
    match (fld w 21 4).toNat with
    | 0 => keep (fld w 18 3 = 0)
        (.hprm (bitAt w 17) (bitAt w 16) (bitAt w 15) (fld w 10 5) (fld w 5 5) (fld w 0 5))
    | 1 => some (.himm (fld w 0 21))
    | 2 => keep (fld w 0 21 = 0) .hyld
    | 3 => some (.hstl (fld w 0 21))
    | 4 => keep (fld w 5 16 = 0) (.hcache (bitAt w 4) (fld w 2 2) (fld w 0 2))
    | 5 => keep (fld w 4 17 = 0) (.hpred (bitAt w 3) (fld w 0 3))
    | _ => none
  | _ => none

/-- Opcodes 0x10 to 0x14: scalar instructions (R93 to R96, R198). -/
def decScalar (w : BitVec 32) : Option Instr :=
  match (fld w 25 7).toNat with
  | 0x10 =>
    if fld w 0 6 ≠ 0 then none else
    match (fld w 6 4).toNat with
    | 0 => some (.sadd (decS3 w))
    | 1 => some (.ssub (decS3 w))
    | 2 => some (.smul (decS3 w))
    | 3 => some (.smulh (decS3 w))
    | 4 => some (.smulhu (decS3 w))
    | 5 => some (.sand (decS3 w))
    | 6 => some (.sor (decS3 w))
    | 7 => some (.sxor (decS3 w))
    | 8 => some (.sshl (decS3 w))
    | 9 => some (.sshr (decS3 w))
    | 10 => some (.ssra (decS3 w))
    | 11 => some (.smin (decS3 w))
    | 12 => some (.smax (decS3 w))
    | 13 => some (.sminu (decS3 w))
    | 14 => some (.sslt (decS3 w))
    | 15 => some (.ssltu (decS3 w))
    | _ => none
  | 0x11 =>
    match (fld w 16 4).toNat with
    | 0 => some (.saddi (fld w 20 5) (fld w 0 16))
    | 1 => some (.smuli (fld w 20 5) (fld w 0 16))
    | 2 => some (.sandi (fld w 20 5) (fld w 0 16))
    | 3 => some (.sori (fld w 20 5) (fld w 0 16))
    | 4 => some (.sxori (fld w 20 5) (fld w 0 16))
    | 5 => some (.sshli (fld w 20 5) (fld w 0 16))
    | 6 => some (.sshri (fld w 20 5) (fld w 0 16))
    | 7 => some (.ssrai (fld w 20 5) (fld w 0 16))
    | 8 => some (.sslti (fld w 20 5) (fld w 0 16))
    | 9 => some (.ssltui (fld w 20 5) (fld w 0 16))
    | _ => none
  | 0x12 =>
    if bitAt w 19 then none
    else if bitAt w 18 then keep (fld w 16 2 = 0) (.sldi (fld w 20 5) (fld w 0 16))
    else some (.sldiH (fld w 20 5) (fld w 16 2) (fld w 0 16))
  | 0x13 =>
    if fld w 5 5 ≠ 0 then none else
    match (fld w 10 4).toNat with
    | 0 => keep (fld w 0 5 = 0) (.s2v (fld w 19 6) (fld w 14 5))
    | 1 => some (.v2s (fld w 19 6) (fld w 14 5) (fld w 0 5))
    | _ => none
  | 0x14 =>
    if bitAt w 10 ∨ fld w 0 6 ≠ 0 ∨ fld w 8 2 ≠ 0 then none
    else if bitAt w 7 then some (.sst (fld w 20 5) (fld w 15 5) (fld w 11 4) (bitAt w 6))
    else some (.sld (fld w 20 5) (fld w 15 5) (fld w 11 4) (bitAt w 6))
  | _ => none

/-- Opcodes 0x20 to 0x39: vector integer instructions (R67, R99 to R110). -/
def decInt (w : BitVec 32) : Option Instr :=
  match (fld w 25 7).toNat with
  | 0x20 => (decV2 w).bind fun o => (IntTy.ofBits (fld w 0 2)).map (Instr.iadd o)
  | 0x21 => (decV2 w).bind fun o => (IntTy.ofBits (fld w 0 2)).map (Instr.isub o)
  | 0x22 => (decV2 w).bind fun o => (IntTy.ofBits (fld w 0 2)).map (Instr.imul o)
  | 0x23 => (decV2 w).bind fun o => (IntTy.ofBits (fld w 0 2)).map (Instr.imulh o)
  | 0x24 => (decF3 w).map .imad
  | 0x25 => (decV2 w).bind fun o => (IntTy.ofBits (fld w 0 2)).map (Instr.imin o)
  | 0x26 => (decV2 w).bind fun o => (IntTy.ofBits (fld w 0 2)).map (Instr.imax o)
  | 0x27 =>
    if fld w 2 2 ≠ 0 then none else
    match (fld w 6 6).toNat with
    | 0 => (decV1 w).bind fun o => (ElW.ofBits (fld w 0 2)).map (Instr.iabs o)
    | 1 => (decV1 w).bind fun o => (ElW.ofBits (fld w 0 2)).map (Instr.ineg o)
    | _ => none
  | 0x28 => if fld w 0 2 ≠ 0 then none else (decV2 w).map .and
  | 0x29 => if fld w 0 2 ≠ 0 then none else (decV2 w).map .or
  | 0x2A => if fld w 0 2 ≠ 0 then none else (decV2 w).map .xor
  | 0x2B => if fld w 0 4 ≠ 0 ∨ fld w 6 6 ≠ 0 then none else (decV1 w).map .not
  | 0x2C => (decV2 w).bind fun o => (ElW.ofBits (fld w 0 2)).map (Instr.shl o)
  | 0x2D => (decV2 w).bind fun o => (ElW.ofBits (fld w 0 2)).map (Instr.shr o)
  | 0x2E => (decV2 w).bind fun o => (ElW.ofBits (fld w 0 2)).map (Instr.sra o)
  | 0x2F => (decV2 w).bind fun o => (ElW.ofBits (fld w 0 2)).map (Instr.rot o)
  | 0x30 =>
    if fld w 0 4 ≠ 0 then none else
    match (fld w 6 6).toNat with
    | 0 => (decV1 w).map .popc
    | 1 => (decV1 w).map .clz
    | 2 => (decV1 w).map .ctz
    | 3 => (decV1 w).map .brev
    | _ => none
  | 0x31 => (decVCmp w).bind fun o => (ICond.ofBits (fld w 22 3)).bind fun c =>
      (IntTy.ofBits (fld w 0 2)).map (Instr.iset c o)
  | 0x32 => (dstOf (fld w 19 6) (bitAt w 18)).bind fun d => (Perm.ofBits (fld w 4 2)).map fun pa =>
      .sel d (fld w 12 6) (fld w 6 6) pa (fld w 1 3) (bitAt w 0)
  | 0x33 => if fld w 0 4 ≠ 0 ∨ fld w 6 6 ≠ 0 then none else (decV1 w).map .mov
  | 0x34 => (MoviTy.ofBits (fld w 16 3)).map fun t => .movi (fld w 19 6) t (fld w 0 16)
  | 0x35 => if bitAt w 18 then none else (IntTy.ofBits (fld w 16 2)).map fun t => .iaddi (fld w 19 6) t (fld w 0 16)
  | 0x36 => if bitAt w 18 then none else (IntTy.ofBits (fld w 16 2)).map fun t => .imuli (fld w 19 6) t (fld w 0 16)
  | 0x37 =>
    match (fld w 16 3).toNat with
    | 0 => some (.andi (fld w 19 6) (fld w 0 16))
    | 1 => some (.ori (fld w 19 6) (fld w 0 16))
    | 2 => some (.xori (fld w 19 6) (fld w 0 16))
    | _ => none
  | 0x38 =>
    match (fld w 0 2).toNat with
    | 0 => if fld w 2 16 ≠ 0 then none else (dstOf (fld w 19 6) (bitAt w 18)).map .laneid
    | 1 => (decV2 w).map .affine
    | _ => none
  | 0x39 => (decV2 w).bind fun o => (ShflMode.ofBits (fld w 0 2)).map (Instr.shfl o)
  | _ => none

/-- Opcodes 0x40 to 0x4E: float instructions (R68, R122 to R134). -/
def decFloat (w : BitVec 32) : Option Instr :=
  match (fld w 25 7).toNat with
  | 0x40 => (decV2 w).bind fun o => (FTy.ofBits (fld w 0 2)).map (Instr.fadd o)
  | 0x41 => (decV2 w).bind fun o => (FTy.ofBits (fld w 0 2)).map (Instr.fsub o)
  | 0x42 => (decV2 w).bind fun o => (FTy.ofBits (fld w 0 2)).map (Instr.fmul o)
  | 0x43 => (decF3 w).map .ffma
  | 0x44 => (decV2 w).bind fun o => (FTy.ofBits (fld w 0 2)).map (Instr.fmin o)
  | 0x45 => (decV2 w).bind fun o => (FTy.ofBits (fld w 0 2)).map (Instr.fmax o)
  | 0x46 => (decVCmp w).bind fun o => (FCond.ofBits (fld w 22 3)).bind fun c =>
      (FTy3.ofBits (fld w 0 2)).map (Instr.fset c o)
  | 0x47 =>
    if fld w 2 2 ≠ 0 then none else
    match (fld w 6 6).toNat with
    | 0 => (decV1 w).bind fun o => (FTy3.ofBits (fld w 0 2)).map (Instr.fabs o)
    | 1 => (decV1 w).bind fun o => (FTy3.ofBits (fld w 0 2)).map (Instr.fneg o)
    | 2 => if fld w 0 2 ≠ 0 then none else (decV1 w).map .fsqrt
    | 3 => if fld w 0 2 ≠ 0 then none else (decV1 w).map .frsq
    | 4 => if fld w 0 2 ≠ 0 then none else (decV1 w).map .frcp
    | 5 => if fld w 0 2 ≠ 0 then none else (decV1 w).map .fexp2
    | 6 => if fld w 0 2 ≠ 0 then none else (decV1 w).map .flog2
    | 7 => if fld w 0 2 ≠ 0 then none else (decV1 w).map .fsin
    | 8 => if fld w 0 2 ≠ 0 then none else (decV1 w).map .fcos
    | 9 => if fld w 0 2 ≠ 0 then none else (decV1 w).map .ftanh
    | 10 => if fld w 0 2 ≠ 0 then none else (decV1 w).map .ffloor
    | 11 => if fld w 0 2 ≠ 0 then none else (decV1 w).map .fceil
    | 12 => if fld w 0 2 ≠ 0 then none else (decV1 w).map .ftrunc
    | 13 => if fld w 0 2 ≠ 0 then none else (decV1 w).map .frint
    | _ => none
  | 0x48 => do
    let dst ← dstOf (fld w 19 6) (bitAt w 18)
    let pa ← Perm.ofBits (fld w 4 2)
    let df ← Fmt.ofBits (fld w 9 3)
    let sf ← Fmt.ofBits (fld w 6 3)
    let r ← Rnd.ofBits (fld w 1 3)
    keep (fcvtOk df sf (bitAt w 0)) (.fcvt { dst, a := fld w 12 6, pa } df sf r (bitAt w 0))
  | 0x49 => (decV2 w).bind fun o => (FTy3.ofBits (fld w 0 2)).map (Instr.fscale o)
  | 0x4A => (decV2 w).bind fun o => (PackTy.ofBits (fld w 0 2)).map (Instr.fpack o)
  | 0x4B =>
    if fld w 0 4 ≠ 0 then none else
    (decV1 w).bind fun o => keep (decide ((fld w 6 6).toNat < 20)) (.funpk o (fld w 6 6))
  | 0x4C => (FImmTy.ofBits (fld w 16 3)).map fun t => .faddi (fld w 19 6) t (fld w 0 16)
  | 0x4D => (FImmTy.ofBits (fld w 16 3)).map fun t => .fmuli (fld w 19 6) t (fld w 0 16)
  | 0x4E => (decF3 w).map .dot2
  | _ => none

/-- Opcodes 0x50 to 0x57: memory instructions (R196 to R202). -/
def decMem (w : BitVec 32) : Option Instr :=
  match (fld w 25 7).toNat with
  | 0x50 => (decM w).map .ld
  | 0x51 => (decM w).bind fun o => keep o.size.storable (.st o)
  | 0x52 => (decM w).map .lds
  | 0x53 => (decM w).bind fun o => keep o.size.storable (.sts o)
  | 0x54 => (decA w).bind fun o => keep (o.op != .maxsi) (.atom o)
  | 0x55 => (decA w).bind fun o => keep (o.op != .fadd) (.atoms o)
  | 0x56 =>
    if fld w 20 3 ≠ 0 then none else
    (Scope.ofBits (fld w 23 2)).bind fun c =>
    match (fld w 16 4).toNat with
    | 0 => keep (fld w 0 16 = 0) (.fence c)
    | 1 => keep (fld w 0 16 ≠ 0) (.fenceX c (fld w 0 16))
    | 2 => keep (fld w 0 16 = 0) (.fenceAcq c)
    | 3 => keep (fld w 0 16 = 0) (.fenceRel c)
    | _ => none
  | 0x57 => keep (fld w 20 5 = 0 && fld w 0 8 = 0) (.pref (bitAt w 19) (fld w 14 5) (fld w 8 6))
  | _ => none

/-- Opcodes 0x58 to 0x5E: asynchronous copies and barrier objects (R211 to R222). -/
def decCopy (w : BitVec 32) : Option Instr :=
  match (fld w 25 7).toNat with
  | 0x58 =>
    if fld w 6 2 ≠ 0 ∨ fld w 2 2 ≠ 0 then none else
    (CopyDir.ofBits (fld w 4 2)).bind fun dir => (CopySize.ofBits (fld w 0 2)).map fun z =>
      .cpy (fld w 19 6) (fld w 14 5) (fld w 8 6) dir z
  | 0x59 => keep (v63 w && fld w 5 3 = 0 && fld w 0 4 = 0) (.cpyt (decX w) (bitAt w 4))
  | 0x5A => keep (v63 w && fld w 0 8 = 0) (.cpyx (decX w))
  | 0x5B => keep (v63 w && fld w 0 8 = 0) (.cpym (decX w))
  | 0x5C => keep (v63 w && fld w 0 8 = 0) (.mcdrain (decX w))
  | 0x5D => keep (v63 w && fld w 1 7 = 0) (.cpyw (decX w) (bitAt w 0))
  | 0x5E =>
    if fld w 0 4 ≠ 0 ∨ !v63 w then none else
    match (fld w 4 4).toNat with
    | 0 => some (.bari (decX w))
    | 1 => keep (fld w 19 6 = 0) (.barw (fld w 14 5))
    | _ => none
  | _ => none

/-- Opcodes 0x60 to 0x67: crews, barriers, futures, tasks, grove words, time (R224). -/
def decSync (w : BitVec 32) : Option Instr :=
  if !v63 w then none else
  match (fld w 25 7).toNat with
  | 0x60 =>
    if fld w 0 4 ≠ 0 then none else
    match (fld w 4 4).toNat with
    | 0 => some (.cjoin (decX w))
    | 1 => keep (fld w 19 6 = 0) (.cleave (fld w 14 5))
    | _ => none
  | 0x61 => keep (fld w 0 8 = 0) (.cbar (decX w))
  | 0x62 =>
    if fld w 0 4 ≠ 0 then none else
    match (fld w 4 4).toNat with
    | 0 => some (.pbar (decX w))
    | 1 => some (.pwait (decX w))
    | _ => none
  | 0x63 =>
    if fld w 1 3 ≠ 0 then none else
    match (fld w 4 4).toNat with
    | 0 => some (.fres (decX w) (bitAt w 0))
    | 1 => keep (!bitAt w 0) (.fwait (decX w))
    | 2 => keep (!bitAt w 0) (.ftest (decX w))
    | _ => none
  | 0x64 => keep (fld w 0 8 = 0) (.spawn (decX w))
  | 0x65 =>
    if fld w 0 4 ≠ 0 then none else
    match (fld w 4 4).toNat with
    | 0 => some (.take (decX w))
    | 1 => some (.steal (decX w))
    | 2 => some (.done (decX w))
    | _ => none
  | 0x66 =>
    if fld w 19 6 ≠ 0 then none else
    match (fld w 4 4).toNat with
    | 0 => some (.gmax (fld w 14 5) (fld w 0 4))
    | 1 => some (.gmin (fld w 14 5) (fld w 0 4))
    | 2 => some (.grd (fld w 14 5) (fld w 0 4))
    | 3 => some (.gwait (fld w 14 5) (fld w 0 4))
    | _ => none
  | 0x67 =>
    if fld w 19 6 ≠ 0 ∨ fld w 0 4 ≠ 0 then none else
    match (fld w 4 4).toNat with
    | 0 => some (.sleep (fld w 14 5))
    | 1 => some (.rdclk (fld w 14 5))
    | 2 => some (.rdts (fld w 14 5))
    | _ => none
  | _ => none

/-- Opcodes 0x68 to 0x6F: matrix instructions (R280). -/
def decMatrix (w : BitVec 32) : Option Instr :=
  if !v63 w then none else
  match (fld w 25 7).toNat with
  | 0x68 => keep (fld w 0 8 = 0) (.mtask (decX w))
  | 0x69 => keep (fld w 19 6 = 0 && fld w 14 5 = 31 && fld w 0 8 = 0) .mfence
  | 0x6A => do
    let f ← DrainFmt.ofBits (fld w 4 4)
    let r ← Rnd.ofBits (fld w 1 3)
    keep (mdrainOk f r (bitAt w 0)) (.mdrain (decX w) f r (bitAt w 0))
  | 0x6B =>
    if fld w 1 3 ≠ 0 then none else
    match (fld w 4 4).toNat with
    | 0 => keep (!bitAt w 0) (.wpin (decX w))
    | 1 => some (.wevict (decX w) (bitAt w 0))
    | _ => none
  | 0x6C => keep (fld w 0 8 = 0) (.marrive (decX w))
  | 0x6D => keep (fld w 19 6 = 0 && fld w 0 8 = 0) (.mqcfg (fld w 14 5))
  | 0x6E => keep (fld w 19 6 = 0 && fld w 0 8 = 0) (.mzero (fld w 14 5))
  | 0x6F =>
    if fld w 19 6 ≠ 0 ∨ fld w 0 4 ≠ 0 then none else
    match (fld w 4 4).toNat with
    | 0 => some (.mstatRead (fld w 14 5))
    | 1 => some (.mstatClr (fld w 14 5))
    | _ => none
  | _ => none

/-- Opcodes 0x70 to 0x73: ranked-list instructions (R305). -/
def decList (w : BitVec 32) : Option Instr :=
  match (fld w 25 7).toNat with
  | 0x70 =>
    if fld w 1 3 ≠ 0 ∨ fld w 6 2 ≠ 0 ∨ !v63 w then none else
    (ListTy.ofBits (fld w 4 2)).map fun t => .ldecl (decX w) t (bitAt w 0)
  | 0x71 =>
    if fld w 0 4 ≠ 0 ∨ fld w 6 2 ≠ 0 then none else
    (ListTy.ofBits (fld w 4 2)).map fun t => .lins (decX w) (fld w 8 6) t
  | 0x72 => keep (v63 w && fld w 0 8 = 0) (.lmerge (decX w))
  | 0x73 =>
    if fld w 0 4 ≠ 0 then none else
    match (fld w 4 4).toNat with
    | 0 => keep (v63 w) (.lread (decX w))
    | 1 => some (.lthr (fld w 19 6) (fld w 14 5) (fld w 8 6))
    | 2 => keep (v63 w && fld w 19 6 = 0) (.lclr (fld w 14 5))
    | _ => none
  | _ => none

/-- Opcodes 0x74 to 0x7D: flumes, launch and combine (R342, R353, R362, R370). -/
def decFlume (w : BitVec 32) : Option Instr :=
  match (fld w 25 7).toNat with
  | 0x74 => keep (v63 w && fld w 0 8 = 0) (.qbind (fld w 19 6) (fld w 14 5))
  | 0x75 => keep (v63 w && fld w 0 8 = 0) (.qrsv (decX w))
  | 0x76 => keep (fld w 0 8 = 0) (.qput (decX w) (fld w 8 6))
  | 0x77 => keep (v63 w && fld w 0 8 = 0) (.qenq (decX w))
  | 0x78 =>
    if fld w 0 4 ≠ 0 ∨ !v63 w then none else
    match (fld w 4 4).toNat with
    | 0 => some (.qdeq (decX w))
    | 1 => some (.qtry (decX w))
    | _ => none
  | 0x79 =>
    if fld w 0 4 ≠ 0 ∨ !v63 w then none else
    match (fld w 4 4).toNat with
    | 0 => some (.qalw (fld w 19 6) (fld w 14 5))
    | 1 => keep (fld w 19 6 = 0) (.qinv (fld w 14 5))
    | 2 => some (.qstat (decX w))
    | _ => none
  | 0x7A => some (.bral (fld w 22 3) (fld w 18 4) (fld w 0 18))
  | 0x7C => keep (v63 w && fld w 0 8 = 0) (.launch (decX w))
  | 0x7D =>
    if fld w 0 4 ≠ 0 ∨ !v63 w then none else
    match (fld w 4 4).toNat with
    | 0 => some (.cmbi (decX w))
    | 1 => some (.cmbw (decX w))
    | _ => none
  | _ => none

/-- Limits of a decoded selector that its format's fields do not carry: HCACHE's L2 policy (R61) and the shift
immediates (R55). -/
def fieldOk : Instr → Bool
  | .hcache _ l2 _ => l2 != 2
  | .sshli _ i => decide (i.toNat < 64)
  | .sshri _ i => decide (i.toNat < 64)
  | .ssrai _ i => decide (i.toNat < 64)
  | _ => true

/-- The instruction of a word that some row of the opcode map accepts; none for every other word (R64 to R72). -/
def decodeOpt (w : BitVec 32) : Option Instr :=
  let op := (fld w 25 7).toNat
  let r :=
    if op = 0 then keep (w = 0) Instr.nop
    else if op < 0x0B then decBranch w
    else if op < 0x10 then decSystem w
    else if op < 0x20 then decScalar w
    else if op < 0x40 then decInt w
    else if op < 0x50 then decFloat w
    else if op < 0x58 then decMem w
    else if op < 0x60 then decCopy w
    else if op < 0x68 then decSync w
    else if op < 0x70 then decMatrix w
    else if op < 0x74 then decList w
    else decFlume w
  r.filter fieldOk

/-- The instruction of a word; a word no row accepts is the row ILLEGAL_WORD (R72). -/
def decodeWord (w : BitVec 32) : Instr := (decodeOpt w).getD (.illegalWord w)

/-- Why bytes give no instruction. -/
inductive DecodeError
  | short   -- fewer than the four bytes of a word (R38)
  deriving DecidableEq, Repr

/-- The word of four bytes, little-endian (R1). -/
def wordOfBytes (a b c d : BitVec 8) : BitVec 32 := d ++ c ++ b ++ a

/-- The four bytes of a word, little-endian (R1). -/
def bytesOfWord (w : BitVec 32) : List (BitVec 8) :=
  [w.extractLsb' 0 8, w.extractLsb' 8 8, w.extractLsb' 16 8, w.extractLsb' 24 8]

/-- An instruction from bytes, with the bytes after it. -/
def decode : List (BitVec 8) → Except DecodeError (Instr × List (BitVec 8))
  | a :: b :: c :: d :: rest => .ok (decodeWord (wordOfBytes a b c d), rest)
  | _ => .error .short

/-- The instruction the decoder reads from the table's numbering of a row's bits: one 32-bit word. -/
def decodeTableWord (nbits w : Nat) : Option Instr :=
  if nbits ≤ 32 ∧ w < 2 ^ nbits then
    match decode (bytesOfWord (BitVec.ofNat 32 w)) with
    | .ok (i, _) => some i
    | .error _ => none
  else none

/-- Word of a V format with two sources. -/
def encV2 (op : BitVec 7) (o : V2) (t : BitVec 2) : BitVec 32 :=
  op ++ o.dst.code ++ bit1 o.dst.nwBit ++ o.a ++ o.b ++ o.pa.bits ++ o.pb.bits ++ t

/-- Word of a V format, unary, with sub-operation `sub`. -/
def encV1 (op : BitVec 7) (o : V1) (sub : BitVec 6) (t : BitVec 2) : BitVec 32 :=
  op ++ o.dst.code ++ bit1 o.dst.nwBit ++ o.a ++ sub ++ o.pa.bits ++ 0#2 ++ t

/-- Word of an F format. -/
def encF3 (op : BitVec 7) (o : F3) : BitVec 32 :=
  op ++ o.dst.code ++ o.a ++ o.b ++ o.c ++ bit1 o.dst.nwBit

/-- Word of a compare. -/
def encVCmp (op : BitVec 7) (c : BitVec 3) (o : VCmp) (t : BitVec 2) : BitVec 32 :=
  op ++ c ++ o.p ++ 0#1 ++ o.a ++ o.b ++ o.pa.bits ++ o.pb.bits ++ t

/-- Word of an S format. -/
def encS3 (op : BitVec 7) (o : S3) (sub : BitVec 4) : BitVec 32 := op ++ o.d ++ o.a ++ o.b ++ sub ++ 0#6

/-- Word of an SI format. -/
def encSI (op : BitVec 7) (d : SCode) (sub : BitVec 4) (imm : BitVec 16) : BitVec 32 := op ++ d ++ sub ++ imm

/-- Word of an I format. -/
def encI (op : BitVec 7) (d : VCode) (t : BitVec 3) (imm : BitVec 16) : BitVec 32 := op ++ d ++ t ++ imm

/-- Word of an M format. -/
def encM (op : BitVec 7) (o : MOps) : BitVec 32 :=
  op ++ o.d ++ o.s ++ o.v ++ o.stream ++ o.size.bits ++ bit1 o.ordered

/-- Word of an A format. -/
def encA (op : BitVec 7) (o : AOps) : BitVec 32 := op ++ o.d ++ o.s ++ o.v ++ o.stream ++ o.op.bits

/-- Word of a C format. -/
def encC (op : BitVec 7) (v : VCode) (s : SCode) (sub : BitVec 4) (imm : BitVec 10) : BitVec 32 :=
  op ++ v ++ s ++ sub ++ imm

/-- Word of an X format. -/
def encX (op : BitVec 7) (d : VCode) (s : SCode) (v : VCode) (sub flags : BitVec 4) : BitVec 32 :=
  op ++ d ++ s ++ v ++ sub ++ flags

/-- Word of a hint. -/
def encH (kind : BitVec 4) (payload : BitVec 21) : BitVec 32 := 0x0F#7 ++ kind ++ payload

/-- Word of a fence. -/
def encFence (c : Scope) (sub : BitVec 4) (imm : BitVec 16) : BitVec 32 := 0x56#7 ++ c.bits ++ 0#3 ++ sub ++ imm

/-- The word of a well-formed instruction (R41 and the field table of each entry); 0 for a device step, which has
none. -/
def encode : Instr → BitVec 32
  | .nop => 0
  | .illegalWord w => w
  | .brc p n i => 0x01#7 ++ p ++ bit1 n ++ i
  | .jmp i => 0x02#7 ++ 0#4 ++ i
  | .call i => 0x03#7 ++ 0#4 ++ i
  | .jmpr v => encC 0x04 v 0 0 0
  | .callr v => encC 0x04 v 0 1 0
  | .ret => encC 0x04 0 0 2 0
  | .rcv i => 0x05#7 ++ 0#4 ++ i
  | .join => 0x06#7 ++ 0#25
  | .brk d i => 0x07#7 ++ d ++ 0#1 ++ i
  | .exit => 0x08#7 ++ 0#15 ++ 0#4 ++ 0#6
  | .yield => 0x08#7 ++ 0#15 ++ 1#4 ++ 0#6
  | .pand o => encS3 0x09 o 0
  | .por o => encS3 0x09 o 1
  | .pxor o => encS3 0x09 o 2
  | .pandn o => encS3 0x09 o 3
  | .pnot d a => encS3 0x09 ⟨d, a, 0⟩ 4
  | .pmov d a => encS3 0x09 ⟨d, a, 0⟩ 5
  | .voteAll d p => 0x0A#7 ++ d ++ 0#1 ++ p ++ 0#10 ++ 0#2
  | .voteAny d p => 0x0A#7 ++ d ++ 0#1 ++ p ++ 0#10 ++ 1#2
  | .voteBal d p => 0x0A#7 ++ d ++ 0#1 ++ p ++ 0#10 ++ 2#2
  | .trap c => encSI 0x0B 0 0 c
  | .eret => encSI 0x0B 0 1 0
  | .halt => encSI 0x0B 0 2 0
  | .rdspr d r => encSI 0x0C d 0 r.bits
  | .wrspr d r => encSI 0x0C d 1 r.bits
  | .tlbinv a b => encS3 0x0D ⟨0, a, b⟩ 0
  | .csave d a => encS3 0x0D ⟨d, a, 0⟩ 1
  | .crst o => encS3 0x0D o 2
  | .world o => encS3 0x0D o 3
  | .rdseed s => encC 0x0E 0 s 0 0
  | .wrseed s => encC 0x0E 0 s 1 0
  | .rdtag v s => encC 0x0E v s 2 0
  | .hprm wx wr wb x r b => encH 0 (0#3 ++ bit1 wx ++ bit1 wr ++ bit1 wb ++ x ++ r ++ b)
  | .himm i => encH 1 i
  | .hyld => encH 2 0
  | .hstl n => encH 3 n
  | .hcache na l2 l1 => encH 4 (0#16 ++ bit1 na ++ l2 ++ l1)
  | .hpred n p => encH 5 (0#17 ++ bit1 n ++ p)
  | .sadd o => encS3 0x10 o 0
  | .ssub o => encS3 0x10 o 1
  | .smul o => encS3 0x10 o 2
  | .smulh o => encS3 0x10 o 3
  | .smulhu o => encS3 0x10 o 4
  | .sand o => encS3 0x10 o 5
  | .sor o => encS3 0x10 o 6
  | .sxor o => encS3 0x10 o 7
  | .sshl o => encS3 0x10 o 8
  | .sshr o => encS3 0x10 o 9
  | .ssra o => encS3 0x10 o 10
  | .smin o => encS3 0x10 o 11
  | .smax o => encS3 0x10 o 12
  | .sminu o => encS3 0x10 o 13
  | .sslt o => encS3 0x10 o 14
  | .ssltu o => encS3 0x10 o 15
  | .saddi d i => encSI 0x11 d 0 i
  | .smuli d i => encSI 0x11 d 1 i
  | .sandi d i => encSI 0x11 d 2 i
  | .sori d i => encSI 0x11 d 3 i
  | .sxori d i => encSI 0x11 d 4 i
  | .sshli d i => encSI 0x11 d 5 i
  | .sshri d i => encSI 0x11 d 6 i
  | .ssrai d i => encSI 0x11 d 7 i
  | .sslti d i => encSI 0x11 d 8 i
  | .ssltui d i => encSI 0x11 d 9 i
  | .sldiH d h i => 0x12#7 ++ d ++ 0#2 ++ h ++ i
  | .sldi d i => encSI 0x12 d 4 i
  | .s2v v s => encC 0x13 v s 0 0
  | .v2s v s l => encC 0x13 v s 1 (0#5 ++ l)
  | .sld d a t z => 0x14#7 ++ d ++ a ++ t ++ 0#1 ++ 0#2 ++ 0#1 ++ bit1 z ++ 0#6
  | .sst d a t z => 0x14#7 ++ d ++ a ++ t ++ 0#1 ++ 0#2 ++ 1#1 ++ bit1 z ++ 0#6
  | .iadd o t => encV2 0x20 o t.bits
  | .isub o t => encV2 0x21 o t.bits
  | .imul o t => encV2 0x22 o t.bits
  | .imulh o t => encV2 0x23 o t.bits
  | .imad o => encF3 0x24 o
  | .imin o t => encV2 0x25 o t.bits
  | .imax o t => encV2 0x26 o t.bits
  | .iabs o t => encV1 0x27 o 0 t.bits
  | .ineg o t => encV1 0x27 o 1 t.bits
  | .and o => encV2 0x28 o 0
  | .or o => encV2 0x29 o 0
  | .xor o => encV2 0x2A o 0
  | .not o => encV1 0x2B o 0 0
  | .shl o t => encV2 0x2C o t.bits
  | .shr o t => encV2 0x2D o t.bits
  | .sra o t => encV2 0x2E o t.bits
  | .rot o t => encV2 0x2F o t.bits
  | .popc o => encV1 0x30 o 0 0
  | .clz o => encV1 0x30 o 1 0
  | .ctz o => encV1 0x30 o 2 0
  | .brev o => encV1 0x30 o 3 0
  | .iset c o t => encVCmp 0x31 c.bits o t.bits
  | .sel d a b pa p n => 0x32#7 ++ d.code ++ bit1 d.nwBit ++ a ++ b ++ pa.bits ++ p ++ bit1 n
  | .mov o => encV1 0x33 o 0 0
  | .movi d t i => encI 0x34 d t.bits i
  | .iaddi d t i => encI 0x35 d (0#1 ++ t.bits) i
  | .imuli d t i => encI 0x36 d (0#1 ++ t.bits) i
  | .andi d i => encI 0x37 d 0 i
  | .ori d i => encI 0x37 d 1 i
  | .xori d i => encI 0x37 d 2 i
  | .laneid d => encV1 0x38 ⟨d, 0, .ident⟩ 0 0
  | .affine o => encV2 0x38 o 1
  | .shfl o m => encV2 0x39 o m.bits
  | .fadd o t => encV2 0x40 o t.bits
  | .fsub o t => encV2 0x41 o t.bits
  | .fmul o t => encV2 0x42 o t.bits
  | .ffma o => encF3 0x43 o
  | .fmin o t => encV2 0x44 o t.bits
  | .fmax o t => encV2 0x45 o t.bits
  | .fset c o t => encVCmp 0x46 c.bits o t.bits
  | .fabs o t => encV1 0x47 o 0 t.bits
  | .fneg o t => encV1 0x47 o 1 t.bits
  | .fsqrt o => encV1 0x47 o 2 0
  | .frsq o => encV1 0x47 o 3 0
  | .frcp o => encV1 0x47 o 4 0
  | .fexp2 o => encV1 0x47 o 5 0
  | .flog2 o => encV1 0x47 o 6 0
  | .fsin o => encV1 0x47 o 7 0
  | .fcos o => encV1 0x47 o 8 0
  | .ftanh o => encV1 0x47 o 9 0
  | .ffloor o => encV1 0x47 o 10 0
  | .fceil o => encV1 0x47 o 11 0
  | .ftrunc o => encV1 0x47 o 12 0
  | .frint o => encV1 0x47 o 13 0
  | .fcvt o df sf r sat =>
    0x48#7 ++ o.dst.code ++ bit1 o.dst.nwBit ++ o.a ++ df.bits ++ sf.bits ++ o.pa.bits ++ r.bits ++ bit1 sat
  | .fscale o t => encV2 0x49 o t.bits
  | .fpack o t => encV2 0x4A o t.bits
  | .funpk o c => encV1 0x4B o c 0
  | .faddi d t i => encI 0x4C d t.bits i
  | .fmuli d t i => encI 0x4D d t.bits i
  | .dot2 o => encF3 0x4E o
  | .ld o => encM 0x50 o
  | .st o => encM 0x51 o
  | .lds o => encM 0x52 o
  | .sts o => encM 0x53 o
  | .atom o => encA 0x54 o
  | .atoms o => encA 0x55 o
  | .fence c => encFence c 0 0
  | .fenceX c m => encFence c 1 m
  | .fenceAcq c => encFence c 2 0
  | .fenceRel c => encFence c 3 0
  | .pref l2 s v => 0x57#7 ++ 0#5 ++ bit1 l2 ++ s ++ v ++ 0#8
  | .cpy d s v dir z => 0x58#7 ++ d ++ s ++ v ++ 0#2 ++ dir.bits ++ 0#2 ++ z.bits
  | .cpyt o b => encX 0x59 o.d o.s 63 (0#3 ++ bit1 b) 0
  | .cpyx o => encX 0x5A o.d o.s 63 0 0
  | .cpym o => encX 0x5B o.d o.s 63 0 0
  | .mcdrain o => encX 0x5C o.d o.s 63 0 0
  | .cpyw o nb => encX 0x5D o.d o.s 63 0 (0#3 ++ bit1 nb)
  | .bari o => encX 0x5E o.d o.s 63 0 0
  | .barw s => encX 0x5E 0 s 63 1 0
  | .cjoin o => encX 0x60 o.d o.s 63 0 0
  | .cleave s => encX 0x60 0 s 63 1 0
  | .cbar o => encX 0x61 o.d o.s 63 0 0
  | .pbar o => encX 0x62 o.d o.s 63 0 0
  | .pwait o => encX 0x62 o.d o.s 63 1 0
  | .fres o p => encX 0x63 o.d o.s 63 0 (0#3 ++ bit1 p)
  | .fwait o => encX 0x63 o.d o.s 63 1 0
  | .ftest o => encX 0x63 o.d o.s 63 2 0
  | .spawn o => encX 0x64 o.d o.s 63 0 0
  | .take o => encX 0x65 o.d o.s 63 0 0
  | .steal o => encX 0x65 o.d o.s 63 1 0
  | .done o => encX 0x65 o.d o.s 63 2 0
  | .gmax s w => encX 0x66 0 s 63 0 w
  | .gmin s w => encX 0x66 0 s 63 1 w
  | .grd s w => encX 0x66 0 s 63 2 w
  | .gwait s w => encX 0x66 0 s 63 3 w
  | .sleep s => encX 0x67 0 s 63 0 0
  | .rdclk s => encX 0x67 0 s 63 1 0
  | .rdts s => encX 0x67 0 s 63 2 0
  | .mtask o => encX 0x68 o.d o.s 63 0 0
  | .mfence => encX 0x69 0 31 63 0 0
  | .mdrain o f r sat => encX 0x6A o.d o.s 63 f.bits (r.bits ++ bit1 sat)
  | .wpin o => encX 0x6B o.d o.s 63 0 0
  | .wevict o nb => encX 0x6B o.d o.s 63 1 (0#3 ++ bit1 nb)
  | .marrive o => encX 0x6C o.d o.s 63 0 0
  | .mqcfg s => encX 0x6D 0 s 63 0 0
  | .mzero s => encX 0x6E 0 s 63 0 0
  | .mstatRead s => encX 0x6F 0 s 63 0 0
  | .mstatClr s => encX 0x6F 0 s 63 1 0
  | .ldecl o t g => encX 0x70 o.d o.s 63 (0#2 ++ t.bits) (0#3 ++ bit1 g)
  | .lins o v t => encX 0x71 o.d o.s v (0#2 ++ t.bits) 0
  | .lmerge o => encX 0x72 o.d o.s 63 0 0
  | .lread o => encX 0x73 o.d o.s 63 0 0
  | .lthr p s v => encX 0x73 p s v 1 0
  | .lclr s => encX 0x73 0 s 63 2 0
  | .qbind a s => encX 0x74 a s 63 0 0
  | .qrsv o => encX 0x75 o.d o.s 63 0 0
  | .qput o v => encX 0x76 o.d o.s v 0 0
  | .qenq o => encX 0x77 o.d o.s 63 0 0
  | .qdeq o => encX 0x78 o.d o.s 63 0 0
  | .qtry o => encX 0x78 o.d o.s 63 1 0
  | .qalw a s => encX 0x79 a s 63 0 0
  | .qinv s => encX 0x79 0 s 63 1 0
  | .qstat o => encX 0x79 o.d o.s 63 2 0
  | .bral a c i => 0x7A#7 ++ a ++ c ++ i
  | .launch o => encX 0x7C o.d o.s 63 0 0
  | .cmbi o => encX 0x7D o.d o.s 63 0 0
  | .cmbw o => encX 0x7D o.d o.s 63 1 0
  | .ageingSwap .. | .hstlExpire .. | .sleepExpire .. | .futureResolve ..
  | .futureWake .. | .pbarBankStep .. | .dequeStep .. | .memAccessComplete ..
  | .tlbWalkDone .. | .copyDone .. | .cpyxBeatArrive .. | .shareWaitTimeout ..
  | .cpymPark .. | .mcdrainMatch .. | .cpywClaimGrant .. | .cpywFillDone ..
  | .wevictClaimGrant .. | .taskPick .. | .taskComplete .. | .taskSkip ..
  | .pickerReeval .. | .depPoll .. | .taskBackingRefill .. | .mdrainDone ..
  | .listInsert .. | .listOpPerform .. | .creditRequestArrive .. | .creditGrant ..
  | .creditGrantArrive .. | .creditRetry .. | .reservationArrive .. | .reservationTimeout ..
  | .elementStore .. | .spillRefillDone .. | .headDeliver .. | .routeCapChange ..
  | .remoteErrorReport .. | .combineStep .. | .hostMemAccess .. | .registerWrite ..
  | .flumeCreate .. | .flumeDestroy .. | .flumeForcedDestroy .. | .flcmdInvalid ..
  | .hostLaunchSubmit .. | .hostLaunchStore .. | .launchRecordStore .. | .launchCapture ..
  | .standPlace .. | .standGangStart .. | .standEnd .. | .granuleClearDone ..
  | .regfileRelease .. | .preemptCheck .. | .swapoutSave .. | .saveWriteDone ..
  | .standRestore .. | .eventPost .. | .contrailWantWrite .. | .contrailChangeDone ..
  | .keyInstall .. | .packetSend .. | .keySwitch .. | .flitReceive ..
  | .laneFail .. | .linkRetrainDone .. | .coreReset .. | .uncoreReset ..
  | .packageReset | .bistDone .. | .qcoreGo .. | .qcoreReturn ..
  | .firmwareLoad | .attestationRequest .. | .clockThrottle .. | .storeAcknowledge ..
  | .flumeReplyArrive .. | .uncorrectableSoftError .. => 0

end Sys2Proof
end

