-- ==== Sys2Proof/Machine/State.lean ====
section
/-! DEFINITION. The whole state of the machine as plain data, from the cord's registers to the package's links, the
reasons a step can stop, and the state after reset. Every field is listed in INVENTORY.md with its rule. -/

namespace Sys2Proof.Machine

/-- Why a step stops with a fault. Every fault the spec gives its cords is an exception this machine takes, so the
only stop is the model's own. -/
inductive Fault
  /-- An instruction's meaning was asked for while no path issues. Raised by a meaning called outside a step, never by
  step itself, which focuses a path first. SAFE: no rule gives a word an effect without a path that issues it (R135). -/
  | noIssuingPath
  deriving DecidableEq, Repr

/-- Why a step refuses. -/
inductive Refusal
  /-- The instruction has no meaning in this model yet. Raised by an arm of exec. SAFE: nothing follows from it. -/
  | notModelled (mnemonic : String)
  deriving DecidableEq, Repr

/-- An address in the 57-bit virtual space, as a path's PC holds it (R168). -/
abbrev Pc := BitVec 57

/-- Bytes of one storage, by address: addresses strictly rising, and no byte of 0x00 listed, which is what an unlisted
address reads as. For HBM and host memory that reading is DESIGN CHOICE, unsafe, log 1; for scratchpad, accumulator
storage, canopy and images R18, R258 state it. -/
abbrev Memory := List Host.Cell

/-- Fault codes (R373). -/
inductive TrapCode
  | illegalInstr | illegalReg | latchChain | misaligned | divergedScalar | privilege | tokenMismatch
  | divergenceDepth | controlCorrupt | pageFault | pteInvalid | protection | worldViolation | addressRange
  | spRange | accRange | memError | copyParam | mcastRange | syncParam | doubleResolve | matrixParam
  | listParam | flumeParam | remoteError | launchParam | launchRefused | combineParam | sysParam | trap
  | halt | saveExhausted | killed
  deriving DecidableEq, Repr

/-- A fault as an instruction raises it: its code and TRAPVAL (R375; none where no entry states it, log 9), and what its
event record says beside them: the remote-error reason, and INFO (R387). -/
structure Trap where
  code : TrapCode
  val : Option DWord := none
  reason : BitVec 8 := 0
  info : DWord := 0
  deriving DecidableEq, Repr

/-! ### The cord -/

/-- Shape tag of a vector register (R82). -/
inductive Tag | general | uniform | affine
  deriving DecidableEq, Repr

/-- A vector register: its 32 lanes, lane 0 first, its tag (R80, R82), and the lanes that hold an uncorrectable error
(R374). -/
structure VReg where
  lanes : List Word
  tag : Tag
  bad : Mask := 0
  deriving DecidableEq, Repr

/-- The register of a started cord: zero in every lane, tagged uniform (R27). -/
def VReg.zero : VReg := { lanes := List.replicate 32 0, tag := .uniform }

/-- Cache policy of an HCACHE prefix (R61). It never changes a value or an order. -/
structure CachePolicy where
  na : Bool
  l2 : BitVec 2
  l1 : BitVec 2
  deriving DecidableEq, Repr

/-- The prefix hints waiting for their consumer, and the address of the first of them (R57). -/
structure Prefix where
  start : Pc
  himm : Option (BitVec 21) := none
  hpred : Option (Bool × BitVec 3) := none
  hcache : Option CachePolicy := none
  deriving DecidableEq, Repr

/-- What the previous non-hint instruction of a path was (R48). -/
inductive Prev | other | compare | alu
  deriving DecidableEq, Repr

/-- Place of a path in a latch chain, and what a fault in the chain restores (R48, R50). -/
structure Chain where
  /-- Kind of the previous non-hint instruction. -/
  prev : Prev := .other
  /-- Readers that stand directly before the next instruction. -/
  readers : Nat := 0
  /-- An HPRM, HYLD or HSTL stands since the head. -/
  broken : Bool := false
  /-- First instruction of the head's prefix group. -/
  start : Pc := 0
  /-- Registers the chain has written, with the value each held before the head, newest first. -/
  saved : List (Nat × VReg) := []
  deriving DecidableEq, Repr

/-- What a parked path waits for (R137). The registration itself stands where the wait is kept. -/
inductive Wait
  /-- SLEEP until CLK reaches a value (R253). -/
  | sleep (clk : DWord)
  /-- FWAIT on the future at a physical address of the die, with its destination (R240). -/
  | future (pa d : Nat)
  /-- PWAIT on a phase-bit object of the scratchpad until PHASE differs from a parity (R236). -/
  | phase (sp : Nat) (parity : Bool)
  /-- CBAR in a crew (R233). -/
  | crew (key : BitVec 16) (d : Nat)
  /-- BARW on a barrier object until it is complete (R217). -/
  | barrier (sp : Nat)
  /-- GWAIT on a grove word until it changes from a value, with its destination (R251). -/
  | grove (w : Nat) (old : DWord) (d : Nat)
  /-- QDEQ of a flume (R334), by the handle of the waiting dequeue, with its destination. -/
  | dequeue (id d : Nat)
  /-- QRSV or QENQ for allowance (R329), with its destination. -/
  | reserve (id d : Nat)
  /-- CSAVE until the stands it saves are written: those left, how many are written, its destination (R396). -/
  | saves (sids : List Nat) (n : Nat) (d : SCode)
  deriving DecidableEq, Repr

/-- A live path (R135): one PC slot of a cord. -/
structure Path where
  pc : Pc
  mask : Mask
  /-- Cycle in which the path became live; its age counts from here (R143, R166). -/
  liveSince : Nat
  /-- Last cycle of the HSTL stall it stands in (R63), and the end of its last stall (R136). -/
  stall : Option Nat := none
  stallEnd : Nat := 0
  /-- HYLD was its last instruction (R62). -/
  yielded : Bool := false
  wait : Option Wait := none
  pfx : Option Prefix := none
  chain : Chain := {}
  deriving DecidableEq, Repr

/-- A pending path held in hardware (R148); its age is `age` at cycle `since`. -/
structure PendPath where
  pc : Pc
  mask : Mask
  age : Nat
  since : Nat
  deriving DecidableEq, Repr

/-- A reconvergence token (R144). -/
structure Token where
  call : Bool
  rpc : Pc
  m : Mask
  w : Mask
  deriving DecidableEq, Repr

/-- A cord (R22, R27, R80, R385). -/
structure Cord where
  id : Nat
  role : Nat
  budget : Nat
  sregs : Nat
  quad : Nat
  cslot : Nat
  v : List VReg
  latch : List VReg
  s : List DWord
  p : List Mask
  /-- Binding-table entry that each allowance register holds (R326). -/
  allow : List (Option Nat)
  slotA : Option Path
  slotB : Option Path
  /-- Cycles in which its cord-slots issued last, 0 where they have not (R136). -/
  lastA : Nat := 0
  lastB : Nat := 0
  /-- The oldest pending paths, at most two, the head first (R148). -/
  pending : List PendPath
  ringHead : Nat
  ringTail : Nat
  ringCount : Nat
  /-- The hardware tokens, at most eight, the newest first (R147). -/
  tokens : List Token
  /-- Tokens in the spill area (R147). -/
  spilled : Nat
  lfsr : Word
  prmX : BitVec 5
  prmR : BitVec 5
  prmB : BitVec 5
  /-- SAT INEX UF OF DZ NV, bit 5 to bit 0 (R119). -/
  fpstat : BitVec 6
  tsfloor : DWord
  trapImm : BitVec 16
  inTrap : Bool
  trapCode : BitVec 8
  trapPc : Pc
  trapVal : DWord
  /-- Keys of the crews the cord is a member of, at most four (R230). -/
  crews : List (BitVec 16)
  /-- Registers with an outstanding write (R89). -/
  vmarks : List Nat
  smarks : List Nat
  pmarks : List Nat
  /-- Restart address of the chain that the fault of its stop abandoned, 0 where none was (R50, R385). -/
  chainStart : Pc
  /-- Lanes that have executed EXIT (R160). -/
  exited : Mask
  /-- The register storage has drained and is released (R30). -/
  released : Bool
  deriving DecidableEq, Repr

/-! ### The stand -/

/-- A role of a stand (R356). -/
structure Role where
  pc : Pc
  regs : Nat
  count : Nat
  sregs : Nat
  deriving DecidableEq, Repr

/-- Where a stand is in its life (R28, R29, R379). -/
inductive Phase
  /-- Placed, its resources claimed, not yet started. -/
  | placed
  | running
  /-- Stopped issuing; its activity drains before the save (R379 step 3). CAUSE of the stop, whether the distributor
  takes the stand back by itself, and the cord and slot that the event record names. -/
  | stopping (cause : BitVec 8) (requeue : Bool) (cord : Nat) (slotB : Bool)
  /-- Its image is being written to a save block (R379 step 4). -/
  | saving (cause : BitVec 8) (requeue : Bool) (cord : Nat) (slotB : Bool) (block : Nat) (size : Nat)
  deriving DecidableEq, Repr

/-- A place in the order in which accesses take effect: in that of the die, and in those of one stand's and of one cord's
accesses, the only ones that a fence of such a scope orders (R187, R189, R190). A read at a place returns the newest write
whose place is not after it. -/
structure Place where
  die : Nat := 0
  stand : Nat := 0
  cord : Nat := 0
  deriving DecidableEq, Repr

/-- A scratchpad write that a task may find undefined (R277, R282): the cord and lanes that wrote it, its bytes, its stream,
the place of the first release of theirs after it, 0 where none, and the MFENCEs and MARRIVEs that cover it: the cord and
lanes of each, and the task sequence there. -/
structure Unfenced where
  cord : Nat
  mask : Mask
  off : Nat
  n : Nat
  stream : Option (BitVec 4) := none
  released : Place := {}
  fenced : List (Nat × Mask × Nat) := []
  deriving DecidableEq, Repr

/-- A stand on a core (R22). -/
structure Stand where
  /-- The model's handle. -/
  sid : Nat
  tract : Nat
  standId : Nat
  die : Nat
  core : Nat
  ctx : Nat
  prio : Nat
  /-- Granules of its partition (R17, R357). -/
  rf : Nat
  spGran : Nat
  asGran : Nat
  roles : List Role
  seed : Word
  /-- Parameter-block pointer of the launch record (R27). -/
  param : DWord
  sys : Bool
  sec : Bool
  fpid : BitVec 16
  trapvec : DWord
  /-- Save pool of its context entry as it stood at placement or restore (R371). -/
  savebase : DWord := 0
  saven : Word := 0
  saveblk : BitVec 6 := 0
  sp : Memory
  acc : Memory
  /-- Scratchpad writes that no operand fence has covered (R277). -/
  unfenced : List Unfenced := []
  /-- Region table: BASE and parameter word of each entry in use (R294). -/
  regions : List (Option (Nat × DWord))
  /-- NV OF UF SAT SKIP of MSTAT (R278). -/
  mstat : BitVec 5
  q0b : DWord
  q1b : DWord
  q0cap : Word
  q1cap : Word
  q1age : Word
  /-- Backing writes to each queue since the start or restore (R270). -/
  q0w : Nat := 0
  q1w : Nat := 0
  /-- Canopy slots the program pinned, once for each pin (R284). -/
  pins : List Nat
  phase : Phase
  /-- Cycle of its start or restore (R382). -/
  started : Nat
  cords : List Cord
  deriving DecidableEq, Repr

/-- The path that issues, with its cord and its stand taken out of the table (the model's own). The copies of the path
in the cord's slot and of the cord in the stand are stale while it stands. -/
structure Focus where
  stand : Stand
  cord : Cord
  path : Path
  slotB : Bool
  deriving DecidableEq, Repr

/-! ### The core, the grove and the die -/

/-- An entry of a die's context table (R371). -/
structure Ctx where
  root : DWord := 0
  savebase : DWord := 0
  saven : Word := 0
  saveblk : BitVec 6 := 0
  trapvec : DWord := 0
  fpid : BitVec 16 := 0
  sec : Bool := false
  sys : Bool := false
  v : Bool := false
  deriving DecidableEq, Repr

/-- Page kinds (R180). -/
inductive PageKind | un | rc | so
  deriving DecidableEq, Repr

/-- A translation (R172): its page's first physical byte, its bytes, and its attributes. -/
structure Leaf where
  pa : Nat
  size : Nat
  kind : PageKind
  s : Bool
  w : Bool
  x : Bool
  deriving DecidableEq, Repr

/-- A cached translation, tagged with its context (R174). -/
structure TlbEntry where
  ctx : Nat
  va : Nat
  leaf : Leaf
  deriving DecidableEq, Repr

/-- A page walk in flight (R174): the core for which it began, and the translation it has found. -/
structure Walk where
  core : Nat
  entry : TlbEntry
  deriving DecidableEq, Repr

/-- A single-copy-atomic part of one lane's global access (R182): its bytes, and what a load has read. -/
structure Part where
  lane : Nat
  /-- Byte of the lane's access it begins at, its offset in window H (R401), and its bytes. -/
  off : Nat
  pa : Nat
  n : Nat
  kind : PageKind
  /-- Data of a store or the operand of an atomic; what a load or a returning atomic has read, once done. -/
  val : Nat
  cmp : Nat := 0
  done : Bool := false
  /-- Places that a store has taken among its stand's and cord's accesses before it is performed, 0 where none (R201). -/
  near : Place := {}
  deriving DecidableEq, Repr

/-- What a global access does (R196, R198, R199). -/
inductive AccessKind
  /-- A vector load of a size, sign-extended or not. -/
  | load (size : MSize)
  /-- A scalar load; whether it is 32 bits. -/
  | scalarLoad (word : Bool)
  | store
  | atomic (op : AOp) (returning : Bool)
  deriving DecidableEq, Repr

/-- A global access issued and not yet complete (R185, R203). -/
structure Access where
  sid : Nat
  cord : Nat
  slotB : Bool
  /-- First word of its prefix group, for a fault found in flight. -/
  pc : Pc
  kind : AccessKind
  stream : BitVec 4
  /-- .acq of a load or .rel of a store. -/
  ordered : Bool
  /-- Threads whose access it is (a scalar access counts for every thread). -/
  threads : Mask
  /-- First destination register, vector or scalar; 31 for sz. -/
  d : Nat
  parts : List Part
  deriving DecidableEq, Repr

/-- Where a CPYX stands with its receiver (R214). -/
inductive Cross
  /-- Not yet at the receiving core. -/
  | reaching
  /-- No stand of the tract is resident there; it is discarded when the wait ends. -/
  | waiting (waitEnd : Nat)
  /-- Open, into the stand of a handle. -/
  | opened (sid : Nat)
  /-- To be discarded with FIN. -/
  | finished
  deriving DecidableEq, Repr

/-- Kinds of a per-lane or bulk copy, and of the other entries of the skidder's queue (R204). -/
inductive CopyKind
  /-- CPY: its directions, the bytes of one lane, and each lane's source and destination address. -/
  | lanes (dir : CopyDir) (n : Nat) (moves : List (Nat × Nat × Nat))
  /-- CPYT: the rows of the captured record, as source, destination and bytes, in R213's order. -/
  | tensor (s2h : Bool) (rows : List (Nat × Nat × Nat))
  /-- CPYX: source, destination, barrier object, bytes, receiver core, bytes delivered. -/
  | cross (src dst obj n core sent : Nat) (at_ : Cross)
  /-- CPYM waiting for a free slot: tag, bytes, source, receiver mask. -/
  | park (tag : BitVec 16) (n src : Nat) (mask : BitVec 32)
  /-- CPYM parked: its slot of the holding buffer. -/
  | parked (slot : Nat)
  /-- MCDRAIN: tag and destination. -/
  | drain (tag : BitVec 16) (dst : Nat)
  /-- CPYW: canopy slot, global source, side band; the core's task sequence at acceptance, and whether its claim is
  granted. -/
  | weight (slot : Nat) (src : Nat) (scales : Bool) (seq : Nat) (granted : Bool)
  /-- WEVICT: its canopy slot, and the core's task sequence at acceptance. -/
  | evict (slot : Nat) (seq : Nat)
  deriving DecidableEq, Repr

/-! ### Work of the core's engines -/

/-- A dependence of a tile task (R268). -/
inductive Dep
  | none
  | future (va : Nat)
  | counter (off thresh : Nat)
  deriving DecidableEq, Repr

/-- A tile task's captured record (R267) and its place in its queue (R269, R270). -/
structure Task where
  sid : Nat
  seq : Nat
  accepted : Nat
  queue1 : Bool
  fut : Nat
  amax : Nat
  dep0 : Dep
  dep1 : Dep
  aoff : Nat
  ascale : Nat
  accbase : Nat
  m : Nat
  astride : Nat
  wslot : Nat
  afmt : Nat
  wfmt : Nat
  mode : Nat
  lrow : Nat
  idxbase : Nat
  /-- Futures it is registered on at the L2, by physical address (R273). -/
  registered : List Nat := []
  /-- The slot it took a pin on, and whether it still holds it (R259). -/
  pin : Nat := 0
  pinned : Bool := true
  /-- Cord and lanes of the path that issued it (R277). -/
  cord : Nat := 0
  mask : Mask := 0
  /-- Parameter word of its region at its acceptance, in list mode (R300, R303). -/
  word : DWord := 0
  /-- Resume token that a page fault of a dependence waits for (R377). -/
  held : Option Nat := none
  /-- Accumulator ranges that the program wrote while the task could run, undefined when it completes (R277). -/
  spoiled : List (Nat × Nat) := []
  /-- Scratchpad ranges whose bytes are undefined for the task, since no fence covered their writes (R277). -/
  tainted : List (Nat × Nat) := []
  deriving DecidableEq, Repr

/-- A record in a backing region: the task as accepted, the address of its record, whether the record has been written
there, and the resume token that a page fault waits for (R270, R287). A restored task waits behind the others of its queue
with no record there (R279). -/
structure Backed where
  task : Task
  va : Nat
  written : Bool
  held : Option Nat := none
  restored : Bool := false
  deriving DecidableEq, Repr

/-- A candidate or an operation of the insertion queue (R301). -/
inductive ListOp
  /-- A LINS: its survivors, by row, and the rows of the candidates its filter dropped. -/
  | insert (base : Nat) (cands : List (Nat × Word × Word)) (drops : List Nat)
  | declare (base : Nat)
  | merge (base row0 count src : Nat)
  | read (base row0 count dst : Nat)
  | thr (base row : Nat) (vals : List Word) (p : Nat)
  | clear (base row0 count : Nat) (free : Bool)
  deriving DecidableEq, Repr

/-- An entry of the insertion queue: its stand, its region's parameter word at entry, its issuer, and where its
result goes. -/
structure ListEntry where
  sid : Nat
  cord : Nat
  slotB : Bool
  pc : Pc
  mask : Mask
  d : Nat
  word : DWord
  op : ListOp
  /-- Its path's accesses below this handle come before it (R302). -/
  since : Nat := 0
  deriving DecidableEq, Repr

/-- An entry of the threshold file (R297): the row it serves, FULL, TVAL, TIDX. -/
structure Thresh where
  sid : Nat
  base : Nat
  row : Nat
  full : Bool
  tval : Word
  tidx : Word
  deriving DecidableEq, Repr

/-- A canopy slot (R258). -/
structure Canopy where
  bytes : Memory := []
  side : Memory := []
  pins : Nat := 0
  owner : Option Nat := none
  gen : Nat := 0
  deriving DecidableEq, Repr

/-- A weight register of the array (R259). -/
structure Tile where
  slot : Nat
  fmt : Nat
  gen : Nat
  bytes : Memory
  side : Memory
  deriving DecidableEq, Repr

/-- The task in the array: what is left of it, and whether its first row has entered (R275). -/
structure Running where
  task : Task
  pickedAt : Nat
  tile : Tile
  deriving DecidableEq, Repr

/-- A path parked by FWAIT or PWAIT in the core's wait table, or spilled (R227, R228): the physical address of its
future, or the offset of its phase-bit object. -/
structure Waiter where
  sid : Nat
  cord : Nat
  slotB : Bool
  global : Bool
  addr : Nat
  spilled : Bool
  deriving DecidableEq, Repr

/-- A cached handle translation (R316): handle, FPID, and the table entry as it stood. -/
structure HandleEntry where
  handle : BitVec 12
  fpid : BitVec 16
  entry : DWord
  deriving DecidableEq, Repr

/-- A core (R13): its registers and its engines. -/
structure Core where
  /-- AGELIM.LIMIT (R152). -/
  agelim : BitVec 20
  /-- CLK at cycle `clkSince`, and its arithmetic clock in MHz since then (R252, R418). -/
  clkBase : Nat
  clkSince : Nat
  mhz : Nat
  /-- Free granules, and batches clearing, each with the cycle it is free (R18). -/
  free : Nat
  clearing : List (Nat × Nat)
  /-- Cord-slot that issued last in each quadrant: 2 × cord slot + 1 for PC slot B (R136). -/
  lastIssue : List (Option Nat)
  /-- World bits of the core and of its skidder (R389). -/
  secure : Bool
  skSecure : Bool
  /-- Quiesced for repair in service (R415). -/
  quiesced : Bool
  /-- The last 8 tracts of which a stand has ended here, newest first (R214). -/
  ended : List Nat
  canopy : List Canopy
  active : Option Tile
  running : Option Running
  /-- The task picked while another streams (R271). -/
  picked : Option Running
  /-- The previous pick was by the age rule (R271). -/
  lastAged : Bool
  q0 : List Task
  q1 : List Task
  backed : List Backed
  taskSeq : Nat
  thresh : List Thresh
  insq : List ListEntry
  waits : List Waiter
  handles : List HandleEntry
  /-- First-level TLB, at most 128 entries, newest first (R174). -/
  tlb : List TlbEntry := []
  /-- Quadrants that the uniform pipe and the list filter served last (R16, R299). -/
  lastPipe : Nat := 3
  lastFilter : Nat := 3
  /-- QINVs of cords that have completed no fence since: stand, cord, and the handle or every one (R316). -/
  qinvs : List (Nat × Nat × Option (BitVec 12)) := []
  deriving DecidableEq, Repr

/-- A core after a core reset (R412, R136, R152, R258). -/
def Core.reset : Core :=
  { agelim := 0x400, clkBase := 0, clkSince := 0, mhz := 1500, free := 96, clearing := [],
    lastIssue := List.replicate 4 none, secure := false, skSecure := false, quiesced := false, ended := [],
    canopy := List.replicate 128 {}, active := none, running := none, picked := none, lastAged := false,
    q0 := [], q1 := [], backed := [], taskSeq := 0, thresh := [], insq := [], waits := [], handles := [] }

/-! ### The grove -/

/-- A path that has arrived at a crew's open phase, its contribution and its destination (R233). -/
structure Arrival where
  sid : Nat
  cord : Nat
  slotB : Bool
  value : Word
  d : Nat
  deriving DecidableEq, Repr

/-- An entry of the crew table (R229); ARRIVED counts `arrived`, and ACC folds its contributions. -/
structure Crew where
  tract : Nat
  key : BitVec 16
  members : Nat
  op : Nat
  arrived : List Arrival
  deriving DecidableEq, Repr

/-- A grove word (R248): VALUE, none when EMPTY, and its wait list in order of arrival. -/
structure GroveWord where
  value : Option DWord := none
  waits : List (Nat × Nat × Bool) := []
  deriving DecidableEq, Repr

/-- A share of a parked tile (R214, R219). -/
inductive Share
  | opened (core : Nat)
  | waiting (core waitEnd : Nat)
  deriving DecidableEq, Repr

/-- A slot of the holding buffer (R219). -/
structure Hold where
  tract : Nat
  tag : BitVec 16
  bytes : List Byte
  shares : List Share
  drained : Nat
  fin : Bool
  tmo : Bool
  /-- Order of parking, and the CPYM's handle. -/
  order : Nat
  copy : Nat
  deriving DecidableEq, Repr

/-- The process context that a word set is bound to: its number with its FPID and world (R15, R249). -/
structure Owner where
  ctx : Nat
  fpid : BitVec 16
  sec : Bool
  deriving DecidableEq, Repr

/-- A grove (R15). -/
structure Grove where
  crews : List Crew
  /-- Word sets, at most four, by the context each is bound to (R249). -/
  sets : List (Owner × List GroveWord)
  hold : List (Option Hold)
  deriving DecidableEq, Repr

def Grove.reset : Grove := { crews := [], sets := [], hold := List.replicate 64 none }

/-! ### Flumes -/

/-- State of an outstanding sequence number (R322). A filled one keeps what its element carries: bytes, TS, and the
context, die, handle and instruction that filled it (R338, R339). -/
inductive SlotState
  | reserved (bid : Nat)
  | filled (bytes : List Byte) (ts : DWord) (die ctx : Nat) (handle : BitVec 12) (pc : Pc)
  | void
  deriving DecidableEq, Repr

/-- A flume at its home port (R320, R322). -/
structure Flume where
  qid : Word
  fpid : BitVec 16
  elem : Nat
  chunk : Nat
  wslots : Nat
  sslots : Nat
  spill : Nat
  head : Nat
  /-- Outstanding sequence numbers from HEAD on, each with whether its slot lies in the spill region. -/
  slots : List (Bool × SlotState)
  promised : Nat
  voids : Nat
  /-- Stands and paths parked on it, oldest first, by handle of the waiting dequeue (R334). -/
  waits : List Nat
  deriving DecidableEq, Repr

/-- A request of the credit queue (R327): its binding, its flume, and the slots asked. -/
structure CreditReq where
  die : Nat
  bid : Nat
  qid : Word
  asked : Nat
  deriving DecidableEq, Repr

/-- A flume port (R319, R315, R327). -/
structure Port where
  flcmd : BitVec 3
  flarg : DWord
  flres : BitVec 4
  secure : Bool
  qtt : List DWord
  flumes : List Flume
  credits : List CreditReq
  deriving DecidableEq, Repr

def Port.reset : Port :=
  { flcmd := 0, flarg := 0, flres := 0, secure := false, qtt := List.replicate 256 0, flumes := [], credits := [] }

/-- An entry of the die's binding table (R326). -/
structure Binding where
  /-- The model's handle of the binding. -/
  bid : Nat
  sid : Nat
  cord : Nat
  /-- PC slot and address of its QBIND, for an error that one of its credit requests meets (R339). -/
  slotB : Bool
  pc : Pc
  ctx : Nat
  fpid : BitVec 16
  handle : BitVec 12
  qid : Word
  credit : Nat
  cap : Nat
  /-- The flume's CHUNK, 0 until the first grant. -/
  chunk : Nat
  /-- Route-table entry in force for it, which a new entry replaces when no packet of it is in flight (R409). -/
  route : DWord := 0
  /-- A credit request is outstanding, and the cycle a refused one is sent again. -/
  asking : Bool
  retryAt : Option Nat
  deriving DecidableEq, Repr

/-! ### Launch, contexts, events -/

/-- A launch record as it travels and as the launch flume holds it (R355, R364). -/
structure LaunchRec where
  bytes : List Byte
  ctx : Nat
  /-- FPID a LAUNCH carries; none for a host record. -/
  fpid : Option (BitVec 16)
  /-- Priority of the launching stand's tract. -/
  limit : Nat
  deriving DecidableEq, Repr

/-- A tract on its accepting die's distributor (R26, R31). -/
structure Tract where
  id : Nat
  die : Nat
  ctx : Nat
  fpid : Option (BitVec 16)
  prio : Nat
  stands : Nat
  /-- Next stand to place, and stands ended. -/
  next : Nat
  ended : Nat
  param : DWord
  fut : Nat
  seed : Word
  affinity : BitVec 8
  rf : Nat
  spGran : Nat
  asGran : Nat
  roles : List Role
  /-- Saved stands that re-enter at the head of the queue, the latest first (R32): die, block address, order of
  re-entry. -/
  reenter : List (Nat × Nat × Nat)
  /-- Fault code its future is poisoned with once its last stand has ended (R378). -/
  poison : Option (BitVec 8)
  /-- Cycle since which the next stand has fitted no core (R382). -/
  blocked : Option Nat
  /-- Handles of its stands, whose accesses its completion future follows (R31). -/
  sids : List Nat := []
  deriving DecidableEq, Repr

/-- A stand the save engine has written and that has not been restored (R397). -/
structure Saved where
  block : Nat
  size : Nat
  sid : Nat
  standId : Nat
  tract : Nat
  ctx : Nat
  core : Nat
  fpid : BitVec 16
  sec : Bool := false
  bindCore : Bool
  bindGrove : Bool
  /-- Keys of the crews its cords are members of, once for each membership (R230). -/
  crews : List (BitVec 16) := []
  /-- Scratchpad writes that a task may find undefined, and its tasks as they were saved, with their undefined bytes and
  issuing paths (R277). -/
  unfenced : List Unfenced := []
  tasks : List Task := []
  /-- It waits for a CRST, and has not been accepted for restore. -/
  awaitCrst : Bool
  /-- Slots the program has pinned (R284), and the slots its saved tasks hold, with their sequence numbers (R279). -/
  pins : List Nat
  taskPins : List (Nat × Nat)
  deriving DecidableEq, Repr

/-- An event record, as its 64 bytes but for RSEQ and TIME, which posting writes (R387). -/
structure Event where
  kind : BitVec 8
  code : BitVec 8 := 0
  reason : BitVec 8 := 0
  ctx : BitVec 8 := 0
  fpid : BitVec 16 := 0
  core : BitVec 8 := 0xFF
  standId : Word := 0
  cord : BitVec 8 := 0
  slot : BitVec 8 := 0
  pc : DWord := 0
  val : DWord := 0
  info : DWord := 0
  info2 : DWord := 0
  deriving DecidableEq, Repr

/-- The host-memory event ring of a die (R404). -/
structure Ring where
  base : BitVec 52
  size : BitVec 4
  head : Word
  tail : Word
  drop : Word
  enable : Bool
  /-- Records held, oldest first, with the TIME of posting. -/
  buffer : List (Event × DWord)
  /-- Records beyond the buffer, oldest first, whose swap-out or ending waits at its posting step (R404). -/
  waits : List Event
  rseq : Word
  deriving DecidableEq, Repr

/-- An entry of the violation log (R391). -/
structure Violation where
  pa : Nat
  source : Nat
  index : Nat
  fpid : BitVec 16
  access : Nat
  time : DWord
  deriving DecidableEq, Repr

/-- Launch staging registers (R403). -/
structure Stage where
  image : List Byte
  go : Bool
  ctx : BitVec 8
  seq : Word
  code : BitVec 4
  /-- The record captured by GO, until it is stored. -/
  captured : Option LaunchRec
  deriving DecidableEq, Repr

/-- A compute die (R11). -/
structure Die where
  cores : List Core
  groves : List Grove
  ctxs : List Ctx
  /-- Second-level TLB, at most 8,192 entries, and the walks in flight, at most 256, the newest first (R34, R174). -/
  tlb : List TlbEntry
  walks : List Walk
  ports : List Port
  bindings : List (Nat × Binding)
  /-- Launch flume: records with their sequence numbers, and the next number (R355, R24). -/
  launches : List (Nat × LaunchRec)
  launchSeq : Nat
  stage : Stage
  saved : List Saved
  ring : Ring
  descs : List (DWord × DWord)
  log : List Violation
  logLost : Nat
  coreRst : Bool
  uncRst : Bool
  inService : Bool
  harvested : Bool
  /-- QCORE.CORE and QCORE.GO as last written; the core that a GO has quiesced, while its repair runs (R4, R415). -/
  qcore : BitVec 5
  qgo : Bool
  qtarget : BitVec 5
  qrun : Bool
  qdone : Bool
  qresult : BitVec 2
  /-- Bytes that hold an uncorrectable error (R374). -/
  damaged : List Struck
  deriving DecidableEq, Repr

def Ring.reset : Ring :=
  { base := 0, size := 0, head := 0, tail := 0, drop := 0, enable := false, buffer := [], waits := [], rseq := 0 }

def Stage.reset : Stage :=
  { image := List.replicate 128 0, go := false, ctx := 0, seq := 0, code := 0, captured := none }

/-- A die after package reset and an accepted firmware image (R412, R413). -/
def Die.reset : Die :=
  { cores := List.replicate 32 Core.reset, groves := List.replicate 4 Grove.reset,
    ctxs := List.replicate 256 {}, tlb := [], walks := [], ports := List.replicate 16 Port.reset, bindings := [],
    launches := [], launchSeq := 0, stage := Stage.reset, saved := [], ring := Ring.reset,
    descs := List.replicate 64 (0, 0), log := [], logLost := 0, coreRst := false, uncRst := false,
    inService := true, harvested := false, qcore := 0, qtarget := 0, qgo := false, qrun := false, qdone := false, qresult := 0,
    damaged := [] }

/-! ### The package -/

/-- An entry of the contrail table (R405). -/
structure Contrail where
  want : BitVec 4 := 0
  waves : BitVec 4 := 0
  state : BitVec 2 := 0
  err : Bool := false
  /-- A WANT written during a change (R406). -/
  held : Option (BitVec 4) := none
  /-- The model's handle from which on work is not yet sent on the old paths (R406). -/
  since : Nat := 0
  deriving DecidableEq, Repr

/-- A link key record as captured (R407). -/
structure LinkKey where
  key : List Byte
  salt : List Byte
  deriving DecidableEq, Repr

/-- A packet that waits on a link: its flits, the die it comes from, its flume, and the binding it belongs to, if any
(R408, R409). -/
structure Packet where
  flits : Nat
  die : Nat
  qid : Word
  bid : Option Nat := none
  deriving DecidableEq, Repr

/-- A fabric port (R407). -/
structure Link where
  width : BitVec 3 := 0
  spare : Bool := false
  laneOk : BitVec 5 := 0
  held : Bool := false
  rekey : Bool := false
  train : Bool := false
  txctr : BitVec 48 := 0
  keyaddr : DWord := 0
  rxPend : Bool := false
  txPend : Bool := false
  sendKey : Option LinkKey := none
  recvKey : Option LinkKey := none
  nextSend : Option LinkKey := none
  nextRecv : Option LinkKey := none
  /-- Packets waiting to be sent, the first held when `held`. -/
  queue : List Packet := []
  /-- Counters of the last 64 flits sent, newest first, kept for a replay, and the counter of the flit expected (R408). -/
  replay : List Nat := []
  rxctr : Nat := 0
  /-- Flits that failed in a row (R408). -/
  failures : Nat := 0
  deriving DecidableEq, Repr

/-- Parts that self-test repairs (R413). -/
inductive PartKind | column | granuleRow | canopyRow | core | lane
  deriving DecidableEq, Repr

/-- A failed part of the package: its die and core, or its fabric port, and its index there (R413, R414). -/
structure Failed where
  die : Nat
  core : Nat
  kind : PartKind
  index : Nat
  deriving DecidableEq, Repr

/-- A repair record in management flash: the part and the spare that it binds to it, and its signature block (R414). -/
structure Repair where
  part : Failed
  spare : Nat
  slhDsa : List Byte
  rsa : List Byte
  deriving DecidableEq, Repr

/-- Firmware registers (R416) and what the accepted image left (R417). -/
structure Firmware where
  fwaddr : DWord
  fwlen : Word
  load : Bool
  fwstat : BitVec 4
  digest : BitVec 384
  version : Nat
  minimum : Nat
  deriving DecidableEq, Repr

/-- An attestation report (R417). -/
structure Report where
  nonce : List Byte
  digest : BitVec 384
  version : Nat
  config : Word
  repairs : BitVec 384
  harvested : BitVec 8
  worlds : List (BitVec 80)
  rsa : List Byte
  slhDsa : List Byte
  deriving DecidableEq, Repr

/-! ### Work begun and not finished -/

/-- Where a result goes: the pair of registers from `d` in the lanes of `mask` of a cord, with the instruction's
address for a fault found in flight (R205, R342). -/
structure Dest where
  sid : Nat
  cord : Nat
  slotB : Bool
  pc : Pc
  mask : Mask
  d : Nat
  deriving DecidableEq, Repr

/-- Who asked for an access of the device itself: an instruction, or none (R377). -/
structure Origin where
  die : Nat
  ctx : Nat
  dest : Option Dest
  /-- The stand whose tile task it serves, which does not end before it, and that task, whose bytes stay undefined until
  its future is full (R29, R277). -/
  sid : Option Nat := none
  task : Option Task := none
  /-- Stands whose accesses come before the resolution of their tract's future (R31). -/
  after : List Nat := []
  deriving DecidableEq, Repr

/-- An operation on a deque (R245 to R247). -/
inductive DequeOp
  | spawn (base : Nat) (record : List Byte)
  | take (base : Nat)
  | steal (base : Nat) (core : Nat)
  | done (record base : Nat)
  deriving DecidableEq, Repr

/-- A put on its way to the home port (R347): the sequence number it names, or none for a QENQ, its source, its timestamp
and its handle. -/
structure Put where
  seq : Option Nat
  off : Nat
  ts : DWord
  handle : BitVec 12
  deriving DecidableEq, Repr

/-- A drain of accumulators (R283). -/
structure Drain where
  dst : Nat
  src : Nat
  sdst : Nat
  srcI : Bool
  rows : Nat
  amax : Nat
  fmt : DrainFmt
  rnd : Rnd
  sat : Bool
  lfsr : Word
  deriving DecidableEq, Repr

/-- What follows an amax fold (R276, R283): nothing, the resolution of the task's future, or a drain's status. -/
inductive After
  | nothing
  | resolve (va : Nat) (value : DWord)
  | status (t : Dest) (count : Nat)
  deriving DecidableEq, Repr

/-- Steps of a CMBW (R368); one whose token word a CMBI has zeroed since its claim is lost (R369). -/
inductive CombineStage | claim | data | fill (sent : Nat) | lost (sent : Nat)
  deriving DecidableEq, Repr

/-- Work in flight. -/
inductive Work
  | access (a : Access)
  /-- Entry of a skidder's queue; the die and core are the stand's. -/
  | copy (t : Dest) (die core : Nat) (k : CopyKind)
  /-- Resolution of a future at the L2 (R238), by virtual address, with its translation where it has one. -/
  | resolve (o : Origin) (va : Nat) (pa : Option Nat) (value : DWord) (poison : Bool)
  /-- A wake for a future on its way to a core (R227). -/
  | wake (die core pa : Nat)
  | pbar (t : Dest) (off k : Nat)
  | deque (t : Dest) (op : DequeOp)
  /-- CMBI's write, and CMBW's steps (R368, R370). -/
  | combineInit (t : Dest) (base : Nat) (image : List Byte)
  | combine (t : Dest) (base rank token off : Nat) (skip : Bool) (stage : CombineStage)
  /-- Amax fold, and what follows it (R276, R283). -/
  | fold (o : Origin) (va : Nat) (bits : Word) (next : After)
  | drain (t : Dest) (p : Drain)
  /-- A WPIN that takes a pin once the claims accepted before it are complete (R284). -/
  | pin (t : Dest) (die core slot : Nat)
  /-- Credit request to a home port, and grant to a binding (R327). -/
  | creditReq (r : CreditReq)
  | creditGrant (die bid : Nat) (qid : Word) (g chunk : Nat)
  /-- Reservation on its way: binding, its flume and handle, slots, the put of a QENQ (R329, R348), and whose it is
  (R317). -/
  | reserve (t : Dest) (die bid : Nat) (qid : Word) (handle : BitVec 12) (n : Nat) (put : Option Put) (owner : Owner)
  /-- Reservation parked for allowance, with the cycle it parked (R329). -/
  | reserveWait (t : Dest) (bid n since : Nat) (put : Option Put)
  | put (t : Dest) (die bid : Nat) (qid : Word) (p : Put)
  | dequeueWait (t : Dest) (qid : Word) (handle : BitVec 12) (off : Nat)
  /-- Status pair on its way back from a die (R346). -/
  | reply (t : Dest) (home : Nat) (lo hi : Word)
  /-- State request of QSTAT (R352). -/
  | stat (t : Dest) (qid : Word) (handle : BitVec 12)
  /-- A remote error on its way to the issuing die, with the address of the instruction that caused it. -/
  | remoteError (die ctx : Nat) (t : Option Dest) (pc : Pc) (reason : BitVec 8) (qid : Word) (handle : BitVec 12)
  | launchRec (t : Dest) (die : Nat) (r : LaunchRec)
  deriving DecidableEq, Repr

/-- A piece of work, by its handle, and the resume token that holds it after an engine page fault (R208, R377). -/
structure Item where
  id : Nat
  held : Option Nat := none
  work : Work
  deriving DecidableEq, Repr

/-- A write of HBM that a load placed before it still passes over (R184, R190): its offset in window H, the bytes it
replaced, its place, and its stand and cord where a thread made it; and the next handle at that moment, so that a stand
placed later never passes over it. -/
structure Past where
  pa : Nat
  bytes : List Byte
  upto : Nat
  place : Place
  writer : Option (Nat × Nat) := none
  deriving DecidableEq, Repr

/-- What a performed access or an ordering step stands before in its threads (R185, R188). -/
inductive Orders
  /-- An access of some bytes of a page kind, of the scratchpad where none, of a stream: whether it reads, and whether it is
  an .acq load. -/
  | access (pa n : Nat) (kind : Option PageKind) (stream : BitVec 4) (reads acq : Bool)
  /-- A step of a synchroniser on some bytes, of no stream. -/
  | step (pa n : Nat)
  /-- Every later access; the later accesses of some streams. -/
  | all
  | streams (mask : BitVec 16)
  deriving DecidableEq, Repr

/-- What some threads of a cord have done, and its place: their later accesses that it stands before are not placed before
it. `since` is the first handle of those later accesses. -/
structure Seen where
  sid : Nat
  cord : Nat
  threads : Mask
  what : Orders
  since : Nat
  place : Place
  deriving DecidableEq, Repr

/-- What the host's last request got back: bytes, or an error completion (R391, R401). -/
inductive HostReply
  | data (bytes : List Byte)
  | error
  deriving DecidableEq, Repr

/-- The machine: one package with its memory, its host's memory as far as the device reaches it, and its links. -/
structure State where
  /-- HBM of the eight dies, by offset in window H (R401). -/
  hbm : Memory
  hostMem : Memory
  /-- Writes of HBM that a load or a fetch may still pass over, newest first (R184, R190, R194). -/
  past : List Past
  /-- What bounds the places of each thread's later loads (R185, R188). -/
  seen : List Seen
  dies : List Die
  stands : List Stand
  tracts : List Tract
  works : List Item
  pkgid : BitVec 12
  contrails : List Contrail
  routes : List DWord
  links : List Link
  firmware : Firmware
  /-- Repair records in management flash (R414). -/
  flash : List Repair
  modcap : Word
  junction : Word
  islandPower : List Word
  islandMhz : List Nat
  /-- Cycle since which the module has drawn more than MODCAP (R418). -/
  overSince : Option Nat
  /-- The self-test of a package reset has not ended (R412, R413). -/
  pkgRst : Bool
  /-- MSI-X vectors raised, newest first. -/
  msix : List Nat
  report : Option Report
  hostReply : Option HostReply
  /-- Arithmetic clock cycles and package timestamp (R252). -/
  clock : Nat
  ts : Nat
  /-- The model's own: the path that issues, whether it issues next, the requests of the host and the environment not
  taken, draws of free values, and the next handle. -/
  focus : Option Focus
  turn : Bool
  inputs : List Instr
  /-- Quadrants that have issued in this round, and the steps since a prompt move was last taken (R154). -/
  served : List (Nat × Nat × Nat)
  owed : Nat
  fresh : Nat
  uid : Nat
  deriving DecidableEq, Repr

/-- The machine right after reset: no program, no context, nothing in flight. Every field is at the reset value of its
register map, and what has none (log 2) is zero, none or empty, but for the islands' clocks. -/
def State.reset : State :=
  { hbm := [], hostMem := [], past := [], seen := [], dies := List.replicate 8 Die.reset, stands := [], tracts := [], works := [],
    pkgid := 0, contrails := List.replicate 28 {}, routes := List.replicate 4096 0, links := List.replicate 64 {},
    firmware := { fwaddr := 0, fwlen := 0, load := false, fwstat := 0, digest := 0, version := 0, minimum := 0 },
    flash := [], modcap := 3600, junction := 0, islandPower := List.replicate 44 0,
    islandMhz := List.replicate 44 1500, overSince := none, pkgRst := false, msix := [], report := none, hostReply := none, clock := 0, ts := 0, focus := none,
    turn := false, inputs := [], served := [], owed := 0, fresh := 0, uid := 0 }

end Sys2Proof.Machine
end

