-- ==== Sys2Proof/Machine/Ops.lean ====
section
/-! DEFINITION. The named operations over the state: memory, tables of parts, the focused path, registers of a cord,
translation, the release of a stand's resources, and the taking of an exception, once for every instruction. -/

namespace Sys2Proof.Machine

/-! ### Memory -/

/-- The byte at an address. -/
def Memory.read : Memory → Nat → Byte
  | [], _ => 0
  | (k, b) :: r, a => if k = a then b else if k < a then Memory.read r a else 0

/-- Memory with one byte written, in canonical form. -/
def Memory.write : Memory → Nat → Byte → Memory
  | [], a, b => if b = 0 then [] else [(a, b)]
  | (k, c) :: r, a, b =>
    if k < a then (k, c) :: Memory.write r a b
    else if k = a then (if b = 0 then r else (a, b) :: r)
    else if b = 0 then (k, c) :: r else (a, b) :: (k, c) :: r

/-- Canonical form: addresses strictly rising, no byte of 0x00 listed. -/
def Memory.wf : Memory → Bool
  | [] => true
  | [(_, b)] => decide (b ≠ 0)
  | (k, b) :: (k', b') :: r => decide (b ≠ 0) && decide (k < k') && Memory.wf ((k', b') :: r)

/-- `n` bytes from `a`, little-endian (R1). -/
def Memory.load (m : Memory) (a : Nat) : Nat → Nat
  | 0 => 0
  | n + 1 => (m.read a).toNat + 256 * m.load (a + 1) n

/-- Writes `n` bytes of a value from `a`, little-endian (R1). -/
def Memory.store (m : Memory) (a : Nat) : Nat → Nat → Memory
  | 0, _ => m
  | n + 1, v => (m.write a (BitVec.ofNat 8 v)).store (a + 1) n (v / 256)

/-- `n` bytes from `a`. -/
def Memory.bytes (m : Memory) (a : Nat) : Nat → List Byte
  | 0 => []
  | n + 1 => m.read a :: m.bytes (a + 1) n

/-- Writes bytes from `a`. -/
def Memory.put (m : Memory) (a : Nat) : List Byte → Memory
  | [] => m
  | b :: r => (m.write a b).put (a + 1) r

/-- Writes zero over `n` bytes from `a`. -/
def Memory.zero (m : Memory) (a n : Nat) : Memory := m.filter fun c => c.1 < a || a + n ≤ c.1

/-- The part of a memory from `a` to `a + n`, moved down to address 0. -/
def Memory.slice (m : Memory) (a n : Nat) : Memory :=
  (m.filter fun c => a ≤ c.1 && c.1 < a + n).map fun c => (c.1 - a, c.2)

/-- Little-endian value of bytes. -/
def leNat : List Byte → Nat
  | [] => 0
  | b :: r => b.toNat + 256 * leNat r

/-- `n` little-endian bytes of a value. -/
def leBytes : Nat → Nat → List Byte
  | 0, _ => []
  | n + 1, v => BitVec.ofNat 8 v :: leBytes n (v / 256)

/-- A field of a byte record, little-endian: `n` bytes from offset `o`. -/
def recField (r : List Byte) (o n : Nat) : Nat := leNat ((r.drop o).take n)

/-- Bits hi down to lo of a number. -/
def nbits (x hi lo : Nat) : Nat := x / 2 ^ lo % 2 ^ (hi + 1 - lo)

/-! ### Tables of parts -/

def State.die (s : State) (n : Nat) : Die := s.dies.getD n Die.reset
def State.modDie (s : State) (n : Nat) (f : Die → Die) : State := { s with dies := s.dies.modify n f }
def Die.core (d : Die) (c : Nat) : Core := d.cores.getD c Core.reset
def Die.grove (d : Die) (g : Nat) : Grove := d.groves.getD g Grove.reset
def Die.port (d : Die) (p : Nat) : Port := d.ports.getD p Port.reset
def Die.ctx (d : Die) (c : Nat) : Ctx := d.ctxs.getD c {}
def State.core (s : State) (d c : Nat) : Core := (s.die d).core c
def State.modCore (s : State) (d c : Nat) (f : Core → Core) : State :=
  s.modDie d fun x => { x with cores := x.cores.modify c f }
def State.grove (s : State) (d g : Nat) : Grove := (s.die d).grove g
def State.modGrove (s : State) (d g : Nat) (f : Grove → Grove) : State :=
  s.modDie d fun x => { x with groves := x.groves.modify g f }
def State.port (s : State) (d p : Nat) : Port := (s.die d).port p
def State.modPort (s : State) (d p : Nat) (f : Port → Port) : State :=
  s.modDie d fun x => { x with ports := x.ports.modify p f }

/-- The stand of a handle. -/
def State.stand? (s : State) (sid : Nat) : Option Stand := s.stands.find? fun st => st.sid = sid

def State.modStand (s : State) (sid : Nat) (f : Stand → Stand) : State :=
  { s with stands := s.stands.map fun st => if st.sid = sid then f st else st }

def Stand.cord? (st : Stand) (c : Nat) : Option Cord := st.cords.find? fun x => x.id = c

def Stand.modCord (st : Stand) (c : Nat) (f : Cord → Cord) : Stand :=
  { st with cords := st.cords.map fun x => if x.id = c then f x else x }

def State.modCord (s : State) (sid c : Nat) (f : Cord → Cord) : State := s.modStand sid fun st => st.modCord c f

def Cord.slot (c : Cord) (b : Bool) : Option Path := if b then c.slotB else c.slotA

def Cord.setSlot (c : Cord) (b : Bool) (p : Option Path) : Cord :=
  if b then { c with slotB := p } else { c with slotA := p }

def State.path? (s : State) (sid c : Nat) (b : Bool) : Option Path :=
  (s.stand? sid).bind fun st => (st.cord? c).bind fun x => x.slot b

/-! ### The focused path -/

/-- The stand of a focus with its cord and path written back. -/
def Focus.whole (f : Focus) : Stand :=
  f.stand.modCord f.cord.id fun _ => f.cord.setSlot f.slotB (some f.path)

/-- Puts the issuing path back into the tables. -/
def State.unfocus (s : State) : State :=
  match s.focus with
  | none => s
  | some f => { s with focus := none, stands := f.whole :: s.stands }

/-- Puts a stand, whose path has left its slot, back into the tables, with no path issuing. -/
def State.seat (s : State) (st : Stand) : State := { s with focus := none, stands := st :: s.stands }

/-- Takes a path out of the tables, to issue. -/
def State.focusOn (s : State) (sid c : Nat) (b : Bool) : State :=
  let s := s.unfocus
  match s.stand? sid with
  | none => s
  | some st =>
    match st.cord? c with
    | none => s
    | some x =>
      match x.slot b with
      | none => s
      | some p => { s with focus := some ⟨st, x, p, b⟩, stands := s.stands.filter fun y => y.sid ≠ sid }

/-! ### Handles and free values -/

/-- Adds a piece of work under the next handle. -/
def State.addWork (s : State) (w : Work) : State :=
  { s with uid := s.uid + 1, works := s.works ++ [{ id := s.uid, work := w }] }

def State.work? (s : State) (id : Nat) : Option Item := s.works.find? fun i => i.id = id
def State.dropWork (s : State) (id : Nat) : State := { s with works := s.works.filter fun i => i.id ≠ id }
def State.setWork (s : State) (id : Nat) (w : Work) : State :=
  { s with works := s.works.map fun (i : Item) => if i.id = id then { i with work := w } else i }

/-- One draw of the free values. -/
def State.draw (s : State) : State := { s with fresh := s.fresh + 1 }

/-! ### Registers of a cord -/

def VReg.lane (r : VReg) (l : Nat) : Word := r.lanes.getD l 0

/-- A register written in the lanes of a mask, which are no longer damaged (R374); a write that does not cover all 32 lanes
tags it general (R86). -/
def VReg.write (r : VReg) (m : Mask) (f : Nat → Word) (t : Tag) : VReg :=
  { lanes := laneMap fun l => if m.getLsbD l then f l else r.lane l,
    tag := if m = BitVec.allOnes 32 then t else .general, bad := r.bad &&& ~~~m }

def Cord.vreg (c : Cord) (n : Nat) : VReg := c.v.getD n VReg.zero

/-- Writes a vector register in the lanes of a mask (R86). -/
def Cord.writeV (c : Cord) (n : Nat) (m : Mask) (f : Nat → Word) (t : Tag) : Cord :=
  { c with v := c.v.set n ((c.vreg n).write m f t) }

/-- Writes a register pair with one 64-bit value, tagged general (R205, R342). -/
def Cord.writePair (c : Cord) (d : Nat) (m : Mask) (lo hi : Word) : Cord :=
  (c.writeV d m (fun _ => lo) .general).writeV (d + 1) m (fun _ => hi) .general

/-- Scalar register of a code: sz reads zero (R43). -/
def Cord.sreg (c : Cord) (n : SCode) : DWord := if n = 31 then 0 else c.s.getD n.toNat 0

/-- Writes a scalar register; a write to sz is discarded (R43). -/
def Cord.writeS (c : Cord) (n : SCode) (x : DWord) : Cord :=
  if n = 31 then c else { c with s := c.s.set n.toNat x }

/-- Predicate of a number: p0 reads all ones (R44). -/
def Cord.pred (c : Cord) (n : Nat) : Mask := if n = 0 then BitVec.allOnes 32 else c.p.getD n 0

/-- Writes a predicate in the lanes of a mask. -/
def Cord.writeP (c : Cord) (n : Nat) (m x : Mask) : Cord := { c with p := c.p.set n ((c.pred n &&& ~~~m) ||| (x &&& m)) }

/-- Sets scoreboard marks on vector registers (R89). -/
def Cord.markV (c : Cord) (ns : List Nat) : Cord := { c with vmarks := c.vmarks ++ ns }
def Cord.unmarkV (c : Cord) (ns : List Nat) : Cord := { c with vmarks := c.vmarks.filter fun n => !ns.contains n }
def Cord.markS (c : Cord) (ns : List Nat) : Cord := { c with smarks := c.smarks ++ ns }
def Cord.unmarkS (c : Cord) (ns : List Nat) : Cord := { c with smarks := c.smarks.filter fun n => !ns.contains n }
def Cord.markP (c : Cord) (ns : List Nat) : Cord := { c with pmarks := c.pmarks ++ ns }
def Cord.unmarkP (c : Cord) (ns : List Nat) : Cord := { c with pmarks := c.pmarks.filter fun n => !ns.contains n }

/-- A cord is converged when it has one live path and no pending path (R92). -/
def Cord.converged (c : Cord) : Bool :=
  (c.slotA.isSome != c.slotB.isSome) && c.pending.isEmpty && c.ringCount == 0

/-- A path moved past an instruction that is not an ALU instruction. -/
def Path.next (p : Path) (pc : Pc) : Path :=
  { p with pc := pc, pfx := none, wait := none, chain := {}, yielded := false }

/-- Address of the first word of the group an instruction belongs to (R57, R376). -/
def Path.restart (p : Path) : Pc := (p.pfx.map Prefix.start).getD p.pc

/-- A parked path whose wait completes: past the waiting instruction. -/
def Path.wake (p : Path) : Path := p.next (p.pc + 4)

/-- Status word of a copy (R205): low word. -/
def statusLow (code : Nat) (fin tmo : Bool) (reason ndrain : Nat) : Word :=
  BitVec.ofNat 32 (reason * 2 ^ 24 + ndrain * 2 ^ 16 + code * 16 + fin.toNat * 8 + tmo.toNat * 4)

/-! ### Time -/

/-- CLK of a core (R252): cycles of its island's clock since core reset. -/
def State.clk (s : State) (d c : Nat) : DWord :=
  let k := s.core d c
  BitVec.ofNat 64 (k.clkBase + (s.clock - k.clkSince) * k.mhz / 1500)

/-- TS as a cord reads it (R252). -/
def State.readTs (s : State) (c : Cord) : DWord :=
  if c.tsfloor.toNat ≤ s.ts then BitVec.ofNat 64 s.ts else c.tsfloor

/-! ### Fault codes -/

/-- Code of a fault (R373). -/
def TrapCode.num : TrapCode → BitVec 8
  | .illegalInstr => 0x01 | .illegalReg => 0x02 | .latchChain => 0x03 | .misaligned => 0x04
  | .divergedScalar => 0x05 | .privilege => 0x06 | .tokenMismatch => 0x07 | .divergenceDepth => 0x08
  | .controlCorrupt => 0x09 | .pageFault => 0x10 | .pteInvalid => 0x11 | .protection => 0x12
  | .worldViolation => 0x13 | .addressRange => 0x14 | .spRange => 0x15 | .accRange => 0x16 | .memError => 0x17
  | .copyParam => 0x20 | .mcastRange => 0x21 | .syncParam => 0x22 | .doubleResolve => 0x23
  | .matrixParam => 0x24 | .listParam => 0x25 | .flumeParam => 0x26 | .remoteError => 0x27
  | .launchParam => 0x28 | .launchRefused => 0x29 | .combineParam => 0x2A | .sysParam => 0x2B
  | .trap => 0x30 | .halt => 0x31 | .saveExhausted => 0x32 | .killed => 0x34

/-- Recoverable faults (R373). -/
def TrapCode.recoverable : TrapCode → Bool
  | .pageFault | .trap | .halt => true
  | _ => false

/-- MISALIGNED of operands, each with the bytes it must be a multiple of: TRAPVAL holds the one at fault, and is free
where several are (R374, R375; log 9). -/
def misalign (xs : List (Nat × Nat)) : Trap :=
  { code := .misaligned,
    val := match xs.filter fun x => x.1 % x.2 ≠ 0 with
      | [x] => some (BitVec.ofNat 64 x.1)
      | _ => none }

/-! ### Events and violations -/

/-- The bytes of a record (R387). -/
def eventBytes (e : Event) (time : DWord) (rseq : Word) : List Byte :=
  [e.kind, e.code, e.reason, e.ctx] ++ leBytes 2 e.fpid.toNat ++ [e.core, 0] ++ leBytes 4 e.standId.toNat ++
    [e.cord, e.slot, 0, 0] ++ leBytes 8 e.pc.toNat ++ leBytes 8 e.val.toNat ++ leBytes 8 time.toNat ++
    leBytes 8 e.info.toNat ++ leBytes 8 e.info2.toNat ++ leBytes 4 rseq.toNat ++ leBytes 4 0

/-- Records a ring holds. A SIZE above 10, to which R404 gives no effect, counts like the others (DESIGN CHOICE, log 81). -/
def Ring.entries (r : Ring) : Nat := 64 * 2 ^ r.size.toNat

/-- The ring has room for a record. -/
def Ring.room (r : Ring) : Bool := r.enable && decide ((r.tail - r.head).toNat < r.entries)

/-- A record goes to the ring of a die in host memory; vector n is raised when TAIL passes HEAD (R404). -/
def State.ringPut (s : State) (d : Nat) (e : Event) (time : DWord) : State :=
  let r := (s.die d).ring
  { s with
      hostMem := s.hostMem.put (r.base.toNat * 4096 + 64 * (r.tail.toNat % r.entries)) (eventBytes e time r.rseq)
      msix := if r.tail = r.head then d :: s.msix else s.msix }.modDie d fun x =>
    { x with ring := { x.ring with tail := x.ring.tail + 1, rseq := x.ring.rseq + 1 } }

/-- A place of the buffer is free: the oldest record that waits beyond it takes it, with the time of posting (R404). -/
def Ring.refill (r : Ring) (time : DWord) : Ring :=
  match r.waits with
  | [] => r
  | e :: rest => { r with buffer := r.buffer ++ [(e, time)], waits := rest }

/-- The oldest record that a die holds goes to its ring, where that has room. -/
def State.ringMove (s : State) (d : Nat) : State :=
  let r := (s.die d).ring
  match r.buffer with
  | [] => s
  | (e, time) :: rest =>
    if r.room then
      (s.ringPut d e time).modDie d fun x =>
        { x with ring := { x.ring with buffer := rest }.refill (BitVec.ofNat 64 s.ts) }
    else s

/-- A record that the ring has no room for: into the buffer while it holds fewer than 64; beyond it a record of kind 0x5 is
dropped and counted, and any other waits at the posting step of what posts it (R404). -/
def Ring.hold (r : Ring) (e : Event) (time : DWord) : Ring :=
  if r.buffer.length < 64 ∧ r.waits = [] then { r with buffer := r.buffer ++ [(e, time)] }
  else if e.kind = 5 then { r with drop := r.drop + 1 }
  else { r with waits := r.waits ++ [e] }

/-- Posts an event record on a die: behind those it holds, to the ring, or among the held ones. -/
def State.post (s : State) (d : Nat) (e : Event) : State :=
  let r := (s.die d).ring
  let s := (List.range (r.buffer.length + r.waits.length)).foldl (fun s _ => s.ringMove d) s
  if (s.die d).ring.room then s.ringPut d e (BitVec.ofNat 64 s.ts)
  else s.modDie d fun x => { x with ring := x.ring.hold e (BitVec.ofNat 64 s.ts) }

/-- The cord that an access or a piece of work belongs to, as a record names it (R387). -/
structure Named where
  standId : Word := 0
  cord : BitVec 8 := 0
  slot : BitVec 8 := 0
  pc : DWord := 0

/-- Who translates: die, context, world, FPID, the source and index a violation names (R391), and the cord it acts for. -/
structure Agent where
  die : Nat
  ctx : Nat
  sec : Bool
  fpid : BitVec 16
  source : Nat
  index : Nat
  named : Named := {}

/-- Enters a refused access in the violation log, and posts its record with the TRAPVAL of its fault (R391, R387). One of no
core logs index 0 (DESIGN CHOICE, log 84). -/
def State.violation (s : State) (a : Agent) (pa access : Nat) (val : DWord) : State :=
  let v : Violation := ⟨pa, a.source, a.index % 32, a.fpid, access, BitVec.ofNat 64 s.ts⟩
  let x := s.die a.die
  let k := (x.log.length + x.logLost) % 64
  let s := s.modDie a.die fun x =>
    if x.log.length < 64 then { x with log := x.log ++ [v] }
    else { x with log := x.log.set k v, logLost := x.logLost + 1 }
  s.post a.die { kind := 5, code := TrapCode.worldViolation.num, ctx := BitVec.ofNat 8 a.ctx, fpid := a.fpid,
                 val := val, info := BitVec.ofNat 64 k,
                 core := if a.source ≤ 1 ∧ a.index < 32 then BitVec.ofNat 8 (a.die * 32 + a.index) else 0xFF,
                 standId := a.named.standId, cord := a.named.cord, slot := a.named.slot, pc := a.named.pc }

/-! ### Translation -/

/-- Offset in window H of a die's physical address (R401). -/
def hAddr (d pa : Nat) : Nat := d * Config.hbmBytes + pa

/-- A physical address is secure when a valid descriptor with S = 1 covers it (R390). -/
def Die.secureAt (x : Die) (pa : Nat) : Bool :=
  x.descs.any fun w =>
    w.2.getLsbD 63 && w.2.getLsbD 62 && decide (nbits w.1.toNat 47 16 ≤ pa / 65536) &&
      decide (pa / 65536 ≤ nbits w.2.toNat 47 16)

/-- One level of the page table: shift and count of its index, page of a leaf, alignment of the next table (R171). -/
structure Level where
  shift : Nat
  entries : Nat
  page : Option Nat
  nextAlign : Nat

def levels : List Level :=
  [⟨48, 512, none, 4096⟩, ⟨39, 512, none, 4096⟩, ⟨30, 512, some (2 ^ 30), 4096⟩, ⟨21, 512, some (2 ^ 21), 256⟩,
   ⟨16, 32, some (2 ^ 16), 1⟩]

/-- Page kind of KIND; 11 is reserved (R172). -/
def pageKindOf : Nat → Option PageKind
  | 0 => some .un
  | 1 => some .rc
  | 2 => some .so
  | _ => none

/-- The walk (R171 to R173): the table at `t`, the levels left. -/
def walkFrom (m : Memory) (d va : Nat) : List Level → Nat → Except TrapCode Leaf
  | [], _ => .error .pteInvalid
  | l :: rest, t =>
    if Config.hbmBytes < t + 8 * l.entries then .error .pteInvalid else
    let e := m.load (hAddr d (t + 8 * (va / 2 ^ l.shift % l.entries))) 8
    if nbits e 0 0 = 0 then .error .pageFault else
    if nbits e 63 48 ≠ 0 ∨ nbits e 7 7 ≠ 0 then .error .pteInvalid else
    let pa := nbits e 47 8 * 256
    if nbits e 1 1 = 1 then
      match l.page, pageKindOf (nbits e 5 4) with
      | some sz, some k =>
        if pa % sz ≠ 0 ∨ Config.hbmBytes < pa + sz then .error .pteInvalid
        else .ok { pa := pa, size := sz, kind := k, s := nbits e 6 6 = 1, w := nbits e 2 2 = 1, x := nbits e 3 3 = 1 }
      | _, _ => .error .pteInvalid
    else if nbits e 6 2 ≠ 0 ∨ rest.isEmpty ∨ pa % l.nextAlign ≠ 0 then .error .pteInvalid
    else walkFrom m d va rest pa

/-- The walk of a context's page table. -/
def State.walk (s : State) (d ctx va : Nat) : Except TrapCode Leaf :=
  walkFrom s.hbm d va levels (nbits ((s.die d).ctx ctx).root.toNat 47 12 * 4096)

/-- An entry of a table that covers an address of a context (R174). -/
def tlbFind (es : List TlbEntry) (ctx va : Nat) : Option Leaf :=
  (es.find? fun e => e.ctx = ctx ∧ e.va ≤ va ∧ va < e.va + e.leaf.size).map TlbEntry.leaf

/-- A cached translation in the first-level TLB of a core (R174). -/
def State.tlbHit (s : State) (d c ctx va : Nat) : Option Leaf := tlbFind (s.core d c).tlb ctx va

/-- A cached translation in the second-level TLB of a die, or what a walk in flight has found (R174). -/
def State.tlbShared (s : State) (d ctx va : Nat) : Option Leaf :=
  (tlbFind (s.die d).tlb ctx va).or (tlbFind ((s.die d).walks.map Walk.entry) ctx va)

/-- A translation entered in the first-level TLB of a core, 128 entries, and in the second-level one of its die, 8,192
entries (R34, R174). -/
def State.tlbFill (s : State) (d c : Nat) (e : TlbEntry) : State :=
  (s.modCore d c fun k => { k with tlb := (e :: k.tlb).take 128 }).modDie d fun x =>
    { x with tlb := (e :: x.tlb).take 8192 }

/-- A walk in flight ends: its entry fills the TLBs (R174). -/
def State.endWalk (s : State) (d : Nat) (w : Walk) : State :=
  (s.modDie d fun x => { x with walks := x.walks.erase w }).tlbFill d w.core w.entry

/-- A walk begins for a core; with all 256 slots held it waits until the oldest has ended (R34, R174). -/
def State.beginWalk (s : State) (d c : Nat) (e : TlbEntry) : State :=
  let s := if (s.die d).walks.length < 256 then s
    else match (s.die d).walks.getLast? with
      | some w => s.endWalk d w
      | none => s
  s.modDie d fun x => { x with walks := ⟨c, e⟩ :: x.walks }

/-- A cached translation against the table as it stands: where they differ, either is used (R175). -/
def State.oldOrNew (s : State) (o : Leaf) (r : Except TrapCode Leaf) : State × Except TrapCode Leaf :=
  match r with
  | .ok l =>
    if o = l then (s, .ok l) else if Config.freePick s.fresh % 2 = 0 then (s.draw, .ok o) else (s.draw, .ok l)
  | .error c => if Config.freePick s.fresh % 2 = 0 then (s.draw, .ok o) else (s.draw, .error c)

/-- A translation for a core and the state after it: a first-level hit, else a second-level hit or the walk in flight of
the page, which fills the first level, else a walk that begins (R174). -/
def State.lookup (s : State) (d c ctx va : Nat) : State × Except TrapCode Leaf :=
  match s.tlbHit d c ctx va with
  | some o => s.oldOrNew o (s.walk d ctx va)
  | none =>
    match s.tlbShared d ctx va with
    | some o =>
      (s.modCore d c fun k => { k with tlb := (⟨ctx, va / o.size * o.size, o⟩ :: k.tlb).take 128 }).oldOrNew o
        (s.walk d ctx va)
    | none =>
      match s.walk d ctx va with
      | .ok l => (s.beginWalk d c ⟨ctx, va / l.size * l.size, l⟩, .ok l)
      | .error e => (s, .error e)

/-- What an access is for, in the checks of R173 and the log of R391. -/
inductive Use | read | write | atomic | fetch
  deriving DecidableEq, Repr

def Use.writes : Use → Bool
  | .write | .atomic => true
  | _ => false

def Use.num : Use → Nat
  | .read => 0 | .write => 1 | .atomic => 2 | .fetch => 3

def Stand.agent (st : Stand) : Agent := ⟨st.die, st.ctx, st.sec, st.fpid, 0, st.core, {}⟩

/-- The focused path as it translates, named as its records name it. -/
def Focus.agent (f : Focus) : Agent :=
  { f.stand.agent with
      named := ⟨BitVec.ofNat 32 f.stand.standId, BitVec.ofNat 8 f.cord.id, BitVec.ofNat 8 f.slotB.toNat,
        f.path.restart.zeroExtend 64⟩ }

/-- Core whose first-level TLB an agent uses: that of its core or skidder; the ports and the distributor have none. -/
def Agent.tlbCore (a : Agent) : Nat := if a.source ≤ 1 then a.index else 32

/-- Translation of one byte's address with every check of R173 and R391: its physical address and its page. -/
def State.translate (s : State) (a : Agent) (u : Use) (va : Nat) : State × Except TrapCode (Nat × Leaf) :=
  match s.lookup a.die a.tlbCore a.ctx va with
  | (s, .error c) => (s, .error c)
  | (s, .ok l) =>
    let pa := l.pa + va % l.size
    if !a.sec && l.s then (s, .error .worldViolation)
    else if u.writes && !l.w then (s, .error .protection)
    else if u = .fetch && !l.x then (s, .error .protection)
    else if !a.sec && (s.die a.die).secureAt pa then (s.violation a pa u.num (BitVec.ofNat 64 va), .error .worldViolation)
    else (s, .ok (pa, l))

/-- Translation of a list of addresses in order, stopping at the first that faults, with that address (R176). -/
def State.translateAll (s : State) (a : Agent) (u : Use) : List Nat → State × Except (TrapCode × Nat) (List (Nat × Leaf))
  | [] => (s, .ok [])
  | va :: r =>
    match s.translate a u va with
    | (s, .error c) => (s, .error (c, va))
    | (s, .ok p) =>
      match s.translateAll a u r with
      | (s, .error e) => (s, .error e)
      | (s, .ok ps) => (s, .ok (p :: ps))

/-! ### HBM and its history (R183 to R190, R194) -/

/-- A write that may still be passed over meets n bytes. -/
def Past.meets (e : Past) (h n : Nat) : Bool := decide (e.pa < h + n) && decide (h < e.pa + e.bytes.length)

/-- Every version of some bytes of HBM but the one that stands is forgotten: later reads see what stands. -/
def State.forget (s : State) (h n : Nat) : State := { s with past := s.past.filter fun e => !e.meets h n }

/-- The later of two places. -/
def Place.join (a b : Place) : Place := ⟨max a.die b.die, max a.stand b.stand, max a.cord b.cord⟩

/-- What the threads of a scope see of a place (R189); what the cores of a grove see, every thread of the die sees (R183). -/
def Place.within (p : Place) : Scope → Place
  | .cord => { cord := p.cord }
  | .stand => { p with die := 0 }
  | .grove | .die => p

/-- The place of what takes effect now. -/
def State.place (s : State) : Place := ⟨s.clock + 1, s.clock + 1, s.clock + 1⟩

/-- The bytes from an offset in window H are about to be written: what they held, and the place of the write. -/
def State.remember (s : State) (w : Option (Nat × Nat)) (x : Place) (h n : Nat) : State :=
  { s with past := { pa := h, bytes := s.hbm.bytes h n, upto := s.uid, place := x, writer := w } :: s.past }

/-- Its threads have acquired: by an acquire, or by a read that is one side of it (R185, R188). -/
def Seen.acquired (e : Seen) : Bool :=
  match e.what with
  | .all | .streams _ => true
  | .access _ _ k _ reads acq => acq || (reads && decide (k = some .so))
  | .step _ _ => false

/-- How far their acquires have brought some threads. -/
def State.reached (s : State) (own : Seen → Bool) : Place :=
  (s.seen.filter fun e => e.acquired && own e).foldl (fun x e => x.join e.place) {}

/-- How far their acquires have brought the threads of a path. -/
def State.reachedBy (s : State) (sid c : Nat) (m : Mask) : Place :=
  s.reached fun e => decide (e.sid = sid) && decide (e.cord = c) && decide (e.threads &&& m ≠ 0)

/-- What the threads of a narrow scope have acquired from beyond it: an acquire at that scope hands it on (R186). -/
def State.known (s : State) (x : Scope) (sid c : Nat) : Place :=
  match x with
  | .cord => { s.reached (fun e => decide (e.sid = sid) && decide (e.cord = c)) with cord := 0 }
  | .stand => { die := (s.reached fun e => decide (e.sid = sid)).die }
  | .grove | .die => {}

/-- An acquire of some threads of a cord at a scope: their later accesses come after it (R188, R193). -/
def State.acquireAt (s : State) (x : Scope) (sid c : Nat) (m : Mask) : State :=
  if m = 0 then s
  else { s with seen := ⟨sid, c, m, .all, s.uid, (s.place.within x).join (s.known x sid c)⟩ :: s.seen }

/-- A synchronising step of some threads of a cord on bytes of HBM, or of scratchpad where n is 0 (R185, R193). -/
def State.noteStep (s : State) (sid c : Nat) (m : Mask) (h n : Nat) : State :=
  if m = 0 then s else { s with seen := ⟨sid, c, m, .step h n, s.uid, s.place⟩ :: s.seen }

/-- A struck byte lies in the n bytes from a place of the same storage. -/
def struckWithin (y x : Struck) (n : Nat) : Bool :=
  match x, y with
  | .hbm a, .hbm b => decide (a ≤ b) && decide (b < a + n)
  | .scratchpad i a, .scratchpad j b | .accumulator i a, .accumulator j b =>
    decide (i = j) && decide (a ≤ b) && decide (b < a + n)
  | .canopy c w a, .canopy c' w' b | .holding c w a, .holding c' w' b =>
    decide (c = c') && decide (w = w') && decide (a ≤ b) && decide (b < a + n)
  | .element p q k a, .element p' q' k' b =>
    decide (p = p') && decide (q = q') && decide (k = k') && decide (a ≤ b) && decide (b < a + n)
  | _, _ => false

/-- A struck byte of HBM. -/
def struckInHbm : Struck → Bool
  | .hbm _ => true
  | _ => false

/-- A struck byte of the scratchpad or the accumulators of a stand. -/
def struckOfStand (y : Struck) (sid : Nat) : Bool :=
  match y with
  | .scratchpad i _ | .accumulator i _ => decide (i = sid)
  | _ => false

/-- The n bytes from a place of a die hold an uncorrectable error (R374). -/
def State.struck (s : State) (d : Nat) (x : Struck) (n : Nat) : Bool := (s.die d).damaged.any fun y => struckWithin y x n

/-- Bytes of a die that a write replaces are no longer damaged (R374). -/
def State.mendAt (s : State) (d : Nat) (x : Struck) (n : Nat) : State :=
  if s.dies.all fun y => y.damaged.isEmpty then s
  else s.modDie d fun k => { k with damaged := k.damaged.filter fun y => !struckWithin y x n }

/-- Bytes of HBM that a write replaces are no longer damaged. -/
def State.mended (s : State) (h n : Nat) : State := s.mendAt (h / Config.hbmBytes) (.hbm (h % Config.hbmBytes)) n

/-- Bytes of a stand's scratchpad that a write replaces are no longer damaged. -/
def State.mendSp (s : State) (st : Stand) (off n : Nat) : State := s.mendAt st.die (.scratchpad st.sid off) n

/-- Bytes of a stand's accumulators that a write replaces are no longer damaged. -/
def State.mendAcc (s : State) (st : Stand) (off n : Nat) : State := s.mendAt st.die (.accumulator st.sid off) n

/-- Bytes of HBM written at an offset in window H. -/
def State.hbmSet (s : State) (h : Nat) (bs : List Byte) : State :=
  { s with hbm := s.hbm.put h bs }.mended h bs.length

/-- A write of HBM by the device. -/
def State.hbmPut (s : State) (h : Nat) (bs : List Byte) : State := (s.remember none s.place h bs.length).hbmSet h bs

/-- Whether bytes at an offset in window H hold an uncorrectable error (R374). -/
def State.hbmBad (s : State) (h n : Nat) : Bool :=
  s.struck (h / Config.hbmBytes) (.hbm (h % Config.hbmBytes)) n

/-- An instruction consumes damaged bytes of its stand's scratchpad: MEM_ERROR (R374). -/
def Focus.damage (f : Focus) (s : State) (ranges : List (Nat × Nat)) : Option Trap :=
  if ranges.any fun r => s.struck f.stand.die (.scratchpad f.stand.sid r.1) r.2 then some { code := .memError } else none

/-- A load of a cord may be placed before a write, being itself placed at f or later. -/
def Past.after (e : Past) (f : Place) (sid c : Nat) : Bool :=
  decide (sid < e.upto) && decide (f.die < e.place.die) &&
    (e.writer.all fun w => decide (w.1 ≠ sid) || decide (f.stand < e.place.stand)) &&
    (decide (e.writer ≠ some (sid, c)) || decide (f.cord < e.place.cord))

/-- The place of a load of a cord that comes after a write. -/
def Past.seenAt (e : Past) (sid c : Nat) : Place :=
  ⟨e.place.die, if e.writer.any fun w => w.1 = sid then e.place.stand else 0,
    if e.writer = some (sid, c) then e.place.cord else 0⟩

/-- Memory as it stood before some writes, the newest first. -/
def rewind (m : Memory) (es : List Past) : Memory := es.foldl (fun m e => m.put e.pa e.bytes) m

/-- The writes to n bytes, the newest first; and those that a load of a cord placed at f or later may pass over. -/
def State.writesTo (s : State) (h n : Nat) : List Past := s.past.filter fun e => e.meets h n
def State.passable (s : State) (f : Place) (sid c h n : Nat) : List Past :=
  (s.writesTo h n).takeWhile fun e => e.after f sid c

/-- A load of n bytes by a cord, placed at f or later: it passes over a free number of the newest writes, and its place is
the earliest that does so (R184, R186, R190). -/
def State.loadPast (s : State) (f : Place) (sid c h n : Nat) : State × Nat × Place :=
  let es := s.passable f sid c h n
  let k := if es = [] then 0 else Config.freePick s.fresh % (es.length + 1)
  let x := ((s.writesTo h n).drop k).foldl (fun x e => x.join (e.seenAt sid c)) f
  if es = [] then (s, s.hbm.load h n, x)
  else
    let m := rewind (s.hbm.slice h n) ((es.take k).map fun e => { e with pa := e.pa - h, bytes := e.bytes.drop (h - e.pa) })
    (s.draw, m.load 0 n, x)

/-! ### Futures -/

/-- HBM with the state of a future changed, at its offset in window H. -/
def State.setFuture (s : State) (h : Nat) (m : Memory) : State := { s.remember none s.place h 16 with hbm := m }

/-- Undoes a registration on a future, on its state word as it stands (R240). -/
def futureWithdraw (m : Memory) (h : Nat) : Memory :=
  let w := m.load h 8
  let n := nbits w 31 0
  let n' := if 0 < n then n - 1 else 0
  let st := nbits w 63 62
  if st = 0 ∨ st = 1 then
    let st' := if st = 1 ∧ n' = 0 then 0 else st
    m.store h 8 (st' * 2 ^ 62 + nbits w 61 32 * 2 ^ 32 + n')
  else m

/-- A future's STATE is full or poisoned. -/
def futureDone (m : Memory) (h : Nat) : Bool := decide (2 ≤ nbits (m.load h 8) 63 62)

/-! ### Wait tables -/

/-- Offset of the stand's wait spill area, none when it starts below 0 (R228). -/
def Stand.waitArea (st : Stand) : Option Nat :=
  let need := 1024 * st.cords.length + 2048
  if need ≤ st.spGran * 16384 then some (st.spGran * 16384 - need) else none

/-- Removes a path's registration from its core's wait table, and zeroes its spill entry (R227, R228). -/
def State.unregister (s : State) (sid c : Nat) (b : Bool) : State :=
  match s.stand? sid with
  | none => s
  | some st =>
    let mine := (s.core st.die st.core).waits.filter fun w => w.sid = sid ∧ w.cord = c ∧ w.slotB = b
    let s := s.modCore st.die st.core fun k =>
      { k with waits := k.waits.filter fun w => !(w.sid = sid ∧ w.cord = c ∧ w.slotB = b) }
    if mine.any Waiter.spilled then
      match st.waitArea with
      | some o => s.modStand sid fun x => { x with sp := x.sp.zero (o + 16 * (2 * c + b.toNat)) 16 }
      | none => s
    else s

/-- Registers that a parked path's instruction will write: vector and scalar (R89). -/
def Wait.vregs : Wait → List Nat
  | .future _ d | .dequeue _ d | .reserve _ d => [d, d + 1]
  | .crew _ d => [d]
  | _ => []
def Wait.sregs : Wait → List Nat
  | .grove _ _ d => if d = 31 then [] else [d]
  | .saves _ _ d => if d = 31 then [] else [d.toNat]
  | _ => []

/-- Scope at which the completion of a wait is an acquire, where it is one (R217, R233, R236, R240, R251, R336). -/
def Wait.scope : Wait → Option Scope
  | .future _ _ | .dequeue _ _ => some .die
  | .crew _ _ | .grove _ _ _ | .barrier _ => some .grove
  | .phase _ _ => some .stand
  | .sleep _ | .reserve _ _ | .saves _ _ _ => none

/-- Marks of a wait that is over are cleared (R89). -/
def Cord.unmarkWait (c : Cord) (w : Option Wait) : Cord :=
  match w with
  | some w => (c.unmarkV w.vregs).unmarkS w.sregs
  | none => c

/-- Wakes a parked path: past its waiting instruction, after a change of its cord's registers; the completion acquires
what its wait says. -/
def State.wakePath (s : State) (sid c : Nat) (b : Bool) (f : Mask → Cord → Cord) : State :=
  let w := (s.path? sid c b).bind Path.wait
  let mask := ((s.path? sid c b).map Path.mask).getD 0
  let s := s.modCord sid c fun x =>
    match x.slot b with
    | none => x
    | some p => (f p.mask (x.unmarkWait w)).setSlot b (some p.wake)
  match w.bind Wait.scope with
  | some x => s.acquireAt x sid c mask
  | none => s

/-! ### Crews -/

/-- One step of a crew's reduction (R233). -/
def crewFold (op : Nat) (a b : Word) : Word :=
  match op with
  | 1 => a + b
  | 2 => if a.toInt ≤ b.toInt then a else b
  | 3 => if b.toInt ≤ a.toInt then a else b
  | 4 => if a.toNat ≤ b.toNat then a else b
  | 5 => if b.toNat ≤ a.toNat then a else b
  | 6 => a &&& b
  | 7 => a ||| b
  | 8 => a ^^^ b
  | _ => a

/-- ACC of the open phase (R229). -/
def Crew.acc (c : Crew) : Word :=
  match c.arrived with
  | [] => 0
  | x :: r => r.foldl (fun a y => crewFold c.op a y.value) x.value

def Crew.named (c : Crew) (tract : Nat) (key : BitVec 16) : Bool := decide (c.tract = tract ∧ c.key = key)

/-- Completes a crew's phase when every member has arrived: wakes each with MEMBERS or ACC (R233). -/
def State.crewComplete (s : State) (d g tract : Nat) (key : BitVec 16) : State :=
  match (s.grove d g).crews.find? fun c => c.named tract key with
  | none => s
  | some c =>
    if c.arrived ≠ [] ∧ c.arrived.length = c.members then
      let r := if c.op = 0 then BitVec.ofNat 32 c.members else c.acc
      let s := s.modGrove d g fun x =>
        { x with crews := x.crews.map fun y => if y.named tract key then { y with arrived := [] } else y }
      c.arrived.foldl (fun s a => s.wakePath a.sid a.cord a.slotB fun m x => x.writeV a.d m (fun _ => r) .general) s
    else s

/-- A member leaves a crew (R230). -/
def State.crewLeave (s : State) (d g tract : Nat) (key : BitVec 16) : State :=
  let s := s.modGrove d g fun x =>
    { x with crews := (x.crews.map fun y =>
        if y.named tract key then { y with members := y.members - 1 } else y).filter fun y => y.members ≠ 0 }
  s.crewComplete d g tract key

/-- Withdraws a path's arrival at a crew (R230). -/
def State.crewWithdraw (s : State) (d g tract : Nat) (key : BitVec 16) (sid c : Nat) : State :=
  s.modGrove d g fun x =>
    { x with crews := x.crews.map fun y =>
        if y.named tract key then { y with arrived := y.arrived.filter fun a => !(a.sid = sid ∧ a.cord = c) } else y }

/-! ### Grove words -/

/-- The process context of a stand, as its word set carries it (R249). -/
def Stand.owner (st : Stand) : Owner := ⟨st.ctx, st.fpid, st.sec⟩

def Grove.word (g : Grove) (o : Owner) (w : Nat) : GroveWord :=
  match g.sets.find? fun x => x.1 = o with
  | some (_, ws) => ws.getD w {}
  | none => {}

def State.modWord (s : State) (d g : Nat) (o : Owner) (w : Nat) (f : GroveWord → GroveWord) : State :=
  s.modGrove d g fun x =>
    { x with sets := x.sets.map fun y => if y.1 = o then (y.1, y.2.modify w f) else y }

/-- An EMPTY word reads as the most negative value (R248). -/
def GroveWord.read (w : GroveWord) : DWord := w.value.getD 0x8000000000000000

/-- Frees the word sets whose context has no resident stand left on the grove (R249). -/
def State.freeSets (s : State) (d g : Nat) : State :=
  s.modGrove d g fun x =>
    { x with sets := x.sets.filter fun y =>
        s.stands.any fun st => st.die = d ∧ st.core / 8 = g ∧ st.owner = y.1 }

/-! ### Flumes -/

def qidPkg (q : Word) : Nat := nbits q.toNat 31 20
def qidDie (q : Word) : Nat := nbits q.toNat 19 17
def qidPort (q : Word) : Nat := nbits q.toNat 16 13

def Port.flume? (p : Port) (q : Word) : Option Flume := p.flumes.find? fun f => f.qid = q

def State.flume? (s : State) (q : Word) : Option Flume :=
  if qidPkg q = s.pkgid.toNat then (s.port (qidDie q) (qidPort q)).flume? q else none

def State.modFlume (s : State) (q : Word) (f : Flume → Flume) : State :=
  if qidPkg q = s.pkgid.toNat then
    s.modPort (qidDie q) (qidPort q) fun p =>
      { p with flumes := p.flumes.map fun x => if x.qid = q then f x else x }
  else s

/-- Removes void heads of the window: HEAD rises and the void count counts them (R325). -/
def Flume.settle (f : Flume) : Flume :=
  let n := (f.slots.takeWhile fun x => x.1 = false ∧ x.2 = SlotState.void).length
  { f with slots := f.slots.drop n, head := (f.head + n) % 2 ^ 32, voids := f.voids + n }

/-- USED, SPILLED and FREE (R322, R327). -/
def Flume.used (f : Flume) : Nat := f.slots.length
def Flume.spilled (f : Flume) : Nat := (f.slots.filter Prod.fst).length
def Flume.free (f : Flume) : Nat := f.wslots + f.sslots - f.used - f.promised
def Flume.elemBytes (f : Flume) : Nat := 16 * 2 ^ f.elem

/-- The binding of a table entry, and of a handle of the model. -/
def Die.binding (x : Die) (e : Nat) : Option Binding := (x.bindings.find? fun b => b.1 = e).map Prod.snd
def Die.bound (x : Die) (bid : Nat) : Option Binding := (x.bindings.find? fun b => b.2.bid = bid).map Prod.snd

def State.modBinding (s : State) (d bid : Nat) (f : Binding → Binding) : State :=
  s.modDie d fun x => { x with bindings := x.bindings.map fun b => if b.2.bid = bid then (b.1, f b.2) else b }

/-- A put on its way to the home port names a sequence number (R347). -/
def State.putUnderWay (s : State) (bid : Nat) (q : Nat) : Bool :=
  s.works.any fun i => match i.work with
    | .put _ _ b _ p => decide (b = bid) && decide (p.seq = some q)
    | _ => false

/-- Voids the reserved slots of a binding that no put under way fills (R318, R330). -/
def State.voidSlots (s : State) (bid : Nat) (f : Flume) : Flume :=
  { f with slots := (f.slots.zip (List.range f.slots.length)).map fun (x : (Bool × SlotState) × Nat) =>
      if x.1.2 = SlotState.reserved bid ∧ s.putUnderWay bid ((f.head + x.2) % 2 ^ 32) = false then (x.1.1, .void)
      else x.1 }

/-- Ends a binding: its credit returns, its unfilled reserved slots become void, its credit request leaves the home port's
queue, its entry is free (R330, R429). A path that is parked on a reservation of it stays parked until its wait is withdrawn
(DESIGN CHOICE, log 84). -/
def State.unbind (s : State) (d e : Nat) : State :=
  match (s.die d).binding e with
  | none => s
  | some b =>
    let s := s.modFlume b.qid fun f => (s.voidSlots b.bid { f with promised := f.promised - b.credit }).settle
    let s := s.modPort (qidDie b.qid) (qidPort b.qid) fun p => { p with credits := p.credits.filter fun r => r.bid ≠ b.bid }
    s.modDie d fun x => { x with bindings := x.bindings.filter fun y => y.1 ≠ e }

/-! ### Work of a stand -/

/-- The instruction a piece of work belongs to. -/
def Work.dest? : Work → Option Dest
  | .copy t _ _ _ | .pin t _ _ _ | .pbar t _ _ | .deque t _ | .combineInit t _ _ | .combine t _ _ _ _ _ _ | .drain t _
  | .reserve t _ _ _ _ _ _ _ | .reserveWait t _ _ _ _ | .put t _ _ _ _ | .dequeueWait t _ _ _ | .reply t _ _ _
  | .stat t _ _ | .launchRec t _ _ => some t
  | .access a => some ⟨a.sid, a.cord, a.slotB, a.pc, a.threads, a.d⟩
  | .resolve o _ _ _ _ | .fold o _ _ _ => o.dest
  | .remoteError _ _ t _ _ _ _ => t
  | .wake .. | .creditReq .. | .creditGrant .. => none

/-- Work that stops when its stand's context ends (R378 step 2, step 3): copies, drains, combine writes, and the
stand's own waits and replies. Accesses, resolutions and messages already sent go on. -/
def Work.stops : Work → Bool
  | .copy .. | .pin .. | .pbar .. | .combineInit .. | .combine .. | .drain .. | .reserveWait .. | .dequeueWait .. | .reply ..
  | .put .. | .stat .. => true
  | _ => false

/-- Removes a waiting dequeue from its flume's wait list (R334). -/
def State.dropDequeue (s : State) (id : Nat) : State :=
  match s.work? id with
  | some { work := .dequeueWait _ q _ _, .. } =>
    (s.modFlume q fun f => { f with waits := f.waits.filter fun i => i ≠ id }).dropWork id
  | _ => s.dropWork id

/-- Drops the work of a stand that stops with its context. -/
def State.dropStandWork (s : State) (sid : Nat) : State :=
  let ids := (s.works.filter fun i => i.work.stops && (i.work.dest?.map Dest.sid) = some sid).map Item.id
  ids.foldl State.dropDequeue s

/-- Lowers the pin count of a canopy slot (R258). -/
def State.unpin (s : State) (d c slot : Nat) : State :=
  s.modCore d c fun k => { k with canopy := k.canopy.modify slot fun x => { x with pins := x.pins - 1 } }

/-- Withdraws a task's registrations on futures (R273). -/
def State.unregisterTask (s : State) (d : Nat) (t : Task) : State :=
  t.registered.foldl (fun s pa => s.setFuture (hAddr d pa) (futureWithdraw s.hbm (hAddr d pa))) s

/-- Every task of a core, on-chip, backed, picked or running. -/
def Core.allTasks (k : Core) : List Task :=
  k.q0 ++ k.q1 ++ k.backed.map Backed.task ++ (k.running.toList ++ k.picked.toList).map Running.task

/-- Takes a stand's tasks out of its core (R279, R378). -/
def Core.withoutTasks (k : Core) (sid : Nat) : Core :=
  { k with
      q0 := k.q0.filter fun t => t.sid ≠ sid, q1 := k.q1.filter fun t => t.sid ≠ sid,
      backed := k.backed.filter fun b => b.task.sid ≠ sid,
      running := k.running.filter fun r => r.task.sid ≠ sid,
      picked := k.picked.filter fun r => r.task.sid ≠ sid }

/-- A picked task's first row enters the array: its tile is the active one, and its pin is released but in list mode
(R259). -/
def State.startTask (s : State) (d c : Nat) (r : Running) : State :=
  let list := decide (r.task.mode = 2)
  let s := if list then s else s.unpin d c r.task.pin
  s.modCore d c fun k =>
    { k with active := some r.tile, picked := none, running := some { r with task := { r.task with pinned := list } } }

/-- The array after its task: the picked one enters (R259, R275). -/
def State.nextTask (s : State) (d c : Nat) : State :=
  let k := s.core d c
  let s := s.modCore d c fun k => { k with running := none }
  match k.picked with
  | some r => s.startTask d c r
  | none => s

/-- Drops the tile tasks of a stand with their pins and registrations, and its list operations; another stand's task that
was picked behind one enters the array (R378 step 2). -/
def State.dropTasks (s : State) (d c sid : Nat) : State :=
  let mine := (s.core d c).allTasks.filter fun t => t.sid = sid
  let s := mine.foldl (fun s t => (if t.pinned then s.unpin d c t.pin else s).unregisterTask d t) s
  let s := s.modCore d c fun k => { k.withoutTasks sid with insq := k.insq.filter fun e => e.sid ≠ sid }
  if (s.core d c).running.isNone && (s.core d c).picked.isSome then s.nextTask d c else s

/-! ### Shares of the holding buffer -/

/-- A resident stand of a tract on a core (R214). -/
def State.residentOf (s : State) (d c tract : Nat) : List Stand :=
  s.stands.filter fun st => st.die = d ∧ st.core = c ∧ st.tract = tract ∧ st.phase ≠ .placed

/-- Re-evaluates one share (R214): whether it stays, how it now stands, and whether FIN reports it; `away` where a stand
of its tract has just left its core by swap-out. A wait whose cycles are over is not opened any more. -/
def State.shareNow (s : State) (d tract : Nat) (away : Bool) : Share → Option Share × Bool
  | .opened c =>
    if s.residentOf d c tract ≠ [] then (some (.opened c), false)
    else if !away && (s.core d c).ended.contains tract then (none, true)
    else (some (.waiting c (s.clock + 2 ^ 20)), false)
  | .waiting c e =>
    if e < s.clock then (some (.waiting c e), false)
    else if s.residentOf d c tract ≠ [] then (some (.opened c), false)
    else if (s.core d c).ended.contains tract then (none, true)
    else (some (.waiting c e), false)

/-- Its image is being written. -/
def Phase.isSaving : Phase → Bool
  | .saving .. => true
  | _ => false

/-- The oldest-started resident stand of a tract on a core that still takes data in (R210, R214). -/
def State.receiver (s : State) (d c tract : Nat) : Option Stand :=
  ((s.residentOf d c tract).filter fun st => !st.phase.isSaving).foldl (fun b st =>
    match b with
    | some x => if x.started ≤ st.started then some x else some st
    | none => some st) none

/-- Where a transfer addressed to a core now stands (R214). -/
def State.crossNow (s : State) (d c tract : Nat) : Cross :=
  match s.receiver d c tract with
  | some st => .opened st.sid
  | none =>
    if s.residentOf d c tract = [] ∧ (s.core d c).ended.contains tract = true then .finished
    else .waiting (s.clock + 2 ^ 20)

/-- Re-evaluates a waiting transfer; a wait whose cycles are over is not opened any more. -/
def State.crossAgain (s : State) (d c tract : Nat) : Cross → Cross
  | .waiting e =>
    if e < s.clock then .waiting e
    else
      match s.crossNow d c tract with
      | .waiting _ => .waiting e
      | x => x
  | x => x

/-- Tract of a stand, resident or saved. -/
def State.tractOf (s : State) (sid : Nat) : Option Nat :=
  ((s.stand? sid).map Stand.tract).or
    (s.dies.findSome? fun x => (x.saved.find? fun v => v.sid = sid).map Saved.tract)

/-- Core that a share addresses. -/
def Share.core : Share → Nat
  | .opened c | .waiting c _ => c

/-- Re-evaluates the shares and transfers of a tract addressed to a core, when a stand of it starts, ends, leaves (by
swap-out where `away`) or returns there (R214). -/
def State.reshare (s : State) (d c tract : Nat) (away : Bool) : State :=
  let works := s.works.map fun (i : Item) =>
    match i.work with
    | .copy t d' c' (.cross src dst obj n rc sent x) =>
      if d' = d ∧ rc = c ∧ s.tractOf t.sid = some tract then
        { i with work := .copy t d' c' (.cross src dst obj n rc sent (s.crossAgain d rc tract x)) }
      else i
    | _ => i
  { s with works := works }.modGrove d (c / 8) fun x =>
    { x with hold := x.hold.map fun (h : Option Hold) => h.map fun (y : Hold) =>
        if y.tract = tract then
          let rs := y.shares.map fun (r : Share) => if r.core = c then s.shareNow d tract away r else (some r, false)
          { y with shares := rs.filterMap Prod.fst, fin := y.fin || rs.any Prod.snd }
        else y }

/-! ### Release of a stand -/

/-- The cached handles that some QINVs cover are translated anew from here on (R316). -/
def Core.flushQinvs (k : Core) (own : Nat × Nat × Option (BitVec 12) → Bool) : Core :=
  let mine := k.qinvs.filter own
  { k with
      qinvs := k.qinvs.filter fun x => !own x,
      handles := k.handles.filter fun h => !mine.any fun x => x.2.2.all fun y => y = h.handle }

/-- Damage of on-chip storage goes with the granules a stand releases, which are cleared (R18, R374). -/
def State.forgetStruck (s : State) (st : Stand) : State :=
  if s.dies.all fun y => y.damaged.isEmpty then s
  else s.modDie st.die fun k => { k with damaged := k.damaged.filter fun y => !struckOfStand y st.sid }

/-- Takes a stand off its core: granules to clearing, threshold entries, wait entries and word sets released; a stand
that ended is remembered for R214. -/
def State.releaseStand (s : State) (st : Stand) (ended : Bool) : State :=
  let s := { s with
    stands := s.stands.filter fun x => x.sid ≠ st.sid, seen := if ended then s.seen.filter fun e => e.sid ≠ st.sid else s.seen }
  let s := s.modCore st.die st.core fun k =>
    { k.flushQinvs (fun x => decide (x.1 = st.sid)) with
        clearing := k.clearing ++ [(st.rf + st.spGran + st.asGran, s.clock + 64)],
        thresh := k.thresh.filter fun t => t.sid ≠ st.sid,
        waits := k.waits.filter fun w => w.sid ≠ st.sid,
        ended := if ended then (st.tract :: k.ended.filter (· ≠ st.tract)).take 8 else k.ended }
  let s := s.forgetStruck st
  (s.freeSets st.die (st.core / 8)).reshare st.die st.core st.tract !ended

/-- Ends what a cord holds outside its core: bindings (R330) and crew memberships (R230). -/
def State.releaseCord (s : State) (st : Stand) (c : Cord) : State :=
  let s := c.allow.foldl (fun s a => match a with | some e => s.unbind st.die e | none => s) s
  c.crews.foldl (fun s k =>
    (s.crewWithdraw st.die (st.core / 8) st.tract k st.sid c.id).crewLeave st.die (st.core / 8) st.tract k) s

/-- A path that waits in CSAVE for a stand's save learns how it ended: with the last one it goes on, and writes the
count (R396). -/
def Cord.saveOver (c : Cord) (sid : Nat) (saved b : Bool) : Cord :=
  match c.slot b with
  | none => c
  | some p =>
    match p.wait with
    | some (.saves sids n d) =>
      if sids.contains sid then
        let left := sids.erase sid
        let n := n + saved.toNat
        if left = [] then ((c.unmarkWait p.wait).writeS d (BitVec.ofNat 64 n)).setSlot b (some p.wake)
        else c.setSlot b (some { p with wait := some (.saves left n d) })
      else c
    | _ => c

/-- The save of a stand has ended, written or not. -/
def State.saveOver (s : State) (sid : Nat) (saved : Bool) : State :=
  { s with stands := s.stands.map fun st =>
      { st with cords := st.cords.map fun c => (c.saveOver sid saved false).saveOver sid saved true } }

/-- Futures that a stand's parked paths are registered on, once for each (R240). -/
def Stand.futuresWaited (st : Stand) : List Nat :=
  st.cords.flatMap fun c => [c.slotA, c.slotB].filterMap fun p =>
    match p.bind Path.wait with
    | some (.future pa _) => some pa
    | _ => none

/-- Takes a stand of an ended context off its core; its waits on futures are withdrawn (R378 steps 1 to 4, R427). -/
def State.killStand (s : State) (st : Stand) : State :=
  let s := st.futuresWaited.foldl (fun s pa => s.setFuture (hAddr st.die pa) (futureWithdraw s.hbm (hAddr st.die pa))) s
  let s := s.dropStandWork st.sid
  let s := st.cords.foldl (fun s c => s.releaseCord st c) s
  let s := s.dropTasks st.die st.core st.sid
  let s := st.pins.foldl (fun s w => s.unpin st.die st.core w) s
  let s := s.modGrove st.die (st.core / 8) fun x =>
    { x with sets := x.sets.map fun y => (y.1, y.2.map fun w => { w with waits := w.waits.filter fun a => a.1 ≠ st.sid }) }
  (s.releaseStand st true).saveOver st.sid false

/-! ### Tracts -/

/-- Resolves the futures of the tracts whose stands have all ended, and forgets them (R31). -/
def State.finishTracts (s : State) : State :=
  let done := s.tracts.filter fun t => t.stands ≤ t.ended
  let s := { s with tracts := s.tracts.filter fun t => !decide (t.stands ≤ t.ended) }
  done.foldl (fun s t =>
    if t.fut = 0 then s
    else s.addWork (.resolve { die := t.die, ctx := t.ctx, dest := none, after := t.sids } t.fut none
      ((t.poison.map (BitVec.zeroExtend 64)).getD 0) t.poison.isSome)) s

/-- Counts ended stands into their tracts. -/
def State.countEnded (s : State) (tracts : List Nat) : State :=
  { s with tracts := s.tracts.map fun t => { t with ended := t.ended + tracts.count t.id } }

/-! ### The end of a context -/

/-- Clears the canopy slots a context owns; a weight register loaded from one is loaded again (R258). -/
def Core.disown (k : Core) (ctx : Nat) : Core :=
  let own (w : Nat) : Bool := decide ((k.canopy.getD w {}).owner = some ctx)
  { k with
      active := k.active.filter fun t => !own t.slot,
      canopy := k.canopy.map fun x =>
        if x.owner = some ctx then { x with bytes := [], side := [], owner := none } else x }

/-- A struck byte of a canopy slot that a context owns. -/
def Die.ownsStruck (x : Die) (ctx : Nat) : Struck → Bool
  | .canopy c w _ => decide ((((x.cores.getD c Core.reset).canopy).getD w {}).owner = some ctx)
  | _ => false

/-- Frees the holding-buffer slots a stand parked. -/
def State.dropHolds (s : State) (d : Nat) (copies : List Nat) : State :=
  s.modDie d fun x => { x with groves := x.groves.map fun g =>
    { g with hold := g.hold.map fun h => h.filter fun y => !copies.contains y.copy } }

/-- Elements that a context filled no longer name it (R339). -/
def State.disownSlots (s : State) (d ctx : Nat) : State :=
  let g (x : Bool × SlotState) : Bool × SlotState := match x.2 with
    | .filled b t d' c h pc => if d' = d ∧ c = ctx then (x.1, .filled b t d' 256 h pc) else x
    | _ => x
  { s with dies := s.dies.map fun x => { x with ports := x.ports.map fun p =>
      { p with flumes := p.flumes.map fun f => { f with slots := f.slots.map g } } } }

/-- Errors on their way to a context that has ended on a die, of an instruction that no stand waits for, are raised nowhere
(R339). -/
def State.dropReports (s : State) (d ctx : Nat) : State :=
  { s with works := s.works.filter fun i => match i.work with
    | .remoteError d' c none _ _ _ _ => !(decide (d' = d) && decide (c = ctx))
    | _ => true }

/-- A context that has no stand on a die any more, resident, saved or still to be placed, has ended there: elements and
errors no longer name it (R339). -/
def State.leaveContext (s : State) (d ctx : Nat) : State :=
  if s.stands.any (fun st => decide (st.die = d) && decide (st.ctx = ctx)) || (s.die d).saved.any (fun v => decide (v.ctx = ctx)) ||
      s.tracts.any (fun t => decide (t.die = d) && decide (t.ctx = ctx) && decide (t.next < t.stands)) then s
  else (s.disownSlots d ctx).dropReports d ctx

/-- A context ends on a die (R378), with the one event record of its first fault. -/
def State.endContext (s : State) (d ctx : Nat) (code : BitVec 8) (e : Event) : State :=
  let s := s.unfocus
  let gone := s.stands.filter fun st => st.die = d ∧ st.ctx = ctx
  let away := (s.die d).saved.filter fun v => v.ctx = ctx
  let parked := (s.works.filter fun i => match i.work with
    | .copy t d' _ (.parked _) => decide (d' = d) && ((gone.any fun st => st.sid = t.sid) || away.any fun v => v.sid = t.sid)
    | _ => false).map Item.id
  let s := s.dropHolds d parked
  let s := gone.foldl State.killStand s
  let s := away.foldl (fun s v => ((v.pins ++ v.taskPins.map Prod.fst).foldl (fun s w => s.unpin d v.core w) s).dropStandWork v.sid) s
  let s := away.foldl (fun s v =>
    let s := ((s.die d).bindings.filter fun b => b.2.sid = v.sid).foldl (fun s b => s.unbind d b.1) s
    v.crews.foldl (fun s k => s.crewLeave d (v.core / 8) v.tract k) s) s
  let s := ((s.disownSlots d ctx).dropReports d ctx).modDie d fun x =>
    { x with
        saved := x.saved.filter (fun v => v.ctx ≠ ctx), cores := x.cores.map fun k => k.disown ctx
        damaged := x.damaged.filter fun y => !x.ownsStruck ctx y }
  let ids := gone.map Stand.tract ++ away.map Saved.tract
  let s := s.countEnded ids
  let s := { s with tracts := s.tracts.map fun (t : Tract) =>
    let here := decide (t.die = d) && decide (t.next < t.stands)
    if t.ctx = ctx ∧ (ids.contains t.id ∨ here = true) then
      { t with poison := t.poison.or (some code), stands := if here then t.next else t.stands,
               reenter := t.reenter.filter fun r => r.1 ≠ d }
    else t }
  s.finishTracts.post d e

/-! ### Taking an exception -/

/-- TRAPVAL of a fault: what its entry states, else a free value (log 9). -/
def State.trapVal (s : State) (t : Trap) : DWord := t.val.getD (Config.freeTrapVal s.fresh)

/-- A fault writes TRAPCAUSE, TRAPPC and TRAPVAL (R375). -/
def Cord.setTrap (c : Cord) (t : Trap) (val : DWord) (imm : BitVec 16) (pc : Pc) : Cord :=
  { c with trapImm := imm, trapCode := t.code.num, trapPc := pc, trapVal := val }

/-- The record of a fault of a cord (R387). -/
def faultEvent (kind : BitVec 8) (st : Stand) (c : Nat) (b : Bool) (t : Trap) (val : DWord) (pc : Pc) : Event :=
  { kind := kind, code := t.code.num, reason := t.reason, ctx := BitVec.ofNat 8 st.ctx, fpid := st.fpid,
    core := BitVec.ofNat 8 (st.die * 32 + st.core), standId := BitVec.ofNat 32 st.standId,
    cord := BitVec.ofNat 8 c, slot := BitVec.ofNat 8 b.toNat, pc := pc.zeroExtend 64, val := val, info := t.info }

/-- A non-recoverable fault found in flight, raised at the instruction a piece of work belongs to (R207, R339). A
saved stand's context ends as well (R380); where the stand has ended, nothing is raised. -/
def State.trapInFlight (s : State) (t : Dest) (r : Trap) : State :=
  let s := s.unfocus
  match s.stand? t.sid with
  | none =>
    match (s.dies.zip (List.range s.dies.length)).findSome? fun x =>
        (x.1.saved.find? fun v => v.sid = t.sid).map fun v => (x.2, v) with
    | none => s
    | some (d, v) =>
      s.draw.endContext d v.ctx r.code.num
        { kind := 1, code := r.code.num, reason := r.reason, ctx := BitVec.ofNat 8 v.ctx, fpid := v.fpid,
          core := BitVec.ofNat 8 (d * 32 + v.core), standId := BitVec.ofNat 32 v.standId, cord := BitVec.ofNat 8 t.cord,
          slot := BitVec.ofNat 8 t.slotB.toNat, pc := t.pc.zeroExtend 64, val := s.trapVal r, info := r.info }
  | some st =>
    let v := s.trapVal r
    let s := s.draw.modCord t.sid t.cord fun c => c.setTrap r v 0 t.pc
    s.endContext st.die st.ctx r.code.num (faultEvent 1 st t.cord t.slotB r v t.pc)

/-- Physical address of a virtual one of a stand's context, as its tables and TLBs stand. -/
def State.peek (s : State) (st : Stand) (va : Nat) : Option Nat :=
  match (s.tlbHit st.die st.core st.ctx va).or (s.tlbShared st.die st.ctx va), s.walk st.die st.ctx va with
  | some l, _ => some (l.pa + va % l.size)
  | none, .ok l => some (l.pa + va % l.size)
  | none, .error _ => none

/-- The entry of a spilled wait is as the core wrote it, but for its address (R228). -/
def Stand.spillOk (st : Stand) (w : Waiter) : Bool :=
  match st.waitArea with
  | some o =>
    let i := o + 16 * (2 * w.cord + w.slotB.toNat)
    decide (nbits (st.sp.load i 8) 62 57 = 0) && decide (st.sp.load (i + 8) 4 = w.slotB.toNat * 256 + w.cord) &&
      decide (st.sp.load (i + 12) 4 = 0)
  | none => false

/-- The entry of a spilled wait is damaged (R374). -/
def State.spillStruck (s : State) (st : Stand) (w : Waiter) : Bool :=
  st.waitArea.any fun o => s.struck st.die (.scratchpad st.sid (o + 16 * (2 * w.cord + w.slotB.toNat))) 16

/-- Scans the spilled waits of a core: a corrupt entry raises CONTROL_CORRUPT (R228), and a damaged one MEM_ERROR (R374). -/
def State.scanWaits (s : State) (d c : Nat) : State :=
  let bad := (s.core d c).waits.filter fun w =>
    w.spilled && (s.stand? w.sid).any fun st => !st.spillOk w || s.spillStruck st w
  bad.foldl (fun s w =>
    match s.path? w.sid w.cord w.slotB with
    | some p =>
      let struck := (s.stand? w.sid).any fun st => s.spillStruck st w
      s.trapInFlight ⟨w.sid, w.cord, w.slotB, p.restart, 0, 0⟩ { code := if struck then .memError else .controlCorrupt }
    | none => s) s

/-- Withdraws the wait of a parked path (R153): a wait satisfied meanwhile completes, any other leaves the path at the
first word of the waiting instruction's group. Only the withdrawal of a wait in the wait table scans the spill entries
(R228; DESIGN CHOICE, log 83). -/
def State.withdraw (s : State) (sid c : Nat) (b : Bool) : State :=
  match s.stand? sid, s.path? sid c b with
  | some st, some p =>
    let back (s : State) : State := s.modCord sid c fun x =>
      (x.unmarkWait p.wait).setSlot b (some { p with pc := p.restart, pfx := none, wait := none, chain := {} })
    match p.wait with
    | none => s
    | some (.sleep t) =>
      if t.toNat ≤ (s.clk st.die st.core).toNat then s.wakePath sid c b fun _ x => x else back s
    | some (.future pa d) =>
      let h := hAddr st.die pa
      let s := s.scanWaits st.die st.core
      if (s.stand? sid).isNone then s else
      let s := s.unregister sid c b
      if futureDone s.hbm h then
        let v := s.hbm.load (h + 8) 8
        s.wakePath sid c b fun m x => x.writePair d m (BitVec.ofNat 32 v) (BitVec.ofNat 32 (v / 2 ^ 32))
      else back (s.setFuture h (futureWithdraw s.hbm h))
    | some (.phase o q) =>
      let s := s.scanWaits st.die st.core
      if (s.stand? sid).isNone then s else
      let s := s.unregister sid c b
      if decide (nbits (st.sp.load o 8) 32 32 = 1) != q then s.wakePath sid c b fun _ x => x else back s
    | some (.crew key _) => back (s.crewWithdraw st.die (st.core / 8) st.tract key sid c)
    | some (.barrier o) =>
      if nbits (st.sp.load (o + 12) 4) 1 1 = 1 then s.wakePath sid c b fun _ x => x else back s
    | some (.grove w old d) =>
      let v := ((s.grove st.die (st.core / 8)).word st.owner w).read
      let s := s.modWord st.die (st.core / 8) st.owner w fun g =>
        { g with waits := g.waits.filter fun a => a ≠ (sid, c, b) }
      if v ≠ old then s.wakePath sid c b fun _ x => x.writeS (BitVec.ofNat 5 d) v else back s
    | some (.dequeue id _) => back (s.dropDequeue id)
    | some (.reserve id _) => back (s.dropWork id)
    | some (.saves _ _ _) => back s
  | _, _ => s

/-- A stand stops issuing and begins to swap out (R379 steps 1 and 2). -/
def State.stopStand (s : State) (sid : Nat) (cause : BitVec 8) (requeue : Bool) (c : Nat) (b : Bool) : State :=
  match s.stand? sid with
  | none => s
  | some st =>
    match st.phase with
    | .running =>
      let s := s.modStand sid fun x => { x with phase := .stopping cause requeue c b }
      st.cords.foldl (fun s x => (s.withdraw sid x.id false).withdraw sid x.id true) s
    | .stopping 0 _ _ _ =>
      if cause = 0 then s else s.modStand sid fun x => { x with phase := .stopping cause false c b }
    | _ => s

/-- Undoes the register writes of the chain a faulting reader stands in (R50); FPSTAT, which both paths share, keeps its
flags (R119, R120), and the LFSR its steps (R116; DESIGN CHOICE, log 42). -/
def Focus.undoChain (f : Focus) : Focus :=
  { f with cord := { f.cord with
      v := f.path.chain.saved.foldl (fun v x => v.set x.1 x.2) f.cord.v, chainStart := f.path.chain.start } }

/-- Takes an exception at the focused path: the trap registers are written, the path stands at the restart address,
and the stand stops (R379) or its context ends on the die (R378). -/
def State.takeTrap (s : State) (f : Focus) (t : Trap) (imm : BitVec 16) (pc : Pc) : State :=
  let v := s.trapVal t
  let f := { f with cord := f.cord.setTrap t v imm pc,
                    path := { f.path with pc := pc, pfx := none, wait := none, chain := {} } }
  let s := s.draw.seat f.whole
  if t.code.recoverable then s.stopStand f.stand.sid t.code.num false f.cord.id f.slotB
  else s.endContext f.stand.die f.stand.ctx t.code.num (faultEvent 1 f.stand f.cord.id f.slotB t v pc)

/-- FPID and world of a stand, resident or saved, as it was placed (R371). -/
def State.processOf (s : State) (sid : Nat) : Option (BitVec 16 × Bool) :=
  ((s.stand? sid).map fun st => (st.fpid, st.sec)).or
    (s.dies.findSome? fun x => (x.saved.find? fun v => v.sid = sid).map fun v => (v.fpid, v.sec))

/-- FPID and world of an access that the device makes: those of the stand it serves, else those of its context's entry. -/
def State.originProcess (s : State) (o : Origin) : BitVec 16 × Bool :=
  (((o.dest.map Dest.sid).or o.sid).bind s.processOf).getD
    (((s.die o.die).ctx o.ctx).fpid, ((s.die o.die).ctx o.ctx).sec)

/-- Die, core and STANDID of a stand, resident or saved. -/
def State.placeOf (s : State) (sid : Nat) : Option (Nat × Nat × Nat) :=
  ((s.stand? sid).map fun st => (st.die, st.core, st.standId)).or
    ((s.dies.zip (List.range s.dies.length)).findSome? fun x =>
      (x.1.saved.find? fun v => v.sid = sid).map fun v => (x.2, v.core, v.standId))

/-- CORE byte and names of a stand's cord and instruction, as a record gives them (R387). -/
def State.named (s : State) (t : Dest) : BitVec 8 × Named :=
  match s.placeOf t.sid with
  | some x => (BitVec.ofNat 8 (x.1 * 32 + x.2.1),
      ⟨BitVec.ofNat 32 x.2.2, BitVec.ofNat 8 t.cord, BitVec.ofNat 8 t.slotB.toNat, t.pc.zeroExtend 64⟩)
  | none => (0xFF, {})

/-- The same of an access of the device: its instruction, or the stand that it serves, or no core. -/
def State.namedBy (s : State) (o : Origin) : BitVec 8 × Named :=
  match o.dest, o.sid.bind s.placeOf with
  | some t, _ => s.named t
  | none, some x => (BitVec.ofNat 8 (x.1 * 32 + x.2.1), { standId := BitVec.ofNat 32 x.2.2 })
  | none, none => (0xFF, {})

/-- A fault of an access the device makes for a context with no instruction waiting on it (R377). -/
def State.trapDevice (s : State) (o : Origin) (r : Trap) : State :=
  match o.dest with
  | some t => s.trapInFlight t r
  | none =>
    let s := s.unfocus
    let n := s.namedBy o
    s.endContext o.die o.ctx r.code.num
      { kind := 1, code := r.code.num, ctx := BitVec.ofNat 8 o.ctx, fpid := (s.originProcess o).1, core := n.1,
        standId := n.2.standId, val := r.val.getD 0 }

/-- The kind 0x3 record of a page fault of the device, with its resume token (R377, R387). -/
def State.pageEvent (s : State) (o : Origin) (va : Nat) : State :=
  let n := s.unfocus.namedBy o
  { s with uid := s.uid + 1 }.post o.die
    { kind := 3, code := TrapCode.pageFault.num, ctx := BitVec.ofNat 8 o.ctx, fpid := (s.originProcess o).1,
      core := n.1, standId := n.2.standId, cord := n.2.cord, slot := n.2.slot, pc := n.2.pc,
      val := BitVec.ofNat 64 va, info := BitVec.ofNat 64 s.uid }

/-- An engine's page fault: its work waits for a CRST with a resume token (R208, R377). -/
def State.holdWork (s : State) (o : Origin) (id va : Nat) : State :=
  { s with works := s.works.map fun (i : Item) => if i.id = id then { i with held := some s.uid } else i }.pageEvent o va

end Sys2Proof.Machine
end

