-- ==== Sys2Proof/Machine/Operands.lean ====
section
/-! DEFINITION. Operand forms: which fields of an instruction name what, the decoder's checks on them, sources through
the permutation, the latches and a chain, the active lanes, immediates, and the frame every instruction issues in. -/

namespace Sys2Proof.Machine

/-- How an instruction stands to the bypass latches (R47, R48). -/
inductive AluKind | none | compare | alu
  deriving DecidableEq, Repr

/-- What a HIMM before an instruction does (R59): a shift count's upper bits are all zero (R94). -/
inductive HimmUse | none | imm | shift | disp
  deriving DecidableEq, Repr

/-- The register fields of an instruction and the rules of its class. -/
structure Opnds where
  /-- Vector registers below the budget (R42). -/
  v : List VCode := []
  /-- ALU sources, which may be latches (R42, R48). -/
  a : List VCode := []
  /-- The v field of an address, where 63 means no offset (R45). -/
  off : Option VCode := none
  /-- Vector registers that it reads beside its ALU sources and its offset (R374). -/
  rd : List VCode := []
  /-- Groups of consecutive registers, aligned to their length (R46). -/
  groups : List (VCode × Nat) := []
  /-- Scalar codes, 31 being sz (R43). -/
  s : List SCode := []
  /-- First codes of scalar pairs and triples, 0 to 21 (R224). -/
  ss : List (SCode × Nat) := []
  /-- A scalar code that may not be sz (R220). -/
  sNoZ : List SCode := []
  /-- Predicate sources and destinations (R44). -/
  p : List Nat := []
  pd : List Nat := []
  /-- Allowance registers (R44). -/
  al : List VCode := []
  kind : AluKind := .none
  himm : HimmUse := .none
  hpred : Bool := false
  /-- Uniform-pipe instruction (R91). -/
  uniform : Bool := false
  /-- Raises PRIVILEGE at user level (R394). -/
  priv : Bool := false
  /-- No prefix hint may stand before it (R57). -/
  bare : Bool := false
  /-- A hint: it neither ends a chain's reader count nor consumes a prefix group. -/
  hint : Bool := false
  /-- Enters the skidder's queue (R204). -/
  skidder : Bool := false

def dstRegs : Dst → List VCode
  | .reg d => [d]
  | .nw => []

def v2Opnds (o : V2) : Opnds := { v := dstRegs o.dst, a := [o.a, o.b], kind := .alu, hpred := true }
def v1Opnds (o : V1) : Opnds := { v := dstRegs o.dst, a := [o.a], kind := .alu, hpred := true }
def f3Opnds (o : F3) : Opnds := { v := dstRegs o.dst, a := [o.a, o.b, o.c], kind := .alu, hpred := true }
def vCmpOpnds (o : VCmp) : Opnds := { pd := [o.p.toNat], a := [o.a, o.b], kind := .compare, hpred := true }
def immOpnds (d : VCode) : Opnds := { v := [d], kind := .alu, himm := .imm, hpred := true }
def s3Opnds (o : S3) : Opnds := { s := [o.d, o.a, o.b], uniform := true }
def simmOpnds (d : SCode) : Opnds := { s := [d], uniform := true, himm := .imm }

/-- Consecutive registers from a code on. -/
def regsFrom (d : VCode) (n : Nat) : List VCode := (List.range n).map fun k => d + BitVec.ofNat 6 k

/-- Registers a size of the M format names (R46, R196). -/
def sizeRegs : MSize → Nat
  | .w64 => 2
  | .w128 => 4
  | _ => 1

def mOpsOpnds (o : MOps) : Opnds :=
  { groups := [(o.d, sizeRegs o.size)], off := some o.v, s := [o.s], himm := .disp, hpred := true }

def aOpsOpnds (o : AOps) : Opnds :=
  if o.d = 60 ∧ o.op ≠ .cas then { groups := [(o.v, 2)], rd := regsFrom o.v 2, s := [o.s], himm := .disp, hpred := true }
  else
    let n := if o.op = .cas then 2 else 1
    { groups := [(o.d, n)], rd := regsFrom o.d n, off := some o.v, s := [o.s], himm := .disp, hpred := true }

/-- An X-format instruction with a status pair and a scalar pair. -/
def pairOpnds (o : XOps) : Opnds := { groups := [(o.d, 2)], ss := [(o.s, 2)] }

/-- Operand fields of each instruction word (the field tables of every entry). -/
def opndsOf : Instr → Opnds
  | .illegalWord _ => { himm := .disp, hpred := true }
  | .brc p _ _ => { p := [p.toNat] }
  | .jmpr v | .callr v => { v := [v], rd := [v] }
  | .exit | .yield => { bare := true }
  | .pand o | .por o | .pxor o | .pandn o => { pd := [o.d.toNat], p := [o.a.toNat, o.b.toNat] }
  | .pnot d a | .pmov d a => { pd := [d.toNat], p := [a.toNat] }
  | .voteAll d p | .voteAny d p => { pd := [d.toNat], p := [p.toNat], hpred := true }
  | .voteBal d p => { v := [d], p := [p.toNat], hpred := true }
  | .trap _ | .eret => { uniform := true }
  | .rdspr d _ | .wrspr d _ => { s := [d], uniform := true }
  | .tlbinv a b => { s := [a, b], uniform := true, priv := true }
  | .csave d a => { s := [d, a], uniform := true, priv := true }
  | .crst o | .world o => { s := [o.d, o.a, o.b], uniform := true, priv := true }
  | .rdseed s | .wrseed s => { s := [s], uniform := true }
  | .rdtag v s => { v := [v], s := [s], uniform := true }
  | .hprm .. | .hyld | .hstl _ => { bare := true, hint := true }
  | .himm _ | .hcache .. => { hint := true }
  | .hpred _ p => { hint := true, p := [p.toNat] }
  | .sadd o | .ssub o | .smul o | .smulh o | .smulhu o | .sand o | .sor o | .sxor o | .sshl o | .sshr o | .ssra o
  | .smin o | .smax o | .sminu o | .sslt o | .ssltu o => s3Opnds o
  | .saddi d _ | .smuli d _ | .sandi d _ | .sori d _ | .sxori d _ | .sslti d _ | .ssltui d _ => simmOpnds d
  | .sshli d _ | .sshri d _ | .ssrai d _ => { simmOpnds d with himm := .shift }
  | .sldiH d _ _ | .sldi d _ => { s := [d], uniform := true }
  | .s2v v s => { v := [v], s := [s], uniform := true }
  | .v2s v s _ => { v := [v], rd := [v], s := [s], uniform := true }
  | .sld d a _ _ | .sst d a _ _ => { s := [d, a], uniform := true, himm := .disp }
  | .iadd o _ | .isub o _ | .imul o _ | .imulh o _ | .imin o _ | .imax o _ => v2Opnds o
  | .and o | .or o | .xor o | .affine o => v2Opnds o
  | .shl o _ | .shr o _ | .sra o _ | .rot o _ => v2Opnds o
  | .shfl o _ => v2Opnds o
  | .fadd o _ | .fsub o _ | .fmul o _ | .fmin o _ | .fmax o _ => v2Opnds o
  | .fscale o _ => v2Opnds o
  | .fpack o _ => v2Opnds o
  | .imad o | .ffma o | .dot2 o => f3Opnds o
  | .iabs o _ | .ineg o _ => v1Opnds o
  | .not o | .popc o | .clz o | .ctz o | .brev o | .mov o => v1Opnds o
  | .fabs o _ | .fneg o _ => v1Opnds o
  | .fsqrt o | .frsq o | .frcp o | .fexp2 o | .flog2 o | .fsin o | .fcos o | .ftanh o | .ffloor o | .fceil o
  | .ftrunc o | .frint o => v1Opnds o
  | .fcvt o _ _ _ _ => v1Opnds o
  | .funpk o _ => v1Opnds o
  | .iset _ o _ => vCmpOpnds o
  | .fset _ o _ => vCmpOpnds o
  | .sel dst a b _ p _ => { v := dstRegs dst, a := [a, b], p := [p.toNat], kind := .alu, hpred := true }
  | .movi d _ _ => immOpnds d
  | .iaddi d _ _ | .imuli d _ _ => immOpnds d
  | .andi d _ | .ori d _ | .xori d _ => immOpnds d
  | .faddi d _ _ | .fmuli d _ _ => immOpnds d
  | .laneid dst => { v := dstRegs dst, kind := .alu, hpred := true }
  | .ld o | .lds o => mOpsOpnds o
  | .st o | .sts o => { mOpsOpnds o with rd := regsFrom o.d (sizeRegs o.size) }
  | .atom o | .atoms o => aOpsOpnds o
  | .pref _ s v => { off := some v, s := [s], himm := .disp, hpred := true }
  | .cpy d s v _ _ => { groups := [(d, 2), (v, 2)], rd := regsFrom v 2, s := [s], himm := .disp, hpred := true, skidder := true }
  | .cpyt o _ => { groups := [(o.d, 2)], s := [o.s], himm := .disp, skidder := true }
  | .cpyx o | .cpym o => { pairOpnds o with skidder := true }
  | .mcdrain o => { groups := [(o.d, 2)], sNoZ := [o.s], skidder := true }
  | .cpyw o _ => { pairOpnds o with skidder := true }
  | .bari o => { v := [o.d], rd := [o.d], s := [o.s], himm := .disp }
  | .barw s => { s := [s], himm := .disp }
  | .cjoin o => { v := [o.d], s := [o.s], uniform := true }
  | .cleave s => { s := [s], uniform := true }
  | .cbar o => { v := [o.d], s := [o.s], uniform := true }
  | .pbar o | .pwait o => { v := [o.d], rd := [o.d], s := [o.s], himm := .disp }
  | .fres o _ => { groups := [(o.d, 2)], rd := regsFrom o.d 2, s := [o.s], himm := .disp }
  | .fwait o | .ftest o => { groups := [(o.d, 2)], s := [o.s], himm := .disp }
  | .spawn o => { v := [o.d], ss := [(o.s, 2)] }
  | .take o => { groups := [(o.d, 8)], s := [o.s] }
  | .steal o => { groups := [(o.d, 8)], ss := [(o.s, 2)] }
  | .done o => { v := [o.d], ss := [(o.s, 2)] }
  | .gmax s _ | .gmin s _ | .grd s _ | .gwait s _ => { s := [s], uniform := true }
  | .sleep s => { s := [s] }
  | .rdclk s | .rdts s => { s := [s], uniform := true }
  | .mtask o => { groups := [(o.d, 2)], s := [o.s], himm := .disp }
  | .mdrain o _ _ _ => { groups := [(o.d, 2)], ss := [(o.s, 3)] }
  | .wpin o => { v := [o.d], s := [o.s] }
  | .wevict o _ => { groups := [(o.d, 2)], s := [o.s], skidder := true }
  | .marrive o => { v := [o.d], rd := [o.d], s := [o.s], himm := .disp }
  | .mqcfg s => { ss := [(s, 2)] }
  | .mzero s => { s := [s] }
  | .mstatRead s | .mstatClr s => { s := [s], uniform := true }
  | .ldecl o _ _ => { v := [o.d], ss := [(o.s, 2)] }
  | .lins o v _ => { groups := [(o.d, 2)], off := some v, s := [o.s] }
  | .lmerge o | .lread o => pairOpnds o
  | .lthr p s v => { pd := [p.toNat], off := some v, s := [s] }
  | .lclr s => { ss := [(s, 2)] }
  | .qbind a s => { al := [a], s := [s] }
  | .qrsv o => { groups := [(o.d, 2)], s := [o.s] }
  | .qput o v => { groups := [(o.d, 2)], ss := [(o.s, 2)], off := some v }
  | .qenq o | .qdeq o | .qtry o => pairOpnds o
  | .qalw a s => { al := [a], s := [s], uniform := true }
  | .qinv s => { s := [s] }
  | .qstat o => { groups := [(o.d, 2)], s := [o.s] }
  | .launch o => pairOpnds o
  | .cmbi o | .cmbw o => { pairOpnds o with skidder := true }
  | _ => {}

/-! ### The decoder's checks (R39) -/

/-- A code below the budget (R42). -/
def VCode.inBudget (c : VCode) (budget : Nat) : Bool := decide (c.toNat < budget)

/-- Latch sources of an instruction (R48). -/
def Opnds.latches (o : Opnds) : List Nat := (o.a.filter fun c => decide (60 ≤ c.toNat)).map fun c => c.toNat - 60

def Opnds.isReader (o : Opnds) : Bool := !o.latches.isEmpty

/-- Register codes within their limits (R42 to R46, R48's places). -/
def Opnds.codesOk (o : Opnds) (budget readers : Nat) : Bool :=
  o.v.all (fun c => VCode.inBudget c budget) &&
  o.a.all (fun c => decide (60 ≤ c.toNat) || VCode.inBudget c budget) &&
  o.latches.all (fun j => decide (j < readers + 1)) &&
  o.off.all (fun c => decide (c.toNat = 63) || VCode.inBudget c budget) &&
  o.groups.all (fun g => decide (g.1.toNat % g.2 = 0) && decide (g.1.toNat + g.2 ≤ budget)) &&
  o.s.all (fun c => decide (c.toNat < 24) || decide (c.toNat = 31)) &&
  o.sNoZ.all (fun c => decide (c.toNat < 24)) &&
  o.ss.all (fun c => decide (c.1.toNat < 22)) &&
  o.p.all (fun n => decide (n < 8)) &&
  o.pd.all (fun n => decide (0 < n) && decide (n < 8)) &&
  o.al.all (fun c => decide (c.toNat < 8))

/-- A reader's chain is sound (R48). -/
def Opnds.chainOk (o : Opnds) (c : Chain) : Bool :=
  !o.isReader || (decide (c.readers < 4) && decide (c.prev = .alu) && !c.broken)

/-- The prefix hints before an instruction suit it (R57, R59, R60). -/
def Opnds.prefixOk (o : Opnds) (p : Option Prefix) : Bool :=
  match p with
  | none => true
  | some x =>
    !o.bare && (o.hpred || x.hpred.isNone) &&
    match o.himm, x.himm with
    | _, none => true
    | .none, some _ => false
    | .imm, some y => decide (y.toNat < 65536)
    | .shift, some y => decide (y = 0)
    | .disp, some _ => true

/-- A vector register that an instruction reads holds an uncorrectable error (R374). -/
def Opnds.damaged (o : Opnds) (f : Focus) : Bool :=
  ((o.a ++ o.off.toList ++ o.rd).filter fun c => decide (c.toNat < 60)).any fun c => decide ((f.cord.vreg c.toNat).bad ≠ 0)

/-- The decoder's checks after the encoding's, in order (R39), then R92, then privilege (R374), and then damaged registers.
R374's order names neither DIVERGED_SCALAR, which comes first, nor these (DESIGN CHOICE, log 71, log 44). -/
def Opnds.check (o : Opnds) (f : Focus) : Option TrapCode :=
  if !o.codesOk f.cord.budget f.path.chain.readers then some .illegalReg
  else if !o.chainOk f.path.chain then some .latchChain
  else if !o.hint && !o.prefixOk f.path.pfx then some .illegalInstr
  else if o.hint && o.bare && f.path.pfx.isSome then some .illegalInstr
  else if o.uniform && !f.cord.converged then some .divergedScalar
  else if o.priv && !f.stand.sys then some .privilege
  else if o.damaged f then some .memError
  else none

/-- Vector, scalar and predicate registers an instruction reads or writes (R89). -/
def Opnds.vregs (o : Opnds) : List Nat :=
  ((o.v ++ o.a ++ o.off.toList).filter fun c => decide (c.toNat < 60)).map BitVec.toNat ++
    (o.groups.map fun g => (List.range g.2).map fun k => g.1.toNat + k).flatten

def Opnds.sregs (o : Opnds) : List Nat :=
  (o.s ++ o.sNoZ).map BitVec.toNat ++ (o.ss.map fun g => (List.range g.2).map fun k => g.1.toNat + k).flatten

/-- The scoreboard holds the instruction back (R89); an instruction of the uniform pipe but a memory access also waits for
its cord's earlier scalar loads, since the pipe completes in issue order (R91). -/
def Opnds.marked (o : Opnds) (f : Focus) : Bool :=
  (o.uniform && decide (o.himm ≠ .disp) && !f.cord.smarks.isEmpty) ||
  o.vregs.any (fun n => f.cord.vmarks.contains n) || o.sregs.any (fun n => f.cord.smarks.contains n) ||
  (o.p ++ o.pd ++ (f.path.pfx.bind Prefix.hpred).toList.map fun x => x.2.toNat).any fun n => f.cord.pmarks.contains n

/-! ### The frame of an instruction -/

/-- What an instruction's effect comes to: the state after it; or a fault with the state that the fault finds; or it
stays where it is, because it waits for room or for accesses before it. -/
inductive Did
  | done (s : State)
  | held
  | trap (s : State) (t : Trap)

/-- Restart address of a fault at an instruction (R376). -/
def Focus.restartPc (f : Focus) (reader : Bool) : Pc :=
  if reader && decide (f.path.chain.prev = .alu) then f.path.chain.start else f.path.restart

/-- The focus as a fault leaves it: the register writes of its chain undone (R50). -/
def Focus.faulted (f : Focus) (reader : Bool) : Focus :=
  if reader && decide (f.path.chain.prev = .alu) then f.undoChain else f

/-- Issues an instruction of the focused path: it waits on the scoreboard, or fails a check, or has its effect. -/
def issue (i : Instr) (s : State) (effect : Focus → Did) : Host.Outcome State Fault Refusal :=
  match s.focus with
  | none => .fault .noIssuingPath
  | some f =>
    let o := opndsOf i
    if o.marked f then .next s
    else
      match o.check f with
      | some c => .next (s.takeTrap (f.faulted o.isReader) { code := c } 0 (f.restartPc o.isReader))
      | none =>
        match effect f with
        | .done s' => .next s'
        | .held => .next s
        | .trap s' t => .next (s'.takeTrap (f.faulted o.isReader) t 0 (f.restartPc o.isReader))

/-- The state with a focus. -/
def State.keep (s : State) (f : Focus) : State := { s with focus := some f }

/-- The focus past its instruction. -/
def Focus.advance (f : Focus) : Focus := { f with path := f.path.next (f.path.pc + 4) }

/-- An instruction that changes the cord alone and goes on (R92's scalar instructions and their like). -/
def issueCord (i : Instr) (s : State) (g : Focus → Cord) : Host.Outcome State Fault Refusal :=
  issue i s fun f => .done (s.keep { f with cord := g f }.advance)

/-! ### Sources -/

/-- Active lanes: the path's mask and the instruction's predicate (R6, R60). -/
def Focus.active (f : Focus) : Mask :=
  match f.path.pfx.bind Prefix.hpred with
  | none => f.path.mask
  | some (neg, p) => f.path.mask &&& (if neg then ~~~(f.cord.pred p.toNat) else f.cord.pred p.toNat)

/-- Lane a permuted source takes for lane l (R52). -/
def permLane (c : Cord) (p : Perm) (l : Nat) : Nat :=
  match p with
  | .ident => l
  | .bc => c.prmB.toNat
  | .rot => (l + c.prmR.toNat) % 32
  | .bfly => l ^^^ c.prmX.toNat

/-- Tag a permuted source presents (R84). -/
def permTag (p : Perm) (t : Tag) : Tag :=
  match p, t with
  | _, .uniform => .uniform
  | .ident, t => t
  | .bc, _ => .uniform
  | _, _ => .general

/-- Register or latch of a source code; within a chain a register reads as before the head (R50). -/
def Focus.vsrc (f : Focus) (reader : Bool) (c : VCode) : VReg :=
  if 60 ≤ c.toNat then f.cord.latch.getD (c.toNat - 60) VReg.zero
  else
    match (if reader then f.path.chain.saved.find? fun x => x.1 = c.toNat else none) with
    | some x => x.2
    | none => f.cord.vreg c.toNat

/-- A source after its permutation (R52, R84). -/
def Focus.psrc (f : Focus) (reader : Bool) (c : VCode) (p : Perm) : VReg :=
  let r := f.vsrc reader c
  { lanes := laneMap fun l => r.lane (permLane f.cord p l), tag := permTag p r.tag }

/-- The value of a vector register in the lowest lane of the path's mask (R225). -/
def Focus.low (f : Focus) (c : VCode) : Word := (f.cord.vreg c.toNat).lane (Mask.low f.path.mask)

/-- Byte displacement a HIMM supplies (R59). -/
def Focus.disp (f : Focus) : Int := ((f.path.pfx.bind Prefix.himm).map BitVec.toInt).getD 0

/-- Address of an instruction without per-lane offset: S + disp, modulo 2^64 (R41, R169). -/
def Focus.addr (f : Focus) (s : SCode) : Nat := ((((f.cord.sreg s).toNat : Int) + f.disp) % 2 ^ 64).toNat

/-- Address of lane l of an M or A format (R169). -/
def Focus.laneAddr (f : Focus) (s : SCode) (v : VCode) (l : Nat) : Nat :=
  let o := if v = 63 then 0 else ((f.cord.vreg v.toNat).lane l).toNat
  ((((f.cord.sreg s).toNat : Int) + o + f.disp) % 2 ^ 64).toNat

/-! ### Immediates (R55) -/

/-- 32 bits of an immediate under HIMM. -/
def Focus.imm32 (f : Focus) (imm : BitVec 16) : Option Word :=
  (f.path.pfx.bind Prefix.himm).map fun h => (h.extractLsb' 0 16) ++ imm

/-- An immediate of the I and N forms. That each element of an N16 form takes the 16 bits, as R55 says of I16, is DESIGN
CHOICE, log 72 (R55, R108). -/
def immInt (f : Focus) (t : IntTy) (imm : BitVec 16) : Word :=
  match f.imm32 imm with
  | some w => w
  | none =>
    match t with
    | .i32 => imm.signExtend 32
    | .n32 => imm.zeroExtend 32
    | .i16 | .n16 => imm ++ imm

/-- Scalar immediate, sign-extended or not (R55). -/
def immScalar (f : Focus) (signed : Bool) (imm : BitVec 16) : DWord :=
  match f.imm32 imm with
  | some w => if signed then w.signExtend 64 else w.zeroExtend 64
  | none => if signed then imm.signExtend 64 else imm.zeroExtend 64

def immFloat (f : Focus) (t : FImmTy) (imm : BitVec 16) : Word :=
  match f.imm32 imm with
  | some w => w
  | none =>
    match t with
    | .f32 => imm ++ 0#16
    | .f16 | .e4m3 => imm ++ imm

/-! ### Results of ALU instructions -/

/-- Registers a chain has written, with the value each held before its head (R50). -/
def Chain.remember (c : Chain) (d : Nat) (r : VReg) : List (Nat × VReg) :=
  if c.saved.any fun x => x.1 = d then c.saved else (d, r) :: c.saved

/-- The chain after an ALU instruction (R48). -/
def Focus.chained (f : Focus) (reader : Bool) (k : Prev) (dst : Option Nat) : Chain :=
  let c := f.path.chain
  if reader then
    { c with
        prev := k, readers := c.readers + 1,
        saved := match dst with | some d => c.remember d (f.cord.vreg d) | none => c.saved }
  else
    { prev := k, readers := 0, broken := false, start := f.path.restart,
      saved := match dst with | some d => [(d, f.cord.vreg d)] | none => [] }

/-- The latch a result enters: lanes outside the active ones are free (R47; log 4). -/
def latchOf (fresh : Nat) (m : Mask) (vals : Nat → Word) (t : Tag) : VReg :=
  { lanes := laneMap fun l => if m.getLsbD l then vals l else Config.freeWord fresh l,
    tag := if m = BitVec.allOnes 32 then t else .general }

/-- An ALU result: shifts the latches, writes the destination in the active lanes, moves the path on (R47, R51, R86). -/
def Focus.aluResult (f : Focus) (fresh : Nat) (reader : Bool) (dst : Dst) (vals : Nat → Word) (t : Tag) : Focus :=
  let m := f.active
  let c := f.cord
  let c' := { c with latch := (latchOf fresh m vals t :: c.latch).take 4 }
  { f with
      cord := match dst with | .reg d => c'.writeV d.toNat m vals t | .nw => c',
      path := { f.path.next (f.path.pc + 4) with
        chain := f.chained reader .alu (match dst with | .reg d => some d.toNat | .nw => none) } }

/-- What an ALU instruction does: its lane values and the tag of its result, and the FPSTAT flags it sets. -/
def aluDone (i : Instr) (dst : Dst) (s : State) (f : Focus) (r : (Nat → Word) × Tag × BitVec 6) : Did :=
  let f' := f.aluResult s.fresh (opndsOf i).isReader dst r.1 r.2.1
  .done (s.draw.keep { f' with cord := { f'.cord with fpstat := f'.cord.fpstat ||| r.2.2 } })

/-- Issues an ALU instruction of the focus. -/
def issueAlu (i : Instr) (dst : Dst) (s : State) (g : Focus → (Nat → Word) × Tag × BitVec 6) :
    Host.Outcome State Fault Refusal :=
  issue i s fun f => aluDone i dst s f (g f)

/-- Issues a compare: bits of its predicate in the active lanes (R105, R127). -/
def issueCmp (i : Instr) (p : BitVec 3) (s : State) (g : Focus → Mask × BitVec 6) : Host.Outcome State Fault Refusal :=
  issue i s fun f =>
    let r := g f
    let c := f.cord.writeP p.toNat f.active r.1
    .done (s.keep { f with
      cord := { c with fpstat := c.fpstat ||| r.2 },
      path := { f.path.next (f.path.pc + 4) with chain := f.chained (opndsOf i).isReader .compare none } })

end Sys2Proof.Machine
end

