-- ==== Sys2Proof/Machine/Fetch.lean ====
section
/-! DEFINITION. The word a path executes next, and the groups of words that hold the issuer on one path (02_encoding.md
R49, R57; 06_memory.md R173, R190, R194). -/

namespace Sys2Proof.Machine

/-- The instruction at offset 0 of four bytes of memory. -/
def Memory.word (m : Memory) (h : Nat) : Instr :=
  decodeWord (wordOfBytes (m.read h) (m.read (h + 1)) (m.read (h + 2)) (m.read (h + 3)))

/-- The instruction at a physical address of a die. -/
def State.wordAt (s : State) (d pa : Nat) : Instr := s.hbm.word (hAddr d pa)

/-- Writes to a word that a fetch of a stand may not see: those made since it was placed, the newest first (R194). -/
def State.unseen (s : State) (st : Stand) (pa : Nat) : List Past :=
  s.past.filter fun e => e.meets (hAddr st.die pa) 4 && !decide (e.upto ≤ st.sid)

/-- The instruction a fetch of a stand finds at a physical address: of a word written since the stand was placed, the new
or an old one (R194). -/
def State.fetchWord (s : State) (st : Stand) (pa : Nat) : Instr :=
  let es := s.unseen st pa
  if es = [] then s.wordAt st.die pa
  else (rewind s.hbm (es.take (Config.freeFetch s.fresh pa % (es.length + 1)))).word (hAddr st.die pa)

/-- The instruction at an address of a stand's context, as a fetch now finds it; none where the address does not
translate. -/
def State.peekWord (s : State) (st : Stand) (pc : Pc) : Option Instr :=
  (s.peek st pc.toNat).map (s.fetchWord st)

/-- The next word but prefix hints is a reader of the chain; so counts a word that does not translate, and a run of hints
longer than the fuel (R48, R49). -/
def State.readerNext (s : State) (st : Stand) : Nat → Pc → Bool
  | 0, _ => true
  | n + 1, pc =>
    match s.peekWord st pc with
    | none => true
    | some (.himm _) | some (.hpred _ _) | some (.hcache ..) => s.readerNext st n (pc + 4)
    | some i => (opndsOf i).isReader

/-- A path stands inside a prefix group or a latch chain: its next words belong to one that has begun (R49, R57). -/
def State.inGroup (s : State) (st : Stand) (p : Path) : Bool :=
  p.wait.isNone &&
    (p.pfx.isSome || (decide (p.chain.prev = .alu) && !p.chain.broken && s.readerNext st 64 p.pc))

/-- Fetch by the focused path: its next instruction, or the fault of the fetch, whose TRAPVAL is the address (R173). -/
def State.fetch (s : State) (f : Focus) : State × Except Trap Instr :=
  match s.translate f.agent .fetch f.path.pc.toNat with
  | (s, .error c) => (s, .error { code := c, val := some (f.path.pc.zeroExtend 64) })
  | (s, .ok (pa, _)) =>
    if s.struck f.stand.die (.hbm pa) 4 then
      (s, .error { code := .memError })
    else (s, .ok (s.fetchWord f.stand pa))

/-- A fault of a fetch. Behind a head or a reader the word may be the chain's next reader, so the chain starts again
(R50). -/
def State.fetchTrap (s : State) (f : Focus) (t : Trap) : State :=
  let reader := decide (f.path.chain.prev = .alu) && !f.path.chain.broken
  s.takeTrap (f.faulted reader) t 0 (f.restartPc reader)

end Sys2Proof.Machine
end

