-- ==== Sys2Proof/Machine/Scalar.lean ====
section
/-! DEFINITION. The scalar instructions of the uniform pipe (03_integer_scalar.md R93 to R96, R90) and the hints (02 R56 to R63). -/

namespace Sys2Proof.Machine

/-- D := op(A, B) on 64-bit registers (R93). -/
def scalarOp (i : Instr) (o : S3) (op : DWord → DWord → DWord) (s : State) : Host.Outcome State Fault Refusal :=
  issueCord i s fun f => f.cord.writeS o.d (op (f.cord.sreg o.a) (f.cord.sreg o.b))

/-- D := op(D, imm), the immediate formed by R55 (R94). -/
def scalarImm (i : Instr) (d : SCode) (imm : BitVec 16) (signed : Bool) (op : DWord → DWord → DWord) (s : State) :
    Host.Outcome State Fault Refusal :=
  issueCord i s fun f => f.cord.writeS d (op (f.cord.sreg d) (immScalar f signed imm))

/-- Shifts by k, the whole of B read as unsigned (R93). -/
def shlD (a b : DWord) : DWord := if b.toNat < 64 then a <<< b.toNat else 0
def shrD (a b : DWord) : DWord := if b.toNat < 64 then a >>> b.toNat else 0
def sraD (a b : DWord) : DWord := a.sshiftRight (min b.toNat 64)

def mulhD (a b : DWord) : DWord := BitVec.ofInt 64 (a.toInt * b.toInt / 2 ^ 64)
def mulhuD (a b : DWord) : DWord := BitVec.ofNat 64 (a.toNat * b.toNat / 2 ^ 64)
def minD (a b : DWord) : DWord := if a.toInt ≤ b.toInt then a else b
def maxD (a b : DWord) : DWord := if a.toInt ≤ b.toInt then b else a
def minuD (a b : DWord) : DWord := if a.toNat ≤ b.toNat then a else b
def sltD (a b : DWord) : DWord := if a.toInt < b.toInt then 1 else 0
def sltuD (a b : DWord) : DWord := if a.toNat < b.toNat then 1 else 0

/-- SADD (R93). -/
def execSadd (o : S3) (s : State) : Host.Outcome State Fault Refusal := scalarOp (.sadd o) o (· + ·) s
/-- SSUB (R93). -/
def execSsub (o : S3) (s : State) : Host.Outcome State Fault Refusal := scalarOp (.ssub o) o (· - ·) s
/-- SMUL (R93). -/
def execSmul (o : S3) (s : State) : Host.Outcome State Fault Refusal := scalarOp (.smul o) o (· * ·) s
/-- SMULH (R93). -/
def execSmulh (o : S3) (s : State) : Host.Outcome State Fault Refusal := scalarOp (.smulh o) o mulhD s
/-- SMULHU (R93). -/
def execSmulhu (o : S3) (s : State) : Host.Outcome State Fault Refusal := scalarOp (.smulhu o) o mulhuD s
/-- SAND (R93). -/
def execSand (o : S3) (s : State) : Host.Outcome State Fault Refusal := scalarOp (.sand o) o (· &&& ·) s
/-- SOR (R93). -/
def execSor (o : S3) (s : State) : Host.Outcome State Fault Refusal := scalarOp (.sor o) o (· ||| ·) s
/-- SXOR (R93). -/
def execSxor (o : S3) (s : State) : Host.Outcome State Fault Refusal := scalarOp (.sxor o) o (· ^^^ ·) s
/-- SSHL (R93). -/
def execSshl (o : S3) (s : State) : Host.Outcome State Fault Refusal := scalarOp (.sshl o) o shlD s
/-- SSHR (R93). -/
def execSshr (o : S3) (s : State) : Host.Outcome State Fault Refusal := scalarOp (.sshr o) o shrD s
/-- SSRA (R93). -/
def execSsra (o : S3) (s : State) : Host.Outcome State Fault Refusal := scalarOp (.ssra o) o sraD s
/-- SMIN (R93). -/
def execSmin (o : S3) (s : State) : Host.Outcome State Fault Refusal := scalarOp (.smin o) o minD s
/-- SMAX (R93). -/
def execSmax (o : S3) (s : State) : Host.Outcome State Fault Refusal := scalarOp (.smax o) o maxD s
/-- SMINU (R93). -/
def execSminu (o : S3) (s : State) : Host.Outcome State Fault Refusal := scalarOp (.sminu o) o minuD s
/-- SSLT (R93). -/
def execSslt (o : S3) (s : State) : Host.Outcome State Fault Refusal := scalarOp (.sslt o) o sltD s
/-- SSLTU (R93). -/
def execSsltu (o : S3) (s : State) : Host.Outcome State Fault Refusal := scalarOp (.ssltu o) o sltuD s

/-- SADDI (R94). -/
def execSaddi (d : SCode) (imm : BitVec 16) (s : State) : Host.Outcome State Fault Refusal :=
  scalarImm (.saddi d imm) d imm true (· + ·) s
/-- SMULI (R94). -/
def execSmuli (d : SCode) (imm : BitVec 16) (s : State) : Host.Outcome State Fault Refusal :=
  scalarImm (.smuli d imm) d imm true (· * ·) s
/-- SANDI (R94). -/
def execSandi (d : SCode) (imm : BitVec 16) (s : State) : Host.Outcome State Fault Refusal :=
  scalarImm (.sandi d imm) d imm false (· &&& ·) s
/-- SORI (R94). -/
def execSori (d : SCode) (imm : BitVec 16) (s : State) : Host.Outcome State Fault Refusal :=
  scalarImm (.sori d imm) d imm false (· ||| ·) s
/-- SXORI (R94). -/
def execSxori (d : SCode) (imm : BitVec 16) (s : State) : Host.Outcome State Fault Refusal :=
  scalarImm (.sxori d imm) d imm false (· ^^^ ·) s
/-- SSLTI (R94). -/
def execSslti (d : SCode) (imm : BitVec 16) (s : State) : Host.Outcome State Fault Refusal :=
  scalarImm (.sslti d imm) d imm true sltD s
/-- SSLTUI (R94). -/
def execSsltui (d : SCode) (imm : BitVec 16) (s : State) : Host.Outcome State Fault Refusal :=
  scalarImm (.ssltui d imm) d imm true sltuD s

/-- A shift by an immediate: a bit above bit 5, of the word or of a HIMM, is an illegal instruction (R94). -/
def shiftImm (i : Instr) (d : SCode) (imm : BitVec 16) (op : DWord → DWord → DWord) (s : State) :
    Host.Outcome State Fault Refusal :=
  issue i s fun f =>
    let k := immScalar f false imm
    if k.toNat < 64 then .done (s.keep { f with cord := f.cord.writeS d (op (f.cord.sreg d) k) }.advance)
    else .trap s { code := .illegalInstr }

/-- SSHLI (R94). -/
def execSshli (d : SCode) (imm : BitVec 16) (s : State) : Host.Outcome State Fault Refusal :=
  shiftImm (.sshli d imm) d imm shlD s
/-- SSHRI (R94). -/
def execSshri (d : SCode) (imm : BitVec 16) (s : State) : Host.Outcome State Fault Refusal :=
  shiftImm (.sshri d imm) d imm shrD s
/-- SSRAI (R94). -/
def execSsrai (d : SCode) (imm : BitVec 16) (s : State) : Host.Outcome State Fault Refusal :=
  shiftImm (.ssrai d imm) d imm sraD s

/-- SLDI.h0 to SLDI.h3: one halfword of D takes the immediate (R95). -/
def execSldiH (d : SCode) (h : BitVec 2) (imm : BitVec 16) (s : State) : Host.Outcome State Fault Refusal :=
  issueCord (.sldiH d h imm) s fun f =>
    let k := 16 * h.toNat
    f.cord.writeS d ((f.cord.sreg d &&& ~~~((0xFFFF : DWord) <<< k)) ||| (imm.zeroExtend 64 <<< k))

/-- SLDI: D takes the immediate, sign-extended (R95). -/
def execSldi (d : SCode) (imm : BitVec 16) (s : State) : Host.Outcome State Fault Refusal :=
  issueCord (.sldi d imm) s fun f => f.cord.writeS d (imm.signExtend 64)

/-- S2V: the low word of S in every lane of the path's mask, tagged uniform when that is every lane (R96). -/
def execS2v (v : VCode) (r : SCode) (s : State) : Host.Outcome State Fault Refusal :=
  issueCord (.s2v v r) s fun f =>
    f.cord.writeV v.toNat f.path.mask (fun _ => (f.cord.sreg r).truncate 32) .uniform

/-- V2S: one lane of v, active or not, zero-extended (R96). -/
def execV2s (v : VCode) (r : SCode) (lane : BitVec 5) (s : State) : Host.Outcome State Fault Refusal :=
  issueCord (.v2s v r lane) s fun f => f.cord.writeS r (((f.cord.vreg v.toNat).lane lane.toNat).zeroExtend 64)

/-- Tag code (R82). -/
def Tag.code : Tag → DWord
  | .general => 0
  | .uniform => 1
  | .affine => 2

/-- RDTAG: the shape tag of v (R90). -/
def execRdtag (v : VCode) (r : SCode) (s : State) : Host.Outcome State Fault Refusal :=
  issueCord (.rdtag v r) s fun f => f.cord.writeS r (f.cord.vreg v.toNat).tag.code

/-! ### NOP and hints -/

/-- NOP (R38). -/
def execNop (s : State) : Host.Outcome State Fault Refusal := issueCord .nop s fun f => f.cord

/-- A word no row of the opcode map accepts raises ILLEGAL_INSTR, and TRAPVAL holds the word (R39, R72). -/
def execIllegalWord (w : BitVec 32) (s : State) : Host.Outcome State Fault Refusal :=
  issue (.illegalWord w) s fun _ => .trap s { code := .illegalInstr, val := some (w.zeroExtend 64) }

/-- A prefix hint joins the group of its path (R57); it leaves the chain as it stands (R48). -/
def prefixHint (i : Instr) (s : State) (g : Prefix → Prefix) : Host.Outcome State Fault Refusal :=
  issue i s fun f =>
    let p := f.path.pfx.getD { start := f.path.pc }
    .done (s.keep { f with path := { f.path with pc := f.path.pc + 4, pfx := some (g p), yielded := false } })

/-- HIMM (R59). -/
def execHimm (payload : BitVec 21) (s : State) : Host.Outcome State Fault Refusal :=
  prefixHint (.himm payload) s fun p => { p with himm := some payload }

/-- HPRED (R60). -/
def execHpred (neg : Bool) (p : BitVec 3) (s : State) : Host.Outcome State Fault Refusal :=
  prefixHint (.hpred neg p) s fun x => { x with hpred := some (neg, p) }

/-- HCACHE (R61). -/
def execHcache (na : Bool) (l2 l1 : BitVec 2) (s : State) : Host.Outcome State Fault Refusal :=
  prefixHint (.hcache na l2 l1) s fun x => { x with hcache := some ⟨na, l2, l1⟩ }

/-- A hint that acts at once: it breaks a chain it stands in (R48). That the count of a reader's place runs on behind it,
so that a reader within that count raises LATCH_CHAIN, is DESIGN CHOICE, log 74. -/
def actingHint (i : Instr) (s : State) (g : Focus → Focus) : Host.Outcome State Fault Refusal :=
  issue i s fun f =>
    .done (s.keep (g { f with path := { f.path with
      pc := f.path.pc + 4, yielded := false, chain := { f.path.chain with broken := true } } }))

/-- HPRM: each named field of PRM takes its value (R58). -/
def execHprm (wx wr wb : Bool) (x r b : BitVec 5) (s : State) : Host.Outcome State Fault Refusal :=
  actingHint (.hprm wx wr wb x r b) s fun f =>
    { f with cord := { f.cord with
        prmX := if wx then x else f.cord.prmX, prmR := if wr then r else f.cord.prmR,
        prmB := if wb then b else f.cord.prmB } }

/-- HYLD: the path counts as the youngest cord-slot of its priority (R62). -/
def execHyld (s : State) : Host.Outcome State Fault Refusal :=
  actingHint .hyld s fun f => { f with path := { f.path with yielded := true } }

/-- HSTL: the path does not issue for n cycles after this one (R63). -/
def execHstl (n : BitVec 21) (s : State) : Host.Outcome State Fault Refusal :=
  actingHint (.hstl n) s fun f =>
    { f with path := { f.path with stall := if n = 0 then none else some (s.clock + n.toNat) } }

end Sys2Proof.Machine
end

