-- ==== Sys2Proof/Machine/Control.lean ====
section
/-! DEFINITION. Control flow, divergence and forward progress (05_control.md R135 to R163). -/

namespace Sys2Proof.Machine

/-- One step of the divergence LFSR (R139). -/
def lfsrStep (l : Word) : Word := if l.getLsbD 0 then (l >>> 1) ^^^ 0x80200003 else l >>> 1

/-- LFSR of a started cord (R140). -/
def lfsrSeed (seed : Word) (standId cord : Nat) : Word :=
  let h := seed + 0x9E3779B9 * BitVec.ofNat 32 (standId * 64 + cord + 1)
  let h := (h ^^^ (h >>> 16)) * 0x85EBCA6B
  let h := h ^^^ (h >>> 13)
  if h = 0 then 1 else h

/-- Target of a branch (R40). -/
def branchTo {n : Nat} (pc : Pc) (disp : BitVec n) : Pc := pc + (disp.signExtend 57 <<< 2)

/-! ### The spill area (R149 to R151) -/

/-- Offset of entry j of a cord's spill area; none when the area starts below 0. -/
def spillEntry (st : Stand) (c : Cord) (j : Nat) : Option Nat :=
  if 1024 * (c.id + 1) ≤ st.spGran * 16384 then some (st.spGran * 16384 - 1024 * (c.id + 1) + 16 * j) else none

/-- The two words of an entry. -/
def readEntry (st : Stand) (c : Cord) (j : Nat) : Nat × Nat × Nat :=
  match spillEntry st c j with
  | some o => (st.sp.load o 8, st.sp.load (o + 8) 4, st.sp.load (o + 12) 4)
  | none => (0, 0, 0)

/-- TRAPVAL of a fault at entry j (R167). R149 gives an offset below 0 no representation: it is written as a 64-bit two's
complement number (DESIGN CHOICE, log 9). -/
def spillVal (st : Stand) (c : Cord) (j : Nat) : DWord :=
  BitVec.ofInt 64 ((st.spGran : Int) * 16384 - 1024 * (c.id + 1) + 16 * j)

def decodeToken (e : Nat × Nat × Nat) : Token :=
  { call := nbits e.1 63 63 = 1, rpc := BitVec.ofNat 57 e.1, m := BitVec.ofNat 32 e.2.1, w := BitVec.ofNat 32 e.2.2 }

/-- The tokens in the spill area, newest first: entry j is the j-th from the bottom. -/
def spilledTokens (st : Stand) (c : Cord) : List Token :=
  (List.range c.spilled).reverse.map fun j => decodeToken (readEntry st c j)

/-- Every token of a cord, newest first. -/
def allTokens (st : Stand) (c : Cord) : List Token := c.tokens ++ spilledTokens st c

/-- A fault of the control unit: of the issued instruction, or of a pending path it moves, with the state in which the
instruction has had its effect (R167). -/
inductive CtlFault
  | own (t : Trap)
  | moved (st : Stand) (c : Cord) (t : Trap) (pc : Pc) (slotB : Bool)

abbrev Ctl := Except CtlFault (Stand × Cord)

/-- Writes 16 bytes of an entry. -/
def putEntry (st : Stand) (o : Nat) (w0 w8 w12 : Nat) : Stand :=
  { st with sp := ((st.sp.store o 8 w0).store (o + 8) 4 w8).store (o + 12) 4 w12 }

def putToken (st : Stand) (o : Nat) (t : Token) : Stand :=
  putEntry st o (t.call.toNat * 2 ^ 63 + t.rpc.toNat) t.m.toNat t.w.toNat

/-- Writes to the spill area the entries that are new there or have changed (R147). -/
def spillTokens (c : Cord) (old : List Token) : List Token → Nat → Stand → Except CtlFault Stand
  | [], _, st => .ok st
  | t :: r, j, st =>
    if old[j]? = some t then spillTokens c old r (j + 1) st
    else
      match spillEntry st c j with
      | none => .error (.own { code := .divergenceDepth, val := some (spillVal st c j) })
      | some o => spillTokens c old r (j + 1) (putToken st o t)

/-- An entry read back as a token is accepted (R151): `above` are the tokens above it. -/
def tokenOk (e : Nat × Nat × Nat) (above : List Token) : Bool :=
  let t := decodeToken e
  decide (nbits e.1 62 57 = 0) && decide (nbits e.1 1 0 = 0) && decide (t.w &&& ~~~t.m = 0) &&
    (decide (t.m ≠ 0) || above.all fun x => decide (x.m = 0))

/-- Gives a cord its tokens, newest first: the eight newest in hardware, the rest in the spill area. `src` names, for
each token, the entry it was read from, if any. Only a token that moves into hardware is read back and checked (R151): an
entry that an event changes in place or moves down is used unchecked and written anew (DESIGN CHOICE, log 75). -/
def setTokens (st : Stand) (c : Cord) (toks : List (Token × Option Nat)) : Ctl :=
  let hw := toks.take 8
  let low := (toks.drop 8).reverse.map Prod.fst
  let back := hw.filterMap Prod.snd
  match back.find? fun j => !tokenOk (readEntry st c j) ((hw.takeWhile fun x => x.2 ≠ some j).map Prod.fst) with
  | some j => .error (.own { code := .controlCorrupt, val := some (spillVal st c j) })
  | none =>
    match spillTokens c (spilledTokens st c).reverse low 0 st with
    | .error e => .error e
    | .ok st => .ok (st, { c with tokens := hw.map Prod.fst, spilled := low.length })

/-- The tokens with the entries they stand in. -/
def sourced (st : Stand) (c : Cord) : List (Token × Option Nat) :=
  c.tokens.map (fun t => (t, none)) ++
    (List.range c.spilled).reverse.map fun j => (decodeToken (readEntry st c j), some j)

/-- Pushes a token (R144, R147). -/
def pushToken (st : Stand) (c : Cord) (t : Token) : Ctl :=
  if 40 ≤ c.tokens.length + c.spilled then .error (.own { code := .divergenceDepth })
  else setTokens st c ((t, none) :: sourced st c)

/-- Token depth of a mask (R144). -/
def depthOf (toks : List Token) (m : Mask) : Nat := (toks.filter fun t => t.m &&& m ≠ 0).length

/-! ### Pending paths (R148) -/

/-- Current age of a pending path in hardware. -/
def PendPath.ageAt (p : PendPath) (now : Nat) : Nat := min (p.age + (now - p.since)) (2 ^ 32 - 1)

/-- Writes a pending path into ring place k. -/
def ringPut (st : Stand) (c : Cord) (k : Nat) (pc : Pc) (m : Mask) (age : Nat) : Except CtlFault Stand :=
  match spillEntry st c (32 + k) with
  | none => .error (.own { code := .divergenceDepth, val := some (spillVal st c (32 + k)) })
  | some o => .ok (putEntry st o (depthOf (allTokens st c) m * 2 ^ 57 + pc.toNat) m.toNat age)

/-- A path joins the tail of the queue with age 0. -/
def pendTail (now : Nat) (st : Stand) (c : Cord) (pc : Pc) (m : Mask) : Ctl :=
  if c.pending.length < 2 ∧ c.ringCount = 0 then
    .ok (st, { c with pending := c.pending ++ [⟨pc, m, 0, now⟩] })
  else
    match ringPut st c c.ringTail pc m 0 with
    | .error e => .error e
    | .ok st => .ok (st, { c with ringTail := (c.ringTail + 1) % 32, ringCount := c.ringCount + 1 })

/-- A merged path takes the head of the queue with age 0. -/
def pendHead (now : Nat) (st : Stand) (c : Cord) (pc : Pc) (m : Mask) : Ctl :=
  match c.pending with
  | [a, b] =>
    let k := (c.ringHead + 31) % 32
    match ringPut st c k b.pc b.mask (b.ageAt now) with
    | .error e => .error e
    | .ok st => .ok (st, { c with pending := [⟨pc, m, 0, now⟩, a], ringHead := k, ringCount := c.ringCount + 1 })
  | l => .ok (st, { c with pending := ⟨pc, m, 0, now⟩ :: l })

/-- A ring entry is accepted as a pending path (R151). -/
def pathOk (st : Stand) (c : Cord) (k : Nat) (e : Nat × Nat × Nat) : Bool :=
  let m : Mask := BitVec.ofNat 32 e.2.1
  let toks := allTokens st c
  let others := (List.range c.ringCount).filterMap fun i =>
    let j := (c.ringHead + i) % 32
    if j = k then none else some (BitVec.ofNat 32 (readEntry st c (32 + j)).2.1 : Mask)
  decide (m ≠ 0) && decide (nbits e.1 1 0 = 0) && decide (nbits e.1 63 57 = depthOf toks m) &&
    (c.slotA.toList ++ c.slotB.toList).all (fun p => decide (p.mask &&& m = 0)) &&
    c.pending.all (fun p => decide (p.mask &&& m = 0)) && others.all (fun x => decide (x &&& m = 0)) &&
    toks.all fun t => decide (t.w &&& m = 0)

/-- Moves ring paths into free hardware places. -/
def refill (now : Nat) (slotB : Bool) : Nat → Stand → Cord → Ctl
  | 0, st, c => .ok (st, c)
  | n + 1, st, c =>
    if c.pending.length < 2 ∧ 0 < c.ringCount then
      let e := readEntry st c (32 + c.ringHead)
      if pathOk st c c.ringHead e then
        refill now slotB n st { c with
          pending := c.pending ++ [⟨BitVec.ofNat 57 e.1, BitVec.ofNat 32 e.2.1, e.2.2, now⟩],
          ringHead := (c.ringHead + 1) % 32, ringCount := c.ringCount - 1 }
      else
        .error (.moved st c { code := .controlCorrupt, val := some (spillVal st c (32 + c.ringHead)) }
          (BitVec.ofNat 57 (e.1 / 4 * 4)) slotB)
    else .ok (st, c)

/-- A path that becomes live now. -/
def livePath (now : Nat) (pc : Pc) (m : Mask) : Path := { pc := pc, mask := m, liveSince := now }

/-- Promotes the head of the queue into a slot. -/
def promoteInto (now : Nat) (b : Bool) (st : Stand) (c : Cord) : Ctl :=
  match c.pending with
  | [] => .ok (st, c)
  | p :: r => refill now b 2 st { c.setSlot b (some (livePath now p.pc p.mask)) with pending := r }

/-- Promotes pending paths into free slots, the older into slot A (R148). -/
def promote (now : Nat) (st : Stand) (c : Cord) : Ctl :=
  match (if c.slotA.isNone then promoteInto now false st c else .ok (st, c)) with
  | .error e => .error e
  | .ok (st, c) => if c.slotB.isNone then promoteInto now true st c else .ok (st, c)

/-- A path takes a free slot, or else the place in the queue that `full` gives it. -/
def takeSlot (now : Nat) (st : Stand) (c : Cord) (pc : Pc) (m : Mask) (full : Nat → Stand → Cord → Pc → Mask → Ctl) : Ctl :=
  if c.slotA.isNone then .ok (st, c.setSlot false (some (livePath now pc m)))
  else if c.slotB.isNone then .ok (st, c.setSlot true (some (livePath now pc m)))
  else full now st c pc m

/-! ### Completion of tokens (R145) -/

/-- Tests affected tokens from the innermost outward: the tokens left, and the path the first completion resumes. -/
def testTokens : List ((Token × Option Nat) × Bool) → List (Token × Option Nat) × Option (Pc × Mask)
  | [] => ([], none)
  | (x, false) :: r => let y := testTokens r; (x :: y.1, y.2)
  | (x, true) :: r =>
    if x.1.w = x.1.m then
      if x.1.m = 0 then testTokens r
      else (r.map Prod.fst, some (if x.1.call then x.1.rpc else x.1.rpc + 4, x.1.m))
    else (x :: r.map Prod.fst, none)

/-- Applies a change to the tokens, each by its place from the newest, completes the ready ones, resumes a merged path, and promotes (R145, R148). -/
def tokenEvent (now : Nat) (st : Stand) (c : Cord) (change : Nat → Token → Option Token) : Ctl :=
  let toks := sourced st c
  let marked := ((List.range toks.length).zip toks).map fun (k, x) =>
    match change k x.1 with
    | none => (x, false)
    | some t => ((t, x.2), true)
  let r := testTokens marked
  match setTokens st c r.1 with
  | .error e => .error e
  | .ok (st, c) =>
    match (match r.2 with | some (pc, m) => takeSlot now st c pc m pendHead | none => .ok (st, c)) with
    | .error e => .error e
    | .ok (st, c) => promote now st c

/-- The innermost token of a mask, by its place from the newest (R144). -/
def innermost (toks : List Token) (m : Mask) : Option (Nat × Token) :=
  ((List.range toks.length).zip toks).find? fun x => decide (x.2.m &&& m ≠ 0)

/-! ### Control instructions -/

/-- Seats what a control event leaves, with the path in the issuing slot, if any, focused. -/
def State.settle (s : State) (st : Stand) (c : Cord) (b : Bool) : State :=
  match c.slot b with
  | some p => s.keep ⟨st, c, p, b⟩
  | none => s.seat (st.modCord c.id fun _ => c)

/-- Entries of its spill area that a cord's tokens and pending paths stand in (R147, R148). -/
def Cord.spillPlaces (c : Cord) : List Nat :=
  List.range c.spilled ++ (List.range c.ringCount).map fun k => 32 + (c.ringHead + k) % 32

/-- An event has read back a damaged entry of its cord's spill area (R374). -/
def State.spillBad (s : State) (st : Stand) (c c' : Cord) : Bool :=
  (c.spillPlaces.filter fun j => !c'.spillPlaces.contains j).any fun j =>
    (spillEntry st c j).any fun o => s.struck st.die (.scratchpad st.sid o) 16

/-- Entries that an event has written are no longer damaged. -/
def State.mendSpill (s : State) (st : Stand) (c c' : Cord) : State :=
  ((c'.spillPlaces.filter fun j => !c.spillPlaces.contains j).filterMap (spillEntry st c)).foldl (fun s o => s.mendSp st o 16) s

/-- Issues a control instruction: its event acts on the stand and the cord, with the path in its slot or out of it. -/
def issueCtl (i : Instr) (s : State) (g : Focus → Ctl) : Host.Outcome State Fault Refusal :=
  issue i s fun f =>
    match g f with
    | .ok (st, c) =>
      if s.spillBad f.stand f.cord c then .trap s { code := .memError }
      else .done ((s.mendSpill f.stand f.cord c).settle st c f.slotB)
    | .error (.own t) => .trap s t
    | .error (.moved st c t pc b) =>
      let v := s.trapVal t
      let c := c.setTrap t v 0 pc
      .done ((s.seat (st.modCord c.id fun _ => c)).endContext st.die st.ctx t.code.num
        (faultEvent 1 st c.id b t v pc))

/-- The path moved to an address, in its slot. -/
def Focus.goto (f : Focus) (pc : Pc) : Ctl := .ok (f.stand, f.cord.setSlot f.slotB (some (f.path.next pc)))

/-- A split (R142): the LFSR steps, and its bit 0 says which side stays in the slot. -/
def split (now : Nat) (f : Focus) (taken fall : Mask) (target : Pc) : Ctl :=
  let l := lfsrStep f.cord.lfsr
  let next := f.path.pc + 4
  let stay := if l.getLsbD 0 then (target, taken) else (next, fall)
  let go := if l.getLsbD 0 then (next, fall) else (target, taken)
  let c := { f.cord with lfsr := l }.setSlot f.slotB (some { f.path.next stay.1 with mask := stay.2 })
  takeSlot now f.stand c go.1 go.2 pendTail

/-- BRC (R155). -/
def execBrc (p : BitVec 3) (neg : Bool) (disp : BitVec 21) (s : State) : Host.Outcome State Fault Refusal :=
  issueCtl (.brc p neg disp) s fun f =>
    let q := if neg then ~~~(f.cord.pred p.toNat) else f.cord.pred p.toNat
    let t := f.path.mask &&& q
    let n := f.path.mask &&& ~~~q
    let target := branchTo f.path.pc disp
    if t ≠ 0 ∧ n ≠ 0 then split s.clock f t n target
    else f.goto (if t ≠ 0 then target else f.path.pc + 4)

/-- JMP (R155). -/
def execJmp (disp : BitVec 21) (s : State) : Host.Outcome State Fault Refusal :=
  issueCtl (.jmp disp) s fun f => f.goto (branchTo f.path.pc disp)

/-- CALL (R155). -/
def execCall (disp : BitVec 21) (s : State) : Host.Outcome State Fault Refusal :=
  issueCtl (.call disp) s fun f =>
    pushToken f.stand (f.cord.setSlot f.slotB (some (f.path.next (branchTo f.path.pc disp))))
      { call := true, rpc := f.path.pc + 4, m := f.path.mask, w := 0 }

/-- RCV (R157). -/
def execRcv (disp : BitVec 21) (s : State) : Host.Outcome State Fault Refusal :=
  issueCtl (.rcv disp) s fun f =>
    pushToken f.stand (f.cord.setSlot f.slotB (some (f.path.next (f.path.pc + 4))))
      { call := false, rpc := branchTo f.path.pc disp, m := f.path.mask, w := 0 }

/-- Target of lane l of an indirect jump: bits 56:32 of the instruction's address and v[l] (R156). -/
def Focus.indirect (f : Focus) (v : VCode) (l : Nat) : Pc :=
  f.path.pc.extractLsb' 32 25 ++ (f.cord.vreg v.toNat).lane l

/-- Lane sets with equal targets, ordered by their lowest lane (R156). -/
def groupsOf (tgt : Nat → Pc) : List Nat → List (Pc × Mask)
  | [] => []
  | l :: r =>
    let gs := groupsOf tgt r
    let same := gs.find? fun g => g.1 = tgt l
    (tgt l, (1 : Mask) <<< l ||| (same.map Prod.snd).getD 0) :: gs.filter fun g => g.1 ≠ tgt l

/-- Places the groups after the first: a free slot, then the pending tail in order (R156). -/
def placeGroups (now : Nat) : List (Pc × Mask) → Stand → Cord → Ctl
  | [], st, c => .ok (st, c)
  | g :: r, st, c =>
    match takeSlot now st c g.1 g.2 pendTail with
    | .error e => .error e
    | .ok (st, c) => placeGroups now r st c

/-- An indirect jump, which pushes a CALL token first when it is a call (R156). -/
def indirectJump (i : Instr) (call : Bool) (v : VCode) (s : State) : Host.Outcome State Fault Refusal :=
  issueCtl i s fun f =>
    let ls := Mask.toLanes f.path.mask
    let tgt := f.indirect v
    match ls.find? fun l => (tgt l).toNat % 4 ≠ 0 with
    | some l => .error (.own { code := .misaligned, val := some ((tgt l).zeroExtend 64) })
    | none =>
      match (if call then pushToken f.stand f.cord { call := true, rpc := f.path.pc + 4, m := f.path.mask, w := 0 }
             else .ok (f.stand, f.cord)) with
      | .error e => .error e
      | .ok (st, c) =>
        let gs := groupsOf tgt ls
        let l := if 1 < gs.length then lfsrStep c.lfsr else c.lfsr
        let gs := if 1 < gs.length ∧ l.getLsbD 0 = false then gs.reverse else gs
        match gs with
        | [] => .ok (st, c.setSlot f.slotB none)
        | g :: r =>
          placeGroups s.clock r st ({ c with lfsr := l }.setSlot f.slotB (some { f.path.next g.1 with mask := g.2 }))

/-- JMPR (R156). -/
def execJmpr (v : VCode) (s : State) : Host.Outcome State Fault Refusal := indirectJump (.jmpr v) false v s
/-- CALLR (R156). -/
def execCallr (v : VCode) (s : State) : Host.Outcome State Fault Refusal := indirectJump (.callr v) true v s

/-- A path waits in its innermost token, which must be of the kind asked and, for a JOIN, name this address (R146). -/
def waitIn (i : Instr) (call : Bool) (s : State) : Host.Outcome State Fault Refusal :=
  issueCtl i s fun f =>
    match innermost (allTokens f.stand f.cord) f.path.mask with
    | none => .error (.own { code := .tokenMismatch })
    | some (k, t) =>
      if t.call = call ∧ (call = true ∨ t.rpc = f.path.pc) then
        tokenEvent s.clock f.stand (f.cord.setSlot f.slotB none)
          fun j x => if j = k then some { x with w := x.w ||| f.path.mask } else none
      else .error (.own { code := .tokenMismatch })

/-- RET (R146, R156). -/
def execRet (s : State) : Host.Outcome State Fault Refusal := waitIn .ret true s
/-- JOIN (R158). -/
def execJoin (s : State) : Host.Outcome State Fault Refusal := waitIn .join false s

/-- BRK: the path's lanes leave its d innermost tokens (R159). -/
def execBrk (depth : BitVec 3) (disp : BitVec 21) (s : State) : Host.Outcome State Fault Refusal :=
  issueCtl (.brk depth disp) s fun f =>
    let d := depth.toNat + 1
    let m := f.path.mask
    let toks := allTokens f.stand f.cord
    let mine := ((List.range toks.length).zip toks).filter fun x => x.2.m &&& m ≠ 0
    let inner := mine.take d
    if mine.length < d ∨ inner.any (fun x => x.2.call) = true then .error (.own { code := .tokenMismatch })
    else
      tokenEvent s.clock f.stand (f.cord.setSlot f.slotB (some (f.path.next (branchTo f.path.pc disp))))
        fun k x =>
          if inner.any (fun y => y.1 = k) then some { x with m := x.m &&& ~~~m, w := x.w &&& ~~~m } else none

/-- The last lane of a cord has exited (R160): bindings and memberships end, unmatched MCDRAINs and flume waits are
withdrawn (R220, R341). -/
def State.finishCord (s : State) (st : Stand) (c : Cord) : State :=
  let s := s.releaseCord st c
  let drains := s.works.filter fun i => match i.work with
    | .copy t _ _ (.drain _ _) => t.sid = st.sid && t.cord = c.id
    | _ => false
  let s := drains.foldl (fun s i => s.dropWork i.id) s
  let marks := drains.filterMap fun i => i.work.dest?.map Dest.d
  s.modCord st.sid c.id fun x =>
    { (marks.foldl (fun x d => x.unmarkV [d, d + 1]) x) with allow := List.replicate 8 none, crews := [] }

/-- EXIT ends every lane of the path (R160). -/
def execExit (s : State) : Host.Outcome State Fault Refusal :=
  issue .exit s fun f =>
    let m := f.path.mask
    let c := { f.cord with exited := f.cord.exited ||| m }.setSlot f.slotB none
    match tokenEvent s.clock f.stand c fun _ x =>
        if x.m &&& m ≠ 0 ∨ x.w &&& m ≠ 0 then some { x with m := x.m &&& ~~~m, w := x.w &&& ~~~m } else none with
    | .error (.own t) => .trap s t
    | .error (.moved st c t pc b) =>
      let v := s.trapVal t
      let c := c.setTrap t v 0 pc
      .done ((s.seat (st.modCord c.id fun _ => c)).endContext st.die st.ctx t.code.num
        (faultEvent 1 st c.id b t v pc))
    | .ok (st, c) =>
      if s.spillBad f.stand f.cord c then .trap s { code := .memError }
      else if c.exited = BitVec.allOnes 32 then .done ((s.seat (st.modCord c.id fun _ => c)).finishCord st c)
      else .done (s.settle st c f.slotB)

/-- YIELD: the path goes to the pending tail and the head takes its slot; with an empty queue it acts as HYLD (R160). -/
def execYield (s : State) : Host.Outcome State Fault Refusal :=
  issueCtl .yield s fun f =>
    let p := { f.path.next (f.path.pc + 4) with yielded := true }
    if f.cord.pending = [] then .ok (f.stand, f.cord.setSlot f.slotB (some p))
    else
      match pendTail s.clock f.stand (f.cord.setSlot f.slotB none) p.pc p.mask with
      | .error e => .error e
      | .ok (st, c) => promoteInto s.clock f.slotB st c

/-- AGEING_SWAP: the head of the pending queue, older than AGELIM, takes the slot of the youngest live path, whose wait
is withdrawn first; both paths stand outside every chain and prefix group (R138, R152, R153). The former path joins the
tail, and then the head goes live and the hardware is refilled. Of two paths that became live in one cycle the one in slot
B counts as younger (DESIGN CHOICE, log 76), and what is left of the former path's HSTL stall is dropped (DESIGN CHOICE,
log 77). -/
def execAgeingSwap (sid cord : Nat) (s : State) : Host.Outcome State Fault Refusal :=
  let s := s.unfocus
  match s.stand? sid with
  | none => .next s
  | some st0 =>
    match st0.cord? cord with
    | none => .next s
    | some c0 =>
      let limit := (s.core st0.die st0.core).agelim.toNat
      let b : Bool := match c0.slotA, c0.slotB with
        | some x, some y => decide (x.liveSince ≤ y.liveSince)
        | _, y => y.isSome
      let due := c0.pending.head?.any fun p => decide (limit < p.ageAt s.clock)
      let free := (c0.slotA.toList ++ c0.slotB.toList).all fun p => !s.inGroup st0 p
      if due && free then
        let s := s.withdraw sid cord b
        match s.stand? sid with
        | none => .next s
        | some st =>
          match st.cord? cord with
          | none => .next s
          | some c =>
            let r : Ctl := match c.slot b with
              | some p =>
                match pendTail s.clock st (c.setSlot b none) p.pc p.mask with
                | .error e => .error e
                | .ok (st, c) => promoteInto s.clock b st c
              | none => .ok (st, c)
            match r with
            | .ok (st', c') =>
              if s.spillBad st c c' then
                .next (s.trapInFlight ⟨sid, cord, b, ((c.slot b).map Path.restart).getD 0, 0, 0⟩ { code := .memError })
              else .next ((s.mendSpill st c c').modStand sid fun _ => st'.modCord cord fun _ => c')
            | .error e =>
              let (t, pc) : Trap × Pc := match e with
                | .own t => (t, ((c.slot b).map Path.pc).getD 0)
                | .moved _ _ t pc _ => (t, pc)
              .next (s.trapInFlight ⟨sid, cord, b, pc, 0, 0⟩ t)
      else .next s

/-! ### Predicate logic and votes -/

/-- Predicate logic: bits of the path's lanes (R161). -/
def predOp (i : Instr) (d : SCode) (g : Focus → Mask) (s : State) : Host.Outcome State Fault Refusal :=
  issueCord i s fun f => f.cord.writeP d.toNat f.path.mask (g f)

/-- PAND (R161). -/
def execPand (o : S3) (s : State) : Host.Outcome State Fault Refusal :=
  predOp (.pand o) o.d (fun f => f.cord.pred o.a.toNat &&& f.cord.pred o.b.toNat) s
/-- POR (R161). -/
def execPor (o : S3) (s : State) : Host.Outcome State Fault Refusal :=
  predOp (.por o) o.d (fun f => f.cord.pred o.a.toNat ||| f.cord.pred o.b.toNat) s
/-- PXOR (R161). -/
def execPxor (o : S3) (s : State) : Host.Outcome State Fault Refusal :=
  predOp (.pxor o) o.d (fun f => f.cord.pred o.a.toNat ^^^ f.cord.pred o.b.toNat) s
/-- PANDN (R161). -/
def execPandn (o : S3) (s : State) : Host.Outcome State Fault Refusal :=
  predOp (.pandn o) o.d (fun f => f.cord.pred o.a.toNat &&& ~~~(f.cord.pred o.b.toNat)) s
/-- PNOT (R161). -/
def execPnot (d a : SCode) (s : State) : Host.Outcome State Fault Refusal :=
  predOp (.pnot d a) d (fun f => ~~~(f.cord.pred a.toNat)) s
/-- PMOV (R161). -/
def execPmov (d a : SCode) (s : State) : Host.Outcome State Fault Refusal :=
  predOp (.pmov d a) d (fun f => f.cord.pred a.toNat) s

/-- VOTE.ALL (R162). -/
def execVoteAll (d p : VCode) (s : State) : Host.Outcome State Fault Refusal :=
  issueCord (.voteAll d p) s fun f =>
    let a := f.active
    f.cord.writeP d.toNat a (if a &&& ~~~(f.cord.pred p.toNat) = 0 then BitVec.allOnes 32 else 0)
/-- VOTE.ANY (R162). -/
def execVoteAny (d p : VCode) (s : State) : Host.Outcome State Fault Refusal :=
  issueCord (.voteAny d p) s fun f =>
    let a := f.active
    f.cord.writeP d.toNat a (if a &&& f.cord.pred p.toNat ≠ 0 then BitVec.allOnes 32 else 0)
/-- VOTE.BAL: the ballot of the active lanes, in each of them (R162). -/
def execVoteBal (d p : VCode) (s : State) : Host.Outcome State Fault Refusal :=
  issueCord (.voteBal d p) s fun f =>
    let a := f.active
    if a = 0 then f.cord
    else f.cord.writeV d.toNat a (fun _ => a &&& f.cord.pred p.toNat) .uniform

/-! ### The LFSR as a program reads it -/

/-- RDSEED (R163). -/
def execRdseed (r : SCode) (s : State) : Host.Outcome State Fault Refusal :=
  issueCord (.rdseed r) s fun f => f.cord.writeS r (f.cord.lfsr.zeroExtend 64)

/-- WRSEED (R163). -/
def execWrseed (r : SCode) (s : State) : Host.Outcome State Fault Refusal :=
  issueCord (.wrseed r) s fun f =>
    let x : Word := (f.cord.sreg r).truncate 32
    { f.cord with lfsr := if x = 0 then 1 else x }

end Sys2Proof.Machine
end

