-- ==== Sys2Proof/Machine/Flags.lean ====
section
/-! DEFINITION. Number formats, exact arithmetic, rounding and every FPSTAT flag (04_float.md R111 to R119). -/

namespace Sys2Proof.Machine

/-- A float format (R111): exponent and mantissa bits, bias, whether it has infinities, and its NaN, if any. -/
structure FloatFmt where
  e : Nat
  m : Nat
  bias : Nat
  hasInf : Bool
  /-- Default NaN (R112); none for E2M1. -/
  nan : Option Nat
  deriving DecidableEq, Repr

def FloatFmt.f32 : FloatFmt := ⟨8, 23, 127, true, some 0x7FC00000⟩
def FloatFmt.f16 : FloatFmt := ⟨5, 10, 15, true, some 0x7E00⟩
def FloatFmt.bf16 : FloatFmt := ⟨8, 7, 127, true, some 0x7FC0⟩
def FloatFmt.e4m3 : FloatFmt := ⟨4, 3, 7, false, some 0x7F⟩
def FloatFmt.e5m2 : FloatFmt := ⟨5, 2, 15, true, some 0x7E⟩
def FloatFmt.e2m1 : FloatFmt := ⟨2, 1, 1, false, none⟩

/-- Bits of a value of the format. -/
def FloatFmt.width (f : FloatFmt) : Nat := 1 + f.e + f.m

/-- Bit pattern of an infinity, of the largest finite value, and of the sign. -/
def FloatFmt.infBits (f : FloatFmt) : Nat := (2 ^ f.e - 1) * 2 ^ f.m
def FloatFmt.maxBits (f : FloatFmt) : Nat :=
  if f.hasInf then f.infBits - 1 else if f.nan.isSome then 2 ^ (f.e + f.m) - 2 else 2 ^ (f.e + f.m) - 1
def FloatFmt.signBit (f : FloatFmt) (neg : Bool) : Nat := if neg then 2 ^ (f.e + f.m) else 0

/-- Exponent of the last place of the smallest numbers: 1 - bias - M. -/
def FloatFmt.qmin (f : FloatFmt) : Int := 1 - (f.bias : Int) - f.m

/-- A value as an operation sees it: NaN, with whether it raises NV; an infinity; or ±n × 2^e exactly. -/
inductive Num
  | nan (nv : Bool)
  | inf (neg : Bool)
  | num (neg : Bool) (n : Nat) (e : Int)
  deriving DecidableEq, Repr

/-- The value of a bit pattern (R111, R112): a signalling NaN raises NV. -/
def FloatFmt.value (f : FloatFmt) (bits : Nat) : Num :=
  let neg := decide (bits / 2 ^ (f.e + f.m) % 2 = 1)
  let x := bits / 2 ^ f.m % 2 ^ f.e
  let m := bits % 2 ^ f.m
  if f.hasInf ∧ x = 2 ^ f.e - 1 then
    if m = 0 then .inf neg else .nan (decide (m < 2 ^ (f.m - 1)))
  else if ¬f.hasInf ∧ f.nan.isSome ∧ bits % 2 ^ (f.e + f.m) = 2 ^ (f.e + f.m) - 1 then .nan false
  else if x = 0 then .num neg m f.qmin
  else .num neg (2 ^ f.m + m) (f.qmin + x - 1)

/-! ### Flags (R119) -/

abbrev Flags := BitVec 6

def flagNV : Flags := 0x01
def flagDZ : Flags := 0x02
def flagOF : Flags := 0x04
def flagUF : Flags := 0x08
def flagINEX : Flags := 0x10
def flagSAT : Flags := 0x20

/-- Flags of several results. -/
def orFlags (l : List Flags) : Flags := l.foldl (· ||| ·) 0

/-! ### Rounding -/

/-- Draw of stochastic rounding (R116). -/
def rsDraw (l : Word) (lane el : Nat) : Nat :=
  let h := l + 0x9E3779B9 * BitVec.ofNat 32 (lane * 4 + el + 1)
  let h := (h ^^^ (h >>> 16)) * 0x85EBCA6B
  (h ^^^ (h >>> 13)).toNat

/-- A magnitude n × 2^e, a little more when `sticky`, cut at 2^q: the whole part, and the part cut off as a fraction
num / 2^den, with its own stickiness (R114). -/
def cut (n : Nat) (e q : Int) : Nat × Nat × Nat :=
  if q ≤ e then (n * 2 ^ (e - q).toNat, 0, 0)
  else
    let d := (q - e).toNat
    (n / 2 ^ d, n % 2 ^ d, d)

/-- Whether a cut magnitude rounds away from zero (R114, R116). -/
def roundsUp (r : Rnd) (neg : Bool) (t frac d : Nat) (sticky : Bool) (h : Nat) : Bool :=
  let inexact := decide (frac ≠ 0) || sticky
  match r with
  | .rne =>
    if d = 0 then false
    else if frac = 2 ^ (d - 1) ∧ sticky = false then decide (t % 2 = 1) else decide (2 ^ (d - 1) ≤ frac)
  | .rz => false
  | .rp => inexact && !neg
  | .rm => inexact && neg
  | .rs => decide (h * 2 ^ d < frac * 2 ^ 32)

/-- Result of an overflow (R115): its bits and its flags. -/
def overflowBits (f : FloatFmt) (r : Rnd) (sat neg up : Bool) : Nat × Flags :=
  if sat ∨ f.nan.isNone then (f.signBit neg + f.maxBits, flagSAT ||| flagINEX)
  else
    let toInf : Bool := match r with
      | .rne => true
      | .rz => false
      | .rp => !neg
      | .rm => neg
      | .rs => up
    (f.signBit neg + (if toInf then (if f.hasInf then f.infBits else f.maxBits + 1) else f.maxBits),
      flagOF ||| flagINEX)

/-- Rounds ±n × 2^e (a little more when `sticky`) to a format (R113 to R117). -/
def roundNum (f : FloatFmt) (r : Rnd) (sat : Bool) (h : Nat) (neg : Bool) (n : Nat) (e : Int) (sticky : Bool) :
    Nat × Flags :=
  if n = 0 ∧ sticky = false then (f.signBit neg, 0)
  else
    let q := max ((Nat.log2 n : Int) + e - f.m) f.qmin
    let c := cut n e q
    let up := roundsUp r neg c.1 c.2.1 c.2.2 sticky h
    let k := if up then c.1 + 1 else c.1
    let inexact := decide (c.2.1 ≠ 0) || sticky
    -- the code of k × 2^q: a carry out of the mantissa raises the exponent field
    let code := (q - f.qmin).toNat * 2 ^ f.m + k
    if f.maxBits < code then overflowBits f r sat neg up
    else
      (f.signBit neg + code,
        (if inexact then flagINEX else 0) ||| (if inexact ∧ code < 2 ^ f.m then flagUF else 0))

/-- Rounds an exact result by round_rne; a NaN is the default NaN (R112, R113). -/
def Num.toFmt (f : FloatFmt) : Num → Nat × Flags
  | .nan nv => (f.nan.getD 0, if nv then flagNV else 0)
  | .inf neg => if f.hasInf then (f.signBit neg + f.infBits, 0) else (f.signBit neg + f.maxBits + 1, 0)
  | .num neg n e => roundNum f .rne false 0 neg n e false

/-! ### Exact arithmetic -/

/-- The signed whole number of a finite value in units of 2^q, for q at most its exponent. -/
def Num.units (q : Int) : Num → Int
  | .num neg n e => let k : Int := (n * 2 ^ (e - q).toNat : Nat); if neg then -k else k
  | _ => 0

def Num.expo : Num → Int
  | .num _ _ e => e
  | _ => 0

/-- −x. -/
def Num.neg : Num → Num
  | .nan nv => .nan nv
  | .inf s => .inf !s
  | .num s n e => .num (!s) n e

def Num.isNeg : Num → Bool
  | .nan _ => false
  | .inf s | .num s _ _ => s

def Num.isNan : Num → Bool
  | .nan _ => true
  | _ => false

def Num.isInf : Num → Bool
  | .inf _ => true
  | _ => false

def Num.raises : Num → Bool
  | .nan nv => nv
  | _ => false

def Num.isZero : Num → Bool
  | .num _ 0 _ => true
  | _ => false

/-- Exact product; ±0 × ±∞ is a NaN with NV (R122). -/
def Num.mul (a b : Num) : Num :=
  match a, b with
  | .num s n e, .num s' n' e' => .num (s != s') (n * n') (e + e')
  | _, _ =>
    if (a.isZero ∧ b.isInf) ∨ (a.isInf ∧ b.isZero) then .nan true
    else if a.isNan ∨ b.isNan then .nan (a.raises || b.raises)
    else .inf (a.isNeg != b.isNeg)

/-- Exact sum of terms: infinities of opposite sign make a NaN with NV; an exact zero is +0 unless every term is −0
(R113, R122 to R124). -/
def sumNums (l : List Num) : Num :=
  if l.any Num.isNan then
    .nan (l.any Num.raises || (l.any (fun x => x.isInf && x.isNeg) && l.any fun x => x.isInf && !x.isNeg))
  else if l.any Num.isInf then
    if l.any (fun x => x.isInf && x.isNeg) && l.any (fun x => x.isInf && !x.isNeg) then .nan true
    else .inf (l.any fun x => x.isInf && x.isNeg)
  else
    let q := (l.map Num.expo).foldl min ((l.map Num.expo).headD 0)
    let t := (l.map (Num.units q)).foldl (· + ·) 0
    if t = 0 then .num (l.all Num.isNeg && !l.isEmpty) 0 q else .num (decide (t < 0)) t.natAbs q

/-- a < b of values that are not NaN, −0 equal to +0. -/
def Num.lt (a b : Num) : Bool :=
  match a, b with
  | .inf s, .inf s' => s && !s'
  | .inf s, _ => s
  | _, .inf s => !s
  | _, _ => let q := min a.expo b.expo; decide (a.units q < b.units q)

/-- a = b of values that are not NaN, −0 equal to +0. -/
def Num.eqv (a b : Num) : Bool := !a.lt b && !b.lt a

/-- Integer square root: the bits of the root from place k down. -/
def isqrt (n : Nat) : Nat → Nat → Nat
  | 0, r => r
  | k + 1, r => isqrt n k (if (r + 2 ^ k) * (r + 2 ^ k) ≤ n then r + 2 ^ k else r)

/-- Elements of a lane in a format, lowest first (R81). -/
def elems (f : FloatFmt) (w : Word) : List Nat :=
  (List.range (32 / f.width)).map fun k => w.toNat / 2 ^ (f.width * k) % 2 ^ f.width

/-- A lane packed from its elements, lowest first (R81). -/
def packLane (f : FloatFmt) (l : List Nat) : Word :=
  BitVec.ofNat 32 (l.reverse.foldl (fun acc x => acc * 2 ^ f.width + x % 2 ^ f.width) 0)

/-- Format of a V-format float type (R54). -/
def ftyFmt : FTy → FloatFmt
  | .f32 => .f32
  | .f16 => .f16
  | .bf16 => .bf16
  | .e4m3 => .e4m3

def fty3Fmt : FTy3 → FloatFmt
  | .f32 => .f32
  | .f16 => .f16
  | .bf16 => .bf16

def fimmFmt : FImmTy → FloatFmt
  | .f32 => .f32
  | .f16 => .f16
  | .e4m3 => .e4m3

/-- F32 sum rounded by round_rne, with its flags (R113). -/
def f32Add (a b : Word) : Word × Flags :=
  let r := (sumNums [FloatFmt.f32.value a.toNat, FloatFmt.f32.value b.toNat]).toFmt .f32
  (BitVec.ofNat 32 r.1, r.2)

end Sys2Proof.Machine
end

