-- ==== Sys2Proof/Machine/VecInt.lean ====
section
/-! DEFINITION. The vector integer instructions (03_integer_scalar.md R97 to R110). -/

namespace Sys2Proof.Machine

/-- An element operation at an element type: on the elements read signed or unsigned, keeping the low bits (R97, R99). -/
def intOp (t : IntTy) (op : Nat → Int → Int → Int) (a b : Word) : Word :=
  let lo (x : Word) : BitVec 16 := x.extractLsb' 0 16
  let hi (x : Word) : BitVec 16 := x.extractLsb' 16 16
  match t with
  | .i32 => BitVec.ofInt 32 (op 32 a.toInt b.toInt)
  | .n32 => BitVec.ofInt 32 (op 32 a.toNat b.toNat)
  | .i16 => BitVec.ofInt 16 (op 16 (hi a).toInt (hi b).toInt) ++ BitVec.ofInt 16 (op 16 (lo a).toInt (lo b).toInt)
  | .n16 => BitVec.ofInt 16 (op 16 (hi a).toNat (hi b).toNat) ++ BitVec.ofInt 16 (op 16 (lo a).toNat (lo b).toNat)

/-- 32-bit element types (R81). -/
def intWide : IntTy → Bool
  | .i32 | .n32 => true
  | _ => false

/-- Tag of a result that is uniform of uniform sources, and general otherwise (R85). -/
def tagU (a b : Tag) : Tag := if a = .uniform ∧ b = .uniform then .uniform else .general

/-- Tag of a sum or difference (R85): affine sources add their progressions. -/
def tagSum (wide : Bool) (a b : Tag) : Tag :=
  match a, b with
  | .uniform, .uniform => .uniform
  | .general, _ | _, .general => .general
  | _, _ => if wide then .affine else .general

/-- Tag of a product (R85). -/
def tagMul (wide : Bool) (a b : Tag) : Tag :=
  match a, b with
  | .uniform, .uniform => .uniform
  | .affine, .uniform | .uniform, .affine => if wide then .affine else .general
  | _, _ => .general

/-- Tag of IMAD (R85): the product's tag, then the sum with c. -/
def tagMad (a b c : Tag) : Tag := tagSum true (tagMul true a b) c

/-- Tag of SHL (R85). -/
def tagShl (wide : Bool) (a b : Tag) : Tag :=
  match a, b with
  | .uniform, .uniform => .uniform
  | .affine, .uniform => if wide then .affine else .general
  | _, _ => .general

/-- A V-format instruction of two permuted sources: its lane operation, and the tag from the sources' (R97). -/
def vec2 (i : Instr) (o : V2) (op : Word → Word → Word) (tag : Tag → Tag → Tag) (s : State) :
    Host.Outcome State Fault Refusal :=
  issueAlu i o.dst s fun f =>
    let r := (opndsOf i).isReader
    let a := f.psrc r o.a o.pa
    let b := f.psrc r o.b o.pb
    (fun l => op (a.lane l) (b.lane l), tag a.tag b.tag, 0)

/-- A V-format instruction of one permuted source. -/
def vec1 (i : Instr) (o : V1) (op : Word → Word) (tag : Tag → Tag) (s : State) : Host.Outcome State Fault Refusal :=
  issueAlu i o.dst s fun f =>
    let a := f.psrc (opndsOf i).isReader o.a o.pa
    (fun l => op (a.lane l), tag a.tag, 0)

/-- Tag of a unary result that is not a move (R85). -/
def tagU1 (a : Tag) : Tag := tagU a .uniform

/-- IADD (R99). -/
def execIadd (o : V2) (t : IntTy) (s : State) : Host.Outcome State Fault Refusal :=
  vec2 (.iadd o t) o (intOp t (fun _ x y => x + y)) (tagSum (intWide t)) s

/-- ISUB (R99). -/
def execIsub (o : V2) (t : IntTy) (s : State) : Host.Outcome State Fault Refusal :=
  vec2 (.isub o t) o (intOp t (fun _ x y => x - y)) (tagSum (intWide t)) s

/-- IMUL (R99). -/
def execImul (o : V2) (t : IntTy) (s : State) : Host.Outcome State Fault Refusal :=
  vec2 (.imul o t) o (intOp t (fun _ x y => x * y)) (tagMul (intWide t)) s

/-- IMULH (R99). -/
def execImulh (o : V2) (t : IntTy) (s : State) : Host.Outcome State Fault Refusal :=
  vec2 (.imulh o t) o (intOp t (fun w x y => x * y / 2 ^ w)) (tagU) s

/-- IMIN (R99). -/
def execImin (o : V2) (t : IntTy) (s : State) : Host.Outcome State Fault Refusal :=
  vec2 (.imin o t) o (intOp t (fun _ x y => min x y)) (tagU) s

/-- IMAX (R99). -/
def execImax (o : V2) (t : IntTy) (s : State) : Host.Outcome State Fault Refusal :=
  vec2 (.imax o t) o (intOp t (fun _ x y => max x y)) (tagU) s

/-- IMAD: a × b + c, low 32 bits (R100). -/
def execImad (o : F3) (s : State) : Host.Outcome State Fault Refusal :=
  issueAlu (.imad o) o.dst s fun f =>
    let r := (opndsOf (.imad o)).isReader
    let a := f.vsrc r o.a
    let b := f.vsrc r o.b
    let c := f.vsrc r o.c
    (fun l => a.lane l * b.lane l + c.lane l, tagMad a.tag b.tag c.tag, 0)

/-- The signed element type of a width. -/
def signedOf : ElW → IntTy
  | .w32 => .i32
  | .w16 => .i16

/-- IABS (R101). -/
def execIabs (o : V1) (w : ElW) (s : State) : Host.Outcome State Fault Refusal :=
  vec1 (.iabs o w) o (fun a => intOp (signedOf w) (fun _ x _ => (x.natAbs : Int)) a a) tagU1 s

/-- INEG (R101). -/
def execIneg (o : V1) (w : ElW) (s : State) : Host.Outcome State Fault Refusal :=
  vec1 (.ineg o w) o (fun a => intOp (signedOf w) (fun _ x _ => -x) a a) tagU1 s

/-- AND (R102). -/
def execAnd (o : V2) (s : State) : Host.Outcome State Fault Refusal := vec2 (.and o) o (· &&& ·) tagU s
/-- OR (R102). -/
def execOr (o : V2) (s : State) : Host.Outcome State Fault Refusal := vec2 (.or o) o (· ||| ·) tagU s
/-- XOR (R102). -/
def execXor (o : V2) (s : State) : Host.Outcome State Fault Refusal := vec2 (.xor o) o (· ^^^ ·) tagU s
/-- NOT (R102). -/
def execNot (o : V1) (s : State) : Host.Outcome State Fault Refusal := vec1 (.not o) o (~~~ ·) tagU1 s

/-- Number of 1 bits (R103). -/
def popCount (x : Word) : Nat := (lanes.filter fun k => x.getLsbD k).length
/-- 0 bits above the highest 1 bit; 32 for 0 (R103). -/
def leadZeros (x : Word) : Nat := (lanes.takeWhile fun k => !x.getLsbD (31 - k)).length
/-- 0 bits below the lowest 1 bit; 32 for 0 (R103). -/
def trailZeros (x : Word) : Nat := (lanes.takeWhile fun k => !x.getLsbD k).length
/-- Bit i of the result is bit 31 - i (R103). -/
def bitReverse (x : Word) : Word := Mask.ofLanes fun k => x.getLsbD (31 - k)

/-- POPC (R103). -/
def execPopc (o : V1) (s : State) : Host.Outcome State Fault Refusal :=
  vec1 (.popc o) o (fun x => BitVec.ofNat 32 (popCount x)) tagU1 s
/-- CLZ (R103). -/
def execClz (o : V1) (s : State) : Host.Outcome State Fault Refusal :=
  vec1 (.clz o) o (fun x => BitVec.ofNat 32 (leadZeros x)) tagU1 s
/-- CTZ (R103). -/
def execCtz (o : V1) (s : State) : Host.Outcome State Fault Refusal :=
  vec1 (.ctz o) o (fun x => BitVec.ofNat 32 (trailZeros x)) tagU1 s
/-- BREV (R103). -/
def execBrev (o : V1) (s : State) : Host.Outcome State Fault Refusal := vec1 (.brev o) o bitReverse tagU1 s

/-- A shift of an element by the corresponding element of b, read as unsigned (R104). -/
def shiftEl (w : ElW) (op : (n : Nat) → BitVec n → Nat → BitVec n) (a b : Word) : Word :=
  match w with
  | .w32 => op 32 a b.toNat
  | .w16 =>
    op 16 (a.extractLsb' 16 16) (b.extractLsb' 16 16).toNat ++ op 16 (a.extractLsb' 0 16) (b.extractLsb' 0 16).toNat

/-- Left and right shifts by k; 0 from the width on (R104). -/
def shlEl (n : Nat) (x : BitVec n) (k : Nat) : BitVec n := if k < n then x <<< k else 0
def shrEl (n : Nat) (x : BitVec n) (k : Nat) : BitVec n := if k < n then x >>> k else 0
def sraEl (n : Nat) (x : BitVec n) (k : Nat) : BitVec n := x.sshiftRight (min k n)
def rotEl (n : Nat) (x : BitVec n) (k : Nat) : BitVec n := x.rotateLeft (k % n)

/-- 32-bit elements. -/
def elWide : ElW → Bool
  | .w32 => true
  | .w16 => false

/-- SHL (R104). -/
def execShl (o : V2) (w : ElW) (s : State) : Host.Outcome State Fault Refusal :=
  vec2 (.shl o w) o (shiftEl w shlEl) (tagShl (elWide w)) s
/-- SHR (R104). -/
def execShr (o : V2) (w : ElW) (s : State) : Host.Outcome State Fault Refusal :=
  vec2 (.shr o w) o (shiftEl w shrEl) tagU s
/-- SRA (R104). -/
def execSra (o : V2) (w : ElW) (s : State) : Host.Outcome State Fault Refusal :=
  vec2 (.sra o w) o (shiftEl w sraEl) tagU s
/-- ROT (R104). -/
def execRot (o : V2) (w : ElW) (s : State) : Host.Outcome State Fault Refusal :=
  vec2 (.rot o w) o (shiftEl w rotEl) tagU s

/-- A compare condition on integers (R105). -/
def intCond (c : ICond) (x y : Int) : Bool :=
  match c with
  | .eq => decide (x = y)
  | .ne => decide (x ≠ y)
  | .lt => decide (x < y)
  | .le => decide (x ≤ y)
  | .gt => decide (y < x)
  | .ge => decide (y ≤ x)

/-- The condition at an element type; for 16-bit types, of both elements (R105). -/
def intHolds (t : IntTy) (c : ICond) (a b : Word) : Bool :=
  let lo (x : Word) : BitVec 16 := x.extractLsb' 0 16
  let hi (x : Word) : BitVec 16 := x.extractLsb' 16 16
  match t with
  | .i32 => intCond c a.toInt b.toInt
  | .n32 => intCond c a.toNat b.toNat
  | .i16 => intCond c (lo a).toInt (lo b).toInt && intCond c (hi a).toInt (hi b).toInt
  | .n16 => intCond c (lo a).toNat (lo b).toNat && intCond c (hi a).toNat (hi b).toNat

/-- ISET (R105). -/
def execIset (c : ICond) (o : VCmp) (t : IntTy) (s : State) : Host.Outcome State Fault Refusal :=
  issueCmp (.iset c o t) o.p s fun f =>
    let r := (opndsOf (.iset c o t)).isReader
    let a := f.psrc r o.a o.pa
    let b := f.psrc r o.b o.pb
    (Mask.ofLanes fun l => intHolds t c (a.lane l) (b.lane l), 0)

/-- SEL: a where the predicate's bit, negated or not, is 1, and b elsewhere; b is not permuted (R106, R85). -/
def execSel (dst : Dst) (a b : VCode) (pa : Perm) (p : BitVec 3) (neg : Bool) (s : State) :
    Host.Outcome State Fault Refusal :=
  issueAlu (.sel dst a b pa p neg) dst s fun f =>
    let r := (opndsOf (.sel dst a b pa p neg)).isReader
    let x := f.psrc r a pa
    let y := f.vsrc r b
    let q := if neg then ~~~(f.cord.pred p.toNat) else f.cord.pred p.toNat
    let t : Tag :=
      if q = BitVec.allOnes 32 then x.tag else if q = 0 then y.tag
      else if x.tag = .uniform ∧ y.tag = .uniform ∧ x.lane 0 = y.lane 0 then .uniform else .general
    (fun l => if q.getLsbD l then x.lane l else y.lane l, t, 0)

/-- MOV (R107). -/
def execMov (o : V1) (s : State) : Host.Outcome State Fault Refusal := vec1 (.mov o) o (fun a => a) (fun t => t) s

/-- An I-format instruction: D in each active lane from its old value and the immediate (R108). -/
def vecImm (i : Instr) (d : VCode) (imm : Focus → Word) (op : Word → Word → Word) (tag : Tag → Tag) (s : State) :
    Host.Outcome State Fault Refusal :=
  issueAlu i (.reg d) s fun f =>
    let a := f.cord.vreg d.toNat
    (fun l => op (a.lane l) (imm f), tag a.tag, 0)

/-- MOVI (R108). -/
def execMovi (d : VCode) (t : MoviTy) (imm : BitVec 16) (s : State) : Host.Outcome State Fault Refusal :=
  vecImm (.movi d t imm) d (fun f => match t with
    | .i32 => immInt f .i32 imm
    | .n32 => immInt f .n32 imm
    | .i16 => immInt f .i16 imm
    | .n16 => immInt f .n16 imm
    | .f32 => immFloat f .f32 imm
    | .f16 => immFloat f .f16 imm
    | .e4m3 => immFloat f .e4m3 imm) (fun _ x => x) (fun _ => .uniform) s

/-- IADDI (R108). -/
def execIaddi (d : VCode) (t : IntTy) (imm : BitVec 16) (s : State) : Host.Outcome State Fault Refusal :=
  vecImm (.iaddi d t imm) d (fun f => immInt f t imm) (intOp t fun _ x y => x + y)
    (fun a => tagSum (intWide t) a .uniform) s
/-- IMULI (R108). -/
def execImuli (d : VCode) (t : IntTy) (imm : BitVec 16) (s : State) : Host.Outcome State Fault Refusal :=
  vecImm (.imuli d t imm) d (fun f => immInt f t imm) (intOp t fun _ x y => x * y)
    (fun a => tagMul (intWide t) a .uniform) s
/-- ANDI (R108). -/
def execAndi (d : VCode) (imm : BitVec 16) (s : State) : Host.Outcome State Fault Refusal :=
  vecImm (.andi d imm) d (fun f => immInt f .n32 imm) (· &&& ·) tagU1 s
/-- ORI (R108). -/
def execOri (d : VCode) (imm : BitVec 16) (s : State) : Host.Outcome State Fault Refusal :=
  vecImm (.ori d imm) d (fun f => immInt f .n32 imm) (· ||| ·) tagU1 s
/-- XORI (R108). -/
def execXori (d : VCode) (imm : BitVec 16) (s : State) : Host.Outcome State Fault Refusal :=
  vecImm (.xori d imm) d (fun f => immInt f .n32 imm) (· ^^^ ·) tagU1 s

/-- LANEID: lane l holds l, tagged affine (R109, R85). -/
def execLaneid (dst : Dst) (s : State) : Host.Outcome State Fault Refusal :=
  issueAlu (.laneid dst) dst s fun _ => (fun l => BitVec.ofNat 32 l, .affine, 0)

/-- AFFINE: a + l × b (R109). -/
def execAffine (o : V2) (s : State) : Host.Outcome State Fault Refusal :=
  issueAlu (.affine o) o.dst s fun f =>
    let r := (opndsOf (.affine o)).isReader
    let a := f.psrc r o.a o.pa
    let b := f.psrc r o.b o.pb
    (fun l => a.lane l + BitVec.ofNat 32 l * b.lane l,
      if a.tag = .uniform ∧ b.tag = .uniform then .affine else .general, 0)

/-- Lane SHFL reads for lane l (R110). -/
def shflLane (m : ShflMode) (k : Word) (l : Nat) : Nat :=
  match m with
  | .idx => k.toNat % 32
  | .xor => l ^^^ (k.toNat % 32)
  | .up => if k.toNat ≤ l then l - k.toNat else l
  | .down => if l + k.toNat ≤ 31 then l + k.toNat else l

/-- SHFL (R110). -/
def execShfl (o : V2) (m : ShflMode) (s : State) : Host.Outcome State Fault Refusal :=
  issueAlu (.shfl o m) o.dst s fun f =>
    let r := (opndsOf (.shfl o m)).isReader
    let a := f.psrc r o.a o.pa
    let b := f.psrc r o.b o.pb
    (fun l => a.lane (shflLane m (b.lane l) l), if a.tag = .uniform then .uniform else .general, 0)

end Sys2Proof.Machine
end

