-- ==== Sys2Proof/Machine/Float.lean ====
section
/-! DEFINITION. The vector float instructions (04_float.md R122 to R134). -/

namespace Sys2Proof.Machine

/-- Tag of a float result of uniform sources, and of any other (R86). -/
def tagF (ts : List Tag) : Tag := if ts.all (fun t => t = .uniform) then .uniform else .general

/-- Issues a float instruction from its lane results with their flags, and its tag. A flag is set when an active lane
sets it (R119). -/
def issueFloat (i : Instr) (dst : Dst) (s : State) (g : Focus → (Nat → Word × Flags) × Tag) :
    Host.Outcome State Fault Refusal :=
  issueAlu i dst s fun f =>
    let r := g f
    (fun l => (r.1 l).1, r.2, orFlags ((Mask.toLanes f.active).map fun l => (r.1 l).2))

/-- An operation on each element of two lanes, packed again (R81). -/
def elemOp (k : FloatFmt) (op : Nat → Nat → Nat × Flags) (a b : Word) : Word × Flags :=
  let r := ((elems k a).zip (elems k b)).map fun x => op x.1 x.2
  (packLane k (r.map Prod.fst), orFlags (r.map Prod.snd))

/-- Arithmetic of two elements, rounded once (R113). -/
def arith (k : FloatFmt) (op : Num → Num → Num) (a b : Nat) : Nat × Flags := (op (k.value a) (k.value b)).toFmt k

/-- A two-source float instruction (R122). -/
def float2 (i : Instr) (o : V2) (k : FloatFmt) (op : Nat → Nat → Nat × Flags) (s : State) :
    Host.Outcome State Fault Refusal :=
  issueFloat i o.dst s fun f =>
    let r := (opndsOf i).isReader
    let a := f.psrc r o.a o.pa
    let b := f.psrc r o.b o.pb
    (fun l => elemOp k op (a.lane l) (b.lane l), tagF [a.tag, b.tag])

/-- FADD (R122). -/
def execFadd (o : V2) (t : FTy) (s : State) : Host.Outcome State Fault Refusal :=
  float2 (.fadd o t) o (ftyFmt t) (arith (ftyFmt t) fun a b => sumNums [a, b]) s

/-- FSUB (R122). -/
def execFsub (o : V2) (t : FTy) (s : State) : Host.Outcome State Fault Refusal :=
  float2 (.fsub o t) o (ftyFmt t) (arith (ftyFmt t) fun a b => sumNums [a, b.neg]) s

/-- FMUL (R122). -/
def execFmul (o : V2) (t : FTy) (s : State) : Host.Outcome State Fault Refusal :=
  float2 (.fmul o t) o (ftyFmt t) (arith (ftyFmt t) Num.mul) s

/-- The smaller or the larger of two elements, −0 < +0; a NaN gives the other source (R122). -/
def minMax (k : FloatFmt) (larger : Bool) (a b : Nat) : Nat × Flags :=
  let x := k.value a
  let y := k.value b
  let nv : Flags := if x.raises || y.raises then flagNV else 0
  if x.isNan && y.isNan then (k.nan.getD 0, nv)
  else if x.isNan then (b, nv)
  else if y.isNan then (a, nv)
  else
    let below := x.lt y || (x.eqv y && x.isNeg && !y.isNeg)
    (if below != larger then a else b, nv)

/-- FMIN (R122). -/
def execFmin (o : V2) (t : FTy) (s : State) : Host.Outcome State Fault Refusal :=
  float2 (.fmin o t) o (ftyFmt t) (minMax (ftyFmt t) false) s

/-- FMAX (R122). -/
def execFmax (o : V2) (t : FTy) (s : State) : Host.Outcome State Fault Refusal :=
  float2 (.fmax o t) o (ftyFmt t) (minMax (ftyFmt t) true) s

/-- A three-source float instruction on F32 lanes. -/
def float3 (i : Instr) (o : F3) (op : Word → Word → Word → Num) (s : State) : Host.Outcome State Fault Refusal :=
  issueFloat i o.dst s fun f =>
    let r := (opndsOf i).isReader
    let a := f.vsrc r o.a
    let b := f.vsrc r o.b
    let c := f.vsrc r o.c
    (fun l =>
      let x := (op (a.lane l) (b.lane l) (c.lane l)).toFmt .f32
      (BitVec.ofNat 32 x.1, x.2), tagF [a.tag, b.tag, c.tag])

/-- FFMA (R123). -/
def execFfma (o : F3) (s : State) : Host.Outcome State Fault Refusal :=
  float3 (.ffma o) o (fun a b c =>
    sumNums [(FloatFmt.f32.value a.toNat).mul (FloatFmt.f32.value b.toNat), FloatFmt.f32.value c.toNat]) s

/-- DOT2: an exact sum of two BF16 products and an F32 value, rounded once (R124). -/
def execDot2 (o : F3) (s : State) : Host.Outcome State Fault Refusal :=
  float3 (.dot2 o) o (fun a b c =>
    sumNums (((elems .bf16 a).zip (elems .bf16 b)).map (fun x =>
      (FloatFmt.bf16.value x.1).mul (FloatFmt.bf16.value x.2)) ++ [FloatFmt.f32.value c.toNat])) s

/-- A float operation of the destination and an immediate (R125). -/
def floatImm (i : Instr) (d : VCode) (t : FImmTy) (imm : BitVec 16) (op : Num → Num → Num) (s : State) :
    Host.Outcome State Fault Refusal :=
  issueFloat i (.reg d) s fun f =>
    let a := f.cord.vreg d.toNat
    let b := immFloat f t imm
    (fun l => elemOp (fimmFmt t) (arith (fimmFmt t) op) (a.lane l) b, tagF [a.tag])

/-- FADDI (R125). -/
def execFaddi (d : VCode) (t : FImmTy) (imm : BitVec 16) (s : State) : Host.Outcome State Fault Refusal :=
  floatImm (.faddi d t imm) d t imm (fun a b => sumNums [a, b]) s

/-- FMULI (R125). -/
def execFmuli (d : VCode) (t : FImmTy) (imm : BitVec 16) (s : State) : Host.Outcome State Fault Refusal :=
  floatImm (.fmuli d t imm) d t imm Num.mul s

/-- A value times 2^k. Beyond ±512 every k overflows, or loses every bit, as ±512 does. -/
def Num.scale (k : Int) : Num → Num
  | .num s n e => .num s n (e + max (-512) (min 512 k))
  | x => x

/-- FSCALE (R126). -/
def execFscale (o : V2) (t : FTy3) (s : State) : Host.Outcome State Fault Refusal :=
  issueFloat (.fscale o t) o.dst s fun f =>
    let r := (opndsOf (.fscale o t)).isReader
    let a := f.psrc r o.a o.pa
    let b := f.psrc r o.b o.pb
    let k := fty3Fmt t
    (fun l => elemOp k (fun x _ => ((k.value x).scale (b.lane l).toInt).toFmt k) (a.lane l) (a.lane l),
      tagF [a.tag, b.tag])

/-- Result of a float condition (R127). -/
def fcondHolds (c : FCond) (a b : Num) : Bool :=
  let nan := a.isNan || b.isNan
  match c with
  | .eq => !nan && a.eqv b
  | .ne => nan || !a.eqv b
  | .lt => !nan && a.lt b
  | .le => !nan && !b.lt a
  | .gt => !nan && b.lt a
  | .ge => !nan && !a.lt b
  | .un => nan
  | .ord => !nan

/-- FSET (R127). -/
def execFset (c : FCond) (o : VCmp) (t : FTy3) (s : State) : Host.Outcome State Fault Refusal :=
  issueCmp (.fset c o t) o.p s fun f =>
    let r := (opndsOf (.fset c o t)).isReader
    let k := fty3Fmt t
    let a := f.psrc r o.a o.pa
    let b := f.psrc r o.b o.pb
    let pairs (l : Nat) : List (Num × Num) :=
      ((elems k (a.lane l)).map k.value).zip ((elems k (b.lane l)).map k.value)
    (Mask.ofLanes fun l => (pairs l).all fun x => fcondHolds c x.1 x.2,
      if (Mask.toLanes f.active).any (fun l => (pairs l).any fun x => x.1.raises || x.2.raises) then flagNV else 0)

/-- A float instruction of one permuted source. -/
def float1 (i : Instr) (o : V1) (op : Word → Word × Flags) (s : State) : Host.Outcome State Fault Refusal :=
  issueFloat i o.dst s fun f =>
    let a := f.psrc (opndsOf i).isReader o.a o.pa
    (fun l => op (a.lane l), tagF [a.tag])

/-- Sign bits of the elements of a lane. -/
def signBits : FTy3 → Word
  | .f32 => 0x80000000
  | _ => 0x80008000

/-- FABS (R128). -/
def execFabs (o : V1) (t : FTy3) (s : State) : Host.Outcome State Fault Refusal :=
  float1 (.fabs o t) o (fun a => (a &&& ~~~(signBits t), 0)) s

/-- FNEG (R128). -/
def execFneg (o : V1) (t : FTy3) (s : State) : Host.Outcome State Fault Refusal :=
  float1 (.fneg o t) o (fun a => (a ^^^ signBits t, 0)) s

/-- A unary operation on an F32 value. -/
def unaryF32 (i : Instr) (o : V1) (op : Word → Num → Nat × Flags) (s : State) : Host.Outcome State Fault Refusal :=
  float1 i o (fun a =>
    let r := op a (FloatFmt.f32.value a.toNat)
    (BitVec.ofNat 32 r.1, r.2)) s

/-- Default NaN of F32, with NV or without. -/
def nanF32 (nv : Bool) : Nat × Flags := (0x7FC00000, if nv then flagNV else 0)

/-- Infinity and zero of F32 by sign. -/
def infF32 (neg : Bool) : Nat := FloatFmt.f32.signBit neg + 0x7F800000
def zeroF32 (neg : Bool) : Nat := FloatFmt.f32.signBit neg

/-- A number n × 2^e with an even exponent. -/
def evenExp (n : Nat) (e : Int) : Nat × Int := if e % 2 = 0 then (n, e) else (2 * n, e - 1)

/-- FSQRT (R128). -/
def sqrtF32 (_ : Word) : Num → Nat × Flags
  | .nan nv => nanF32 nv
  | .inf neg => if neg then nanF32 true else (infF32 false, 0)
  | .num neg n e =>
    if n = 0 then (zeroF32 neg, 0)
    else if neg then nanF32 true
    else
      let x := evenExp n e
      let m := x.1 * 2 ^ 60
      let r := isqrt m 48 0
      roundNum .f32 .rne false 0 false r (x.2 / 2 - 30) (decide (r * r ≠ m))

/-- FSQRT (R128). -/
def execFsqrt (o : V1) (s : State) : Host.Outcome State Fault Refusal := unaryF32 (.fsqrt o) o sqrtF32 s

/-! ### Transcendental results (R129, log 6) -/

/-- The free F32 value of an operation and a source. -/
def freeF32 (op : Nat) (a : Word) : Nat := (Config.freeTranscend op a).toNat

/-- One of the two F32 values that bracket ±n × 2^e (a little more when `sticky`): the free one where it is one of
them. A result beyond the largest finite value is infinite. -/
def bracket (op : Nat) (a : Word) (neg : Bool) (n : Nat) (e : Int) (sticky : Bool) : Nat × Flags :=
  let away : Rnd := if neg then .rm else .rp
  let lo := (roundNum .f32 .rz false 0 neg n e sticky).1
  let hi := (roundNum .f32 away false 0 neg n e sticky).1
  let beyond := decide (lo = zeroF32 neg + 0x7F7FFFFF) && hi != lo
  if beyond then (infF32 neg, 0) else (if freeF32 op a = hi then hi else lo, 0)

/-- FRCP (R128, R129). -/
def rcpF32 (a : Word) : Num → Nat × Flags
  | .nan nv => nanF32 nv
  | .inf neg => (zeroF32 neg, 0)
  | .num neg n e =>
    if n = 0 then (infF32 neg, flagDZ)
    else bracket 4 a neg (2 ^ 80 / n) (-e - 80) (decide (2 ^ 80 % n ≠ 0))

/-- FRSQ (R128, R129). -/
def rsqF32 (a : Word) : Num → Nat × Flags
  | .nan nv => nanF32 nv
  | .inf neg => if neg then nanF32 true else (zeroF32 false, 0)
  | .num neg n e =>
    if n = 0 then (infF32 neg, flagDZ)
    else if neg then nanF32 true
    else
      let x := evenExp n e
      let r := isqrt (2 ^ 120 / x.1) 61 0
      bracket 3 a false r (-x.2 / 2 - 60) (decide (r * r * x.1 ≠ 2 ^ 120))

/-- FRCP (R128). -/
def execFrcp (o : V1) (s : State) : Host.Outcome State Fault Refusal := unaryF32 (.frcp o) o rcpF32 s
/-- FRSQ (R128). -/
def execFrsq (o : V1) (s : State) : Host.Outcome State Fault Refusal := unaryF32 (.frsq o) o rsqF32 s

/-- π and ln 2 in units of 2^-128. -/
def piFix : Nat := 0x3243f6a8885a308d313198a2e03707344
def ln2Fix : Nat := 0xb17217f7d1cf79abc9e3b39803f2f6af

/-- A magnitude n × 2^e in units of 2^-128. -/
def toFix (n : Nat) (e : Int) : Nat := if -128 ≤ e then n * 2 ^ (e + 128).toNat else n / 2 ^ (-128 - e).toNat

/-- Terms k, k + 1, … of the exponential series of x, added to `acc`. -/
def expSeries (x : Nat) : Nat → Nat → Nat → Nat → Nat
  | 0, _, _, acc => acc
  | fuel + 1, k, term, acc =>
    let t := term * x / 2 ^ 128 / k
    expSeries x fuel (k + 1) t (acc + t)

/-- 2^f for a fraction f, in units of 2^-128. -/
def exp2Frac (f : Nat) : Nat := expSeries (f * ln2Fix / 2 ^ 128) 40 1 (2 ^ 128) (2 ^ 128)

/-- 2^±a for a in units of 2^-128. -/
def exp2Num (neg : Bool) (a : Nat) : Num :=
  let i : Int := (a / 2 ^ 128 : Nat)
  let f := a % 2 ^ 128
  if neg = false then .num false (exp2Frac f) (i - 128)
  else if f = 0 then .num false 1 (-i)
  else .num false (exp2Frac (2 ^ 128 - f)) (-i - 129)

/-- Bits of the fraction of a base-2 logarithm, by squaring x in units of 2^-256. -/
def log2Bits : Nat → Nat → Nat → Nat
  | 0, _, acc => acc
  | fuel + 1, x, acc =>
    let y := x * x / 2 ^ 256
    if 2 ^ 257 ≤ y then log2Bits fuel (y / 2) (2 * acc + 1) else log2Bits fuel y (2 * acc)

/-- log2 of n × 2^e in units of 2^-128. -/
def log2Fix (n : Nat) (e : Int) : Int :=
  let l := Nat.log2 n
  ((l : Int) + e) * 2 ^ 128 + (log2Bits 128 (n * 2 ^ (256 - l)) 0 : Nat)

/-- Terms of an alternating series in steps of two, from the term of degree k. -/
def sinSeries (x2 : Int) : Nat → Int → Int → Int → Int
  | 0, _, _, acc => acc
  | fuel + 1, k, term, acc =>
    let t := -(term * x2 / 2 ^ 128 / ((k + 1) * (k + 2)))
    sinSeries x2 fuel (k + 2) t (acc + t)

/-- sin and cos of an angle in units of 2^-128. -/
def sinFix (a : Nat) : Int :=
  let x : Int := (a % (2 * piFix) : Nat)
  sinSeries (x * x / 2 ^ 128) 40 1 x x
def cosFix (a : Nat) : Int :=
  let x : Int := (a % (2 * piFix) : Nat)
  sinSeries (x * x / 2 ^ 128) 40 0 (2 ^ 128) (2 ^ 128)

/-- tanh of a magnitude in units of 2^-128: (1 - q) / (1 + q) for q = 2^(-2a / ln 2). -/
def tanhFix (a : Nat) : Nat :=
  if 100 * 2 ^ 128 ≤ a then 2 ^ 128
  else
    let q := match exp2Num true (2 * a * 2 ^ 128 / ln2Fix) with
      | .num _ n e => toFix n e
      | _ => 0
    (2 ^ 128 - q) * 2 ^ 128 / (2 ^ 128 + q)

/-- A value in units of 2^-128. -/
def fixNum (x : Int) : Num := .num (decide (x < 0)) x.natAbs (-128)

/-- Unit in the last place of F32 at a value. -/
def ulpF32 : Num → Num
  | .num _ n e => .num false 1 (max ((Nat.log2 n : Int) + e - 23) (-149))
  | x => x

/-- |x − y| ≤ tol. -/
def within (x y tol : Num) : Bool :=
  match sumNums [x, y.neg], tol with
  | .num _ n e, .num _ k q => !(Num.lt (.num false k q) (.num false n e))
  | _, _ => false

/-- A value of magnitude at most 1. -/
def inUnit (x : Num) : Bool := match x with | .num _ n e => !(Num.lt (.num false 1 0) (.num false n e)) | _ => false

/-- The free value of an operation and a source where it lies within `tol` of the exact result, else a bound of that
result rounded. The exact result lies between the two bounds, and has the first one's unit in the last place. -/
def near (op : Nat) (a : Word) (b : Num × Num) (tol : Num) (ok : Num → Bool) : Nat :=
  let c := freeF32 op a
  let v := FloatFmt.f32.value c
  if ok v && within v b.1 tol && within v b.2 tol then c else (b.1.toFmt .f32).1

/-- Two units in the last place. -/
def twoUlps (x : Num) : Num := match ulpF32 x with | .num s n e => .num s (2 * n) e | y => y

/-- Bounds of 2^±a, for a from m to m + 1 in units of 2^-128. -/
def exp2Bounds (neg : Bool) (m : Nat) : Num × Num :=
  let i : Int := (m / 2 ^ 128 : Nat)
  let f := m % 2 ^ 128
  if neg = false then (.num false (exp2Frac f) (i - 128), .num false (exp2Frac f + 2 ^ 10) (i - 128))
  else
    (.num false (exp2Frac (2 ^ 128 - f - 1)) (-i - 129),
      if f = 0 then .num false 1 (-i) else .num false (exp2Frac (2 ^ 128 - f) + 2 ^ 10) (-i - 129))

/-- Bounds about a value in units of 2^-128 that the model's arithmetic has to some of them. -/
def fixBounds (x : Int) : Num × Num := (fixNum (x - 2 ^ 18), fixNum (x + 2 ^ 18))

/-- Bounds of the sine, the cosine and the hyperbolic tangent of an angle from m to m + 1 in units of 2^-128, the small
ones by their first terms. -/
def sinBounds (m : Nat) : Num × Num := if m < 2 ^ 40 then (fixNum 0, fixNum (m + 1)) else fixBounds (sinFix m)
def cosBounds (m : Nat) : Num × Num :=
  if m < 2 ^ 78 then (fixNum (2 ^ 128 - 2 ^ 28), fixNum (2 ^ 128)) else fixBounds (cosFix m)
def tanhBounds (m : Nat) : Num × Num :=
  if m < 2 ^ 40 then (fixNum 0, fixNum (m + 1))
  else ((fixBounds (tanhFix m)).1, fixNum (min ((tanhFix m : Int) + 2 ^ 18) (2 ^ 128)))

/-- FEXP2 (R128, R129). -/
def exp2F32 (a : Word) : Num → Nat × Flags
  | .nan nv => nanF32 nv
  | .inf neg => (if neg then zeroF32 false else infF32 false, 0)
  | .num neg n e =>
    if neg = false ∧ Num.lt (.num false n e) (.num false 128 0) = false then (infF32 false, 0)
    else if neg = true ∧ Num.lt (.num false 150 0) (.num false n e) = true then (zeroF32 false, 0)
    else if n = 0 then (0x3F800000, 0)
    else
      let m := toFix n e
      let x := exp2Num neg m
      let whole := decide (0 ≤ e) || decide (n % 2 ^ (-e).toNat = 0)
      if whole && decide (m / 2 ^ 128 < 150) then
        ((x.toFmt .f32).1, 0)
      else
        let b := exp2Bounds neg m
        (near 5 a b (twoUlps b.1) fun _ => true, 0)

/-- FLOG2 (R128, R129). -/
def log2F32 (a : Word) : Num → Nat × Flags
  | .nan nv => nanF32 nv
  | .inf neg => if neg then nanF32 true else (infF32 false, 0)
  | .num neg n e =>
    if n = 0 then (infF32 true, flagDZ)
    else if neg then nanF32 true
    else
      let x := fixNum (log2Fix n e)
      if n = 2 ^ Nat.log2 n then ((x.toFmt .f32).1, 0)
      else
        let low := !(Num.lt (.num false n e) (.num false 1 (-1))) && !(Num.lt (.num false 2 0) (.num false n e))
        (near 6 a (fixBounds (log2Fix n e)) (if low then .num false 1 (-22) else twoUlps x) fun _ => true, 0)

/-- FSIN and FCOS of a finite value (R129). -/
def trigF32 (op : Nat) (a : Word) (x : Nat → Num × Num) (n : Nat) (e : Int) : Nat :=
  if Num.lt (.num false (2 ^ 16) 0) (.num false n e) then
    let c := freeF32 op a
    if inUnit (FloatFmt.f32.value c) then c else 0
  else near op a (x (toFix n e)) (.num false 1 (-22)) fun _ => true

/-- FSIN (R128, R129). -/
def sinF32 (a : Word) : Num → Nat × Flags
  | .nan nv => nanF32 nv
  | .inf _ => nanF32 true
  | .num neg n e =>
    if n = 0 then (zeroF32 neg, 0)
    else (trigF32 7 a (fun m => let b := sinBounds m; if neg then (b.1.neg, b.2.neg) else b) n e, 0)

/-- FCOS (R128, R129). -/
def cosF32 (a : Word) : Num → Nat × Flags
  | .nan nv => nanF32 nv
  | .inf _ => nanF32 true
  | .num _ n e => if n = 0 then (0x3F800000, 0) else (trigF32 8 a cosBounds n e, 0)

/-- FTANH: odd, so the value of a negative source is that of its magnitude with the sign inverted (R128, R129). -/
def tanhF32 (a : Word) : Num → Nat × Flags
  | .nan nv => nanF32 nv
  | .inf neg => (FloatFmt.f32.signBit neg + 0x3F800000, 0)
  | .num neg n e =>
    if n = 0 then (zeroF32 neg, 0)
    else
      let r := near 9 (a &&& 0x7FFFFFFF) (tanhBounds (toFix n e)) (.num false 1 (-21)) inUnit
      (if neg then (BitVec.ofNat 32 r ^^^ 0x80000000).toNat else r, 0)

/-- FEXP2 (R128). -/
def execFexp2 (o : V1) (s : State) : Host.Outcome State Fault Refusal := unaryF32 (.fexp2 o) o exp2F32 s
/-- FLOG2 (R128). -/
def execFlog2 (o : V1) (s : State) : Host.Outcome State Fault Refusal := unaryF32 (.flog2 o) o log2F32 s
/-- FSIN (R128). -/
def execFsin (o : V1) (s : State) : Host.Outcome State Fault Refusal := unaryF32 (.fsin o) o sinF32 s
/-- FCOS (R128). -/
def execFcos (o : V1) (s : State) : Host.Outcome State Fault Refusal := unaryF32 (.fcos o) o cosF32 s
/-- FTANH (R128). -/
def execFtanh (o : V1) (s : State) : Host.Outcome State Fault Refusal := unaryF32 (.ftanh o) o tanhF32 s

/-! ### Rounding to integers and conversions -/

/-- A magnitude n × 2^e rounded to an integer: the integer, and whether it differs. -/
def roundInt (r : Rnd) (h : Nat) (neg : Bool) (n : Nat) (e : Int) : Nat × Bool :=
  let c := cut n e 0
  (if roundsUp r neg c.1 c.2.1 c.2.2 false h then c.1 + 1 else c.1, decide (c.2.1 ≠ 0))

/-- FFLOOR, FCEIL, FTRUNC, FRINT: exact, the sign of a zero kept (R128). -/
def integralF32 (r : Rnd) (a : Word) : Num → Nat × Flags
  | .nan nv => nanF32 nv
  | .inf _ => (a.toNat, 0)
  | .num neg n e =>
    if 0 ≤ e then (a.toNat, 0)
    else ((roundNum .f32 .rne false 0 neg (roundInt r 0 neg n e).1 0 false).1, 0)

/-- FFLOOR (R128). -/
def execFfloor (o : V1) (s : State) : Host.Outcome State Fault Refusal := unaryF32 (.ffloor o) o (integralF32 .rm) s
/-- FCEIL (R128). -/
def execFceil (o : V1) (s : State) : Host.Outcome State Fault Refusal := unaryF32 (.fceil o) o (integralF32 .rp) s
/-- FTRUNC (R128). -/
def execFtrunc (o : V1) (s : State) : Host.Outcome State Fault Refusal := unaryF32 (.ftrunc o) o (integralF32 .rz) s
/-- FRINT (R128). -/
def execFrint (o : V1) (s : State) : Host.Outcome State Fault Refusal := unaryF32 (.frint o) o (integralF32 .rne) s

/-- Float format of a code of FCVT; none for the integer formats (R130). -/
def floatFmtOf : Fmt → Option FloatFmt
  | .f32 => some .f32
  | .f16 => some .f16
  | .bf16 => some .bf16
  | .e4m3 => some .e4m3
  | .e5m2 => some .e5m2
  | .e2m1 => some .e2m1
  | .i32 | .n32 => none

/-- Value of the lowest element of a lane (R130). -/
def fcvtSource (k : Fmt) (a : Word) : Num :=
  match floatFmtOf k with
  | some f => f.value (a.toNat % 2 ^ f.width)
  | none => match k with
    | .i32 => .num (decide (a.toInt < 0)) a.toInt.natAbs 0
    | _ => .num false a.toNat 0

/-- A value as a float destination of FCVT gets it (R130). -/
def toFloat (f : FloatFmt) (r : Rnd) (sat : Bool) (h : Nat) : Num → Nat × Flags
  | .nan nv => if f.nan.isNone then (0, flagNV) else (f.nan.getD 0, if nv then flagNV else 0)
  | .inf neg =>
    if sat ∨ f.nan.isNone then (f.signBit neg + f.maxBits, flagSAT)
    else if f.hasInf then (f.signBit neg + f.infBits, 0)
    else (f.signBit neg + f.maxBits + 1, flagNV)
  | .num neg n e => roundNum f r sat h neg n e false

/-- A value as an integer destination of FCVT gets it, clamped between lo and hi (R131). -/
def toInteger (lo hi : Int) (r : Rnd) (h : Nat) : Num → Int × Flags
  | .nan _ => (0, flagNV)
  | .inf neg => (if neg then lo else hi, flagNV)
  | .num neg n e =>
    let k := roundInt r h neg n e
    let x : Int := if neg then -k.1 else k.1
    if x < lo then (lo, flagNV) else if hi < x then (hi, flagNV) else (x, if k.2 then flagINEX else 0)

/-- One lane of FCVT (R130, R131). -/
def fcvtLane (dstF srcF : Fmt) (r : Rnd) (sat : Bool) (h : Nat) (a : Word) : Word × Flags :=
  let x := fcvtSource srcF a
  match dstF with
  | .i32 => let y := toInteger (-2 ^ 31) (2 ^ 31 - 1) r h x; (BitVec.ofInt 32 y.1, y.2)
  | .n32 => let y := toInteger 0 (2 ^ 32 - 1) r h x; (BitVec.ofInt 32 y.1, y.2)
  | .f32 => let y := toFloat .f32 r sat h x; (BitVec.ofNat 32 y.1, y.2)
  | .f16 => let y := toFloat .f16 r sat h x; (BitVec.ofNat 32 y.1, y.2)
  | .bf16 => let y := toFloat .bf16 r sat h x; (BitVec.ofNat 32 y.1, y.2)
  | .e4m3 => let y := toFloat .e4m3 r sat h x; (BitVec.ofNat 32 y.1, y.2)
  | .e5m2 => let y := toFloat .e5m2 r sat h x; (BitVec.ofNat 32 y.1, y.2)
  | .e2m1 => let y := toFloat .e2m1 r sat h x; (BitVec.ofNat 32 y.1, y.2)

/-- FCVT; .rs steps the LFSR once and draws from the stepped state (R116, R130). -/
def execFcvt (o : V1) (dstF srcF : Fmt) (r : Rnd) (sat : Bool) (s : State) : Host.Outcome State Fault Refusal :=
  let i : Instr := .fcvt o dstF srcF r sat
  issue i s fun f =>
    let f := if r = .rs then { f with cord := { f.cord with lfsr := lfsrStep f.cord.lfsr } } else f
    let a := f.psrc (opndsOf i).isReader o.a o.pa
    let g (l : Nat) : Word × Flags := fcvtLane dstF srcF r sat (rsDraw f.cord.lfsr l 0) (a.lane l)
    aluDone i o.dst s f (fun l => (g l).1, if r = .rs then .general else tagF [a.tag],
      orFlags ((Mask.toLanes f.active).map fun l => (g l).2))

/-- FPACK (R133). -/
def execFpack (o : V2) (t : PackTy) (s : State) : Host.Outcome State Fault Refusal :=
  issueFloat (.fpack o t) o.dst s fun f =>
    let r := (opndsOf (.fpack o t)).isReader
    let a := f.psrc r o.a o.pa
    let b := f.psrc r o.b o.pb
    let both (k : FloatFmt) (x y : Word) : Word × Flags :=
      let p := (FloatFmt.f32.value x.toNat).toFmt k
      let q := (FloatFmt.f32.value y.toNat).toFmt k
      (packLane k [p.1, q.1], p.2 ||| q.2)
    (fun l => match t with
      | .f16 => both .f16 (a.lane l) (b.lane l)
      | .bf16 => both .bf16 (a.lane l) (b.lane l)
      | .merge => ((b.lane l).extractLsb' 0 16 ++ (a.lane l).extractLsb' 0 16, 0), tagF [a.tag, b.tag])

/-- Element an element code of FUNPK reads, and its format (R134). -/
def unpackElem (code : Nat) : FloatFmt × Nat :=
  if code < 2 then (.f16, code) else if code < 4 then (.bf16, code - 2)
  else if code < 8 then (.e4m3, code - 4) else if code < 12 then (.e5m2, code - 8) else (.e2m1, code - 12)

/-- FUNPK (R134). -/
def execFunpk (o : V1) (code : BitVec 6) (s : State) : Host.Outcome State Fault Refusal :=
  float1 (.funpk o code) o (fun a =>
    let e := unpackElem code.toNat
    let r := (e.1.value ((elems e.1 a).getD e.2 0)).toFmt .f32
    (BitVec.ofNat 32 r.1, r.2)) s

end Sys2Proof.Machine
end

