-- ==== Sys2Proof/Machine/Race.lean ====
section
/-! DEFINITION. Bytes that a tile task reads or writes from its acceptance until its future is full: a program's access to
them gives free values (09_matrix.md R277; log 5, log 19). -/

namespace Sys2Proof.Machine

/-- The parameter word of a declared list region (R294). -/
def Stand.region (st : Stand) (base : Nat) : Option DWord :=
  (st.regions.findSome? fun r => r.filter fun x => x.1 = base).map Prod.snd

/-- ROWS, K, TYPE and DUP of a parameter word (R292), and the bytes of a row (R293). -/
def lRows (w : DWord) : Nat := nbits w.toNat 10 0
def lK (w : DWord) : Nat := nbits w.toNat 22 16
def lType (w : DWord) : Nat := nbits w.toNat 25 24
def lDup (w : DWord) : Bool := w.getLsbD 28
def lRowBytes (w : DWord) : Nat := 16 + 8 * lK w

/-- Scratchpad bytes a task reads (R261): offset and length. -/
def Task.operands (t : Task) : List (Nat × Nat) :=
  ((List.range t.m).map fun r => (t.aoff + r * t.astride * 256, 256)) ++
    if t.wfmt = 4 then [(t.ascale, 16 * t.m)] else []

/-- Accumulator bytes a task covers (R262, R274). -/
def Task.cover (t : Task) : Nat × Nat :=
  if t.mode = 2 then (t.accbase + t.lrow * lRowBytes t.word, t.m * lRowBytes t.word) else (t.accbase, 512 * t.m)

/-- Whether a dependence holds (R268), as memory stands. -/
def State.depHolds (s : State) (st : Stand) : Dep → Bool
  | .none => true
  | .future va =>
    match s.walk st.die st.ctx va with
    | .ok l => futureDone s.hbm (hAddr st.die (l.pa + va % l.size))
    | .error _ => false
  | .counter o n => decide (n ≤ st.sp.load o 8)

/-- The task that a piece of work reports for a stand (R276). -/
def Work.reports (w : Work) (sid : Nat) : Option Task :=
  match w with
  | .resolve o _ _ _ _ | .fold o _ _ _ => if o.sid = some sid then o.task else none
  | _ => none

/-- Tasks of a stand that have completed but not yet reported: their futures are not full. -/
def State.reporting (s : State) (st : Stand) : List Task := s.works.filterMap fun i => i.work.reports st.sid

/-- Tasks of a stand from their acceptance until their future is full. -/
def State.openTasks (s : State) (st : Stand) : List Task :=
  ((s.core st.die st.core).allTasks.filter fun t => t.sid = st.sid) ++ s.reporting st

/-- Tasks of a stand that may read their operands now, or have read them and not yet reported. -/
def State.armed (s : State) (st : Stand) : List Task :=
  ((s.core st.die st.core).allTasks.filter fun t => t.sid = st.sid && s.depHolds st t.dep0 && s.depHolds st t.dep1) ++
    s.reporting st

/-- Scratchpad bytes that a program's read finds undefined, and that its write leaves undefined: a write before the
dependences of a task hold may still reach it (R277); and accumulator bytes that tasks write. -/
def State.racyRead (s : State) (st : Stand) : List (Nat × Nat) := (s.openTasks st).flatMap Task.operands
def State.racySp (s : State) (st : Stand) : List (Nat × Nat) := (s.armed st).flatMap Task.operands
def State.racyAcc (s : State) (st : Stand) : List (Nat × Nat) := (s.openTasks st).map Task.cover

/-- Two ranges share a byte. -/
def meetRanges (a b : Nat × Nat) : Bool := decide (a.1 < b.1 + b.2) && decide (b.1 < a.1 + a.2)

/-- A scratchpad write of some lanes of a cord, no release or operand fence yet behind it (R277, R282). -/
def Stand.wrote (st : Stand) (cord : Nat) (m : Mask) (off n : Nat) (stream : Option (BitVec 4) := none) : Stand :=
  let u : Unfenced := ⟨cord, m, off, n, stream, {}, []⟩
  if n = 0 then st
  else { st with unfenced :=
    (st.unfenced.filter fun y => !decide ((y.cord, y.mask, y.off, y.n) = (cord, m, off, n))) ++ [u] }

/-- A write comes before what a cord does that its acquires have brought to a place (R277). -/
def Unfenced.seen (u : Unfenced) (cord : Nat) (x : Place) : Bool :=
  (decide (u.released.stand ≠ 0) && decide (u.released.stand ≤ x.stand)) ||
    (decide (u.cord = cord) && decide (u.released.cord ≠ 0) && decide (u.released.cord ≤ x.cord))

/-- A write is released at a place, unless it is already. -/
def Unfenced.release (u : Unfenced) (x : Place) : Unfenced :=
  { u with released :=
    { stand := if u.released.stand = 0 then x.stand else u.released.stand
      cord := if u.released.cord = 0 then x.cord else u.released.cord } }

/-- Some lanes of a cord write, or fence, only part of what stands in one record. -/
def Unfenced.part (u : Unfenced) (m : Mask) (f : Unfenced → Unfenced) : List Unfenced :=
  [f { u with mask := u.mask &&& m }, { u with mask := u.mask &&& ~~~m }].filter fun y => decide (y.mask ≠ 0)

/-- A release of a path at a place: of its own writes of some kind, and of those that its acquires have brought before it
(R193, R277). -/
def Stand.releases (st : Stand) (cord : Nat) (m : Mask) (own : Unfenced → Bool) (reach x : Place) : Stand :=
  { st with unfenced := st.unfenced.flatMap fun u =>
      if u.seen cord reach then [u.release x]
      else if u.cord = cord ∧ u.mask &&& m ≠ 0 ∧ own u = true then u.part m fun y => y.release x
      else [u] }

/-- The focused stand, or another, after a release of a path to its stand or further (R277). -/
def State.released (s : State) (st : Stand) (cord : Nat) (m : Mask) : Stand :=
  st.releases cord m (fun _ => true) (s.reachedBy st.sid cord m) { s.place with die := 0 }

/-- An operand fence of a path at a task sequence covers the writes of its lanes, and those that come before it through what
it has acquired (R277, R282; DESIGN CHOICE, log 19). -/
def Stand.fenced (st : Stand) (cord : Nat) (m : Mask) (seq : Nat) (reach : Place) : Stand :=
  let mark (u : Unfenced) : Unfenced :=
    if u.fenced.any fun x => decide (x.1 = cord) && decide (m &&& ~~~x.2.1 = 0) then u
    else { u with fenced := (cord, m, seq) :: u.fenced }
  { st with unfenced := st.unfenced.flatMap fun u =>
      if u.seen cord reach then [mark u]
      else if u.cord = cord ∧ u.mask &&& m ≠ 0 then u.part m mark
      else [u] }

/-- A task takes over its operand bytes: those that no operand fence of its issuing path covers are undefined for it; where
dependences let it go, a write that its writer has released counts as covered (R277). -/
def Stand.taint (st : Stand) (t : Task) : Task :=
  let late (u : Unfenced) : Bool :=
    u.fenced.all (fun x => decide (x.1 ≠ t.cord) || decide (x.2.1 &&& t.mask = 0) || decide (t.seq < x.2.2)) &&
      (decide (t.dep0 = .none ∧ t.dep1 = .none) || decide (u.released.stand = 0))
  { t with tainted := (st.unfenced.filter fun u =>
      late u && t.operands.any fun r => meetRanges r (u.off, u.n)).map fun u => (u.off, u.n) }

/-- Memory with the bytes of some ranges free. -/
def Memory.freed (m : Memory) (rs : List (Nat × Nat)) (fresh : Nat) : Memory :=
  rs.foldl (fun m r => m.put r.1 ((List.range r.2).map fun k => Config.freeByte fresh (r.1 + k))) m

/-- A byte lies in one of some ranges. -/
def inRanges (rs : List (Nat × Nat)) (a : Nat) : Bool := rs.any fun r => decide (r.1 ≤ a) && decide (a < r.1 + r.2)

/-- Reads n bytes, those in the ranges being free. -/
def Memory.loadFree (m : Memory) (rs : List (Nat × Nat)) (fresh a n : Nat) : Nat :=
  if rs.isEmpty then m.load a n
  else leNat ((List.range n).map fun k => if inRanges rs (a + k) then Config.freeByte fresh (a + k) else m.read (a + k))

/-- Writes n bytes of a value, those in the ranges becoming free. -/
def Memory.storeFree (m : Memory) (rs : List (Nat × Nat)) (fresh a n v : Nat) : Memory :=
  if rs.isEmpty then m.store a n v
  else m.put a (((List.range n).zip (leBytes n v)).map fun x =>
    if inRanges rs (a + x.1) then Config.freeByte fresh (a + x.1) else x.2)

/-- Writes bytes, those in the ranges becoming free. -/
def Memory.putFree (m : Memory) (rs : List (Nat × Nat)) (fresh a : Nat) (bs : List Byte) : Memory :=
  if rs.isEmpty then m.put a bs
  else m.put a (((List.range bs.length).zip bs).map fun x =>
    if inRanges rs (a + x.1) then Config.freeByte fresh (a + x.1) else x.2)

/-- A draw, where free bytes were taken. -/
def State.drawIf (s : State) (rs : List (Nat × Nat)) : State := if rs.isEmpty then s else s.draw

end Sys2Proof.Machine
end

