-- ==== Sys2Proof/Machine/Mem.lean ====
section
/-! DEFINITION. Loads, stores, atomics, fences and prefetches, and the order in which global accesses are performed
(06_memory.md R168 to R203). -/

namespace Sys2Proof.Machine

/-! ### Addresses of an instruction's lanes -/

/-- Bytes an access of a size has (R196). -/
def sizeBytes : MSize → Nat
  | .n8 | .i8 => 1
  | .n16 | .i16 => 2
  | .w32 => 4
  | .w64 => 8
  | .w128 => 16

/-- Active lanes with their addresses (R169). -/
def Focus.laneAddrs (f : Focus) (s : SCode) (v : VCode) : List (Nat × Nat) :=
  (Mask.toLanes f.active).map fun l => (l, f.laneAddr s v l)

/-- ADDRESS_RANGE of an access of n bytes (R169). -/
def rangeTrap (n : Nat) (addrs : List (Nat × Nat)) : Option Trap :=
  (addrs.find? fun x => decide (2 ^ 57 ≤ x.2 + n - 1)).map fun x =>
    { code := .addressRange, val := some (BitVec.ofNat 64 x.2) }

/-- MISALIGNED of an access of n bytes, at the lowest lane (R191, R374). -/
def alignTrap (n : Nat) (addrs : List (Nat × Nat)) : Option Trap :=
  (addrs.find? fun x => decide (x.2 % n ≠ 0)).map fun x => misalign [(x.2, n)]

/-- SP_RANGE of an access of n bytes (R170). -/
def spTrap (st : Stand) (n : Nat) (addrs : List (Nat × Nat)) : Option Trap :=
  (addrs.find? fun x => decide (st.spGran * 16384 < x.2 + n)).map fun x =>
    { code := .spRange, val := some (BitVec.ofNat 64 x.2) }

/-- The runs of n bytes from an address that lie in one 64 KiB page each: offset, and bytes. -/
def pageRuns (va n : Nat) : List (Nat × Nat) :=
  let k := 65536 - va % 65536
  if n ≤ k then [(0, n)]
  else (0, k) :: (List.range (ceilDiv (n - k) 65536)).map fun j => (k + 65536 * j, min 65536 (n - k - 65536 * j))

/-- Translation of one lane's access: its page runs with physical address and page (R176, R191). -/
def State.reach (s : State) (a : Agent) (u : Use) (va n : Nat) :
    State × Except Trap (List (Nat × Nat × Nat × Leaf)) :=
  let runs := pageRuns va n
  match s.translateAll a u (runs.map fun r => va + r.1) with
  | (s, .error (c, x)) => (s, .error { code := c, val := some (BitVec.ofNat 64 x) })
  | (s, .ok ps) => (s, .ok ((runs.zip ps).map fun x => (x.1.1, x.1.2, x.2.1, x.2.2)))

/-- Single-copy-atomic parts of n bytes of one kind of page (R182): offset and bytes. -/
def unitsOf (va n : Nat) : List (Nat × Nat) :=
  if (n = 1 ∨ n = 2 ∨ n = 4 ∨ n = 8) ∧ va % n = 0 then [(0, n)]
  else if n = 16 ∧ va % 16 = 0 then [(0, 8), (8, 8)]
  else (List.range n).map fun o => (o, 1)

/-- Pages of one kind and with the same W, X and S bits (R191). -/
def Leaf.alike (a b : Leaf) : Bool :=
  decide (a.kind = b.kind) && decide (a.w = b.w) && decide (a.x = b.x) && decide (a.s = b.s)

/-- Parts of an access: it is split where its pages differ, and each piece has the parts of its own (R182, R191). -/
def splitUnits (va n : Nat) (runs : List (Nat × Nat × Nat × Leaf)) : List (Nat × Nat) :=
  match runs with
  | r :: rest =>
    if rest.all fun q => r.2.2.2.alike q.2.2.2 then unitsOf va n
    else runs.flatMap fun q => (unitsOf (va + q.1) q.2.1).map fun u => (q.1 + u.1, u.2)
  | [] => unitsOf va n

/-- The parts of one lane's access, its data being the bytes of `val`. -/
def partsOf (die lane va n val cmp : Nat) (runs : List (Nat × Nat × Nat × Leaf)) : List Part :=
  (splitUnits va n runs).filterMap fun u =>
    (runs.find? fun r => decide (r.1 ≤ u.1) && decide (u.1 < r.1 + r.2.1)).map fun r =>
      { lane := lane, off := u.1, pa := hAddr die (r.2.2.1 + (u.1 - r.1)), n := u.2, kind := r.2.2.2.kind,
        val := val / 256 ^ u.1 % 256 ^ u.2, cmp := cmp }

/-- Translates and checks every lane before any access, and gives the parts of all of them (R176). -/
def State.reachLanes (s : State) (a : Agent) (u : Use) (n : Nat) (data : Nat → Nat × Nat) :
    List (Nat × Nat) → State × Except Trap (List Part)
  | [] => (s, .ok [])
  | (l, va) :: r =>
    match s.reach a u va n with
    | (s, .error t) => (s, .error t)
    | (s, .ok runs) =>
      match s.reachLanes a u n data r with
      | (s, .error t) => (s, .error t)
      | (s, .ok ps) => (s, .ok (partsOf a.die l va n (data l).1 (data l).2 runs ++ ps))

/-! ### Order of accesses (R185, R188) -/

def AccessKind.scalar : AccessKind → Bool
  | .scalarLoad _ => true
  | _ => false

/-- Release-consistent in the sense of R180's streams rules. -/
def PageKind.streamed : PageKind → Bool
  | .un => false
  | _ => true

def AccessKind.isLoad : AccessKind → Bool
  | .load _ | .scalarLoad _ => true
  | _ => false

def AccessKind.reads : AccessKind → Bool
  | .store => false
  | _ => true

/-- Two parts touch a common byte. -/
def Part.meets (p q : Part) : Bool := decide (p.pa < q.pa + q.n) && decide (q.pa < p.pa + p.n)

/-- A part of an access is of one of the threads of a mask; a part of a scalar access is of every thread. -/
def Access.within (a : Access) (p : Part) (m : Mask) : Bool :=
  if p.lane = 32 then decide (a.threads &&& m ≠ 0) else m.getLsbD p.lane

/-- Parts of one thread. -/
def sameThread (p q : Part) : Bool := decide (p.lane = q.lane) || decide (p.lane = 32) || decide (q.lane = 32)

/-- X, earlier in program order, is ordered before Y (R185). -/
def orderedBefore (x : Access) (p : Part) (y : Access) (q : Part) : Bool :=
  sameThread p q &&
    (p.meets q || (decide (p.kind = .so) && decide (q.kind = .so)) ||
      (p.kind.streamed && q.kind.streamed && decide (x.stream = y.stream) &&
        ((x.kind.isLoad && x.ordered) || (decide (y.kind = .store) && y.ordered))))

/-- A performed access or a step stands before a part of a piece of work's access (R185, R188). -/
def Seen.orders (e : Seen) (a : Access) (id : Nat) (p : Part) : Bool :=
  decide (e.sid = a.sid) && decide (e.cord = a.cord) && decide (e.since ≤ id) && a.within p e.threads &&
    match e.what with
    | .access h n k stream _ acq =>
      (decide (p.pa < h + n) && decide (h < p.pa + p.n)) || (decide (k = some .so) && decide (p.kind = .so)) ||
        (acq && k.all PageKind.streamed && p.kind.streamed && decide (stream = a.stream))
    | .step h n => decide (p.pa < h + n) && decide (h < p.pa + p.n)
    | .all => true
    | .streams m => m.getLsbD a.stream.toNat

/-- The place that a part of an access may take at the earliest. -/
def State.floor (s : State) (id : Nat) (a : Access) (p : Part) : Place :=
  s.seen.foldl (fun x e => if e.orders a id p then x.join e.place else x) {}

/-- Threads whose access a part is. -/
def Access.threadsOf (a : Access) (p : Part) : Mask := if p.lane = 32 then a.threads else 1 <<< p.lane

/-- Notes a performed part at its place. Of an earlier one of the same threads on the same bytes, which it follows, it takes
the place, unless that acquires. -/
def State.notePart (s : State) (id : Nat) (a : Access) (p : Part) (x : Place) : State :=
  let acq := a.kind.isLoad && a.ordered
  let e : Seen := ⟨a.sid, a.cord, a.threadsOf p, .access p.pa p.n (some p.kind) a.stream a.kind.reads acq, id + 1, x⟩
  { s with seen := e :: if acq then s.seen else s.seen.filter fun y => !decide (y = { e with since := y.since, place := y.place }) }

/-- Notes a scratchpad access of the focused path, which takes effect now. -/
def State.noteSp (s : State) (f : Focus) (stream : BitVec 4) (reads acq : Bool) : State :=
  if f.active = 0 then s
  else { s with seen := ⟨f.stand.sid, f.cord.id, f.active, .access 0 0 none stream reads acq, s.uid, s.place⟩ :: s.seen }

/-- Work that stands before a handle in issue order. -/
def State.before (s : State) (id : Nat) : List Work := (s.works.filter fun i => i.id < id).map Item.work

/-- The access of a piece of work, of a cord. -/
def Work.accessOf (sid cord : Nat) : Work → Option Access
  | .access a => if a.sid = sid ∧ a.cord = cord then some a else none
  | _ => none

/-- Accesses of a cord that stand before a piece of work in issue order. -/
def State.accessesBefore (s : State) (id sid cord : Nat) : List Access :=
  (s.before id).filterMap (Work.accessOf sid cord)

/-- A phase-bit arrival, a resolution or a deque step of some lanes of a cord (R193). -/
def Work.syncs (sid cord : Nat) (m : Mask) (w : Work) : Bool :=
  match w with
  | .pbar t _ _ | .deque t _ => decide (t.sid = sid) && decide (t.cord = cord) && decide (t.mask &&& m ≠ 0)
  | .resolve o _ _ _ _ =>
    o.dest.any fun t => decide (t.sid = sid) && decide (t.cord = cord) && decide (t.mask &&& m ≠ 0)
  | _ => false

/-- A part of an access must follow a piece of work of its path: a deque step that is an acquire (R193), or a resolution
of the bytes it touches (R185); a scalar load follows its cord's earlier ones (R91). -/
def Access.follows (a : Access) (p : Part) (w : Work) : Bool :=
  match w with
  | .deque t (.take _) | .deque t (.steal _ _) | .deque t (.done _ _) =>
    decide (t.sid = a.sid) && decide (t.cord = a.cord) && a.within p t.mask
  | .resolve o _ (some pa) _ _ =>
    o.dest.any fun t => decide (t.sid = a.sid) && decide (t.cord = a.cord) && a.within p t.mask &&
      decide (p.pa < hAddr o.die pa + 16) && decide (hAddr o.die pa < p.pa + p.n)
  | .access x => a.kind.scalar && x.kind.scalar && decide (x.sid = a.sid) && decide (x.cord = a.cord)
  | _ => false

/-- Offsets in a deque set (R243). -/
def dequeHead (c : Nat) : Nat := 0x40 + 0x40 * c
def dequeRing (c cap i : Nat) : Nat := 0x1000 + (c * cap + i % cap) * 32

/-- The place of its ring that a step on the deque of core c touches, its set's header and its own at offsets of memory. -/
def dequeReach (m : Memory) (h0 hq : Nat) (op : DequeOp) (c : Nat) : Nat :=
  let cap := 2 ^ (m.load h0 4 % 64)
  let top := m.load hq 4
  let bottom := m.load (hq + 4) 4
  match op with
  | .steal _ _ => dequeRing c cap top
  | .take _ => dequeRing c cap ((bottom + 2 ^ 32 - 1) % 2 ^ 32)
  | _ => dequeRing c cap bottom

/-- A part of an access touches what a push of its path before it touches: the headers and the ring's place (R185, R245). -/
def State.pushBefore (s : State) (a : Access) (p : Part) (w : Work) : Bool :=
  match w, s.stand? a.sid with
  | .deque t (.spawn base r), some st =>
    let at_ (o : Nat) : Nat := ((s.peek st (base + o)).map (hAddr st.die)).getD 0
    let q := dequeHead st.core
    decide (t.sid = a.sid) && decide (t.cord = a.cord) && a.within p t.mask &&
      [(at_ 0, 64), (at_ q, 64), (at_ (dequeReach s.hbm (at_ 0) (at_ q) (.spawn base r) st.core), 32)].any fun x =>
        decide (p.pa < x.1 + x.2) && decide (x.1 < p.pa + p.n)
  | _, _ => false

/-- A part may be performed as far as its path goes: no part ordered before it is outstanding, and within its own
instruction a lower lane that touches a common byte comes first (R182, R199). -/
def enabledPart (earlier : List Work) (a : Access) (p : Part) : Bool :=
  !p.done &&
    (earlier.filterMap (Work.accessOf a.sid a.cord)).all
      (fun x => x.parts.all fun q => q.done || !orderedBefore x q a p) &&
    (earlier.all fun w => !a.follows p w) &&
    a.parts.all fun q => q.done || !(decide (q.lane < p.lane) && q.meets p)

/-- A store that has taken a place among its stand's or its cord's accesses holds a part of them that touches its bytes: a
load that may not be placed before it, and a write that has taken no earlier place (R183, R189). -/
def State.nearHeld (s : State) (id : Nat) (a : Access) (p : Part) : Bool :=
  let f := s.floor id a p
  s.works.any fun i =>
    match i.work with
    | .access x =>
      decide (i.id ≠ id) && decide (x.sid = a.sid) && x.parts.any fun q =>
        !q.done && q.meets p &&
          let holds (q p f : Nat) : Bool :=
            decide (q ≠ 0) &&
              (if a.kind.isLoad then decide (q ≤ f) else decide (p = 0) || decide (q < p) || (decide (q = p) && decide (i.id < id)))
          holds q.near.stand p.near.stand f.stand || (decide (x.cord = a.cord) && holds q.near.cord p.near.cord f.cord)
    | _ => false

/-- Parts of stores that so far only their stand or their cord sees, and that come before some threads of a cord through
what these have acquired (R186, R189). -/
def State.nearParts (s : State) (sid c : Nat) (m : Mask) : List (Nat × Access × Part) :=
  let f := s.reachedBy sid c m
  let holds (q f : Nat) : Bool := decide (q ≠ 0) && decide (q ≤ f)
  s.works.flatMap fun i =>
    match i.work with
    | .access a =>
      if a.sid = sid then
        (a.parts.filter fun p =>
          !p.done && (holds p.near.stand f.stand || (decide (a.cord = c) && holds p.near.cord f.cord))).map fun p => (i.id, a, p)
      else []
    | _ => []

/-- A part that writes is one side of a release at die scope (R185): it follows those stores. -/
def Access.releases (a : Access) (p : Part) : Bool :=
  !a.kind.isLoad && ((decide (a.kind = .store) && a.ordered) || decide (p.kind = .so))

/-- A part of an access may be performed now. -/
def State.partReady (s : State) (id : Nat) (a : Access) (p : Part) : Bool :=
  enabledPart (s.before id) a p && (s.before id).all (fun w => !s.pushBefore a p w) && !s.nearHeld id a p &&
    !(a.releases p && !(s.nearParts a.sid a.cord (a.threadsOf p)).isEmpty)

/-- Parts of some threads' accesses not yet performed that satisfy a test, and those ordered before them (R185). -/
def openParts (works : List Item) (sid c : Nat) (m : Mask) (test : Access → Bool) : List (Nat × Access × Part) :=
  works.foldr (fun i ps =>
    match i.work with
    | .access a =>
      if a.sid = sid ∧ a.cord = c then
        ((a.parts.filter fun p =>
          !p.done && a.within p m && (test a || ps.any fun y => orderedBefore a p y.2.1 y.2.2)).map fun p => (i.id, a, p)) ++ ps
      else ps
    | _ => ps) []

/-- A release at a scope waits for a part before it: one that the scope's threads do not see yet, a load or an atomic
operation, or, where they lie beyond the stand, any (R201). -/
def scopeWaits (x : Scope) (a : Access) : Bool := decide (x = .grove ∨ x = .die) || decide (a.kind ≠ .store)

/-- A part of a store takes its place among the accesses of its cord, and of its stand. -/
def Part.take (p : Part) (x : Scope) (t : Place) : Part :=
  { p with near := { p.near with
      cord := if p.near.cord = 0 then t.cord else p.near.cord
      stand := if x = .stand ∧ p.near.stand = 0 then t.stand else p.near.stand } }

/-- Stores that a fence or a release of a narrow scope orders before it take their places (R189, R201). -/
def State.takePlaces (s : State) (x : Scope) (ps : List (Nat × Access × Part)) : State :=
  if ps = [] then s
  else { s with works := s.works.map fun (i : Item) =>
    match i.work with
    | .access a => { i with work := .access { a with parts := a.parts.map fun p =>
        if (ps.any fun y => decide (y.1 = i.id) && decide (y.2.2 = p)) then p.take x s.place else p } }
    | _ => i }

/-- Accesses of a cord's threads not yet performed, of which some part satisfies a test. -/
def State.outstanding (s : State) (sid cord : Nat) (m : Mask) (test : Access → Part → Bool) : Bool :=
  s.works.any fun i =>
    match i.work with
    | .access a => a.sid = sid && a.cord = cord && a.parts.any fun p => !p.done && a.within p m && test a p
    | _ => false

/-- A synchronising step of a cord's threads is on its way. -/
def State.syncing (s : State) (sid cord : Nat) (m : Mask) : Bool := s.works.any fun i => i.work.syncs sid cord m

/-- A deque step that is an acquire of some lanes of a cord (R244, R246, R247). -/
def Work.acquires (sid cord : Nat) (m : Mask) (w : Work) : Bool :=
  match w with
  | .deque _ (.spawn _ _) => false
  | .deque t _ => decide (t.sid = sid) && decide (t.cord = cord) && decide (t.mask &&& m ≠ 0)
  | _ => false

/-- Such a step is on its way: no later access of those lanes goes before it. -/
def State.acquiring (s : State) (sid cord : Nat) (m : Mask) : Bool := s.works.any fun i => i.work.acquires sid cord m

/-- An access or a synchronising step of the threads of a mask that stands before a piece of work is outstanding, or a
store that comes before them: what a release before that work waits for (R192, R193). -/
def State.unreleased (s : State) (id sid cord : Nat) (m : Mask) : Bool :=
  (s.accessesBefore id sid cord).any (fun a => a.parts.any fun p => !p.done && a.within p m) ||
    (s.before id).any (Work.syncs sid cord m) || !(s.nearParts sid cord m).isEmpty

/-- A store that comes before some threads of a cord touches some bytes and is not performed. -/
def State.nearTouch (s : State) (sid cord : Nat) (m : Mask) (hs : List (Nat × Nat)) : Bool :=
  (s.nearParts sid cord m).any fun y => hs.any fun h => decide (y.2.2.pa < h.1 + h.2) && decide (h.1 < y.2.2.pa + y.2.2.n)

/-! ### Atomic operations -/

/-- Whether an operand replaces the stored word under .maxsi (R200). -/
def maxsiReplaces (old new : Word) : Bool :=
  let a := FloatFmt.bf16.value (old.toNat / 65536)
  let b := FloatFmt.bf16.value (new.toNat / 65536)
  if b.isNan then false
  else a.isNan || a.lt b || (a.eqv b && decide (new.toNat % 65536 < old.toNat % 65536))

/-- The word an atomic operation leaves (R199). -/
def atomicNew (op : AOp) (old operand cmp : Word) : Word :=
  match op with
  | .add => old + operand
  | .min => if old.toInt ≤ operand.toInt then old else operand
  | .max => if old.toInt ≤ operand.toInt then operand else old
  | .minu => if old.toNat ≤ operand.toNat then old else operand
  | .maxu => if old.toNat ≤ operand.toNat then operand else old
  | .and => old &&& operand
  | .or => old ||| operand
  | .xor => old ^^^ operand
  | .xchg => operand
  | .cas => if old = cmp then operand else old
  | .fadd => (f32Add old operand).1
  | .maxsi => if maxsiReplaces old operand then operand else old

/-! ### Performing global accesses -/

/-- The place of a store that is performed now. -/
def Part.placeNow (p : Part) (t : Place) : Place :=
  { t with
      stand := if p.near.stand = 0 then t.stand else p.near.stand, cord := if p.near.cord = 0 then t.cord else p.near.cord }

/-- A .rel store that is performed releases the scratchpad writes of its threads in its stream (R185, R277). -/
def State.storeReleases (s : State) (a : Access) (p : Part) : State :=
  if a.ordered then
    s.modStand a.sid fun st => st.releases a.cord (a.threadsOf p) (fun u => decide (u.stream = some a.stream))
      (s.reachedBy a.sid a.cord (a.threadsOf p)) { s.place with die := 0 }
  else s

/-- Performs one part: the state after it, and the part with what it read. A load is placed where nothing ordered before it
comes later, and reads what stands at its place (R184 to R190); a store or an atomic operation takes effect now. -/
def State.performPart (s : State) (id : Nat) (a : Access) (p : Part) : State × Part :=
  let x := p.placeNow s.place
  let put (bs : List Byte) : State :=
    ((s.remember (some (a.sid, a.cord)) x p.pa bs.length).hbmSet p.pa bs).notePart id a p x
  match a.kind with
  | .load _ | .scalarLoad _ =>
    let r := s.loadPast (s.floor id a p) a.sid a.cord p.pa p.n
    (r.1.notePart id a p r.2.2, { p with val := r.2.1, done := true })
  | .store => ((put (leBytes p.n p.val)).storeReleases a p, { p with done := true })
  | .atomic op _ =>
    let old := s.hbm.load p.pa p.n
    let new := atomicNew op (BitVec.ofNat 32 old) (BitVec.ofNat 32 p.val) (BitVec.ofNat 32 p.cmp)
    (put (leBytes p.n new.toNat), { p with val := old, done := true })

/-- Value that a lane of a completed access read. -/
def Access.laneValue (a : Access) (l : Nat) : Nat :=
  ((a.parts.filter fun p => p.lane = l).map fun p => p.val * 256 ^ p.off).foldl (· + ·) 0

/-- 32-bit register n of a load's result (R196). -/
def loadWord (size : MSize) (v n : Nat) : Word :=
  match size with
  | .i8 => (BitVec.ofNat 8 v).signExtend 32
  | .i16 => (BitVec.ofNat 16 v).signExtend 32
  | _ => BitVec.ofNat 32 (v / 2 ^ (32 * n))

/-- Writes a vector load's registers in its lanes. -/
def Cord.loadRegs (c : Cord) (size : MSize) (d : Nat) (m : Mask) (v : Nat → Nat) : Cord :=
  (List.range (sizeRegs size)).foldl (fun c n => c.writeV (d + n) m (fun l => loadWord size (v l) n) .general) c

/-- Registers that a global access marks (R89). -/
def Access.regs (a : Access) : List Nat :=
  match a.kind with
  | .load size => (List.range (sizeRegs size)).map fun n => a.d + n
  | .atomic _ true => [a.d]
  | _ => []

/-- Delivers a completed access to the registers and clears its marks (R89). -/
def Access.deliver (a : Access) (c : Cord) : Cord :=
  match a.kind with
  | .load size => (c.loadRegs size a.d a.threads a.laneValue).unmarkV a.regs
  | .atomic _ true => (c.writeV a.d a.threads (fun l => BitVec.ofNat 32 (a.laneValue l)) .general).unmarkV a.regs
  | .scalarLoad w =>
    let v := a.laneValue 32
    (c.writeS (BitVec.ofNat 5 a.d) (BitVec.ofNat 64 (if w then v % 2 ^ 32 else v))).unmarkS [a.d]
  | _ => c

/-- An access that reads damaged data: all of an atomic operation's is looked at before its first part (R176, R374). -/
def State.accessBad (s : State) (a : Access) (p : Part) : Bool :=
  match a.kind with
  | .store => false
  | .atomic _ _ => !(a.parts.any Part.done) && a.parts.any fun q => s.hbmBad q.pa q.n
  | _ => s.hbmBad p.pa p.n

/-- Performs one enabled part of a global access, a free choice among several; when none is left, delivers. Data that is
damaged raises MEM_ERROR (R374). -/
def State.performAccess (s : State) (id : Nat) : State :=
  let s := s.unfocus
  match s.work? id with
  | some { work := .access a, .. } =>
    let ready := (List.range a.parts.length).filter fun k => (a.parts[k]?).any (s.partReady id a)
    match a.parts[ready.getD (if ready.length ≤ 1 then 0 else Config.freePick s.fresh % ready.length) a.parts.length]? with
    | none => s
    | some p =>
      let s := if ready.length ≤ 1 then s else s.draw
      if s.accessBad a p then
        (s.dropWork id).trapInFlight ⟨a.sid, a.cord, a.slotB, a.pc, a.threads, a.d⟩ { code := .memError }
      else
        let r := s.performPart id a p
        let a := { a with parts := a.parts.map fun q => if q = p then r.2 else q }
        if a.parts.all Part.done then (r.1.dropWork id).modCord a.sid a.cord a.deliver
        else r.1.setWork id (.access a)
  | _ => s

/-- MEM_ACCESS_COMPLETE: a load or a returning atomic is performed part by part, and delivers (R203). -/
def execMemAccessComplete (id : Nat) (s : State) : Host.Outcome State Fault Refusal := .next (s.performAccess id)

/-- STORE_ACKNOWLEDGE: a store or a non-returning atomic is performed part by part, and is acknowledged (R203). -/
def execStoreAcknowledge (id : Nat) (s : State) : Host.Outcome State Fault Refusal := .next (s.performAccess id)

/-- TLB_WALK_DONE: a walk in flight for a page of a context ends, and fills the TLBs with what it has found (R174). -/
def execTlbWalkDone (die ctx va : Nat) (s : State) : Host.Outcome State Fault Refusal :=
  let s := s.unfocus
  match (s.die die).walks.find? fun w => (tlbFind [w.entry] ctx va).isSome with
  | some w => .next (s.endWalk die w)
  | none => .next s

/-! ### Issue -/

/-- Adds a global access of the focused path and moves the path on; one with no lane only tags its registers general
(R86, R197). -/
def State.addAccess (s : State) (f : Focus) (k : AccessKind) (stream : BitVec 4) (ord : Bool) (m : Mask) (d : Nat)
    (parts : List Part) : State :=
  let a : Access :=
    { sid := f.stand.sid, cord := f.cord.id, slotB := f.slotB, pc := f.path.restart, kind := k, stream := stream,
      ordered := ord, threads := m, d := d, parts := parts }
  if m = 0 then
    s.keep { f with cord := a.regs.foldl (fun c n => c.writeV n 0 (fun _ => 0) .general) f.cord }.advance
  else
    let c := match k with
      | .scalarLoad _ => if d = 31 then f.cord else f.cord.markS [d]
      | _ => f.cord.markV a.regs
    (s.addWork (.access a)).keep { f with cord := c }.advance

/-- A vector access of global memory: range, then translation of every lane, then the access (R374). -/
def globalAccess (s : State) (f : Focus) (k : AccessKind) (u : Use) (n : Nat) (addrs : List (Nat × Nat))
    (data : Nat → Nat × Nat) (stream : BitVec 4) (ordered : Bool) (m : Mask) (d : Nat) : Did :=
  match rangeTrap n addrs with
  | some t => .trap s t
  | none =>
    match s.reachLanes f.agent u n data addrs with
    | (s, .error t) => .trap s t
    | (s, .ok parts) => .done (s.addAccess f k stream ordered m d parts)

/-- Data registers of a store as one number (R196). -/
def Focus.storeData (f : Focus) (size : MSize) (d : VCode) (l : Nat) : Nat :=
  ((List.range (sizeRegs size)).map fun n => ((f.cord.vreg (d.toNat + n)).lane l).toNat * 2 ^ (32 * n)).foldl (· + ·) 0
    % 256 ^ sizeBytes size

/-- LD (R196). -/
def execLd (o : MOps) (s : State) : Host.Outcome State Fault Refusal :=
  issue (.ld o) s fun f =>
    globalAccess s f (.load o.size) .read (sizeBytes o.size) (f.laneAddrs o.s o.v) (fun _ => (0, 0)) o.stream o.ordered
      f.active o.d.toNat

/-- ST (R196). -/
def execSt (o : MOps) (s : State) : Host.Outcome State Fault Refusal :=
  issue (.st o) s fun f =>
    globalAccess s f .store .write (sizeBytes o.size) (f.laneAddrs o.s o.v) (fun l => (f.storeData o.size o.d l, 0))
      o.stream o.ordered f.active o.d.toNat

/-- A scratchpad access waits for its cord's outstanding phase-bit arrivals, which reach the banks before it (R187), for
the deque steps it follows (R193), and for the accesses its stream orders before it (R185). -/
def spHeld (s : State) (f : Focus) (stream : BitVec 4) (rel : Bool) : Bool :=
  (decide (f.active ≠ 0) && s.works.any fun i => match i.work with
    | .pbar t _ _ => t.sid = f.stand.sid && t.cord = f.cord.id
    | _ => false) ||
  s.acquiring f.stand.sid f.cord.id f.active ||
  s.outstanding f.stand.sid f.cord.id f.active fun a p =>
    p.kind.streamed && decide (a.stream = stream) && (rel || (a.kind.isLoad && a.ordered))

/-- The checks of a scratchpad access (R197). -/
def spCheck (f : Focus) (n : Nat) (addrs : List (Nat × Nat)) : Option Trap :=
  (alignTrap n addrs).or (spTrap f.stand n addrs)

/-- LDS (R196). -/
def execLds (o : MOps) (s : State) : Host.Outcome State Fault Refusal :=
  issue (.lds o) s fun f =>
    if spHeld s f o.stream false then .held
    else
      match (spCheck f (sizeBytes o.size) (f.laneAddrs o.s o.v)).or
          (f.damage s ((f.laneAddrs o.s o.v).map fun x => (x.2, sizeBytes o.size))) with
      | some t => .trap s t
      | none =>
        let racy := s.racyRead f.stand
        .done (((s.drawIf racy).noteSp f o.stream true o.ordered).keep { f with
          cord := f.cord.loadRegs o.size o.d.toNat f.active fun l =>
            f.stand.sp.loadFree racy s.fresh (f.laneAddr o.s o.v l) (sizeBytes o.size) }.advance)

/-- Scratchpad writes of n bytes by some lanes of a cord, no operand fence yet behind them (R277). -/
def Stand.wroteLanes (st : Stand) (cord : Nat) (stream : BitVec 4) (n : Nat) (addrs : List (Nat × Nat)) : Stand :=
  addrs.foldl (fun st x => st.wrote cord ((1 : Mask) <<< x.1) x.2 n stream) st

/-- Scratchpad bytes that lanes write are no longer damaged (R374). -/
def State.mendLanes (s : State) (st : Stand) (n : Nat) (addrs : List (Nat × Nat)) : State :=
  addrs.foldl (fun s x => s.mendSp st x.2 n) s

/-- STS: lanes in increasing order, so that the highest lane's byte stays (R182, R187). -/
def execSts (o : MOps) (s : State) : Host.Outcome State Fault Refusal :=
  issue (.sts o) s fun f =>
    if spHeld s f o.stream o.ordered then .held
    else
      match spCheck f (sizeBytes o.size) (f.laneAddrs o.s o.v) with
      | some t => .trap s t
      | none =>
        let racy := s.racySp f.stand
        let s' := ((s.drawIf racy).mendLanes f.stand (sizeBytes o.size) (f.laneAddrs o.s o.v)).noteSp f o.stream false false
        let st := if o.ordered then s.released f.stand f.cord.id f.active else f.stand
        .done (s'.keep { f with
          stand := { st with
            sp := (f.laneAddrs o.s o.v).foldl (fun (m : Memory) (x : Nat × Nat) =>
              m.storeFree racy s.fresh x.2 (sizeBytes o.size) (f.storeData o.size o.d x.1)) st.sp }.wroteLanes
            f.cord.id o.stream (sizeBytes o.size) (f.laneAddrs o.s o.v) }.advance)

/-- SLD and SST count as accesses of every thread of the cord: part lane 32 (R180). -/
def scalarAccess (s : State) (f : Focus) (a : SCode) (k : AccessKind) (u : Use) (n val : Nat) (stream : BitVec 4)
    (d : Nat) : Did :=
  globalAccess s f k u n [(32, f.addr a)] (fun _ => (val, 0)) stream false (BitVec.allOnes 32) d

/-- SLD (R198). -/
def execSld (d a : SCode) (stream : BitVec 4) (word : Bool) (s : State) : Host.Outcome State Fault Refusal :=
  issue (.sld d a stream word) s fun f =>
    scalarAccess s f a (.scalarLoad word) .read (if word then 4 else 8) 0 stream d.toNat

/-- SST (R198). -/
def execSst (d a : SCode) (stream : BitVec 4) (word : Bool) (s : State) : Host.Outcome State Fault Refusal :=
  issue (.sst d a stream word) s fun f =>
    let n := if word then 4 else 8
    scalarAccess s f a .store .write n ((f.cord.sreg d).toNat % 256 ^ n) stream d.toNat

/-- Operand and compare value of an atomic's lane (R199). -/
def Focus.atomicData (f : Focus) (o : AOps) (l : Nat) : Nat × Nat :=
  let r (n : Nat) := ((f.cord.vreg n).lane l).toNat
  if o.op = .cas then (r (o.d.toNat + 1), r o.d.toNat)
  else if o.d = 60 then (r (o.v.toNat + 1), 0)
  else (r o.d.toNat, 0)

/-- ATOM (R199). -/
def execAtom (o : AOps) (s : State) : Host.Outcome State Fault Refusal :=
  issue (.atom o) s fun f =>
    let addrs := f.laneAddrs o.s o.v
    match alignTrap 4 addrs with
    | some t => .trap s t
    | none =>
      globalAccess s f (.atomic o.op (decide (o.d ≠ 60))) .atomic 4 addrs (f.atomicData o) o.stream false f.active
        o.d.toNat

/-- Lanes of an ATOMS in increasing order: the scratchpad, and the old words (R178). -/
def atomicLanes (op : AOp) (data : Nat → Nat × Nat) (read racy : List (Nat × Nat)) (fresh : Nat) :
    List (Nat × Nat) → Memory → Memory × List (Nat × Word)
  | [], m => (m, [])
  | (l, a) :: r, m =>
    let old : Word := BitVec.ofNat 32 (m.loadFree read fresh a 4)
    let new := atomicNew op old (BitVec.ofNat 32 (data l).1) (BitVec.ofNat 32 (data l).2)
    let x := atomicLanes op data read racy fresh r (m.storeFree racy fresh a 4 new.toNat)
    (x.1, (l, old) :: x.2)

/-- ATOMS (R199). -/
def execAtoms (o : AOps) (s : State) : Host.Outcome State Fault Refusal :=
  issue (.atoms o) s fun f =>
    let addrs := f.laneAddrs o.s o.v
    if spHeld s f o.stream false then .held
    else
      match (spCheck f 4 addrs).or (f.damage s (addrs.map fun x => (x.2, 4))) with
      | some t => .trap s t
      | none =>
        let r := atomicLanes o.op (f.atomicData o) (s.racyRead f.stand) (s.racySp f.stand) s.fresh addrs f.stand.sp
        let c := if o.d = 60 then f.cord
          else f.cord.writeV o.d.toNat f.active (fun l => ((r.2.find? fun x => x.1 = l).map Prod.snd).getD 0) .general
        .done (((s.drawIf (s.racyRead f.stand)).noteSp f o.stream true false).keep
          { f with stand := { f.stand with sp := r.1 }.wroteLanes f.cord.id o.stream 4 addrs, cord := c }.advance)

/-- A fence of a path has completed: the handles its cord's QINVs covered are translated anew from here on (R316). -/
def State.flushHandles (s : State) (f : Focus) : State :=
  s.modCore f.stand.die f.stand.core fun k =>
    k.flushQinvs fun x => decide (x.1 = f.stand.sid) && decide (x.2.1 = f.cord.id)

/-- Accesses each fence orders before it (R188). -/
def fenceBefore : Instr → Access → Bool
  | .fenceX _ m, a => m.getLsbD a.stream.toNat
  | .fenceAcq _, a => a.kind.reads
  | _, _ => true

/-- A fence orders the synchronising steps of its path too, which belong to no stream (R188, R193). -/
def fenceSyncs : Instr → Bool
  | .fenceX _ _ => false
  | _ => true

/-- Scope of a fence. -/
def fenceScope : Instr → Scope
  | .fence x | .fenceX x _ | .fenceAcq x | .fenceRel x => x
  | _ => .die

/-- What a fence makes of something that its path has done: what it now stands before (R188). -/
def fenceTurns (i : Instr) (o : Orders) : Option Orders :=
  match i, o with
  | .fence _, .access .. | .fence _, .step .. | .fenceAcq _, .step .. => some .all
  | .fenceAcq _, .access _ _ _ _ reads _ => if reads then some .all else none
  | .fenceX _ m, .access _ _ _ stream _ _ => if m.getLsbD stream.toNat then some (.streams m) else none
  | _, _ => none

/-- Every load of some threads that comes before a completed fence and that something orders has been performed (R188). -/
def fenceOver : Instr → Orders → Bool
  | .fenceX _ m, .streams k => decide (k &&& ~~~m = 0)
  | .fenceX _ _, _ => false
  | _, _ => true

/-- What a path has done, as a completed fence of some threads leaves it: among the accesses of its scope's threads, later
accesses, from a handle on, are placed behind it (R188, R189). -/
def Seen.fenced (e : Seen) (i : Instr) (sid c : Nat) (m : Mask) (uid : Nat) : List Seen :=
  if e.sid = sid ∧ e.cord = c ∧ e.threads &&& m ≠ 0 then
    let kept : Seen := if e.threads &&& ~~~m = 0 ∧ fenceOver i e.what = true then { e with since := max e.since uid } else e
    match fenceTurns i e.what with
    | none => [kept]
    | some w =>
      let x := e.place.within (fenceScope i)
      let turned : Seen := { e with threads := e.threads &&& m, what := w, place := x, since := max e.since uid }
      if w = .all ∧ x = e.place then
        if e.threads &&& ~~~m = 0 then [turned] else [turned, { e with threads := e.threads &&& ~~~m }]
      else [turned, kept]
  else [e]

/-- Two of them stand before the same accesses. -/
def Seen.alike (e y : Seen) : Bool :=
  decide (e.since = y.since) && decide (e.threads = y.threads) && decide (e.sid = y.sid) && decide (e.cord = y.cord) &&
    decide (e.what = y.what)

/-- What stands before the same accesses is one, at the latest of its places. -/
def mergeSeen (l : List Seen) : List Seen :=
  l.foldr (fun e l =>
    if l.any e.alike then l.map fun y => if e.alike y then { y with place := e.place.join y.place } else y else e :: l) []

/-- The same of those that stand before accesses from a handle on only. -/
def foldSeen (uid : Nat) (l : List Seen) : List Seen :=
  mergeSeen (l.filter fun e => decide (uid ≤ e.since)) ++ l.filter fun e => decide (e.since < uid)

/-- What a fence that acquires stands before. -/
def fenceAcquires : Instr → Option Orders
  | .fence _ | .fenceAcq _ => some .all
  | .fenceX _ m => some (.streams m)
  | _ => none

/-- What a fence orders among the threads of its scope once it has completed (R188, R189). -/
def State.fenced (s : State) (i : Instr) (sid c : Nat) (m : Mask) : State :=
  let known := (fenceAcquires i).toList.map fun w => (⟨sid, c, m, w, s.uid, s.known (fenceScope i) sid c⟩ : Seen)
  { s with seen := foldSeen s.uid ((known.filter fun e => decide (e.place ≠ {})) ++ s.seen.flatMap fun e => e.fenced i sid c m s.uid) }

/-- Parts of the path's accesses that a fence orders before it and that are not performed, and of the stores that come
before it through what the path has acquired. -/
def State.fenceParts (s : State) (i : Instr) (f : Focus) : List (Nat × Access × Part) :=
  openParts s.works f.stand.sid f.cord.id f.path.mask (fenceBefore i) ++
    match i with
    | .fenceAcq _ => []
    | _ => (s.fenced i f.stand.sid f.cord.id f.path.mask).nearParts f.stand.sid f.cord.id f.path.mask

/-- A fence holds its path until what it orders before it is performed at its scope (R188, R201). -/
def fenceWaits (i : Instr) (s : State) (f : Focus) : Bool :=
  ((s.fenceParts i f).any fun y => scopeWaits (fenceScope i) y.2.1) ||
    (fenceSyncs i && s.syncing f.stand.sid f.cord.id f.path.mask)

/-- The stand of a path after a fence: the scratchpad writes that it orders before it are released to the threads of its
scope (R188, R277). -/
def State.fenceReleases (s : State) (i : Instr) (f : Focus) : Stand :=
  let own (u : Unfenced) : Bool := match i with
    | .fence _ | .fenceRel _ => true
    | .fenceX _ m => u.stream.any fun n => m.getLsbD n.toNat
    | _ => false
  match i with
  | .fenceAcq _ => f.stand
  | _ => f.stand.releases f.cord.id f.path.mask own (s.reachedBy f.stand.sid f.cord.id f.path.mask)
      { s.place.within (fenceScope i) with die := 0 }

/-- A fence, once it no longer holds its path: stores that only the threads of its scope see take their places, and the
path's later accesses come behind what it orders (R188, R201). -/
def issueFence (i : Instr) (s : State) : Host.Outcome State Fault Refusal :=
  issue i s fun f =>
    if fenceWaits i s f then .held
    else
      let s' := (s.takePlaces (fenceScope i) (s.fenceParts i f)).fenced i f.stand.sid f.cord.id f.path.mask
      .done ((s'.flushHandles f).keep { f with stand := s'.fenceReleases i f }.advance)

/-- FENCE (R201). -/
def execFence (c : Scope) (s : State) : Host.Outcome State Fault Refusal :=
  issueFence (.fence c) s
/-- FENCE.X (R201). -/
def execFenceX (c : Scope) (m : BitVec 16) (s : State) : Host.Outcome State Fault Refusal :=
  issueFence (.fenceX c m) s
/-- FENCE.ACQ (R201). -/
def execFenceAcq (c : Scope) (s : State) : Host.Outcome State Fault Refusal :=
  issueFence (.fenceAcq c) s
/-- FENCE.REL (R201). -/
def execFenceRel (c : Scope) (s : State) : Host.Outcome State Fault Refusal :=
  issueFence (.fenceRel c) s

/-- A lane of PREF: it may walk, unless all 256 walk slots are held (R174, R202). -/
def State.prefetch (s : State) (f : Focus) (va : Nat) : State :=
  let known := (s.tlbHit f.stand.die f.stand.core f.stand.ctx va).isSome || (s.tlbShared f.stand.die f.stand.ctx va).isSome
  if !known && decide (256 ≤ (s.die f.stand.die).walks.length) then s
  else (s.lookup f.stand.die f.stand.core f.stand.ctx va).1

/-- PREF: its lanes may walk, and nothing else shows (R202). -/
def execPref (toL2 : Bool) (r : SCode) (v : VCode) (s : State) : Host.Outcome State Fault Refusal :=
  issue (.pref toL2 r v) s fun f =>
    let near := (f.laneAddrs r v).filter fun x => decide (x.2 < 2 ^ 57)
    .done ((near.foldl (fun s x => s.prefetch f x.2) s).keep f.advance)

end Sys2Proof.Machine
end

