-- ==== Sys2Proof/Machine/Image.lean ====
section
/-! DEFINITION. The saved image of a stand, written and read (13_system.md R384 to R386), and the write of a status
pair to a register or to its place in an image (R205, R210). -/

namespace Sys2Proof.Machine

/-! ### Special registers as words -/

/-- PRM as a word (R53). -/
def Cord.prmWord (c : Cord) : Nat := c.prmX.toNat * 2 ^ 10 + c.prmR.toNat * 2 ^ 5 + c.prmB.toNat

/-- TRAPCAUSE (R375). -/
def Cord.trapCause (c : Cord) : Nat := c.trapImm.toNat * 2 ^ 16 + c.inTrap.toNat * 2 ^ 15 + c.trapCode.toNat

/-- Q0N, Q1N and RUN of a stand (R278). -/
def Core.queued (k : Core) (sid : Nat) (q1 : Bool) : Nat :=
  ((if q1 then k.q1 else k.q0).filter fun t => t.sid = sid).length +
    (k.backed.filter fun b => b.task.sid = sid && b.task.queue1 = q1).length

def Core.runs (k : Core) (sid : Nat) : Bool := (k.running.toList ++ k.picked.toList).any fun r => decide (r.task.sid = sid)

/-- MSTAT of a stand (R278). -/
def Core.mstatWord (k : Core) (st : Stand) : DWord :=
  BitVec.ofNat 64 (k.queued st.sid true * 2 ^ 29 + k.queued st.sid false * 2 ^ 16 + (k.runs st.sid).toNat * 2 ^ 7 +
    st.mstat.toNat)

/-! ### Tile-task records (R267) -/

def depWord : Dep → Nat
  | .none => 0
  | .future a => 2 ^ 62 + a
  | .counter o t => 2 ^ 63 + t * 2 ^ 32 + o

def depOf (w : Nat) : Dep :=
  match nbits w 63 62 with
  | 1 => .future (nbits w 56 0)
  | 2 => .counter (nbits w 31 0) (nbits w 61 32)
  | _ => .none

/-- The 64 bytes of a task. -/
def taskBytes (t : Task) : List Byte :=
  leBytes 8 t.fut ++ leBytes 8 t.amax ++ leBytes 8 (depWord t.dep0) ++ leBytes 8 (depWord t.dep1) ++
    leBytes 4 t.aoff ++ leBytes 4 t.ascale ++ leBytes 4 t.accbase ++ leBytes 2 t.m ++ leBytes 2 t.astride ++
    leBytes 1 t.wslot ++ leBytes 1 (t.afmt * 16 + t.wfmt) ++ leBytes 2 (t.queue1.toNat * 4 + t.mode) ++
    leBytes 4 t.lrow ++ leBytes 4 t.idxbase ++ leBytes 4 0

/-- The task a record's fields give. -/
def taskOf (sid seq accepted : Nat) (r : List Byte) : Task :=
  { sid := sid, seq := seq, accepted := accepted, fut := recField r 0 8, amax := recField r 8 8,
    dep0 := depOf (recField r 16 8), dep1 := depOf (recField r 24 8), aoff := recField r 32 4,
    ascale := recField r 36 4, accbase := recField r 40 4, m := recField r 44 2, astride := recField r 46 2,
    wslot := nbits (recField r 48 1) 6 0, afmt := recField r 49 1 / 16, wfmt := recField r 49 1 % 16,
    queue1 := nbits (recField r 50 1) 2 2 = 1, mode := recField r 50 1 % 4, lrow := recField r 52 4,
    idxbase := recField r 56 4, pin := nbits (recField r 48 1) 6 0 }

/-! ### Roles -/

/-- The role of each cord of a stand, in CORDID order (R359). -/
def rolesOf (rs : List Role) : List (Nat × Role) :=
  ((List.range rs.length).zip rs).flatMap fun x => List.replicate x.2.count x

/-- Quadrant of each cord of a stand: the one with the fewest of its cords so far (R19). -/
def quadsOf (n : Nat) : List Nat := (List.range n).map fun k => k % 4

/-- The 16 bytes of a role descriptor (R356). -/
def roleBytes (r : Role) : List Byte :=
  leBytes 8 r.pc.toNat ++ leBytes 1 r.regs ++ leBytes 1 r.count ++ leBytes 1 r.sregs ++ leBytes 5 0

def roleOf (b : List Byte) : Role :=
  { pc := BitVec.ofNat 57 (recField b 0 8), regs := recField b 8 1, count := recField b 9 1, sregs := recField b 10 1 }

/-- The partition word of a stand (R357). -/
def Stand.poolWord (st : Stand) : Nat := st.asGran * 2 ^ 16 + st.spGran * 2 ^ 8 + st.rf

/-! ### Cord records (R385) -/

def tagCode : Tag → Nat
  | .general => 0
  | .uniform => 1
  | .affine => 2

def tagOf (n : Nat) : Tag := if n = 1 then .uniform else if n = 2 then .affine else .general

/-- Bytes of a register by its tag code (R82). -/
def tagSize (n : Nat) : Nat := if n = 1 then 4 else if n = 2 then 8 else 128

/-- A register in the form its tag saves. -/
def regBytes (r : VReg) (t : Tag) : List Byte :=
  match t with
  | .general => (laneMap fun l => leBytes 4 (r.lane l).toNat).flatten
  | .uniform => leBytes 4 (r.lane 0).toNat
  | .affine => leBytes 4 (r.lane 0).toNat ++ leBytes 4 (r.lane 1 - r.lane 0).toNat

def regOf (t : Tag) (b : List Byte) : VReg :=
  { lanes := laneMap fun l =>
      match t with
      | .general => BitVec.ofNat 32 (recField b (4 * l) 4)
      | .uniform => BitVec.ofNat 32 (recField b 0 4)
      | .affine => BitVec.ofNat 32 (recField b 0 4 + l * recField b 4 4),
    tag := t }

/-- Tag a register is saved with: general where a status mark is outstanding. -/
def Cord.savedTag (c : Cord) (n : Nat) : Tag := if c.vmarks.contains n then .general else (c.vreg n).tag

def sat32 (n : Nat) : Nat := min n (2 ^ 32 - 1)

def slotBytes (now : Nat) : Option Path → List Byte
  | none => leBytes 16 0
  | some p => leBytes 8 (2 ^ 63 + p.pc.toNat) ++ leBytes 4 p.mask.toNat ++ leBytes 4 (sat32 (now - p.liveSince))

def slotOf (now : Nat) (stall : Nat) (b : List Byte) : Option Path :=
  let w := recField b 0 8
  if nbits w 63 63 = 0 then none
  else some
    { pc := BitVec.ofNat 57 w, mask := BitVec.ofNat 32 (recField b 8 4), liveSince := now - recField b 12 4,
      stall := if stall = 0 then none else some (now + stall - 1) }

/-- Cycles of stall a path has left. -/
def stallLeft (now : Nat) (p : Option Path) : Nat :=
  match p.bind Path.stall with
  | some e => sat32 (e + 1 - now)
  | none => 0

/-- An entry of R150. -/
def entryBytes (w m x : Nat) : List Byte := leBytes 8 w ++ leBytes 4 m ++ leBytes 4 x

def pendBytes (now : Nat) (st : Stand) (c : Cord) (p : Option PendPath) : List Byte :=
  match p with
  | none => leBytes 16 0
  | some p => entryBytes (depthOf (allTokens st c) p.mask * 2 ^ 57 + p.pc.toNat) p.mask.toNat (p.ageAt now)

def tokenBytes (t : Option Token) : List Byte :=
  match t with
  | none => leBytes 16 0
  | some t => entryBytes (t.call.toNat * 2 ^ 63 + t.rpc.toNat) t.m.toNat t.w.toNat

def pad16 (b : List Byte) : List Byte := b ++ List.replicate ((16 - b.length % 16) % 16) 0

/-- The record of a cord. -/
def cordBytes (now : Nat) (st : Stand) (c : Cord) : List Byte :=
  let toks := c.tokens.reverse
  let tags := (List.range c.budget).map c.savedTag
  pad16 <|
    slotBytes now c.slotA ++ slotBytes now c.slotB ++
    leBytes 4 (stallLeft now c.slotA) ++ leBytes 4 (stallLeft now c.slotB) ++ leBytes 4 c.lfsr.toNat ++
    leBytes 4 (c.inTrap.toNat * 2 ^ 31 + c.pending.length * 2 ^ 16 + c.spilled * 2 ^ 8 + c.tokens.length) ++
    leBytes 8 c.tsfloor.toNat ++ leBytes 8 c.prmWord ++ leBytes 8 c.fpstat.toNat ++
    leBytes 8 c.trapCause ++ leBytes 8 c.trapPc.toNat ++ leBytes 8 c.trapVal.toNat ++
    leBytes 8 (c.ringCount * 2 ^ 16 + c.ringTail * 2 ^ 8 + c.ringHead) ++ leBytes 8 c.chainStart.toNat ++
    leBytes 8 (((List.range 60).map fun n => if c.vmarks.contains n then 2 ^ n else 0).foldl (· + ·) 0) ++ leBytes 8 0 ++
    ((List.range 8).map fun n => leBytes 4 (c.pred n).toNat).flatten ++
    ((List.range 4).map fun n => leBytes 4 (match c.crews[n]? with | some k => 2 ^ 31 + k.toNat | none => 0)).flatten ++
    leBytes 16 0 ++
    ((List.range 8).map fun n => leBytes 4 (match c.allow.getD n none with | some e => 2 ^ 31 + e | none => 0)).flatten ++
    pendBytes now st c c.pending[0]? ++ pendBytes now st c c.pending[1]? ++
    ((List.range 8).map fun n => tokenBytes toks[n]?).flatten ++
    leBytes 16 (((List.range c.budget).zip tags).foldl (fun a x => a + tagCode x.2 * 4 ^ x.1) 0) ++
    ((List.range c.sregs).map fun n => leBytes 8 (c.s.getD n 0).toNat).flatten ++
    (((List.range c.budget).zip tags).map fun x => regBytes (c.vreg x.1) x.2).flatten

/-- Bytes of the registers below n in a record with the given tags and PENDV. -/
def regsBefore (tags pendv n : Nat) : Nat :=
  ((List.range n).map fun k => if pendv / 2 ^ k % 2 = 1 then 128 else tagSize (tags / 4 ^ k % 4)).foldl (· + ·) 0

/-- Bytes of a cord record: from its tags and PENDV, and its role. -/
def cordSize (tags pendv : Nat) (r : Role) : Nat := (400 + 8 * r.sregs + regsBefore tags pendv r.regs + 15) / 16 * 16

/-- The token an entry of R150 holds. -/
def tokenOf (b : List Byte) : Token := decodeToken (recField b 0 8, recField b 8 4, recField b 12 4)

def pendOf (now : Nat) (b : List Byte) : PendPath :=
  ⟨BitVec.ofNat 57 (recField b 0 8), BitVec.ofNat 32 (recField b 8 4), recField b 12 4, now⟩

/-- The cord a record holds, in a quadrant and cord slot of its core. -/
def cordOf (now id role : Nat) (r : Role) (quad cslot : Nat) (b : List Byte) : Cord :=
  let at' (o n : Nat) : List Byte := (b.drop o).take n
  let tags := recField b 0x180 16
  let pendv := recField b 0x70 8
  let flags := recField b 0x2C 4
  let cause := recField b 0x48 8
  let ring := recField b 0x60 8
  let prm := recField b 0x38 8
  let base := 400 + 8 * r.sregs
  { id := id, role := role, budget := r.regs, sregs := r.sregs, quad := quad, cslot := cslot,
    v := (List.range r.regs).map fun n =>
      let t := if pendv / 2 ^ n % 2 = 1 then Tag.general else tagOf (tags / 4 ^ n % 4)
      regOf t (at' (base + regsBefore tags pendv n) (tagSize (tagCode t))),
    latch := List.replicate 4 VReg.zero,
    s := (List.range 24).map fun n => if n < r.sregs then BitVec.ofNat 64 (recField b (400 + 8 * n) 8) else 0,
    p := (List.range 8).map fun n => if n = 0 then BitVec.allOnes 32 else BitVec.ofNat 32 (recField b (0x80 + 4 * n) 4),
    allow := (List.range 8).map fun n =>
      let w := recField b (0xC0 + 4 * n) 4
      if nbits w 31 31 = 1 then some (nbits w 14 0) else none,
    slotA := slotOf now (recField b 0x20 4) (at' 0 16), slotB := slotOf now (recField b 0x24 4) (at' 0x10 16),
    pending := (List.range (nbits flags 17 16)).map fun n => pendOf now (at' (0xE0 + 16 * n) 16),
    ringHead := nbits ring 4 0, ringTail := nbits ring 12 8, ringCount := nbits ring 21 16,
    tokens := ((List.range (nbits flags 3 0)).map fun n => tokenOf (at' (0x100 + 16 * n) 16)).reverse,
    spilled := nbits flags 13 8, lfsr := BitVec.ofNat 32 (recField b 0x28 4),
    prmX := BitVec.ofNat 5 (nbits prm 14 10), prmR := BitVec.ofNat 5 (nbits prm 9 5), prmB := BitVec.ofNat 5 (nbits prm 4 0),
    fpstat := BitVec.ofNat 6 (recField b 0x40 8), tsfloor := BitVec.ofNat 64 (recField b 0x30 8),
    trapImm := BitVec.ofNat 16 (nbits cause 31 16), inTrap := nbits flags 31 31 = 1,
    trapCode := BitVec.ofNat 8 (nbits cause 7 0), trapPc := BitVec.ofNat 57 (recField b 0x50 8),
    trapVal := BitVec.ofNat 64 (recField b 0x58 8),
    crews := ((List.range 4).filter fun n => nbits (recField b (0xA0 + 4 * n) 4) 31 31 = 1).map fun n =>
      BitVec.ofNat 16 (recField b (0xA0 + 4 * n) 4),
    vmarks := (List.range 60).filter fun n => pendv / 2 ^ n % 2 = 1, smarks := [], pmarks := [],
    chainStart := 0, exited := 0, released := false }

/-- Lanes that have exited: those in no path and waiting in no token. -/
def exitedLanes (st : Stand) (c : Cord) : Mask :=
  let ring := (List.range c.ringCount).map fun i =>
    (BitVec.ofNat 32 (readEntry st c (32 + (c.ringHead + i) % 32)).2.1 : Mask)
  ~~~(((c.slotA.toList ++ c.slotB.toList).map Path.mask ++ c.pending.map PendPath.mask ++ ring ++
    (allTokens st c).map Token.w).foldl (· ||| ·) 0)

/-! ### The whole image (R384, R386) -/

/-- Tasks of a stand on its core, in acceptance order (R279). -/
def Core.tasksOf (k : Core) (sid : Nat) : List Task :=
  (k.allTasks.filter fun t => t.sid = sid).mergeSort fun a b => a.seq ≤ b.seq

/-- The image of a stand up to its pool section. The pool section follows as the stand's two memories. -/
def imageHead (now : Nat) (st : Stand) (mstat : DWord) (tasks : List Task) (cause : BitVec 8) (bindCore bindGrove : Bool) :
    List Byte :=
  let cords := (st.cords.map (cordBytes now st)).flatten
  let taskOff := 0x140 + cords.length
  let poolOff := (taskOff + 80 * tasks.length + 63) / 64 * 64
  let size := poolOff + (st.spGran + st.asGran) * 16384
  leBytes 4 size ++ leBytes 4 st.standId ++ leBytes 8 st.tract ++ leBytes 4 st.poolWord ++
    leBytes 1 st.cords.length ++ leBytes 1 st.roles.length ++ leBytes 1 cause.toNat ++
    leBytes 1 (bindGrove.toNat * 2 + bindCore.toNat) ++ leBytes 1 (st.die * 32 + st.core) ++ leBytes 1 st.prio ++
    leBytes 1 st.ctx ++ leBytes 1 0 ++ leBytes 4 tasks.length ++ leBytes 8 mstat.toNat ++
    leBytes 4 taskOff ++ leBytes 4 poolOff ++ leBytes 8 st.q0b.toNat ++ leBytes 8 st.q1b.toNat ++
    ((List.range 4).map fun n => match st.roles[n]? with | some r => roleBytes r | none => leBytes 16 0).flatten ++
    ((List.range 8).map fun n => match st.regions.getD n none with
      | some r => leBytes 4 r.1 ++ leBytes 4 0 ++ leBytes 8 r.2.toNat
      | none => leBytes 16 0).flatten ++
    leBytes 4 st.q0cap.toNat ++ leBytes 4 st.q1cap.toNat ++ leBytes 4 st.q1age.toNat ++ leBytes 4 st.seed.toNat ++
    leBytes 48 0 ++ cords ++
    (tasks.map fun t => taskBytes t ++ leBytes 4 (t.seq % 2 ^ 32) ++ leBytes 4 (sat32 (now - t.accepted)) ++ leBytes 8 0).flatten ++
    List.replicate (poolOff - taskOff - 80 * tasks.length) 0

/-- Lays the first n bytes of a memory over the n bytes from an address: what it does not list there becomes zero. -/
def Memory.overlay (m : Memory) (a n : Nat) (x : Memory) : Memory :=
  (x.filter fun c => c.1 < n).foldl (fun m c => m.write (a + c.1) c.2) (m.zero a n)

/-- Damage of a stand's scratchpad and accumulators goes with them into its image, whose pool is at an offset in window
H (R374, R386). -/
def State.saveStruck (s : State) (st : Stand) (pool : Nat) : State :=
  if s.dies.all fun y => y.damaged.isEmpty then s
  else s.modDie (pool / Config.hbmBytes) fun k =>
    { k with damaged := k.damaged ++ k.damaged.filterMap fun
        | .scratchpad i o => if i = st.sid then some (.hbm (pool % Config.hbmBytes + o)) else none
        | .accumulator i o =>
          if i = st.sid then some (.hbm (pool % Config.hbmBytes + st.spGran * 16384 + o)) else none
        | _ => none }

/-- Damage of the pool of an image goes with it into the restored stand (R374, R386). -/
def State.loadStruck (s : State) (st : Stand) (h : Nat) : State :=
  if s.dies.all fun y => y.damaged.isEmpty then s
  else
    let pool := h % Config.hbmBytes + s.hbm.load (h + 0x2C) 4
    let sp := st.spGran * 16384
    s.modDie (h / Config.hbmBytes) fun k =>
      { k with damaged := k.damaged ++ k.damaged.filterMap fun
          | .hbm a =>
            if a < pool then none
            else if a < pool + sp then some (.scratchpad st.sid (a - pool))
            else if a < pool + sp + st.asGran * 16384 then some (.accumulator st.sid (a - pool - sp))
            else none
          | _ => none }

/-- Cord records of an image at an offset in window H: where each starts. -/
def imageCords (m : Memory) (h : Nat) : List (Nat × Role) → Nat → List Nat
  | [], _ => []
  | (_, r) :: rest, o =>
    o :: imageCords m h rest (o + cordSize (m.load (h + o + 0x180) 16) (m.load (h + o + 0x70) 8) r)

/-- Roles of an image. -/
def imageRoles (m : Memory) (h : Nat) : List Role :=
  (List.range (m.read (h + 0x15)).toNat).map fun n => roleOf (m.bytes (h + 0x40 + 16 * n) 16)

/-- Vector registers of the image at an offset in window H: the cord, the register, where its bytes start, and their
number (R385). -/
def imageRegs (m : Memory) (h : Nat) : List (Nat × Nat × Nat × Nat) :=
  let rs := rolesOf (imageRoles m h)
  ((List.range rs.length).zip (rs.zip (imageCords m h rs 0x140))).flatMap fun x =>
    let tags := m.load (h + x.2.2 + 0x180) 16
    let pendv := m.load (h + x.2.2 + 0x70) 8
    (List.range x.2.1.2.regs).map fun n =>
      (x.1, n, h + x.2.2 + 400 + 8 * x.2.1.2.sregs + regsBefore tags pendv n,
        regsBefore tags pendv (n + 1) - regsBefore tags pendv n)

/-- Damage of a stand's vector registers goes with them into its image: that of a lane with its word, and that of a
register saved by its tag with its first word (R374, R385). -/
def State.saveBad (s : State) (st : Stand) (h : Nat) : State :=
  if st.cords.all fun c => c.v.all fun r => decide (r.bad = 0) then s
  else s.modDie (h / Config.hbmBytes) fun k =>
    { k with damaged := k.damaged ++ (imageRegs s.hbm h).flatMap fun x =>
        let bad := ((st.cord? x.1).map fun c => (c.vreg x.2.1).bad).getD 0
        let words := if x.2.2.2 = 128 then Mask.toLanes bad else if bad = 0 then [] else [0]
        words.map fun l => .hbm ((x.2.2.1 + 4 * l) % Config.hbmBytes) }

/-- Damage of an image's registers goes with them into the restored stand (R374, R385). -/
def State.loadBad (s : State) (sid h : Nat) : State :=
  if s.dies.all fun y => y.damaged.isEmpty then s
  else (imageRegs s.hbm h).foldl (fun s x =>
    let lanes := (List.range 32).filter fun l => if x.2.2.2 = 128 then s.hbmBad (x.2.2.1 + 4 * l) 4 else s.hbmBad x.2.2.1 x.2.2.2
    s.modCord sid x.1 fun c => { c with v := c.v.modify x.2.1 fun r =>
      { r with bad := lanes.foldl (fun m l => m ||| (1 : Mask) <<< l) 0 } }) s

/-- Writes the image of a stand at an offset in window H. -/
def State.putImage (s : State) (h : Nat) (st : Stand) (head : List Byte) : State :=
  let sp := st.spGran * 16384
  let n := head.length + sp + st.asGran * 16384
  let hbm := ((s.hbm.put h head).overlay (h + head.length) sp st.sp).overlay (h + head.length + sp) (st.asGran * 16384)
    st.acc
  { ((s.forget h n).mended h n).saveStruck st (h + head.length) with hbm := hbm }.saveBad st h

/-- Writes one word in the lanes of a mask of a register of a saved cord, where its mark left room, and clears the mark. -/
def patchImage (m : Memory) (h cord n : Nat) (mask : Mask) (w : Word) : Memory :=
  let roles := rolesOf (imageRoles m h)
  match (imageCords m h roles 0x140)[cord]?, roles[cord]? with
  | some o, some (_, r) =>
    let pendv := m.load (h + o + 0x70) 8
    let at' := h + o + 400 + 8 * r.sregs + regsBefore (m.load (h + o + 0x180) 16) pendv n
    (Mask.toLanes mask).foldl (fun (m : Memory) l => m.store (at' + 4 * l) 4 w.toNat) m
  | _, _ => m

/-- PENDV bits of a saved cord that are still outstanding: the pair of a written status leaves them, but its registers
keep their 128 bytes, so the bits stay and the restored marks are those of the work still waiting. -/
def State.liveMarks (s : State) (sid cord : Nat) : List Nat :=
  s.works.flatMap fun i =>
    match i.work, i.work.dest? with
    | .copy t _ _ (.parked _), _ | .pin t _ _ _, _ => if t.sid = sid ∧ t.cord = cord then [t.d] else []
    | .access _, _ | .pbar _ _ _, _ | .resolve _ _ _ _ _, _ | .fold _ _ _ _, _ => []
    | _, some t => if t.sid = sid ∧ t.cord = cord then [t.d, t.d + 1] else []
    | _, none => []

/-- Writes the pair of a destination and clears its marks: in the cord where it is resident, in its image where it is
saved (R205, R210). -/
def State.writeDest (s : State) (t : Dest) (lo hi : Word) : State :=
  match s.stand? t.sid with
  | some _ =>
    s.modCord t.sid t.cord fun c => (c.writePair t.d t.mask lo hi).unmarkV [t.d, t.d + 1]
  | none =>
    match (s.dies.zip (List.range s.dies.length)).findSome? fun x =>
        (x.1.saved.find? fun v => v.sid = t.sid).map fun v => hAddr x.2 v.block with
    | some h => { s with hbm := patchImage (patchImage s.hbm h t.cord t.d t.mask lo) h t.cord (t.d + 1) t.mask hi }
    | none => s

/-- Writes one register of a destination and clears its mark (R206). -/
def State.writeHalf (s : State) (t : Dest) (n : Nat) (w : Word) : State :=
  match s.stand? t.sid with
  | some _ => s.modCord t.sid t.cord fun c => (c.writeV n t.mask (fun _ => w) .general).unmarkV [n]
  | none =>
    match (s.dies.zip (List.range s.dies.length)).findSome? fun x =>
        (x.1.saved.find? fun v => v.sid = t.sid).map fun v => hAddr x.2 v.block with
    | some h => { s with hbm := patchImage s.hbm h t.cord n t.mask w }
    | none => s

/-- The status of work that an instruction which reads it is ordered after: the threads' later accesses come after the
status (R192). -/
def State.writeStatus (s : State) (t : Dest) (lo hi : Word) : State := (s.writeDest t lo hi).acquireAt .die t.sid t.cord t.mask

/-- The stand an image holds, placed on a core with the given quadrants' cord slots. -/
def State.readImage (s : State) (v : Saved) (die core h : Nat) (cslots : List Nat) (e : Ctx) : Stand :=
  let m := s.hbm
  let now := s.clock
  let roles := imageRoles m h
  let rs := rolesOf roles
  let offs := imageCords m h rs 0x140
  let pool := m.load (h + 0x10) 4
  let poolOff := m.load (h + 0x2C) 4
  let sp := nbits pool 14 8
  let as := nbits pool 22 16
  let quads := quadsOf rs.length
  let st : Stand :=
    { sid := v.sid, tract := v.tract, standId := v.standId, die := die, core := core, ctx := v.ctx,
      prio := m.load (h + 0x19) 1, rf := nbits pool 6 0, spGran := sp, asGran := as, roles := roles,
      seed := BitVec.ofNat 32 (m.load (h + 0x10C) 4), param := 0, sys := e.sys, sec := e.sec, fpid := e.fpid,
      trapvec := e.trapvec, savebase := e.savebase, saven := e.saven, saveblk := e.saveblk, unfenced := v.unfenced, sp := m.slice (h + poolOff) (sp * 16384),
      acc := m.slice (h + poolOff + sp * 16384) (as * 16384),
      regions := (List.range 8).map fun n =>
        let w := m.load (h + 0x80 + 16 * n + 8) 8
        if w = 0 then none else some (m.load (h + 0x80 + 16 * n) 4, BitVec.ofNat 64 w),
      mstat := BitVec.ofNat 5 (m.load (h + 0x20) 8), q0b := BitVec.ofNat 64 (m.load (h + 0x30) 8),
      q1b := BitVec.ofNat 64 (m.load (h + 0x38) 8), q0cap := BitVec.ofNat 32 (m.load (h + 0x100) 4),
      q1cap := BitVec.ofNat 32 (m.load (h + 0x104) 4), q1age := BitVec.ofNat 32 (m.load (h + 0x108) 4),
      pins := v.pins, phase := .running, started := now,
      cords := ((List.range rs.length).zip (rs.zip offs)).map fun x =>
        cordOf now x.1 x.2.1.1 x.2.1.2 (quads.getD x.1 0) (cslots.getD x.1 0)
          (m.bytes (h + x.2.2) (cordSize (m.load (h + x.2.2 + 0x180) 16) (m.load (h + x.2.2 + 0x70) 8) x.2.1.2)) }
  { st with cords := st.cords.map fun c =>
      let gone := exitedLanes st c
      { c with
          exited := gone, released := gone = BitVec.allOnes 32,
          vmarks := c.vmarks.filter fun n => (s.liveMarks v.sid c.id).contains n } }

/-- Saved tasks of an image, in acceptance order (R279). -/
def imageTasks (m : Memory) (h sid now : Nat) : List Task :=
  (List.range (m.load (h + 0x1C) 4)).map fun n =>
    let b := m.bytes (h + m.load (h + 0x28) 4 + 80 * n) 80
    taskOf sid (recField b 64 4) (now - recField b 68 4) b

end Sys2Proof.Machine
end

