-- ==== Sys2Proof/Machine/Engine.lean ====
section
/-! DEFINITION. Accesses the device's engines make for a stand: whose they are, how they translate, what a page fault
or another fault of theirs does (07_copy.md R207, R208; 13_system.md R377, R389). -/

namespace Sys2Proof.Machine

/-- A saved stand, with its die. -/
def State.savedOf (s : State) (sid : Nat) : Option (Nat × Saved) :=
  (s.dies.zip (List.range s.dies.length)).findSome? fun x =>
    (x.1.saved.find? fun v => v.sid = sid).map fun v => (x.2, v)

/-- Offset in window H of the pool section of a saved stand's image (R386). -/
def State.poolOf (s : State) (d : Nat) (v : Saved) : Nat := hAddr d v.block + s.hbm.load (hAddr d v.block + 0x2C) 4

/-- Scratchpad of a stand: its window, or its part of the image (R386). -/
def State.spOf (s : State) (sid : Nat) : Memory :=
  match s.stand? sid with
  | some st => st.sp
  | none =>
    match s.savedOf sid with
    | some (d, v) => s.hbm.slice (s.poolOf d v) (nbits (s.hbm.load (hAddr d v.block + 0x10) 4) 14 8 * 16384)
    | none => []

/-- Bytes of a stand's scratchpad, resident or in its image, hold an uncorrectable error (R374). -/
def State.spStruck (s : State) (sid off n : Nat) : Bool :=
  match s.stand? sid with
  | some st => s.struck st.die (.scratchpad sid off) n
  | none =>
    match s.savedOf sid with
    | some (d, v) => s.hbmBad (s.poolOf d v + off) n
    | none => false

/-- Scratchpad bytes of a resident stand that an engine writes are no longer damaged. -/
def State.mendOf (s : State) (sid off n : Nat) : State :=
  match s.stand? sid with
  | some st => s.mendSp st off n
  | none => s

/-- Who a stand's engine work translates as: the L2's at the stand's world, a copy's secure only when the skidder is
(R389). -/
def State.engineAgent (s : State) (t : Dest) (skidder : Bool) : Option Agent :=
  let world (d c : Nat) (sec : Bool) : Bool := sec && (!skidder || (s.core d c).skSecure)
  let name := (s.named t).2
  match s.stand? t.sid with
  | some st => some ⟨st.die, st.ctx, world st.die st.core st.sec, st.fpid, skidder.toNat, st.core, name⟩
  | none =>
    (s.savedOf t.sid).map fun x =>
      ⟨x.1, x.2.ctx, world x.1 x.2.core x.2.sec, x.2.fpid, skidder.toNat, x.2.core, name⟩

/-- Who an access of the device translates as: its stand as it was placed, on that stand's core; else its context's entry,
on no core (R371, R391). -/
def State.originAgent (s : State) (o : Origin) : Agent :=
  match o.dest.bind fun t => s.engineAgent t false with
  | some a => a
  | none => ⟨o.die, o.ctx, (s.originProcess o).2, (s.originProcess o).1, 0,
      ((o.sid.bind s.placeOf).map fun x => x.2.1).getD 32, (s.namedBy o).2⟩

/-- A range of global memory translated for an engine: runs of window H offset and bytes, or the fault and its address. -/
def State.engineReach (s : State) (a : Agent) (u : Use) (va n : Nat) :
    State × Except (TrapCode × Nat) (List (Nat × Nat)) :=
  match s.reach a u va n with
  | (s, .error t) => (s, .error (t.code, (t.val.getD 0).toNat))
  | (s, .ok runs) =>
    let rs := runs.map fun r => (hAddr a.die r.2.2.1, r.2.1)
    if u ≠ .write && rs.any fun r => s.hbmBad r.1 r.2 then (s, .error (.memError, va)) else (s, .ok rs)

/-- Bytes of translated runs. -/
def gather (m : Memory) (runs : List (Nat × Nat)) : List Byte := runs.flatMap fun r => m.bytes r.1 r.2

/-- Writes bytes over translated runs. -/
def State.scatter (s : State) : List (Nat × Nat) → List Byte → State
  | [], _ => s
  | (h, n) :: r, bs => (s.hbmPut h (bs.take n)).scatter r (bs.drop n)

/-- An engine's write of a stand's scratchpad for some lanes of a cord: its window, or its part of the image (R208). -/
def State.putSp (s : State) (sid cord : Nat) (m : Mask) (off : Nat) (bs : List Byte) : State :=
  match s.stand? sid with
  | some st =>
    ((s.mendSp st off bs.length).modStand sid fun st =>
      { st with sp := st.sp.putFree (s.racySp st) s.fresh off bs }.wrote cord m off bs.length).draw
  | none =>
    match s.savedOf sid with
    | some (d, v) => s.hbmPut (s.poolOf d v + off) bs
    | none => s

/-- An engine's access ends in a fault: a page fault holds the work, any other fault is what `stop` makes of it. -/
def State.engineFault (s : State) (o : Origin) (id : Nat) (e : TrapCode × Nat)
    (stop : State → Trap → State) : State :=
  if e.1 = .pageFault then s.holdWork o id e.2
  else stop (s.dropWork id) { code := e.1, val := some (BitVec.ofNat 64 e.2) }

/-- Origin of a piece of work of an instruction. -/
def State.originOf (s : State) (t : Dest) : Origin :=
  match s.engineAgent t false with
  | some a => { die := a.die, ctx := a.ctx, dest := some t }
  | none => { die := 0, ctx := 0, dest := some t }

/-- An item that is not held by a page fault. -/
def State.active? (s : State) (id : Nat) : Option Work :=
  match s.work? id with
  | some i => if i.held.isNone then some i.work else none
  | none => none

/-- The focused stand with its issuing path put back, for what acts on a whole stand. -/
def State.settled (s : State) (f : Focus) : State := s.seat f.whole

/-- Adds work of the focused path's instruction, marks its pair, and moves the path on. -/
def State.begin (s : State) (f : Focus) (d : VCode) (m : Mask) (w : Dest → Work) : State :=
  let t : Dest := ⟨f.stand.sid, f.cord.id, f.slotB, f.path.restart, m, d.toNat⟩
  (s.addWork (w t)).keep { f with cord := f.cord.markV [t.d, t.d + 1] }.advance

/-- Writes a pair at once in the lanes of the path's mask, and moves the path on. -/
def State.answer (s : State) (f : Focus) (d : VCode) (lo hi : Word) : State :=
  s.keep { f with cord := f.cord.writePair d.toNat f.path.mask lo hi }.advance

end Sys2Proof.Machine
end

