-- ==== Sys2Proof/Machine/Copy.lean ====
section
/-! DEFINITION. Asynchronous copies, barrier objects, multicast and the claims of canopy slots (07_copy.md R204 to
R222, 09_matrix.md R285). -/

namespace Sys2Proof.Machine

/-! ### The skidder's queue -/

/-- Entries of a core's skidder that are held (R204). -/
def State.skidding (s : State) (d c : Nat) : Nat :=
  (s.works.filter fun i => match i.work with
    | .copy _ d' c' _ => decide (d' = d) && decide (c' = c)
    | .combineInit t _ _ | .combine t _ _ _ _ _ _ =>
      match s.engineAgent t true with
      | some a => decide (a.die = d) && decide (a.index = c)
      | none => false
    | _ => false).length

/-- No entry of the skidder is free. -/
def skidFull (s : State) (f : Focus) : Bool :=
  decide (32 ≤ (s.settled f).skidding f.stand.die f.stand.core)

/-- Enters a copy of the focused path. -/
def State.beginCopy (s : State) (f : Focus) (d : VCode) (m : Mask) (k : CopyKind) : State :=
  s.begin f d m fun t => .copy t f.stand.die f.stand.core k

/-- Status words of R205. -/
def codeDone : Nat := 0
def codeBusy : Nat := 1
def codeDiscarded : Nat := 2
def codeFaulted : Nat := 3

/-- Completes a copy with its status (R206). -/
def State.copyStatus (s : State) (id : Nat) (t : Dest) (lo : Word) (count : Nat) : State :=
  (s.dropWork id).writeStatus t lo (BitVec.ofNat 32 count)

/-- Ends a copy in a fault found while it moved data: its status, then the fault on the stand (R207). -/
def State.copyFault (t : Dest) (count : Nat) (s : State) (r : Trap) : State :=
  let lo := statusLow codeFaulted false false r.code.num.toNat 0
  let s := s.writeDest t lo (BitVec.ofNat 32 count)
  s.trapInFlight t { r with info := BitVec.ofNat 32 count ++ lo }

/-- Ends a CPY in a fault: each lane before the one at fault has its own DONE status, the others FAULTED (R205, R207). -/
def State.laneFault (t : Dest) (n : Nat) (done : Mask) (s : State) (r : Trap) : State :=
  let s := if done = 0 then s else s.writeDest { t with mask := done } (statusLow codeDone false false 0 0) (BitVec.ofNat 32 n)
  State.copyFault { t with mask := t.mask &&& ~~~done } 0 s r

/-! ### CPY and CPYT -/

def srcGlobal : CopyDir → Bool
  | .h2s | .h2h => true
  | _ => false

def dstGlobal : CopyDir → Bool
  | .s2h | .h2h => true
  | _ => false

/-- Range of one side of a lane's copy (R169, R170). -/
def sideTrap (st : Stand) (isGlobal : Bool) (n a : Nat) : Option Trap :=
  if isGlobal then rangeTrap n [(0, a)] else spTrap st n [(0, a)]

/-- CPY (R211). -/
def execCpy (d : VCode) (r : SCode) (v : VCode) (dir : CopyDir) (size : CopySize) (s : State) :
    Host.Outcome State Fault Refusal :=
  issue (.cpy d r v dir size) s fun f =>
    let n := match size with | .b4 => 4 | .b8 => 8 | .b16 => 16
    let m := f.active
    let moves := (Mask.toLanes m).map fun l => (l, f.laneAddr r v l, f.laneAddr r (v + 1) l)
    if m = 0 then .done (s.keep f.advance)
    else if skidFull s f then .held
    else
      match moves.find? fun x => decide (x.2.1 % n ≠ 0) || decide (x.2.2 % n ≠ 0) with
      | some x => .trap s (misalign [(x.2.1, n), (x.2.2, n)])
      | none =>
        match moves.findSome? fun x =>
            (sideTrap f.stand (srcGlobal dir) n x.2.1).or (sideTrap f.stand (dstGlobal dir) n x.2.2) with
        | some t => .trap s t
        | none => .done (s.beginCopy f d m (.lanes dir n moves))

/-- Fields of a CPYT record (R212). -/
structure TensorRec where
  gaddr : Nat
  spoff : Nat
  e0 : Nat
  e1 : Nat
  e2 : Nat
  e3 : Nat
  g1 : Int
  g2 : Int
  g3 : Int
  s1 : Int
  s2 : Int
  s3 : Int

def signed (n w : Nat) : Int := (BitVec.ofNat w n).toInt

def tensorRec (r : List Byte) : TensorRec :=
  { gaddr := recField r 0 8, spoff := recField r 8 4, e0 := recField r 12 4, e1 := recField r 16 2,
    e2 := recField r 18 2, e3 := recField r 20 2, g1 := signed (recField r 24 8) 64, g2 := signed (recField r 32 8) 64,
    g3 := signed (recField r 40 8) 64, s1 := signed (recField r 48 4) 32, s2 := signed (recField r 52 4) 32,
    s3 := signed (recField r 56 4) 32 }

/-- The limits of R212 that a range is computed from. -/
def TensorRec.limits (x : TensorRec) : Bool :=
  decide (x.gaddr < 2 ^ 57) && decide (x.gaddr % 4 = 0) && decide (x.spoff % 4 = 0) && decide (4 ≤ x.e0) &&
    decide (x.e0 ≤ 2 ^ 20) && decide (x.e0 % 4 = 0) && decide (1 ≤ x.e1) && decide (1 ≤ x.e2) && decide (1 ≤ x.e3) &&
    [x.g1, x.g2, x.g3, x.s1, x.s2, x.s3].all (fun k => decide (k % 4 = 0)) &&
    decide (x.e0 * x.e1 * x.e2 * x.e3 ≤ 2 ^ 24)

/-- Least and greatest start of a row over the corners of the iteration space (R213). -/
def corners (base : Int) (dims : List (Nat × Int)) : Int × Int :=
  dims.foldl (fun b x => let k := ((x.1 : Int) - 1) * x.2; (b.1 + min 0 k, b.2 + max 0 k)) (base, base)

/-- Rows in R213's order: global address, scratchpad offset. -/
def TensorRec.rows (x : TensorRec) : List (Nat × Nat) :=
  (List.range (x.e3 * x.e2 * x.e1)).map fun k =>
    let i1 := k % x.e1
    let i2 := k / x.e1 % x.e2
    let i3 := k / (x.e1 * x.e2)
    (((x.gaddr : Int) + i1 * x.g1 + i2 * x.g2 + i3 * x.g3).toNat,
      ((x.spoff : Int) + i1 * x.s1 + i2 * x.s2 + i3 * x.s3).toNat)

/-- A record of n bytes at a scratchpad offset that must be a multiple of `al`: MISALIGNED, then SP_RANGE. -/
def recTrap (st : Stand) (al n off : Nat) : Option Trap :=
  if off % al ≠ 0 then some (misalign [(off, al)]) else spTrap st n [(0, off)]

/-- Offset bits(S + disp, 31, 0). -/
def Focus.off32 (f : Focus) (r : SCode) : Nat := f.addr r % 2 ^ 32

/-- CPYT (R212, R213). -/
def execCpyt (o : XOps) (s2h : Bool) (s : State) : Host.Outcome State Fault Refusal :=
  issue (.cpyt o s2h) s fun f =>
    let off := f.off32 o.s
    let r := f.stand.sp.bytes off 64
    let x := tensorRec r
    let g := corners x.gaddr [(x.e1, x.g1), (x.e2, x.g2), (x.e3, x.g3)]
    let p := corners x.spoff [(x.e1, x.s1), (x.e2, x.s2), (x.e3, x.s3)]
    if skidFull s f then .held
    else
      match (recTrap f.stand 64 64 off).or (f.damage s [(off, 64)]) with
      | some t => .trap s t
      | none =>
        if !x.limits then .trap s { code := .copyParam }
        else if g.1 < 0 ∨ 2 ^ 57 < g.2 + x.e0 then .trap s { code := .addressRange }
        else if p.1 < 0 ∨ ((f.stand.spGran * 16384 : Nat) : Int) < p.2 + x.e0 then .trap s { code := .spRange }
        else if recField r 22 2 ≠ 0 ∨ recField r 60 4 ≠ 0 then .trap s { code := .copyParam }
        else
          .done (s.beginCopy f o.d f.path.mask (.tensor s2h (x.rows.map fun y =>
            if s2h then (y.2, y.1, x.e0) else (y.1, y.2, x.e0))))

/-- One move of a copy with its global sides translated. -/
structure Piece where
  src : List (Nat × Nat)
  dst : List (Nat × Nat)
  n : Nat

/-- Translates the moves in order, up to the first that faults (R207). -/
def State.plan (s : State) (a : Agent) (sid : Nat) (srcG dstG : Bool) :
    List (Nat × Nat × Nat) → State × List Piece × Option (TrapCode × Nat)
  | [] => (s, [], none)
  | (x, y, n) :: r =>
    match (if srcG then s.engineReach a .read x n
      else (s, if s.spStruck sid x n then .error (.memError, x) else .ok [(x, n)])) with
    | (s, .error e) => (s, [], some e)
    | (s, .ok rs) =>
      match (if dstG then s.engineReach a .write y n else (s, .ok [(y, n)])) with
      | (s, .error e) => (s, [], some e)
      | (s, .ok ws) =>
        let q := s.plan a sid srcG dstG r
        (q.1, ⟨rs, ws, n⟩ :: q.2.1, q.2.2)

/-- Bytes of a piece: a destination byte that the copy also reads is free (R209, log 5). -/
def pieceBytes (m : Memory) (fresh : Nat) (overlap : List (Nat × Nat)) (p : Piece) : List Byte :=
  let addrs := p.dst.flatMap fun w => (List.range w.2).map fun k => w.1 + k
  (addrs.zip (gather m p.src)).map fun x =>
    if overlap.any fun r => decide (r.1 ≤ x.1) && decide (x.1 < r.1 + r.2) then Config.freeByte fresh x.1 else x.2

/-- Writes a piece. -/
def State.putPiece (s : State) (dstG : Bool) (t : Dest) (p : Piece) (bs : List Byte) : State :=
  if dstG then s.scatter p.dst bs else s.putSp t.sid t.cord t.mask ((p.dst.headD (0, 0)).1) bs

/-- Moves a per-lane or bulk copy's data, and completes it; `stop` says what a fault makes of it, from the pieces moved. -/
def State.moveAll (s : State) (id : Nat) (t : Dest) (srcG dstG : Bool) (moves : List (Nat × Nat × Nat)) (count : Nat)
    (stop : List Piece → State → Trap → State) : State :=
  match s.engineAgent t true with
  | none => s.dropWork id
  | some a =>
    let q := s.plan a t.sid srcG dstG moves
    let s := q.1
    match q.2.2 with
    | some (.pageFault, va) => s.holdWork (s.originOf t) id va
    | e =>
      let m := if srcG then s.hbm else s.spOf t.sid
      let overlap := if srcG = dstG then q.2.1.flatMap Piece.src else []
      let s' := (q.2.1.map fun p => (p, pieceBytes m s.fresh overlap p)).foldl
        (fun s x => s.putPiece dstG t x.1 x.2) s.draw
      match e with
      | none => s'.copyStatus id t (statusLow codeDone false false 0 0) count
      | some (c, va) => stop q.2.1 (s'.dropWork id) { code := c, val := some (BitVec.ofNat 64 va) }

/-! ### Barrier objects (R215 to R217) -/

/-- Counts into a barrier object: REMAIN changes by k, ARRIVED by one when a transfer ended, and ARMED when BARI runs.
Whether COMPLETE is set now. -/
def barrierCount (m : Memory) (o : Nat) (k : Int) (last arm : Bool) : Memory × Bool :=
  let remain := BitVec.ofInt 64 ((BitVec.ofNat 64 (m.load o 8)).toInt + k)
  let arrived := (m.load (o + 8) 4 + last.toNat) % 2 ^ 32
  let bits := m.load (o + 12) 4
  let armed := arm || nbits bits 0 0 = 1
  let under := nbits bits 2 2 = 1 || (armed && decide (remain.toInt < 0))
  let now := armed && nbits bits 1 1 = 0 && decide (remain.toInt ≤ 0)
  let bits := bits / 8 * 8 + under.toNat * 4 + (nbits bits 1 1 = 1 || now).toNat * 2 + armed.toNat
  (((m.store o 8 remain.toNat).store (o + 8) 4 arrived).store (o + 12) 4 bits, now)

/-- Paths of a stand in a wait. -/
def Stand.waiting (st : Stand) (test : Wait → Bool) : List (Nat × Bool) :=
  st.cords.flatMap fun c => [false, true].filterMap fun b =>
    if ((c.slot b).bind Path.wait).any test then some (c.id, b) else none

/-- Counts into a barrier object of a resident stand and wakes its waiters (R216). -/
def State.countBarrier (s : State) (sid o : Nat) (k : Int) (last arm : Bool) : State :=
  match s.stand? sid with
  | none => s
  | some st =>
    let r := barrierCount st.sp o k last arm
    let s := s.modStand sid fun x => { x with sp := r.1 }
    if r.2 then (st.waiting (· == .barrier o)).foldl (fun s p => s.wakePath sid p.1 p.2 fun _ x => x) s else s

/-- The cord has phase-bit arrivals on their way to the banks, or the path deque steps that are acquires, which their
later scratchpad accesses follow (R187, R193). -/
def pbarPending (s : State) (f : Focus) : Bool :=
  s.acquiring f.stand.sid f.cord.id f.path.mask ||
  s.works.any fun i => match i.work with
    | .pbar t _ _ => t.sid = f.stand.sid && t.cord = f.cord.id
    | _ => false

/-- BARI (R217). -/
def execBari (o : XOps) (s : State) : Host.Outcome State Fault Refusal :=
  issue (.bari o) s fun f =>
    if pbarPending s f then .held
    else
      match (recTrap f.stand 16 16 (f.off32 o.s)).or (f.damage s [(f.off32 o.s, 16)]) with
      | some t => .trap s t
      | none =>
        .done ((s.settled f.advance).countBarrier f.stand.sid (f.off32 o.s) (f.low o.d).toNat false true)

/-- Parks the focused path in a wait, with the marks of what it will write (R89, R137). A stand that stops issuing
withdraws the wait at once (R379 step 2). -/
def State.park (s : State) (f : Focus) (w : Wait) : State :=
  let s := s.settled { f with
    cord := (f.cord.markV w.vregs).markS w.sregs,
    path := { f.path with wait := some w, yielded := false, chain := {} } }
  if f.stand.phase = .running then s else s.withdraw f.stand.sid f.cord.id f.slotB

/-- BARW (R217). -/
def execBarw (r : SCode) (s : State) : Host.Outcome State Fault Refusal :=
  issue (.barw r) s fun f =>
    if pbarPending s f then .held
    else
      match (recTrap f.stand 16 16 (f.off32 r)).or (f.damage s [(f.off32 r, 16)]) with
      | some t => .trap s t
      | none =>
        if nbits (f.stand.sp.load (f.off32 r + 12) 4) 1 1 = 1 then
          .done ((s.acquireAt .grove f.stand.sid f.cord.id f.path.mask).keep f.advance)
        else .done (s.park f (.barrier (f.off32 r)))

/-! ### CPYX (R218) -/

/-- A receiver core outside the issuer's grove (R214). -/
def castTrap (st : Stand) (c : Nat) : Option Trap :=
  if c / 8 = st.core / 8 then none else some { code := .mcastRange, val := some (BitVec.ofNat 64 c) }

/-- CPYX (R218). -/
def execCpyx (o : XOps) (s : State) : Host.Outcome State Fault Refusal :=
  issue (.cpyx o) s fun f =>
    let a := (f.cord.sreg o.s).toNat
    let b := (f.cord.sreg (o.s + 1)).toNat
    let dst := nbits a 63 32
    let src := nbits a 31 0
    let c := nbits b 60 56
    let n := nbits b 52 32
    let obj := nbits b 31 0
    if skidFull s f then .held
    else if dst % 16 ≠ 0 ∨ src % 16 ≠ 0 ∨ obj % 16 ≠ 0 then .trap s (misalign [(dst, 16), (src, 16), (obj, 16)])
    else if n < 16 ∨ 2 ^ 20 < n ∨ n % 16 ≠ 0 then .trap s { code := .copyParam }
    else
      match (spTrap f.stand n [(0, src)]).or (castTrap f.stand c) with
      | some t => .trap s t
      | none =>
        if nbits b 63 61 ≠ 0 ∨ nbits b 55 53 ≠ 0 then .trap s { code := .copyParam }
        else .done (s.beginCopy f o.d f.path.mask (.cross src dst obj n c 0 .reaching))

/-- One beat of a CPYX: it reaches its core, or is discarded, or opens, or delivers at most 64 bytes and counts them. -/
def State.crossBeat (s : State) (id : Nat) (t : Dest) (d c src dst obj n rc sent : Nat) (x : Cross) : State :=
  let keep (s : State) (sent : Nat) (x : Cross) : State :=
    s.setWork id (.copy t d c (.cross src dst obj n rc sent x))
  match x with
  | .reaching =>
    match s.tractOf t.sid with
    | some tr => if s.unreleased id t.sid t.cord t.mask then s else keep s sent (s.crossNow d rc tr)
    | none => s.dropWork id
  | .waiting _ => s
  | .finished => s.copyStatus id t (statusLow codeDiscarded true false 0 0) 0
  | .opened sid =>
    if n ≤ sent then s
    else
      match s.stand? sid with
      | none => s
      | some st =>
        match (if sent = 0 then (spTrap st n [(0, dst)]).or (spTrap st 16 [(0, obj)]) else none) with
        | some r => State.copyFault t 0 (s.dropWork id) r
        | none =>
          let k := min 64 (n - sent)
          if s.spStruck t.sid (src + sent) k || s.spStruck sid obj 16 then
            State.copyFault t sent (s.dropWork id) { code := .memError }
          else
            let overlap := if sid = t.sid then [(src, n)] else []
            let bs := pieceBytes (s.spOf t.sid) s.fresh overlap ⟨[(src + sent, k)], [(dst + sent, k)], k⟩
            let s := (s.draw.mendSp st (dst + sent) k).modStand sid fun y =>
              { y with sp := y.sp.putFree (s.racySp y) (s.fresh + 1) (dst + sent) bs,
                       unfenced := y.unfenced ++ [⟨64, 0, dst + sent, k, none, { s.place with die := 0 }, []⟩] }
            keep (s.countBarrier sid obj (-(k : Int)) (decide (sent + k = n)) false) (sent + k) x

/-- CPYX_BEAT_ARRIVE (R216). -/
def execCpyxBeatArrive (id : Nat) (s : State) : Host.Outcome State Fault Refusal :=
  let s := s.unfocus
  match s.active? id with
  | some (.copy t d c (.cross src dst obj n rc sent x)) => .next (s.crossBeat id t d c src dst obj n rc sent x)
  | _ => .next s

/-! ### Multicast (R219, R220) -/

/-- CPYM (R219). -/
def execCpym (o : XOps) (s : State) : Host.Outcome State Fault Refusal :=
  issue (.cpym o) s fun f =>
    let a := (f.cord.sreg o.s).toNat
    let b := (f.cord.sreg (o.s + 1)).toNat
    let src := nbits a 31 0
    let n := nbits a 45 32
    let mask : Mask := BitVec.ofNat 32 b
    if skidFull s f then .held
    else if src % 16 ≠ 0 then .trap s (misalign [(src, 16)])
    else if n < 16 ∨ 8192 < n ∨ n % 16 ≠ 0 then .trap s { code := .copyParam }
    else
      match (spTrap f.stand n [(0, src)]).or ((Mask.toLanes mask).findSome? (castTrap f.stand)) with
      | some t => .trap s t
      | none =>
        if nbits a 47 46 ≠ 0 ∨ nbits b 63 32 ≠ 0 then .trap s { code := .copyParam }
        else .done (s.beginCopy f o.d f.path.mask (.park (BitVec.ofNat 16 (nbits a 63 48)) n src mask))

/-- The share a receiver's core gets when a tile is parked (R214). -/
def shareOf (s : State) (d tract c : Nat) : Option Share × Bool :=
  if s.residentOf d c tract ≠ [] then (some (.opened c), false)
  else if (s.core d c).ended.contains tract then (none, true)
  else (some (.waiting c (s.clock + 2 ^ 20)), false)

/-- The first free slot of the holding buffer of a core's grove. -/
def State.freeHold (s : State) (d c : Nat) : Option Nat := (s.grove d (c / 8)).hold.findIdx? Option.isNone

/-- CPYM_PARK: the tile enters the first free slot, its shares open, and the high word is written (R206, R219). A zero
mask parks nothing. -/
def execCpymPark (id : Nat) (s : State) : Host.Outcome State Fault Refusal :=
  let s := s.unfocus
  match s.active? id with
  | some (.copy t d c (.park tag n src mask)) =>
    if mask = 0 then .next (s.copyStatus id t (statusLow codeDone false false 0 0) 0)
    else if s.unreleased id t.sid t.cord t.mask then .next s
    else if s.spStruck t.sid src n then .next (State.copyFault t 0 (s.dropWork id) { code := .memError })
    else
      match s.tractOf t.sid, s.freeHold d c with
      | some tr, some slot =>
        let rs := (Mask.toLanes mask).map (shareOf s d tr)
        let h : Hold := { tract := tr, tag := tag, bytes := (s.spOf t.sid).bytes src n, shares := rs.filterMap Prod.fst,
                          drained := 0, fin := rs.any Prod.snd, tmo := false, order := s.uid, copy := id }
        let s := (s.modGrove d (c / 8) fun g => { g with hold := g.hold.set slot (some h) }).mendAt d
          (.holding (c / 8) slot 0) 8192
        let s := { s with uid := s.uid + 1 }.setWork id (.copy t d c (.parked slot))
        .next ((s.writeHalf t (t.d + 1) (BitVec.ofNat 32 n)).acquireAt .die t.sid t.cord t.mask)
      | _, _ => .next s
  | _ => .next s

/-- MCDRAIN (R220). -/
def execMcdrain (o : XOps) (s : State) : Host.Outcome State Fault Refusal :=
  issue (.mcdrain o) s fun f =>
    let a := (f.cord.sreg o.s).toNat
    let dst := nbits a 31 0
    if skidFull s f then .held
    else
      match recTrap f.stand 16 8192 dst with
      | some t => .trap s t
      | none =>
        if nbits a 63 48 ≠ 0 then .trap s { code := .copyParam }
        else .done (s.beginCopy f o.d f.path.mask (.drain (BitVec.ofNat 16 (nbits a 47 32)) dst))

/-- The open share an MCDRAIN would take: the oldest of its core, tag and tract (R220). -/
def State.openShare (s : State) (d c tract : Nat) (tag : BitVec 16) : Option (Nat × Hold) :=
  let g := s.grove d (c / 8)
  ((List.range g.hold.length).zip g.hold).foldl (fun best x =>
    match x.2 with
    | some h =>
      if h.tag = tag ∧ h.tract = tract ∧ h.shares.contains (.opened c) = true then
        match best with
        | some (k, y) => if y.order ≤ h.order then some (k, y) else some (x.1, h)
        | none => some (x.1, h)
      else best
    | none => best) none

/-- MCDRAIN_MATCH: the first pending MCDRAIN of the core that the share suits takes it; its stand is no longer served
once its image is written (R210, R220). -/
def execMcdrainMatch (id : Nat) (s : State) : Host.Outcome State Fault Refusal :=
  let s := s.unfocus
  match s.active? id with
  | some (.copy t d c (.drain tag dst)) =>
    match s.stand? t.sid with
    | none => .next s
    | some st =>
      let first := (s.works.takeWhile fun i => i.id ≠ id).all fun i => match i.work with
        | .copy t' d' c' (.drain tag' _) =>
          !(decide (d' = d) && decide (c' = c) && decide (tag' = tag) &&
            (s.stand? t'.sid).any fun y => decide (y.tract = st.tract))
        | _ => true
      match s.openShare d c st.tract tag with
      | some (slot, h) =>
        if first && !st.phase.isSaving && s.struck d (.holding (c / 8) slot 0) h.bytes.length then
          .next (State.copyFault t 0 (s.dropWork id) { code := .memError })
        else if first && !st.phase.isSaving then
          let s := s.putSp t.sid t.cord t.mask dst h.bytes
          let h := { h with shares := h.shares.filter fun x => x ≠ .opened c, drained := h.drained + 1 }
          let s := s.modGrove d (c / 8) fun g => { g with hold := g.hold.set slot (some h) }
          .next (s.copyStatus id t (statusLow codeDone false false 0 0) h.bytes.length)
        else .next s
      | none => .next s
  | _ => .next s

/-- SHARE_WAIT_TIMEOUT: a transfer or share that no receiving stand has opened in 2^20 cycles is discarded (R214). -/
def execShareWaitTimeout (id core : Nat) (s : State) : Host.Outcome State Fault Refusal :=
  let s := s.unfocus
  match s.active? id with
  | some (.copy t _ _ (.cross _ _ _ _ _ _ (.waiting e))) =>
    if e ≤ s.clock then .next (s.copyStatus id t (statusLow codeDiscarded false true 0 0) 0) else .next s
  | some (.copy _ d c (.parked slot)) =>
    .next (s.modGrove d (c / 8) fun g =>
      { g with hold := g.hold.modify slot fun h => h.map fun y =>
          let late (x : Share) : Bool := match x with
            | .waiting k e => decide (k = core) && decide (e ≤ s.clock)
            | _ => false
          { y with shares := y.shares.filter fun x => !late x, tmo := y.tmo || y.shares.any late } })
  | _ => .next s

/-- COPY_DONE: CPY and CPYT move their data and report; a CPYX whose last beat is counted, and a CPYM whose shares are
all drained or discarded, report (R206). -/
def execCopyDone (id : Nat) (s : State) : Host.Outcome State Fault Refusal :=
  let s := s.unfocus
  match s.active? id with
  | some (.copy t d c k) =>
    if s.unreleased id t.sid t.cord t.mask then .next s
    else
      match k with
      | .lanes dir n moves =>
        .next (s.moveAll id t (srcGlobal dir) (dstGlobal dir) (moves.map fun x => (x.2.1, x.2.2, n)) n
          fun ps => State.laneFault t n ((moves.take ps.length).foldl (fun m x => m ||| (1 : Mask) <<< x.1) 0))
      | .tensor s2h rows =>
        .next (s.moveAll id t (!s2h) s2h rows ((rows.map fun r => r.2.2).foldl (· + ·) 0)
          fun ps => State.copyFault t ((ps.map Piece.n).foldl (· + ·) 0))
      | .cross _ _ _ n _ sent (.opened _) =>
        if n ≤ sent then .next (s.copyStatus id t (statusLow codeDone false false 0 0) n) else .next s
      | .parked slot =>
        match (s.grove d (c / 8)).hold.getD slot none with
        | some h =>
          if h.shares = [] then
            let code := if h.fin || h.tmo then codeDiscarded else codeDone
            let s := s.modGrove d (c / 8) fun g => { g with hold := g.hold.set slot none }
            .next (((s.dropWork id).writeHalf t t.d (statusLow code h.fin h.tmo 0 h.drained)).acquireAt .die t.sid t.cord t.mask)
          else .next s
        | none => .next s
      | _ => .next s
  | _ => .next s

/-! ### Canopy claims (R222) -/

/-- Claims on a slot of a core, in acceptance order: handle, and the task sequence at acceptance. -/
def State.claims (s : State) (d c slot : Nat) : List (Nat × Nat) :=
  s.works.filterMap fun i => match i.work with
    | .copy _ d' c' (.weight w _ _ q _) | .copy _ d' c' (.evict w q) =>
      if d' = d ∧ c' = c ∧ w = slot then some (i.id, q) else none
    | _ => none

/-- A pin on a slot that was taken before the acceptance of a claim: a program's, or that of a task accepted before. -/
def State.pinnedBefore (s : State) (d c slot seq : Nat) : Bool :=
  let k := s.core d c
  (k.allTasks.any fun t => t.pinned && decide (t.pin = slot) && decide (t.seq < seq)) ||
  s.stands.any (fun st => decide (st.die = d) && decide (st.core = c) && st.pins.contains slot) ||
  (s.die d).saved.any fun v => decide (v.core = c) &&
    (v.pins.contains slot || v.taskPins.any fun x => decide (x.1 = slot) && decide (x.2 < seq))

/-- A WPIN of a slot that stands before a piece of work and has yet to take its pin (R284). -/
def Work.pinsSlot (d c slot : Nat) : Work → Bool
  | .pin _ d' c' w => decide (d' = d) && decide (c' = c) && decide (w = slot)
  | _ => false

/-- A claim may be granted: every earlier claim on the slot is complete, and every earlier pin released. -/
def State.grantable (s : State) (d c slot seq id : Nat) : Bool :=
  ((s.claims d c slot).takeWhile fun x => x.1 ≠ id).isEmpty && !s.pinnedBefore d c slot seq &&
    !(s.before id).any (Work.pinsSlot d c slot)

/-- A claim could be granted at once, were it accepted now. -/
def claimFree (s : State) (f : Focus) (slot : Nat) : Bool :=
  let s := s.settled f
  (s.claims f.stand.die f.stand.core slot).isEmpty &&
    !s.works.any (fun i => i.work.pinsSlot f.stand.die f.stand.core slot) &&
    !s.pinnedBefore f.stand.die f.stand.core slot (s.core f.stand.die f.stand.core).taskSeq

/-- CPYW (R221). -/
def execCpyw (o : XOps) (nb : Bool) (s : State) : Host.Outcome State Fault Refusal :=
  issue (.cpyw o nb) s fun f =>
    let src := (f.cord.sreg o.s).toNat
    let b := (f.cord.sreg (o.s + 1)).toNat
    let slot := nbits b 6 0
    let scales := nbits b 8 8 = 1
    if skidFull s f then .held
    else if src % 256 ≠ 0 then .trap s (misalign [(src, 256)])
    else
      match rangeTrap (32768 + if scales then 2048 else 0) [(0, src)] with
      | some t => .trap s t
      | none =>
        if nbits b 7 7 ≠ 0 ∨ nbits b 63 9 ≠ 0 then .trap s { code := .copyParam }
        else if nb && !claimFree s f slot then
          .done (s.answer f o.d (statusLow codeBusy false false 0 0) 0)
        else
          .done (s.beginCopy f o.d f.path.mask
            (.weight slot src scales (s.core f.stand.die f.stand.core).taskSeq nb))

/-- Raises the pin count of a canopy slot (R258). -/
def State.pinSlot (s : State) (d c slot : Nat) : State :=
  s.modCore d c fun k => { k with canopy := k.canopy.modify slot fun x => { x with pins := x.pins + 1 } }

/-- The slot's owner is not the context of an agent. -/
def State.ownedElse (s : State) (d c slot : Nat) (ctx : Option Nat) : Bool :=
  (((s.core d c).canopy.getD slot {}).owner).any fun x => ctx ≠ some x

/-- A WPIN that has waited for the claims accepted before it meets its checks and takes its pin, for its stand or for the
saved one (R284). -/
def State.takePin (s : State) (id : Nat) (t : Dest) (d c slot : Nat) : State :=
  let pins := ((s.core d c).canopy.getD slot {}).pins
  let s := s.dropWork id
  if 65535 ≤ pins then s.trapInFlight t { code := .matrixParam }
  else if s.ownedElse d c slot ((s.engineAgent t false).map Agent.ctx) then s.trapInFlight t { code := .protection }
  else
    (((s.pinSlot d c slot).modStand t.sid fun st => { st with pins := st.pins ++ [slot] }).modDie d fun x =>
      { x with saved := x.saved.map fun v => if v.sid = t.sid then { v with pins := v.pins ++ [slot] } else v }).writeHalf
        t t.d (BitVec.ofNat 32 (pins + 1))

/-- CPYW_CLAIM_GRANT (R222); a pin that waits for the claims before it is granted in the same way (R284). -/
def execCpywClaimGrant (id : Nat) (s : State) : Host.Outcome State Fault Refusal :=
  let s := s.unfocus
  match s.active? id with
  | some (.pin t d c slot) =>
    if ((s.claims d c slot).any fun x => x.1 < id) then .next s else .next (s.takePin id t d c slot)
  | some (.copy t d c (.weight slot src scales seq _)) =>
    if s.grantable d c slot seq id && !s.unreleased id t.sid t.cord t.mask then
      .next (s.setWork id (.copy t d c (.weight slot src scales seq true)))
    else .next s
  | _ => .next s

/-- Bytes as a memory from address a. -/
def ofBytes : Nat → List Byte → Memory
  | _, [] => []
  | a, b :: r => if b = 0 then ofBytes (a + 1) r else (a, b) :: ofBytes (a + 1) r

/-- Ends a fill or an eviction of a slot: OWNER and GEN (R258). -/
def State.endFill (s : State) (d c slot : Nat) (owner : Option Nat) (f : Canopy → Canopy) : State :=
  s.modCore d c fun k =>
    { k with canopy := k.canopy.modify slot fun x => { f x with owner := owner, gen := (x.gen + 1) % 2 ^ 32 } }

/-- CPYW_FILL_DONE: the tile and its side band are read and written, OWNER and GEN set, and the status written (R222). -/
def execCpywFillDone (id : Nat) (s : State) : Host.Outcome State Fault Refusal :=
  let s := s.unfocus
  match s.active? id with
  | some (.copy t d c (.weight slot src scales _ true)) =>
    match s.engineAgent t true with
    | none => .next (s.dropWork id)
    | some a =>
      let n := 32768 + if scales then 2048 else 0
      let q := s.plan a t.sid true false ((pageRuns src n).map fun r => (src + r.1, 0, r.2))
      let s := q.1
      let bs := q.2.1.flatMap fun p => gather s.hbm p.src
      let fill (x : Canopy) : Canopy :=
        { x with
            bytes := x.bytes.overlay 0 (min 32768 bs.length) (ofBytes 0 (bs.take 32768)),
            side := x.side.overlay 0 (bs.length - 32768) (ofBytes 0 (bs.drop 32768)) }
      match q.2.2 with
      | none =>
        .next (((s.endFill d c slot (some a.ctx) fill).mendAt d (.canopy c slot 0) n).copyStatus id t (statusLow codeDone false false 0 0) n)
      | some (.pageFault, va) => .next (s.holdWork (s.originOf t) id va)
      | some (e, va) =>
        .next (State.copyFault t bs.length
          (((s.endFill d c slot (some a.ctx) fill).mendAt d (.canopy c slot 0) bs.length).dropWork id)
          { code := e, val := some (BitVec.ofNat 64 va) })
  | _ => .next s

/-- The slot's owner is another context (R269, R284, R285). -/
def State.owned (s : State) (f : Focus) (slot : Nat) : Bool :=
  s.ownedElse f.stand.die f.stand.core slot (some f.stand.ctx)

/-- WEVICT (R285). -/
def execWevict (o : XOps) (nb : Bool) (s : State) : Host.Outcome State Fault Refusal :=
  issue (.wevict o nb) s fun f =>
    let a := (f.cord.sreg o.s).toNat
    let slot := nbits a 6 0
    if skidFull s f then .held
    else if nbits a 63 7 ≠ 0 then .trap s { code := .matrixParam }
    else if s.owned f slot then .trap s { code := .protection }
    else if nb && !claimFree s f slot then .done (s.answer f o.d (statusLow codeBusy false false 0 0) 0)
    else .done (s.beginCopy f o.d f.path.mask (.evict slot (s.core f.stand.die f.stand.core).taskSeq))

/-- WEVICT_CLAIM_GRANT: the slot is cleared, OWNER none, GEN raised, and the status written (R285). -/
def execWevictClaimGrant (id : Nat) (s : State) : Host.Outcome State Fault Refusal :=
  let s := s.unfocus
  match s.active? id with
  | some (.copy t d c (.evict slot seq)) =>
    if s.grantable d c slot seq id then
      .next ((((s.endFill d c slot none fun x => { x with bytes := [], side := [] }).mendAt d (.canopy c slot 0)
        (32768 + 2048)).dropWork id).writeDest t (statusLow codeDone false false 0 0) 0)
    else .next s
  | _ => .next s

end Sys2Proof.Machine
end

