-- ==== Sys2Proof/Machine/Sync.lean ====
section
/-! DEFINITION. Crews, phase-bit barriers, futures, continuations, grove words and time (08_sync_tasks.md R224 to R254). -/

namespace Sys2Proof.Machine

/-! ### Crews (R229 to R233) -/

/-- A vector result in every lane of the path, and the path moved on. -/
def State.result (s : State) (f : Focus) (d : VCode) (x : Word) : State :=
  s.keep { f with cord := f.cord.writeV d.toNat f.path.mask (fun _ => x) .general }.advance

def Focus.grove (f : Focus) : Nat := f.stand.core / 8

/-- MEMBERS of a crew, 0 where it has no entry. -/
def Grove.members (g : Grove) (tract : Nat) (key : BitVec 16) : Nat :=
  ((g.crews.find? fun c => c.named tract key).map Crew.members).getD 0

/-- CJOIN (R231). -/
def execCjoin (o : XOps) (s : State) : Host.Outcome State Fault Refusal :=
  issue (.cjoin o) s fun f =>
    let a := f.cord.sreg o.s
    let key : BitVec 16 := a.truncate 16
    let g := s.grove f.stand.die f.grove
    let n := g.members f.stand.tract key
    if a >>> 16 ≠ 0 then .trap s { code := .syncParam }
    else if f.cord.crews.contains key then .done (s.result f o.d (BitVec.ofNat 32 n))
    else if 4 ≤ f.cord.crews.length then .trap s { code := .syncParam }
    else if n = 0 ∧ 16 ≤ g.crews.length then .done (s.result f o.d 0xFFFFFFFF)
    else
      let crews := if n = 0 then g.crews ++ [⟨f.stand.tract, key, 1, 0, []⟩]
        else g.crews.map fun c => if c.named f.stand.tract key then { c with members := c.members + 1 } else c
      let s := s.modGrove f.stand.die f.grove fun x => { x with crews := crews }
      .done (s.result { f with cord := { f.cord with crews := f.cord.crews ++ [key] } } o.d (BitVec.ofNat 32 (n + 1)))

/-- CLEAVE (R232). -/
def execCleave (r : SCode) (s : State) : Host.Outcome State Fault Refusal :=
  issue (.cleave r) s fun f =>
    let a := f.cord.sreg r
    let key : BitVec 16 := a.truncate 16
    if a >>> 16 ≠ 0 then .trap s { code := .syncParam }
    else if f.cord.crews.contains key then
      let f' := { f with cord := { f.cord with crews := f.cord.crews.filter fun k => k ≠ key } }.advance
      .done ((s.settled f').crewLeave f.stand.die f.grove f.stand.tract key)
    else .done (s.keep f.advance)

/-- The accesses and synchronising steps of the path's threads before a release at die or grove scope, and the stores that
come before them, are not all performed (R188, R193). -/
def releaseHeld (s : State) (f : Focus) : Bool :=
  (s.outstanding f.stand.sid f.cord.id f.path.mask fun _ _ => true) ||
    s.syncing f.stand.sid f.cord.id f.path.mask || !(s.nearParts f.stand.sid f.cord.id f.path.mask).isEmpty

/-- The focused path's stand after a release to it or further (R277). -/
def State.releaseFocus (s : State) (f : Focus) : Focus := { f with stand := s.released f.stand f.cord.id f.path.mask }

/-- CBAR (R233). -/
def execCbar (o : XOps) (s : State) : Host.Outcome State Fault Refusal :=
  issue (.cbar o) s fun f =>
    let a := (f.cord.sreg o.s).toNat
    let key : BitVec 16 := BitVec.ofNat 16 a
    let op := nbits a 19 16
    let phase := (s.grove f.stand.die f.grove).crews.find? fun c => c.named f.stand.tract key
    if releaseHeld s f then .held
    else if !f.cord.crews.contains key ∨ 8 < op ∨ nbits a 31 20 ≠ 0 then .trap s { code := .syncParam }
    else if phase.any fun c => c.arrived ≠ [] && c.op ≠ op then .trap s { code := .syncParam }
    else
      let x : Arrival := ⟨f.stand.sid, f.cord.id, f.slotB, BitVec.ofNat 32 (nbits a 63 32), o.d.toNat⟩
      let s := s.modGrove f.stand.die f.grove fun g =>
        { g with crews := g.crews.map fun c =>
            if c.named f.stand.tract key then { c with op := op, arrived := c.arrived ++ [x] } else c }
      .done ((s.park (s.releaseFocus f) (.crew key o.d.toNat)).crewComplete f.stand.die f.grove f.stand.tract key)

/-! ### The wait table (R227, R228) -/

/-- Whether the wait of a path would spill, and the SP_RANGE it raises where the area starts below 0. -/
def spillTrap (s : State) (st : Stand) : Bool × Option Trap :=
  if ((s.core st.die st.core).waits.filter fun w => !w.spilled).length < 256 then (false, none)
  else
    match st.waitArea with
    | some _ => (true, none)
    | none =>
      let start : Int := (st.spGran : Int) * 16384 - 1024 * st.cords.length - 2048
      (true, some { code := .spRange, val := some (BitVec.ofInt 64 start) })

/-- Registers the focused path's wait, writing its spill entry with the address as the program names it where the table is
full, and parks it. -/
def State.register (s : State) (f : Focus) (glob : Bool) (addr named : Nat) (spill : Bool) (w : Wait) : State :=
  let x : Waiter := ⟨f.stand.sid, f.cord.id, f.slotB, glob, addr, spill⟩
  let s := s.modCore f.stand.die f.stand.core fun k => { k with waits := k.waits ++ [x] }
  let st := match (if spill then f.stand.waitArea else none) with
    | some o =>
      let i := o + 16 * (2 * f.cord.id + f.slotB.toNat)
      { f.stand with sp := ((f.stand.sp.store i 8 ((if glob then 0 else 2 ^ 63) + named)).store (i + 8) 4
          (f.slotB.toNat * 256 + f.cord.id)).store (i + 12) 4 0 }
    | none => f.stand
  s.park { f with stand := st } w

/-- The waiters a wake for an address reaches: table entries first, then spilled ones by the address their entry holds,
which is a virtual one of a global space (R168, R228). -/
def State.wakeable (s : State) (d c : Nat) (glob : Bool) (addr : Nat) (sid : Option Nat) : List Waiter :=
  let ws := (s.core d c).waits.filter fun w => sid.all fun x => w.sid = x
  (ws.filter fun w => !w.spilled && w.global = glob && w.addr = addr) ++
    ws.filter fun w => w.spilled &&
      match s.stand? w.sid with
      | some st =>
        match st.waitArea with
        | some o =>
          let e := st.sp.load (o + 16 * (2 * w.cord + w.slotB.toNat)) 8
          decide (nbits e 63 63 = if glob then 0 else 1) &&
            decide ((if glob then s.peek st (nbits e 56 0) else some (nbits e 56 0)) = some addr)
        | none => false
      | none => false

/-- Wakes one waiter: a future's waiter reads the value of the future that FWAIT named (R240), whatever its spill
entry holds by then (DESIGN CHOICE, log 83). -/
def State.wakeWaiter (s : State) (d : Nat) (w : Waiter) : State :=
  match (s.path? w.sid w.cord w.slotB).bind Path.wait with
  | some (.future pa r) =>
    let v := s.hbm.load (hAddr d pa + 8) 8
    (s.unregister w.sid w.cord w.slotB).wakePath w.sid w.cord w.slotB fun m x =>
      x.writePair r m (BitVec.ofNat 32 v) (BitVec.ofNat 32 (v / 2 ^ 32))
  | some (.phase _ _) => (s.unregister w.sid w.cord w.slotB).wakePath w.sid w.cord w.slotB fun _ x => x
  | _ => s

/-- A wake for an address at a core (R227). -/
def State.wakeAddr (s : State) (d c : Nat) (glob : Bool) (addr : Nat) (sid : Option Nat) : State :=
  let s := s.scanWaits d c
  (s.wakeable d c glob addr sid).foldl (fun s w => s.wakeWaiter d w) s

/-! ### Phase-bit barriers (R234 to R236) -/

/-- PBAR: its count is checked at issue, and the arrival goes to the bank (R235). -/
def execPbar (o : XOps) (s : State) : Host.Outcome State Fault Refusal :=
  issue (.pbar o) s fun f =>
    let off := f.off32 o.s
    let k := (f.low o.d).toNat
    match recTrap f.stand 8 8 off with
    | some t => .trap s t
    | none =>
      if k = 0 ∨ 0xFFFF < k then .trap s { code := .syncParam }
      else
        .done ((s.addWork (.pbar ⟨f.stand.sid, f.cord.id, f.slotB, f.path.restart, f.path.mask, 0⟩ off k)).keep f.advance)

/-- An arrival of k at a phase-bit object whose EXPECT is not 0: the object, and whether the phase flips. -/
def phaseArrive (w k : Nat) : Nat × Bool :=
  let expect := nbits w 15 0
  let n := nbits w 31 16 + k
  if expect ≤ n then
    let past := if nbits w 33 33 = 1 ∨ expect < n then 1 else 0
    (w / 2 ^ 34 * 2 ^ 34 + past * 2 ^ 33 + (1 - nbits w 32 32) * 2 ^ 32 + expect, true)
  else (w / 2 ^ 32 * 2 ^ 32 + n * 2 ^ 16 + expect, false)

/-- Parts of accesses that come before an arrival and are not performed. -/
def State.pbarParts (s : State) (id : Nat) (t : Dest) : List (Nat × Access × Part) :=
  openParts (s.works.takeWhile fun i => i.id ≠ id) t.sid t.cord t.mask (fun _ => true) ++ s.nearParts t.sid t.cord t.mask

/-- An arrival waits for the cord's earlier arrivals, and, a release to its stand, for the accesses before it that read
(R235). -/
def State.pbarWaits (s : State) (id : Nat) (t : Dest) : Bool :=
  ((s.pbarParts id t).any fun y => scopeWaits .stand y.2.1) || (s.before id).any fun w =>
    w.syncs t.sid t.cord t.mask || match w with
      | .pbar t' _ _ => decide (t'.sid = t.sid) && decide (t'.cord = t.cord)
      | _ => false

/-- PBAR_BANK_STEP (R235). The stores before the arrival take their places in its stand. -/
def execPbarBankStep (id : Nat) (s : State) : Host.Outcome State Fault Refusal :=
  let s := s.unfocus
  match s.active? id with
  | some (.pbar t off k) =>
    if s.pbarWaits id t then .next s
    else
      match s.stand? t.sid with
      | none => .next (s.dropWork id)
      | some st =>
        let w := st.sp.load off 8
        if s.struck st.die (.scratchpad st.sid off) 8 then .next ((s.dropWork id).trapInFlight t { code := .memError })
        else if nbits w 15 0 = 0 then .next ((s.dropWork id).trapInFlight t { code := .syncParam })
        else
          let r := phaseArrive w k
          let s := (((s.takePlaces .stand (s.pbarParts id t)).dropWork id).noteStep t.sid t.cord t.mask 0 0).modStand t.sid fun x =>
            s.released { x with sp := x.sp.store off 8 r.1 } t.cord t.mask
          .next (if r.2 then s.wakeAddr st.die st.core false off (some t.sid) else s)
  | _ => .next s

/-- PWAIT (R236). -/
def execPwait (o : XOps) (s : State) : Host.Outcome State Fault Refusal :=
  issue (.pwait o) s fun f =>
    let off := f.off32 o.s
    let q := (f.low o.d).getLsbD 0
    if pbarPending s f then .held
    else
      match (recTrap f.stand 8 8 off).or (f.damage s [(off, 8)]) with
      | some t => .trap s t
      | none =>
        match spillTrap s f.stand with
        | (_, some t) => .trap s t
        | (spill, none) =>
          if (f.stand.sp.load off 8).testBit 32 ≠ q then .done ((s.acquireAt .stand f.stand.sid f.cord.id f.path.mask).keep f.advance)
          else .done (s.register f false off off spill (.phase off q))

/-! ### Futures (R237 to R241) -/

/-- Address checks of FRES, FWAIT and FTEST (R241): alignment, range, translation. -/
def futureAddr (s : State) (f : Focus) (u : Use) (r : SCode) : State × Except Trap Nat :=
  let a := f.addr r
  if a % 16 ≠ 0 then (s, .error (misalign [(a, 16)]))
  else
    match rangeTrap 16 [(0, a)] with
    | some t => (s, .error t)
    | none =>
      match s.translate f.agent u a with
      | (s, .error c) => (s, .error { code := c, val := some (BitVec.ofNat 64 a) })
      | (s, .ok p) => (s, .ok p.1)

/-- The path's own accesses to a future's bytes and its resolutions of it are not all performed, or a deque step that is
an acquire (R185, R193). -/
def futureHeld (s : State) (f : Focus) (h : Nat) : Bool :=
  (s.outstanding f.stand.sid f.cord.id f.path.mask fun _ p => decide (p.pa < h + 16) && decide (h < p.pa + p.n)) ||
  s.acquiring f.stand.sid f.cord.id f.path.mask || s.nearTouch f.stand.sid f.cord.id f.path.mask [(h, 16)] ||
  s.works.any fun i => match i.work with
    | .resolve o _ (some pa) _ _ =>
      i.work.syncs f.stand.sid f.cord.id f.path.mask && decide (hAddr o.die pa < h + 16) && decide (h < hAddr o.die pa + 16)
    | _ => false

/-- FRES (R239). -/
def execFres (o : XOps) (poison : Bool) (s : State) : Host.Outcome State Fault Refusal :=
  issue (.fres o poison) s fun f =>
    match futureAddr s f .atomic o.s with
    | (s, .error t) => .trap s t
    | (s, .ok pa) =>
      let t : Dest := ⟨f.stand.sid, f.cord.id, f.slotB, f.path.restart, f.path.mask, 0⟩
      let v : DWord := f.low (o.d + 1) ++ f.low o.d
      .done ((s.addWork (.resolve { die := f.stand.die, ctx := f.stand.ctx, dest := some t } (f.addr o.s) (some pa) v
        poison)).keep f.advance)

/-- The resolving step on a future's bytes (R238): none where it is full or poisoned; else memory, and whether wakes go
out. -/
def resolveFuture (m : Memory) (h : Nat) (v : DWord) (poison : Bool) : Option (Memory × Bool) :=
  let w := m.load h 8
  if 2 ≤ nbits w 63 62 then none
  else
    some ((m.store h 8 ((if poison then 3 else 2) * 2 ^ 62 + nbits w 61 32 * 2 ^ 32)).store (h + 8) 8 v.toNat,
      nbits w 63 62 = 1 || nbits w 31 0 ≠ 0)

/-- Wakes on their way to every core of a die. -/
def State.sendWakes (s : State) (d pa : Nat) : State :=
  (List.range 32).foldl (fun s c => s.addWork (.wake d c pa)) s

/-- An access of one of some stands is outstanding. -/
def State.anyAccess (s : State) (sids : List Nat) : Bool :=
  s.works.any fun i => match i.work with
    | .access a => sids.contains a.sid
    | _ => false

/-- A path's release orders its stand's scratchpad writes as well (R277). -/
def State.releaseOf (s : State) (t : Dest) : State := s.modStand t.sid fun x => s.released x t.cord t.mask

/-- A resolution is a release of the path that asked, which its later accesses to the future's bytes follow (R185, R239). -/
def State.releaseOrigin (s : State) (o : Origin) (h : Nat) : State :=
  match o.dest with
  | some t => (s.releaseOf t).noteStep t.sid t.cord t.mask h 16
  | none => s

/-- Performs a resolution, or an amax fold and what follows it, at the L2 (R238, R276): a fault of the access holds the
work or ends the context, and a resolution that finds the future full or poisoned is DOUBLE_RESOLVE. -/
def State.performL2 (s : State) (id : Nat) : State :=
  match s.active? id with
  | some (.resolve o va pa v poison) =>
    if (o.dest.any fun t => s.unreleased id t.sid t.cord t.mask) || s.anyAccess o.after then s
    else
      let q : State × Except TrapCode Nat := match pa with
        | some p => (s, .ok p)
        | none =>
          match s.translate (s.originAgent o) .atomic va with
          | (s, .error c) => (s, .error c)
          | (s, .ok p) => (s, .ok p.1)
      let s := q.1
      match q.2 with
      | .error c => s.engineFault o id (c, va) fun s t => s.trapDevice o t
      | .ok p =>
        if s.hbmBad (hAddr o.die p) 8 then
          (s.dropWork id).trapDevice o { code := .memError, val := some (BitVec.ofNat 64 va) }
        else
        match resolveFuture s.hbm (hAddr o.die p) v poison with
        | none => (s.dropWork id).trapDevice o { code := .doubleResolve, val := some (BitVec.ofNat 64 va) }
        | some (m, wakes) =>
          let s := ((s.releaseOrigin o (hAddr o.die p)).dropWork id).setFuture (hAddr o.die p) m
          if wakes then s.sendWakes o.die p else s
  | some (.fold o va bits next) =>
    match s.engineReach (s.originAgent o) .atomic va 4 with
    | (s, .error e) => s.engineFault o id e fun s r => match next with
      | .status t n => State.copyFault t n s r
      | _ => s.trapDevice o r
    | (s, .ok rs) =>
      let h := (rs.headD (0, 0)).1
      let s := s.hbmPut h (leBytes 4 (max (s.hbm.load h 4) bits.toNat))
      match next with
      | .nothing => s.dropWork id
      | .resolve va v => s.setWork id (.resolve o va none v false)
      | .status t n => (s.dropWork id).writeDest t (statusLow codeDone false false 0 0) (BitVec.ofNat 32 n)
  | _ => s

/-- FUTURE_RESOLVE (R238). -/
def execFutureResolve (id : Nat) (s : State) : Host.Outcome State Fault Refusal := .next (s.unfocus.performL2 id)

/-- A future's wake clears the registration of the core's tasks on it (R273). -/
def Core.wokenTasks (k : Core) (pa : Nat) : Core :=
  let clear (t : Task) : Task := { t with registered := t.registered.filter fun x => x ≠ pa }
  { k with q0 := k.q0.map clear, q1 := k.q1.map clear }

/-- FUTURE_WAKE: a wake reaches a core (R227). -/
def execFutureWake (id : Nat) (s : State) : Host.Outcome State Fault Refusal :=
  let s := s.unfocus
  match s.active? id with
  | some (.wake d c pa) => .next (((s.dropWork id).modCore d c fun k => k.wokenTasks pa).wakeAddr d c true pa none)
  | _ => .next s

/-- FWAIT (R240). A fault of its address comes before the SP_RANGE of a spill area below offset 0 (DESIGN CHOICE, log 83). -/
def execFwait (o : XOps) (s : State) : Host.Outcome State Fault Refusal :=
  issue (.fwait o) s fun f =>
    match futureAddr s f .atomic o.s with
    | (s, .error t) => .trap s t
    | (s, .ok pa) =>
      let h := hAddr f.stand.die pa
      if futureHeld s f h then .held
      else
        match spillTrap s f.stand with
        | (_, some t) => .trap s t
        | (spill, none) =>
          let w := s.hbm.load h 8
          if s.hbmBad h 16 then .trap s { code := .memError }
          else if 2 ≤ nbits w 63 62 then
            let v := s.hbm.load (h + 8) 8
            .done ((s.acquireAt .die f.stand.sid f.cord.id f.path.mask).answer f o.d (BitVec.ofNat 32 v) (BitVec.ofNat 32 (v / 2 ^ 32)))
          else
            let m := s.hbm.store h 8 (2 ^ 62 + nbits w 61 32 * 2 ^ 32 + (nbits w 31 0 + 1) % 2 ^ 32)
            .done ((s.setFuture h m).register f true pa (f.addr o.s) spill (.future pa o.d.toNat))

/-- FTEST (R241). -/
def execFtest (o : XOps) (s : State) : Host.Outcome State Fault Refusal :=
  issue (.ftest o) s fun f =>
    match futureAddr s f .read o.s with
    | (s, .error t) => .trap s t
    | (s, .ok pa) =>
      let h := hAddr f.stand.die pa
      if futureHeld s f h then .held
      else if s.hbmBad h 8 then .trap s { code := .memError }
      else
        let w := s.hbm.load h 8
        let s := if 2 ≤ nbits w 63 62 then s.acquireAt .die f.stand.sid f.cord.id f.path.mask
          else s.noteStep f.stand.sid f.cord.id f.path.mask h 16
        .done (s.answer f o.d (BitVec.ofNat 32 w) (BitVec.ofNat 32 (w / 2 ^ 32)))

/-! ### Continuations (R242 to R247) -/

/-- Alignment, range and translation of the set's and the deque's header (R247). -/
def dequeTrap (s : State) (f : Focus) (base c : Nat) : State × Option Trap :=
  match rangeTrap (dequeHead c + 64) [(0, base)] with
  | some t => (s, some t)
  | none =>
    match s.translate f.agent .atomic base with
    | (s, .error e) => (s, some { code := e, val := some (BitVec.ofNat 64 base) })
    | (s, .ok _) => (s, none)

/-- Begins a deque operation, marking the registers it writes. -/
def State.beginDeque (s : State) (f : Focus) (d : VCode) (n : Nat) (op : DequeOp) : State :=
  let t : Dest := ⟨f.stand.sid, f.cord.id, f.slotB, f.path.restart, f.path.mask, d.toNat⟩
  (s.addWork (.deque t op)).keep
    { f with cord := f.cord.markV ((List.range n).map fun k => d.toNat + k) }.advance

/-- A record that SPAWN may push (R245). -/
def contOk (r : List Byte) : Bool := decide (recField r 0 8 ≠ 0) && decide (recField r 20 4 < 256)

/-- SPAWN (R245). -/
def execSpawn (o : XOps) (s : State) : Host.Outcome State Fault Refusal :=
  issue (.spawn o) s fun f =>
    let base := (f.cord.sreg o.s).toNat
    let b := (f.cord.sreg (o.s + 1)).toNat
    let off := nbits b 31 0
    if base % 4096 ≠ 0 ∨ off % 32 ≠ 0 then .trap s (misalign [(base, 4096), (off, 32)])
    else
      match spTrap f.stand 32 [(0, off)] with
      | some t => .trap s t
      | none =>
        match dequeTrap s f base f.stand.core with
        | (s, some t) => .trap s t
        | (s, none) =>
          let r := f.stand.sp.bytes off 32
          if (f.damage s [(off, 32)]).isSome then .trap s { code := .memError }
          else if nbits b 63 32 ≠ 0 ∨ contOk r = false then .trap s { code := .syncParam }
          else .done (s.beginDeque f o.d 1 (.spawn base r))

/-- TAKE (R246). -/
def execTake (o : XOps) (s : State) : Host.Outcome State Fault Refusal :=
  issue (.take o) s fun f =>
    let base := (f.cord.sreg o.s).toNat
    if base % 4096 ≠ 0 then .trap s (misalign [(base, 4096)])
    else
      match dequeTrap s f base f.stand.core with
      | (s, some t) => .trap s t
      | (s, none) => .done (s.beginDeque f o.d 8 (.take base))

/-- STEAL (R246). -/
def execSteal (o : XOps) (s : State) : Host.Outcome State Fault Refusal :=
  issue (.steal o) s fun f =>
    let base := (f.cord.sreg o.s).toNat
    let b := (f.cord.sreg (o.s + 1)).toNat
    let c := nbits b 4 0
    if base % 4096 ≠ 0 then .trap s (misalign [(base, 4096)])
    else
      match dequeTrap s f base c with
      | (s, some t) => .trap s t
      | (s, none) =>
        if nbits b 63 5 ≠ 0 then .trap s { code := .syncParam } else .done (s.beginDeque f o.d 8 (.steal base c))

/-- DONE (R247). -/
def execDone (o : XOps) (s : State) : Host.Outcome State Fault Refusal :=
  issue (.done o) s fun f =>
    let r := (f.cord.sreg o.s).toNat
    let base := (f.cord.sreg (o.s + 1)).toNat
    if r % 32 ≠ 0 ∨ base % 4096 ≠ 0 then .trap s (misalign [(r, 32), (base, 4096)])
    else
      match (rangeTrap 32 [(0, r)]).or (rangeTrap (dequeHead f.stand.core + 64) [(0, base)]) with
      | some t => .trap s t
      | none =>
        match s.translate f.agent .atomic r with
        | (s, .error e) => .trap s { code := e, val := some (BitVec.ofNat 64 r) }
        | (s, .ok _) =>
          match dequeTrap s f base f.stand.core with
          | (s, some t) => .trap s t
          | (s, none) => .done (s.beginDeque f o.d 1 (.done r base))

/-- What a step on a deque makes of its header and its ring; `look` reads n bytes of the set at an offset. -/
inductive DequeDid
  /-- Stores (offset from the base, bytes), and the registers' words. -/
  | ok (stores : List (Nat × List Byte)) (words : List Word)
  | bad

/-- The checks of R244 and an operation on the deque of core c. -/
def dequeStep (look : Nat → Nat → List Byte) (c : Nat) (op : Nat → Nat → Nat → DequeDid) : DequeDid :=
  let h := look 0 64
  let q := look (dequeHead c) 64
  let lg := leNat (h.take 4)
  let top := leNat (q.take 4)
  let bottom := leNat ((q.drop 4).take 4)
  let size := (bottom + 2 ^ 32 - top) % 2 ^ 32
  if lg < 4 ∨ 16 < lg ∨ 2 ^ lg < size ∨ (h.drop 4).any (fun b => b ≠ 0) = true ∨ (q.drop 8).any (fun b => b ≠ 0) = true
  then .bad
  else op (2 ^ lg) top bottom

/-- Pushes a record at the owner end: the stores, or none where the deque is full. -/
def dequePush (c cap top bottom : Nat) (r : List Byte) : Option (List (Nat × List Byte)) :=
  if (bottom + 2 ^ 32 - top) % 2 ^ 32 = cap then none
  else some [(dequeRing c cap bottom, r), (dequeHead c + 4, leBytes 4 ((bottom + 1) % 2 ^ 32))]

def wordsOf (r : List Byte) : List Word := (List.range 8).map fun k => BitVec.ofNat 32 (recField r (4 * k) 4)

/-- One operation on a set, seen through reads of it and of the record of a DONE (R245 to R247). A store at offset
2^60 is to the DONE's record. -/
def dequeDo (look : Nat → Nat → List Byte) (record : List Byte) (own : Nat) : DequeOp → DequeDid
  | .spawn _ r => dequeStep look own fun cap top bottom =>
    match dequePush own cap top bottom r with
    | none => .ok [] [1]
    | some st => .ok st [0]
  | .take _ => dequeStep look own fun cap top bottom =>
    if top = bottom then .ok [] (List.replicate 8 0)
    else
      let b := (bottom + 2 ^ 32 - 1) % 2 ^ 32
      .ok [(dequeHead own + 4, leBytes 4 b)] (wordsOf (look (dequeRing own cap b) 32))
  | .steal _ c => dequeStep look c fun cap top bottom =>
    if top = bottom then .ok [] (List.replicate 8 0)
    else .ok [(dequeHead c, leBytes 4 ((top + 1) % 2 ^ 32))] (wordsOf (look (dequeRing c cap top) 32))
  | .done _ _ => dequeStep look own fun cap top bottom =>
    let join := (BitVec.ofNat 32 (recField record 16 4)).toInt
    if join ≤ 0 ∨ contOk record = false then .bad
    else
      let r := record.take 16 ++ leBytes 4 (join - 1).toNat ++ record.drop 20
      let kept := (2 ^ 60, r)
      if join ≠ 1 then .ok [kept] [0]
      else
        match dequePush own cap top bottom r with
        | none => .ok [kept] [2]
        | some st => .ok (kept :: st) [1]

def dequeBase : DequeOp → Nat
  | .spawn b _ | .take b | .steal b _ | .done _ b => b

/-- Writes consecutive registers of a destination and clears their marks. -/
def State.writeGroup (s : State) (t : Dest) (ws : List Word) : State :=
  s.modCord t.sid t.cord fun c =>
    (((List.range ws.length).zip ws).foldl (fun (c : Cord) x => c.writeV (t.d + x.1) t.mask (fun _ => x.2) .general)
      c).unmarkV ((List.range ws.length).map fun k => t.d + k)

/-- Translates the addresses of a deque step in order. -/
def State.reachAll (s : State) (a : Agent) : List (Nat × Nat) → State × Except (TrapCode × Nat) (List Nat)
  | [] => (s, .ok [])
  | (va, n) :: r =>
    if 2 ^ 57 < va + n then (s, .error (.addressRange, va))
    else
      match s.engineReach a .atomic va n with
      | (s, .error e) => (s, .error e)
      | (s, .ok rs) =>
        match s.reachAll a r with
        | (s, .error e) => (s, .error e)
        | (s, .ok hs) => (s, .ok ((rs.headD (0, 0)).1 :: hs))

/-- A deque step of the path's lanes stands before a piece of work (R193). -/
def State.dequeBefore (s : State) (id : Nat) (t : Dest) : Bool :=
  (s.before id).any fun w => match w with
    | .deque t' _ => decide (t'.sid = t.sid) && decide (t'.cord = t.cord) && decide (t'.mask &&& t.mask ≠ 0)
    | _ => false

/-- An earlier access of the path's lanes to some bytes is outstanding, or a store that comes before them (R185). -/
def State.touchBefore (s : State) (id : Nat) (t : Dest) (hs : List (Nat × Nat)) : Bool :=
  s.nearTouch t.sid t.cord t.mask hs || (s.accessesBefore id t.sid t.cord).any fun a => a.parts.any fun p =>
    !p.done && a.within p t.mask && hs.any fun h => decide (p.pa < h.1 + h.2) && decide (h.1 < p.pa + p.n)

/-- What a deque step on some bytes orders: a push releases, a record taken and every DONE acquire (R244, R247), and the
path's later accesses to the bytes follow (R185). -/
def State.dequeOrder (s : State) (t : Dest) (op : DequeOp) (stores : List (Nat × List Byte)) (hs : List (Nat × Nat)) : State :=
  let s := hs.foldl (fun s h => s.noteStep t.sid t.cord t.mask h.1 h.2) s
  match op with
  | .spawn _ _ => s.releaseOf t
  | .done _ _ => (s.releaseOf t).acquireAt .die t.sid t.cord t.mask
  | _ => if stores = [] then s else s.acquireAt .die t.sid t.cord t.mask

/-- The step touches its place of the ring. -/
def dequeTouches (op : DequeOp) (stores : List (Nat × List Byte)) : Bool :=
  match op with
  | .done _ _ => decide (1 < stores.length)
  | _ => decide (stores ≠ [])

/-- DEQUE_STEP: an operation on a deque is one step at the L2, behind the path's earlier ones (R193, R244). A push is a
release, so it waits for what stands before it. The checks of R244 to R247 come before the ring's place is reached. -/
def execDequeStep (id : Nat) (s : State) : Host.Outcome State Fault Refusal :=
  let s := s.unfocus
  match s.active? id with
  | some (.deque t op) =>
    let pushes := match op with | .spawn _ _ | .done _ _ => true | _ => false
    if s.dequeBefore id t || (pushes && s.unreleased id t.sid t.cord t.mask) then .next s
    else
      match s.engineAgent t false with
      | none => .next (s.dropWork id)
      | some a =>
        let base := dequeBase op
        let c := match op with | .steal _ c => c | _ => a.index
        let own := match op with | .done r _ => [(r, 32)] | _ => []
        match s.reachAll a ([(base, 64), (base + dequeHead c, 64)] ++ own) with
        | (s, .error e) => .next (s.engineFault (s.originOf t) id e fun s r => s.trapInFlight t r)
        | (s, .ok hs) =>
          let h0 := hs.getD 0 0
          let hq := hs.getD 1 0
          let ring := dequeReach s.hbm h0 hq op c
          let at' (hr o : Nat) : Nat :=
            if o = 2 ^ 60 then hs.getD 2 0
            else if o < 0x40 then h0 + o
            else if o < 0x1000 then hq + (o - dequeHead c) else hr + (o - ring)
          let look (hr o n : Nat) : List Byte := s.hbm.bytes (at' hr o) n
          let run (hr : Nat) : DequeDid := dequeDo (look hr) (look hr (2 ^ 60) 32) c op
          let touched := [(h0, 64), (hq, 64)] ++ own.map fun _ => (hs.getD 2 0, 32)
          if s.touchBefore id t touched then .next s
          else
            match run 0 with
            | .bad => .next ((s.dropWork id).trapInFlight t { code := .syncParam })
            | .ok stores _ =>
              match (if dequeTouches op stores then s.reachAll a [(base + ring, 32)] else (s, .ok [0])) with
              | (s, .error e) => .next (s.engineFault (s.originOf t) id e fun s r => s.trapInFlight t r)
              | (s, .ok hr) =>
                match run (hr.getD 0 0) with
                | .bad => .next ((s.dropWork id).trapInFlight t { code := .syncParam })
                | .ok stores words =>
                  let ringed := if dequeTouches op stores then [(hr.getD 0 0, 32)] else []
                  .next (((stores.foldl (fun s x => s.hbmPut (at' (hr.getD 0 0) x.1) x.2) (s.dropWork id)).dequeOrder t op
                    stores (touched ++ ringed)).writeGroup t words)
  | _ => .next s

/-! ### Grove words (R248 to R251) -/

/-- GMAX and GMIN: folds the register into the word, releases and wakes the waiters on a change, and returns the word
(R250). -/
def foldWord (i : Instr) (r : SCode) (w : BitVec 4) (pick : DWord → DWord → DWord) (s : State) :
    Host.Outcome State Fault Refusal :=
  issue i s fun f =>
    if releaseHeld s f then .held
    else
      let x := f.cord.sreg r
      let g := (s.grove f.stand.die f.grove).word f.stand.owner w.toNat
      let v := match g.value with | none => x | some y => pick y x
      let f' := if g.value = some v then f else s.releaseFocus f
      let s' := (s.settled { f' with cord := f.cord.writeS r v }.advance)
      if g.value = some v then .done s'
      else
        let s' := s'.modWord f.stand.die f.grove f.stand.owner w.toNat fun _ => { value := some v, waits := [] }
        .done (g.waits.foldl (fun s a => s.wakePath a.1 a.2.1 a.2.2 fun _ c =>
          match (c.slot a.2.2).bind Path.wait with
          | some (.grove _ _ d) => c.writeS (BitVec.ofNat 5 d) v
          | _ => c) s')

/-- GMAX (R250). -/
def execGmax (r : SCode) (w : BitVec 4) (s : State) : Host.Outcome State Fault Refusal :=
  foldWord (.gmax r w) r w (fun y x => if y.toInt ≤ x.toInt then x else y) s
/-- GMIN (R250). -/
def execGmin (r : SCode) (w : BitVec 4) (s : State) : Host.Outcome State Fault Refusal :=
  foldWord (.gmin r w) r w (fun y x => if x.toInt ≤ y.toInt then x else y) s

/-- A read of a word that returns a folded value is an acquire at grove scope (R251). -/
def State.acquireWord (s : State) (f : Focus) (g : GroveWord) : State :=
  if g.value.isSome then s.acquireAt .grove f.stand.sid f.cord.id f.path.mask else s

/-- GRD (R251). -/
def execGrd (r : SCode) (w : BitVec 4) (s : State) : Host.Outcome State Fault Refusal :=
  issue (.grd r w) s fun f =>
    let g := (s.grove f.stand.die f.grove).word f.stand.owner w.toNat
    .done ((s.acquireWord f g).keep { f with cord := f.cord.writeS r g.read }.advance)

/-- GWAIT (R251). -/
def execGwait (r : SCode) (w : BitVec 4) (s : State) : Host.Outcome State Fault Refusal :=
  issue (.gwait r w) s fun f =>
    let x := f.cord.sreg r
    let g := (s.grove f.stand.die f.grove).word f.stand.owner w.toNat
    let v := g.read
    if v ≠ x then .done ((s.acquireWord f g).keep { f with cord := f.cord.writeS r v }.advance)
    else
      .done ((s.modWord f.stand.die f.grove f.stand.owner w.toNat fun g =>
        { g with waits := g.waits ++ [(f.stand.sid, f.cord.id, f.slotB)] }).park f (.grove w.toNat x r.toNat))

/-! ### Time (R252 to R254) -/

/-- SLEEP (R253). -/
def execSleep (r : SCode) (s : State) : Host.Outcome State Fault Refusal :=
  issue (.sleep r) s fun f =>
    if (f.cord.sreg r).toNat ≤ (s.clk f.stand.die f.stand.core).toNat then .done (s.keep f.advance)
    else .done (s.park f (.sleep (f.cord.sreg r)))

/-- SLEEP_EXPIRE: CLK has reached the value a path sleeps for (R253). -/
def execSleepExpire (sid cord slot : Nat) (s : State) : Host.Outcome State Fault Refusal :=
  let s := s.unfocus
  match s.stand? sid, (s.path? sid cord (slot = 1)).bind Path.wait with
  | some st, some (.sleep t) =>
    if t.toNat ≤ (s.clk st.die st.core).toNat then .next (s.wakePath sid cord (slot = 1) fun _ c => c) else .next s
  | _, _ => .next s

/-- HSTL_EXPIRE: the stall of an HSTL has ended (R63). -/
def execHstlExpire (sid cord slot : Nat) (s : State) : Host.Outcome State Fault Refusal :=
  let s := s.unfocus
  match (s.path? sid cord (slot = 1)).bind Path.stall with
  | some e =>
    if e < s.clock then
      .next (s.modCord sid cord fun c =>
        match c.slot (slot = 1) with
        | some p => c.setSlot (slot = 1) (some { p with stall := none, stallEnd := e })
        | none => c)
    else .next s
  | none => .next s

/-- RDCLK (R254). -/
def execRdclk (r : SCode) (s : State) : Host.Outcome State Fault Refusal :=
  issueCord (.rdclk r) s fun f => f.cord.writeS r (s.clk f.stand.die f.stand.core)

/-- RDTS (R254). -/
def execRdts (r : SCode) (s : State) : Host.Outcome State Fault Refusal :=
  issueCord (.rdts r) s fun f => f.cord.writeS r (s.readTs f.cord)

end Sys2Proof.Machine
end

