-- ==== Sys2Proof/Machine/Lists.lean ====
section
/-! DEFINITION. Ranked lists: rank order, rows, the threshold file, the insertion queue, and the list instructions
(10_ranked.md R291 to R313). -/

namespace Sys2Proof.Machine

/-! ### Rank order and rows -/

/-- Value of a candidate in a list's type (0 F32, 1 BF16, 2 I32), a zero being +0 (R291, R308). -/
def listVal (ty : Nat) (w : Word) : Word :=
  let v := if ty = 1 then w <<< 16 else w
  if ty ≠ 2 ∧ v.toNat % 2 ^ 31 = 0 then 0 else v

def listNan (ty : Nat) (v : Word) : Bool := decide (ty ≠ 2) && (FloatFmt.f32.value v.toNat).isNan

/-- a < b as values of a list. -/
def listLt (ty : Nat) (a b : Word) : Bool :=
  if ty = 2 then decide (a.toInt < b.toInt) else (FloatFmt.f32.value a.toNat).lt (FloatFmt.f32.value b.toNat)

/-- Rank order: a larger value first, then a smaller index (R291). -/
def precedes (ty : Nat) (a b : Word × Word) : Bool :=
  listLt ty b.1 a.1 || (!listLt ty a.1 b.1 && decide (a.2.toNat < b.2.toNat))

/-- A row: its entries, the best first, and OVER (R293). -/
structure ListRow where
  entries : List (Word × Word)
  lost : Nat
  deriving DecidableEq, Repr

/-- The entry K − 1 as TVAL and TIDX, or the sentinel (R293). -/
def ListRow.last (ty k : Nat) (r : ListRow) : Word × Word :=
  if r.entries.length < k then (if ty = 2 then 0x80000000 else 0xFF800000, 0xFFFFFFFF)
  else r.entries.getD (k - 1) (0, 0)

def ListRow.discard (r : ListRow) (n : Nat) : ListRow := { r with lost := sat32 (r.lost + n) }

/-- A candidate among entries in rank order. -/
def placeRanked (ty : Nat) (c : Word × Word) (l : List (Word × Word)) : List (Word × Word) :=
  l.takeWhile (fun e => !precedes ty c e) ++ c :: l.dropWhile fun e => !precedes ty c e

/-- One insertion step (R295). -/
def ListRow.insert (ty k : Nat) (dup : Bool) (r : ListRow) (c : Word × Word) : ListRow :=
  if listNan ty c.1 then r.discard 1
  else
    match (if dup then r.entries.find? fun e => e.2 = c.2 else none) with
    | some e =>
      if precedes ty c e then { r.discard 1 with entries := placeRanked ty c (r.entries.filter fun x => x.2 ≠ c.2) }
      else r.discard 1
    | none =>
      if r.entries.length < k then { r with entries := placeRanked ty c r.entries }
      else if precedes ty c (r.last ty k) then { r.discard 1 with entries := placeRanked ty c r.entries.dropLast }
      else r.discard 1

/-- The bytes of a row (R293). -/
def ListRow.bytes (ty k : Nat) (r : ListRow) : List Byte :=
  let l := r.last ty k
  leBytes 4 r.entries.length ++ leBytes 4 l.1.toNat ++ leBytes 4 l.2.toNat ++ leBytes 4 r.lost ++
    (r.entries.map fun e => leBytes 4 e.1.toNat ++ leBytes 4 e.2.toNat).flatten ++
    List.replicate (8 * (k - r.entries.length)) 0

/-- The row at an accumulator offset. -/
def readRow (m : Memory) (o k : Nat) : ListRow :=
  { entries := (List.range (min k (m.load o 4))).map fun j =>
      (BitVec.ofNat 32 (m.load (o + 16 + 8 * j) 4), BitVec.ofNat 32 (m.load (o + 20 + 8 * j) 4)),
    lost := m.load (o + 12) 4 }

/-- An empty row: the reset column of R293. -/
def ListRow.empty : ListRow := ⟨[], 0⟩

/-! ### Regions and the threshold file -/

/-- Bytes of a region (R293). -/
def regionBytes (w : DWord) : Nat := lRows w * lRowBytes w

/-- Some declared region covers a byte of a range (R303). -/
def Stand.declaredIn (st : Stand) (a n : Nat) : Bool :=
  st.regions.any fun r => r.any fun x => decide (x.1 < a + n) && decide (a < x.1 + regionBytes x.2)

/-- Puts a region into the first free entry of the table. -/
def Stand.addRegion (st : Stand) (base : Nat) (w : DWord) : Stand :=
  let t := st.regions ++ List.replicate (8 - st.regions.length) none
  { st with regions := match t.findIdx? Option.isNone with
      | some k => t.set k (some (base, w))
      | none => t }

def Stand.dropRegion (st : Stand) (base : Nat) : Stand :=
  { st with regions := st.regions.map fun r => r.filter fun x => x.1 ≠ base }

/-- Entries of the region table in use. -/
def Stand.regionCount (st : Stand) : Nat := (st.regions.filter Option.isSome).length

/-- Changes the threshold entries of some rows of a region. -/
def Core.modThresh (k : Core) (sid base row0 count : Nat) (f : Thresh → Thresh) : Core :=
  { k with thresh := k.thresh.map fun t =>
      if t.sid = sid ∧ t.base = base ∧ row0 ≤ t.row ∧ t.row < row0 + count then f t else t }

/-- The issue filter passes a candidate (R297). -/
def Core.passes (k : Core) (sid base ty row : Nat) (c : Word × Word) : Bool :=
  !listNan ty c.1 &&
    match k.thresh.find? fun t => t.sid = sid ∧ t.base = base ∧ t.row = row with
    | some t => !t.full || precedes ty c (t.tval, t.tidx)
    | none => true

/-- A declare or a clear of a row that entered the queue after its head (R298). -/
def Core.resetLater (k : Core) (sid base row : Nat) : Bool :=
  k.insq.tail.any fun e => decide (e.sid = sid) &&
    match e.op with
    | .declare b => decide (b = base)
    | .clear b r n _ => decide (b = base) && decide (r ≤ row) && decide (row < r + n)
    | _ => false

/-- Changes one row of a stand's region, and copies a changed TVAL or TIDX into its threshold entry (R298). Bytes in
`racy` become free (R277, R303). -/
def State.onRow (s : State) (sid base : Nat) (w : DWord) (row : Nat) (racy : List (Nat × Nat)) (g : ListRow → ListRow) :
    State :=
  match s.stand? sid with
  | none => s
  | some st =>
    let o := base + row * lRowBytes w
    let old := readRow st.acc o (lK w)
    let new := g old
    let acc := st.acc.putFree racy s.fresh o (new.bytes (lType w) (lK w))
    let s := (s.modStand sid fun x => { x with acc := acc }).drawIf racy
    let l := if racy.isEmpty then new.last (lType w) (lK w)
      else (BitVec.ofNat 32 (acc.load (o + 4) 4), BitVec.ofNat 32 (acc.load (o + 8) 4))
    if l = old.last (lType w) (lK w) || (s.core st.die st.core).resetLater sid base row then s
    else s.modCore st.die st.core fun k =>
      k.modThresh sid base row 1 fun t => { t with full := true, tval := l.1, tidx := l.2 }

/-- One candidate of a stand inserted in a row (R295). -/
def State.insertAt (s : State) (sid base : Nat) (w : DWord) (racy : List (Nat × Nat)) (row : Nat) (c : Word × Word) : State :=
  s.onRow sid base w row racy fun r => r.insert (lType w) (lK w) (lDup w) c

/-! ### The insertion queue -/

/-- Candidates in the queue (R299). -/
def Core.queuedCands (k : Core) : Nat :=
  (k.insq.map fun e => match e.op with | .insert _ cs _ => cs.length | _ => 0).foldl (· + ·) 0

/-- Enters an operation of the focused path in its core's queue (R301). -/
def State.enlist (s : State) (f : Focus) (d : Nat) (w : DWord) (op : ListOp) : State :=
  let e : ListEntry := ⟨f.stand.sid, f.cord.id, f.slotB, f.path.restart, f.path.mask, d, w, op, s.uid⟩
  s.modCore f.stand.die f.stand.core fun k => { k with insq := k.insq ++ [e] }

/-- The fields of a row operand that name rows: BASE, ROW0, and the region's parameter word (R306). -/
def rowFields (st : Stand) (a : DWord) : Option (Nat × Nat × DWord) :=
  match st.region (nbits a.toNat 31 0) with
  | some w => if nbits a.toNat 41 32 < lRows w then some (nbits a.toNat 31 0, nbits a.toNat 41 32, w) else none
  | none => none

/-- The row operand of R306, its zero field included. -/
def rowOperand (st : Stand) (a : DWord) : Option (Nat × Nat × DWord) :=
  if nbits a.toNat 63 42 = 0 then rowFields st a else none

/-- LDECL (R307). The limits that give the extent come before its range, R303's overlap after it (R374). -/
def execLdecl (o : XOps) (t : ListTy) (larger : Bool) (s : State) : Host.Outcome State Fault Refusal :=
  issue (.ldecl o t larger) s fun f =>
    let w := f.cord.sreg o.s
    let a := (f.cord.sreg (o.s + 1)).toNat
    let base := nbits a 31 0
    let ty := match t with | .f32 => 0 | .bf16 => 1 | .i32 => 2
    let z := nbits w.toNat 63 29 ≠ 0 ∨ nbits w.toNat 27 26 ≠ 0 ∨ nbits w.toNat 23 23 ≠ 0 ∨ nbits w.toNat 15 11 ≠ 0
    if base % 16 ≠ 0 then .trap s (misalign [(base, 16)])
    else if lRows w = 0 ∨ 1024 < lRows w ∨ lK w = 0 ∨ 64 < lK w then .trap s { code := .listParam }
    else if f.stand.asGran * 16384 < base + regionBytes w then .trap s { code := .accRange }
    else if z ∨ nbits a 63 32 ≠ 0 ∨ lType w = 3 ∨ lType w ≠ ty ∨ lDup w ≠ larger ∨
        f.stand.declaredIn base (regionBytes w) = true then .trap s { code := .listParam }
    else if 8 ≤ f.stand.regionCount ∨ 1024 < (s.core f.stand.die f.stand.core).thresh.length + lRows w then
      .done (s.result f o.d 1)
    else
      let s := s.modCore f.stand.die f.stand.core fun k =>
        { k with thresh := k.thresh ++ (List.range (lRows w)).map fun r => ⟨f.stand.sid, base, r, false, 0, 0⟩ }
      let s := s.enlist f o.d.toNat w (.declare base)
      .done (s.keep { f with stand := f.stand.addRegion base w, cord := f.cord.markV [o.d.toNat] }.advance)

/-- Candidates of a LINS, by lane: row and pair. -/
def linsCands (f : Focus) (d v : VCode) (ty row0 : Nat) : List (Nat × Word × Word) :=
  (Mask.toLanes f.path.mask).map fun l =>
    let row := row0 + if v = 63 then 0 else ((f.cord.vreg v.toNat).lane l).toNat
    (row, listVal ty ((f.cord.vreg d.toNat).lane l), (f.cord.vreg (d.toNat + 1)).lane l)

/-- A LINS whose survivors do not fit waits (R299). -/
def linsHeld (s : State) (f : Focus) (o : XOps) (v : VCode) : Bool :=
  match rowOperand f.stand (f.cord.sreg o.s) with
  | some (base, row0, w) =>
    let k := s.core f.stand.die f.stand.core
    let cs := (linsCands f o.d v (lType w) row0).filter fun c => k.passes f.stand.sid base (lType w) c.1 c.2
    decide (256 < k.queuedCands + cs.length)
  | none => false

/-- LINS (R308). -/
def execLins (o : XOps) (v : VCode) (t : ListTy) (s : State) : Host.Outcome State Fault Refusal :=
  issue (.lins o v t) s fun f =>
    let ty := match t with | .f32 => 0 | .bf16 => 1 | .i32 => 2
    match rowOperand f.stand (f.cord.sreg o.s) with
    | none => .trap s { code := .listParam }
    | some (base, row0, w) =>
      let cs := linsCands f o.d v ty row0
      if ty ≠ lType w then .trap s { code := .listParam }
      else if cs.any fun c => decide (lRows w ≤ c.1) then .trap s { code := .listParam }
      else if linsHeld s f o v then .held
      else
        let pass (c : Nat × Word × Word) : Bool :=
          (s.core f.stand.die f.stand.core).passes f.stand.sid base ty c.1 c.2
        .done ((s.enlist f 0 w (.insert base (cs.filter pass)
          ((cs.filter fun c => !pass c).map Prod.fst))).keep f.advance)

/-- LTHR (R309). -/
def execLthr (p : VCode) (r : SCode) (v : VCode) (s : State) : Host.Outcome State Fault Refusal :=
  issue (.lthr p r v) s fun f =>
    match rowOperand f.stand (f.cord.sreg r) with
    | none => .trap s { code := .listParam }
    | some (base, row0, w) =>
      let vals := laneMap fun l => listVal (lType w) (if v = 63 then 0 else (f.cord.vreg v.toNat).lane l)
      .done ((s.enlist f 0 w (.thr base row0 vals p.toNat)).keep
        { f with cord := f.cord.markP [p.toNat] }.advance)

/-- Checks of LREAD and LMERGE (R310, R311): alignment, the fields of the extent, the range, then the zero fields
(R374). -/
def imageTrap (f : Focus) (r : SCode) : Except Trap (Nat × Nat × Nat × Nat × DWord) :=
  let a := (f.cord.sreg (r + 1)).toNat
  let off := nbits a 31 0
  let n := nbits a 42 32
  if off % 16 ≠ 0 then .error (misalign [(off, 16)])
  else
    match rowFields f.stand (f.cord.sreg r) with
    | none => .error { code := .listParam }
    | some (base, row0, w) =>
      if n = 0 ∨ lRows w < row0 + n then .error { code := .listParam }
      else
        match spTrap f.stand (n * lRowBytes w) [(0, off)] with
        | some t => .error t
        | none =>
          if nbits (f.cord.sreg r).toNat 63 42 ≠ 0 ∨ nbits a 63 43 ≠ 0 then .error { code := .listParam }
          else .ok (base, row0, n, off, w)

/-- LREAD (R310). -/
def execLread (o : XOps) (s : State) : Host.Outcome State Fault Refusal :=
  issue (.lread o) s fun f =>
    match imageTrap f o.s with
    | .error t => .trap s t
    | .ok (base, row0, n, dst, w) =>
      .done ((s.enlist f o.d.toNat w (.read base row0 n dst)).keep
        { f with cord := f.cord.markV [o.d.toNat, o.d.toNat + 1] }.advance)

/-- LMERGE (R311). -/
def execLmerge (o : XOps) (s : State) : Host.Outcome State Fault Refusal :=
  issue (.lmerge o) s fun f =>
    match imageTrap f o.s with
    | .error t => .trap s t
    | .ok (base, row0, n, src, w) =>
      .done ((s.enlist f o.d.toNat w (.merge base row0 n src)).keep
        { f with cord := f.cord.markV [o.d.toNat, o.d.toNat + 1] }.advance)

/-- LCLR: thresholds at issue, and with FREE the region leaves the table (R298, R312). -/
def execLclr (r : SCode) (s : State) : Host.Outcome State Fault Refusal :=
  issue (.lclr r) s fun f =>
    let a := (f.cord.sreg (r + 1)).toNat
    let n := nbits a 42 32
    let free := nbits a 63 63 = 1
    match rowOperand f.stand (f.cord.sreg r) with
    | none => .trap s { code := .listParam }
    | some (base, row0, w) =>
      if n = 0 ∨ lRows w < row0 + n ∨ nbits a 62 43 ≠ 0 ∨ nbits a 31 0 ≠ 0 ∨ (free ∧ ¬(row0 = 0 ∧ n = lRows w)) then
        .trap s { code := .listParam }
      else
        let s := (s.enlist f 0 w (.clear base row0 n free)).modCore f.stand.die f.stand.core fun k =>
          if free then { k with thresh := k.thresh.filter fun t => !(t.sid = f.stand.sid ∧ t.base = base) }
          else k.modThresh f.stand.sid base row0 n fun t => { t with full := false }
        let st := if free then f.stand.dropRegion base else f.stand
        .done (s.keep { f with stand := st }.advance)

/-! ### The insertion engine -/

/-- Head of the insertion queue of a core, by COREID. -/
def State.listHead (s : State) (core : Nat) : Option (ListEntry × Stand) :=
  match (s.core (core / 32) (core % 32)).insq with
  | [] => none
  | e :: _ => (s.stand? e.sid).map fun st => (e, st)

def State.popList (s : State) (core : Nat) : State :=
  s.modCore (core / 32) (core % 32) fun k => { k with insq := k.insq.tail }

/-- n bytes from an offset in a row of a region hold damage (R374). -/
def State.rowStruck (s : State) (st : Stand) (base : Nat) (w : DWord) (row o n : Nat) : Bool :=
  s.struck st.die (.accumulator st.sid (base + row * lRowBytes w + o)) n

/-- The header or an entry of a row is damaged, which an insertion reads. -/
def State.entriesStruck (s : State) (st : Stand) (base : Nat) (w : DWord) (row : Nat) : Bool :=
  s.rowStruck st base w row 0 (16 + 8 * (readRow st.acc (base + row * lRowBytes w) (lK w)).entries.length)

/-- LIST_INSERT: the engine inserts the next candidate of the LINS at the head; with its last one, the candidates its
filter dropped are counted and the operation leaves the queue (R295, R301). -/
def execListInsert (core : Nat) (s : State) : Host.Outcome State Fault Refusal :=
  let s := s.unfocus
  match s.listHead core with
  | some (e, st) =>
    match e.op with
    | .insert base cs drops =>
      if (cs.take 1).any (fun c => s.entriesStruck st base e.word c.1) ||
          (decide (cs.length ≤ 1) && drops.any fun r => s.rowStruck st base e.word r 12 4) then
        .next ((s.popList core).trapInFlight ⟨e.sid, e.cord, e.slotB, e.pc, e.mask, e.d⟩ { code := .memError })
      else
        let racy := s.racyAcc st
        let s := match cs with
          | c :: _ => s.insertAt e.sid base e.word racy c.1 c.2
          | [] => s
        if 1 < cs.length then
          .next (s.modCore (core / 32) (core % 32) fun k =>
            { k with insq := { e with op := .insert base cs.tail drops } :: k.insq.tail })
        else
          .next ((drops.foldl (fun s r => s.onRow e.sid base e.word r racy fun x => x.discard 1) s).popList core)
    | _ => .next s
  | none => .next s

/-- Rows of an image merged in order, up to one whose header fails or that reads damaged bytes: the state, the bytes read,
a failed header's among them, and the fault (R311, R374). `image` reads n bytes of the source. -/
def State.mergeRows (s : State) (e : ListEntry) (st : Stand) (base : Nat) (racy : List (Nat × Nat)) (image : Nat → Nat → Nat) :
    List (Nat × Nat) → Nat → State × Nat × Option Trap
  | [], n => (s, n, none)
  | (row, o) :: rest, n =>
    let len := image o 4
    let bad (k m : Nat) : Bool := s.struck st.die (.scratchpad st.sid (o + k)) m
    if bad 0 4 || bad 12 4 then (s, n, some { code := .memError })
    else if lK e.word < len then (s, n + 16, some { code := .listParam, val := some (BitVec.ofNat 64 o) })
    else if bad 16 (8 * len) || s.entriesStruck st base e.word row then (s, n, some { code := .memError })
    else
      let cand (j : Nat) : Word × Word :=
        let v : Word := BitVec.ofNat 32 (image (o + 16 + 8 * j) 4)
        (listVal (lType e.word) (if lType e.word = 1 then v >>> 16 else v), BitVec.ofNat 32 (image (o + 20 + 8 * j) 4))
      let s := s.onRow e.sid base e.word row racy fun r => r.discard (image (o + 12) 4)
      let s := (List.range len).foldl (fun s j => s.insertAt e.sid base e.word racy row (cand j)) s
      s.mergeRows e st base racy image rest (n + 16 + 8 * len)

/-- LIST_OP_PERFORM: the declare, merge, read, threshold compare or clear at the head of a core's queue (R301). A read
and a merge follow every access of their threads (R302). -/
def execListOpPerform (core : Nat) (s : State) : Host.Outcome State Fault Refusal :=
  let s := s.unfocus
  match s.listHead core with
  | none => .next s
  | some (e, st) =>
    let t : Dest := ⟨e.sid, e.cord, e.slotB, e.pc, e.mask, e.d⟩
    let rb := lRowBytes e.word
    let racy := s.racyAcc st
    let rows (base row0 n : Nat) (bs : List Byte) (s : State) : State :=
      ((s.mendAcc st (base + row0 * rb) (n * rb)).modStand e.sid fun x =>
        { x with acc := (List.range n).foldl (fun m j => m.putFree racy s.fresh (base + (row0 + j) * rb) bs) x.acc }).drawIf racy
    let none' := ListRow.empty.bytes (lType e.word) (lK e.word)
    let waits := s.unreleased e.since e.sid e.cord e.mask
    match e.op with
    | .insert _ _ _ => .next s
    | .declare base =>
      .next ((rows base 0 (lRows e.word) none' (s.popList core)).modCord e.sid e.cord fun c =>
        (c.writeV e.d e.mask (fun _ => 0) .general).unmarkV [e.d])
    | .clear base row0 n free =>
      .next (rows base row0 n (if free then List.replicate rb 0 else none') (s.popList core))
    | .thr base row vals p =>
      if s.rowStruck st base e.word row 0 16 then .next ((s.popList core).trapInFlight t { code := .memError })
      else
        let r := readRow st.acc (base + row * rb) (lK e.word)
        let tv := (r.last (lType e.word) (lK e.word)).1
        let undef := racy.any fun x => decide (x.1 < base + (row + 1) * rb) && decide (base + row * rb < x.1 + x.2)
        let bits : Mask := if undef then Config.freeWord s.fresh 0 else Mask.ofLanes fun l =>
          let v := vals.getD l 0
          !listNan (lType e.word) v && (decide (r.entries.length < lK e.word) || !listLt (lType e.word) v tv)
        .next (((s.popList core).drawIf racy).modCord e.sid e.cord fun c => (c.writeP p e.mask bits).unmarkP [p])
    | .read base row0 n dst =>
      if waits then .next s
      else if s.rowStruck st base e.word row0 0 (n * rb) then .next (State.copyFault t 0 (s.popList core) { code := .memError })
      else
        let bs := (List.range (n * rb)).map fun k =>
          if inRanges racy (base + row0 * rb + k) then Config.freeByte s.fresh (base + row0 * rb + k)
          else st.acc.read (base + row0 * rb + k)
        let s := ((s.popList core).draw.mendSp st dst (n * rb)).modStand e.sid fun x =>
          { x with sp := x.sp.putFree (s.racySp st) (s.fresh + 1) dst bs }.wrote e.cord e.mask dst (n * rb)
        .next (s.draw.writeStatus t (statusLow codeDone false false 0 0) (BitVec.ofNat 32 (n * rb)))
    | .merge base row0 n src =>
      if waits then .next s
      else
        let spr := s.racyRead st
        let image (o k : Nat) : Nat := st.sp.loadFree spr s.fresh o k
        let q := (s.drawIf spr).mergeRows e st base racy image ((List.range n).map fun j => (row0 + j, src + j * rb)) 0
        let s := q.1.popList core
        match q.2.2 with
        | some r => .next (State.copyFault t q.2.1 s r)
        | none => .next (s.writeStatus t (statusLow codeDone false false 0 0) (BitVec.ofNat 32 q.2.1))

end Sys2Proof.Machine
end

