-- ==== Sys2Proof/Machine/Matrix.lean ====
section
/-! DEFINITION. Tile arithmetic, tile tasks, the tile queues and the picker, the drain path, and the matrix instructions
(09_matrix.md R256 to R290). -/

namespace Sys2Proof.Machine

/-! ### Arithmetic of a tile (R256 to R266) -/

/-- Format of a code of R260; I8 (3) is no float format. -/
def tileFmt (n : Nat) : FloatFmt := match n with | 0 => .bf16 | 1 => .e4m3 | 2 => .e5m2 | _ => .e2m1

/-- K-rows that one element row holds (R256). -/
def kRows (wfmt : Nat) : Nat := if wfmt = 0 then 1 else if wfmt = 4 then 4 else 2

/-- Bits of element k of a slice or an activation row at an offset (R257, R261). -/
def elemBits (m : Memory) (o fmt k : Nat) : Nat :=
  if fmt = 0 then m.load (o + 2 * k) 2
  else if fmt = 4 then nbits (m.read (o + k / 2)).toNat (4 * (k % 2) + 3) (4 * (k % 2))
  else (m.read (o + k)).toNat

/-- An element under its scale, 127 where it has none: a NaN element raises NV in its product (R264, R266). -/
def elemNum (fmt bits scale : Nat) : Num :=
  if scale = 255 then .nan true
  else
    match (tileFmt fmt).value bits with
    | .nan _ => .nan true
    | x => x.scale ((scale : Int) - 127)

/-- A partial sum or an accumulator as it is read (R264). -/
def accNum (bits : Nat) : Num :=
  match FloatFmt.f32.value bits with
  | .nan _ => .nan false
  | x => x

/-- FPSTAT flags as MSTAT's NV, OF, UF and SAT (R278). -/
def mstatFlags (f : Flags) : BitVec 5 :=
  BitVec.ofNat 5 ((f.getLsbD 0).toNat + (f.getLsbD 2).toNat * 2 + (f.getLsbD 3).toNat * 4 + (f.getLsbD 5).toNat * 8)

/-- round_rne and ftz of an exact sum, with MSTAT's flags (R263, R264). -/
def tileRound (x : Num) : Nat × BitVec 5 :=
  let r := x.toFmt .f32
  let m := r.1 % 2 ^ 31
  if m ≠ 0 ∧ m < 2 ^ 23 then (r.1 - m, mstatFlags (r.2 &&& (flagNV ||| flagOF)) ||| 4)
  else (r.1, mstatFlags (r.2 &&& (flagNV ||| flagOF)))

/-- Products of element (i, n) for row m: activations at offset `a`, their scales at `sc`, against column n's slice. -/
def elemProducts (sp : Memory) (tile : Tile) (t : Task) (a sc n i : Nat) : List Num :=
  (List.range (kRows t.wfmt)).map fun j =>
    let k := kRows t.wfmt * i + j
    let fp4 := decide (t.wfmt = 4)
    (elemNum t.afmt (elemBits sp a t.afmt k) (if fp4 then (sp.read (sc + k / 32)).toNat else 127)).mul
      (elemNum t.wfmt (elemBits tile.bytes (n * 256) t.wfmt k)
        (if fp4 then (tile.side.read (n * 16 + k / 32)).toNat else 127))

/-- Column result ps of the F32 classes (R263). -/
def dotF32 (sp : Memory) (tile : Tile) (t : Task) (a sc n : Nat) : Nat × BitVec 5 :=
  (List.range 128).foldl (fun acc i =>
    let r := tileRound (sumNums [accNum acc.1, sumNums (elemProducts sp tile t a sc n i)])
    (r.1, acc.2 ||| r.2)) (0, 0)

/-- Column result of the I8 class: exact products, sums modulo 2^32 (R265). -/
def dotI8 (sp : Memory) (tile : Tile) (a n : Nat) : Word :=
  (List.range 256).foldl (fun ps k =>
    ps + BitVec.ofInt 32 (signed (elemBits sp a 3 k) 8 * signed (elemBits tile.bytes (n * 256) 3 k) 8)) 0

/-- The 128 column results of row m of a task, with their flags. -/
def taskRow (sp : Memory) (tile : Tile) (t : Task) (m : Nat) : List (Nat × BitVec 5) :=
  let a := t.aoff + m * t.astride * 256
  (List.range 128).map fun n =>
    if t.wfmt = 3 then ((dotI8 sp tile a n).toNat, 0) else dotF32 sp tile t a (t.ascale + 16 * m) n

/-- The word a result leaves in the accumulator, with the flags of its addition (R263, R265). -/
def accWord (t : Task) (old ps : Nat) : Nat × BitVec 5 :=
  if t.mode ≠ 1 then (ps, 0)
  else if t.wfmt = 3 then ((old + ps) % 2 ^ 32, 0)
  else tileRound (sumNums [accNum old, accNum ps])

/-- |value| as an F32 pattern, for the amax fold (R276, R283). -/
def absF32 (int : Bool) (w : Nat) : Nat :=
  if int then (roundNum .f32 .rne false 0 false (BitVec.ofNat 32 w).toInt.natAbs 0 false).1
  else if (FloatFmt.f32.value w).isNan then 0x7FC00000 else w % 2 ^ 31

/-! ### Records (R267, R268) -/

/-- Accepted pairs of weight and activation format (R260). -/
def tilePair (w a : Nat) : Bool :=
  (w == 0 && a == 0) || ((w == 1 || w == 2) && (a == 1 || a == 2)) || (w == 3 && a == 3) || (w == 4 && a == 4)

/-- A dependence word of R268. -/
def depOk (window w : Nat) : Bool :=
  match nbits w 63 62 with
  | 0 => decide (w = 0)
  | 1 => decide (nbits w 61 57 = 0) && decide (w % 16 = 0)
  | 2 => decide (w % 8 = 0) && decide (nbits w 31 0 + 8 ≤ window)
  | _ => false

/-- Limits of the fields of a record (R267). -/
def recordLimits (window : Nat) (r : List Byte) : Bool :=
  let t := taskOf 0 0 0 r
  decide (t.fut % 16 = 0) && decide (t.fut < 2 ^ 57) && decide (t.amax % 4 = 0) && decide (t.amax < 2 ^ 57) &&
    depOk window (recField r 16 8) && depOk window (recField r 24 8) && decide (t.aoff % 256 = 0) &&
    (if t.wfmt = 4 then decide (t.ascale % 16 = 0) else decide (t.ascale = 0)) &&
    (decide (t.mode = 2) || (decide (t.accbase % 512 = 0) && decide (t.lrow = 0) && decide (t.idxbase = 0))) &&
    decide (1 ≤ t.m) && decide (t.m ≤ 512) && decide (1 ≤ t.astride) && decide (t.astride ≤ 6144) &&
    decide (recField r 48 1 < 128) && tilePair t.wfmt t.afmt && decide (recField r 50 1 < 8) && decide (t.mode ≠ 3) &&
    decide (recField r 51 1 = 0) && decide (recField r 60 4 = 0)

/-- Ranges of a record (R267, R303). -/
def recordRanges (st : Stand) (t : Task) : Bool :=
  let window := st.spGran * 16384
  decide (t.aoff + (t.m - 1) * t.astride * 256 + 256 ≤ window) &&
    (decide (t.wfmt ≠ 4) || decide (t.ascale + 16 * t.m ≤ window)) &&
    if t.mode = 2 then
      match st.region t.accbase with
      | some w => decide (lType w = if t.wfmt = 3 then 2 else 0) && decide (t.lrow + t.m ≤ lRows w)
      | none => false
    else
      decide (t.accbase + 512 * t.m ≤ st.asGran * 16384) && !st.declaredIn t.accbase (512 * t.m)

/-- The checks of R267 and R268. -/
def recordOk (st : Stand) (r : List Byte) : Bool :=
  recordLimits (st.spGran * 16384) r && recordRanges st (taskOf 0 0 0 r)

/-! ### The queues (R269, R270) -/

def Core.queue (k : Core) (q1 : Bool) : List Task := if q1 then k.q1 else k.q0
def Core.setQueue (k : Core) (q1 : Bool) (l : List Task) : Core := if q1 then { k with q1 := l } else { k with q0 := l }

/-- Backing region of a stand's queue: base, capacity, and writes so far (R270, R287). -/
def Stand.backing (st : Stand) (q1 : Bool) : Nat × Nat × Nat :=
  if q1 then (st.q1b.toNat, st.q1cap.toNat, st.q1w) else (st.q0b.toNat, st.q0cap.toNat, st.q0w)

/-- Records in the backing region of a stand's queue. -/
def Core.backedOf (k : Core) (sid : Nat) (q1 : Bool) : Nat :=
  (k.backed.filter fun b => b.task.sid = sid && b.task.queue1 = q1 && !b.restored).length

/-- Parameter word of the region that a task's record names, in list mode (R300). -/
def Stand.listWord (st : Stand) (t : Task) : DWord := if t.mode = 2 then (st.region t.accbase).getD 0 else 0

/-- The on-chip entries of a queue are full: taken, or awaited by records of backing regions, which a later task does not
pass (R270). -/
def Core.queueFull (k : Core) (q1 : Bool) : Bool :=
  decide (16 ≤ (k.queue q1).length) || k.backed.any fun b => b.task.queue1 = q1

/-- Origin of an access that a core makes for a stand's tasks, with the task it reports (R29, R277). -/
def Stand.origin (st : Stand) (t : Option Task := none) : Origin :=
  { die := st.die, ctx := st.ctx, dest := none, sid := some st.sid, task := t }

/-- Writes a record into a backing region: whether it was written, held, or the context ended (R287). -/
def State.writeBacked (s : State) (st : Stand) (b : Backed) : State × Backed :=
  let o := st.origin
  match s.engineReach st.agent .write b.va 64 with
  | (s, .ok rs) => (s.scatter rs (taskBytes b.task), { b with written := true, held := none })
  | (s, .error (.pageFault, va)) => (s.pageEvent o va, { b with held := some s.uid })
  | (s, .error (c, va)) => (s.trapDevice o { code := c, val := some (BitVec.ofNat 64 va) }, b)

/-- MTASK (R281). -/
def execMtask (o : XOps) (s : State) : Host.Outcome State Fault Refusal :=
  issue (.mtask o) s fun f =>
    match (recTrap f.stand 64 64 (f.off32 o.s)).or (f.damage s [(f.off32 o.s, 64)]) with
    | some t => .trap s t
    | none =>
      let r := f.stand.sp.bytes (f.off32 o.s) 64
      let d := f.stand.die
      let c := f.stand.core
      let k := s.core d c
      let t := taskOf f.stand.sid k.taskSeq s.clock r
      let t := f.stand.taint { t with cord := f.cord.id, mask := f.path.mask, word := f.stand.listWord t }
      let b := f.stand.backing t.queue1
      if !recordOk f.stand r then .trap s { code := .matrixParam }
      else if s.owned f t.wslot then .trap s { code := .protection }
      else if 65535 ≤ (k.canopy.getD t.wslot {}).pins then .done (s.answer f o.d 1 0)
      else
        let took := (s.pinSlot d c t.wslot).modCore d c fun k => { k with taskSeq := k.taskSeq + 1 }
        let seq := BitVec.ofNat 32 t.seq
        if !k.queueFull t.queue1 then
          .done ((took.modCore d c fun k => k.setQueue t.queue1 (k.queue t.queue1 ++ [t])).answer f o.d 0 seq)
        else if k.backedOf f.stand.sid t.queue1 < b.2.1 then
          let st := if t.queue1 then { f.stand with q1w := f.stand.q1w + 1 } else { f.stand with q0w := f.stand.q0w + 1 }
          let s := took.answer { f with stand := st } o.d 0 seq
          let q := s.writeBacked st ⟨t, b.1 + 64 * (b.2.2 % b.2.1), false, none, false⟩
          .done (q.1.modCore d c fun k =>
            if (q.1.stand? t.sid).isSome || (q.1.focus.any fun f => f.stand.sid = t.sid) then
              { k with backed := k.backed ++ [q.2] }
            else k)
        else .done (s.answer f o.d 1 0)

/-- TASK_BACKING_REFILL: the oldest record of a queue's backing regions is written, where a page fault held its write,
or moves on-chip, checked again as read (R270). -/
def execTaskBackingRefill (core : Nat) (low : Bool) (s : State) : Host.Outcome State Fault Refusal :=
  let s := s.unfocus
  let d := core / 32
  let c := core % 32
  let k := s.core d c
  match k.backed.find? fun b => b.task.queue1 = low with
  | none => .next s
  | some b =>
    match s.stand? b.task.sid with
    | none => .next s
    | some st =>
      let o := st.origin
      let here (x : Backed) : Bool := decide (x.task.sid = b.task.sid) && decide (x.task.seq = b.task.seq)
      let set (s : State) (y : Backed) : State :=
        s.modCore d c fun k => { k with backed := k.backed.map fun x => if here x then y else x }
      let enter (s : State) (t : Task) : State := s.modCore d c fun k =>
        { (k.setQueue low (k.queue low ++ [t])) with backed := k.backed.filter fun x => !here x }
      if b.held.isSome || st.phase ≠ .running then .next s
      else if b.restored then .next (if 16 ≤ (k.queue low).length then s else enter s b.task)
      else if !b.written then
        let q := s.writeBacked st b
        .next (set q.1 q.2)
      else if 16 ≤ (k.queue low).length then .next s
      else
        match s.engineReach st.agent .read b.va 64 with
        | (s, .error (.pageFault, va)) => .next (set (s.pageEvent o va) { b with held := some s.uid })
        | (s, .error (e, va)) => .next (s.trapDevice o { code := e, val := some (BitVec.ofNat 64 va) })
        | (s, .ok rs) =>
          let r := gather s.hbm rs
          if recordOk st r then
            let t := taskOf b.task.sid b.task.seq b.task.accepted r
            .next (enter s { t with
              pin := b.task.pin, queue1 := low, cord := b.task.cord, mask := b.task.mask, word := st.listWord t,
              tainted := b.task.tainted, spoiled := b.task.spoiled })
          else .next (s.trapDevice o { code := .matrixParam })

/-! ### Dependences (R268, R273) -/

/-- Global addresses of a task's future dependences. -/
def Task.futures (t : Task) : List Nat :=
  [t.dep0, t.dep1].filterMap fun d => match d with | .future va => some va | _ => none

/-- The future of a dependence, by physical address. -/
def State.depFuture (s : State) (st : Stand) (va : Nat) : Option Nat :=
  match (s.translate st.agent .atomic va).2 with
  | .ok p => some p.1
  | .error _ => none

/-- A dependence holds (R268). -/
def State.depMet (s : State) (st : Stand) : Dep → Bool
  | .future va => (s.depFuture st va).any fun pa => futureDone s.hbm (hAddr st.die pa)
  | x => s.depHolds st x

/-- The value of the first poisoned dependence future of a task (R273). -/
def State.depPoison (s : State) (st : Stand) (t : Task) : Option DWord :=
  t.futures.findSome? fun va =>
    (s.depFuture st va).bind fun pa =>
      let h := hAddr st.die pa
      if nbits (s.hbm.load h 8) 63 62 = 3 then some (BitVec.ofNat 64 (s.hbm.load (h + 8) 8)) else none

/-- On-chip tasks of a core. -/
def Core.onChip (k : Core) : List Task := k.q0.take 16 ++ k.q1.take 16

/-- Tasks in the array or picked. -/
def Core.inArray (k : Core) : List Task := (k.running.toList ++ k.picked.toList).map Running.task

/-- Futures of an on-chip task that it is not registered on and that are not resolved (R273). -/
def State.unregistered (s : State) (st : Stand) (t : Task) : List Nat :=
  if t.held.isSome then []
  else t.futures.filter fun va =>
    match s.depFuture st va with
    | some pa => !t.registered.contains pa && !futureDone s.hbm (hAddr st.die pa)
    | none => true

/-- Registrations of a core on futures. -/
def Core.registrations (k : Core) : Nat := (k.onChip.map fun t => t.registered.length).foldl (· + ·) 0

/-- Changes a queued task. -/
def State.modTask (s : State) (d c : Nat) (t : Task) (f : Task → Task) : State :=
  let g (x : Task) : Task := if x.sid = t.sid ∧ x.seq = t.seq then f x else x
  s.modCore d c fun k => { k with q0 := k.q0.map g, q1 := k.q1.map g }

/-- Reads one dependence future at the L2, and registers on it where `reg` says: a page fault holds the task, another
fault ends the context (R273, R377). -/
def State.readDep (s : State) (st : Stand) (t : Task) (reg : Bool) (va : Nat) : State :=
  let o := st.origin
  match s.engineReach st.agent (if reg then .atomic else .read) va 8 with
  | (s, .error (.pageFault, a)) => (s.pageEvent o a).modTask st.die st.core t fun x => { x with held := some s.uid }
  | (s, .error (c, a)) => s.trapDevice o { code := c, val := some (BitVec.ofNat 64 a) }
  | (s, .ok rs) =>
    let h := (rs.headD (0, 0)).1
    let w := s.hbm.load h 8
    if !reg || 2 ≤ nbits w 63 62 then s
    else
      (s.setFuture h (s.hbm.store h 8 (2 ^ 62 + nbits w 61 32 * 2 ^ 32 + (nbits w 31 0 + 1) % 2 ^ 32))).modTask
        st.die st.core t fun x => { x with registered := x.registered ++ [h - hAddr st.die 0] }

/-- PICKER_REEVAL: the picker looks at the queues again, and registers one more future dependence of an on-chip task
while registrations are left (R272, R273). -/
def execPickerReeval (core : Nat) (s : State) : Host.Outcome State Fault Refusal :=
  let s := s.unfocus
  let d := core / 32
  let c := core % 32
  let k := s.core d c
  if 64 ≤ k.registrations then .next s
  else
    match k.onChip.findSome? fun t =>
        (s.stand? t.sid).bind fun st =>
          if st.phase = .running then ((s.unregistered st t).head?).map fun va => (st, t, va) else none with
    | some (st, t, va) => .next (s.readDep st t true va)
    | none => .next s

/-- DEP_POLL: a dependence beyond the registrations is read (R273). -/
def execDepPoll (core seq : Nat) (s : State) : Host.Outcome State Fault Refusal :=
  let s := s.unfocus
  match (s.core (core / 32) (core % 32)).onChip.find? fun t => t.seq = seq with
  | some t =>
    match s.stand? t.sid with
    | some st =>
      match s.unregistered st t with
      | va :: _ => .next (s.readDep st t false va)
      | [] => .next s
    | none => .next s
  | none => .next s

/-! ### The picker (R271, R274) -/

/-- An on-chip task is eligible (R271). -/
def State.eligible (s : State) (d c : Nat) (t : Task) : Bool :=
  match s.stand? t.sid with
  | none => false
  | some st =>
    decide (st.phase = .running) && t.held.isNone && s.depMet st t.dep0 && s.depMet st t.dep1 &&
      (s.depPoison st t).isNone &&
      ((s.core d c).allTasks.all fun x =>
        !(decide (x.sid = t.sid) && decide (x.seq < t.seq) && meetRanges x.cover t.cover)) &&
      (s.claims d c t.wslot).all fun x => !decide (x.2 ≤ t.seq)

/-- The picker's choice, and whether its first rule made it. -/
def State.choose (s : State) (d c : Nat) : Option (Task × Bool) :=
  let k := s.core d c
  let high := (k.q0.take 16).find? (s.eligible d c)
  let low := (k.q1.take 16).find? (s.eligible d c)
  let aged := if k.lastAged then none else (k.q1.take 16).find? fun t =>
    s.eligible d c t && (s.stand? t.sid).any fun st => decide (st.q1age.toNat < s.clock - t.accepted)
  match aged, high, low with
  | some t, _, _ => some (t, true)
  | none, some t, _ => some (t, false)
  | none, none, some t => some (t, false)
  | none, none, none => none

/-- The tile a task streams against: the active one where the load is skipped, else as the slot stands (R259). -/
def Core.tileFor (k : Core) (t : Task) : Tile :=
  let x := k.canopy.getD t.wslot {}
  match k.active with
  | some a => if a.slot = t.wslot ∧ a.fmt = t.wfmt ∧ a.gen = x.gen then a else ⟨t.wslot, t.wfmt, x.gen, x.bytes, x.side⟩
  | none => ⟨t.wslot, t.wfmt, x.gen, x.bytes, x.side⟩

/-- A task with dependences takes over its operand bytes when it is picked; one without has done so when it was accepted
(R277). -/
def State.taken (s : State) (t : Task) : Task :=
  match s.stand? t.sid with
  | some st => if t.dep0 = .none ∧ t.dep1 = .none then t else st.taint t
  | none => t

/-- Damaged data that a task consumes when it is picked: the counters of its dependences and its slot (R374). -/
def State.slotStruck (s : State) (d c : Nat) (t : Task) : Bool :=
  s.struck d (.canopy c t.wslot 0) (32768 + 2048) ||
    [t.dep0, t.dep1].any fun
      | .counter o _ => s.struck d (.scratchpad t.sid o) 8
      | _ => false

/-- Damaged data that a task consumes when it streams: its operands, and the accumulators it adds to or ranks (R374). -/
def State.taskStruck (s : State) (st : Stand) (t : Task) : Bool :=
  (t.operands.any fun r => s.struck st.die (.scratchpad st.sid r.1) r.2) ||
    (decide (t.mode ≠ 0) && s.struck st.die (.accumulator st.sid t.cover.1) t.cover.2)

/-- MEM_ERROR of a task (R373, R377). -/
def State.taskError (s : State) (st : Stand) (t : Task) : State :=
  s.trapDevice (st.origin (some t)) { code := .memError }

/-- TASK_PICK (R271). -/
def execTaskPick (core : Nat) (s : State) : Host.Outcome State Fault Refusal :=
  let s := s.unfocus
  let d := core / 32
  let c := core % 32
  let k := s.core d c
  if k.picked.isSome then .next s
  else
    match s.choose d c with
    | none => .next s
    | some (t, aged) =>
      match (if s.slotStruck d c t then s.stand? t.sid else none) with
      | some st => .next (s.taskError st t)
      | none =>
        let r : Running := ⟨{ s.taken t with registered := [] }, s.clock, k.tileFor t⟩
        let other (x : Task) : Bool := !(decide (x.sid = t.sid) && decide (x.seq = t.seq))
        let s := (s.unregisterTask d t).modCore d c fun k =>
          { k with q0 := k.q0.filter other, q1 := k.q1.filter other, lastAged := aged }
        if k.running.isNone then .next (s.startTask d c r)
        else .next (s.modCore d c fun k => { k with picked := some r })

/-- Adds a work of the device and performs it at once at the L2; a fold goes on to what follows it. -/
def State.addL2 (s : State) (w : Work) : State :=
  let id := s.uid
  ((s.addWork w).performL2 id).performL2 id

/-- TASK_SKIP: a task that a poisoned dependence skips (R273). -/
def execTaskSkip (core seq : Nat) (s : State) : Host.Outcome State Fault Refusal :=
  let s := s.unfocus
  let d := core / 32
  let c := core % 32
  match (s.core d c).onChip.find? fun t => t.seq = seq with
  | none => .next s
  | some t =>
    match s.stand? t.sid with
    | none => .next s
    | some st =>
      match s.depPoison st t with
      | none => .next s
      | some v =>
        if st.phase ≠ .running || t.held.isSome then .next s
        else
          let other (x : Task) : Bool := !(decide (x.sid = t.sid) && decide (x.seq = t.seq))
          let s := ((s.unregisterTask d t).unpin d c t.pin).modCore d c fun k =>
            { k with q0 := k.q0.filter other, q1 := k.q1.filter other }
          let s := s.modStand t.sid fun x => { x with mstat := x.mstat ||| 16 }
          .next (if t.fut = 0 then s else s.addL2 (.resolve (st.origin t) t.fut none v true))

/-! ### Completion (R275, R276, R300) -/

/-- Results of a task in overwrite or accumulate mode on its operands: the accumulators, the flags, the words it leaves. -/
def tileResults (st : Stand) (sp : Memory) (tile : Tile) (t : Task) : Memory × BitVec 5 × List Nat :=
  (List.range t.m).foldl (fun acc m =>
    let row := ((List.range 128).zip (taskRow sp tile t m)).map fun x =>
      let w := accWord t (st.acc.load (t.accbase + 512 * m + 4 * x.1) 4) x.2.1
      (w.1, x.2.2 ||| w.2)
    (acc.1.put (t.accbase + 512 * m) (row.flatMap fun x => leBytes 4 x.1),
      row.foldl (fun f x => f ||| x.2) acc.2.1, acc.2.2 ++ row.map Prod.fst)) (st.acc, 0, [])

/-- Candidates of a list-mode task, by row (R300). -/
def tileCands (sp : Memory) (tile : Tile) (t : Task) : List (Nat × Word × Word) × BitVec 5 :=
  (List.range t.m).foldl (fun acc m =>
    let row := (List.range 128).zip (taskRow sp tile t m)
    (acc.1 ++ row.map (fun x => (t.lrow + m, BitVec.ofNat 32 x.2.1, BitVec.ofNat 32 (t.idxbase + x.1))),
      row.foldl (fun f x => f ||| x.2.2) acc.2)) ([], 0)

/-- Amax fold, then the future's resolution (R276). -/
def State.reportTask (s : State) (st : Stand) (t : Task) (amax : Nat) : State :=
  let o := st.origin t
  let v := BitVec.ofNat 64 (t.seq % 2 ^ 32)
  if t.amax ≠ 0 then
    s.addL2 (.fold o t.amax (BitVec.ofNat 32 amax) (if t.fut = 0 then .nothing else .resolve t.fut v))
  else if t.fut ≠ 0 then s.addL2 (.resolve o t.fut none v false)
  else s

/-- Accumulator bytes whose content is undefined once a task is done, since its program touched them meanwhile (R277). -/
def Task.lost (t : Task) : List (Nat × Nat) := if t.mode = 2 then [] else t.spoiled

/-- TASK_COMPLETE: the running task writes its results, or presents its candidates, and reports (R276, R300). In list mode it
presents under the parameter word of its region at its acceptance, whatever has become of the region (DESIGN CHOICE, log 84). -/
def execTaskComplete (core : Nat) (s : State) : Host.Outcome State Fault Refusal :=
  let s := s.unfocus
  let d := core / 32
  let c := core % 32
  match (s.core d c).running with
  | none => .next s
  | some r =>
    let t := r.task
    let int := decide (t.wfmt = 3)
    match s.stand? t.sid with
    | none => .next (s.nextTask d c)
    | some st =>
      let sp := st.sp.freed t.tainted s.fresh
      if s.taskStruck st t then .next (s.taskError st t)
      else if t.mode = 2 then
        if (s.core d c).insq ≠ [] then .next s
        else
          let q := tileCands sp r.tile t
          let w := t.word
          let cs := q.1.map fun x => (x.1, listVal (lType w) x.2.1, x.2.2)
          let s := cs.foldl (fun (s : State) x =>
            if (s.core d c).passes t.sid t.accbase (lType w) x.1 x.2 then s.insertAt t.sid t.accbase w [] x.1 x.2
            else s.onRow t.sid t.accbase w x.1 [] fun y => y.discard 1) (s.drawIf t.tainted)
          let s := s.modStand t.sid fun x => { x with mstat := x.mstat ||| q.2 }
          .next (((s.unpin d c t.pin).nextTask d c).reportTask st t
            ((q.1.map fun x => absF32 int x.2.1.toNat).foldl max 0))
      else
        let q := tileResults st sp r.tile t
        let s := (s.mendAcc st t.cover.1 t.cover.2).modStand t.sid fun x =>
          { x with acc := q.1.freed t.lost (s.fresh + 1), mstat := x.mstat ||| q.2.1 }
        .next ((((s.drawIf t.tainted).drawIf t.lost).nextTask d c).reportTask st t ((q.2.2.map (absF32 int)).foldl max 0))

/-! ### Instructions -/

/-- Writes of the path's threads to scratchpad or accumulators that are not yet in the banks (R282). -/
def fenceHeld (s : State) (f : Focus) : Bool :=
  pbarPending s f || (s.core f.stand.die f.stand.core).insq.any fun e =>
    decide (e.sid = f.stand.sid) && decide (e.cord = f.cord.id) && decide (e.mask &&& f.path.mask ≠ 0) &&
      match e.op with
      | .insert _ _ _ | .declare _ | .merge _ _ _ _ | .clear _ _ _ _ => true
      | _ => false

/-- The stand after an operand fence of its path (R277, R282). -/
def Focus.fenced (f : Focus) (s : State) : Stand :=
  f.stand.fenced f.cord.id f.path.mask (s.core f.stand.die f.stand.core).taskSeq
    (s.reachedBy f.stand.sid f.cord.id f.path.mask)

/-- MFENCE (R282). -/
def execMfence (s : State) : Host.Outcome State Fault Refusal :=
  issue .mfence s fun f =>
    if fenceHeld s f then .held else .done (s.keep { f with stand := f.fenced s }.advance)

/-- MARRIVE (R286); its count is a release of the path's writes (R277). -/
def execMarrive (o : XOps) (s : State) : Host.Outcome State Fault Refusal :=
  issue (.marrive o) s fun f =>
    let off := f.off32 o.s
    if fenceHeld s f then .held
    else
      match (recTrap f.stand 8 8 off).or (f.damage s [(off, 8)]) with
      | some t => .trap s t
      | none =>
        let f := s.releaseFocus f
        .done (s.keep { f with stand := { f.fenced s with
          sp := f.stand.sp.store off 8 ((f.stand.sp.load off 8 + (f.low o.d).toNat) % 2 ^ 64) } }.advance)

/-- Bytes of an output row (R283). -/
def drainRowBytes : DrainFmt → Nat
  | .f32 => 512
  | .f16 | .bf16 => 256
  | .e4m3 | .e5m2 => 128
  | .e2m1 => 64

/-- MDRAIN (R283). -/
def execMdrain (o : XOps) (fm : DrainFmt) (r : Rnd) (sat : Bool) (s : State) : Host.Outcome State Fault Refusal :=
  issue (.mdrain o fm r sat) s fun f =>
    let a := (f.cord.sreg o.s).toNat
    let b := (f.cord.sreg (o.s + 1)).toNat
    let amax := (f.cord.sreg (o.s + 2)).toNat
    let dst := nbits a 63 32
    let src := nbits a 31 0
    let sdst := nbits b 63 32
    let rows := nbits b 9 0
    let mx := decide (fm = .e2m1)
    if dst % 64 ≠ 0 ∨ src % 512 ≠ 0 ∨ (mx ∧ sdst % 4 ≠ 0) ∨ amax % 4 ≠ 0 then
      .trap s (misalign ((if mx then [(sdst, 4)] else []) ++ [(dst, 64), (src, 512), (amax, 4)]))
    else if rows = 0 ∨ 512 < rows then .trap s { code := .matrixParam }
    else
      match (spTrap f.stand (rows * drainRowBytes fm) [(0, dst)]).or
          (if mx then spTrap f.stand (4 * rows) [(0, sdst)] else none) with
      | some t => .trap s t
      | none =>
        if f.stand.asGran * 16384 < src + 512 * rows then .trap s { code := .accRange }
        else if 2 ^ 57 ≤ amax then .trap s { code := .addressRange, val := some (BitVec.ofNat 64 amax) }
        else if nbits b 31 17 ≠ 0 ∨ nbits b 15 10 ≠ 0 ∨ (!mx ∧ sdst ≠ 0) then .trap s { code := .matrixParam }
        else
          let f := if r = .rs then { f with cord := { f.cord with lfsr := lfsrStep f.cord.lfsr } } else f
          .done (s.begin f o.d f.path.mask fun t =>
            .drain t ⟨dst, src, sdst, nbits b 16 16 = 1, rows, amax, fm, r, sat, f.cord.lfsr⟩)

/-- Exact value of an accumulator word (R283). -/
def drainNum (p : Drain) (w : Nat) : Num :=
  if p.srcI then let x := (BitVec.ofNat 32 w).toInt; .num (decide (x < 0)) x.natAbs 0 else FloatFmt.f32.value w

/-- One element of a format without a block scale. -/
def drainElem (p : Drain) (r n w : Nat) : Nat × Flags :=
  let h := rsDraw (p.lfsr + BitVec.ofNat 32 r) (n % 32) (n / 32)
  let conv (f : FloatFmt) := toFloat f p.rnd p.sat h (drainNum p w)
  match p.fmt with
  | .f32 => if p.srcI then conv .f32 else (w, 0)
  | .f16 => conv .f16
  | .bf16 => conv .bf16
  | .e4m3 => conv .e4m3
  | .e5m2 => conv .e5m2
  | .e2m1 => conv .e2m1

/-- Scale and elements of a block of 32 values (R118). -/
def mxBlock (l : List Num) : Nat × List Nat × Flags :=
  if l.any fun x => x.isNan || x.isInf then (255, List.replicate l.length 0, flagNV)
  else
    let tops := l.filterMap fun x => match x with
      | .num _ 0 _ => none
      | .num _ n e => some ((Nat.log2 n : Int) + e)
      | _ => none
    let x : Int := match tops with
      | [] => 0
      | t :: r => min (max (r.foldl max t - 2 + 127) 0) 254
    let es := l.map fun v => (v.scale (127 - x)).toFmt .e2m1
    (x.toNat, es.map Prod.fst, orFlags (es.map Prod.snd))

/-- Bytes of an output row, its scales, and its flags (R283). -/
def drainRow (p : Drain) (r : Nat) (ws : List Nat) : List Byte × List Byte × Flags :=
  if p.fmt = .e2m1 then
    let bs := (List.range 4).map fun j => mxBlock (((ws.drop (32 * j)).take 32).map (drainNum p))
    let es := bs.flatMap fun b => b.2.1
    ((List.range 64).map fun k => BitVec.ofNat 8 (es.getD (2 * k) 0 + 16 * es.getD (2 * k + 1) 0),
      bs.map fun b => BitVec.ofNat 8 b.1, orFlags (bs.map fun b => b.2.2))
  else
    let es := ((List.range ws.length).zip ws).map fun x => drainElem p r x.1 x.2
    (es.flatMap fun e => leBytes (drainRowBytes p.fmt / 128) e.1, [], orFlags (es.map Prod.snd))

/-- A drain of the same core stands before a piece of work (R283). -/
def State.drainBefore (s : State) (id d c : Nat) : Bool :=
  (s.works.takeWhile fun i => i.id ≠ id).any fun i =>
    match i.work with
    | .drain t _ | .fold _ _ _ (.status t _) =>
      match s.engineAgent t false with
      | some a => decide (a.die = d) && decide (a.index = c)
      | none => false
    | _ => false

/-- MDRAIN_DONE: the oldest drain of a core writes its rows and scales, its flags, folds amax, and reports (R283). -/
def execMdrainDone (id : Nat) (s : State) : Host.Outcome State Fault Refusal :=
  let s := s.unfocus
  match s.active? id with
  | some (.drain t p) =>
    match s.stand? t.sid with
    | none => .next (s.dropWork id)
    | some st =>
      if s.drainBefore id st.die st.core then .next s
      else if s.struck st.die (.accumulator st.sid p.src) (512 * p.rows) then
        .next (State.copyFault t 0 (s.dropWork id) { code := .memError })
      else
        let racyA := s.racyAcc st
        let racyS := s.racySp st
        let word (r n : Nat) : Nat := st.acc.loadFree racyA s.fresh (p.src + 512 * r + 4 * n) 4
        let rows := (List.range p.rows).map fun r => (r, (List.range 128).map (word r))
        let outs := rows.map fun x => (x.1, drainRow p x.1 x.2)
        let rb := drainRowBytes p.fmt
        let sp := outs.foldl (fun (m : Memory) x =>
          (m.putFree racyS (s.fresh + 1) (p.dst + rb * x.1) x.2.1).putFree racyS (s.fresh + 1) (p.sdst + 4 * x.1) x.2.2.1)
          st.sp
        let flags := mstatFlags (orFlags (outs.map fun x => x.2.2.2))
        let n := p.rows * rb + if p.fmt = .e2m1 then 4 * p.rows else 0
        let s := (((s.drawIf racyA).drawIf racyS).mendSp st p.dst (p.rows * rb)).mendSp st p.sdst (n - p.rows * rb)
        let s := s.modStand t.sid fun x =>
          ({ x with sp := sp, mstat := x.mstat ||| flags }.wrote t.cord t.mask p.dst (p.rows * rb)).wrote t.cord t.mask
            p.sdst (n - p.rows * rb)
        if p.amax = 0 then .next ((s.dropWork id).writeDest t (statusLow codeDone false false 0 0) (BitVec.ofNat 32 n))
        else
          let amax := (rows.flatMap fun x => x.2.map (absF32 p.srcI)).foldl max 0
          .next ((s.setWork id (.fold (s.originOf t) p.amax (BitVec.ofNat 32 amax) (.status t n))).performL2 id)
  | _ => .next s

/-- WPIN (R284): a take that finds claims on its slot waits for them, and then meets its checks; claims accepted after it
wait for its pin. -/
def execWpin (o : XOps) (s : State) : Host.Outcome State Fault Refusal :=
  issue (.wpin o) s fun f =>
    let a := (f.cord.sreg o.s).toNat
    let w := nbits a 6 0
    let d := f.stand.die
    let c := f.stand.core
    let pins := ((s.core d c).canopy.getD w {}).pins
    if nbits a 7 7 ≠ 0 ∨ nbits a 63 9 ≠ 0 then .trap s { code := .matrixParam }
    else if nbits a 8 8 = 1 then
      if f.stand.pins.contains w then
        .done ((s.unpin d c w).result { f with stand := { f.stand with pins := f.stand.pins.erase w } } o.d
          (BitVec.ofNat 32 (pins - 1)))
      else .trap s { code := .matrixParam }
    else if (s.settled f).claims d c w ≠ [] then
      let t : Dest := ⟨f.stand.sid, f.cord.id, f.slotB, f.path.restart, f.path.mask, o.d.toNat⟩
      .done ((s.addWork (.pin t d c w)).keep { f with cord := f.cord.markV [o.d.toNat] }.advance)
    else if 65535 ≤ pins then .trap s { code := .matrixParam }
    else if s.owned f w then .trap s { code := .protection }
    else
      .done ((s.pinSlot d c w).result { f with stand := { f.stand with pins := f.stand.pins ++ [w] } } o.d
        (BitVec.ofNat 32 (pins + 1)))

/-- MQCFG (R287). -/
def execMqcfg (r : SCode) (s : State) : Host.Outcome State Fault Refusal :=
  issue (.mqcfg r) s fun f =>
    let b := f.cord.sreg r
    let x := (f.cord.sreg (r + 1)).toNat
    let age := nbits x 51 32
    let q1 := nbits x 16 16 = 1
    let cap := nbits x 12 0
    if b.toNat % 4096 ≠ 0 ∨ 2 ^ 57 ≤ b.toNat ∨ nbits x 63 52 ≠ 0 ∨ nbits x 31 17 ≠ 0 ∨ nbits x 15 13 ≠ 0 ∨ 4096 < cap ∨
        (b = 0 ∧ cap ≠ 0) ∨ (if q1 then age < 64 else age ≠ 0) ∨
        0 < (s.core f.stand.die f.stand.core).backedOf f.stand.sid q1 then
      .trap s { code := .matrixParam }
    else
      let st := if q1 then { f.stand with q1b := b, q1cap := BitVec.ofNat 32 cap, q1age := BitVec.ofNat 32 age }
        else { f.stand with q0b := b, q0cap := BitVec.ofNat 32 cap }
      .done (s.keep { f with stand := st }.advance)

/-- Notes a program's write of accumulators in the tasks of its stand (R277). -/
def State.spoil (s : State) (st : Stand) (a n : Nat) : State :=
  let g (t : Task) : Task :=
    let x := t.cover
    if t.sid = st.sid ∧ meetRanges x (a, n) = true then
      let lo := max x.1 a
      { t with spoiled := t.spoiled ++ [(lo, min (x.1 + x.2) (a + n) - lo)] }
    else t
  s.modCore st.die st.core fun k =>
    { k with
        q0 := k.q0.map g, q1 := k.q1.map g, backed := k.backed.map fun b => { b with task := g b.task },
        running := k.running.map fun r => { r with task := g r.task },
        picked := k.picked.map fun r => { r with task := g r.task } }

/-- MZERO (R288). -/
def execMzero (r : SCode) (s : State) : Host.Outcome State Fault Refusal :=
  issue (.mzero r) s fun f =>
    let a := (f.cord.sreg r).toNat
    let off := nbits a 31 0
    let n := nbits a 63 32
    if off % 64 ≠ 0 ∨ n % 64 ≠ 0 then .trap s (misalign [(off, 64), (n, 64)])
    else if n = 0 then .trap s { code := .matrixParam }
    else if f.stand.asGran * 16384 < off + n then .trap s { code := .accRange }
    else if f.stand.declaredIn off n then .trap s { code := .listParam }
    else
      let racy := (s.racyAcc f.stand).filter fun x => meetRanges x (off, n)
      let acc := if racy = [] then f.stand.acc.zero off n else f.stand.acc.putFree racy s.fresh off (List.replicate n 0)
      let s := if racy = [] then s else s.draw.spoil f.stand off n
      .done ((s.mendAcc f.stand off n).keep { f with stand := { f.stand with acc := acc } }.advance)

/-- A read of MSTAT that shows no task left acquires at stand scope (R277). -/
def State.mstatSeen (s : State) (f : Focus) : State :=
  let k := s.core f.stand.die f.stand.core
  if k.queued f.stand.sid true = 0 ∧ k.queued f.stand.sid false = 0 ∧ k.runs f.stand.sid = false then
    s.acquireAt .stand f.stand.sid f.cord.id f.path.mask
  else s

/-- MSTAT (R289). -/
def execMstatRead (r : SCode) (s : State) : Host.Outcome State Fault Refusal :=
  issue (.mstatRead r) s fun f =>
    .done ((s.mstatSeen f).keep { f with
      cord := f.cord.writeS r ((s.core f.stand.die f.stand.core).mstatWord f.stand) }.advance)

/-- MSTAT.clr (R289). -/
def execMstatClr (r : SCode) (s : State) : Host.Outcome State Fault Refusal :=
  issue (.mstatClr r) s fun f =>
    .done ((s.mstatSeen f).keep { f with
      stand := { f.stand with mstat := 0 },
      cord := f.cord.writeS r ((s.core f.stand.die f.stand.core).mstatWord f.stand) }.advance)

end Sys2Proof.Machine
end

