-- ==== Sys2Proof/Machine/Flumes.lean ====
section
/-! DEFINITION. Flumes: handles, routes, credit and allowance, reservations, puts, dequeues, and the commands of a flume
port (11_flumes.md R314 to R354). -/

namespace Sys2Proof.Machine

/-! ### Routes (R318, R328, R405, R409) -/

/-- How a binding's route stands. -/
inductive Route
  | up
  /-- The contrail is changing. -/
  | held
  /-- The home port or package cannot be reached, with the reason of R339. -/
  | down (reason : BitVec 8)
  /-- The home port is in another package, reached through a fabric port, whose link may be held. -/
  | away (port : Nat) (held : Bool)
  deriving DecidableEq, Repr

/-- Contrail entry of a pair of dies (R405). -/
def contrailIndex (a b : Nat) : Nat := let x := min a b; let y := max a b; x * (15 - x) / 2 + (y - x - 1)

/-- A packet between two dies that has not entered a path of theirs before the change of their contrail (R406), by the
handle of its work. -/
def State.crossing (s : State) (a b id : Nat) : Bool :=
  let c := s.contrails.getD (contrailIndex a b) {}
  decide (a ≠ b) && decide (c.state ≠ 0) && decide (c.since ≤ id)

/-- First-hop port of a route-table entry for an entry of the binding table (R409): port j of it, or the next of its ports
that is up. -/
def State.firstHop (s : State) (route : DWord) (entry : Nat) : Option Nat :=
  let r := route.toNat
  let n := nbits r 25 24 + 1
  if nbits r 63 63 = 0 then none
  else ((List.range n).map fun k => nbits r (6 * ((entry + k) % n) + 5) (6 * ((entry + k) % n))).find? fun p =>
    decide ((s.links.getD p {}).width ≠ 0)

/-- The route of a piece of work from a die to a home port, under a route-table entry. -/
def State.route (s : State) (d : Nat) (r : DWord) (entry : Nat) (q : Word) (id : Nat) : Route :=
  if qidPkg q ≠ s.pkgid.toNat then
    match s.firstHop r entry with
    | none => .down 0x04
    | some p => .away p (s.links.getD p {}).held
  else
    let h := s.die (qidDie q)
    if h.harvested || !h.inService || h.uncRst then .down 0x03
    else if s.crossing d (qidDie q) id then .held
    else .up

/-- The route-table entry of a QID's package as it stands. -/
def State.tableRoute (s : State) (q : Word) : DWord := s.routes.getD (qidPkg q) 0

/-- Table entry of a binding. -/
def Die.entryOf (x : Die) (bid : Nat) : Nat := ((x.bindings.find? fun b => b.2.bid = bid).map Prod.fst).getD 0

/-- The link whose queue holds a packet of a binding, behind which its later ones stay (R318). -/
def State.queuedOn (s : State) (bid : Nat) : Option Nat :=
  s.links.findIdx? fun l => l.queue.any fun p => p.bid = some bid

/-- A packet of a binding is in flight (R409): on its way within the package, or in the queue of a link. What becomes of it
beyond the link is not the package's (DESIGN CHOICE, log 84). -/
def State.packetsOf (s : State) (bid : Nat) : Bool :=
  let here (q : Word) (b : Nat) : Bool := decide (qidPkg q = s.pkgid.toNat) && decide (b = bid)
  (s.queuedOn bid).isSome || s.works.any fun i => match i.work with
    | .creditReq r => here r.qid r.bid
    | .reserve _ _ b q _ _ _ _ | .put _ _ b q _ => here q b
    | _ => false

/-- Route-table entry in force for a binding: a new one takes effect with no packet of it in flight (R409). -/
def State.routeEntry (s : State) (d bid : Nat) (q : Word) : DWord :=
  match (s.die d).bound bid with
  | some b => if s.packetsOf bid then b.route else s.tableRoute q
  | none => s.tableRoute q

/-- Route of an operation of a binding. -/
def State.routeOf (s : State) (d bid : Nat) (q : Word) (id : Nat) : Route :=
  match s.queuedOn bid with
  | some p => .away p (s.links.getD p {}).held
  | none => s.route d (s.routeEntry d bid q) ((s.die d).entryOf bid) q id

/-- Adds a work that travels to a home port; to another package it is a packet that joins a link's queue, which a hold of
the link keeps in order (R408, R411). -/
def State.emitOn (s : State) (p : Packet) (r : Route) (w : Work) : State :=
  let s := s.addWork w
  match r with
  | .away k _ => { s with links := s.links.modify k fun l => { l with queue := l.queue ++ [p] } }
  | _ => s

/-- The same of an operation of a binding, whose route-table entry is settled here (R409). -/
def State.emit (s : State) (d bid : Nat) (q : Word) (flits : Nat) (w : Work) : State :=
  (s.modBinding d bid fun b => { b with route := s.routeEntry d bid q }).emitOn ⟨flits, d, q, some bid⟩
    (s.routeOf d bid q s.uid) w

/-! ### Handles (R315, R316) -/

/-- The queue translation entry of a handle. -/
def State.tableEntry (s : State) (d : Nat) (h : BitVec 12) : DWord :=
  (s.port d (h.toNat / 256)).qtt.getD (h.toNat % 256) 0

/-- Translation of a handle for the focused stand: a cached entry that differs from the table may be used or not. -/
def State.handle (s : State) (f : Focus) (h : BitVec 12) : State × DWord :=
  let d := f.stand.die
  let c := f.stand.core
  let cur := s.tableEntry d h
  let valid (e : DWord) : Bool := e.getLsbD 63 && decide (nbits e.toNat 47 32 = f.stand.fpid.toNat)
  match (s.core d c).handles.find? fun x => x.handle = h ∧ x.fpid = f.stand.fpid with
  | some x =>
    if x.entry = cur then (s, cur)
    else if Config.freePick s.fresh % 2 = 0 then (s.draw, x.entry) else (s.draw, cur)
  | none =>
    (if valid cur then s.modCore d c fun k => { k with handles := (⟨h, f.stand.fpid, cur⟩ :: k.handles).take 64 } else s,
      cur)

/-- REMOTE_ERROR with its reason, flume and handle (R339). -/
def remoteTrap (reason : BitVec 8) (q : Word) (h : BitVec 12) : Trap :=
  { code := .remoteError, val := some (BitVec.ofNat 64 (reason.toNat * 2 ^ 32 + q.toNat)), reason := reason,
    info := BitVec.ofNat 64 (h.toNat * 2 ^ 32 + q.toNat) }

/-- Looks a handle up for an operation that needs a right: its QID, or REMOTE_ERROR 0x01 or 0x02. The flume of an
invalid handle is a free value (log 9). -/
def State.lookupHandle (s : State) (f : Focus) (h : BitVec 12) (right : DWord → Bool) : State × Except Trap Word :=
  let r := s.handle f h
  let e := r.2
  let q : Word := e.truncate 32
  if !(e.getLsbD 63 && decide (nbits e.toNat 47 32 = f.stand.fpid.toNat)) then
    (r.1.draw, .error (remoteTrap 0x01 ((Config.freeTrapVal r.1.fresh).truncate 32) h))
  else if !right e then (r.1, .error (remoteTrap 0x02 q h))
  else (r.1, .ok q)

/-! ### Credit (R326 to R329) -/

/-- The QBIND of a binding, as the instruction an error belongs to (R339). -/
def Binding.binder (b : Binding) : Dest := ⟨b.sid, b.cord, b.slotB, b.pc, 0, 0⟩

/-- VIS of a binding (R328). -/
def Binding.vis (b : Binding) : Nat := min b.credit b.cap

/-- Route cap of an unloaded route (R328). -/
def Route.cap : Route → Nat
  | .up | .away _ false => 64
  | _ => 0

/-- A cap that the state of a route allows (R328). -/
def Route.allows (r : Route) (cap : Nat) : Bool :=
  match r with
  | .up | .away _ false => [64, 32, 8, 2].contains cap
  | _ => cap == 0

/-- Sends a credit request where the binding has none outstanding and credit below CHUNK; the first asks for CHUNK,
written 0 here (R327). -/
def State.askCredit (s : State) (d bid : Nat) : State :=
  match (s.die d).bound bid with
  | some b =>
    if b.asking || b.retryAt.isSome || !(b.chunk == 0 || decide (b.credit < b.chunk)) then s
    else (s.modBinding d bid fun b => { b with asking := true }).emit d bid b.qid 1
      (.creditReq ⟨d, bid, b.qid, b.chunk - b.credit⟩)
  | none => s

/-- Sends a reservation of n slots, which carries whose it is: the credit falls, and the next request goes out (R317,
R329). -/
def State.sendReserve (s : State) (t : Dest) (d : Nat) (b : Binding) (n : Nat) (put : Option Put) (o : Owner) : State :=
  ((s.modBinding d b.bid fun b => { b with credit := b.credit - n }).emit d b.bid b.qid 1
    (.reserve t d b.bid b.qid b.handle n put o)).askCredit d b.bid

/-- A parked reservation goes: its path moves on with its pair marked (R329). -/
def State.freeReserve (s : State) (id : Nat) (t : Dest) (d : Nat) (b : Binding) (n : Nat) (put : Option Put) : State :=
  ((s.dropWork id).wakePath t.sid t.cord t.slotB fun _ c => c.markV [t.d, t.d + 1]).sendReserve t d b n put
    (((s.stand? t.sid).map Stand.owner).getD ⟨b.ctx, b.fpid, false⟩)

/-- Looks at the parked reservations of a binding again, the oldest first; one of more slots than CHUNK is FLUME_PARAM
(R329, R346). -/
def State.releaseReserves (s : State) (d bid : Nat) : State :=
  s.works.foldl (fun s (i : Item) =>
    match i.work, (s.die d).bound bid with
    | .reserveWait t b' n _ put, some b =>
      if b' ≠ bid || (s.work? i.id).isNone then s
      else if b.chunk ≠ 0 && decide (b.chunk < n) then (s.dropWork i.id).trapInFlight t { code := .flumeParam }
      else if n ≤ b.vis then s.freeReserve i.id t d b n put
      else s
    | _, _ => s) s

/-- No operation of a binding is under way before a piece of work (R318). -/
def State.flumeFirst (s : State) (id bid : Nat) : Bool :=
  (s.works.takeWhile fun i => i.id ≠ id).all fun i =>
    match i.work with
    | .creditReq r => decide (r.bid ≠ bid)
    | .reserve _ _ b _ _ _ _ _ | .put _ _ b _ _ => decide (b ≠ bid)
    | _ => true

/-- A piece of work ends in a remote error, which travels back (R339). -/
def State.failFlume (s : State) (id d ctx : Nat) (t : Option Dest) (pc : Pc) (reason : BitVec 8) (q : Word)
    (h : BitVec 12) : State :=
  (s.dropWork id).addWork (.remoteError d ctx t pc reason q h)

/-- A piece of work ends in a status pair, which travels back from a die (R346, R347). -/
def State.sendReply (s : State) (id : Nat) (t : Dest) (home : Nat) (lo hi : Word) : State :=
  (s.dropWork id).addWork (.reply t home lo hi)

/-- What the home port finds wrong with an operation: the world at a secure port, which enters the log with a free physical
address (log 9), no flume, or another owner (R317, R339). -/
def State.portCheck (s : State) (q : Word) (a : Agent) : State × Option (BitVec 8) :=
  if (s.port (qidDie q) (qidPort q)).secure && !a.sec then
    (s.draw.violation { a with die := qidDie q, source := 2, index := qidPort q } (Config.freeTrapVal s.fresh).toNat 4
        ((remoteTrap 0x06 q 0).val.getD 0),
      some 0x06)
  else
    match s.flume? q with
    | none => (s, some 0x07)
    | some fl => if fl.fpid ≠ a.fpid then (s, some 0x06) else (s, none)

/-- Who an instruction's operation comes from: its stand, resident or saved (R317). -/
def State.ownerOf (s : State) (t : Dest) : Option Agent := s.engineAgent t false

/-- CREDIT_REQUEST_ARRIVE: a request joins the credit queue, or is refused and sent again after 256 cycles (R327). -/
def execCreditRequestArrive (id : Nat) (s : State) : Host.Outcome State Fault Refusal :=
  let s := s.unfocus
  match s.active? id with
  | some (.creditReq r) =>
    match (s.die r.die).bound r.bid with
    | none => .next (s.dropWork id)
    | some b =>
      if !s.flumeFirst id r.bid then .next s
      else
        match s.routeOf r.die r.bid r.qid id with
        | .held | .away _ _ => .next s
        | .down e => .next (s.failFlume id r.die b.ctx (some b.binder) b.pc e r.qid b.handle)
        | .up =>
          match s.portCheck r.qid ((s.ownerOf b.binder).getD ⟨r.die, b.ctx, false, b.fpid, 2, 0, {}⟩) with
          | (s, some e) => .next (s.failFlume id r.die b.ctx (some b.binder) b.pc e r.qid b.handle)
          | (s, none) =>
            let s := s.dropWork id
            if 1024 ≤ (s.port (qidDie r.qid) (qidPort r.qid)).credits.length then
              .next (s.modBinding r.die r.bid fun b => { b with asking := false, retryAt := some (s.clock + 256) })
            else
              let asked := if r.asked = 0 then ((s.flume? r.qid).map Flume.chunk).getD 0 else r.asked
              .next (s.modPort (qidDie r.qid) (qidPort r.qid) fun p =>
                { p with credits := p.credits ++ [{ r with asked := asked }] })
  | _ => .next s

/-- A request of the credit queue may be served: its flume has a free slot, or is gone (R327; log 32). -/
def State.servable (s : State) (r : CreditReq) : Bool := (s.flume? r.qid).all fun f => decide (0 < f.free)

/-- CREDIT_GRANT: the port serves the first request of its credit queue whose flume has a free slot (R327). -/
def execCreditGrant (die port : Nat) (s : State) : Host.Outcome State Fault Refusal :=
  let s := s.unfocus
  match (s.port die port).credits.find? s.servable with
  | none => .next s
  | some r =>
    let s' := s.modPort die port fun p => { p with credits := p.credits.erase r }
    match s.flume? r.qid with
    | none => .next s'
    | some fl =>
      let g := min r.asked fl.free
      let s := s'.modFlume r.qid fun x => { x with promised := x.promised + g }
      .next (s.addWork (.creditGrant r.die r.bid r.qid g fl.chunk))

/-- CREDIT_GRANT_ARRIVE: a grant reaches its binding; where that has ended, the credit returns (R327, R330). -/
def execCreditGrantArrive (id : Nat) (s : State) : Host.Outcome State Fault Refusal :=
  let s := s.unfocus
  match s.active? id with
  | some (.creditGrant d bid q g chunk) =>
    if s.crossing d (qidDie q) id then .next s
    else
      let s := s.dropWork id
      match (s.die d).bound bid with
      | some _ =>
        let s := s.modBinding d bid fun b => { b with credit := b.credit + g, chunk := chunk, asking := false }
        .next ((s.releaseReserves d bid).askCredit d bid)
      | none => .next (s.modFlume q fun x => { x with promised := x.promised - g })
  | _ => .next s

/-- CREDIT_RETRY: a refused request is sent again after 256 cycles (R327). -/
def execCreditRetry (die entry : Nat) (s : State) : Host.Outcome State Fault Refusal :=
  let s := s.unfocus
  match (s.die die).binding entry with
  | some b =>
    if b.retryAt.any fun t => decide (t ≤ s.clock) then
      .next ((s.modBinding die b.bid fun b => { b with retryAt := none }).askCredit die b.bid)
    else .next s
  | none => .next s

/-- ROUTE_CAP_CHANGE: the flume interface takes up a cap that the route's state allows (R328). -/
def execRouteCapChange (die entry cap : Nat) (s : State) : Host.Outcome State Fault Refusal :=
  let s := s.unfocus
  match (s.die die).binding entry with
  | some b =>
    if (s.routeOf die b.bid b.qid s.uid).allows cap then
      .next ((s.modBinding die b.bid fun b => { b with cap := cap }).releaseReserves die b.bid)
    else .next s
  | none => .next s

/-- RESERVATION_TIMEOUT: after 4,096 cycles a parked reservation goes on its credit, whatever CAP above 0 holds (R329). The
cycles count from the parking, and CREDIT and CAP are tested at their end (DESIGN CHOICE, log 84). -/
def execReservationTimeout (sid cord slot : Nat) (s : State) : Host.Outcome State Fault Refusal :=
  let s := s.unfocus
  match s.stand? sid, (s.path? sid cord (slot = 1)).bind Path.wait with
  | some st, some (.reserve id _) =>
    match s.work? id with
    | some { work := .reserveWait t bid n since put, .. } =>
      match (s.die st.die).bound bid with
      | some b =>
        if since + 4096 ≤ s.clock ∧ n ≤ b.credit ∧ 0 < b.cap then .next (s.freeReserve id t st.die b n put) else .next s
      | none => .next s
    | _ => .next s
  | _, _ => .next s

/-! ### At the home port -/

/-- Grants n slots: their first number, and the flume (R323). -/
def Flume.grant (f : Flume) (n : Nat) (x : SlotState) : Nat × Flume :=
  let first := (f.head + f.used) % 2 ^ 32
  (first, { (List.range n).foldl (fun (f : Flume) _ =>
    { f with slots := f.slots ++ [(!(f.spilled == 0 && decide (f.used < f.wslots)), x)] }) f with
    promised := f.promised - n })

/-- RESERVATION_ARRIVE: the port compares the owner that it carries; slots are granted, and a QENQ's put goes on with its
number. The slots of a binding that has ended are void (R317, R323, R330). -/
def execReservationArrive (id : Nat) (s : State) : Host.Outcome State Fault Refusal :=
  let s := s.unfocus
  match s.active? id with
  | some (.reserve t d bid q h n put w) =>
    let b := (s.die d).bound bid
    if !s.flumeFirst id bid then .next s
    else
      match s.routeOf d bid q id, s.ownerOf t with
      | .held, _ | .away _ _, _ => .next s
      | .down e, some o => .next (s.failFlume id d o.ctx (some t) t.pc e q h)
      | .down _, none => .next (s.dropWork id)
      | .up, none =>
        match s.portCheck q ⟨d, w.ctx, w.sec, w.fpid, 2, 0, {}⟩ with
        | (s, some _) => .next (s.dropWork id)
        | (s, none) => .next ((s.dropWork id).modFlume q fun f => (f.grant n .void).2.settle)
      | .up, some o =>
        match s.portCheck q o with
        | (s, some e) => .next (s.failFlume id d o.ctx (some t) t.pc e q h)
        | (s, none) =>
          match s.flume? q with
          | none => .next s
          | some fl =>
            let r := fl.grant n (if b.isNone && put.isNone then .void else .reserved bid)
            let s := s.modFlume q fun _ => r.2.settle
            match put with
            | some p => .next (s.setWork id (.put t d bid q { p with seq := some r.1 }))
            | none => .next (s.sendReply id t (qidDie q) (BitVec.ofNat 32 r.1) (BitVec.ofNat 32 n))
  | _ => .next s

/-- The owner of a flume on its home die, as the port's spill traffic translates (R320, R339). -/
def State.spillAgent (s : State) (d : Nat) (fl : Flume) : Option Agent :=
  (((s.die d).ctxs.zip (List.range 256)).find? fun x => x.1.v && decide (x.1.fpid = fl.fpid)).map fun x =>
    ⟨d, x.2, x.1.sec, fl.fpid, 2, qidPort fl.qid, {}⟩

/-- The bytes of a spill slot, translated as a write and, for a refill, as a read too: a page that is not writable fails
either (R323, R339). -/
def State.spillRuns (s : State) (d : Nat) (fl : Flume) (q : Nat) (refill : Bool) : State × Option (List (Nat × Nat)) :=
  match s.spillAgent d fl with
  | none => (s, none)
  | some a =>
    match s.reach a (if refill then .atomic else .write) (fl.spill + q % fl.sslots * fl.elemBytes) fl.elemBytes with
    | (s, .ok runs) => (s, some (runs.map fun r => (hAddr a.die r.2.2.1, r.2.1)))
    | (s, .error _) => (s, none)

/-- An element of a flume's window, as a struck byte names it. -/
def elementAt (q : Word) (seq : Nat) : Struck := .element (qidPort q) q seq 0

/-- Damage of a spill slot goes with its bytes into the window (R324, R374). -/
def State.carryElement (s : State) (d : Nat) (q : Word) (seq : Nat) (runs : List (Nat × Nat)) : State :=
  if s.dies.all fun y => y.damaged.isEmpty then s
  else
    let at_ := runs.flatMap fun r => (List.range r.2).map fun k => r.1 + k
    let bad := (at_.zip (List.range at_.length)).filter fun x => s.hbmBad x.1 1
    (s.mendAt d (elementAt q seq) at_.length).modDie d fun k =>
      { k with damaged := k.damaged ++ bad.map fun x => .element (qidPort q) q seq x.2 }

/-- Sets the state of an outstanding number. -/
def Flume.setSlot (f : Flume) (k : Nat) (x : Bool × SlotState) : Flume := { f with slots := f.slots.set k x }

/-- ELEMENT_STORE: a put fills its slot, in the window or in spill; a spill page that fails leaves the slot void (R336,
R339, R347). The source bytes are read in this one step (DESIGN CHOICE, log 12). -/
def execElementStore (id : Nat) (s : State) : Host.Outcome State Fault Refusal :=
  let s := s.unfocus
  match s.active? id with
  | some (.put t d bid q { seq := some n, off := off, ts := ts, handle := h }) =>
    if !s.flumeFirst id bid || s.unreleased id t.sid t.cord t.mask then .next s
    else
      match s.routeOf d bid q id, s.ownerOf t with
      | .held, _ | .away _ _, _ => .next s
      | _, none => .next ((s.dropWork id).modFlume q fun f => ((s.dropWork id).voidSlots bid f).settle)
      | .down e, some o => .next (s.failFlume id d o.ctx (some t) t.pc e q h)
      | .up, some o =>
        match s.portCheck q o with
        | (s, some e) => .next (s.failFlume id d o.ctx (some t) t.pc e q h)
        | (s, none) =>
          match s.flume? q with
          | none => .next s
          | some fl =>
            if s.spStruck t.sid off fl.elemBytes then .next ((s.dropWork id).trapInFlight t { code := .memError })
            else
              let k := (n + 2 ^ 32 - fl.head) % 2 ^ 32
              let bs := (s.spOf t.sid).bytes off fl.elemBytes
              let full : SlotState := .filled bs ts d o.ctx h t.pc
              let stored (s : State) (x : Bool) : State :=
                ((s.releaseOf t).modFlume q fun f => f.setSlot k (x, full)).sendReply id t (qidDie q) 0 (BitVec.ofNat 32 n)
              match (fl.slots[k]? : Option (Bool × SlotState)) with
              | some (false, SlotState.reserved b) =>
                if b = bid then .next (stored (s.mendAt (qidDie q) (elementAt q n) bs.length) false)
                else .next (s.failFlume id d o.ctx (some t) t.pc 0x09 q h)
              | some (true, SlotState.reserved b) =>
                if b = bid then
                  match s.spillRuns (qidDie q) fl n false with
                  | (s, some rs) => .next (stored (s.scatter rs bs) true)
                  | (s, none) =>
                    .next ((s.modFlume q fun f => f.setSlot k (true, .void)).failFlume id d o.ctx (some t) t.pc 0x05 q h)
                else .next (s.failFlume id d o.ctx (some t) t.pc 0x09 q h)
              | _ => .next (s.failFlume id d o.ctx (some t) t.pc 0x09 q h)
  | _ => .next s

/-- Index of the lowest spilled number. -/
def Flume.firstSpilled (f : Flume) : Option Nat := f.slots.findIdx? fun x => x.1

/-- A refill of a flume can be made (R324). -/
def Flume.refillable (f : Flume) : Bool :=
  match f.firstSpilled with
  | some k =>
    decide (k < f.wslots) && match f.slots[k]? with
      | some (_, .reserved _) => false
      | some _ => true
      | none => false
  | none => false

/-- SPILL_REFILL_DONE: the lowest spilled number moves to its window slot; a page that fails makes it void, and is its
filler's error (R324, R339). -/
def execSpillRefillDone (die port : Nat) (qid : BitVec 32) (s : State) : Host.Outcome State Fault Refusal :=
  let s := s.unfocus
  match (s.port die port).flume? qid with
  | none => .next s
  | some fl =>
    if !fl.refillable then .next s
    else
      let k := fl.firstSpilled.getD 0
      let q := (fl.head + k) % 2 ^ 32
      match (fl.slots[k]? : Option (Bool × SlotState)) with
      | some (_, .filled _ ts d ctx h pc) =>
        match s.spillRuns die fl q true with
        | (s, some rs) =>
          .next ((s.carryElement die qid q rs).modFlume qid fun f =>
            f.setSlot k (false, .filled (gather s.hbm rs) ts d ctx h pc))
        | (s, none) =>
          let s := s.modFlume qid fun f => (f.setSlot k (false, .void)).settle
          .next (if ctx < 256 then s.addWork (.remoteError d ctx none pc 0x05 qid h) else s)
      | some (_, x) => .next (s.modFlume qid fun f => (f.setSlot k (false, x)).settle)
      | none => .next s

/-- The head element, where it is ready: its bytes and TS (R325). -/
def Flume.ready (f : Flume) : Option (List Byte × DWord) :=
  match f.slots.head? with
  | some (false, .filled bs ts _ _ _ _) => some (bs, ts)
  | _ => none

/-- The head leaves (R325). -/
def Flume.pop (f : Flume) : Flume := { f with slots := f.slots.tail, head := (f.head + 1) % 2 ^ 32 }.settle

/-- Delivers an element to a cord: bytes, TSFLOOR, then the pair (R338, R349). -/
def Cord.takeElement (c : Cord) (d : Nat) (m : Mask) (ts : DWord) (seq : Nat) : Cord :=
  { c with tsfloor := if c.tsfloor.toNat < ts.toNat then ts else c.tsfloor }.writePair d m 0 (BitVec.ofNat 32 seq)

/-- HEAD_DELIVER: the head goes to the oldest waiting dequeue (R334), which a damaged one ends (R374). -/
def execHeadDeliver (die port : Nat) (qid : BitVec 32) (s : State) : Host.Outcome State Fault Refusal :=
  let s := s.unfocus
  match (s.port die port).flume? qid with
  | none => .next s
  | some fl =>
    match fl.ready, fl.waits with
    | some (bs, ts), id :: rest =>
      match s.work? id with
      | some { work := .dequeueWait t _ _ off, .. } =>
        if s.struck die (elementAt qid fl.head) bs.length then .next (s.trapInFlight t { code := .memError })
        else
        let s := (s.dropWork id).modFlume qid fun f => { f.pop with waits := rest }
        let s := ((s.mendOf t.sid off bs.length).modStand t.sid fun x =>
          { x with sp := x.sp.putFree (s.racySp x) s.fresh off bs }.wrote t.cord t.mask off bs.length).draw
        .next (s.wakePath t.sid t.cord t.slotB fun m c => c.takeElement t.d m ts fl.head)
      | _ => .next (s.modFlume qid fun f => { f with waits := rest })
    | _, _ => .next s

/-- The state word of a flume that QSTAT reads (R352). -/
def Flume.statWord (f : Flume) : Nat := f.waits.length * 2 ^ 18 + f.ready.isSome.toNat * 2 ^ 17 + f.used

/-- FLUME_REPLY_ARRIVE: a ticket or a status arrives; a QSTAT reads its flume, and its pair goes back (R346, R347, R352). -/
def execFlumeReplyArrive (id : Nat) (s : State) : Host.Outcome State Fault Refusal :=
  let s := s.unfocus
  match s.active? id with
  | some (.reply t home lo hi) =>
    if s.crossing (s.originOf t).die home id then .next s else .next ((s.dropWork id).writeDest t lo hi)
  | some (.stat t q h) =>
    match s.engineAgent t false with
    | none => .next (s.dropWork id)
    | some a =>
      match s.route a.die (s.tableRoute q) 0 q id with
      | .held | .away _ _ => .next s
      | .down e => .next (s.failFlume id a.die a.ctx (some t) t.pc e q h)
      | .up =>
        match s.portCheck q a with
        | (s, some e) => .next (s.failFlume id a.die a.ctx (some t) t.pc e q h)
        | (s, none) =>
          match s.flume? q with
          | some fl => .next (s.sendReply id t (qidDie q) (BitVec.ofNat 32 fl.statWord) (BitVec.ofNat 32 fl.head))
          | none => .next s
  | _ => .next s

/-- REMOTE_ERROR_REPORT: the error is raised on the issuing die (R339). -/
def execRemoteErrorReport (id : Nat) (s : State) : Host.Outcome State Fault Refusal :=
  let s := s.unfocus
  match s.active? id with
  | some (.remoteError d ctx t pc reason q h) =>
    let r := remoteTrap reason q h
    let here := decide (qidPkg q = s.pkgid.toNat) && reason ≠ 0x03 && reason ≠ 0x04
    if here && s.crossing d (qidDie q) id then .next s
    else
      let s := s.dropWork id
      match t with
      | some t => .next (s.trapInFlight t r)
      | none =>
        .next (s.endContext d ctx r.code.num
        { kind := 1, code := r.code.num, reason := reason, ctx := BitVec.ofNat 8 ctx, fpid := ((s.die d).ctx ctx).fpid,
          pc := pc.zeroExtend 64, val := r.val.getD 0, info := r.info })
  | _ => .next s

/-! ### Instructions -/

/-- The cord's binding of a handle. -/
def State.bindingOf (s : State) (f : Focus) (h : BitVec 12) : Option Binding :=
  f.cord.allow.findSome? fun a => (a.bind (s.die f.stand.die).binding).filter fun b => b.handle = h

/-- The binding of an allowance register. -/
def State.allowance (s : State) (f : Focus) (a : Nat) : Option Binding :=
  (f.cord.allow.getD a none).bind (s.die f.stand.die).binding

/-- Lowest free entry of the binding table, from n on. -/
def freeEntry (used : List Nat) : Nat → Nat → Nat
  | 0, n => n
  | k + 1, n => if used.contains n then freeEntry used k (n + 1) else n

/-- QBIND (R345). -/
def execQbind (a : VCode) (r : SCode) (s : State) : Host.Outcome State Fault Refusal :=
  issue (.qbind a r) s fun f =>
    let x := (f.cord.sreg r).toNat
    let h : BitVec 12 := BitVec.ofNat 12 x
    let d := f.stand.die
    let old := f.cord.allow.getD a.toNat none
    if nbits x 62 12 ≠ 0 ∨ (nbits x 63 63 = 1 ∧ h ≠ 0) then .trap s { code := .flumeParam }
    else if nbits x 63 63 = 0 ∧ old = none ∧ 32768 ≤ (s.die d).bindings.length then .held
    else
      let s := match old with | some e => s.unbind d e | none => s
      let f := { f with cord := { f.cord with allow := f.cord.allow.set a.toNat none } }
      if nbits x 63 63 = 1 then .done (s.keep f.advance)
      else
        match s.lookupHandle f h fun e => e.getLsbD 48 with
        | (s, .error t) => .trap s t
        | (s, .ok q) =>
          if f.cord.allow.any fun y => (y.bind (s.die d).binding).any fun b => decide (b.qid = q) then
            .trap s { code := .flumeParam }
          else
            let e := freeEntry ((s.die d).bindings.map Prod.fst) (s.die d).bindings.length 0
            let b : Binding :=
              { bid := s.uid, sid := f.stand.sid, cord := f.cord.id, slotB := f.slotB, pc := f.path.restart,
                ctx := f.stand.ctx, fpid := f.stand.fpid, handle := h, qid := q, credit := 0,
                cap := (s.route d (s.tableRoute q) e q s.uid).cap, chunk := 0, route := s.tableRoute q, asking := false,
                retryAt := none }
            let s := { s with uid := s.uid + 1 }.modDie d fun y => { y with bindings := y.bindings ++ [(e, b)] }
            .done ((s.askCredit d b.bid).keep
              { f with cord := { f.cord with allow := f.cord.allow.set a.toNat (some e) } }.advance)

/-- Reserves n slots for the focused path, or parks it until the allowance covers them (R329). -/
def State.reserveOrPark (s : State) (f : Focus) (b : Binding) (d : VCode) (n : Nat) (put : Option Put) : State :=
  let t : Dest := ⟨f.stand.sid, f.cord.id, f.slotB, f.path.restart, f.path.mask, d.toNat⟩
  if n ≤ b.vis then
    (s.keep { f with cord := f.cord.markV [t.d, t.d + 1] }.advance).sendReserve t f.stand.die b n put f.stand.owner
  else (s.addWork (.reserveWait t b.bid n s.clock put)).park f (.reserve s.uid t.d)

/-- QRSV (R346). -/
def execQrsv (o : XOps) (s : State) : Host.Outcome State Fault Refusal :=
  issue (.qrsv o) s fun f =>
    let x := (f.cord.sreg o.s).toNat
    let n := nbits x 22 16
    if nbits x 63 23 ≠ 0 ∨ nbits x 15 12 ≠ 0 ∨ n = 0 ∨ 64 < n then .trap s { code := .flumeParam }
    else
      match s.bindingOf f (BitVec.ofNat 12 x) with
      | none => .trap s { code := .flumeParam }
      | some b =>
        if b.chunk ≠ 0 ∧ b.chunk < n then .trap s { code := .flumeParam }
        else .done (s.reserveOrPark f b o.d n none)

/-- Checks of the scalar pair of a put or a dequeue: its offset and handle (R344). -/
def flumeArgs (f : Focus) (r : SCode) : Except Trap (Nat × BitVec 12) :=
  let x := (f.cord.sreg r).toNat
  let y := (f.cord.sreg (r + 1)).toNat
  let off := nbits y 31 0
  if off % 16 ≠ 0 then .error (misalign [(off, 16)])
  else
    match spTrap f.stand 256 [(0, off)] with
    | some t => .error t
    | none => if nbits x 63 12 ≠ 0 ∨ nbits y 63 32 ≠ 0 then .error { code := .flumeParam } else .ok (off, BitVec.ofNat 12 x)

/-- QPUT (R347). -/
def execQput (o : XOps) (v : VCode) (s : State) : Host.Outcome State Fault Refusal :=
  issue (.qput o v) s fun f =>
    match flumeArgs f o.s with
    | .error t => .trap s t
    | .ok (off, h) =>
      match s.bindingOf f h with
      | none => .trap s { code := .flumeParam }
      | some b =>
        let n := if v = 63 then 0 else (f.low v).toNat
        let t : Dest := ⟨f.stand.sid, f.cord.id, f.slotB, f.path.restart, f.path.mask, o.d.toNat⟩
        .done ((s.keep { f with cord := f.cord.markV [t.d, t.d + 1] }.advance).emit f.stand.die b.bid b.qid 2
          (.put t f.stand.die b.bid b.qid ⟨some n, off, s.readTs f.cord, h⟩))

/-- QENQ (R348). -/
def execQenq (o : XOps) (s : State) : Host.Outcome State Fault Refusal :=
  issue (.qenq o) s fun f =>
    match flumeArgs f o.s with
    | .error t => .trap s t
    | .ok (off, h) =>
      match s.bindingOf f h with
      | none => .trap s { code := .flumeParam }
      | some b => .done (s.reserveOrPark f b o.d 1 (some ⟨none, off, s.readTs f.cord, h⟩))

/-- QDEQ and QTRY: lookup, home and port checks, then the head or the wait (R333 to R335, R349). -/
def dequeue (i : Instr) (o : XOps) (wait : Bool) (s : State) : Host.Outcome State Fault Refusal :=
  issue i s fun f =>
    match flumeArgs f o.s with
    | .error t => .trap s t
    | .ok (off, h) =>
      match s.lookupHandle f h fun e => e.getLsbD 49 with
      | (s, .error t) => .trap s t
      | (s, .ok q) =>
        if qidPkg q ≠ s.pkgid.toNat ∨ qidDie q ≠ f.stand.die then .trap s (remoteTrap 0x08 q h)
        else
          match s.portCheck q f.agent with
          | (s, some e) => .trap s (remoteTrap e q h)
          | (s, none) =>
            match s.flume? q with
            | none => .trap s (remoteTrap 0x07 q h)
            | some fl =>
              match (if fl.waits = [] then fl.ready else none) with
              | some (bs, ts) =>
                if s.struck f.stand.die (elementAt q fl.head) bs.length then .trap s { code := .memError }
                else
                let racy := s.racySp f.stand
                let st := { f.stand with sp := f.stand.sp.putFree racy s.fresh off bs }.wrote f.cord.id f.path.mask off bs.length
                let s := (((s.drawIf racy).mendSp f.stand off bs.length).modFlume q Flume.pop).acquireAt .die f.stand.sid f.cord.id
                  f.path.mask
                .done (s.keep { f with
                  stand := st, cord := f.cord.takeElement o.d.toNat f.path.mask ts fl.head }.advance)
              | none =>
                if wait then
                  let t : Dest := ⟨f.stand.sid, f.cord.id, f.slotB, f.path.restart, f.path.mask, o.d.toNat⟩
                  let id := s.uid
                  .done (((s.addWork (.dequeueWait t q h off)).modFlume q fun f => { f with waits := f.waits ++ [id] }).park f
                    (.dequeue id t.d))
                else .done (s.answer f o.d (BitVec.ofNat 32 (1 * 16)) 0)

/-- QDEQ (R349). -/
def execQdeq (o : XOps) (s : State) : Host.Outcome State Fault Refusal := dequeue (.qdeq o) o true s
/-- QTRY (R349). -/
def execQtry (o : XOps) (s : State) : Host.Outcome State Fault Refusal := dequeue (.qtry o) o false s

/-- QALW (R350). -/
def execQalw (a : VCode) (r : SCode) (s : State) : Host.Outcome State Fault Refusal :=
  issueCord (.qalw a r) s fun f =>
    f.cord.writeS r (match s.allowance f a.toNat with
      | some b => BitVec.ofNat 64 (b.handle.toNat * 2 ^ 32 + 2 ^ 31 + b.chunk * 2 ^ 24 + b.cap * 2 ^ 16 + b.credit * 2 ^ 8 + b.vis)
      | none => 0)

/-- QINV: its handle's cached translations go with the next fence of its cord (R316, R351; DESIGN CHOICE, log 78). -/
def execQinv (r : SCode) (s : State) : Host.Outcome State Fault Refusal :=
  issue (.qinv r) s fun f =>
    let x := (f.cord.sreg r).toNat
    let all := nbits x 61 61 = 1
    if nbits x 63 62 ≠ 0 ∨ nbits x 60 12 ≠ 0 ∨ (all ∧ nbits x 11 0 ≠ 0) then .trap s { code := .flumeParam }
    else
      let s := s.modCore f.stand.die f.stand.core fun k =>
        { k with qinvs := k.qinvs ++ [(f.stand.sid, f.cord.id, if all then none else some (BitVec.ofNat 12 x))] }
      .done (s.keep f.advance)

/-- QSTAT (R352). -/
def execQstat (o : XOps) (s : State) : Host.Outcome State Fault Refusal :=
  issue (.qstat o) s fun f =>
    let x := (f.cord.sreg o.s).toNat
    if nbits x 63 12 ≠ 0 then .trap s { code := .flumeParam }
    else
      match s.lookupHandle f (BitVec.ofNat 12 x) fun e => e.getLsbD 48 || e.getLsbD 49 with
      | (s, .error t) => .trap s t
      | (s, .ok q) =>
        let t : Dest := ⟨f.stand.sid, f.cord.id, f.slotB, f.path.restart, f.path.mask, o.d.toNat⟩
        .done ((s.keep { f with cord := f.cord.markV [t.d, t.d + 1] }.advance).emitOn ⟨1, f.stand.die, q, none⟩
          (s.route f.stand.die (s.tableRoute q) 0 q s.uid) (.stat t q (BitVec.ofNat 12 x)))

/-- BRAL (R353). -/
def execBral (a : BitVec 3) (c : BitVec 4) (disp : BitVec 18) (s : State) : Host.Outcome State Fault Refusal :=
  issue (.bral a c disp) s fun f =>
    let vis := ((s.allowance f a.toNat).map Binding.vis).getD 0
    let pc := if c.toNat ≤ vis then branchTo f.path.pc disp else f.path.pc + 4
    .done (s.keep { f with path := f.path.next pc })

/-! ### Commands of a port (R319 to R321) -/

/-- A command ends with its result. -/
def State.portResult (s : State) (d p : Nat) (r : BitVec 4) : State :=
  s.modPort d p fun x => { x with flcmd := 0, flres := r }

/-- Limits of a creation record (R320). -/
def flumeRecordOk (s : State) (d p : Nat) (r : List Byte) : Bool :=
  let q : Word := BitVec.ofNat 32 (recField r 0 4)
  let w := recField r 8 2
  let sp := recField r 12 4
  decide (qidPkg q = s.pkgid.toNat) && decide (qidDie q = d) && decide (qidPort q = p) &&
    ((s.port d p).flume? q).isNone && decide (recField r 6 1 ≤ 4) && decide (1 ≤ recField r 7 1) &&
    decide (recField r 7 1 ≤ 64) && decide (recField r 7 1 ≤ w + sp) && decide (1 ≤ w) && decide (w ≤ 4096) &&
    decide (recField r 10 2 = 0) && decide (sp ≤ 65536) && decide (recField r 16 8 % 4096 = 0) &&
    (decide (sp ≠ 0) || decide (recField r 16 8 = 0)) && (r.drop 24).all fun b => decide (b = 0)

/-- The flume of a creation record. -/
def flumeOf (r : List Byte) : Flume :=
  { qid := BitVec.ofNat 32 (recField r 0 4), fpid := BitVec.ofNat 16 (recField r 4 2), elem := recField r 6 1,
    chunk := recField r 7 1, wslots := recField r 8 2, sslots := recField r 12 4, spill := recField r 16 8,
    head := 0, slots := [], promised := 0, voids := 0, waits := [] }

/-- FLUME_CREATE (R319, R320). -/
def execFlumeCreate (die port : Nat) (s : State) : Host.Outcome State Fault Refusal :=
  let s := s.unfocus
  let p := s.port die port
  let a := p.flarg.toNat
  if p.flcmd ≠ 1 then .next s
  else if a % 64 ≠ 0 ∨ Config.hbmBytes < a + 64 then .next (s.portResult die port 4)
  else
    let r := s.hbm.bytes (hAddr die a) 64
    let f := flumeOf r
    if !flumeRecordOk s die port r then .next (s.portResult die port 3)
    else if 512 ≤ p.flumes.length ∨
        262144 < (p.flumes.map fun x => x.wslots * x.elemBytes).foldl (· + ·) (f.wslots * f.elemBytes) then
      .next (s.portResult die port 2)
    else .next ((s.modPort die port fun x => { x with flumes := x.flumes ++ [f] }).portResult die port 0)

/-- The flume a destroy command names; none where its argument cannot be used (R319). -/
def Port.named (p : Port) : Option Flume :=
  if nbits p.flarg.toNat 63 32 ≠ 0 then none else p.flume? (p.flarg.truncate 32)

/-- Bindings of a flume, with their die. -/
def State.bindingsTo (s : State) (q : Word) : List (Nat × Binding) :=
  (s.dies.zip (List.range s.dies.length)).flatMap fun x =>
    (x.1.bindings.filter fun b => b.2.qid = q).map fun b => (x.2, b.2)

/-- FLUME_DESTROY (R321). -/
def execFlumeDestroy (die port : Nat) (s : State) : Host.Outcome State Fault Refusal :=
  let s := s.unfocus
  let p := s.port die port
  if p.flcmd ≠ 2 then .next s
  else
    match p.named with
    | none => .next (s.portResult die port 4)
    | some f =>
      if f.slots ≠ [] ∨ f.promised ≠ 0 ∨ f.waits ≠ [] ∨ s.bindingsTo f.qid ≠ [] then .next (s.portResult die port 1)
      else .next ((s.modPort die port fun x =>
        { x with flumes := x.flumes.filter fun y => y.qid ≠ f.qid }).portResult die port 0)

/-- One of each die and context: the first handle that stands for it. -/
def oneEach (l : List (Nat × Nat × BitVec 12)) : List (Nat × Nat × BitVec 12) :=
  l.foldl (fun a x => if a.any fun y => y.1 = x.1 ∧ y.2.1 = x.2.1 then a else a ++ [x]) []

/-- An operation under way to a flume, with the die, context, instruction and handle that its error goes back to. -/
def State.bound? (s : State) (q : Word) (w : Work) : Option (Nat × Nat × Dest × BitVec 12) :=
  let of (t : Dest) (h : BitVec 12) : Option (Nat × Nat × Dest × BitVec 12) :=
    (s.engineAgent t false).map fun a => (a.die, a.ctx, t, h)
  match w with
  | .creditReq r => if r.qid = q then ((s.die r.die).bound r.bid).map fun b => (r.die, b.ctx, b.binder, b.handle) else none
  | .reserve t _ _ q' h _ _ _ => if q' = q then of t h else none
  | .put t _ _ q' p => if q' = q then of t p.handle else none
  | .stat t q' h => if q' = q then of t h else none
  | _ => none

/-- Its work goes to a flume or comes from it. -/
def Work.ofFlume (q : Word) : Work → Bool
  | .creditReq r => decide (r.qid = q)
  | .creditGrant _ _ q' _ _ | .reserve _ _ _ q' _ _ _ _ | .put _ _ _ q' _ | .stat _ q' _ => decide (q' = q)
  | _ => false

/-- Operations under way to some flumes end in an error, and the grants on their way from them are void: a flume made again
under the same QID owes none of them (R322). -/
def State.failOps (s : State) (q : Word) (reason : BitVec 8) : State :=
  let ends := s.works.filterMap fun i => s.bound? q i.work
  let s := { s with
    works := s.works.filter fun i => !i.work.ofFlume q
    dies := s.dies.map fun x => { x with bindings := x.bindings.map fun b =>
      if b.2.qid = q then (b.1, { b.2 with credit := 0, asking := false, retryAt := none }) else b } }
  ends.foldl (fun s e => s.addWork (.remoteError e.1 e.2.1 (some e.2.2.1) e.2.2.1.pc reason q e.2.2.2)) s

/-- Removes a flume: the contexts that hold a binding of it or a path parked on it are told, and so is each operation under
way to it (R321, R339; DESIGN CHOICE, log 84). -/
def State.removeFlume (s : State) (f : Flume) : State :=
  let waits := f.waits.filterMap fun id => (s.work? id).bind fun i => match i.work with
    | .dequeueWait t _ h _ => (s.engineAgent t false).map fun a => (a.die, a.ctx, h)
    | _ => none
  let who := ((s.bindingsTo f.qid).map fun b => (b.1, b.2.ctx, b.2.handle)) ++ waits
  let s := s.modPort (qidDie f.qid) (qidPort f.qid) fun x =>
    { x with flumes := x.flumes.filter (fun y => y.qid ≠ f.qid), credits := x.credits.filter fun r => r.qid ≠ f.qid }
  (oneEach who).foldl (fun s w => s.addWork (.remoteError w.1 w.2.1 none 0 0x07 f.qid w.2.2)) (s.failOps f.qid 0x07)

/-- FLUME_FORCED_DESTROY (R321). -/
def execFlumeForcedDestroy (die port : Nat) (s : State) : Host.Outcome State Fault Refusal :=
  let s := s.unfocus
  let p := s.port die port
  if p.flcmd ≠ 3 then .next s
  else
    match p.named with
    | none => .next (s.portResult die port 4)
    | some f => .next ((s.removeFlume f).portResult die port 0)

/-- FLCMD_INVALID: a command of another value is refused (R319). -/
def execFlcmdInvalid (die port : Nat) (cmd : BitVec 3) (s : State) : Host.Outcome State Fault Refusal :=
  let s := s.unfocus
  if (s.port die port).flcmd = cmd ∧ 3 < cmd.toNat then .next (s.portResult die port 4) else .next s

end Sys2Proof.Machine
end

