-- ==== Sys2Proof/Machine/Launch.lean ====
section
/-! DEFINITION. Launch records, the distributor, the start and the end of stands, and combine buffers (01_machine.md R17
to R32, 12_launch.md R355 to R370). -/

namespace Sys2Proof.Machine

/-! ### Records (R355 to R358) -/

/-- Roles of a launch record. -/
def recRoles (r : List Byte) : List Role :=
  (List.range (min 4 (recField r 30 1))).map fun j => roleOf (r.drop (64 + 16 * j))

/-- RF, SP and AS of a record's partition word (R357). -/
def recPool (r : List Byte) : Nat × Nat × Nat :=
  let w := recField r 32 4
  (nbits w 6 0, nbits w 14 8, nbits w 22 16)

/-- Bytes of register storage of some roles (R17). -/
def storageOf (rs : List Role) : Nat := (rs.map fun r => r.count * r.regs * 128).foldl (· + ·) 0

def cordsOf (rs : List Role) : Nat := (rs.map Role.count).foldl (· + ·) 0

/-- A stand of the record fits an empty core (R17, R19). -/
def recFits (r : List Byte) : Bool :=
  let p := recPool r
  decide (p.1 + p.2.1 + p.2.2 ≤ Config.granules) && decide (storageOf (recRoles r) ≤ p.1 * Config.granuleBytes) &&
    decide (cordsOf (recRoles r) ≤ 64)

/-- Limits of a role descriptor (R356). -/
def roleOk (b : List Byte) : Bool :=
  let r := roleOf b
  decide (recField b 0 8 % 4 = 0) && decide (recField b 0 8 < 2 ^ 57) && decide (8 ≤ r.regs) && decide (r.regs ≤ 60) &&
    decide (r.regs % 4 = 0) && decide (1 ≤ r.count) && decide (r.count ≤ 64) && decide (1 ≤ r.sregs) &&
    decide (r.sregs ≤ 24) && decide (recField b 11 5 = 0)

/-- FUT of a record meets its limits (R355). -/
def futOk (r : List Byte) : Bool := decide (recField r 16 8 % 16 = 0) && decide (recField r 16 8 < 2 ^ 57)

/-- Limits of a record (R355 to R357). -/
def recLimits (r : List Byte) : Bool :=
  let n := recField r 30 1
  let w := recField r 32 4
  let p := recPool r
  decide (1 ≤ recField r 4 4) && decide (recField r 4 4 ≤ 2 ^ 20) && decide (recField r 8 8 < 2 ^ 57) && futOk r &&
    decide (recField r 28 1 < 4) && decide (1 ≤ n) && decide (n ≤ 4) && decide (recField r 31 1 = 0) &&
    decide (nbits w 31 23 = 0) && decide (nbits w 15 15 = 0) && decide (nbits w 7 7 = 0) && decide (p.2.2 ≤ 96) &&
    decide (p.2.1 ≤ 96) && decide (1 ≤ p.1) && decide (p.1 ≤ 96) && ((r.drop 36).take 28).all (fun b => decide (b = 0)) &&
    ((List.range 4).all fun j =>
      let b := (r.drop (64 + 16 * j)).take 16
      if j < n then roleOk b else b.all fun x => decide (x = 0)) && recFits r

/-- A die that a record or a tract may name: present, in service, its uncore out of reset (R360). -/
def Die.available (x : Die) : Bool := x.inService && !x.harvested && !x.uncRst

/-- Named dies of an affinity mask. -/
def State.namedDies (s : State) (affinity : BitVec 8) : List Nat :=
  (List.range 8).filter fun n => affinity.getLsbD n && (s.die n).available

/-- Reason of a refusal, the lowest of those that hold (R25, R358, R372). -/
def State.refusal (s : State) (d : Nat) (l : LaunchRec) : Option (BitVec 8) :=
  let r := l.bytes
  let e := (s.die d).ctx l.ctx
  let dies := s.namedDies (BitVec.ofNat 8 (recField r 29 1))
  let world := dies.any fun n => (s.die n).cores.any fun k => k.secure = ((s.die n).ctx l.ctx).sec
  if recField r 0 4 ≠ Config.configId then some 1
  else if dies = [] then some 2
  else if !recFits r || !world then some 3
  else if !recLimits r || !e.v then some 4
  else if l.fpid.any fun f => f ≠ e.fpid then some 5
  else none

/-- Poisons the future of a refused record where it can be written (R358). -/
def State.poisonRefused (s : State) (d : Nat) (l : LaunchRec) : State :=
  let fut := recField l.bytes 16 8
  let e := (s.die d).ctx l.ctx
  if fut = 0 ∨ futOk l.bytes = false ∨ e.v = false then s
  else
    match s.translate ⟨d, l.ctx, e.sec, e.fpid, 0, 32, {}⟩ .atomic fut with
    | (s, .error _) => s
    | (s, .ok p) =>
      match resolveFuture s.hbm (hAddr d p.1) (TrapCode.launchRefused.num.zeroExtend 64) true with
      | none => s
      | some (m, wakes) =>
        let s := s.setFuture (hAddr d p.1) m
        if wakes then s.sendWakes d p.1 else s

/-- LAUNCH_CAPTURE: the launch port dequeues the next record, and refuses it or hands its tract to the distributor
(R24, R25, R26, R361). -/
def execLaunchCapture (die : Nat) (s : State) : Host.Outcome State Fault Refusal :=
  let s := s.unfocus
  match (s.die die).launches with
  | [] => .next s
  | (n, l) :: rest =>
    if !(s.die die).available then .next s
    else
      let s := s.modDie die fun x => { x with launches := rest }
      let r := l.bytes
      match s.refusal die l with
      | some why =>
        .next ((s.poisonRefused die l).post die
          { kind := 4, code := TrapCode.launchRefused.num, reason := why, ctx := BitVec.ofNat 8 l.ctx,
            fpid := ((s.die die).ctx l.ctx).fpid, info := BitVec.ofNat 64 n, info2 := BitVec.ofNat 64 (recField r 16 8) })
      | none =>
        let p := recPool r
        let t : Tract :=
          { id := s.uid, die := die, ctx := l.ctx, fpid := l.fpid, prio := min (recField r 28 1) l.limit,
            stands := recField r 4 4, next := 0, ended := 0, param := BitVec.ofNat 64 (recField r 8 8),
            fut := recField r 16 8, seed := BitVec.ofNat 32 (recField r 24 4),
            affinity := BitVec.ofNat 8 (recField r 29 1), rf := p.1, spGran := p.2.1, asGran := p.2.2,
            roles := recRoles r, reenter := [], poison := none, blocked := none }
        .next { s with uid := s.uid + 1, tracts := s.tracts ++ [t] }

/-! ### Records on their way (R362, R403) -/

/-- LAUNCH (R362, R365). -/
def execLaunch (o : XOps) (s : State) : Host.Outcome State Fault Refusal :=
  issue (.launch o) s fun f =>
    let a := (f.cord.sreg o.s).toNat
    let b := (f.cord.sreg (o.s + 1)).toNat
    let off := nbits a 31 0
    match (recTrap f.stand 128 128 off).or (f.damage s [(off, 128)]) with
    | some t => .trap s t
    | none =>
      if nbits a 63 32 ≠ 0 ∨ nbits b 63 3 ≠ 0 then .trap s { code := .launchParam }
      else
        .done (s.begin f o.d f.path.mask fun t =>
          .launchRec t (nbits b 2 0) ⟨f.stand.sp.bytes off 128, f.stand.ctx, some f.stand.fpid, f.stand.prio⟩)

/-- Stores a record in a die's launch flume: its sequence number. -/
def State.storeLaunch (s : State) (d : Nat) (l : LaunchRec) : State × Nat :=
  let n := (s.die d).launchSeq
  (s.modDie d fun x => { x with launches := x.launches ++ [(n, l)], launchSeq := (n + 1) % 2 ^ 32 }, n)

/-- The launch flume's window has a free slot. -/
def Die.launchRoom (x : Die) : Bool := decide (x.launches.length < 256)

/-- LAUNCH_RECORD_STORE: a LAUNCH's record takes a slot of its target port, behind its cord's earlier ones; records of
different cords arrive in any order (R24, R318). A release at die scope (R362, R363). -/
def execLaunchRecordStore (id : Nat) (s : State) : Host.Outcome State Fault Refusal :=
  let s := s.unfocus
  match s.active? id with
  | some (.launchRec t die l) =>
    let from' := ((s.originOf t).die)
    let x := s.die die
    let first := (s.before id).all fun w => match w with
      | .launchRec t' d' _ => !(decide (d' = die) && decide (t'.sid = t.sid) && decide (t'.cord = t.cord))
      | _ => true
    if !first || s.unreleased id t.sid t.cord t.mask then .next s
    else if x.harvested || !x.inService || x.uncRst then
      .next (s.failFlume id from' l.ctx (some t) t.pc 0x03 0 0)
    else if s.crossing from' die id then .next s
    else if x.launchRoom then
      let r := (s.releaseOf t).storeLaunch die l
      .next (r.1.sendReply id t die 0 (BitVec.ofNat 32 r.2))
    else .next s
  | _ => .next s

/-- A die answers host requests. -/
def Die.present (x : Die) : Bool := x.inService && !x.harvested

/-- What the host's request gets back. -/
def State.answerHost (s : State) (r : HostReply) : State := { s with hostReply := some r }

/-- HOST_LAUNCH_SUBMIT: a GO write captures the staged record and its context, or is ignored with BUSY (R403); to an absent
die it gets an error completion (R401). -/
def execHostLaunchSubmit (die : Nat) (ctx : BitVec 8) (s : State) : Host.Outcome State Fault Refusal :=
  let s := s.unfocus
  if !(s.die die).present then .next (s.answerHost .error)
  else if s.firmware.fwstat ≠ 1 then .next s
  else
    .next (s.modDie die fun x =>
      if x.stage.go then { x with stage := { x.stage with code := 1 } }
      else { x with stage := { x.stage with
        go := true, ctx := ctx, captured := some ⟨x.stage.image, ctx.toNat, none, 3⟩ } })

/-- HOST_LAUNCH_STORE: the staged record is stored when a slot is free (R403). -/
def execHostLaunchStore (die : Nat) (s : State) : Host.Outcome State Fault Refusal :=
  let s := s.unfocus
  match (s.die die).stage.captured with
  | some l =>
    if (s.die die).launchRoom then
      let r := s.storeLaunch die l
      .next (r.1.modDie die fun x => { x with stage := { x.stage with
        go := false, seq := BitVec.ofNat 32 r.2, code := 0, captured := none } })
    else .next s
  | none => .next s

/-! ### The distributor (R19, R26) -/

/-- Cord slots in use on a core, quadrant and slot: those of cords whose storage is not released (R160). -/
def State.slotsUsed (s : State) (d c : Nat) : List (Nat × Nat) :=
  (s.stands.filter fun st => st.die = d ∧ st.core = c).flatMap fun st =>
    (st.cords.filter fun x => !x.released).map fun x => (x.quad, x.cslot)

/-- Cord slots for cords of the given quadrants: the lowest free of each; none where one has no room. -/
def takeSlots (used : List (Nat × Nat)) : List Nat → Option (List Nat)
  | [] => some []
  | q :: r =>
    match (List.range 16).find? fun k => !used.contains (q, k) with
    | some k => (takeSlots ((q, k) :: used) r).map fun l => k :: l
    | none => none

/-- What a stand needs of a core (R19, R249, R294, R372). -/
structure Need where
  owner : Owner
  cords : Nat
  granules : Nat
  rows : Nat

/-- A core of a die fits a stand; `free` and `used` say what is free on it. -/
def State.fitsWith (s : State) (n : Need) (d c free : Nat) (used : List (Nat × Nat)) (sets : List Owner) (rows : Nat) : Bool :=
  let k := s.core d c
  !(s.die d).coreRst && !k.quiesced && decide (k.secure = n.owner.sec) && decide (n.granules ≤ free) &&
    (takeSlots used (quadsOf n.cords)).isSome && (sets.contains n.owner || decide (sets.length < 4)) &&
    decide (rows + n.rows ≤ 1024)

def State.setsOf (s : State) (d c : Nat) : List Owner := (s.grove d (c / 8)).sets.map Prod.fst

def State.fits (s : State) (n : Need) (d c : Nat) : Bool :=
  s.fitsWith n d c (s.core d c).free (s.slotsUsed d c) (s.setsOf d c) (s.core d c).thresh.length

/-- The fitting core with the most free granules among some, ties to the lower number (R26). -/
def State.bestCore (s : State) (n : Need) (d : Nat) (cores : List Nat) : Option Nat :=
  cores.foldl (fun b c =>
    if s.fits n d c then
      match b with
      | some x => if (s.core d x).free < (s.core d c).free then some c else b
      | none => some c
    else b) none

/-- What a fresh stand of a tract needs on a die. -/
def State.needOf (s : State) (t : Tract) (d : Nat) : Need :=
  let e := (s.die d).ctx t.ctx
  ⟨⟨t.ctx, e.fpid, e.sec⟩, cordsOf t.roles, t.rf + t.spGran + t.asGran, 0⟩

/-- Dies where a tract's stands may go, the accepting one first (R26). -/
def State.diesFor (s : State) (t : Tract) : List Nat :=
  let ok := (s.namedDies t.affinity).filter fun n =>
    let e := (s.die n).ctx t.ctx
    e.v && t.fpid.all fun f => f = e.fpid
  (ok.filter fun n => n = t.die) ++ ok.filter fun n => n ≠ t.die

/-- Where the next stand of a tract goes. -/
def State.site (s : State) (t : Tract) : Option (Nat × Nat) :=
  (s.diesFor t).findSome? fun d => (s.bestCore (s.needOf t d) d (List.range 32)).map fun c => (d, c)

/-- Of two tracts with a stand that re-enters, the one whose stand re-entered later. -/
def laterEntry (b : Option Tract) (t : Tract) : Option Tract :=
  let at' (t : Tract) : Nat := (t.reenter.head?.map fun r => r.2.2 + 1).getD 0
  match b with
  | some x => if at' x < at' t then some t else b
  | none => if t.reenter = [] then none else some t

/-- Head of a die's distributor: the tract whose stand is next. In the highest non-empty priority the stand that
re-entered last comes first, then the oldest tract (R26, R32). -/
def State.head (s : State) (die : Nat) : Option Tract :=
  [3, 2, 1, 0].findSome? fun p =>
    let ts := s.tracts.filter fun t => t.die = die ∧ t.prio = p
    (ts.foldl laterEntry none).or (ts.find? fun t => t.next < t.stands)

def State.modTract (s : State) (id : Nat) (f : Tract → Tract) : State :=
  { s with tracts := s.tracts.map fun t => if t.id = id then f t else t }

/-- Initial state of a cord (R27, R140); its path is live when the stand starts. -/
def newCord (t : Tract) (standId id role : Nat) (r : Role) (quad cslot : Nat) : Cord :=
  { id := id, role := role, budget := r.regs, sregs := r.sregs, quad := quad, cslot := cslot,
    v := List.replicate r.regs VReg.zero, latch := List.replicate 4 VReg.zero,
    s := t.param :: List.replicate 23 0, p := BitVec.allOnes 32 :: List.replicate 7 0, allow := List.replicate 8 none,
    slotA := none, slotB := none, pending := [], ringHead := 0, ringTail := 0, ringCount := 0, tokens := [], spilled := 0,
    lfsr := lfsrSeed t.seed standId id, prmX := 0, prmR := 0, prmB := 0, fpstat := 0, tsfloor := 0, trapImm := 0,
    inTrap := false, trapCode := 0, trapPc := 0, trapVal := 0, crews := [], vmarks := [], smarks := [], pmarks := [],
    chainStart := 0, exited := 0, released := false }

/-- A stand placed on a core, under the die's entry of its context. -/
def newStand (t : Tract) (sid standId die core : Nat) (cslots : List Nat) (e : Ctx) : Stand :=
  let rs := rolesOf t.roles
  let quads := quadsOf rs.length
  { sid := sid, tract := t.id, standId := standId, die := die, core := core, ctx := t.ctx, prio := t.prio, rf := t.rf,
    spGran := t.spGran, asGran := t.asGran, roles := t.roles, seed := t.seed, param := t.param, sys := e.sys,
    sec := e.sec, fpid := e.fpid, trapvec := e.trapvec, savebase := e.savebase, saven := e.saven,
    saveblk := e.saveblk, sp := [], acc := [], regions := List.replicate 8 none, mstat := 0,
    q0b := 0, q1b := 0, q0cap := 0, q1cap := 0, q1age := 4096, pins := [], phase := .placed, started := 0,
    cords := ((List.range rs.length).zip rs).map fun x =>
      newCord t standId x.1 x.2.1 x.2.2 (quads.getD x.1 0) (cslots.getD x.1 0) }

/-- Binds a word set of the grove to a process context that has none (R249). -/
def State.bindSet (s : State) (d c : Nat) (o : Owner) : State :=
  s.modGrove d (c / 8) fun g =>
    if g.sets.any fun x => x.1 = o then g else { g with sets := g.sets ++ [(o, List.replicate 16 {})] }

/-- Claims a core for a stand and enters it. -/
def State.claim (s : State) (st : Stand) : State :=
  let s := s.modCore st.die st.core fun k => { k with free := k.free - (st.rf + st.spGran + st.asGran) }
  { s with stands := s.stands ++ [st] }.bindSet st.die st.core st.owner

/-- STAND_PLACE: the distributor places the stand at its head; one that fits nowhere waits there (R26). -/
def execStandPlace (die : Nat) (s : State) : Host.Outcome State Fault Refusal :=
  let s := s.unfocus
  match s.head die with
  | some t =>
    if t.reenter ≠ [] ∨ !(s.die die).available then .next s
    else
      match s.site t with
      | some (d, c) =>
        match takeSlots (s.slotsUsed d c) (quadsOf (cordsOf t.roles)) with
        | some cslots =>
          let st := newStand t s.uid t.next d c cslots ((s.die d).ctx t.ctx)
          .next (({ s with uid := s.uid + 1 }.claim st).modTract t.id fun t =>
            { t with next := t.next + 1, blocked := none, sids := t.sids ++ [s.uid] })
        | none => .next s
      | none => .next (s.modTract t.id fun t => { t with blocked := t.blocked.or (some s.clock) })
  | none => .next s

/-- STAND_GANG_START: all roles of a placed stand start, once every lower stand of its tract has (R23, R27). -/
def execStandGangStart (sid : Nat) (s : State) : Host.Outcome State Fault Refusal :=
  let s := s.unfocus
  match s.stand? sid with
  | some st =>
    if st.phase = .placed ∧ ¬(s.stands.any fun x => x.tract = st.tract && x.phase = .placed && x.standId < st.standId) then
      let s := s.modStand sid fun x => { x with
        phase := .running, started := s.clock,
        cords := x.cords.map fun c =>
          { c with slotA := some { pc := ((x.roles[c.role]?).map Role.pc).getD 0, mask := BitVec.allOnes 32,
                                   liveSince := s.clock } } }
      .next (s.reshare st.die st.core st.tract false)
    else .next s
  | none => .next s

/-! ### The end of a stand (R18, R29 to R31) -/

/-- Outstanding register writes of a cord (R30). -/
def Cord.draining (c : Cord) : Bool := !(c.vmarks.isEmpty && c.smarks.isEmpty && c.pmarks.isEmpty)

/-- REGFILE_RELEASE: the storage of an exited cord is released once its outstanding writes are zero (R30). -/
def execRegfileRelease (sid cord : Nat) (s : State) : Host.Outcome State Fault Refusal :=
  .next (s.unfocus.modCord sid cord fun c =>
    if c.exited = BitVec.allOnes 32 ∧ c.draining = false then { c with released := true } else c)

/-- A transfer of another stand is open into a stand. -/
def State.receiving (s : State) (sid : Nat) : Bool :=
  s.works.any fun i => match i.work with
    | .copy t _ _ (.cross _ _ _ _ _ _ (.opened x)) => decide (x = sid) && decide (t.sid ≠ sid)
    | _ => false

/-- A piece of work is a stand's: an instruction of it waits, or it serves a task of it (R29). -/
def Work.ofStand (w : Work) (sid : Nat) : Bool :=
  decide ((w.dest?.map Dest.sid) = some sid) || match w with
    | .resolve o _ _ _ _ | .fold o _ _ _ => decide (o.sid = some sid)
    | _ => false

/-- A stand is over: every cord exited and released, and everything it issued complete (R29). -/
def State.standOver (s : State) (st : Stand) : Bool :=
  decide (st.phase = .running) && st.cords.all (fun c => decide (c.exited = BitVec.allOnes 32) && c.released) &&
    s.works.all (fun i => !i.work.ofStand st.sid) &&
    (s.core st.die st.core).allTasks.all (fun t => decide (t.sid ≠ st.sid)) &&
    (s.core st.die st.core).insq.all (fun e => decide (e.sid ≠ st.sid)) && !s.receiving st.sid

/-- STAND_END: its granules go to clearing, its slots, pins and threshold entries are free; with the last stand the
tract ends (R29, R31, R284), and with the last stand of its context the die forgets the context (R339). -/
def execStandEnd (sid : Nat) (s : State) : Host.Outcome State Fault Refusal :=
  let s := s.unfocus
  match s.stand? sid with
  | some st =>
    if s.standOver st then
      let s := st.pins.foldl (fun s w => s.unpin st.die st.core w) s
      .next ((((s.releaseStand st true).countEnded [st.tract]).finishTracts).leaveContext st.die st.ctx)
    else .next s
  | none => .next s

/-- GRANULE_CLEAR_DONE: granules whose 64 cycles have passed are free (R18). -/
def execGranuleClearDone (core : Nat) (s : State) : Host.Outcome State Fault Refusal :=
  let s := s.unfocus
  .next (s.modCore (core / 32) (core % 32) fun k =>
    { k with
        free := k.free + ((k.clearing.filter fun x => x.2 ≤ s.clock).map Prod.fst).foldl (· + ·) 0,
        clearing := k.clearing.filter fun x => s.clock < x.2 })

/-! ### Combine buffers (R366 to R370) -/

/-- Header of a combine buffer (R366). -/
structure CombineHdr where
  out : Nat
  fut : Nat
  tokens : Nat
  width : Nat
  ranks : Nat

def combineHdr (b : List Byte) : CombineHdr :=
  ⟨recField b 0 8, recField b 8 8, recField b 16 4, recField b 20 2, recField b 22 1⟩

/-- Limits of the fields that give the extent of a buffer (R366). -/
def CombineHdr.extentOk (h : CombineHdr) : Bool :=
  decide (1 ≤ h.tokens) && decide (h.tokens ≤ 2 ^ 20) && decide (16 ≤ h.width) && decide (h.width ≤ 8192) &&
    decide (h.width % 16 = 0) && decide (1 ≤ h.ranks) && decide (h.ranks ≤ 8)

/-- Limits of a header in memory (R366). -/
def combineOk (b : List Byte) : Bool :=
  let h := combineHdr b
  h.extentOk && decide (h.out % 64 = 0) && decide (h.out < 2 ^ 57) && decide (h.fut % 16 = 0) &&
    decide (recField b 23 1 = 0) && decide (recField b 28 36 = 0)

/-- First slot, and end of a buffer (R366). -/
def slotsAt (base : Nat) (h : CombineHdr) : Nat := base + 64 + 64 * ceilDiv (4 * h.tokens) 64
def combineEnd (base : Nat) (h : CombineHdr) : Nat := slotsAt base h + h.tokens * h.ranks * 4 * h.width

/-- CMBI (R370). -/
def execCmbi (o : XOps) (s : State) : Host.Outcome State Fault Refusal :=
  issue (.cmbi o) s fun f =>
    let base := (f.cord.sreg o.s).toNat
    let x := (f.cord.sreg (o.s + 1)).toNat
    let off := nbits x 31 0
    let b := f.stand.sp.bytes off 32
    let h := combineHdr b
    if skidFull s f then .held
    else if base % 64 ≠ 0 ∨ off % 32 ≠ 0 then .trap s (misalign [(base, 64), (off, 32)])
    else
      match (spTrap f.stand 32 [(0, off)]).or (f.damage s [(off, 32)]) with
      | some t => .trap s t
      | none =>
        if h.out % 64 ≠ 0 ∨ h.fut % 16 ≠ 0 then .trap s (misalign [(h.out, 64), (h.fut, 16)])
        else if !h.extentOk then .trap s { code := .combineParam }
        else if 2 ^ 57 ≤ base ∨ 2 ^ 57 < combineEnd base h then
          .trap s { code := .addressRange, val := some (BitVec.ofNat 64 base) }
        else if 2 ^ 57 ≤ h.out ∨ recField b 23 9 ≠ 0 ∨ nbits x 63 32 ≠ 0 then .trap s { code := .combineParam }
        else .done (s.begin f o.d f.path.mask fun t => .combineInit t base b)

/-- CMBW (R370). -/
def execCmbw (o : XOps) (s : State) : Host.Outcome State Fault Refusal :=
  issue (.cmbw o) s fun f =>
    let base := (f.cord.sreg o.s).toNat
    let x := (f.cord.sreg (o.s + 1)).toNat
    let off := nbits x 31 0
    let skip := nbits x 63 63 = 1
    if skidFull s f then .held
    else if base % 64 ≠ 0 ∨ off % 64 ≠ 0 then .trap s (misalign [(base, 64), (off, 64)])
    else
      match (if skip then none else spTrap f.stand 64 [(0, off)]) with
      | some t => .trap s t
      | none =>
        if 2 ^ 57 ≤ base then .trap s { code := .addressRange, val := some (BitVec.ofNat 64 base) }
        else if nbits x 62 55 ≠ 0 ∨ (skip ∧ off ≠ 0) then .trap s { code := .combineParam }
        else .done (s.begin f o.d f.path.mask fun t =>
          .combine t base (nbits x 54 52) (nbits x 51 32) off skip .claim)

/-- Sum of a token's slots in rank order, one element (R368). -/
def combineSum (l : List Word) : Word :=
  match l with
  | [] => 0
  | x :: r =>
    r.foldl (fun a y => (f32Add a y).1) (if (FloatFmt.f32.value x.toNat).isNan then 0x7FC00000 else x)

/-- Ends a combine write in a fault, with the bytes it has delivered. -/
def State.combineFault (s : State) (id : Nat) (t : Dest) (count : Nat) (r : Trap) : State :=
  State.copyFault t count (s.dropWork id) r

/-- One engine access of a combine step, as one run of translated bytes; a fault ends the step. -/
def State.combineReach (s : State) (id : Nat) (t : Dest) (count : Nat) (a : Agent) (u : Use) (va n : Nat) :
    Except State (State × List (Nat × Nat)) :=
  match (if 2 ^ 57 < va + n then (s, .error (TrapCode.addressRange, va)) else s.engineReach a u va n) with
  | (s, .ok rs) => .ok (s, rs)
  | (s, .error e) => .error (s.engineFault (s.originOf t) id e (State.copyFault t count))

/-- The slots of a token that some ranks filled: the bytes of each (R368). -/
def State.combineSlots (s : State) (id : Nat) (t : Dest) (count : Nat) (a : Agent) (first n : Nat) :
    List Nat → Except State (State × List (List Byte))
  | [] => .ok (s, [])
  | r :: rest =>
    match s.combineReach id t count a .read (first + r * n) n with
    | .error s => .error s
    | .ok (s, rs) =>
      match s.combineSlots id t count a first n rest with
      | .error s => .error s
      | .ok (s', l) => .ok (s', gather s.hbm rs :: l)

/-- The last fill of a token: result, DONE, TDONE, and the future with the last token (R368). -/
def State.combineToken (s : State) (id : Nat) (t : Dest) (a : Agent) (base token : Nat) (h : CombineHdr) (hdr tw : Nat)
    (w count : Nat) : State :=
  let n := 4 * h.width
  let ranks := (List.range h.ranks).filter fun r => nbits w (16 + r) (16 + r) = 0
  match s.combineSlots id t count a (slotsAt base h + token * h.ranks * n) n ranks with
  | .error s => s
  | .ok (s, slots) =>
    match s.combineReach id t count a .write (h.out + token * n) n with
    | .error s => s
    | .ok (s, outs) =>
      let bs := (List.range h.width).flatMap fun e =>
        leBytes 4 (combineSum (slots.map fun b => BitVec.ofNat 32 (recField b (4 * e) 4))).toNat
      let s := s.scatter outs bs
      let done := (s.hbm.load (hdr + 24) 4 + 1) % 2 ^ 32
      let s := (s.hbmPut tw (leBytes 4 (w % 2 ^ 31 + 2 ^ 31))).hbmPut (hdr + 24) (leBytes 4 done)
      if done = h.tokens ∧ h.fut ≠ 0 then
        if 2 ^ 57 ≤ h.fut then s.combineFault id t count { code := .addressRange, val := some (BitVec.ofNat 64 h.fut) }
        else s.addWork (.resolve (s.originOf t) h.fut none (BitVec.ofNat 64 h.tokens) false)
      else s

/-- Bytes of a stand's scratchpad window, resident or saved (R386). -/
def State.spBytes (s : State) (sid : Nat) : Nat :=
  match s.stand? sid with
  | some st => st.spGran * 16384
  | none =>
    ((s.savedOf sid).map fun x => nbits (s.hbm.load (hAddr x.1 x.2.block + 0x10) 4) 14 8 * 16384).getD 0

/-- Slot bytes that a CMBW has delivered before a step: the COUNT of a fault the step meets (R207, R370). -/
def CombineStage.sent : CombineStage → Nat
  | .fill n | .lost n => n
  | .claim | .data => 0

/-- One step of a CMBW at the L2 (R368). A claim checks the rank and the token; every step checks the header's limits.
A fill is a release of the path, whose stores the last fill's result and FUT order before them (R192, R369). A claim
that meets both slot data beyond the window and a set CLAIM bit raises SP_RANGE (DESIGN CHOICE, log 84). -/
def State.combineStep (s : State) (id : Nat) (t : Dest) (base rank token off : Nat) (skip : Bool) (stage : CombineStage)
    (a : Agent) : State :=
  let count := stage.sent
  match s.combineReach id t count a .atomic base 64 with
  | .error s => s
  | .ok (s, hs) =>
    let hdr := (hs.headD (0, 0)).1
    let b := s.hbm.bytes hdr 64
    let h := combineHdr b
    let n := 4 * h.width
    let bad := State.combineFault s id t count { code := .combineParam }
    if stage = .lost count then s.copyStatus id t (statusLow codeDone false false 0 0) (if skip then 0 else n)
    else if !combineOk b then bad
    else if 2 ^ 57 < combineEnd base h then
      s.combineFault id t count { code := .addressRange, val := some (BitVec.ofNat 64 base) }
    else if stage = .claim ∧ (h.ranks ≤ rank ∨ h.tokens ≤ token) then bad
    else
      match s.combineReach id t count a .atomic (base + 64 + 4 * token) 4 with
      | .error s => s
      | .ok (s, ts) =>
        let tw := (ts.headD (0, 0)).1
        let w := s.hbm.load tw 4
        let setBit (k : Nat) : Nat := (BitVec.ofNat 32 w ||| BitVec.ofNat 32 (2 ^ k)).toNat
        match stage with
        | .lost _ => s
        | .claim =>
          if !skip && decide (s.spBytes t.sid < off + n) then
            s.combineFault id t 0 { code := .spRange, val := some (BitVec.ofNat 64 off) }
          else if nbits w rank rank = 1 then bad
          else (s.hbmPut tw (leBytes 4 (setBit rank))).setWork id (.combine t base rank token off skip .data)
        | .data =>
          if skip then
            (s.hbmPut tw (leBytes 4 (setBit (16 + rank)))).setWork id (.combine t base rank token off skip (.fill 0))
          else
            match s.combineReach id t 0 a .write (slotsAt base h + (token * h.ranks + rank) * n) n with
            | .error s => s
            | .ok (s, rs) =>
              if s.spStruck t.sid off n then s.combineFault id t 0 { code := .memError }
              else (s.scatter rs ((s.spOf t.sid).bytes off n)).setWork id (.combine t base rank token off skip (.fill n))
        | .fill _ =>
          let w := setBit (8 + rank)
          let s' := (s.releaseOf t).hbmPut tw (leBytes 4 w)
          let s'' := if nbits w 15 8 = 2 ^ h.ranks - 1 then s'.combineToken id t a base token h hdr tw w count else s'
          if (s''.active? id).isSome then
            s''.copyStatus id t (statusLow codeDone false false 0 0) (if skip then 0 else n)
          else s''

/-- A CMBW under way between its claim and its fill on a token word that a CMBI of its context zeroes is lost (R369): it
writes no more (DESIGN CHOICE, log 79). -/
def State.loseClaims (s : State) (a : Agent) (base tokens : Nat) : State :=
  { s with works := s.works.map fun (i : Item) => match i.work with
    | .combine t b r k off skip st =>
      let va := b + 64 + 4 * k
      let hit := decide (base + 64 ≤ va) && decide (va < base + 64 + 4 * tokens) && decide (st ≠ .claim) &&
        (s.engineAgent t true).any fun x => decide (x.die = a.die) && decide (x.ctx = a.ctx)
      if hit then { i with work := .combine t b r k off skip (.lost st.sent) } else i
    | _ => i }

/-- CMBI at the L2: the header with TDONE 0, and every token word zero (R370). -/
def State.combineInit (s : State) (id : Nat) (t : Dest) (base : Nat) (image : List Byte) (a : Agent) : State :=
  let h := combineHdr image
  let n := 64 + 4 * h.tokens
  match s.combineReach id t 0 a .write base n with
  | .error s => s
  | .ok (s, rs) =>
    ((s.scatter rs (image.take 24 ++ List.replicate (n - 24) 0)).loseClaims a base h.tokens).copyStatus id t (statusLow codeDone false false 0 0) n

/-- COMBINE_STEP: a CMBI's write, or a CMBW's claim, data or fill step; both follow the accesses before them (R368,
R369, R370). -/
def execCombineStep (id : Nat) (s : State) : Host.Outcome State Fault Refusal :=
  let s := s.unfocus
  match s.active? id with
  | some (.combineInit t base image) =>
    match s.engineAgent t true with
    | some a => if s.unreleased id t.sid t.cord t.mask then .next s else .next (s.combineInit id t base image a)
    | none => .next (s.dropWork id)
  | some (.combine t base rank token off skip stage) =>
    match s.engineAgent t true with
    | some a =>
      if s.unreleased id t.sid t.cord t.mask then .next s
      else .next (s.combineStep id t base rank token off skip stage a)
    | none => .next (s.dropWork id)
  | _ => .next s

end Sys2Proof.Machine
end

