-- ==== Sys2Proof/Machine/System.lean ====
section
/-! DEFINITION. Special registers, traps and their return, swap-out, the save engine, re-entry, pre-emption, and the
system instructions (13_system.md R371 to R399). -/

namespace Sys2Proof.Machine

/-! ### Special registers (R65, R392) -/

/-- COREID of a core (R14). -/
def State.coreId (s : State) (d c : Nat) : DWord := BitVec.ofNat 64 (s.pkgid.toNat * 256 + d * 32 + c)

/-- WORLDSTAT (R388). -/
def State.worldstat (s : State) (st : Stand) : DWord :=
  let k := s.core st.die st.core
  BitVec.ofNat 64 (st.fpid.toNat * 2 ^ 16 + st.ctx * 2 ^ 8 + k.skSecure.toNat * 8 + k.secure.toNat * 4 +
    st.sys.toNat * 2 + st.sec.toNat)

/-- Value of a special register (R65). -/
def State.readSpr (s : State) (f : Focus) : Spr → DWord
  | .clk => s.clk f.stand.die f.stand.core
  | .ts => s.readTs f.cord
  | .tsfloor => f.cord.tsfloor
  | .fpstat => f.cord.fpstat.zeroExtend 64
  | .mstat => (s.core f.stand.die f.stand.core).mstatWord f.stand
  | .prm => BitVec.ofNat 64 f.cord.prmWord
  | .seed => f.stand.seed.zeroExtend 64
  | .cordid => BitVec.ofNat 64 f.cord.id
  | .standid => BitVec.ofNat 64 f.stand.standId
  | .coreid => s.coreId f.stand.die f.stand.core
  | .agelim => (s.core f.stand.die f.stand.core).agelim.zeroExtend 64
  | .trapcause => BitVec.ofNat 64 f.cord.trapCause
  | .trappc => f.cord.trapPc.zeroExtend 64
  | .trapval => f.cord.trapVal
  | .worldstat => s.worldstat f.stand

/-- RDSPR (R65). -/
def execRdspr (d : SCode) (r : Spr) (s : State) : Host.Outcome State Fault Refusal :=
  issueCord (.rdspr d r) s fun f => f.cord.writeS d (s.readSpr f r)

/-- WRSPR (R392): W1C bits, RW fields, or nothing; AGELIM at user level is PRIVILEGE. -/
def execWrspr (d : SCode) (r : Spr) (s : State) : Host.Outcome State Fault Refusal :=
  issue (.wrspr d r) s fun f =>
    let x := f.cord.sreg d
    match r with
    | .fpstat => .done (s.keep { f with cord := { f.cord with fpstat := f.cord.fpstat &&& ~~~(x.truncate 6) } }.advance)
    | .mstat => .done (s.keep { f with stand := { f.stand with mstat := f.stand.mstat &&& ~~~(x.truncate 5) } }.advance)
    | .prm =>
      .done (s.keep { f with cord := { f.cord with
        prmX := x.extractLsb' 10 5, prmR := x.extractLsb' 5 5, prmB := x.extractLsb' 0 5 } }.advance)
    | .trappc => .done (s.keep { f with cord := { f.cord with trapPc := x.truncate 57 } }.advance)
    | .agelim =>
      if !f.stand.sys then .trap s { code := .privilege }
      else
        let n : BitVec 20 := x.truncate 20
        .done ((s.modCore f.stand.die f.stand.core fun k =>
          { k with agelim := if n.toNat < 0x40 then 0x40 else n }).keep f.advance)
    | .clk | .ts | .tsfloor | .seed | .cordid | .standid | .coreid | .trapcause | .trapval | .worldstat =>
      .done (s.keep f.advance)

/-! ### TRAP, ERET, HALT (R393) -/

/-- TRAP: into the in-cord handler, or a stop of the stand (R377, R393). -/
def execTrap (code : BitVec 16) (s : State) : Host.Outcome State Fault Refusal :=
  issue (.trap code) s fun f =>
    let t : Trap := { code := .trap, val := some 0 }
    let next := f.path.pc + 4
    if f.stand.trapvec ≠ 0 ∧ f.cord.inTrap = false then
      .done (s.keep { f with
        cord := { f.cord.setTrap t 0 code next with inTrap := true },
        path := f.path.next (f.stand.trapvec.truncate 57) })
    else .done (s.takeTrap f t code next)

/-- ERET (R393). -/
def execEret (s : State) : Host.Outcome State Fault Refusal :=
  issue .eret s fun f =>
    if f.cord.inTrap = false then .trap s { code := .illegalInstr }
    else if f.cord.trapPc.toNat % 4 ≠ 0 then .trap s { code := .misaligned, val := some (f.cord.trapPc.zeroExtend 64) }
    else .done (s.keep { f with cord := { f.cord with inTrap := false }, path := f.path.next f.cord.trapPc })

/-- HALT: the stand stops, in any state of the cord (R393). -/
def execHalt (s : State) : Host.Outcome State Fault Refusal :=
  issue .halt s fun f => .done (s.takeTrap f { code := .halt, val := some 0 } 0 (f.path.pc + 4))

/-! ### Save blocks and images (R379, R384) -/

/-- A copy that is only waiting, which a swap-out leaves in the skidder: for a claim, for a receiving stand, for a slot of
the holding buffer, for the shares of its parked tile, or for a share (R210); or a pin that waits for a claim (R284). -/
def State.waitingCopy (s : State) (i : Item) : Bool :=
  match i.work with
  | .pin _ d c slot => (s.claims d c slot).any fun x => decide (x.1 < i.id)
  | .copy t d c k =>
    match k with
    | .weight slot _ _ seq granted => !granted && !s.grantable d c slot seq i.id
    | .evict slot seq => !s.grantable d c slot seq i.id
    | .cross _ _ _ _ _ _ (.waiting _) => true
    | .park _ _ _ mask => decide (mask ≠ 0) && (s.freeHold d c).isNone
    | .parked slot => ((s.grove d (c / 8)).hold.getD slot none).any fun h => !h.shares.isEmpty
    | .drain tag _ => !(s.stand? t.sid).any fun st => (s.openShare d c st.tract tag).isSome
    | _ => false
  | _ => false

/-- A completed task of the stand has its amax fold or its resolution still to do (R276, R279). -/
def State.reportsOf (s : State) (sid : Nat) : Bool :=
  s.works.any fun i => match i.work with
    | .resolve o _ _ _ _ | .fold o _ _ _ => decide (o.sid = some sid)
    | _ => false

/-- Work of a stand, in flight or waiting. -/
def State.itemsOf (s : State) (sid : Nat) : List Item :=
  s.works.filter fun i => decide ((i.work.dest?.map Dest.sid) = some sid)

/-- What binds a saved stand to its core (R381). -/
def State.bindsCore (s : State) (st : Stand) : Bool :=
  !((s.core st.die st.core).tasksOf st.sid).isEmpty || !st.pins.isEmpty ||
    (s.itemsOf st.sid).any fun (i : Item) => i.held.isSome || s.waitingCopy i

/-- What binds a saved stand to its grove (R381). -/
def Stand.bindsGrove (st : Stand) : Bool := st.cords.any fun c => !c.crews.isEmpty

/-- The image of a stand up to its pool section. -/
def State.imageOf (s : State) (st : Stand) (cause : BitVec 8) : List Byte :=
  let k := s.core st.die st.core
  imageHead s.clock st (k.mstatWord st) (k.tasksOf st.sid) cause (s.bindsCore st) st.bindsGrove

/-- Bytes of a stand's image. -/
def State.imageSize (s : State) (st : Stand) : Nat := (s.imageOf st 0).length + (st.spGran + st.asGran) * 16384

/-- Blocks of a die that an image occupies or that its save engines write: address and bytes. -/
def State.blocksUsed (s : State) (d : Nat) : List (Nat × Nat) :=
  ((s.die d).saved.map fun v => (v.block, v.size)) ++
    s.stands.filterMap fun st =>
      match st.phase with
      | .saving _ _ _ _ b n => if st.die = d then some (b, n) else none
      | _ => none

/-- Block j of a stand's save pool, as its context's entry stood at its placement or restore (R371). -/
def Stand.block (st : Stand) (j : Nat) : Nat := st.savebase.toNat + j * (st.saveblk.toNat * 65536)

/-- The lowest free save block for a stand's image, beside the blocks in use and some taken (R379 step 4). -/
def State.freeBlock (s : State) (st : Stand) (taken : List (Nat × Nat)) : Option Nat :=
  let bytes := st.saveblk.toNat * 65536
  if bytes < s.imageSize st then none
  else
    let used := s.blocksUsed st.die ++ taken
    ((List.range (min st.saven.toNat 4096)).find? fun j =>
      let b := st.block j
      decide (b + bytes ≤ Config.hbmBytes) && used.all fun u => decide (b + bytes ≤ u.1) || decide (u.1 + u.2 ≤ b)).map
        st.block

/-- Those of some stands, in order, that find a save block each (R380, R382, R396). -/
def State.savable (s : State) (l : List Stand) : List Stand :=
  (l.foldl (fun (acc : List Stand × List (Nat × Nat)) st =>
    match s.freeBlock st acc.2 with
    | some b => (acc.1 ++ [st], (b, s.imageSize st) :: acc.2)
    | none => acc) ([], [])).1

/-! ### Swap-out (R379, R380) -/

/-- Everything that a stand's swap-out waits for is over (R379 step 3): groups of words, accesses, copies that move
data, list operations, flume transfers, the folds and resolutions of its completed tasks, and its running task, which
completes unless it may be split (R279). -/
def State.swapReady (s : State) (st : Stand) : Bool :=
  let k := s.core st.die st.core
  st.cords.all (fun c => (c.slotA.toList ++ c.slotB.toList).all fun p => !s.inGroup st p) &&
    (s.itemsOf st.sid).all (fun (i : Item) => i.held.isSome || s.waitingCopy i) && !s.receiving st.sid &&
    !s.reportsOf st.sid && k.insq.all (fun e => decide (e.sid ≠ st.sid)) &&
    match k.running with
    | some r =>
      decide (r.task.sid ≠ st.sid) || (decide (r.task.mode = 2) && decide (1 < r.task.m) && k.insq.isEmpty)
    | none => true

/-- A task put back into its queue in acceptance order (R279). -/
def enqueueBack (t : Task) (l : List Task) : List Task :=
  l.takeWhile (fun x => decide (x.seq < t.seq)) ++ t :: l.dropWhile fun x => decide (x.seq < t.seq)

/-- Presents the candidates of a list-mode task's first rows, and folds their amax (R276, R279, R300). -/
def State.streamRows (s : State) (st : Stand) (r : Running) (n : Nat) : State :=
  let t := r.task
  let d := st.die
  let c := st.core
  let q := tileCands (st.sp.freed t.tainted s.fresh) r.tile { t with m := n }
  let w := t.word
  let cs := q.1.map fun x => (x.1, listVal (lType w) x.2.1, x.2.2)
  let s := cs.foldl (fun (s : State) x =>
    if (s.core d c).passes t.sid t.accbase (lType w) x.1 x.2 then s.insertAt t.sid t.accbase w [] x.1 x.2
    else s.onRow t.sid t.accbase w x.1 [] fun y => y.discard 1) (s.drawIf t.tainted)
  let s := s.modStand t.sid fun x => { x with mstat := x.mstat ||| q.2 }
  if t.amax = 0 then s
  else s.addL2 (.fold st.origin t.amax
    (BitVec.ofNat 32 ((q.1.map fun x => absF32 (decide (t.wfmt = 3)) x.2.1.toNat).foldl max 0)) .nothing)

/-- A list-mode task without its first rows (R279). -/
def Task.advance (t : Task) (n : Nat) : Task :=
  { t with aoff := t.aoff + n * t.astride * 256, ascale := if t.wfmt = 4 then t.ascale + 16 * n else t.ascale,
           lrow := t.lrow + n, m := t.m - n }

/-- Returns a stand's tasks from the array: a picked one as it was, a running list-mode one without the rows that have
streamed, whose number is free (R279). -/
def State.leaveArray (s : State) (st : Stand) : State :=
  let d := st.die
  let c := st.core
  let back (s : State) (t : Task) : State := s.modCore d c fun k =>
    k.setQueue t.queue1 (enqueueBack t (k.queue t.queue1))
  let k := s.core d c
  let s := match k.picked with
    | some r => if r.task.sid = st.sid then back (s.modCore d c fun k => { k with picked := none }) r.task else s
    | none => s
  match k.running with
  | some r =>
    if r.task.sid = st.sid then
      let n := 1 + Config.freePick s.fresh % (r.task.m - 1)
      (back (s.draw.streamRows st r n) (r.task.advance n)).nextTask d c
    else s
  | none => s

/-- A stand that found no free save block and that no fault stopped runs on (R382, R396). -/
def State.resume (s : State) (sid : Nat) : State :=
  (s.modStand sid fun x => { x with phase := .running }).saveOver sid false

/-- Record of a stop (R387). -/
def stopEvent (st : Stand) (kind cause : BitVec 8) (cord : Nat) (slotB : Bool) (info : Nat) : Event :=
  let c := if cause = 0 then none else st.cord? cord
  { kind := kind, code := cause, ctx := BitVec.ofNat 8 st.ctx, fpid := st.fpid,
    core := BitVec.ofNat 8 (st.die * 32 + st.core), standId := BitVec.ofNat 32 st.standId,
    cord := BitVec.ofNat 8 cord, slot := BitVec.ofNat 8 slotB.toNat,
    pc := (c.map fun x => x.trapPc.zeroExtend 64).getD 0, val := (c.map Cord.trapVal).getD 0,
    info := BitVec.ofNat 64 info }

/-- SWAPOUT_SAVE: what the stand waits for is over, and its image gets a save block; a stop that finds none ends the
context (R377, R379 steps 3 and 4). -/
def execSwapoutSave (sid : Nat) (s : State) : Host.Outcome State Fault Refusal :=
  let s := s.unfocus
  match s.stand? sid with
  | some st =>
    match st.phase with
    | .stopping cause requeue cord slotB =>
      if s.swapReady st then
        match (s.core st.die st.core).running.filter fun r => r.task.sid = sid && s.taskStruck st r.task with
        | some r => .next (s.taskError st r.task)
        | none =>
          let s := s.leaveArray st
          match s.stand? sid with
          | some st =>
            match s.freeBlock st [] with
            | some b =>
              .next (s.modStand sid fun x => { x with phase := .saving cause requeue cord slotB b (s.imageSize st) })
            | none =>
              if cause = 0 then .next (s.resume sid)
              else
                .next (s.endContext st.die st.ctx TrapCode.saveExhausted.num
                  { stopEvent st 1 cause cord slotB 0 with code := TrapCode.saveExhausted.num })
          | none => .next s
      else .next s
    | _ => .next s
  | none => .next s

/-- What the swap-out of a stand orders: a FENCE.die of each of its cords (R195). -/
def State.swapFence (s : State) (st : Stand) : State :=
  st.cords.foldl (fun s c => s.fenced (.fence .die) st.sid c.id (BitVec.allOnes 32)) s

/-- What a stand leaves behind with its image at a block. -/
def State.savedAs (s : State) (st : Stand) (block size : Nat) (requeue : Bool) : Saved :=
  let tasks := (s.core st.die st.core).tasksOf st.sid
  { block := block, size := size, sid := st.sid, standId := st.standId, tract := st.tract, ctx := st.ctx, core := st.core,
    fpid := st.fpid, sec := st.sec, bindCore := s.bindsCore st, bindGrove := st.bindsGrove,
    crews := st.cords.flatMap Cord.crews, unfenced := st.unfenced, tasks := tasks, awaitCrst := !requeue, pins := st.pins,
    taskPins := tasks.map fun t => (t.pin, t.seq) }

/-- SAVE_WRITE_DONE: the folds of the rows that streamed at the split are done (R279), the image stands in memory, the
stand leaves its core, and it re-enters its distributor or posts its record and waits for CRST (R379 steps 5 and 6). -/
def execSaveWriteDone (sid : Nat) (s : State) : Host.Outcome State Fault Refusal :=
  let s := s.unfocus
  match s.stand? sid with
  | some st =>
    match st.phase with
    | .saving cause requeue cord slotB block size =>
      if s.reportsOf sid then .next s else
      let d := st.die
      let s := ((s.core d st.core).tasksOf sid).foldl (fun s t => s.unregisterTask d t) (s.swapFence st)
      let v := s.savedAs st block size requeue
      let s := s.putImage (hAddr d block) st (s.imageOf st cause)
      let s := s.modCore d st.core fun k => k.withoutTasks sid
      let s := (s.modDie d fun x => { x with saved := x.saved ++ [v] }).releaseStand st false
      let s := s.saveOver sid true
      .next (if requeue then
        { s with uid := s.uid + 1 }.modTract st.tract fun t => { t with reenter := (d, block, s.uid) :: t.reenter }
      else s.post d (stopEvent st 2 cause cord slotB block))
    | _ => .next s
  | none => .next s

/-! ### Re-entry (R381, R397) -/

/-- Threshold entries of a stand's declared rows, from its headers (R294). -/
def Stand.thresholds (st : Stand) : List Thresh :=
  st.regions.flatMap fun r =>
    match r with
    | none => []
    | some (base, w) => (List.range (lRows w)).map fun n =>
      let row := readRow st.acc (base + n * lRowBytes w) (lK w)
      let l := row.last (lType w) (lK w)
      ⟨st.sid, base, n, decide (lK w ≤ row.entries.length), l.1, l.2⟩

/-- Declared rows of an image (R294). -/
def imageRows (m : Memory) (h : Nat) : Nat :=
  ((List.range 8).map fun n => lRows (BitVec.ofNat 64 (m.load (h + 0x88 + 16 * n) 8))).foldl (· + ·) 0

/-- What a saved stand needs of a core. -/
def State.needSaved (s : State) (d : Nat) (v : Saved) : Need :=
  let h := hAddr d v.block
  let pool := s.hbm.load (h + 0x10) 4
  let e := (s.die d).ctx v.ctx
  ⟨⟨v.ctx, e.fpid, e.sec⟩, cordsOf (imageRoles s.hbm h), nbits pool 6 0 + nbits pool 14 8 + nbits pool 22 16,
    imageRows s.hbm h⟩

/-- Cores a saved stand may return to (R381). -/
def Saved.cores (v : Saved) : List Nat :=
  if v.bindCore then [v.core]
  else if v.bindGrove then (List.range 8).map fun k => v.core / 8 * 8 + k
  else List.range 32

/-- The number of a saved task lifted to its core's count (R279). -/
def liftSeq (count low : Nat) : Nat :=
  let x := count / 2 ^ 32 * 2 ^ 32 + low
  if x ≤ count then x else x - 2 ^ 32

/-- A restored cord's round-robin starts at its slot A (R419): where that slot's number issued last, the number before it
counts as the last. -/
def Core.startAtA (k : Core) (c : Cord) : Core :=
  { k with lastIssue := k.lastIssue.modify c.quad fun x =>
      if x = some (2 * c.cslot) then some ((2 * c.cslot + 31) % 32) else x }

/-- A task of an image as its stand restores it: its record, its number lifted to the core's count, and what the machine
keeps of it beside the image. -/
def Saved.task (v : Saved) (count : Nat) (x : Task) : Task :=
  let y := (v.tasks.find? fun y => y.seq % 2 ^ 32 = x.seq).getD x
  { x with seq := liftSeq count x.seq, cord := y.cord, mask := y.mask, word := y.word, tainted := y.tainted,
           spoiled := y.spoiled }

/-- A restored task enters the tail of its queue, behind the records of its backing regions (R270, R279). -/
def Core.enterTail (k : Core) (t : Task) : Core :=
  if k.queueFull t.queue1 then { k with backed := k.backed ++ [⟨t, 0, true, none, true⟩] }
  else k.setQueue t.queue1 (k.queue t.queue1 ++ [t])

/-- The MFENCEs that cover a stand's scratchpad writes cover them for every task accepted after its restore (R277). -/
def Unfenced.restored (u : Unfenced) (count : Nat) : Unfenced :=
  { u with fenced := u.fenced.map fun x => (x.1, x.2.1, min x.2.2 count) }

/-- Reads an image back onto a core, and frees its block (R381, R386). -/
def State.restoreStand (s : State) (t : Tract) (d : Nat) (v : Saved) (core : Nat) (cslots : List Nat) : State :=
  let h := hAddr d v.block
  let count := (s.core d core).taskSeq
  let st := { s.readImage v d core h cslots ((s.die d).ctx v.ctx) with
    prio := t.prio, unfenced := v.unfenced.map fun u => u.restored count }
  let tasks := (imageTasks s.hbm h v.sid s.clock).map (v.task count)
  let s := ((s.modDie d fun x => { x with saved := x.saved.filter fun y => y.sid ≠ v.sid }).claim st).loadStruck st h
  let s := (s.loadBad st.sid h).modCore d core fun k =>
    let k := tasks.foldl Core.enterTail (st.cords.foldl Core.startAtA k)
    { k with thresh := k.thresh ++ st.thresholds }
  s.reshare d core st.tract false

/-- STAND_RESTORE: the distributor returns the saved stand at its head to a core that it may have and that fits it; one
that fits nowhere waits there (R32, R381). -/
def execStandRestore (die : Nat) (s : State) : Host.Outcome State Fault Refusal :=
  let s := s.unfocus
  match s.head die with
  | some t =>
    match t.reenter with
    | [] => .next s
    | (d, block, _) :: rest =>
      match (s.die d).saved.find? fun v => v.block = block with
      | none => .next (s.modTract t.id fun t => { t with reenter := rest })
      | some v =>
        let n := s.needSaved d v
        let core := if (s.die d).available && ((s.die d).ctx v.ctx).v then s.bestCore n d v.cores else none
        match core with
        | some c =>
          match takeSlots (s.slotsUsed d c) (quadsOf n.cords) with
          | some cslots =>
            .next ((s.restoreStand t d v c cslots).modTract t.id fun t => { t with reenter := rest, blocked := none })
          | none => .next s
        | none => .next (s.modTract t.id fun t => { t with blocked := t.blocked.or (some s.clock) })
  | none => .next s

/-! ### Pre-emption (R382) -/

/-- The cores that the head of a distributor may have, in the order in which ties fall, each with what it needs of its
die (R26, R372). -/
def State.wanted (s : State) (t : Tract) : List (Nat × Nat × Need) :=
  match t.reenter with
  | (d, block, _) :: _ =>
    match (s.die d).saved.find? fun v => v.block = block with
    | some v => v.cores.map fun c => (d, c, s.needSaved d v)
    | none => []
  | [] => (List.range 32).flatMap fun c => (s.diesFor t).map fun d => (d, c, s.needOf t d)

/-- A stand may be pre-empted for a priority (R382). -/
def State.victim (s : State) (prio : Nat) (st : Stand) : Bool :=
  decide (st.phase = .running) && decide (st.prio < prio) && decide (65536 ≤ s.clock - st.started)

/-- Eligible victims of a core in the order they are taken, each with a save block of its own. -/
def State.victims (s : State) (prio d c : Nat) : List Stand :=
  let vs := (s.stands.filter fun st => st.die = d ∧ st.core = c ∧ s.victim prio st = true).mergeSort fun a b =>
    decide (a.prio < b.prio) || (decide (a.prio = b.prio) && decide (b.started ≤ a.started))
  s.savable vs

/-- A core fits a stand once some of its stands have left. -/
def State.fitsWithout (s : State) (n : Need) (d c : Nat) (gone : List Stand) : Bool :=
  let left (sid : Nat) : Bool := gone.all fun x => decide (x.sid ≠ sid)
  let stay := s.stands.filter fun st => left st.sid
  let free := (s.core d c).free + (gone.map fun st => st.rf + st.spGran + st.asGran).foldl (· + ·) 0
  let used := { s with stands := stay }.slotsUsed d c
  let sets := (s.setsOf d c).filter fun x =>
    stay.any fun st => decide (st.die = d) && decide (st.core / 8 = c / 8) && decide (st.owner = x)
  s.fitsWith n d c free used sets ((s.core d c).thresh.filter fun t => left t.sid).length

/-- The fewest victims, in order, whose removal lets a stand fit a core. -/
def State.fewest (s : State) (n : Need) (prio d c : Nat) : Option (List Stand) :=
  let vs := s.victims prio d c
  (((List.range vs.length).map fun k => vs.take (k + 1)).find? fun g => s.fitsWithout n d c g)

/-- PREEMPT_CHECK: a head that has fitted nowhere for 1,000 cycles takes the core that needs the fewest victims (R382). -/
def execPreemptCheck (die : Nat) (s : State) : Host.Outcome State Fault Refusal :=
  let s := s.unfocus
  match s.head die with
  | some t =>
    if t.blocked.any fun x => decide (x + 1000 ≤ s.clock) then
      let plans := (s.wanted t).filterMap fun x => s.fewest x.2.2 t.prio x.1 x.2.1
      let best := plans.foldl (fun (b : Option (List Stand)) g =>
        match b with
        | some x => if g.length < x.length then some g else b
        | none => some g) none
      let s := s.modTract t.id fun t => { t with blocked := some s.clock }
      .next ((best.getD []).foldl (fun s st => s.stopStand st.sid 0 true 0 false) s)
    else .next s
  | none => .next s

/-! ### TLBINV, CSAVE, CRST, WORLD (R394 to R398) -/

/-- A system instruction waits for what FENCE.die orders before it (R394). -/
def systemHeld (s : State) (f : Focus) : Bool := releaseHeld s f

/-- The FENCE.die before the effect of a system instruction, on the state (R394). -/
def State.asFence (s : State) (f : Focus) : State :=
  (s.fenced (.fence .die) f.stand.sid f.cord.id f.path.mask).flushHandles f

/-- A system instruction that ends at once: its effect on the device, then its result (R394). -/
def sysResult (s : State) (f : Focus) (d : SCode) (v : DWord) : Did :=
  .done ((s.asFence f).keep { s.releaseFocus f with cord := f.cord.writeS d v }.advance)

/-- Translations that a TLBINV names leave every TLB of a die, and the walks in flight for them fill none (R395). -/
def Die.tlbDrop (x : Die) (drop : TlbEntry → Bool) : Die :=
  { x with
      tlb := x.tlb.filter fun e => !drop e, walks := x.walks.filter fun w => !drop w.entry,
      cores := x.cores.map fun k => { k with tlb := k.tlb.filter fun e => !drop e } }

/-- TLBINV (R395). -/
def execTlbinv (a b : SCode) (s : State) : Host.Outcome State Fault Refusal :=
  issue (.tlbinv a b) s fun f =>
    let va := (f.cord.sreg a).toNat
    let x := (f.cord.sreg b).toNat
    let ctx := nbits x 7 0
    if nbits x 61 8 ≠ 0 then .trap s { code := .sysParam }
    else if systemHeld s f then .held
    else
      let drop (e : TlbEntry) : Bool :=
        nbits x 62 62 = 1 || (decide (e.ctx = ctx) && (nbits x 63 63 = 1 || (decide (e.va ≤ va) && decide (va < e.va + e.leaf.size))))
      .done (((s.modDie f.stand.die fun y => y.tlbDrop drop).asFence f).keep (s.releaseFocus f).advance)

/-- Stands a CSAVE swaps out: running stands of the named contexts and cores that have a free save block, in order, but
not the issuer (R380, R396). -/
def State.csaveStands (s : State) (st0 : Stand) (x : Nat) : List Stand :=
  let named := s.stands.filter fun st =>
    decide (st.die = st0.die) && decide (st.sid ≠ st0.sid) && decide (st.phase = .running) &&
      (nbits x 25 25 = 1 || decide (st.ctx = nbits x 23 16)) && (nbits x 8 8 = 1 || decide (st.core = nbits x 4 0))
  s.savable named

/-- CSAVE (R396). -/
def execCsave (d a : SCode) (s : State) : Host.Outcome State Fault Refusal :=
  issue (.csave d a) s fun f =>
    let x := (f.cord.sreg a).toNat
    let ctx := nbits x 23 16
    let kill := nbits x 31 31 = 1
    if nbits x 63 32 ≠ 0 ∨ nbits x 30 26 ≠ 0 ∨ nbits x 24 24 ≠ 0 ∨ nbits x 15 9 ≠ 0 ∨ nbits x 7 5 ≠ 0 ∨
        (kill ∧ (nbits x 25 25 = 1 ∨ ctx = f.stand.ctx)) then .trap s { code := .sysParam }
    else if systemHeld s f then .held
    else if kill then
      let e := (s.die f.stand.die).ctx ctx
      let g := { s.releaseFocus f with cord := f.cord.writeS d 0 }.advance
      .done (((s.asFence f).settled g).endContext f.stand.die ctx TrapCode.killed.num
        { kind := 1, code := TrapCode.killed.num, ctx := BitVec.ofNat 8 ctx, fpid := e.fpid })
    else
      let vs := s.csaveStands f.stand x
      if vs = [] then sysResult s f d 0
      else
        .done (vs.foldl (fun s st => s.stopStand st.sid 0 false 0 false)
          ((s.asFence f).park (s.releaseFocus f) (.saves (vs.map Stand.sid) 0 d)))

/-- The zero fields of a cord record of an image (R385). -/
def cordZeros (m : Memory) (h regs : Nat) : Bool :=
  let flags := m.load (h + 0x2C) 4
  let ring := m.load (h + 0x60) 8
  decide (m.load (h + 0x78) 8 = 0) && decide (m.load (h + 0xB0) 16 = 0) && decide (nbits flags 30 18 = 0) &&
    decide (nbits flags 15 14 = 0) && decide (nbits flags 7 4 = 0) && decide (nbits ring 63 22 = 0) &&
    decide (nbits ring 15 13 = 0) && decide (nbits ring 7 5 = 0) && decide (m.load (h + 0x180) 16 < 4 ^ regs)

/-- The checks of CRST on an image's own words (R397). -/
def imageSound (m : Memory) (h : Nat) : Bool :=
  let nr := (m.read (h + 0x15)).toNat
  let roles := imageRoles m h
  let pool := m.load (h + 0x10) 4
  let rf := nbits pool 6 0
  let sp := nbits pool 14 8
  let as := nbits pool 22 16
  decide (1 ≤ nr) && decide (nr ≤ 4) &&
    ((List.range 4).all fun j =>
      let b := m.bytes (h + 0x40 + 16 * j) 16
      if j < nr then roleOk b else b.all fun x => decide (x = 0)) &&
    decide (nbits pool 31 23 = 0) && decide (nbits pool 15 15 = 0) && decide (nbits pool 7 7 = 0) && decide (1 ≤ rf) &&
    decide (rf + sp + as ≤ Config.granules) && decide (storageOf roles ≤ rf * Config.granuleBytes) &&
    decide (cordsOf roles ≤ 64) && decide ((m.read (h + 0x14)).toNat = cordsOf roles) &&
    (let rs := rolesOf roles
     let offs := imageCords m h rs 0x140
     let last := (offs.zip rs).foldl (fun _ x =>
       x.1 + cordSize (m.load (h + x.1 + 0x180) 16) (m.load (h + x.1 + 0x70) 8) x.2.2) 0x140
     let ntask := m.load (h + 0x1C) 4
     let taskOff := m.load (h + 0x28) 4
     let poolOff := m.load (h + 0x2C) 4
     decide (taskOff = last) && decide (poolOff = (taskOff + 80 * ntask + 63) / 64 * 64) &&
       decide (m.load h 4 = poolOff + (sp + as) * 16384) &&
       ((offs.zip rs).all fun x => cordZeros m (h + x.1) x.2.2.regs) &&
       (List.range ntask).all fun j => decide (m.load (h + taskOff + 80 * j + 72) 8 = 0)) &&
    decide (m.read (h + 0x1B) = 0) && decide ((m.read (h + 0x17)).toNat < 4) && decide (m.load (h + 0x110) 48 = 0) &&
    (List.range 8).all fun j =>
      decide (m.load (h + 0x84 + 16 * j) 4 = 0) && (decide (m.load (h + 0x88 + 16 * j) 8 ≠ 0) || decide (m.load (h + 0x80 + 16 * j) 4 = 0))

/-- An address is the start of a block of a context's pool, as its entry stands (R397). -/
def Ctx.startsBlock (e : Ctx) (pa : Nat) : Bool :=
  let n := e.saveblk.toNat * 65536
  decide (0 < n) && decide (e.savebase.toNat ≤ pa) && decide ((pa - e.savebase.toNat) % n = 0) &&
    decide ((pa - e.savebase.toNat) / n < e.saven.toNat)

/-- The saved stand that an image at an address may restore (R397). -/
def State.restorable (s : State) (d pa : Nat) : Option Saved :=
  (s.die d).saved.find? fun v =>
    let h := hAddr d pa
    let m := s.hbm
    decide (v.block = pa) && v.awaitCrst && ((s.die d).ctx v.ctx).v && ((s.die d).ctx v.ctx).startsBlock pa && decide (m.load h 4 = v.size) && imageSound m h &&
      decide (m.load (h + 4) 4 = v.standId) && decide (m.load (h + 8) 8 = v.tract) && decide ((m.read (h + 0x1A)).toNat = v.ctx)

/-- Every engine that waits with a resume token goes on (R377, R397); whether there was one. -/
def State.resumeToken (s : State) (tok : Nat) : State × Bool :=
  let is (h : Option Nat) : Bool := decide (h = some tok)
  let off (h : Option Nat) : Option Nat := if h = some tok then none else h
  let task (t : Task) : Task := { t with held := off t.held }
  let found := s.works.any (fun (i : Item) => is i.held) || s.dies.any fun x => x.cores.any fun k =>
    (k.q0 ++ k.q1).any (fun t => is t.held) || k.backed.any fun b => is b.held
  ({ s with
      works := s.works.map fun (i : Item) => { i with held := off i.held }
      dies := s.dies.map fun x => { x with cores := x.cores.map fun k =>
        { k with q0 := k.q0.map task, q1 := k.q1.map task, backed := k.backed.map fun b => { b with held := off b.held } } } },
    found)

/-- CRST (R397). -/
def execCrst (o : S3) (s : State) : Host.Outcome State Fault Refusal :=
  issue (.crst o) s fun f =>
    let a := (f.cord.sreg o.a).toNat
    let b := (f.cord.sreg o.b).toNat
    let d := f.stand.die
    if 1 < b then .trap s { code := .sysParam }
    else if systemHeld s f then .held
    else if b = 1 then
      let r := s.resumeToken a
      sysResult r.1 f o.d (if r.2 then 0 else 1)
    else
      match s.restorable d a with
      | none => sysResult s f o.d 1
      | some v =>
        let s' := s.modDie d fun x => { x with saved := x.saved.map fun y =>
          if y.sid = v.sid then { y with awaitCrst := false } else y }
        let s' := { s' with uid := s'.uid + 1 }.modTract v.tract fun t => { t with reenter := (d, a, s'.uid) :: t.reenter }
        sysResult s' f o.d 0

/-- A stand is resident on a core, the issuing one among them, and one that is placed there and has not started (DESIGN
CHOICE, log 84). -/
def State.occupied (s : State) (f : Focus) (c : Nat) : Bool :=
  (decide (f.stand.core = c)) || s.stands.any fun st => decide (st.die = f.stand.die) && decide (st.core = c)

/-- WORLD (R398). -/
def execWorld (o : S3) (s : State) : Host.Outcome State Fault Refusal :=
  issue (.world o) s fun f =>
    let a := (f.cord.sreg o.a).toNat
    let b := f.cord.sreg o.b
    let w1 := f.cord.sreg (o.b + 1)
    let d := f.stand.die
    let k := nbits a 63 62
    let n := nbits a 5 0
    let bit := b.getLsbD 0
    let zeros (w : DWord) : Bool := decide (nbits w.toNat 15 0 = 0)
    if !f.stand.sec then .trap s { code := .privilege }
    else if k = 3 ∧ 22 ≤ o.b.toNat then .trap s { code := .illegalReg }
    else if nbits a 61 6 ≠ 0 ∨ (k < 2 ∧ 32 ≤ n) ∨ (k = 2 ∧ 16 ≤ n) ∨ (k < 3 ∧ 2 ≤ b.toNat) ∨
        (k = 3 ∧ (zeros b = false ∨ zeros w1 = false ∨ nbits b.toNat 63 48 ≠ 0 ∨ nbits w1.toNat 61 48 ≠ 0)) then
      .trap s { code := .sysParam }
    else if systemHeld s f then .held
    else
      match k with
      | 0 =>
        if s.occupied f n then sysResult s f o.d 1
        else sysResult (s.modCore d n fun x => { x with secure := bit }) f o.d 0
      | 1 =>
        if 0 < (s.settled f).skidding d n then sysResult s f o.d 1
        else sysResult (s.modCore d n fun x => { x with skSecure := bit }) f o.d 0
      | 2 =>
        if (s.port d n).flumes ≠ [] then sysResult s f o.d 1
        else sysResult (s.modPort d n fun x => { x with secure := bit }) f o.d 0
      | _ => sysResult (s.modDie d fun x => { x with descs := x.descs.set n (b, w1) }) f o.d 0

end Sys2Proof.Machine
end

