-- ==== Sys2Proof/Machine/Device.lean ====
section
/-! DEFINITION. The device in its system: host windows, event rings, contrails, links and keys, reset domains, repair,
firmware, attestation and clocks (14_device.md R400 to R418). -/

namespace Sys2Proof.Machine

/-! ### Window H (R401, R391) -/

/-- HOST_MEM_ACCESS: a request to window H; one that touches an absent die, or a secure address without the secure world,
gets an error completion, and so does one before firmware is accepted (R391, R401, R416; log 69). -/
def execHostMemAccess (write secure : Bool) (addr : Nat) (data : List (BitVec 8)) (s : State) :
    Host.Outcome State Fault Refusal :=
  let s := s.unfocus
  let runs := (pageRuns addr data.length).map fun r => ((addr + r.1) / Config.hbmBytes, (addr + r.1) % Config.hbmBytes)
  if s.firmware.fwstat ≠ 1 ∨ (runs.any fun r => decide (8 ≤ r.1) || !(s.die r.1).present) = true then
    .next (s.answerHost .error)
  else
    match (if secure then none else runs.find? fun r => (s.die r.1).secureAt r.2) with
    | some r => .next ((s.violation ⟨r.1, 0, false, 0, 3, 0, {}⟩ r.2 write.toNat 0).answerHost .error)
    | none =>
      .next (if write then (s.hbmPut addr data).answerHost (.data [])
        else s.answerHost (.data (s.hbm.bytes addr data.length)))

/-! ### Event rings (R387, R404) -/

/-- EVENT_POST: the oldest held record goes to the ring in host memory; vector n is raised when TAIL passes HEAD
(R404). -/
def execEventPost (die : Nat) (s : State) : Host.Outcome State Fault Refusal := .next (s.unfocus.ringMove die)

/-! ### Contrails (R405, R406) -/

/-- The pair of dies of an entry. -/
def contrailPair (i : Nat) : Nat × Nat :=
  (((List.range 8).flatMap fun a => (List.range 8).map fun b => (a, b)).find? fun p =>
    decide (p.1 < p.2) && decide (contrailIndex p.1 p.2 = i)).getD (0, 1)

/-- Wavelengths that an entry has or may come to have: those in use during a change, and a write that is held (R405,
R406; log 30). -/
def Contrail.most (c : Contrail) : Nat := max c.waves.toNat (max c.want.toNat ((c.held.map BitVec.toNat).getD 0))

/-- Wavelengths of a die beside those of one entry. -/
def State.wavesOf (s : State) (d i : Nat) : Nat :=
  ((List.range 28).map fun j =>
    let p := contrailPair j
    if j ≠ i ∧ (p.1 = d ∨ p.2 = d) then (s.contrails.getD j {}).most else 0).foldl (· + ·) 0

/-- A WANT that an entry may take. -/
def State.wantOk (s : State) (i : Nat) (want : BitVec 4) : Bool :=
  let p := contrailPair i
  decide (want.toNat ≤ 8) && (s.die p.1).present && (s.die p.2).present &&
    decide (s.wavesOf p.1 i + want.toNat ≤ 16) && decide (s.wavesOf p.2 i + want.toNat ≤ 16)

/-- A WANT takes effect: a change starts where it differs from WAVES; work under the handles given out so far has been
sent on the old paths (R406). -/
def Contrail.begin (c : Contrail) (want : BitVec 4) (since : Nat) : Contrail :=
  let st : BitVec 2 := if want = c.waves then 0 else if c.waves.toNat < want.toNat then 1 else 3
  { c with want := want, held := none, state := st, since := since }

def State.modContrail (s : State) (i : Nat) (f : Contrail → Contrail) : State :=
  { s with contrails := s.contrails.modify i f }

/-- CONTRAIL_WANT_WRITE: refused with CTERR, held during a change, or taken (R405, R406). -/
def execContrailWantWrite (index : Nat) (want : BitVec 4) (s : State) : Host.Outcome State Fault Refusal :=
  let s := s.unfocus
  let ok := s.wantOk index want
  if s.firmware.fwstat ≠ 1 then .next s
  else
    .next (s.modContrail index fun c =>
      if !ok then { c with err := true }
      else if c.state ≠ 0 then { c with held := some want }
      else c.begin want s.uid)

/-- The dies between which a piece of work travels inside the package. -/
def State.travels (s : State) (w : Work) : Option (Nat × Nat) :=
  let here (d : Nat) (q : Word) : Option (Nat × Nat) := if qidPkg q = s.pkgid.toNat then some (d, qidDie q) else none
  match w with
  | .creditReq r => here r.die r.qid
  | .reserve _ d _ q _ _ _ _ | .put _ d _ q _ | .creditGrant d _ q _ _ => here d q
  | .launchRec t d _ => some ((s.originOf t).die, d)
  | .remoteError d _ _ _ reason q _ => if reason = 0x03 ∨ reason = 0x04 then none else here d q
  | .stat t q _ => here (s.originOf t).die q
  | .reply t home _ _ => some ((s.originOf t).die, home)
  | _ => none

/-- A packet that was sent between two dies before the change of their contrail is still to be delivered (R406). -/
def State.undelivered (s : State) (a b since : Nat) : Bool :=
  s.works.any fun i => decide (i.id < since) && i.held.isNone &&
    (s.travels i.work).any fun x => decide (x = (a, b)) || decide (x = (b, a))

/-- A change of a contrail may end (R406). -/
def State.changeOver (s : State) (index : Nat) : Bool :=
  let c := s.contrails.getD index {}
  decide (c.state ≠ 0) && !s.undelivered (contrailPair index).1 (contrailPair index).2 c.since

/-- CONTRAIL_CHANGE_DONE: what was sent on the old paths is delivered; WAVES takes WANT, and a held write takes effect
(R406). -/
def execContrailChangeDone (index : Nat) (s : State) : Host.Outcome State Fault Refusal :=
  let s := s.unfocus
  if s.changeOver index then
    .next (s.modContrail index fun c =>
      let d := { c with waves := c.want, state := 0 }
      match c.held with
      | some w => d.begin w s.uid
      | none => d)
  else .next s

/-! ### Links and keys (R407 to R411) -/

def State.modLink (s : State) (k : Nat) (f : Link → Link) : State := { s with links := s.links.modify k f }
def State.link (s : State) (k : Nat) : Link := s.links.getD k {}

/-- Raises an MSI-X vector. -/
def State.raiseMsix (s : State) (n : Nat) : State := { s with msix := n :: s.msix }

/-- KEY_INSTALL: the port captures the key record, once; one that breaks its layout is ignored (R407). -/
def execKeyInstall (port : Nat) (s : State) : Host.Outcome State Fault Refusal :=
  let s := s.unfocus
  let r := s.hostMem.bytes (s.link port).keyaddr.toNat 48
  let k : LinkKey := ⟨r.take 32, (r.drop 32).take 6⟩
  if recField r 39 9 ≠ 0 ∨ s.firmware.fwstat ≠ 1 then .next s
  else
    match recField r 38 1 with
    | 0 => .next (s.modLink port fun l => { l with nextSend := some k, txPend := true })
    | 1 => .next (s.modLink port fun l => { l with nextRecv := some k, rxPend := true })
    | _ => .next s

/-- Lanes a link can use: of the working ones, with the spare in place of one that fails (R410). -/
def Link.lanes (l : Link) : Nat × Bool :=
  let n := ((List.range 4).filter fun k => l.laneOk.getLsbD k).length
  if n < 4 ∧ l.laneOk.getLsbD 4 then (n + 1, true) else (n, false)

/-- WIDTH for a number of lanes (R407). -/
def widthFor (n : Nat) : BitVec 3 := if 4 ≤ n then 4 else if 2 ≤ n then 2 else if n = 1 then 1 else 0

/-- A packet may be sent on a link. -/
def Link.sends (l : Link) : Bool :=
  decide (l.width ≠ 0) && !l.train && !l.held && l.sendKey.isSome && !l.queue.isEmpty

/-- The die on whose ring a link's records are posted: the lowest in service (R411). -/
def State.lowestDie (s : State) : Nat := ((List.range 8).find? fun n => (s.die n).present).getD 0

/-- Counters of the flits of a link's last packets, newest first, with those of n more from a counter on (R408). -/
def Link.sent (l : Link) (n : Nat) : List Nat :=
  (((List.range n).map fun k => l.txctr.toNat + k).reverse ++ l.replay).take 64

/-- PACKET_SEND: the packet at the head of a link takes its counters and enters the replay buffer, or holds the link
(R408, R411). -/
def execPacketSend (port : Nat) (s : State) : Host.Outcome State Fault Refusal :=
  let s := s.unfocus
  let l := s.link port
  match l.queue with
  | [] => .next s
  | p :: rest =>
    let n := p.flits
    if !l.sends then .next s
    else if l.txctr.toNat + n - 1 ≤ 2 ^ 48 - 2 then
      let c := l.txctr.toNat + n
      let s := s.modLink port fun l =>
        { l with txctr := BitVec.ofNat 48 c, queue := rest, rekey := l.rekey || decide (2 ^ 47 ≤ c), replay := l.sent n }
      .next (if l.txctr.toNat < 2 ^ 47 ∧ 2 ^ 47 ≤ c then s.raiseMsix 9 else s)
    else
      .next ((s.modLink port fun l => { l with held := true }).post s.lowestDie
        { kind := 6, info := BitVec.ofNat 64 (port * 2 ^ 48 + l.txctr.toNat) })

/-- KEY_SWITCH: the peer has reported its pending receive key, and the sender takes its pending key (R411). -/
def execKeySwitch (port : Nat) (s : State) : Host.Outcome State Fault Refusal :=
  let s := s.unfocus
  .next (s.modLink port fun l =>
    if l.txPend then
      { l with sendKey := l.nextSend, nextSend := none, txctr := 0, txPend := false, rekey := false, held := false,
               replay := [] }
    else l)

/-- A packet that waited on a link that is down takes the next port of its route that is up; where there is none, it
meets reason 0x04 (R339, R408, R409). -/
def State.steer (s : State) (p : Packet) : State :=
  let r := match p.bid with
    | some b => s.firstHop (s.routeEntry p.die b p.qid) ((s.die p.die).entryOf b)
    | none => s.firstHop (s.tableRoute p.qid) 0
  match r with
  | some k => s.modLink k fun l => { l with queue := l.queue ++ [p] }
  | none => s

/-- A link goes down, and the routes steer around it (R408, R410). -/
def State.linkDown (s : State) (port : Nat) : State :=
  let q := (s.link port).queue
  let s := s.modLink port fun l => { l with width := 0, failures := 0, train := false, queue := [], replay := [] }
  (q.foldl State.steer s).raiseMsix 8

/-- FLIT_RECEIVE: a good flit is taken, ends a run of failures, and may be the first under a pending key; a flit that
fails is expected again from the peer's replay buffer, and the sixteenth failure in a row takes the link down (R408,
R411). -/
def execFlitReceive (port : Nat) (good : Bool) (s : State) : Host.Outcome State Fault Refusal :=
  let s := s.unfocus
  let l := s.link port
  if l.width = 0 then .next s
  else if good then
    let turn := l.rxPend && (l.recvKey.isNone || decide (Config.freePick s.fresh % 2 = 0))
    .next (s.draw.modLink port fun l =>
      if turn then { l with failures := 0, recvKey := l.nextRecv, nextRecv := none, rxPend := false, rxctr := 1 }
      else { l with failures := 0, rxctr := l.rxctr + 1 })
  else if 16 ≤ l.failures + 1 then .next (s.linkDown port)
  else .next (s.modLink port fun l => { l with failures := l.failures + 1 })

/-- LANE_FAIL: the spare takes the lane's place or the link narrows, at the next packet boundary, when it retrains; with
no lane left it goes down (R410). -/
def execLaneFail (port lane : Nat) (s : State) : Host.Outcome State Fault Refusal :=
  let s := s.unfocus
  let l := s.link port
  let ok := l.laneOk &&& ~~~((1 : BitVec 5) <<< lane)
  if ok = l.laneOk then .next s
  else
    let m : Link := { l with laneOk := ok }
    let s := s.modLink port fun _ => m
    if l.width = 0 then .next s
    else if m.lanes.1 = 0 then .next (s.linkDown port)
    else if widthFor m.lanes.1 ≠ l.width ∨ m.lanes.2 ≠ l.spare then .next (s.modLink port fun l => { l with train := true })
    else .next s

/-- LINK_RETRAIN_DONE: the link works at the width of its working lanes (R410). -/
def execLinkRetrainDone (port : Nat) (s : State) : Host.Outcome State Fault Refusal :=
  .next (s.unfocus.modLink port fun l =>
    if l.train then { l with train := false, width := widthFor l.lanes.1, spare := l.lanes.2 } else l)

/-! ### Reset domains (R412) -/

/-- A core after a core reset, which keeps world bits and the island's clock. -/
def Core.again (k : Core) (now : Nat) : Core :=
  { Core.reset with secure := k.secure, skSecure := k.skSecure, clkSince := now, mhz := k.mhz }

/-- Contexts that have a stand, a saved stand or a queued tract on a die. -/
def State.contextsOn (s : State) (d : Nat) : List Nat :=
  ((s.stands.filter fun st => st.die = d).map Stand.ctx ++ (s.die d).saved.map Saved.ctx ++
    (s.tracts.filter fun t => t.die = d).map Tract.ctx).dedup

/-- A core reset of a die (R412). -/
def State.resetCores (s : State) (d : Nat) : State :=
  let s := s.unfocus
  let s := (s.contextsOn d).foldl (fun s c =>
    s.endContext d c TrapCode.killed.num
      { kind := 1, code := TrapCode.killed.num, ctx := BitVec.ofNat 8 c, fpid := ((s.die d).ctx c).fpid }) s
  s.modDie d fun x =>
    { x with
        cores := x.cores.map fun k => k.again s.clock
        groves := List.replicate 4 Grove.reset
        damaged := x.damaged.filter struckInHbm
        qrun := false, coreRst := true }

/-- CORE_RESET (R412), or the error completion of an absent die (R401). -/
def execCoreReset (die : Nat) (s : State) : Host.Outcome State Fault Refusal :=
  if !(s.die die).present then .next (s.unfocus.answerHost .error)
  else if s.firmware.fwstat ≠ 1 then .next s.unfocus
  else .next (s.resetCores die)

/-- Credit requests that wait at a die's ports end with REMOTE_ERROR 0x03 (R339, R412). -/
def State.failCredits (s : State) (d : Nat) : State :=
  ((s.die d).ports.flatMap Port.credits).foldl (fun s r =>
    match (s.die r.die).bound r.bid with
    | some b => s.addWork (.remoteError r.die b.ctx (some b.binder) b.pc 0x03 r.qid b.handle)
    | none => s) s

/-- An operation under way to a die, with the die, context, instruction, flume and handle that its error goes back to
(R339, R408, R412). -/
def State.boundFor (s : State) (d : Nat) (w : Work) : Option (Nat × Nat × Dest × Word × BitVec 12) :=
  match w with
  | .launchRec t d' l => if d' = d then some ((s.originOf t).die, l.ctx, t, 0, 0) else none
  | .creditReq ⟨_, _, q, _⟩ | .reserve _ _ _ q _ _ _ _ | .put _ _ _ q _ | .stat _ q _ =>
    if qidPkg q = s.pkgid.toNat ∧ qidDie q = d then (s.bound? q w).map fun x => (x.1, x.2.1, x.2.2.1, q, x.2.2.2) else none
  | _ => none

/-- Work under way to a die, or with credit from it. -/
def State.worksFor (s : State) (d : Nat) (w : Work) : Bool :=
  match w with
  | .launchRec _ d' _ => decide (d' = d)
  | .creditReq ⟨_, _, q, _⟩ | .reserve _ _ _ q _ _ _ _ | .put _ _ _ q _ | .stat _ q _ | .creditGrant _ _ q _ _ =>
    decide (qidPkg q = s.pkgid.toNat) && decide (qidDie q = d)
  | _ => false

/-- Operations in flight to a die whose uncore is reset end with REMOTE_ERROR 0x03 (R339, R412). -/
def State.failDie (s : State) (d : Nat) : State :=
  let ends := s.works.filterMap fun i => s.boundFor d i.work
  let s := { s with works := s.works.filter fun i => !s.worksFor d i.work }
  ends.foldl (fun s e => s.addWork (.remoteError e.1 e.2.1 (some e.2.2.1) e.2.2.1.pc 0x03 e.2.2.2.1 e.2.2.2.2)) s

/-- An uncore reset of a die: a core reset, and the die's flumes, tables, rings, worlds, regions and log; what is in flight
to it fails (R321, R339, R412). Records that the die still holds, the KILLED ones of this reset among them, go with the
registers of their ring (DESIGN CHOICE, log 84). -/
def State.resetUncore (s : State) (d : Nat) : State :=
  (((s.resetCores d).failCredits d).failDie d).modDie d fun x =>
    { Die.reset with
        cores := x.cores.map fun k => { k with secure := false, skSecure := false }
        inService := x.inService, harvested := x.harvested, damaged := x.damaged
        coreRst := true, uncRst := true }

/-- The bytes of a write within a line of 128 bytes. -/
def Past.inLine (e : Past) (l : Nat) : Past :=
  let lo := max e.pa (128 * l)
  let hi := min (e.pa + e.bytes.length) (128 * (l + 1))
  { e with pa := lo, bytes := (e.bytes.drop (lo - e.pa)).take (hi - lo) }

/-- A forced uncore reset loses a die's dirty L2 lines: some of the newest writes to each line, a free number of them
(R412; log 80). -/
def State.loseDirty (s : State) (d : Nat) : State :=
  let mine := s.past.filter fun e => e.pa / Config.hbmBytes = d
  let lines := (mine.flatMap fun e =>
    (List.range ((e.pa % 128 + e.bytes.length + 127) / 128)).map fun k => e.pa / 128 + k).dedup
  let m := lines.foldl (fun m l =>
    let es := mine.filter fun e => e.meets (128 * l) 128
    rewind m ((es.take (Config.freeLost s.fresh l % (es.length + 1))).map fun e => e.inLine l)) s.hbm
  { s.draw with hbm := m, past := s.past.filter fun e => e.pa / Config.hbmBytes ≠ d }

/-- UNCORE_RESET: a reset that the management controller makes; whether it is forced is free (R412; log 80). An absent die
answers with an error completion (R401). -/
def execUncoreReset (die : Nat) (s : State) : Host.Outcome State Fault Refusal :=
  let s := s.unfocus
  if !(s.die die).present then .next (s.answerHost .error)
  else if s.firmware.fwstat ≠ 1 then .next s
  else if Config.freePick s.fresh % 2 = 0 then .next (s.draw.resetUncore die)
  else .next ((s.draw.resetUncore die).loseDirty die)

/-- PACKAGE_RESET: everything but management flash; its self-test follows (R412, R413). -/
def execPackageReset (s : State) : Host.Outcome State Fault Refusal :=
  let s := s.unfocus
  .next { State.reset with
    hostMem := s.hostMem
    flash := s.flash
    firmware := { State.reset.firmware with minimum := s.firmware.minimum }
    dies := s.dies.map fun x =>
      { Die.reset with
          cores := List.replicate 32 { Core.reset with clkSince := s.clock }
          inService := x.inService, harvested := x.harvested, coreRst := true, uncRst := true }
    clock := s.clock, inputs := s.inputs, fresh := s.fresh, uid := s.uid, pkgRst := true }

/-! ### Self-test and repair (R413 to R415) -/

/-- Spares of a part's unit (R413). -/
def PartKind.spares : PartKind → Nat
  | .column => 2 | .granuleRow => 4 | .canopyRow => 8 | .core => 2 | .lane => 1

def PartKind.num : PartKind → Nat
  | .column => 0 | .granuleRow => 1 | .canopyRow => 2 | .core => 3 | .lane => 4

/-- Two parts share the spares of one unit: an array, a granule, a canopy slot, a die or a port (R413). A row's index is
that of its granule or slot times 65,536, and its own (log 8). -/
def Failed.sameUnit (p q : Failed) : Bool :=
  decide (p.die = q.die) && decide (p.kind = q.kind) &&
    match p.kind with
    | .core => true
    | .column | .lane => decide (p.core = q.core)
    | .granuleRow | .canopyRow => decide (p.core = q.core) && decide (p.index / 65536 = q.index / 65536)

/-- The bytes of a repair record, in a layout of the model's (R414; log 8). -/
def Repair.bytes (r : Repair) : List Byte :=
  leBytes 4 r.part.die ++ leBytes 4 r.part.kind.num ++ leBytes 4 r.part.core ++ leBytes 4 r.part.index ++
    leBytes 4 r.spare ++ List.replicate 44 0

/-- A new record, signed with the module's repair key (R414). -/
def Repair.signed (p : Failed) (n : Nat) : Repair :=
  let r : Repair := ⟨p, n, [], []⟩
  ⟨p, n, Config.freeSignature 2 r.bytes, Config.freeSignature 3 r.bytes⟩

/-- Both signatures of a record verify: they are those of the module's repair key (R414; log 7). -/
def Repair.verified (r : Repair) : Bool :=
  decide (r.slhDsa = Config.freeSignature 2 r.bytes) && decide (r.rsa = Config.freeSignature 3 r.bytes)

/-- Repair records in force: those whose signatures both verify (R414, R417). -/
def State.repairsInForce (s : State) : List Repair := s.flash.filter Repair.verified

/-- The lowest spare of a part's unit that no record binds (R413). -/
def spareFor (used : List Repair) (p : Failed) : Option Nat :=
  (List.range p.kind.spares).find? fun n => used.all fun r => !(r.part.sameUnit p && decide (r.spare = n))

/-- The core that a part stands in, as a part. -/
def Failed.wholeCore (p : Failed) : Failed := ⟨p.die, 0, .core, if p.kind = .core then p.index else p.core⟩

/-- Repairs a failed part: a spare of its unit, else a spare core, else its die is harvested; a core that has just been
replaced needs no more. New records so far, and whether the die is harvested (R413). -/
def repairPart (old : List Repair) (acc : List Repair × Bool) (p : Failed) : List Repair × Bool :=
  if acc.1.any fun r => r.part = p.wholeCore then acc
  else
    match spareFor (old ++ acc.1) p with
    | some n => (acc.1 ++ [.signed p n], acc.2)
    | none =>
      match spareFor (old ++ acc.1) p.wholeCore with
      | some n => (acc.1 ++ [.signed p.wholeCore n], acc.2)
      | none => (acc.1, true)

/-- Parts of a core that a test newly finds failed: how many of each kind, and which, is free (log 8). -/
def partsFound (fresh d c : Nat) : List Failed :=
  [PartKind.column, .granuleRow, .canopyRow].flatMap fun k =>
    (List.range (Config.freeBist k.num (32 * fresh + c))).map fun j =>
      ⟨d, c, k, Config.freePart (32 * fresh + c) (8 * j + k.num)⟩

/-- Cores of a die that a test newly finds failed as a whole (log 8). -/
def coresFound (fresh d : Nat) : List Failed :=
  (List.range (Config.freeBist PartKind.core.num fresh)).map fun j => ⟨d, 0, .core, Config.freePart fresh j % 32⟩

/-- Takes a die out of service. -/
def State.harvest (s : State) (d : Nat) : State :=
  s.modDie d fun x => { x with harvested := true, inService := false }

/-- Self-test of a die: the records in force are applied first; what the records that do not verify name is found failed
again, and with what else is found failed it is repaired, or the die is harvested (R413, R414). -/
def State.testCores (s : State) (d : Nat) : State :=
  let old := s.repairsInForce
  let again := (s.flash.filter fun r => !r.verified && decide (r.part.die = d) && decide (r.part.kind ≠ .lane)).map Repair.part
  let new := coresFound s.fresh d ++ (List.range 32).flatMap (partsFound s.fresh d)
  let r := (again ++ new).foldl (repairPart old) ([], false)
  let s := { s.draw with flash := s.flash ++ r.1 }
  if r.2 then s.harvest d else s

/-- Lanes of a port that repair records name. -/
def State.lanesKnown (s : State) (k : Nat) (verified : Bool) : List Nat :=
  (s.flash.filter fun r => decide (r.part.kind = .lane) && decide (r.part.core = k) && (!verified || r.verified)).map fun r =>
    r.part.index

/-- Self-test of a link: the lanes that records name, and a free set of others, do not work; a lane that has no spare yet
takes the spare lane with a new record; the others train (R410, R413). -/
def State.testLink (s : State) (k : Nat) : State :=
  let known := s.lanesKnown k false
  let ok : BitVec 5 := known.foldl (fun m l => m &&& ~~~((1 : BitVec 5) <<< l)) ((Config.freeWord s.fresh k).truncate 5)
  let bad := (List.range 4).find? fun l => !ok.getLsbD l
  let s := s.draw.modLink k fun l => { l with laneOk := ok, train := true }
  match bad with
  | some l =>
    if (s.lanesKnown k true).isEmpty && ok.getLsbD 4 then { s with flash := s.flash ++ [.signed ⟨0, k, .lane, l⟩ 0] } else s
  | none => s

/-- BIST_DONE: the self-test of a core domain (0 to 7), of an uncore domain (8 to 15) or of the package (16) has ended, and
the reset with it (R412, R413). -/
def execBistDone (domain : Nat) (s : State) : Host.Outcome State Fault Refusal :=
  let s := s.unfocus
  if domain < 8 then
    let x := s.die domain
    if x.coreRst && !x.uncRst then .next ((s.testCores domain).modDie domain fun x => { x with coreRst := false })
    else .next s
  else if domain < 16 then
    let d := domain - 8
    if (s.die d).uncRst then .next ((s.testCores d).modDie d fun x => { x with coreRst := false, uncRst := false })
    else .next s
  else if s.pkgRst then
    let s := { s with pkgRst := false }
    let s := (List.range 8).foldl (fun s d =>
      (s.testCores d).modDie d fun x => { x with coreRst := false, uncRst := false }) s
    .next ((List.range 64).foldl State.testLink s)
  else .next s

/-- Returns the placed stands of a tract from one on to the distributor, which places them again (R23, R32). -/
def State.unplace (s : State) (st : Stand) : State :=
  let back := s.stands.filter fun x => x.tract = st.tract ∧ x.phase = .placed ∧ st.standId ≤ x.standId
  (back.foldl (fun s x => s.releaseStand x false) s).modTract st.tract fun t => { t with next := min t.next st.standId }

/-- QCORE_GO: a core stops accepting stands; placed ones go back, and running ones are swapped out as by pre-emption
where they have a save block (R32, R415); an absent die answers with an error completion (R401). -/
def execQcoreGo (die core : Nat) (s : State) : Host.Outcome State Fault Refusal :=
  let s := s.unfocus
  if !(s.die die).present then .next (s.answerHost .error)
  else if (s.die die).qrun || decide (s.firmware.fwstat ≠ 1) then .next s
  else
    let s := (s.modDie die fun x =>
      { x with qcore := BitVec.ofNat 5 core, qtarget := BitVec.ofNat 5 core, qgo := true, qrun := true, qdone := false }).modCore
      die core fun k => { k with quiesced := true }
    let mine := s.stands.filter fun st => st.die = die ∧ st.core = core
    let s := (mine.filter fun st => st.phase = .placed).foldl (fun s st => s.unplace st) s
    .next ((s.savable (mine.filter fun st => st.phase = .running)).foldl (fun s st => s.stopStand st.sid 0 true 0 false) s)

/-- QCORE_RETURN: the quiesced core is empty and is tested; it is repaired in place, or a spare takes its number, or the
die goes out of service as an uncore reset takes it (R413, R415). What the test finds is free. -/
def execQcoreReturn (die : Nat) (s : State) : Host.Outcome State Fault Refusal :=
  let s := s.unfocus
  let x := s.die die
  let c := x.qtarget.toNat
  if !x.qrun || s.stands.any fun st => decide (st.die = die) && decide (st.core = c) then .next s
  else
    let whole : List Failed := if Config.freeBist 3 s.fresh = 0 then [] else [⟨die, 0, .core, c⟩]
    let r := (whole ++ partsFound s.fresh die c).foldl (repairPart s.repairsInForce) ([], false)
    let s := { s.draw with flash := s.flash ++ r.1 }
    let result : BitVec 2 := if r.2 then 2 else if r.1.any fun y => y.part.kind = .core then 1 else 0
    let done (s : State) : State :=
      s.modDie die fun y => { y with qcore := x.qcore, qgo := x.qgo, qtarget := x.qtarget, qrun := false, qdone := true, qresult := result }
    if r.2 then .next (done ((s.resetUncore die).harvest die))
    else .next (done (s.modCore die c fun k => { k with quiesced := false }))

/-- A place that exists on a die (R17, R169, R219, R258, R322). -/
def State.holds (s : State) (d : Nat) : Struck → Bool
  | .holding g w o =>
    decide (g < (s.die d).groves.length) && decide (w < (s.grove d g).hold.length) && decide (o < 8192)
  | .element p q k o =>
    (s.port d p).flumes.any fun f => decide (f.qid = q) && decide (o < f.elemBytes) &&
      f.slots[(k + 2 ^ 32 - f.head) % 2 ^ 32]?.any fun x => !x.1
  | .register i c n l =>
    (s.stand? i).any fun st => decide (st.die = d) && decide (l < 32) && (st.cord? c).any fun x => decide (n < x.v.length)
  | .hbm a => decide (a < Config.hbmBytes)
  | .scratchpad i o => (s.stand? i).any fun st => decide (st.die = d) && decide (o < st.spGran * 16384)
  | .accumulator i o => (s.stand? i).any fun st => decide (st.die = d) && decide (o < st.asGran * 16384)
  | .canopy c w o =>
    decide (c < (s.die d).cores.length) && decide (w < (s.core d c).canopy.length) && decide (o < 32768 + 2048)

/-- UNCORRECTABLE_SOFT_ERROR: the error is recorded on the data it damages: a register's in the register (R374). -/
def execUncorrectableSoftError (die : Nat) (x : Struck) (s : State) : Host.Outcome State Fault Refusal :=
  let s := s.unfocus
  if !s.holds die x then .next s
  else
    match x with
    | .register i c n l => .next (s.modCord i c fun y => { y with v := y.v.modify n fun r =>
        { r with bad := r.bad ||| (1 : Mask) <<< l } })
    | _ => .next (s.modDie die fun y => if y.damaged.contains x then y else { y with damaged := x :: y.damaged })

/-! ### Firmware, attestation, clocks (R416 to R418) -/

/-- FWSTAT of an image: what it finds wrong first is in the order of the boot ROM's checks; the outcome of each is free
(log 7). -/
def fwResult (f : Firmware) (image : List Byte) : BitVec 4 × Nat :=
  let d := (Config.freeDigest 0 image).toNat
  let version := (Config.freeDigest 1 image).toNat
  if f.fwaddr.toNat % 4096 ≠ 0 ∨ 2 ^ 24 < f.fwlen.toNat ∨ Config.freeVerify 2 d = false then (5, version)
  else if Config.freeVerify 0 d = false then (2, version)
  else if Config.freeVerify 1 d = false then (3, version)
  else if version < f.minimum then (4, version)
  else (1, version)

/-- FIRMWARE_LOAD: the image is copied in one read and verified; an accepted one sets the minimum (R416). -/
def execFirmwareLoad (s : State) : Host.Outcome State Fault Refusal :=
  let s := s.unfocus
  let f := s.firmware
  if !f.load then .next s
  else
    let image := s.hostMem.bytes f.fwaddr.toNat (min f.fwlen.toNat (2 ^ 24))
    let r := fwResult f image
    .next { s with firmware :=
      if r.1 = 1 then
        { f with load := false, fwstat := 1, digest := Config.freeDigest 0 image, version := r.2, minimum := r.2 }
      else { f with load := false, fwstat := r.1 } }

/-- World bits of a die, as window G shows them (R402). -/
def Die.worldBits (x : Die) : BitVec 80 :=
  let bits (l : List Bool) : Nat := ((List.range l.length).zip l).foldl (fun a p => a + p.2.toNat * 2 ^ p.1) 0
  BitVec.ofNat 80 (bits (x.cores.map Core.secure) + bits (x.cores.map Core.skSecure) * 2 ^ 32 +
    bits (x.ports.map Port.secure) * 2 ^ 64)

/-- What a report's signatures sign, in an order of the model's: every content of it (R417; log 7). -/
def Report.content (r : Report) : List Byte :=
  r.nonce ++ leBytes 48 r.digest.toNat ++ leBytes 8 r.version ++ leBytes 4 r.config.toNat ++ leBytes 48 r.repairs.toNat ++
    [r.harvested] ++ r.worlds.flatMap fun w => leBytes 10 w.toNat

/-- The mask of the harvested dies. -/
def State.harvestedMask (s : State) : BitVec 8 :=
  BitVec.ofNat 8 (((List.range 8).filter fun n => (s.die n).harvested).foldl (fun a n => a + 2 ^ n) 0)

/-- The report on the accepted image for a nonce, with both signatures (R417). -/
def State.reportFor (s : State) (nonce : List (BitVec 8)) : Report :=
  let r : Report :=
    { nonce := nonce.take 32, digest := s.firmware.digest, version := s.firmware.version,
      config := BitVec.ofNat 32 Config.configId,
      repairs := Config.freeDigest 2 (s.repairsInForce.flatMap Repair.bytes), harvested := s.harvestedMask,
      worlds := s.dies.map Die.worldBits, rsa := [], slhDsa := [] }
  { r with rsa := Config.freeSignature 0 r.content, slhDsa := Config.freeSignature 1 r.content }

/-- ATTESTATION_REQUEST: the report on the accepted image, with both signatures (R417). -/
def execAttestationRequest (nonce : List (BitVec 8)) (s : State) : Host.Outcome State Fault Refusal :=
  let s := s.unfocus
  if s.firmware.fwstat ≠ 1 then .next s
  else
    .next { s with report := some (s.reportFor nonce) }

/-- What the sensors read in this cycle (R418; log 73): the hottest junction, each island's power, and since when the module
has drawn more than MODCAP. -/
def State.sense (s : State) : State :=
  let power := (List.range 44).map (Config.freeSensor s.clock)
  let above := decide (s.modcap.toNat * 1000 < (power.map BitVec.toNat).foldl (· + ·) 0)
  { s with junction := Config.freeSensor s.clock 44, islandPower := power,
           overSince := if above then s.overSince.or (some s.clock) else none }

/-- The controller lowers clocks: MODCAP has been exceeded for 1 ms, or a junction exceeds 105 °C (R418). -/
def State.hot (s : State) : Bool :=
  decide (1050 < s.junction.toNat) || s.overSince.any fun t => decide (t + 1500000 ≤ s.clock)

/-- The frequency that an island's clock may take next: 100 MHz lower while the controller lowers clocks, not below
600 MHz, and otherwise 100 MHz higher, not above 1.5 GHz (R418; DESIGN CHOICE, log 73). -/
def State.clockTo (s : State) (island : Nat) : Option Nat :=
  let now := s.islandMhz.getD island 1500
  if s.hot then (if 700 ≤ now then some (now - 100) else none)
  else if now ≤ 1400 then some (now + 100) else none

/-- CLOCK_THROTTLE: a grove island's clock moves by one step; the clocks of its cores count on from where they stand
(R252, R418). -/
def execClockThrottle (island mhz : Nat) (s : State) : Host.Outcome State Fault Refusal :=
  let s := s.unfocus
  let d := island / 5
  let g := island % 5
  if 40 ≤ island ∨ g = 4 ∨ s.clockTo island ≠ some mhz then .next s
  else
    let at' (c : Nat) (k : Core) : Core :=
      if c / 8 = g then { k with clkBase := (s.clk d c).toNat, clkSince := s.clock, mhz := mhz } else k
    .next ({ s with islandMhz := s.islandMhz.set island mhz }.modDie d fun x =>
      { x with cores := ((List.range 32).zip x.cores).map fun (p : Nat × Core) => at' p.1 p.2 })

/-! ### Window G (R401 to R404) -/

/-- A word of a context entry (R371). -/
def Ctx.word (e : Ctx) : Nat → DWord
  | 0 => e.root
  | 1 => e.savebase
  | 2 => BitVec.ofNat 64 (e.saveblk.toNat * 2 ^ 32 + e.saven.toNat)
  | 3 => e.trapvec
  | 4 => BitVec.ofNat 64 (e.sec.toNat * 2 ^ 18 + e.sys.toNat * 2 ^ 17 + e.v.toNat * 2 ^ 16 + e.fpid.toNat)
  | _ => 0

/-- A word of a context entry written. -/
def Ctx.put (e : Ctx) (k : Nat) (x : DWord) : Ctx :=
  match k with
  | 0 => { e with root := x &&& 0x0000FFFFFFFFF000 }
  | 1 => { e with savebase := x }
  | 2 => { e with saven := x.truncate 32, saveblk := x.extractLsb' 32 6 }
  | 3 => { e with trapvec := x }
  | 4 => { e with fpid := x.truncate 16, v := x.getLsbD 16, sys := x.getLsbD 17, sec := x.getLsbD 18 }
  | _ => e

/-- World bits written through the host link (R389, R402). -/
def Die.putWorlds (x : Die) (high : Bool) (v : DWord) : Die :=
  if high then
    { x with ports := ((List.range x.ports.length).zip x.ports).map fun p => { p.2 with secure := v.getLsbD p.1 } }
  else
    { x with cores := ((List.range x.cores.length).zip x.cores).map fun p =>
        { p.2 with secure := v.getLsbD p.1, skSecure := v.getLsbD (32 + p.1) } }

/-- A write of a flume port's register: FLCMD starts a command (R319). -/
def Port.put (p : Port) (off : Nat) (v : DWord) : Port :=
  if off = 0 then { p with flcmd := v.truncate 3 }
  else if off = 8 then { p with flarg := v }
  else p

/-- A write of an event ring's register (R404). -/
def Ring.put (r : Ring) (off : Nat) (v : DWord) : Ring :=
  if off = 0 then { r with base := v.extractLsb' 12 52, size := v.truncate 4 }
  else if off = 8 then { r with head := v.truncate 32 }
  else if off = 0x20 then { r with enable := v.getLsbD 0 }
  else r

/-- A write in the block of a die (R402). One of QCORE keeps CORE and GO, and starts where GO is 1 and no core is quiesced
(R4, R415). -/
def State.writeDie (s : State) (secure : Bool) (d off : Nat) (v : DWord) : Host.Outcome State Fault Refusal :=
  if off = 0 then
    if v.getLsbD 1 then .next (s.unfocus.resetUncore d) else if v.getLsbD 0 then execCoreReset d s else .next s
  else if off = 8 then
    let s := s.modDie d fun x => { x with qcore := v.truncate 5, qgo := v.getLsbD 8 }
    if v.getLsbD 8 then execQcoreGo d (nbits v.toNat 4 0) s else .next s
  else if 0x1000 ≤ off ∧ off < 0x5000 then
    let c := (off - 0x1000) / 0x40
    let k := off % 0x40 / 8
    let e := (s.die d).ctx c
    if (e.sec || (e.put k v).sec) && !secure then .next s
    else .next (s.modDie d fun x => { x with ctxs := x.ctxs.modify c fun e => e.put k v })
  else if 0x10000 ≤ off ∧ off < 0x20000 then
    .next (s.modPort d ((off - 0x10000) / 0x1000) fun p => p.put (off % 0x1000) v)
  else if 0x20000 ≤ off ∧ off < 0x28000 then
    .next (s.modPort d ((off - 0x20000) / 0x800) fun p =>
      { p with qtt := p.qtt.set (off % 0x800 / 8) (v &&& 0x8003FFFFFFFFFFFF) })
  else if 0x30000 ≤ off ∧ off < 0x30080 then
    .next (s.modDie d fun x => { x with stage := { x.stage with
      image := ((x.stage.image.take (off - 0x30000)) ++ leBytes 8 v.toNat ++ x.stage.image.drop (off - 0x30000 + 8)).take 128 } })
  else if off = 0x30080 then
    if v.getLsbD 63 then execHostLaunchSubmit d (v.truncate 8) s
    else .next (s.modDie d fun x => { x with stage := { x.stage with ctx := v.truncate 8 } })
  else if 0x40000 ≤ off ∧ off < 0x40028 then
    .next (s.modDie d fun x => { x with ring := x.ring.put (off - 0x40000) v })
  else if 0x50000 ≤ off ∧ off < 0x50400 ∧ secure = true then
    let j := (off - 0x50000) / 16
    .next (s.modDie d fun x => { x with descs := x.descs.modify j fun w =>
      if off % 16 = 0 then (v &&& 0x0000FFFFFFFF0000, w.2) else (w.1, v &&& 0xC000FFFFFFFF0000) })
  else if (off = 0x51000 ∨ off = 0x51008) ∧ secure = true then .next (s.modDie d fun x => x.putWorlds (off % 16 = 8) v)
  else .next s

/-- A host write of eight bytes in window G; what starts with a write starts here (R401, R402). Before an image is
accepted only the package-control and firmware blocks answer (R416). MODCAP keeps the low 32 bits of what is written: R418
gives it no width (DESIGN CHOICE, log 81). -/
def State.writeG (s : State) (secure : Bool) (off : Nat) (value : BitVec 64) : Host.Outcome State Fault Refusal :=
  if off % 8 ≠ 0 then .next s
  else if off = 0 then .next { s with pkgid := value.truncate 12 }
  else if off = 0x10000 then .next { s with firmware := { s.firmware with fwaddr := value } }
  else if off = 0x10008 then .next { s with firmware := { s.firmware with fwlen := value.truncate 32 } }
  else if off = 0x10010 then
    .next { s with firmware := { s.firmware with load := s.firmware.load || value.getLsbD 0 } }
  else if s.firmware.fwstat ≠ 1 then .next s
  else if 0x20000 ≤ off ∧ off < 0x20000 + 8 * 28 then
    let i := (off - 0x20000) / 8
    let s := s.modContrail i fun c => { c with err := c.err && !value.getLsbD 32 }
    execContrailWantWrite i (value.extractLsb' 8 4) s
  else if 0x80000 ≤ off ∧ off < 0x88000 then
    .next { s with routes := s.routes.set ((off - 0x80000) / 8) (value &&& 0x8000000003FFFFFF) }
  else if 0x100000 ≤ off ∧ off < 0x140000 then
    let k := (off - 0x100000) / 0x1000
    if !secure then .next s
    else if off % 0x1000 = 0x10 then .next (s.modLink k fun l => { l with keyaddr := value })
    else if off % 0x1000 = 0x18 ∧ value.getLsbD 0 = true then execKeyInstall k s
    else .next s
  else if off = 0x200000 then .next { s with modcap := value.truncate 32 }
  else if 0x1000000 ≤ off ∧ off < 0x3000000 then
    s.writeDie secure ((off - 0x1000000) / 0x400000) ((off - 0x1000000) % 0x400000) value
  else .next s

/-- A request in window G reaches a die that is absent or harvested (R401); a read of its DIECTL or
QCORE is answered all the same, so that HARVESTED can be read (R413; DESIGN CHOICE, log 82). -/
def State.absentAt (s : State) (write : Bool) (off : Nat) : Bool :=
  decide (0x1000000 ≤ off) && decide (off < 0x3000000) && !(s.die ((off - 0x1000000) / 0x400000)).present &&
    (write || decide (0x10 ≤ (off - 0x1000000) % 0x400000))

/-- REGISTER_WRITE: a host write in window G, with its completion (R401). -/
def execRegisterWrite (secure : Bool) (off : Nat) (value : BitVec 64) (s : State) : Host.Outcome State Fault Refusal :=
  let s := s.unfocus
  if s.absentAt true off then .next (s.answerHost .error) else (s.answerHost (.data [])).writeG secure off value

/-! ### What window G reads (R401 to R408) -/

/-- An entry of the contrail table (R405). WANT reads as it was last written, a write that is held too (R4, R406). -/
def Contrail.word (c : Contrail) (i : Nat) : Nat :=
  let p := contrailPair i
  c.err.toNat * 2 ^ 32 + c.state.toNat * 2 ^ 30 + c.waves.toNat * 2 ^ 16 + (c.held.getD c.want).toNat * 2 ^ 8 + p.2 * 8 + p.1

/-- A register of a fabric port (R407). -/
def Link.word (l : Link) (off : Nat) (secure : Bool) : Nat :=
  if off = 0 then
    l.train.toNat * 2 ^ 11 + l.rekey.toNat * 2 ^ 10 + l.held.toNat * 2 ^ 9 + l.laneOk.toNat * 16 + l.spare.toNat * 8 +
      l.width.toNat
  else if off = 8 then l.txctr.toNat
  else if off = 0x10 then (if secure then l.keyaddr.toNat else 0)
  else if off = 0x18 then l.rxPend.toNat * 4 + l.txPend.toNat * 2
  else 0

/-- The bytes of a violation log entry (R391). -/
def violationBytes (v : Violation) : List Byte :=
  leBytes 8 v.pa ++ leBytes 1 v.source ++ leBytes 1 v.index ++ leBytes 2 v.fpid.toNat ++ leBytes 1 v.access ++ leBytes 3 0 ++
    leBytes 8 v.time.toNat ++ leBytes 8 0

/-- A register of a die block (R402); what it holds that is secure reads as zero without the secure world. -/
def Die.word (x : Die) (secure : Bool) (off : Nat) : Nat :=
  if off = 0 then x.harvested.toNat * 8 + x.inService.toNat * 4 + x.uncRst.toNat * 2 + x.coreRst.toNat
  else if off = 8 then x.qresult.toNat * 2 ^ 10 + x.qdone.toNat * 2 ^ 9 + x.qgo.toNat * 2 ^ 8 + x.qcore.toNat
  else if 0x1000 ≤ off ∧ off < 0x5000 then
    let e := x.ctx ((off - 0x1000) / 0x40)
    if e.sec && !secure then 0 else (e.word (off % 0x40 / 8)).toNat
  else if 0x10000 ≤ off ∧ off < 0x20000 then
    let p := x.port ((off - 0x10000) / 0x1000)
    if off % 0x1000 = 0 then p.flcmd.toNat else if off % 0x1000 = 8 then p.flarg.toNat
    else if off % 0x1000 = 0x10 then p.flres.toNat * 16 else 0
  else if 0x20000 ≤ off ∧ off < 0x28000 then
    ((x.port ((off - 0x20000) / 0x800)).qtt.getD (off % 0x800 / 8) 0).toNat
  else if 0x30000 ≤ off ∧ off < 0x30080 then recField x.stage.image (off - 0x30000) 8
  else if off = 0x30080 then x.stage.go.toNat * 2 ^ 63 + x.stage.ctx.toNat
  else if off = 0x30088 then x.stage.seq.toNat * 2 ^ 32 + x.stage.code.toNat * 16
  else if off = 0x40000 then x.ring.base.toNat * 4096 + x.ring.size.toNat
  else if off = 0x40008 then x.ring.head.toNat
  else if off = 0x40010 then x.ring.tail.toNat
  else if off = 0x40018 then x.ring.drop.toNat
  else if off = 0x40020 then x.ring.enable.toNat
  else if secure = false then 0
  else if 0x50000 ≤ off ∧ off < 0x50400 then
    let w := x.descs.getD ((off - 0x50000) / 16) (0, 0)
    if off % 16 = 0 then w.1.toNat else w.2.toNat
  else if off = 0x51000 then x.worldBits.toNat % 2 ^ 64
  else if off = 0x51008 then x.worldBits.toNat / 2 ^ 64
  else if 0x60000 ≤ off ∧ off < 0x60800 then
    match x.log[(off - 0x60000) / 32]? with
    | some v => recField (violationBytes v) (off % 32) 8
    | none => 0
  else if off = 0x60800 then x.logLost
  else 0

/-- What a host read of eight bytes in window G returns; none is an error completion (R401). It changes nothing. -/
def State.readG (s : State) (secure : Bool) (off : Nat) : Option Nat :=
  if off % 8 ≠ 0 then some 0
  else if off = 0 then some s.pkgid.toNat
  else if off = 0x10000 then some s.firmware.fwaddr.toNat
  else if off = 0x10008 then some s.firmware.fwlen.toNat
  else if off = 0x10010 then some s.firmware.load.toNat
  else if off = 0x10018 then some s.firmware.fwstat.toNat
  else if s.firmware.fwstat ≠ 1 then some 0
  else if 0x20000 ≤ off ∧ off < 0x20000 + 8 * 28 then
    some ((s.contrails.getD ((off - 0x20000) / 8) {}).word ((off - 0x20000) / 8))
  else if 0x80000 ≤ off ∧ off < 0x88000 then some (s.routes.getD ((off - 0x80000) / 8) 0).toNat
  else if 0x100000 ≤ off ∧ off < 0x140000 then some ((s.link ((off - 0x100000) / 0x1000)).word (off % 0x1000) secure)
  else if off = 0x200000 then some s.modcap.toNat
  else if off = 0x200008 then some s.junction.toNat
  else if 0x200100 ≤ off ∧ off < 0x200100 + 8 * 44 then some (s.islandPower.getD ((off - 0x200100) / 8) 0).toNat
  else if 0x1000000 ≤ off ∧ off < 0x3000000 then
    if s.absentAt false off then none
    else some ((s.die ((off - 0x1000000) / 0x400000)).word secure ((off - 0x1000000) % 0x400000))
  else some 0

end Sys2Proof.Machine
end

