-- ==== Sys2Proof/Machine/Dispatch.lean ====
section
/-! DEFINITION. The meaning of every instruction and event: one arm per constructor. -/

namespace Sys2Proof.Machine

def exec (i : Instr) (s : State) : Host.Outcome State Fault Refusal :=
  match i with
  | .nop => Sys2Proof.Machine.execNop s
  | .illegalWord w => Sys2Proof.Machine.execIllegalWord w s
  | .brc p neg disp => Sys2Proof.Machine.execBrc p neg disp s
  | .jmp disp => Sys2Proof.Machine.execJmp disp s
  | .call disp => Sys2Proof.Machine.execCall disp s
  | .jmpr v => Sys2Proof.Machine.execJmpr v s
  | .callr v => Sys2Proof.Machine.execCallr v s
  | .ret => Sys2Proof.Machine.execRet s
  | .rcv disp => Sys2Proof.Machine.execRcv disp s
  | .join => Sys2Proof.Machine.execJoin s
  | .brk depth disp => Sys2Proof.Machine.execBrk depth disp s
  | .exit => Sys2Proof.Machine.execExit s
  | .yield => Sys2Proof.Machine.execYield s
  | .pand o => Sys2Proof.Machine.execPand o s
  | .por o => Sys2Proof.Machine.execPor o s
  | .pxor o => Sys2Proof.Machine.execPxor o s
  | .pandn o => Sys2Proof.Machine.execPandn o s
  | .pnot d a => Sys2Proof.Machine.execPnot d a s
  | .pmov d a => Sys2Proof.Machine.execPmov d a s
  | .voteAll d p => Sys2Proof.Machine.execVoteAll d p s
  | .voteAny d p => Sys2Proof.Machine.execVoteAny d p s
  | .voteBal d p => Sys2Proof.Machine.execVoteBal d p s
  | .trap code => Sys2Proof.Machine.execTrap code s
  | .eret => Sys2Proof.Machine.execEret s
  | .halt => Sys2Proof.Machine.execHalt s
  | .rdspr d r => Sys2Proof.Machine.execRdspr d r s
  | .wrspr d r => Sys2Proof.Machine.execWrspr d r s
  | .tlbinv a b => Sys2Proof.Machine.execTlbinv a b s
  | .csave d a => Sys2Proof.Machine.execCsave d a s
  | .crst o => Sys2Proof.Machine.execCrst o s
  | .world o => Sys2Proof.Machine.execWorld o s
  | .rdseed r => Sys2Proof.Machine.execRdseed r s
  | .wrseed r => Sys2Proof.Machine.execWrseed r s
  | .rdtag v r => Sys2Proof.Machine.execRdtag v r s
  | .hprm wx wr wb x r b => Sys2Proof.Machine.execHprm wx wr wb x r b s
  | .himm payload => Sys2Proof.Machine.execHimm payload s
  | .hyld => Sys2Proof.Machine.execHyld s
  | .hstl n => Sys2Proof.Machine.execHstl n s
  | .hcache na l2 l1 => Sys2Proof.Machine.execHcache na l2 l1 s
  | .hpred neg p => Sys2Proof.Machine.execHpred neg p s
  | .sadd o => Sys2Proof.Machine.execSadd o s
  | .ssub o => Sys2Proof.Machine.execSsub o s
  | .smul o => Sys2Proof.Machine.execSmul o s
  | .smulh o => Sys2Proof.Machine.execSmulh o s
  | .smulhu o => Sys2Proof.Machine.execSmulhu o s
  | .sand o => Sys2Proof.Machine.execSand o s
  | .sor o => Sys2Proof.Machine.execSor o s
  | .sxor o => Sys2Proof.Machine.execSxor o s
  | .sshl o => Sys2Proof.Machine.execSshl o s
  | .sshr o => Sys2Proof.Machine.execSshr o s
  | .ssra o => Sys2Proof.Machine.execSsra o s
  | .smin o => Sys2Proof.Machine.execSmin o s
  | .smax o => Sys2Proof.Machine.execSmax o s
  | .sminu o => Sys2Proof.Machine.execSminu o s
  | .sslt o => Sys2Proof.Machine.execSslt o s
  | .ssltu o => Sys2Proof.Machine.execSsltu o s
  | .saddi d imm => Sys2Proof.Machine.execSaddi d imm s
  | .smuli d imm => Sys2Proof.Machine.execSmuli d imm s
  | .sandi d imm => Sys2Proof.Machine.execSandi d imm s
  | .sori d imm => Sys2Proof.Machine.execSori d imm s
  | .sxori d imm => Sys2Proof.Machine.execSxori d imm s
  | .sshli d imm => Sys2Proof.Machine.execSshli d imm s
  | .sshri d imm => Sys2Proof.Machine.execSshri d imm s
  | .ssrai d imm => Sys2Proof.Machine.execSsrai d imm s
  | .sslti d imm => Sys2Proof.Machine.execSslti d imm s
  | .ssltui d imm => Sys2Proof.Machine.execSsltui d imm s
  | .sldiH d h imm => Sys2Proof.Machine.execSldiH d h imm s
  | .sldi d imm => Sys2Proof.Machine.execSldi d imm s
  | .s2v v r => Sys2Proof.Machine.execS2v v r s
  | .v2s v r lane => Sys2Proof.Machine.execV2s v r lane s
  | .sld d a stream word => Sys2Proof.Machine.execSld d a stream word s
  | .sst d a stream word => Sys2Proof.Machine.execSst d a stream word s
  | .iadd o t => Sys2Proof.Machine.execIadd o t s
  | .isub o t => Sys2Proof.Machine.execIsub o t s
  | .imul o t => Sys2Proof.Machine.execImul o t s
  | .imulh o t => Sys2Proof.Machine.execImulh o t s
  | .imad o => Sys2Proof.Machine.execImad o s
  | .imin o t => Sys2Proof.Machine.execImin o t s
  | .imax o t => Sys2Proof.Machine.execImax o t s
  | .iabs o w => Sys2Proof.Machine.execIabs o w s
  | .ineg o w => Sys2Proof.Machine.execIneg o w s
  | .and o => Sys2Proof.Machine.execAnd o s
  | .or o => Sys2Proof.Machine.execOr o s
  | .xor o => Sys2Proof.Machine.execXor o s
  | .not o => Sys2Proof.Machine.execNot o s
  | .shl o w => Sys2Proof.Machine.execShl o w s
  | .shr o w => Sys2Proof.Machine.execShr o w s
  | .sra o w => Sys2Proof.Machine.execSra o w s
  | .rot o w => Sys2Proof.Machine.execRot o w s
  | .popc o => Sys2Proof.Machine.execPopc o s
  | .clz o => Sys2Proof.Machine.execClz o s
  | .ctz o => Sys2Proof.Machine.execCtz o s
  | .brev o => Sys2Proof.Machine.execBrev o s
  | .iset c o t => Sys2Proof.Machine.execIset c o t s
  | .sel dst a b pa p neg => Sys2Proof.Machine.execSel dst a b pa p neg s
  | .mov o => Sys2Proof.Machine.execMov o s
  | .movi d t imm => Sys2Proof.Machine.execMovi d t imm s
  | .iaddi d t imm => Sys2Proof.Machine.execIaddi d t imm s
  | .imuli d t imm => Sys2Proof.Machine.execImuli d t imm s
  | .andi d imm => Sys2Proof.Machine.execAndi d imm s
  | .ori d imm => Sys2Proof.Machine.execOri d imm s
  | .xori d imm => Sys2Proof.Machine.execXori d imm s
  | .laneid dst => Sys2Proof.Machine.execLaneid dst s
  | .affine o => Sys2Proof.Machine.execAffine o s
  | .shfl o m => Sys2Proof.Machine.execShfl o m s
  | .fadd o t => Sys2Proof.Machine.execFadd o t s
  | .fsub o t => Sys2Proof.Machine.execFsub o t s
  | .fmul o t => Sys2Proof.Machine.execFmul o t s
  | .ffma o => Sys2Proof.Machine.execFfma o s
  | .fmin o t => Sys2Proof.Machine.execFmin o t s
  | .fmax o t => Sys2Proof.Machine.execFmax o t s
  | .fset c o t => Sys2Proof.Machine.execFset c o t s
  | .fabs o t => Sys2Proof.Machine.execFabs o t s
  | .fneg o t => Sys2Proof.Machine.execFneg o t s
  | .fsqrt o => Sys2Proof.Machine.execFsqrt o s
  | .frsq o => Sys2Proof.Machine.execFrsq o s
  | .frcp o => Sys2Proof.Machine.execFrcp o s
  | .fexp2 o => Sys2Proof.Machine.execFexp2 o s
  | .flog2 o => Sys2Proof.Machine.execFlog2 o s
  | .fsin o => Sys2Proof.Machine.execFsin o s
  | .fcos o => Sys2Proof.Machine.execFcos o s
  | .ftanh o => Sys2Proof.Machine.execFtanh o s
  | .ffloor o => Sys2Proof.Machine.execFfloor o s
  | .fceil o => Sys2Proof.Machine.execFceil o s
  | .ftrunc o => Sys2Proof.Machine.execFtrunc o s
  | .frint o => Sys2Proof.Machine.execFrint o s
  | .fcvt o dstF srcF r sat => Sys2Proof.Machine.execFcvt o dstF srcF r sat s
  | .fscale o t => Sys2Proof.Machine.execFscale o t s
  | .fpack o t => Sys2Proof.Machine.execFpack o t s
  | .funpk o code => Sys2Proof.Machine.execFunpk o code s
  | .faddi d t imm => Sys2Proof.Machine.execFaddi d t imm s
  | .fmuli d t imm => Sys2Proof.Machine.execFmuli d t imm s
  | .dot2 o => Sys2Proof.Machine.execDot2 o s
  | .ld o => Sys2Proof.Machine.execLd o s
  | .st o => Sys2Proof.Machine.execSt o s
  | .lds o => Sys2Proof.Machine.execLds o s
  | .sts o => Sys2Proof.Machine.execSts o s
  | .atom o => Sys2Proof.Machine.execAtom o s
  | .atoms o => Sys2Proof.Machine.execAtoms o s
  | .fence c => Sys2Proof.Machine.execFence c s
  | .fenceX c m => Sys2Proof.Machine.execFenceX c m s
  | .fenceAcq c => Sys2Proof.Machine.execFenceAcq c s
  | .fenceRel c => Sys2Proof.Machine.execFenceRel c s
  | .pref toL2 r v => Sys2Proof.Machine.execPref toL2 r v s
  | .cpy d r v dir size => Sys2Proof.Machine.execCpy d r v dir size s
  | .cpyt o s2h => Sys2Proof.Machine.execCpyt o s2h s
  | .cpyx o => Sys2Proof.Machine.execCpyx o s
  | .cpym o => Sys2Proof.Machine.execCpym o s
  | .mcdrain o => Sys2Proof.Machine.execMcdrain o s
  | .cpyw o nb => Sys2Proof.Machine.execCpyw o nb s
  | .bari o => Sys2Proof.Machine.execBari o s
  | .barw r => Sys2Proof.Machine.execBarw r s
  | .cjoin o => Sys2Proof.Machine.execCjoin o s
  | .cleave r => Sys2Proof.Machine.execCleave r s
  | .cbar o => Sys2Proof.Machine.execCbar o s
  | .pbar o => Sys2Proof.Machine.execPbar o s
  | .pwait o => Sys2Proof.Machine.execPwait o s
  | .fres o poison => Sys2Proof.Machine.execFres o poison s
  | .fwait o => Sys2Proof.Machine.execFwait o s
  | .ftest o => Sys2Proof.Machine.execFtest o s
  | .spawn o => Sys2Proof.Machine.execSpawn o s
  | .take o => Sys2Proof.Machine.execTake o s
  | .steal o => Sys2Proof.Machine.execSteal o s
  | .done o => Sys2Proof.Machine.execDone o s
  | .gmax r w => Sys2Proof.Machine.execGmax r w s
  | .gmin r w => Sys2Proof.Machine.execGmin r w s
  | .grd r w => Sys2Proof.Machine.execGrd r w s
  | .gwait r w => Sys2Proof.Machine.execGwait r w s
  | .sleep r => Sys2Proof.Machine.execSleep r s
  | .rdclk r => Sys2Proof.Machine.execRdclk r s
  | .rdts r => Sys2Proof.Machine.execRdts r s
  | .mtask o => Sys2Proof.Machine.execMtask o s
  | .mfence => Sys2Proof.Machine.execMfence s
  | .mdrain o f r sat => Sys2Proof.Machine.execMdrain o f r sat s
  | .wpin o => Sys2Proof.Machine.execWpin o s
  | .wevict o nb => Sys2Proof.Machine.execWevict o nb s
  | .marrive o => Sys2Proof.Machine.execMarrive o s
  | .mqcfg r => Sys2Proof.Machine.execMqcfg r s
  | .mzero r => Sys2Proof.Machine.execMzero r s
  | .mstatRead r => Sys2Proof.Machine.execMstatRead r s
  | .mstatClr r => Sys2Proof.Machine.execMstatClr r s
  | .ldecl o t larger => Sys2Proof.Machine.execLdecl o t larger s
  | .lins o v t => Sys2Proof.Machine.execLins o v t s
  | .lmerge o => Sys2Proof.Machine.execLmerge o s
  | .lread o => Sys2Proof.Machine.execLread o s
  | .lthr p r v => Sys2Proof.Machine.execLthr p r v s
  | .lclr r => Sys2Proof.Machine.execLclr r s
  | .qbind a r => Sys2Proof.Machine.execQbind a r s
  | .qrsv o => Sys2Proof.Machine.execQrsv o s
  | .qput o v => Sys2Proof.Machine.execQput o v s
  | .qenq o => Sys2Proof.Machine.execQenq o s
  | .qdeq o => Sys2Proof.Machine.execQdeq o s
  | .qtry o => Sys2Proof.Machine.execQtry o s
  | .qalw a r => Sys2Proof.Machine.execQalw a r s
  | .qinv r => Sys2Proof.Machine.execQinv r s
  | .qstat o => Sys2Proof.Machine.execQstat o s
  | .bral a c disp => Sys2Proof.Machine.execBral a c disp s
  | .launch o => Sys2Proof.Machine.execLaunch o s
  | .cmbi o => Sys2Proof.Machine.execCmbi o s
  | .cmbw o => Sys2Proof.Machine.execCmbw o s
  | .ageingSwap sid cord => Sys2Proof.Machine.execAgeingSwap sid cord s
  | .hstlExpire sid cord slot => Sys2Proof.Machine.execHstlExpire sid cord slot s
  | .sleepExpire sid cord slot => Sys2Proof.Machine.execSleepExpire sid cord slot s
  | .futureResolve id => Sys2Proof.Machine.execFutureResolve id s
  | .futureWake id => Sys2Proof.Machine.execFutureWake id s
  | .pbarBankStep id => Sys2Proof.Machine.execPbarBankStep id s
  | .dequeStep id => Sys2Proof.Machine.execDequeStep id s
  | .memAccessComplete id => Sys2Proof.Machine.execMemAccessComplete id s
  | .tlbWalkDone die ctx va => Sys2Proof.Machine.execTlbWalkDone die ctx va s
  | .copyDone id => Sys2Proof.Machine.execCopyDone id s
  | .cpyxBeatArrive id => Sys2Proof.Machine.execCpyxBeatArrive id s
  | .shareWaitTimeout id core => Sys2Proof.Machine.execShareWaitTimeout id core s
  | .cpymPark id => Sys2Proof.Machine.execCpymPark id s
  | .mcdrainMatch id => Sys2Proof.Machine.execMcdrainMatch id s
  | .cpywClaimGrant id => Sys2Proof.Machine.execCpywClaimGrant id s
  | .cpywFillDone id => Sys2Proof.Machine.execCpywFillDone id s
  | .wevictClaimGrant id => Sys2Proof.Machine.execWevictClaimGrant id s
  | .taskPick core => Sys2Proof.Machine.execTaskPick core s
  | .taskComplete core => Sys2Proof.Machine.execTaskComplete core s
  | .taskSkip core seq => Sys2Proof.Machine.execTaskSkip core seq s
  | .pickerReeval core => Sys2Proof.Machine.execPickerReeval core s
  | .depPoll core seq => Sys2Proof.Machine.execDepPoll core seq s
  | .taskBackingRefill core low => Sys2Proof.Machine.execTaskBackingRefill core low s
  | .mdrainDone id => Sys2Proof.Machine.execMdrainDone id s
  | .listInsert core => Sys2Proof.Machine.execListInsert core s
  | .listOpPerform core => Sys2Proof.Machine.execListOpPerform core s
  | .creditRequestArrive id => Sys2Proof.Machine.execCreditRequestArrive id s
  | .creditGrant die port => Sys2Proof.Machine.execCreditGrant die port s
  | .creditGrantArrive id => Sys2Proof.Machine.execCreditGrantArrive id s
  | .creditRetry die entry => Sys2Proof.Machine.execCreditRetry die entry s
  | .reservationArrive id => Sys2Proof.Machine.execReservationArrive id s
  | .reservationTimeout sid cord slot => Sys2Proof.Machine.execReservationTimeout sid cord slot s
  | .elementStore id => Sys2Proof.Machine.execElementStore id s
  | .spillRefillDone die port qid => Sys2Proof.Machine.execSpillRefillDone die port qid s
  | .headDeliver die port qid => Sys2Proof.Machine.execHeadDeliver die port qid s
  | .routeCapChange die entry cap => Sys2Proof.Machine.execRouteCapChange die entry cap s
  | .remoteErrorReport id => Sys2Proof.Machine.execRemoteErrorReport id s
  | .combineStep id => Sys2Proof.Machine.execCombineStep id s
  | .hostMemAccess write secure addr data => Sys2Proof.Machine.execHostMemAccess write secure addr data s
  | .registerWrite secure off value => Sys2Proof.Machine.execRegisterWrite secure off value s
  | .flumeCreate die port => Sys2Proof.Machine.execFlumeCreate die port s
  | .flumeDestroy die port => Sys2Proof.Machine.execFlumeDestroy die port s
  | .flumeForcedDestroy die port => Sys2Proof.Machine.execFlumeForcedDestroy die port s
  | .flcmdInvalid die port cmd => Sys2Proof.Machine.execFlcmdInvalid die port cmd s
  | .hostLaunchSubmit die ctx => Sys2Proof.Machine.execHostLaunchSubmit die ctx s
  | .hostLaunchStore die => Sys2Proof.Machine.execHostLaunchStore die s
  | .launchRecordStore id => Sys2Proof.Machine.execLaunchRecordStore id s
  | .launchCapture die => Sys2Proof.Machine.execLaunchCapture die s
  | .standPlace die => Sys2Proof.Machine.execStandPlace die s
  | .standGangStart sid => Sys2Proof.Machine.execStandGangStart sid s
  | .standEnd sid => Sys2Proof.Machine.execStandEnd sid s
  | .granuleClearDone core => Sys2Proof.Machine.execGranuleClearDone core s
  | .regfileRelease sid cord => Sys2Proof.Machine.execRegfileRelease sid cord s
  | .preemptCheck die => Sys2Proof.Machine.execPreemptCheck die s
  | .swapoutSave sid => Sys2Proof.Machine.execSwapoutSave sid s
  | .saveWriteDone sid => Sys2Proof.Machine.execSaveWriteDone sid s
  | .standRestore die => Sys2Proof.Machine.execStandRestore die s
  | .eventPost die => Sys2Proof.Machine.execEventPost die s
  | .contrailWantWrite index want => Sys2Proof.Machine.execContrailWantWrite index want s
  | .contrailChangeDone index => Sys2Proof.Machine.execContrailChangeDone index s
  | .keyInstall port => Sys2Proof.Machine.execKeyInstall port s
  | .packetSend port => Sys2Proof.Machine.execPacketSend port s
  | .keySwitch port => Sys2Proof.Machine.execKeySwitch port s
  | .flitReceive port good => Sys2Proof.Machine.execFlitReceive port good s
  | .laneFail port lane => Sys2Proof.Machine.execLaneFail port lane s
  | .linkRetrainDone port => Sys2Proof.Machine.execLinkRetrainDone port s
  | .coreReset die => Sys2Proof.Machine.execCoreReset die s
  | .uncoreReset die => Sys2Proof.Machine.execUncoreReset die s
  | .packageReset => Sys2Proof.Machine.execPackageReset s
  | .bistDone domain => Sys2Proof.Machine.execBistDone domain s
  | .qcoreGo die core => Sys2Proof.Machine.execQcoreGo die core s
  | .qcoreReturn die => Sys2Proof.Machine.execQcoreReturn die s
  | .firmwareLoad => Sys2Proof.Machine.execFirmwareLoad s
  | .attestationRequest nonce => Sys2Proof.Machine.execAttestationRequest nonce s
  | .clockThrottle island mhz => Sys2Proof.Machine.execClockThrottle island mhz s
  | .storeAcknowledge id => Sys2Proof.Machine.execStoreAcknowledge id s
  | .flumeReplyArrive id => Sys2Proof.Machine.execFlumeReplyArrive id s
  | .uncorrectableSoftError die x => Sys2Proof.Machine.execUncorrectableSoftError die x s

end Sys2Proof.Machine
end

