-- ==== Sys2Proof/Machine/Ready.lean ====
section
/-! DEFINITION. What may happen next: the events of the device that are enabled, and the path that each quadrant's
issuer picks (05_control.md R136 to R138). -/

namespace Sys2Proof.Machine

/-! ### Instructions that wait before they issue -/

/-- An instruction of the focused path waits for room, or for accesses ordered before it. Its meaning leaves the path
where it stands in the same cases. -/
def holdsBack (i : Instr) (s : State) (f : Focus) : Bool :=
  (opndsOf i).marked f || ((opndsOf i).skidder && skidFull s f) ||
    match i with
    | .fence _ | .fenceX _ _ | .fenceAcq _ | .fenceRel _ => fenceWaits i s f
    | .tlbinv _ _ | .csave _ _ | .crst _ | .world _ => systemHeld s f
    | .mfence | .marrive _ => fenceHeld s f
    | .lds o | .sts o => spHeld s f o.stream (match i with | .sts _ => o.ordered | _ => false)
    | .atoms o => spHeld s f o.stream false
    | .bari _ | .barw _ | .pwait _ => pbarPending s f
    | .fwait o | .ftest o =>
      match futureAddr s f .read o.s with
      | (_, .ok pa) => futureHeld s f (hAddr f.stand.die pa)
      | _ => false
    | .cbar _ | .gmax _ _ | .gmin _ _ => releaseHeld s f
    | .lins o v _ => linsHeld s f o v
    | .qbind a r =>
      decide (nbits (f.cord.sreg r).toNat 63 63 = 0) && decide (f.cord.allow.getD a.toNat none = none) &&
        decide (32768 ≤ (s.die f.stand.die).bindings.length)
    | _ => false

/-! ### The issuers (R136) -/

/-- A live path of a quadrant, as its issuer sees it. -/
structure Slot where
  stand : Stand
  cord : Cord
  path : Path
  slotB : Bool

/-- Live paths of a quadrant of a core. -/
def State.slotsOf (s : State) (d c q : Nat) : List Slot :=
  (s.stands.filter fun st => st.die = d ∧ st.core = c).flatMap fun st =>
    (st.cords.filter fun x => x.quad = q).flatMap fun x =>
      (x.slotA.toList.map fun p => ⟨st, x, p, false⟩) ++ x.slotB.toList.map fun p => ⟨st, x, p, true⟩

/-- Cord-slot number of a path in its quadrant: 2 × cord slot, plus 1 for PC slot B. -/
def Slot.number (x : Slot) : Nat := 2 * x.cord.cslot + x.slotB.toNat

/-- Its stand lets a path issue: while it runs, and while it stops to the end of a group that has begun (R379). -/
def State.allowed (s : State) (x : Slot) : Bool :=
  match x.stand.phase with
  | .running => true
  | .stopping _ _ _ _ => s.inGroup x.stand x.path
  | _ => false

/-- A path is ready (R136). A word that cannot be fetched is ready to fault. -/
def State.ready (s : State) (x : Slot) : Bool :=
  x.path.wait.isNone && x.path.stall.isNone && s.allowed x &&
    let t := s.focusOn x.stand.sid x.cord.id x.slotB
    match t.focus, s.peekWord x.stand x.path.pc with
    | some f, some i => !holdsBack i t f
    | _, _ => true

/-- Cycle in which a cord-slot issued last. -/
def Slot.last (x : Slot) : Nat := if x.slotB then x.cord.lastB else x.cord.lastA

/-- Cycle from which a cord-slot waits. -/
def Slot.since (x : Slot) : Nat := max x.last (max x.path.stallEnd x.path.liveSince)

/-- Places after the cord-slot that issued last, in round-robin order. -/
def turnsAfter (last : Option Nat) (n : Nat) : Nat :=
  match last with
  | some k => (n + 63 - k) % 64
  | none => n

/-- The issuer takes a rather than b: the longer wait, then the turn (rules 2 and 3 of R136). -/
def Slot.before (last : Option Nat) (a b : Slot) : Bool :=
  decide (a.since < b.since) ||
    (decide (a.since = b.since) && decide (turnsAfter last a.number < turnsAfter last b.number))

/-- The first of some cord-slots by rules 2 and 3 of R136. -/
def firstOf (last : Option Nat) (xs : List Slot) : Option Slot :=
  xs.foldl (fun b x =>
    match b with
    | some y => if x.before last y then some x else b
    | none => some x) none

/-- The pick among ready cord-slots of one priority: a path that has executed HYLD stands behind every one that has not
issued since, and goes before any of them issues twice (R62, R136). -/
def pickReady (last : Option Nat) (xs : List Slot) : Option Slot :=
  match firstOf last (xs.filter fun x => x.path.yielded) with
  | none => firstOf last xs
  | some y =>
    match firstOf last (xs.filter fun x => !x.path.yielded && decide (x.last ≤ y.last)) with
    | some x => some x
    | none => some y

/-- The ready cord-slots of the highest priority among them (rule 1 of R136). -/
def topReady (xs : List Slot) : List Slot :=
  xs.filter fun x => xs.all fun y => decide (y.stand.prio ≤ x.stand.prio)

/-- The path that a quadrant issues: the one whose group has begun, or the best of the ready ones. -/
def State.pick (s : State) (d c q : Nat) : Option Slot :=
  let xs := s.slotsOf d c q
  match xs.find? fun x => s.inGroup x.stand x.path with
  | some x => if s.ready x then some x else none
  | none => pickReady ((s.core d c).lastIssue.getD q none) (topReady (xs.filter s.ready))

/-- Quadrants that hold a cord: die, core, quadrant. -/
def State.quadrants (s : State) : List (Nat × Nat × Nat) :=
  (s.stands.flatMap fun st => st.cords.map fun x => (st.die, st.core, x.quad)).dedup

/-- The instruction that a path executes next, where its address translates. -/
def State.nextInstr (s : State) (x : Slot) : Option Instr := s.peekWord x.stand x.path.pc

/-- The uniform pipe, and the list filter, serve a quadrant's instruction (R16, R91, R299). -/
def usesPipe (i : Instr) : Bool := (opndsOf i).uniform
def usesFilter : Instr → Bool
  | .lins _ _ _ => true
  | _ => false

/-- Quadrant k comes before another in the order that starts after the one served last (R16). -/
def quadBefore (last k q : Nat) : Bool := decide ((k + 7 - last) % 4 < (q + 7 - last) % 4)

/-- A quadrant's pick is turned away by the uniform pipe or the list filter, which serves another's first (R16, R299). -/
def State.turnedAway (s : State) (xs : List Slot) (x : Slot) : Bool :=
  let k := s.core x.stand.die x.stand.core
  let loses (uses : Instr → Bool) (last : Nat) : Bool :=
    (s.nextInstr x).any uses && xs.any fun y =>
      decide (y.stand.die = x.stand.die) && decide (y.stand.core = x.stand.core) && (s.nextInstr y).any uses &&
        quadBefore last y.cord.quad x.cord.quad
  loses usesPipe k.lastPipe || loses usesFilter k.lastFilter

/-- What every quadrant issues: its pick, unless that is turned away. -/
def State.picks (s : State) : List Slot :=
  let xs := s.quadrants.filterMap fun x => s.pick x.1 x.2.1 x.2.2
  xs.filter fun x => !s.turnedAway xs x

/-! ### Enabled events -/

/-- A move of the machine: a request from outside, an event of the device, or an issue. The events of a flume port's
command, of a self-test's end, of a quiesced core, of a contrail, of a link's training, of a page walk and of an island's
clock stand under names of their own. -/
inductive Move
  | input (i : Instr)
  | event (i : Instr)
  | command (die port : Nat)
  | tested (domain : Nat)
  | coreBack (die : Nat)
  | contrail (index : Nat)
  | trained (port : Nat)
  | walked (die ctx va : Nat)
  | clock (island mhz : Nat)
  | issue (sid cord : Nat) (slotB : Bool)
  deriving DecidableEq, Repr

/-- A part of an access may be performed. -/
def State.accessReady (s : State) (id : Nat) (a : Access) : Bool :=
  a.parts.any (s.partReady id a)

/-- Route of a piece of work that goes to a home port. -/
def State.routeOfWork (s : State) (i : Item) : Option Route :=
  match i.work with
  | .creditReq r => some (s.routeOf r.die r.bid r.qid i.id)
  | .reserve _ d b q _ _ _ _ | .put _ d b q _ => some (s.routeOf d b q i.id)
  | .stat t q _ => some (s.route (s.originOf t).die (s.tableRoute q) 0 q i.id)
  | _ => none

/-- A piece of work cannot travel now: it goes to another package, or its contrail is changing (R406, R408). -/
def State.stopped (s : State) (i : Item) : Bool :=
  ((s.routeOfWork i).any fun r => match r with
    | .held | .away _ _ => true
    | _ => false) ||
    (match i.work with
      | .launchRec t d _ => s.crossing (s.originOf t).die d i.id
      | .creditGrant .. | .reply .. | .remoteError .. => (s.travels i.work).any fun x => s.crossing x.1 x.2 i.id
      | _ => false)

/-- A piece of work waits for work before it: that of its binding or cord (R318), or what it follows (R31, R192, R193). -/
def State.outOfTurn (s : State) (i : Item) : Bool :=
  let after (t : Dest) : Bool := s.unreleased i.id t.sid t.cord t.mask
  match i.work with
  | .creditReq r => !s.flumeFirst i.id r.bid
  | .reserve _ _ b _ _ _ _ _ => !s.flumeFirst i.id b
  | .put t _ b _ _ => !s.flumeFirst i.id b || after t
  | .copy _ _ _ (.drain _ _) | .copy _ _ _ (.evict _ _) => false
  | .copy t _ _ _ | .combineInit t _ _ | .combine t _ _ _ _ _ _ | .launchRec t _ _ => after t
  | .pbar t _ _ => s.pbarWaits i.id t
  | .resolve o _ _ _ _ => o.dest.any after || s.anyAccess o.after
  | .deque t (.spawn _ _) | .deque t (.done _ _) => s.dequeBefore i.id t || after t
  | .deque t _ => s.dequeBefore i.id t
  | _ => false

/-- The event that moves a copy's data, or what it waits for has come. -/
def State.copyEvent (s : State) (i : Item) (t : Dest) (d c : Nat) (k : CopyKind) : Option Instr :=
  match k with
  | .lanes _ _ _ | .tensor _ _ => some (.copyDone i.id)
  | .cross _ _ _ n _ sent x =>
    match x with
    | .waiting e => if e ≤ s.clock then some (.shareWaitTimeout i.id c) else none
    | .opened _ => if n ≤ sent then some (.copyDone i.id) else some (.cpyxBeatArrive i.id)
    | _ => some (.cpyxBeatArrive i.id)
  | .park _ _ _ _ => some (.cpymPark i.id)
  | .parked slot =>
    match (s.grove d (c / 8)).hold.getD slot none with
    | some h =>
      if h.shares.isEmpty then some (.copyDone i.id)
      else h.shares.findSome? fun x => match x with
        | .waiting k e => if e ≤ s.clock then some (.shareWaitTimeout i.id k) else none
        | _ => none
    | none => some (.copyDone i.id)
  | .drain tag _ =>
    match s.stand? t.sid with
    | some st => if (s.openShare d c st.tract tag).isSome && !st.phase.isSaving then some (.mcdrainMatch i.id) else none
    | none => none
  | .weight slot _ _ seq granted =>
    if granted then some (.cpywFillDone i.id)
    else if s.grantable d c slot seq i.id then some (.cpywClaimGrant i.id) else none
  | .evict slot seq => if s.grantable d c slot seq i.id then some (.wevictClaimGrant i.id) else none

/-- A copy has data that it may start to move now. -/
def State.mayStart (s : State) (i : Item) : Bool :=
  i.held.isNone && !s.outOfTurn i &&
    match i.work with
    | .copy _ _ _ (.lanes _ _ _) | .copy _ _ _ (.tensor _ _) => true
    | .copy _ _ _ (.cross _ _ _ _ _ sent (.opened _)) => decide (sent = 0)
    | .copy _ d c (.park _ _ _ mask) => decide (mask = 0) || (s.freeHold d c).isSome
    | .copy t d c (.drain tag _) =>
      (s.stand? t.sid).any fun st => !st.phase.isSaving && (s.openShare d c st.tract tag).isSome
    | .copy _ _ _ (.weight _ _ _ _ granted) => granted
    | _ => false

/-- A copy takes its core's port of the grove's crossbar (R15). -/
def CopyKind.crosses : CopyKind → Bool
  | .cross _ _ _ _ _ _ _ | .park _ _ _ _ | .drain _ _ => true
  | _ => false

/-- A CPYX whose stream is under way on its core's port. -/
def CopyKind.streams : CopyKind → Bool
  | .cross _ _ _ n _ sent (.opened _) => decide (0 < sent) && decide (sent < n)
  | _ => false

/-- A copy that may start stands behind another copy of its core: one accepted before it that may start, or a stream that
is under way on the port that its own would take (R223). -/
def State.streamsBehind (s : State) (i : Item) (d c : Nat) (k : CopyKind) : Bool :=
  s.mayStart i && s.works.any fun x =>
    match x.work with
    | .copy _ d' c' k' =>
      decide (d' = d) && decide (c' = c) && ((decide (x.id < i.id) && s.mayStart x) || (k.crosses && k'.streams))
    | _ => false

/-- The event that takes a piece of work further, where it has one now. -/
def State.workEvent (s : State) (i : Item) : Option Instr :=
  if i.held.isSome || s.outOfTurn i || s.stopped i then none
  else
    match i.work with
    | .access a =>
      if s.accessReady i.id a then
        some (match a.kind with
          | .store | .atomic _ false => .storeAcknowledge i.id
          | _ => .memAccessComplete i.id)
      else none
    | .copy t d c k => if s.streamsBehind i d c k then none else s.copyEvent i t d c k
    | .pin _ d c slot => if (s.claims d c slot).any fun x => x.1 < i.id then none else some (.cpywClaimGrant i.id)
    | .resolve _ _ _ _ _ | .fold _ _ _ _ => some (.futureResolve i.id)
    | .wake _ _ _ => some (.futureWake i.id)
    | .pbar _ _ _ => some (.pbarBankStep i.id)
    | .deque _ _ => some (.dequeStep i.id)
    | .combineInit _ _ _ | .combine _ _ _ _ _ _ _ => some (.combineStep i.id)
    | .drain _ _ => some (.mdrainDone i.id)
    | .creditReq _ => some (.creditRequestArrive i.id)
    | .creditGrant _ _ _ _ _ => some (.creditGrantArrive i.id)
    | .reserve _ _ _ _ _ _ _ _ => some (.reservationArrive i.id)
    | .reserveWait t bid n since _ =>
      if decide (since + 4096 ≤ s.clock) && s.dies.any fun x => (x.bound bid).any fun b => decide (n ≤ b.credit) && decide (0 < b.cap)
      then some (.reservationTimeout t.sid t.cord t.slotB.toNat) else none
    | .put _ _ _ _ _ => some (.elementStore i.id)
    | .dequeueWait _ _ _ _ => none
    | .reply _ _ _ _ | .stat _ _ _ => some (.flumeReplyArrive i.id)
    | .remoteError _ _ _ _ _ _ _ => some (.remoteErrorReport i.id)
    | .launchRec _ d _ => if (s.die d).launchRoom || !(s.die d).present then some (.launchRecordStore i.id) else none

/-- One entry where a condition holds. -/
def only {α : Type} (b : Bool) (x : α) : List α := if b then [x] else []

/-- Events of a path in its slot. -/
def State.pathEvents (s : State) (st : Stand) (c : Cord) (b : Bool) : List Instr :=
  match c.slot b with
  | none => []
  | some p =>
    match p.stall, p.wait with
    | some e, _ => only (decide (e < s.clock)) (.hstlExpire st.sid c.id b.toNat)
    | none, some (.sleep t) =>
      only (decide (t.toNat ≤ (s.clk st.die st.core).toNat)) (.sleepExpire st.sid c.id b.toNat)
    | none, _ => []

/-- The head of a cord's pending queue is due for its ageing swap (R152). -/
def State.swapDue (s : State) (st : Stand) (c : Cord) : Bool :=
  let limit := (s.core st.die st.core).agelim.toNat
  decide (st.phase = .running) && c.pending.head?.any fun p => decide (limit < p.ageAt s.clock)

/-- A live path of a cord is in a latch chain or a prefix group, for which a swap waits (R152). -/
def State.grouped (s : State) (st : Stand) (c : Cord) : Bool := (c.slotA.toList ++ c.slotB.toList).any fun p => s.inGroup st p

/-- Events of a cord. -/
def State.cordEvents (s : State) (st : Stand) (c : Cord) : List Instr :=
  List.flatten
    [only (decide (c.exited = BitVec.allOnes 32) && !c.draining && !c.released) (.regfileRelease st.sid c.id),
     only (s.swapDue st c && !s.grouped st c) (.ageingSwap st.sid c.id),
     s.pathEvents st c false, s.pathEvents st c true]

/-- The step that a stand's life takes next, where it may. -/
def State.standMove (s : State) (st : Stand) : List Instr :=
  match st.phase with
  | .placed =>
    only (s.stands.all fun x =>
        !(decide (x.tract = st.tract) && decide (x.phase = .placed) && decide (x.standId < st.standId)))
      (.standGangStart st.sid)
  | .running => only (s.standOver st) (.standEnd st.sid)
  | .stopping _ _ _ _ => only (s.swapReady st) (.swapoutSave st.sid)
  | .saving _ _ _ _ _ _ => [.saveWriteDone st.sid]

/-- Events of a stand and its cords. -/
def State.standEvents (s : State) (st : Stand) : List Instr :=
  s.standMove st ++ st.cords.flatMap (s.cordEvents st)

/-- Events of the futures that a core's tasks depend on (R273). -/
def State.depEvents (s : State) (d c : Nat) : List Instr :=
  let k := s.core d c
  let n := d * 32 + c
  let waiting := k.onChip.filter fun t => (s.stand? t.sid).any fun st =>
    decide (st.phase = .running) && !(s.unregistered st t).isEmpty
  let poisoned := k.onChip.filter fun t => (s.stand? t.sid).any fun st => (s.depPoison st t).isSome
  let reads : List Instr :=
    if k.registrations < 64 then only (!waiting.isEmpty) (.pickerReeval n) else waiting.map fun t => .depPoll n t.seq
  reads ++ poisoned.map fun t => .taskSkip n t.seq

/-- Events of a core's engines. -/
def State.coreEvents (s : State) (d c : Nat) : List Instr :=
  let k := s.core d c
  let n := d * 32 + c
  let refill (low : Bool) : List Instr :=
    only ((k.backed.find? fun b => b.task.queue1 = low).any fun b => b.held.isNone) (.taskBackingRefill n low)
  let list : List Instr := match k.insq with
    | [] => []
    | e :: _ => match e.op with
      | .insert _ _ _ => [.listInsert n]
      | _ => [.listOpPerform n]
  List.flatten
    [only (k.clearing.any fun x => decide (x.2 ≤ s.clock)) (.granuleClearDone n),
     only (k.picked.isNone && (s.choose d c).isSome) (.taskPick n),
     only k.running.isSome (.taskComplete n), s.depEvents d c, refill false, refill true, list]

/-- Events of a flume. -/
def flumeEvents (d p : Nat) (f : Flume) : List Instr :=
  List.append (only f.refillable (.spillRefillDone d p f.qid)) (only (f.ready.isSome && !f.waits.isEmpty) (.headDeliver d p f.qid))

/-- Events of a binding: a refused request goes again, and its route opens or closes. -/
def State.bindingEvents (s : State) (d : Nat) (b : Nat × Binding) : List Instr :=
  let cap := (s.routeOf d b.2.bid b.2.qid s.uid).cap
  List.append (only (b.2.retryAt.any fun t => decide (t ≤ s.clock)) (.creditRetry d b.1))
    (only (decide (cap = 0) != decide (b.2.cap = 0)) (.routeCapChange d b.1 cap))

/-- Events of a die's ports and bindings. -/
def State.portEvents (s : State) (d : Nat) : List Instr :=
  let x := s.die d
  let credits (p : Port) : Bool := p.credits.any s.servable
  let port (p : Nat × Port) : List Instr :=
    List.append (only (credits p.2) (.creditGrant d p.1)) (p.2.flumes.flatMap (flumeEvents d p.1))
  List.append (((List.range x.ports.length).zip x.ports).flatMap port) (x.bindings.flatMap (s.bindingEvents d))

/-- Events of a die's distributor. -/
def State.headEvents (s : State) (d : Nat) : List Instr :=
  match s.head d with
  | none => []
  | some t =>
    List.append
      (only (t.blocked.isNone || (s.wanted t).any fun y => s.fits y.2.2 y.1 y.2.1) (if t.reenter.isEmpty then .standPlace d else .standRestore d))
      (only (t.blocked.any fun b => decide (b + 1000 ≤ s.clock)) (.preemptCheck d))

/-- Events of a die's launch port, distributor and event ring. -/
def State.dieEvents (s : State) (d : Nat) : List Instr :=
  let x := s.die d
  List.flatten
    [only (x.stage.captured.isSome && x.launchRoom) (.hostLaunchStore d),
     only (!x.launches.isEmpty && x.available) (.launchCapture d), s.headEvents d,
     only (!x.ring.buffer.isEmpty && x.ring.room) (.eventPost d)]

/-- Commands, self-tests and repair of a die. -/
def State.dieMoves (s : State) (d : Nat) : List Move :=
  let x := s.die d
  List.flatten
    [((List.range 16).filter fun p => (x.port p).flcmd ≠ 0).map fun p => .command d p,
     only ((x.coreRst || x.uncRst) && !s.pkgRst) (.tested (if x.uncRst then 8 + d else d)),
     only (x.qrun && s.stands.all fun st => !(decide (st.die = d) && decide (st.core = x.qtarget.toNat))) (.coreBack d),
     x.walks.reverse.map fun w => .walked d w.entry.ctx w.entry.va]

/-- Events of the package. -/
def State.packageEvents (s : State) : List Instr :=
  (if s.firmware.load then [.firmwareLoad] else []) ++
  ((List.range 64).filter fun k => (s.link k).sends).map .packetSend

/-- Steps of the grove islands' clocks (R418). -/
def State.clockMoves (s : State) : List Move :=
  (List.range 40).filterMap fun n => if n % 5 = 4 then none else (s.clockTo n).map (.clock n)

/-- Every step of the device that may happen now. Before a firmware image is accepted the dies stay in reset (R416). -/
def State.events (s : State) : List Move :=
  (s.packageEvents.map .event) ++ s.clockMoves ++ (if s.pkgRst then [.tested 16] else []) ++
  (((List.range 28).filter s.changeOver).map .contrail) ++
  (((List.range 64).filter fun k => (s.link k).train).map .trained) ++
  if s.firmware.fwstat ≠ 1 then []
  else
    ((s.works.filterMap s.workEvent ++ s.stands.flatMap s.standEvents ++
      (List.range 8).flatMap fun d =>
        s.dieEvents d ++ s.portEvents d ++ (List.range 32).flatMap fun c => s.coreEvents d c).map .event) ++
      (List.range 8).flatMap s.dieMoves

/-- What comes from outside the device: the host's requests, and what the links, the clocks and the data meet. -/
def fromOutside : Instr → Bool
  | .hostMemAccess .. | .registerWrite .. | .hostLaunchSubmit .. | .contrailWantWrite .. | .keyInstall .. | .keySwitch ..
  | .flitReceive .. | .laneFail .. | .coreReset .. | .uncoreReset .. | .packageReset | .qcoreGo ..
  | .attestationRequest .. | .uncorrectableSoftError .. | .routeCapChange .. => true
  | _ => false

/-- Every move that may come next. -/
def State.moves (s : State) : List Move :=
  (s.inputs.head?.toList.map .input) ++ s.events ++
    s.picks.map fun x => .issue x.stand.sid x.cord.id x.slotB

/-- What a move serves, for R154: the quadrant that issues, or a cord with its ageing swap, a stall or sleep that is over,
or its storage. -/
def State.serves (s : State) : Move → Option (Nat × Nat × Nat)
  | .event (.ageingSwap sid c) => some (sid, c, 4)
  | .event (.regfileRelease sid c) => some (sid, c, 5)
  | .event (.hstlExpire sid c b) => some (sid, c, 6 + b)
  | .event (.sleepExpire sid c b) => some (sid, c, 8 + b)
  | .issue sid c _ => (s.stand? sid).bind fun st => (st.cord? c).map fun x => (st.die, st.core, x.quad)
  | _ => none

/-- A swap that is due waits for a group of words. -/
def State.swapWaits (s : State) : Bool := s.stands.any fun st => st.cords.any fun c => s.swapDue st c && s.grouped st c

/-- The work that a round owes a step, while a swap waits for a group that may wait for it. -/
def State.owedWork (s : State) : List Item := if s.swapWaits then s.works.filter fun i => !s.served.contains (i.id, 0, 10) else []

/-- The moves that serve what this round has not served yet (R154). -/
def State.unserved (s : State) : List Move :=
  (s.moves.filter fun m => (s.serves m).any fun k => !s.served.contains k) ++ (s.owedWork.filterMap s.workEvent).map .event

/-- Moves that may be taken before those that a round has not served go first (DESIGN CHOICE, log 66). -/
def patience : Nat := 64

/-- The next move: a package reset at 115 °C (R418); what the round owes, once it has waited long enough (R154); else the
only move, or a free choice among several (log 3). -/
def State.nextMove (s : State) : Option Move :=
  if 1150 ≤ s.junction.toNat then some (.event .packageReset)
  else
    match (if patience ≤ s.owed then s.unserved else []) with
    | m :: _ => some m
    | [] =>
      match s.moves with
      | [] => none
      | [m] => some m
      | ms => ms[Config.freePick s.fresh % ms.length]?

/-- Notes a move: what it serves, and whether the round is over with it; one that is over while a swap waits for a group
leaves the next as late as it is (R154). -/
def State.noteMove (s : State) (m : Move) : State :=
  if s.unserved.all fun x => decide (x = m) then { s with served := [], owed := if s.swapWaits then s.owed + 1 else 0 }
  else
    let works := (s.owedWork.filter fun i => decide ((s.workEvent i).map Move.event = some m)).map fun i => (i.id, 0, 10)
    { s with served := (s.serves m).toList ++ works ++ s.served, owed := s.owed + 1 }

/-! ### Time and issue -/

/-- One cycle of the arithmetic clock: 2/3 ns (R35, R252; log 10). -/
def State.tick (s : State) : State :=
  { s with clock := s.clock + 1, ts := s.ts + (2 * (s.clock + 1) / 3 - 2 * s.clock / 3), turn := false }

/-- Notes an issue: the cord-slot's cycle, the quadrant's last cord-slot, and the quadrant that the uniform pipe or the list
filter has served (R16, R136, R299). -/
def State.noteIssue (s : State) (i : Instr) : State :=
  match s.focus with
  | none => s
  | some f =>
    let n := 2 * f.cord.cslot + f.slotB.toNat
    let q := f.cord.quad
    let c := if f.slotB then { f.cord with lastB := s.clock } else { f.cord with lastA := s.clock }
    (s.modCore f.stand.die f.stand.core fun k =>
      { k with
          lastIssue := k.lastIssue.set q (some n), lastPipe := if usesPipe i then q else k.lastPipe,
          lastFilter := if usesFilter i then q else k.lastFilter }).keep { f with cord := c }

/-! ### A program to run -/

/-- Page table of one 1 GiB page at address 0, readable, writable and executable (R171, R172). -/
def bootTable (m : Memory) : Memory :=
  ((m.store 0x1000 8 0x2001).store 0x2000 8 0x3001).store 0x3000 8 0xF

/-- The tract of a one-cord stand whose program starts at 0x40_0000. -/
def bootTract (id : Nat) : Tract :=
  { id := id, die := 0, ctx := 0, fpid := none, prio := 0, stands := 1, next := 1, ended := 0, param := 0, fut := 0,
    seed := 0, affinity := 1, rf := 1, spGran := 1, asGran := 1, roles := [⟨0x400000, 60, 1, 24⟩], reenter := [],
    poison := none, blocked := none }

/-- Loads a program by hand: accepted firmware, context 0 of die 0 at system level over its first GiB, and a running
stand on core 0 whose only path issues next (log 11). -/
def State.boot (s : State) : State :=
  let t := { bootTract s.uid with sids := [s.uid + 1] }
  let e : Ctx := { root := 0x1000, v := true, sys := true }
  let st := { newStand t (s.uid + 1) 0 0 0 [0] e with phase := .running, started := s.clock }
  let st := { st with cords := st.cords.map fun c => { c with slotA := some (livePath s.clock 0x400000 (BitVec.allOnes 32)) } }
  let s := { s.unfocus with
    hbm := bootTable s.hbm, past := [], seen := [], firmware := { s.firmware with fwstat := 1 }, tracts := s.tracts ++ [t], uid := s.uid + 2 }
  let s := s.modDie 0 fun x => { x with
    ctxs := x.ctxs.set 0 e, tlb := [], walks := [], cores := x.cores.map (fun k => { k with tlb := [] }),
    descs := List.replicate 64 (0, 0), damaged := [] }
  { (s.claim st).focusOn st.sid 0 false with turn := true }

/-- Stores a word at a physical address of die 0 to 7. -/
def State.putWord (s : State) (d pa : Nat) (w : BitVec 32) : State := 
  { s.forget (hAddr d pa) 4 with hbm := s.hbm.put (hAddr d pa) (bytesOfWord w) }

end Sys2Proof.Machine
end

