-- ==== Sys2Proof/Machine/Step.lean ====
section
/-! DEFINITION. One step of the machine: the move that comes next, taken; and the placing of an instruction where the next
step fetches it. -/

namespace Sys2Proof.Machine

/-- A step's outcome with the cycle it takes. -/
def ticked (r : Host.Outcome State Fault Refusal) : Host.Outcome State Fault Refusal :=
  match r with
  | .next s => .next s.tick
  | .fault e => .fault e
  | .refused e => .refused e

/-- The focused path fetches its next instruction and executes it, or takes the fault of the fetch. -/
def issueNext (f : Focus) (s : State) : Host.Outcome State Fault Refusal :=
  match s.fetch f with
  | (s, .error t) => .next (s.fetchTrap f t)
  | (s, .ok i) => exec i (s.noteIssue i)

/-- Takes a move. -/
def State.take (s : State) (m : Move) : Host.Outcome State Fault Refusal :=
  let s := s.unfocus
  match m with
  | .input i =>
    let s := { s with inputs := s.inputs.tail }
    if fromOutside i then exec i s else .next s
  | .event i => exec i s
  | .command d p =>
    match (s.port d p).flcmd.toNat with
    | 0 => .next s
    | 1 => execFlumeCreate d p s
    | 2 => execFlumeDestroy d p s
    | 3 => execFlumeForcedDestroy d p s
    | _ => execFlcmdInvalid d p (s.port d p).flcmd s
  | .tested n => execBistDone n s
  | .coreBack d => execQcoreReturn d s
  | .contrail i => execContrailChangeDone i s
  | .trained k => execLinkRetrainDone k s
  | .walked d c va => execTlbWalkDone d c va s
  | .clock n mhz => execClockThrottle n mhz s
  | .issue sid c b =>
    let s := s.focusOn sid c b
    match s.focus with
    | some f => issueNext f s
    | none => .next s

/-- One step: the path whose turn it is issues; or else the sensors are read and the next move is taken; with no move, a
cycle passes. -/
def step (s : State) : Host.Outcome State Fault Refusal :=
  match (if s.turn then s.focus else none) with
  | some f => ticked (issueNext f s)
  | none =>
    let s := s.sense
    match s.nextMove with
    | some m => ticked ((if s.moves.length = 1 then s.noteMove m else (s.noteMove m).draw).take m)
    | none => .next s.tick

/-- The state with a word where the next step fetches: at the PC of the path whose turn it is, or else of a program
loaded by hand (log 11). -/
def State.withFetchWord (s : State) (nbits w : Nat) : State :=
  let word : BitVec 32 := BitVec.ofNat 32 (w % 2 ^ nbits)
  match (if s.turn then s.focus else none) with
  | some f =>
    match (s.translate f.agent .fetch f.path.pc.toNat).2 with
    | .ok p => s.putWord f.stand.die p.1 word
    | .error _ => s.boot.putWord 0 0x400000 word
  | none => s.boot.putWord 0 0x400000 word

end Sys2Proof.Machine
end

