-- ==== Sys2Proof/Safety.lean ====
section
/-! DEFINITION. What counts as a safe run, in the terms that the statements use. -/

namespace Sys2Proof.Machine

/-- An outcome is a next state: the machine neither stops nor refuses. -/
def Answers (r : Host.Outcome State Fault Refusal) : Prop := ∃ t, r = .next t

/-- A run of `n` steps is safe when every step answers a next state. -/
def SafeRun (n : Nat) (s : State) : Prop := ∃ t, Host.Core.run Sys2Proof.core n s = .next t

/-- The byte storages of the package are in canonical form: HBM of every die, and host memory as the device knows it. -/
def State.memWf (s : State) : Bool := s.hbm.wf && s.hostMem.wf

/-- A path issues an instruction with no fault of its decoding and no wait on the scoreboard: it is in focus, no register
the instruction names has an outstanding write (R89), and the decoder's checks, R92 and the privilege check pass (R39,
R374). -/
def Issues (i : Instr) (s : State) (f : Focus) : Prop :=
  s.focus = some f ∧ (opndsOf i).marked f = false ∧ (opndsOf i).check f = none

/-- The state in which the issuing path has gone on past its instruction, with a new content of its cord, and nothing
else has changed: its prefix group is used, and its latch chain has ended (R57, R48). -/
def State.goneOn (s : State) (f : Focus) (c : Cord) : State :=
  { s with focus := some { f with
      cord := c,
      path := { f.path with pc := f.path.pc + 4, pfx := none, wait := none, chain := {}, yielded := false } } }

/-- The state after an ALU instruction: the lane values and the tag of its result, and the FPSTAT flags it sets, and
nothing else (R47, R51). The draw of the free values moves on for the latch's undefined lanes. -/
def State.afterAlu (s : State) (i : Instr) (f : Focus) (dst : Dst) (vals : Nat → Word) (t : Tag) (flags : BitVec 6) :
    State :=
  let g := f.aluResult s.fresh (opndsOf i).isReader dst vals t
  { s with fresh := s.fresh + 1, focus := some { g with cord := { g.cord with fpstat := g.cord.fpstat ||| flags } } }

/-- The state after a compare: bits of its predicate in the active lanes, and the FPSTAT flags it sets (R105, R127). -/
def State.afterCmp (s : State) (i : Instr) (f : Focus) (p : BitVec 3) (bits : Mask) (flags : BitVec 6) : State :=
  { s with focus := some { f with
      cord := { f.cord.writeP p.toNat f.active bits with fpstat := f.cord.fpstat ||| flags },
      path := { f.path with
        pc := f.path.pc + 4, pfx := none, wait := none, yielded := false,
        chain := f.chained (opndsOf i).isReader .compare none } } }

/-- The state in which the instruction of the issuing path has raised a fault (R375 to R380): the state the fault finds
is `s'`. -/
def State.faulted (s' : State) (i : Instr) (f : Focus) (t : Trap) : State :=
  s'.takeTrap (f.faulted (opndsOf i).isReader) t 0 (f.restartPc (opndsOf i).isReader)

/-- An integer operation on each element of a type (R81, R97): one of two on 32-bit elements, signed or unsigned, and
one of two on the 16-bit elements. -/
def perElement (t : IntTy) (i32 n32 : Word → Word → Word) (i16 n16 : Half → Half → Half) (a b : Word) : Word :=
  let both (op : Half → Half → Half) : Word :=
    op (a.extractLsb' 16 16) (b.extractLsb' 16 16) ++ op (a.extractLsb' 0 16) (b.extractLsb' 0 16)
  match t with
  | .i32 => i32 a b
  | .n32 => n32 a b
  | .i16 => both i16
  | .n16 => both n16

/-- The exact value of a finite number (R111). -/
def Num.rat : Machine.Num → ℚ
  | .num neg n e => (if neg then -1 else 1) * (n : ℚ) * (2 : ℚ) ^ e
  | _ => 0

/-- A magnitude x between two neighbours lo and hi goes to hi, by the table of R114: on the sign of the value, on whether
the last mantissa bit of lo is odd, and for .rs on its draw (R116). -/
def goesUp (r : Rnd) (neg odd : Bool) (lo x hi : ℚ) (h : Nat) : Bool :=
  match r with
  | .rne => decide (hi - x < x - lo) || (decide (hi - x = x - lo) && odd)
  | .rz => false
  | .rp => !neg
  | .rm => neg
  | .rs => decide ((h : ℚ) < (x - lo) / (hi - lo) * 2 ^ 32)

/-- A register whose tag is exact (R82). -/
def VReg.Exact (r : VReg) : Prop :=
  match r.tag with
  | .general => True
  | .uniform => ∀ l < 32, r.lane l = r.lane 0
  | .affine => ∃ d : Word, ∀ l < 32, r.lane l = r.lane 0 + BitVec.ofNat 32 l * d

/-- Every vector register and latch an instruction of a path can read has an exact tag. -/
def Focus.TagsExact (f : Focus) : Prop :=
  ∀ r ∈ f.cord.v ++ f.cord.latch ++ f.path.chain.saved.map Prod.snd, r.Exact

/-- No byte of any die holds an uncorrectable error (R374). -/
abbrev State.Whole (s : State) : Prop := (s.dies.all fun d => d.damaged.isEmpty) = true

/-- An address that the agent's TLB translates as its page table does, for a use that its permissions and the worlds
allow (R172 to R175, R391): the physical byte and the page. An agent with no first-level TLB uses its die's. -/
def State.Mapped (s : State) (a : Agent) (u : Use) (va pa : Nat) (l : Leaf) : Prop :=
  (s.tlbHit a.die a.tlbCore a.ctx va = some l ∨
    a.tlbCore = 32 ∧ (s.die a.die).cores.length ≤ 32 ∧ s.tlbShared a.die a.ctx va = some l) ∧ s.walk a.die a.ctx va = .ok l ∧
    pa = l.pa + va % l.size ∧ (a.sec = true ∨ l.s = false) ∧ (u.writes = true → l.w = true) ∧
    (u = .fetch → l.x = true) ∧ (a.sec = true ∨ (s.die a.die).secureAt pa = false)

/-- Every byte of an access of n bytes of each listed lane lies below 2^57 and is mapped, its page runs at the physical
addresses and on the pages given (R169, R176, R191). -/
def State.LanesMapped (s : State) (a : Agent) (u : Use) (n : Nat) (addrs : List (Nat × Nat))
    (pa : Nat → Nat → Nat) (leaf : Nat → Nat → Leaf) : Prop :=
  ∀ x ∈ addrs, x.2 + n ≤ 2 ^ 57 ∧ ∀ r ∈ pageRuns x.2 n, s.Mapped a u (x.2 + r.1) (pa x.1 r.1) (leaf x.1 r.1)

/-- The parts of an access of n bytes of each listed lane (R182, R191). -/
def lanesParts (die n : Nat) (addrs : List (Nat × Nat)) (data : Nat → Nat × Nat) (pa : Nat → Nat → Nat)
    (leaf : Nat → Nat → Leaf) : List Part :=
  addrs.flatMap fun x => partsOf die x.1 x.2 n (data x.1).1 (data x.1).2
    ((pageRuns x.2 n).map fun r => (r.1, r.2, pa x.1 r.1, leaf x.1 r.1))

/-- The state in which the issuing path has gone on, with a new content of its stand and of its cord. -/
def State.goneOnIn (s : State) (f : Focus) (st : Stand) (c : Cord) : State := s.goneOn { f with stand := st } c

/-- The issuing instruction as work of it names it: the lanes it writes and its first destination register (R205). -/
def Focus.dest (f : Focus) (m : Mask) (d : Nat) : Dest := ⟨f.stand.sid, f.cord.id, f.slotB, f.path.restart, m, d⟩

/-- The state with one more piece of work, under the next handle. -/
def State.withWork (s : State) (w : Work) : State :=
  { s with uid := s.uid + 1, works := s.works ++ [{ id := s.uid, work := w }] }

/-- The state in which the issuing instruction has begun a piece of work, its n destination registers are marked, and the
path has gone on (R89, R205). -/
def State.began (s : State) (f : Focus) (d n : Nat) (w : Work) : State :=
  (s.withWork w).goneOn f { f.cord with vmarks := f.cord.vmarks ++ (List.range n).map fun k => d + k }

/-- The state in which the issuing instruction has written a pair in the lanes of its path, and gone on. -/
def State.answered (s : State) (f : Focus) (d : Nat) (lo hi : Word) : State :=
  s.goneOn f (f.cord.writePair d f.path.mask lo hi)

/-- The state in which the issuing path has parked in a wait, in its slot, with the marks of what the wait will write
(R89, R137); a stand that is stopping withdraws the wait at once (R379). -/
def State.parked (s : State) (f : Focus) (w : Wait) : State :=
  let t := s.seat { f with
    cord := { f.cord with vmarks := f.cord.vmarks ++ w.vregs, smarks := f.cord.smarks ++ w.sregs },
    path := { f.path with wait := some w, yielded := false, chain := {} } }.whole
  if f.stand.phase = .running then t else t.withdraw f.stand.sid f.cord.id f.slotB

/-- The state in which a piece of work is over, and a pair is written for its instruction and its marks removed (R89). -/
def State.repliedWork (s : State) (id : Nat) (t : Dest) (lo hi : Word) : State :=
  { s with works := s.works.filter fun w => w.id ≠ id }.modCord t.sid t.cord fun c =>
    (c.writePair t.d t.mask lo hi).unmarkV [t.d, t.d + 1]

/-- The same where the pair is a status that its instruction's threads acquire with (R192; log 17). -/
def State.finishedWork (s : State) (id : Nat) (t : Dest) (lo hi : Word) : State :=
  (s.repliedWork id t lo hi).acquireAt .die t.sid t.cord t.mask

/-- No tile task of a stand is accepted whose future is not full. -/
def State.noTasks (s : State) (sid : Nat) : Prop := ∀ st ∈ s.stands, st.sid = sid → s.openTasks st = []

/-- The contrail table within its limits (R405, R406): 28 entries; none wants, holds or uses more than 8 wavelengths; a
steady one uses what it wants and holds nothing, and STATE is never 10; and no die takes part in more than 16, where a WANT
that is held counts (log 30). -/
def State.ContrailsInLimits (s : State) : Prop :=
  s.contrails.length = 28 ∧
  (∀ c ∈ s.contrails, c.most ≤ 8 ∧ c.waves.toNat ≤ 8 ∧ c.state ≠ 2 ∧ (c.state = 0 → c.waves = c.want ∧ c.held = none)) ∧
  ∀ d < 8, (((List.range 28).filter fun i => (contrailPair i).1 = d ∨ (contrailPair i).2 = d).map fun i =>
    (s.contrails.getD i {}).most).sum ≤ 16

end Sys2Proof.Machine
end

