-- ==== Sys2Proof/Certificates/Slice0/Obligations.lean ====
section
/-! DEFINITION. The statements put to the provers. Each says for every state and operands what its rules say; `Issues`,
`State.goneOn`, `State.afterAlu` and the other terms they share are those of Safety. Where several instructions of one
class are stated together, each is a clause of its own. -/

open Sys2Proof Sys2Proof.Machine

/-! ### Scalar instructions -/

/-- O1. Every scalar register operation goes on with the result that R93's table gives, formed here on wider integers
where the rule speaks of exact products, and changes nothing but its destination register and the path's place. Every
scalar immediate operation goes on with its result of R94 on the immediate that R55 forms, and SLDI with that of R95.
S2V and V2S (R96), RDTAG (R90), RDSEED (R163), RDTS (R254) and NOP. -/
def Obligations.ScalarInstructionsComplete : Prop :=
  (∀ (s : State) (f : Focus) (o : S3),
     let a := f.cord.sreg o.a
     let b := f.cord.sreg o.b
     let gives (i : Instr) (x : DWord) : Prop := Issues i s f → exec i s = .next (s.goneOn f (f.cord.writeS o.d x))
     gives (.sadd o) (a + b) ∧ gives (.ssub o) (a - b) ∧ gives (.smul o) (a * b) ∧
     gives (.smulh o) ((a.signExtend 128 * b.signExtend 128).extractLsb' 64 64) ∧
     gives (.smulhu o) ((a.zeroExtend 128 * b.zeroExtend 128).extractLsb' 64 64) ∧
     gives (.sand o) (a &&& b) ∧ gives (.sor o) (a ||| b) ∧ gives (.sxor o) (a ^^^ b) ∧
     gives (.sshl o) (a <<< b) ∧ gives (.sshr o) (a >>> b) ∧ gives (.ssra o) (a.sshiftRight' b) ∧
     gives (.smin o) (if b.slt a then b else a) ∧ gives (.smax o) (if b.slt a then a else b) ∧
     gives (.sminu o) (if b.ult a then b else a) ∧
     gives (.sslt o) (if a.slt b then 1 else 0) ∧ gives (.ssltu o) (if a.ult b then 1 else 0)) ∧
  (∀ (s : State) (f : Focus) (d : SCode) (imm : BitVec 16),
     let a := f.cord.sreg d
     let w : Option Word := f.imm32 imm
     let sx : DWord := (w.map fun x => x.signExtend 64).getD (imm.signExtend 64)
     let zx : DWord := (w.map fun x => x.zeroExtend 64).getD (imm.zeroExtend 64)
     let gives (i : Instr) (x : DWord) : Prop := Issues i s f → exec i s = .next (s.goneOn f (f.cord.writeS d x))
     gives (.saddi d imm) (a + sx) ∧ gives (.smuli d imm) (a * sx) ∧
     gives (.sandi d imm) (a &&& zx) ∧ gives (.sori d imm) (a ||| zx) ∧ gives (.sxori d imm) (a ^^^ zx) ∧
     gives (.sslti d imm) (if a.slt sx then 1 else 0) ∧ gives (.ssltui d imm) (if a.ult sx then 1 else 0) ∧
     (zx.toNat < 64 →
       gives (.sshli d imm) (a <<< zx) ∧ gives (.sshri d imm) (a >>> zx) ∧ gives (.ssrai d imm) (a.sshiftRight' zx)) ∧
     (64 ≤ zx.toNat → ∀ i ∈ [Instr.sshli d imm, .sshri d imm, .ssrai d imm], Issues i s f →
       exec i s = .next (s.faulted i f { code := .illegalInstr })) ∧
     gives (.sldi d imm) (imm.signExtend 64) ∧
     ∀ h : BitVec 2, ∃ x : DWord, gives (.sldiH d h imm) x ∧
       ∀ k < 4, x.extractLsb' (16 * k) 16 = if k = h.toNat then imm else a.extractLsb' (16 * k) 16) ∧
  (∀ (s : State) (f : Focus) (v : VCode) (r : SCode) (lane : BitVec 5),
     let gives (i : Instr) (c : Cord) : Prop := Issues i s f → exec i s = .next (s.goneOn f c)
     gives .nop f.cord ∧
     gives (.s2v v r) (f.cord.writeV v.toNat f.path.mask (fun _ => (f.cord.sreg r).truncate 32) .uniform) ∧
     gives (.v2s v r lane) (f.cord.writeS r (((f.cord.vreg v.toNat).lane lane.toNat).zeroExtend 64)) ∧
     gives (.rdtag v r) (f.cord.writeS r
       (match (f.cord.vreg v.toNat).tag with | .general => 0 | .uniform => 1 | .affine => 2)) ∧
     gives (.rdseed r) (f.cord.writeS r (f.cord.lfsr.zeroExtend 64)) ∧
     gives (.rdts r) (f.cord.writeS r
       (BitVec.ofNat 64 (if f.cord.tsfloor.toNat ≤ s.ts then s.ts else f.cord.tsfloor.toNat))))

/-- O2. R43: a scalar code below 24 names its register, codes 24 to 30 raise ILLEGAL_REG wherever an instruction's
scalar field holds one, and code 31 reads zero and discards a write. -/
def Obligations.ScalarCodesNameRegisters : Prop :=
  (∀ (c : Cord) (n : SCode) (x : DWord), c.s.length = 24 → n.toNat < 24 →
    c.s[n.toNat]? = some (c.sreg n) ∧ c.writeS n x = { c with s := c.s.set n.toNat x }) ∧
  (∀ (i : Instr) (s : State) (f : Focus) (n : SCode), i.isStep = false → s.focus = some f → (opndsOf i).marked f = false →
    n ∈ (opndsOf i).s ++ (opndsOf i).sNoZ ++ (opndsOf i).ss.map Prod.fst → 24 ≤ n.toNat → n.toNat ≤ 30 →
    exec i s = .next (s.faulted i f { code := .illegalReg })) ∧
  (∀ (c : Cord) (x : DWord), c.sreg 31 = 0 ∧ c.writeS 31 x = c)

/-! ### Vector integer instructions -/

/-- O3. The two-source integer instructions at every element type (R99), on sources after their permutation. Bitwise
logic, shifts, rotation, AFFINE and SHFL of two permuted sources (R102, R104, R109, R110). -/
def Obligations.IntegerTwoSourceComplete : Prop :=
  (∀ (s : State) (f : Focus) (o : V2) (t : IntTy),
     let a := f.psrc (v2Opnds o).isReader o.a o.pa
     let b := f.psrc (v2Opnds o).isReader o.b o.pb
     let wide := decide (t = .i32 ∨ t = .n32)
     let gives (i : Instr) (op : Word → Word → Word) (tag : Tag) : Prop :=
       Issues i s f → exec i s = .next (s.afterAlu i f o.dst (fun l => op (a.lane l) (b.lane l)) tag 0)
     gives (.iadd o t) (perElement t (· + ·) (· + ·) (· + ·) (· + ·)) (tagSum wide a.tag b.tag) ∧
     gives (.isub o t) (perElement t (· - ·) (· - ·) (· - ·) (· - ·)) (tagSum wide a.tag b.tag) ∧
     gives (.imul o t) (perElement t (· * ·) (· * ·) (· * ·) (· * ·)) (tagMul wide a.tag b.tag) ∧
     gives (.imulh o t)
       (perElement t
         (fun x y => (x.signExtend 64 * y.signExtend 64).extractLsb' 32 32)
         (fun x y => (x.zeroExtend 64 * y.zeroExtend 64).extractLsb' 32 32)
         (fun x y => (x.signExtend 32 * y.signExtend 32).extractLsb' 16 16)
         (fun x y => (x.zeroExtend 32 * y.zeroExtend 32).extractLsb' 16 16)) (tagU a.tag b.tag) ∧
     gives (.imin o t)
       (perElement t (fun x y => if y.slt x then y else x) (fun x y => if y.ult x then y else x)
         (fun x y => if y.slt x then y else x) (fun x y => if y.ult x then y else x)) (tagU a.tag b.tag) ∧
     gives (.imax o t)
       (perElement t (fun x y => if x.slt y then y else x) (fun x y => if x.ult y then y else x)
         (fun x y => if x.slt y then y else x) (fun x y => if x.ult y then y else x)) (tagU a.tag b.tag)) ∧
  (∀ (s : State) (f : Focus) (o : V2) (w : ElW) (m : ShflMode),
     let a := f.psrc (v2Opnds o).isReader o.a o.pa
     let b := f.psrc (v2Opnds o).isReader o.b o.pb
     let gives (i : Instr) (vals : Nat → Word) (tag : Tag) : Prop :=
       Issues i s f → exec i s = .next (s.afterAlu i f o.dst vals tag 0)
     let el (wide : Word → Word → Word) (half : Half → Half → Half) (l : Nat) : Word :=
       perElement (match w with | .w32 => .n32 | .w16 => .n16) wide wide half half (a.lane l) (b.lane l)
     gives (.and o) (fun l => a.lane l &&& b.lane l) (tagU a.tag b.tag) ∧
     gives (.or o) (fun l => a.lane l ||| b.lane l) (tagU a.tag b.tag) ∧
     gives (.xor o) (fun l => a.lane l ^^^ b.lane l) (tagU a.tag b.tag) ∧
     gives (.shl o w) (el (fun x k => x <<< k) (fun x k => x <<< k)) (tagShl (decide (w = .w32)) a.tag b.tag) ∧
     gives (.shr o w) (el (fun x k => x >>> k) (fun x k => x >>> k)) (tagU a.tag b.tag) ∧
     gives (.sra o w) (el (fun x k => x.sshiftRight' k) (fun x k => x.sshiftRight' k)) (tagU a.tag b.tag) ∧
     gives (.rot o w) (el (fun x k => x.rotateLeft (k.toNat % 32)) (fun x k => x.rotateLeft (k.toNat % 16)))
       (tagU a.tag b.tag) ∧
     gives (.affine o) (fun l => a.lane l + BitVec.ofNat 32 l * b.lane l)
       (if a.tag = .uniform ∧ b.tag = .uniform then .affine else .general) ∧
     gives (.shfl o m) (fun l =>
         let k := (b.lane l).toNat
         a.lane (match m with
           | .idx => k % 32
           | .xor => l ^^^ (k % 32)
           | .up => if l < k then l else l - k
           | .down => if 31 < l + k then l else l + k))
       (if a.tag = .uniform then .uniform else .general))

/-- O4. The one-source integer instructions, IMAD, SEL and LANEID (R100, R101, R102, R103, R106, R107, R109). The I
format: an immediate of the type's form (R55) and the destination's old value (R108). That an N16 immediate stands in
both elements is the model's choice, log 72. -/
def Obligations.IntegerUnaryAndImmediateComplete : Prop :=
  (∀ (s : State) (f : Focus) (o : V1) (w : ElW) (o3 : F3) (d : Dst) (x y : VCode) (p : Perm) (q : BitVec 3) (neg : Bool),
     let a := f.psrc (v1Opnds o).isReader o.a o.pa
     let r3 := (f3Opnds o3).isReader
     let gives (i : Instr) (d : Dst) (vals : Nat → Word) (tag : Tag) : Prop :=
       Issues i s f → exec i s = .next (s.afterAlu i f d vals tag 0)
     let el (wide : Word → Word) (half : Half → Half) (l : Nat) : Word :=
       perElement (match w with | .w32 => .i32 | .w16 => .i16) (fun x _ => wide x) (fun x _ => wide x)
         (fun x _ => half x) (fun x _ => half x) (a.lane l) 0
     let u := if a.tag = .uniform then Tag.uniform else .general
     gives (.iabs o w) o.dst (el (fun x => if x.msb then -x else x) (fun x => if x.msb then -x else x)) u ∧
     gives (.ineg o w) o.dst (el (fun x => -x) (fun x => -x)) u ∧
     gives (.not o) o.dst (fun l => ~~~(a.lane l)) u ∧
     gives (.mov o) o.dst (fun l => a.lane l) a.tag ∧
     gives (.popc o) o.dst (fun l => BitVec.ofNat 32 ((List.range 32).countP fun k => (a.lane l).getLsbD k)) u ∧
     gives (.clz o) o.dst (fun l => BitVec.ofNat 32 (((List.range 32).find? fun k => (a.lane l).getMsbD k).getD 32)) u ∧
     gives (.ctz o) o.dst (fun l => BitVec.ofNat 32 (((List.range 32).find? fun k => (a.lane l).getLsbD k).getD 32)) u ∧
     gives (.brev o) o.dst (fun l => (a.lane l).reverse) u ∧
     gives (.imad o3) o3.dst
       (fun l => (f.vsrc r3 o3.a).lane l * (f.vsrc r3 o3.b).lane l + (f.vsrc r3 o3.c).lane l)
       (tagMad (f.vsrc r3 o3.a).tag (f.vsrc r3 o3.b).tag (f.vsrc r3 o3.c).tag) ∧
     gives (.laneid d) d (fun l => BitVec.ofNat 32 l) .affine ∧
     (let i : Instr := .sel d x y p q neg
      let a := f.psrc (opndsOf i).isReader x p
      let b := f.vsrc (opndsOf i).isReader y
      let takesA (l : Nat) : Bool := (f.cord.pred q.toNat).getLsbD l != neg
      ∃ tag, ∃ vals : Nat → Word, gives i d vals tag ∧ ∀ l < 32, vals l = if takesA l then a.lane l else b.lane l)) ∧
  (∀ (s : State) (f : Focus) (d : VCode) (t : IntTy) (imm : BitVec 16),
     let a := f.cord.vreg d.toNat
     let x : Word := match (f.path.pfx.bind Prefix.himm), t with
       | some h, _ => h.extractLsb' 0 16 ++ imm
       | none, .i32 => imm.signExtend 32
       | none, .n32 => imm.zeroExtend 32
       | none, _ => imm ++ imm
     let y : Word := match (f.path.pfx.bind Prefix.himm) with
       | some h => h.extractLsb' 0 16 ++ imm
       | none => imm.zeroExtend 32
     let wide := decide (t = .i32 ∨ t = .n32)
     let u := if a.tag = .uniform then Tag.uniform else .general
     let gives (i : Instr) (vals : Nat → Word) (tag : Tag) : Prop :=
       Issues i s f → exec i s = .next (s.afterAlu i f (.reg d) vals tag 0)
     (∀ m, (m, t) ∈ [(MoviTy.i32, IntTy.i32), (.n32, .n32), (.i16, .i16), (.n16, .n16)] →
       gives (.movi d m imm) (fun _ => x) .uniform) ∧
     (f.path.pfx.bind Prefix.himm = none →
       gives (.movi d .f32 imm) (fun _ => imm ++ 0#16) .uniform ∧
       gives (.movi d .f16 imm) (fun _ => imm ++ imm) .uniform ∧
       gives (.movi d .e4m3 imm) (fun _ => imm ++ imm) .uniform) ∧
     (∀ h, f.path.pfx.bind Prefix.himm = some h → ∀ m ∈ [MoviTy.f32, .f16, .e4m3],
       gives (.movi d m imm) (fun _ => h.extractLsb' 0 16 ++ imm) .uniform) ∧
     gives (.iaddi d t imm) (fun l => perElement t (· + ·) (· + ·) (· + ·) (· + ·) (a.lane l) x)
       (tagSum wide a.tag .uniform) ∧
     gives (.imuli d t imm) (fun l => perElement t (· * ·) (· * ·) (· * ·) (· * ·) (a.lane l) x)
       (tagMul wide a.tag .uniform) ∧
     gives (.andi d imm) (fun l => a.lane l &&& y) u ∧ gives (.ori d imm) (fun l => a.lane l ||| y) u ∧
     gives (.xori d imm) (fun l => a.lane l ^^^ y) u)

/-- O5. ISET writes the condition's bit in each active lane, for 16-bit types the conjunction over both elements, and
keeps the bits of the other lanes (R105). -/
def Obligations.IntegerCompareCompletes : Prop :=
  ∀ (s : State) (f : Focus) (c : ICond) (o : VCmp) (t : IntTy), Issues (.iset c o t) s f →
    let a := f.psrc (vCmpOpnds o).isReader o.a o.pa
    let b := f.psrc (vCmpOpnds o).isReader o.b o.pb
    let holds {n : Nat} (signed : Bool) (x y : BitVec n) : Bool :=
      let lt (x y : BitVec n) : Bool := if signed then x.slt y else x.ult y
      match c with
      | .eq => x == y | .ne => x != y | .lt => lt x y | .le => !lt y x | .gt => lt y x | .ge => !lt x y
    let lane (l : Nat) : Bool := match t with
      | .i32 => holds true (a.lane l) (b.lane l)
      | .n32 => holds false (a.lane l) (b.lane l)
      | .i16 => holds true ((a.lane l).extractLsb' 0 16) ((b.lane l).extractLsb' 0 16) &&
          holds true ((a.lane l).extractLsb' 16 16) ((b.lane l).extractLsb' 16 16)
      | .n16 => holds false ((a.lane l).extractLsb' 0 16) ((b.lane l).extractLsb' 0 16) &&
          holds false ((a.lane l).extractLsb' 16 16) ((b.lane l).extractLsb' 16 16)
    ∃ bits : Mask, exec (.iset c o t) s = .next (s.afterCmp (.iset c o t) f o.p bits 0) ∧
      ∀ l < 32, bits.getLsbD l = lane l

/-! ### Float instructions -/

/-- O6. FADD, FSUB, FMUL, FFMA, DOT2, FADDI, FMULI: the exact result of each element, rounded once (R113, R122 to
R125), with a flag set where an active lane sets it (R119). Rounding, in exact rational values: the patterns of R111's
table have the values it gives, its infinities and its NaNs (R112); a representable value rounds to its own pattern
with no flag; any other goes to the neighbour that R114's table names, or R116's draw, with INEX, and UF where the
result is tiny (R117); past the largest finite value, R115's table gives the result, with OF, or SAT under .sat and in
E2M1. A result of arithmetic is rounded so by .rne, and a NaN is the default NaN (R112, R113). Products and sums
before rounding are exact, with the zero signs of R113; zero times an infinity, and infinities of opposite sign in one
sum, make a NaN that raises NV; a NaN source makes a NaN, which raises NV where a source does (R112, R113, R122 to
R124). -/
def Obligations.FloatArithmeticCompletes : Prop :=
  (∀ (s : State) (f : Focus) (o : V2) (o3 : F3) (t : FTy) (d : VCode) (ti : FImmTy) (imm : BitVec 16),
     let a := f.psrc (v2Opnds o).isReader o.a o.pa
     let b := f.psrc (v2Opnds o).isReader o.b o.pb
     let src (c : VCode) : VReg := f.vsrc (f3Opnds o3).isReader c
     let gives (i : Instr) (dst : Dst) (g : Nat → Word × Flags) (ts : List Tag) : Prop :=
       Issues i s f → exec i s = .next (s.afterAlu i f dst (fun l => (g l).1)
         (if ∀ t ∈ ts, t = .uniform then .uniform else .general)
         (orFlags ((Mask.toLanes f.active).map fun l => (g l).2)))
     let k := ftyFmt t
     let two (op : Machine.Num → Machine.Num → Machine.Num) (l : Nat) : Word × Flags :=
       elemOp k (fun x y => (op (k.value x) (k.value y)).toFmt k) (a.lane l) (b.lane l)
     let ki := fimmFmt ti
     let im (op : Machine.Num → Machine.Num → Machine.Num) (l : Nat) : Word × Flags :=
       elemOp ki (fun x y => (op (ki.value x) (ki.value y)).toFmt ki) ((f.cord.vreg d.toNat).lane l) (immFloat f ti imm)
     let fused (terms : Word → Word → Word → List Machine.Num) (l : Nat) : Word × Flags :=
       let r := (sumNums (terms ((src o3.a).lane l) ((src o3.b).lane l) ((src o3.c).lane l))).toFmt .f32
       (BitVec.ofNat 32 r.1, r.2)
     let v (k : FloatFmt) (x : Word) (lo n : Nat) : Machine.Num := k.value (x.extractLsb' lo n).toNat
     gives (.fadd o t) o.dst (two fun x y => sumNums [x, y]) [a.tag, b.tag] ∧
     gives (.fsub o t) o.dst (two fun x y => sumNums [x, y.neg]) [a.tag, b.tag] ∧
     gives (.fmul o t) o.dst (two Machine.Num.mul) [a.tag, b.tag] ∧
     gives (.faddi d ti imm) (.reg d) (im fun x y => sumNums [x, y]) [(f.cord.vreg d.toNat).tag] ∧
     gives (.fmuli d ti imm) (.reg d) (im Machine.Num.mul) [(f.cord.vreg d.toNat).tag] ∧
     gives (.ffma o3) o3.dst (fused fun x y z => [(v .f32 x 0 32).mul (v .f32 y 0 32), v .f32 z 0 32])
       [(src o3.a).tag, (src o3.b).tag, (src o3.c).tag] ∧
     gives (.dot2 o3) o3.dst (fused fun x y z =>
         [(v .bf16 x 0 16).mul (v .bf16 y 0 16), (v .bf16 x 16 16).mul (v .bf16 y 16 16), v .f32 z 0 32])
       [(src o3.a).tag, (src o3.b).tag, (src o3.c).tag]) ∧
  (∀ (k : FloatFmt) (bits M bias top : Nat) (inf nan : Option Nat),
     (k, bits, M, bias, top, inf, nan) ∈ ([
       (.f32, 32, 23, 127, 0x7F7FFFFF, some 0x7F800000, some 0x7FC00000),
       (.f16, 16, 10, 15, 0x7BFF, some 0x7C00, some 0x7E00),
       (.bf16, 16, 7, 127, 0x7F7F, some 0x7F80, some 0x7FC0),
       (.e4m3, 8, 3, 7, 0x7E, none, some 0x7F),
       (.e5m2, 8, 2, 15, 0x7B, some 0x7C, some 0x7E),
       (.e2m1, 4, 1, 1, 0x7, none, none)] : List (FloatFmt × Nat × Nat × Nat × Nat × Option Nat × Option Nat)) →
     ∀ neg : Bool,
     let val (c : Nat) : ℚ :=
       if c / 2 ^ M = 0 then 2 ^ (1 - bias : ℤ) * ((c % 2 ^ M : ℕ) / 2 ^ M)
       else 2 ^ ((c / 2 ^ M : ℕ) - bias : ℤ) * (1 + (c % 2 ^ M : ℕ) / 2 ^ M)
     let s := if neg then 2 ^ (bits - 1) else 0
     let step := val top - val (top - 1)
     (∀ c ≤ top, ∃ n e, k.value (s + c) = .num neg n e ∧ (n : ℚ) * 2 ^ e = val c) ∧
     (∀ c ∈ inf, k.value (s + c) = .inf neg) ∧
     (∀ c, top < c → c < 2 ^ (bits - 1) → inf ≠ some c →
       k.value (s + c) = .nan (inf.isSome && decide (c % 2 ^ M < 2 ^ (M - 1)))) ∧
     (∀ c ∈ nan, ∀ nv, (Machine.Num.nan nv).toFmt k = (c, if nv then flagNV else 0)) ∧
     (∀ c ∈ inf, (Machine.Num.inf neg).toFmt k = (s + c, 0)) ∧
     (∀ n e, (Machine.Num.num neg n e).toFmt k = roundNum k .rne false 0 neg n e false) ∧
     ∀ (r : Rnd) (sat : Bool) (h n : Nat) (e : Int),
       let x : ℚ := n * 2 ^ e
       let y := roundNum k r sat h neg n e false
       (∀ c ≤ top, x = val c → y = (s + c, 0)) ∧
       (∀ c < top, val c < x → x < val (c + 1) →
         let c' := if goesUp r neg (decide (c % 2 = 1)) (val c) x (val (c + 1)) h then c + 1 else c
         y = (s + c', flagINEX ||| if c' < 2 ^ M then flagUF else 0)) ∧
       (val top < x →
         let up := goesUp r neg (decide (top % 2 = 1)) (val top) x (val top + step) h
         if x < val top + step ∧ up = false then y = (s + top, flagINEX)
         else if sat ∨ k = .e2m1 then y = (s + top, flagSAT ||| flagINEX)
         else match r with
           | .rne => y = (s + top + 1, flagOF ||| flagINEX)
           | .rz => y = (s + top, flagOF ||| flagINEX)
           | .rp => y = (if neg then s + top else s + top + 1, flagOF ||| flagINEX)
           | .rm => y = (if neg then s + top + 1 else s + top, flagOF ||| flagINEX)
           | .rs => y = (s + top + 1, flagOF ||| flagINEX) ∨
               (val top + step ≤ x ∧ y = (s + top, flagOF ||| flagINEX)))) ∧
  ((∀ (s s' : Bool) (n n' : Nat) (e e' : Int), ∃ m q,
     (Machine.Num.num s n e).mul (.num s' n' e') = .num (s != s') m q ∧
     (m : ℚ) * 2 ^ q = (n : ℚ) * 2 ^ e * (n' * 2 ^ e')) ∧
   (∀ (s s' : Bool) (n : Nat) (e : Int),
     (Machine.Num.inf s).mul (.inf s') = .inf (s != s') ∧
     (Machine.Num.inf s).mul (.num s' n e) = (if n = 0 then .nan true else .inf (s != s')) ∧
     (Machine.Num.num s n e).mul (.inf s') = (if n = 0 then .nan true else .inf (s != s'))) ∧
   (∀ (v v' : Bool) (a : Machine.Num), a.isNan = false →
     (Machine.Num.nan v).mul a = .nan v ∧ a.mul (.nan v) = .nan v ∧ (Machine.Num.nan v).mul (.nan v') = .nan (v || v')) ∧
   ∀ l : List Machine.Num, l ≠ [] →
     (((∀ a ∈ l, a.isNan = false ∧ a.isInf = false) → ∃ s n e, sumNums l = .num s n e ∧
         (if s then -((n : ℚ) * 2 ^ e) else (n : ℚ) * 2 ^ e) = (l.map Machine.Num.rat).sum ∧
         (n = 0 → (s = true ↔ ∀ a ∈ l, a.isNeg = true))) ∧
      (∀ s, (∀ a ∈ l, a.isNan = false) → .inf s ∈ l → .inf (!s) ∉ l → sumNums l = .inf s) ∧
      ((∀ a ∈ l, a.isNan = false) → .inf true ∈ l → .inf false ∈ l → sumNums l = .nan true) ∧
      ((∃ a ∈ l, a.isNan = true) → (.inf true ∉ l ∨ .inf false ∉ l) →
         sumNums l = .nan (l.any Machine.Num.raises))))

/-- O7. FMIN, FMAX, FSCALE, FABS, FNEG, FPACK and FUNPK (R122, R126, R128, R133, R134). The unary F32 functions
complete with the results of R128 on zeros, infinities and NaNs, whatever they give for the other values (R129). The
finite results of FSQRT (the nearest value, with INEX where it is not the root itself), FFLOOR, FCEIL, FTRUNC and
FRINT (exact, keeping the sign of their source, with no flag), and the NaN with NV of FSQRT, FRSQ and FLOG2 for a
negative finite source (R113, R114, R117, R128). -/
def Obligations.FloatSelectAndUnaryComplete : Prop :=
  (∀ (s : State) (f : Focus) (o : V2) (o1 : V1) (t : FTy) (t3 : FTy3) (pk : PackTy) (code : BitVec 6),
     let a := f.psrc (v2Opnds o).isReader o.a o.pa
     let b := f.psrc (v2Opnds o).isReader o.b o.pb
     let x := f.psrc (v1Opnds o1).isReader o1.a o1.pa
     let gives (i : Instr) (dst : Dst) (g : Nat → Word × Flags) (ts : List Tag) : Prop :=
       Issues i s f → exec i s = .next (s.afterAlu i f dst (fun l => (g l).1)
         (if ∀ t ∈ ts, t = .uniform then .uniform else .general)
         (orFlags ((Mask.toLanes f.active).map fun l => (g l).2)))
     let k := ftyFmt t
     let nv (p q : Nat) : Flags := if (k.value p).raises || (k.value q).raises then flagNV else 0
     -- the source whose value is the smaller, −0 below +0; a NaN gives way to the other source
     let pick (larger : Bool) (p q : Nat) : Nat × Flags :=
       let u := k.value p
       let w := k.value q
       (if u.isNan && w.isNan then k.nan.getD 0 else if u.isNan then q else if w.isNan then p
        else if (u.lt w || (!w.lt u && u.isNeg && !w.isNeg)) != larger then p else q, nv p q)
     let signs : Word := match t3 with | .f32 => 0x80000000 | _ => 0x80008000
     let f32 (w : Word) (k : FloatFmt) : Nat × Flags := (FloatFmt.f32.value w.toNat).toFmt k
     gives (.fmin o t) o.dst (fun l => elemOp k (pick false) (a.lane l) (b.lane l)) [a.tag, b.tag] ∧
     gives (.fmax o t) o.dst (fun l => elemOp k (pick true) (a.lane l) (b.lane l)) [a.tag, b.tag] ∧
     gives (.fscale o t3) o.dst (fun l =>
         elemOp (fty3Fmt t3) (fun p _ => (((fty3Fmt t3).value p).scale (b.lane l).toInt).toFmt (fty3Fmt t3))
           (a.lane l) (a.lane l)) [a.tag, b.tag] ∧
     gives (.fabs o1 t3) o1.dst (fun l => (x.lane l &&& ~~~signs, 0)) [x.tag] ∧
     gives (.fneg o1 t3) o1.dst (fun l => (x.lane l ^^^ signs, 0)) [x.tag] ∧
     gives (.fpack o pk) o.dst (fun l =>
         match pk with
         | .merge => ((b.lane l).extractLsb' 0 16 ++ (a.lane l).extractLsb' 0 16, 0)
         | .f16 => (BitVec.ofNat 16 (f32 (b.lane l) .f16).1 ++ BitVec.ofNat 16 (f32 (a.lane l) .f16).1,
             (f32 (a.lane l) .f16).2 ||| (f32 (b.lane l) .f16).2)
         | .bf16 => (BitVec.ofNat 16 (f32 (b.lane l) .bf16).1 ++ BitVec.ofNat 16 (f32 (a.lane l) .bf16).1,
             (f32 (a.lane l) .bf16).2 ||| (f32 (b.lane l) .bf16).2)) [a.tag, b.tag] ∧
     (let c := code.toNat
      let el (w : Word) : Machine.Num :=
        if c < 2 then FloatFmt.f16.value (w.extractLsb' (16 * c) 16).toNat
        else if c < 4 then FloatFmt.bf16.value (w.extractLsb' (16 * (c - 2)) 16).toNat
        else if c < 8 then FloatFmt.e4m3.value (w.extractLsb' (8 * (c - 4)) 8).toNat
        else if c < 12 then FloatFmt.e5m2.value (w.extractLsb' (8 * (c - 8)) 8).toNat
        else FloatFmt.e2m1.value (w.extractLsb' (4 * (c - 12)) 4).toNat
      c < 20 → gives (.funpk o1 code) o1.dst (fun l =>
         (BitVec.ofNat 32 ((el (x.lane l)).toFmt .f32).1, ((el (x.lane l)).toFmt .f32).2)) [x.tag])) ∧
  (∀ (s : State) (f : Focus) (o : V1) (i : Instr) (zero inf : Bool → Nat × Flags),
     (i, zero, inf) ∈ ([
       (.fsqrt o, fun n => (zeroF32 n, 0), fun n => if n then (0x7FC00000, flagNV) else (0x7F800000, 0)),
       (.frsq o, fun n => (infF32 n, flagDZ), fun n => if n then (0x7FC00000, flagNV) else (0, 0)),
       (.frcp o, fun n => (infF32 n, flagDZ), fun n => (zeroF32 n, 0)),
       (.fexp2 o, fun _ => (0x3F800000, 0), fun n => (if n then 0 else 0x7F800000, 0)),
       (.flog2 o, fun _ => (0xFF800000, flagDZ), fun n => if n then (0x7FC00000, flagNV) else (0x7F800000, 0)),
       (.fsin o, fun n => (zeroF32 n, 0), fun _ => (0x7FC00000, flagNV)),
       (.fcos o, fun _ => (0x3F800000, 0), fun _ => (0x7FC00000, flagNV)),
       (.ftanh o, fun n => (zeroF32 n, 0), fun n => (if n then 0xBF800000 else 0x3F800000, 0)),
       (.ffloor o, fun n => (zeroF32 n, 0), fun n => (infF32 n, 0)),
       (.fceil o, fun n => (zeroF32 n, 0), fun n => (infF32 n, 0)),
       (.ftrunc o, fun n => (zeroF32 n, 0), fun n => (infF32 n, 0)),
       (.frint o, fun n => (zeroF32 n, 0), fun n => (infF32 n, 0))] :
         List (Instr × (Bool → Nat × Flags) × (Bool → Nat × Flags))) →
     Issues i s f →
     let x := f.psrc (v1Opnds o).isReader o.a o.pa
     ∃ g : Word → Word × Flags,
       exec i s = .next (s.afterAlu i f o.dst (fun l => (g (x.lane l)).1)
         (if x.tag = .uniform then .uniform else .general)
         (orFlags ((Mask.toLanes f.active).map fun l => (g (x.lane l)).2))) ∧
       (∀ n : Bool, g (BitVec.ofNat 32 (zeroF32 n)) = (BitVec.ofNat 32 (zero n).1, (zero n).2)) ∧
       (∀ n : Bool, g (BitVec.ofNat 32 (infF32 n)) = (BitVec.ofNat 32 (inf n).1, (inf n).2)) ∧
       (∀ w : Word, w.extractLsb' 23 8 = 0xFF → w.extractLsb' 0 23 ≠ 0 →
         g w = (0x7FC00000, if w.getLsbD 22 then 0 else flagNV))) ∧
  (∀ (s : State) (f : Focus) (o : V1),
     let x := f.psrc (v1Opnds o).isReader o.a o.pa
     let top := 0x7F7FFFFF
     -- the value of a pattern without its sign, by R111
     let val (c : Nat) : ℚ := if c < 2 ^ 23 then c * 2 ^ (-149 : ℤ) else (2 ^ 23 + c % 2 ^ 23 : ℕ) * 2 ^ ((c / 2 ^ 23 : ℕ) - 150 : ℤ)
     let sgn (neg : Bool) : Nat := if neg then 2 ^ 31 else 0
     let gives (i : Instr) (holds : (Word → Word × Flags) → Prop) : Prop := Issues i s f →
       ∃ g : Word → Word × Flags, holds g ∧
         exec i s = .next (s.afterAlu i f o.dst (fun l => (g (x.lane l)).1)
           (if x.tag = .uniform then .uniform else .general)
           (orFlags ((Mask.toLanes f.active).map fun l => (g (x.lane l)).2)))
     let invalid (g : Word → Word × Flags) : Prop :=
       ∀ c, 0 < c → c ≤ top → g (BitVec.ofNat 32 (2 ^ 31 + c)) = (0x7FC00000, flagNV)
     let whole (result : ℚ → ℤ → Prop) (g : Word → Word × Flags) : Prop :=
       ∀ neg, ∀ c ≤ top, ∃ c' ≤ top, ∃ w : ℤ,
         g (BitVec.ofNat 32 (sgn neg + c)) = (BitVec.ofNat 32 (sgn neg + c'), 0) ∧
         result (if neg then -val c else val c) w ∧ (w : ℚ) = if neg then -val c' else val c'
     gives (.fsqrt o) (fun g => invalid g ∧ ∀ c, 0 < c → c ≤ top → ∃ c', 0 < c' ∧ c' < top ∧
       g (BitVec.ofNat 32 c) = (BitVec.ofNat 32 c', if val c' ^ 2 = val c then 0 else flagINEX) ∧
       ((val (c' - 1) + val c') / 2) ^ 2 ≤ val c ∧ val c ≤ ((val c' + val (c' + 1)) / 2) ^ 2) ∧
     gives (.frsq o) invalid ∧ gives (.flog2 o) invalid ∧
     gives (.ffloor o) (whole fun a w => w = ⌊a⌋) ∧ gives (.fceil o) (whole fun a w => w = ⌈a⌉) ∧
     gives (.ftrunc o) (whole fun a w => w = if 0 ≤ a then ⌊a⌋ else ⌈a⌉) ∧
     gives (.frint o) (whole fun a w => 2 * |a - w| ≤ 1 ∧ (2 * |a - w| = 1 → w % 2 = 0)))

/-- O8. FCVT completes, on the LFSR that R116 steps once for .rs and leaves alone otherwise; with .rs the result is
general. What FCVT's result is in a lane: a source element of each format, or a whole number, rounded to a float
format, its infinities and NaNs by the table of R130; a float rounded to a whole number in the mode, clamped with NV
to the bounds of its format, with INEX where it differs (R114 to R117, R130, R131). -/
def Obligations.FloatConversionCompletes : Prop :=
  (∀ (s : State) (f : Focus) (o : V1) (df sf : Fmt) (r : Rnd) (sat : Bool), Issues (.fcvt o df sf r sat) s f →
     let l' := if r = .rs then lfsrStep f.cord.lfsr else f.cord.lfsr
     let g := { f with cord := { f.cord with lfsr := l' } }
     let x := f.psrc (v1Opnds o).isReader o.a o.pa
     let y (l : Nat) : Word × Flags := fcvtLane df sf r sat (rsDraw l' l 0) (x.lane l)
     exec (.fcvt o df sf r sat) s = .next (s.afterAlu (.fcvt o df sf r sat) g o.dst (fun l => (y l).1)
       (if r ≠ .rs ∧ x.tag = .uniform then .uniform else .general)
       (orFlags ((Mask.toLanes f.active).map fun l => (y l).2)))) ∧
  (∀ (sf df : Fmt) (r : Rnd) (sat : Bool) (h : Nat) (a : Word),
     let y := fcvtLane df sf r sat h a
     let floats : List (Fmt × FloatFmt × Nat) :=
       [(.f32, .f32, 32), (.f16, .f16, 16), (.bf16, .bf16, 16), (.e4m3, .e4m3, 8), (.e5m2, .e5m2, 8), (.e2m1, .e2m1, 4)]
     let wholes : List (Fmt × Int × Int) := [(.i32, -2 ^ 31, 2 ^ 31 - 1), (.n32, 0, 2 ^ 32 - 1)]
     let lane (z : Nat × Flags) : Word × Flags := (BitVec.ofNat 32 z.1, z.2)
     (∀ k bits, (df, k, bits) ∈ floats →
       (sf = .i32 → y = lane (roundNum k r sat h (decide (a.toInt < 0)) a.toInt.natAbs 0 false)) ∧
       (sf = .n32 → y = lane (roundNum k r sat h false a.toNat 0 false))) ∧
     ∀ ks ws, (sf, ks, ws) ∈ floats →
       let x := ks.value (a.toNat % 2 ^ ws)
       (∀ k bits, (df, k, bits) ∈ floats →
         (∀ neg n e, x = .num neg n e → y = lane (roundNum k r sat h neg n e false)) ∧
         (∀ neg, x = .inf neg →
           let s := if neg then 2 ^ (bits - 1) else 0
           (df = .e2m1 → y = lane (s + 0x7, flagSAT)) ∧
           (df = .e4m3 → y = lane (if sat then (s + 0x7E, flagSAT) else (s + 0x7F, flagNV))) ∧
           (df = .e5m2 → y = lane (if sat then (s + 0x7B, flagSAT) else (s + 0x7C, 0))) ∧
           (sat = false → (df = .f32 → y = lane (s + 0x7F800000, 0)) ∧ (df = .f16 → y = lane (s + 0x7C00, 0)) ∧
             (df = .bf16 → y = lane (s + 0x7F80, 0)))) ∧
         (∀ nv, x = .nan nv →
           let flags : Flags := if nv then flagNV else 0
           y = match df with
             | .f32 => (0x7FC00000, flags) | .f16 => (0x7E00, flags) | .bf16 => (0x7FC0, flags) | .e4m3 => (0x7F, flags)
             | .e5m2 => (0x7E, flags) | _ => (0, flagNV))) ∧
       ∀ lo hi, (df, lo, hi) ∈ wholes →
         (∀ nv, x = .nan nv → y = (0, flagNV)) ∧
         (∀ neg, x = .inf neg → y = (BitVec.ofInt 32 (if neg then lo else hi), flagNV)) ∧
         ∀ neg n e, x = .num neg n e →
           let m : ℚ := n * 2 ^ e
           let t : ℤ := ⌊m⌋
           let up := decide ((t : ℚ) < m) && goesUp r neg (decide (t % 2 = 1)) t m (t + 1) h
           let w : ℤ := (if neg then -1 else 1) * (if up then t + 1 else t)
           y = if w < lo then (BitVec.ofInt 32 lo, flagNV) else if hi < w then (BitVec.ofInt 32 hi, flagNV)
             else (BitVec.ofInt 32 w, if (t : ℚ) = m then 0 else flagINEX))

/-- O9. FSET: the condition of R127 on every element of the lane, false (or true for .ne and .un) of a NaN; NV only
for a signalling NaN of an active lane. -/
def Obligations.FloatCompareCompletes : Prop :=
  ∀ (s : State) (f : Focus) (c : FCond) (o : VCmp) (t : FTy3), Issues (.fset c o t) s f →
    let k := fty3Fmt t
    let a := f.psrc (vCmpOpnds o).isReader o.a o.pa
    let b := f.psrc (vCmpOpnds o).isReader o.b o.pb
    let vals (r : VReg) (l : Nat) : List Machine.Num := (elems k (r.lane l)).map k.value
    let holds (x y : Machine.Num) : Bool :=
      if x.isNan || y.isNan then c == .ne || c == .un
      else match c with
        | .eq => x.eqv y | .ne => !x.eqv y | .lt => x.lt y | .le => !y.lt x | .gt => y.lt x | .ge => !x.lt y
        | .un => false | .ord => true
    ∃ bits flags, exec (.fset c o t) s = .next (s.afterCmp (.fset c o t) f o.p bits flags) ∧
      (∀ l < 32, bits.getLsbD l = ((vals a l).zip (vals b l)).all fun p => holds p.1 p.2) ∧
      (flags = flagNV ∨ flags = 0) ∧
      (flags = flagNV ↔ ∃ l < 32, f.active.getLsbD l ∧
        ∃ p ∈ (vals a l).zip (vals b l), p.1.raises ∨ p.2.raises)

/-! ### Control flow -/

/-- O10. R40: a displacement counts words from the branch's own address and is sign-extended from its field; zero
names the branch itself; and the two formats reach as far as the rule says, in words. -/
def Obligations.BranchDisplacementsCountWords : Prop :=
  ∀ (pc : Pc) (b : BitVec 21) (q : BitVec 18),
    branchTo pc b = pc + BitVec.ofInt 57 (4 * b.toInt) ∧ branchTo pc q = pc + BitVec.ofInt 57 (4 * q.toInt) ∧
    branchTo pc 0#21 = pc ∧ branchTo pc 0#18 = pc ∧
    -2 ^ 22 ≤ (branchTo pc b - pc).toInt ∧ (branchTo pc b - pc).toInt ≤ 2 ^ 22 - 4 ∧
    -2 ^ 19 ≤ (branchTo pc q - pc).toInt ∧ (branchTo pc q - pc).toInt ≤ 2 ^ 19 - 4 ∧
    (∀ s f, Issues (.jmp b) s f → f.path.pc = pc → ∃ t g, exec (.jmp b) s = .next t ∧ t.focus = some g ∧
      g.path.pc = branchTo pc b) ∧
    ∀ s f a c, Issues (.bral a c q) s f → f.path.pc = pc → c = 0 → ∃ t g, exec (.bral a c q) s = .next t ∧
      t.focus = some g ∧ g.path.pc = branchTo pc q

/-- O11. BRC, JMP, CALL and RCV on a path whose token needs no spill: the whole path moves, or the branch splits it on
the LFSR's next bit 0, or a token is pushed (R40, R142, R144, R155, R157). An indirect jump or call whose lanes agree
on an aligned target, and the fault of one whose lanes do not all have an aligned one: TRAPVAL is the target of the
lowest such lane (R156). -/
def Obligations.BranchesAndJumpsComplete : Prop :=
  (∀ (s : State) (f : Focus) (p : BitVec 3) (neg : Bool) (disp : BitVec 21),
     let target : Pc := f.path.pc + (4 : Pc) * disp.signExtend 57
     let m := f.path.mask
     let taken : Mask := if neg then m &&& ~~~(f.cord.pred p.toNat) else m &&& f.cord.pred p.toNat
     let fall : Mask := if neg then m &&& f.cord.pred p.toNat else m &&& ~~~(f.cord.pred p.toNat)
     let path (pc : Pc) : Path :=
       { f.path with pc := pc, pfx := none, wait := none, chain := {}, yielded := false }
     let move (c : Cord) (q : Path) : State :=
       { s with focus := some { f with cord := c.setSlot f.slotB (some q), path := q } }
     let push (call : Bool) (rpc pc : Pc) (i : Instr) : Prop :=
       Issues i s f → f.cord.spilled = 0 → f.cord.tokens.length < 8 →
       exec i s = .next
         { s with focus := some { f with
             cord := { f.cord.setSlot f.slotB (some (path pc)) with tokens := ⟨call, rpc, m, 0⟩ :: f.cord.tokens },
             path := path pc } }
     (Issues (.jmp disp) s f → exec (.jmp disp) s = .next (move f.cord (path target))) ∧
     push true (f.path.pc + 4) target (.call disp) ∧
     push false target (f.path.pc + 4) (.rcv disp) ∧
     (∀ i ∈ [Instr.call disp, .rcv disp], Issues i s f → 40 ≤ f.cord.tokens.length + f.cord.spilled →
       exec i s = .next (s.faulted i f { code := .divergenceDepth })) ∧
     (Issues (.brc p neg disp) s f →
       (taken = 0 → exec (.brc p neg disp) s = .next (move f.cord (path (f.path.pc + 4)))) ∧
       (taken ≠ 0 → fall = 0 → exec (.brc p neg disp) s = .next (move f.cord (path target))) ∧
       (taken ≠ 0 → fall ≠ 0 → f.cord.slot (!f.slotB) = none →
         let l := lfsrStep f.cord.lfsr
         let sides := if l.getLsbD 0 then ((target, taken), (f.path.pc + 4, fall))
           else ((f.path.pc + 4, fall), (target, taken))
         let stay := { path sides.1.1 with mask := sides.1.2 }
         let go : Path := { pc := sides.2.1, mask := sides.2.2, liveSince := s.clock }
         exec (.brc p neg disp) s =
           .next (move ({ f.cord with lfsr := l }.setSlot (!f.slotB) (some go)) stay)))) ∧
  (∀ (s : State) (f : Focus) (v : VCode),
     let m := f.path.mask
     let tgt (l : Nat) : Pc := f.path.pc.extractLsb' 32 25 ++ (f.cord.vreg v.toNat).lane l
     let path (pc : Pc) : Path :=
       { f.path with pc := pc, pfx := none, wait := none, chain := {}, yielded := false }
     (∀ t : Pc, m ≠ 0 → t.toNat % 4 = 0 → (∀ l < 32, m.getLsbD l → tgt l = t) →
       (Issues (.jmpr v) s f → exec (.jmpr v) s = .next
         { s with focus := some { f with cord := f.cord.setSlot f.slotB (some (path t)), path := path t } }) ∧
       (Issues (.callr v) s f → f.cord.spilled = 0 → f.cord.tokens.length < 8 → exec (.callr v) s = .next
         { s with focus := some { f with
             cord := { f.cord.setSlot f.slotB (some (path t)) with
               tokens := ⟨true, f.path.pc + 4, m, 0⟩ :: f.cord.tokens },
             path := path t } })) ∧
     (∀ l < 32, m.getLsbD l → (tgt l).toNat % 4 ≠ 0 → (∀ k < l, m.getLsbD k → (tgt k).toNat % 4 = 0) →
       ∀ i ∈ [Instr.jmpr v, .callr v], Issues i s f →
         exec i s = .next (s.faulted i f { code := .misaligned, val := some ((tgt l).zeroExtend 64) })))

/-- O12. JOIN and RET with no token in the spill area and no pending path: the path waits in its token, or the token
is complete and its members go on after the JOIN, or at the return address; a token of the wrong kind or place raises
TOKEN_MISMATCH (R145, R146, R158). That with both slots free the members take slot A is R419, read so in log 29. -/
def Obligations.JoinReturnComplete : Prop :=
  ∀ (s : State) (f : Focus) (call : Bool) (t : Token) (r : List Token),
    let i : Instr := if call then .ret else .join
    let m := f.path.mask
    let w := t.w ||| m
    Issues i s f → f.cord.tokens = t :: r → r.length < 8 → f.cord.spilled = 0 → f.cord.ringCount = 0 →
    f.cord.pending = [] → t.m &&& m ≠ 0 →
    (t.call = call → (call = true ∨ t.rpc = f.path.pc) → w ≠ t.m →
      exec i s = .next (s.seat (f.stand.modCord f.cord.id fun _ =>
        { f.cord.setSlot f.slotB none with tokens := { t with w := w } :: r }))) ∧
    (t.call = call → (call = true ∨ t.rpc = f.path.pc) → w = t.m → (f.slotB = true → f.cord.slotA.isSome) →
      let p : Path := { pc := if call then t.rpc else t.rpc + 4, mask := t.m, liveSince := s.clock }
      exec i s = .next { s with focus := some { f with
        cord := { f.cord.setSlot f.slotB (some p) with tokens := r }, path := p } }) ∧
    (t.call ≠ call ∨ (call = false ∧ t.rpc ≠ f.path.pc) →
      exec i s = .next (s.faulted i f { code := .tokenMismatch }))

/-- O13. BRK with every token in hardware and none of those it leaves complete: the path's lanes leave its innermost
tokens, and no others, and the path goes to its label; too few tokens, or a CALL token among them, raises
TOKEN_MISMATCH (R146, R159). EXIT of a path outside any region and with no pending path: its slot is free and its
lanes have exited; the last lanes of a cord end its bindings and memberships (R160). YIELD gives its slot to the head
of the queue, and with none is a HYLD. -/
def Obligations.BreakExitYieldComplete : Prop :=
  (∀ (s : State) (f : Focus) (depth : BitVec 3) (disp : BitVec 21), Issues (.brk depth disp) s f →
     f.cord.spilled = 0 → f.cord.tokens.length ≤ 8 → f.cord.ringCount = 0 → f.cord.pending = [] →
     let m := f.path.mask
     let d := depth.toNat + 1
     let mine (t : Token) : Bool := decide (t.m &&& m ≠ 0)
     let inner := (f.cord.tokens.filter mine).take d
     let leave (t : Token) : Token := { t with m := t.m &&& ~~~m, w := t.w &&& ~~~m }
     let p : Path := { f.path with
       pc := f.path.pc + (4 : Pc) * disp.signExtend 57, pfx := none, wait := none, chain := {}, yielded := false }
     (inner.length = d → (∀ t ∈ inner, t.call = false ∧ (leave t).w ≠ (leave t).m) →
       ∃ toks : List Token, exec (.brk depth disp) s = .next { s with focus := some { f with
           cord := { f.cord.setSlot f.slotB (some p) with tokens := toks }, path := p } } ∧
         toks.length = f.cord.tokens.length ∧
         ∀ k t, f.cord.tokens[k]? = some t →
           toks[k]? = some (if mine t ∧ ((f.cord.tokens.take k).filter mine).length < d then leave t else t)) ∧
     (inner.length < d ∨ (∃ t ∈ inner, t.call = true) →
       exec (.brk depth disp) s = .next (s.faulted (.brk depth disp) f { code := .tokenMismatch }))) ∧
  (∀ (s : State) (f : Focus), f.cord.ringCount = 0 →
     let gone := { f.cord.setSlot f.slotB none with exited := f.cord.exited ||| f.path.mask }
     let seated := s.seat (f.stand.modCord f.cord.id fun _ => gone)
     let next : Path := { f.path with
       pc := f.path.pc + 4, pfx := none, wait := none, chain := {}, yielded := true }
     (Issues .exit s f → f.cord.tokens = [] → f.cord.spilled = 0 → f.cord.pending = [] →
       (gone.exited ≠ BitVec.allOnes 32 → exec .exit s = .next seated) ∧
       (gone.exited = BitVec.allOnes 32 → exec .exit s = .next (seated.finishCord f.stand gone))) ∧
     (Issues .yield s f →
       (f.cord.pending = [] → exec .yield s = .next { s with focus := some { f with
         cord := f.cord.setSlot f.slotB (some next), path := next } }) ∧
       (∀ q, f.cord.pending = [q] →
         let p : Path := { pc := q.pc, mask := q.mask, liveSince := s.clock }
         exec .yield s = .next { s with focus := some { f with
           cord := { f.cord.setSlot f.slotB (some p) with pending := [⟨next.pc, next.mask, 0, s.clock⟩] },
           path := p } })))

/-- O14. Predicate logic on the lanes of the path, votes on the active lanes, and the LFSR as a program writes it
(R161, R162, R163). The prefix hints join the group of their path and change nothing else; HPRM, HYLD and HSTL act at
once and break a latch chain they stand in (R48, R57 to R63). That the count of a reader's place runs on behind them
is the model's choice, log 74. -/
def Obligations.PredicatesAndHintsComplete : Prop :=
  (∀ (s : State) (f : Focus) (o : S3) (d a : SCode) (v p : VCode) (r : SCode),
     let lanes (n : Nat) (where_ : Mask) (g : Nat → Bool) (i : Instr) : Prop :=
       Issues i s f → ∃ c : Cord, exec i s = .next (s.goneOn f c) ∧
         c = { f.cord with p := f.cord.p.set n (c.p.getD n 0) } ∧
         (n < f.cord.p.length → n ≠ 0 → ∀ l < 32,
           (c.pred n).getLsbD l = if where_.getLsbD l then g l else (f.cord.pred n).getLsbD l)
     let bit (n : SCode) (l : Nat) : Bool := (f.cord.pred n.toNat).getLsbD l
     let x := f.active &&& f.cord.pred p.toNat
     lanes o.d.toNat f.path.mask (fun l => bit o.a l && bit o.b l) (.pand o) ∧
     lanes o.d.toNat f.path.mask (fun l => bit o.a l || bit o.b l) (.por o) ∧
     lanes o.d.toNat f.path.mask (fun l => bit o.a l != bit o.b l) (.pxor o) ∧
     lanes o.d.toNat f.path.mask (fun l => bit o.a l && !bit o.b l) (.pandn o) ∧
     lanes d.toNat f.path.mask (fun l => !bit a l) (.pnot d a) ∧
     lanes d.toNat f.path.mask (fun l => bit a l) (.pmov d a) ∧
     lanes v.toNat f.active (fun _ => decide (x = f.active)) (.voteAll v p) ∧
     lanes v.toNat f.active (fun _ => decide (x ≠ 0)) (.voteAny v p) ∧
     (Issues (.voteBal v p) s f → exec (.voteBal v p) s = .next (s.goneOn f
       (if f.active = 0 then f.cord else f.cord.writeV v.toNat f.active (fun _ => x) .uniform))) ∧
     (Issues (.wrseed r) s f → exec (.wrseed r) s = .next (s.goneOn f
       { f.cord with lfsr := if (f.cord.sreg r).truncate 32 = 0#32 then 1 else (f.cord.sreg r).truncate 32 }))) ∧
  (∀ (s : State) (f : Focus) (pay n : BitVec 21) (na neg wx wr wb : Bool) (l2 l1 : BitVec 2) (p : BitVec 3)
       (x r b : BitVec 5),
     let group : Prefix := f.path.pfx.getD { start := f.path.pc }
     let joins (i : Instr) (g : Prefix) : Prop := Issues i s f → exec i s = .next { s with focus := some { f with
       path := { f.path with pc := f.path.pc + 4, pfx := some g, yielded := false } } }
     let acts (i : Instr) (c : Cord) (g : Path → Path) : Prop := Issues i s f → exec i s = .next { s with focus := some { f with
       cord := c,
       path := g { f.path with
         pc := f.path.pc + 4, yielded := false, chain := { f.path.chain with broken := true } } } }
     joins (.himm pay) { group with himm := some pay } ∧
     joins (.hpred neg p) { group with hpred := some (neg, p) } ∧
     joins (.hcache na l2 l1) { group with hcache := some ⟨na, l2, l1⟩ } ∧
     acts (.hprm wx wr wb x r b) { f.cord with
       prmX := if wx then x else f.cord.prmX, prmR := if wr then r else f.cord.prmR,
       prmB := if wb then b else f.cord.prmB } id ∧
     acts .hyld f.cord (fun q => { q with yielded := true }) ∧
     acts (.hstl n) f.cord (fun q => { q with stall := if n = 0 then none else some (s.clock + n.toNat) }))

/-! ### Memory -/

/-- O15. LD, ST, ATOM, SLD and SST of mapped addresses: the access begins, part by part as R182 and R191 cut it, its
destination is marked, the path goes on, and neither memory nor a register has changed yet; one with no active lane
only tags its destination general (R86, R176, R196 to R199). The sizes of R196: bytes and registers of each; what
register n of a load takes, a byte or a half-word extended with zeros or its sign and otherwise 4 bytes of the value,
the lowest first; a load writes its registers in the lanes of its mask alone, tags them general, and leaves every
other register; and a store's bytes are its registers', the lowest first, or the low part of the first. The faults of
a vector access before any part of it: the lowest active lane beyond 2^57 raises ADDRESS_RANGE, the lowest that an
atomic finds misaligned raises MISALIGNED, and TRAPVAL is its address (R169, R191, R374). The walk of a page table:
with good non-leaf entries at the levels above it, the entry at a level decides: an entry with V = 0 is a PAGE_FAULT;
reserved bits, KIND 11, a leaf at level 0 or 1, a non-leaf at level 4, a page or a next table that is misaligned or
beyond the die's HBM is a PTE_INVALID; a good leaf is the translation, with its attributes (R171, R172, R173). The
translation faults of a global access, LD, ST, ATOM, SLD and SST: every active lane is translated before any access,
in lane order, and the first page of one that faults raises, with TRAPVAL the address. With no translation cached, the
walk's outcome; with one, a page of the secure world under a non-secure stand, then a page with W = 0 under a store or
an atomic, then a secure region under a non-secure stand, which the violation log enters (R173, R176, R191, R374,
R391). SLD and SST beyond 2^57 raise ADDRESS_RANGE (R169). -/
def Obligations.GlobalAccessesBeginOrFault : Prop :=
  (∀ (s : State) (f : Focus) (o : MOps) (a : AOps) (d r : SCode) (stream : BitVec 4) (word : Bool)
       (pa : Nat → Nat → Nat) (leaf : Nat → Nat → Leaf),
     let ag := f.agent
     let dests (k : AccessKind) (reg : Nat) : List Nat := match k with
       | .load size => (List.range (sizeRegs size)).map fun j => reg + j
       | .atomic _ true => [reg]
       | _ => []
     let begins (i : Instr) (k : AccessKind) (u : Use) (n : Nat) (addrs : List (Nat × Nat)) (data : Nat → Nat × Nat)
         (t : BitVec 4) (ord : Bool) (m : Mask) (reg : Nat) (c : Cord) : Prop :=
       Issues i s f → s.LanesMapped ag u n addrs pa leaf →
       (m = 0 → exec i s = .next (s.goneOn f
         ((dests k reg).foldl (fun x j => x.writeV j 0 (fun _ => 0) .general) f.cord))) ∧
       let access : Access :=
         { sid := f.stand.sid, cord := f.cord.id, slotB := f.slotB, pc := f.path.restart, kind := k, stream := t,
           ordered := ord, threads := m, d := reg, parts := lanesParts f.stand.die n addrs data pa leaf }
       (m ≠ 0 → exec i s = .next
         (State.goneOn { s with uid := s.uid + 1, works := s.works ++ [{ id := s.uid, work := .access access }] } f c))
     let marked (ns : List Nat) : Cord := { f.cord with vmarks := f.cord.vmarks ++ ns }
     let addrs := f.laneAddrs o.s o.v
     let reg (l n : Nat) : Nat := ((f.cord.vreg n).lane l).toNat
     let bytes := if word then 4 else 8
     begins (.ld o) (.load o.size) .read (sizeBytes o.size) addrs (fun _ => (0, 0)) o.stream o.ordered f.active
       o.d.toNat (marked ((List.range (sizeRegs o.size)).map fun n => o.d.toNat + n)) ∧
     begins (.st o) .store .write (sizeBytes o.size) addrs (fun l => (f.storeData o.size o.d l, 0)) o.stream o.ordered
       f.active o.d.toNat f.cord ∧
     ((∀ x ∈ f.laneAddrs a.s a.v, x.2 % 4 = 0) →
       begins (.atom a) (.atomic a.op (decide (a.d ≠ 60))) .atomic 4 (f.laneAddrs a.s a.v)
         (fun l => if a.op = .cas then (reg l (a.d.toNat + 1), reg l a.d.toNat)
           else if a.d = 60 then (reg l (a.v.toNat + 1), 0) else (reg l a.d.toNat, 0))
         a.stream false f.active a.d.toNat (if a.d = 60 then f.cord else marked [a.d.toNat])) ∧
     begins (.sld d r stream word) (.scalarLoad word) .read bytes [(32, f.addr r)] (fun _ => (0, 0)) stream false
       (BitVec.allOnes 32) d.toNat
       (if d = 31 then f.cord else { f.cord with smarks := f.cord.smarks ++ [d.toNat] }) ∧
     begins (.sst d r stream word) .store .write bytes [(32, f.addr r)]
       (fun _ => ((f.cord.sreg d).toNat % 256 ^ bytes, 0)) stream false (BitVec.allOnes 32) d.toNat f.cord) ∧
  ((∀ size bytes regs, (size, bytes, regs) ∈ ([(.n8, 1, 1), (.i8, 1, 1), (.n16, 2, 1), (.i16, 2, 1), (.w32, 4, 1), (.w64, 8, 2),
       (.w128, 16, 4)] : List (MSize × Nat × Nat)) →
     sizeBytes size = bytes ∧ sizeRegs size = regs ∧
     (∀ v, v < 256 ^ bytes → ∀ n < regs,
       let x := loadWord size v n
       (size = .i8 → x.toInt = if v < 2 ^ 7 then (v : Int) else v - 2 ^ 8) ∧
       (size = .i16 → x.toInt = if v < 2 ^ 15 then (v : Int) else v - 2 ^ 16) ∧
       (size ≠ .i8 → size ≠ .i16 → x.toNat = v / 2 ^ (32 * n) % 2 ^ 32)) ∧
     (∀ (c : Cord) (d : Nat) (m : Mask) (v : Nat → Nat), d + regs ≤ c.v.length →
       let t := c.loadRegs size d m v
       (∀ n < regs, (t.vreg (d + n)).tag = .general ∧ ∀ l < 32, (t.vreg (d + n)).lane l =
         if m.getLsbD l then loadWord size (v l) n else (c.vreg (d + n)).lane l) ∧
       (∀ k, k < d ∨ d + regs ≤ k → t.vreg k = c.vreg k) ∧ { t with v := c.v } = c) ∧
     ∀ (f : Focus) (d : VCode) (l : Nat), let reg (n : Nat) : Nat := ((f.cord.vreg (d.toNat + n)).lane l).toNat
       f.storeData size d l =
         (reg 0 + (if 2 ≤ regs then 2 ^ 32 * reg 1 else 0) + if regs = 4 then 2 ^ 64 * reg 2 + 2 ^ 96 * reg 3 else 0) % 256 ^ bytes) ∧
   ∀ (m : Memory) (x n v : Nat), m.wf = true → v < 256 ^ n →
     (m.store x n v).load x n = v ∧ ∀ k < n, (m.store x n v).load (x + k) 1 = v / 256 ^ k % 256) ∧
  (∀ (s : State) (f : Focus) (o : MOps) (a : AOps),
     let low (p : Nat → Prop) (addrs : List (Nat × Nat)) (x : Nat) : Prop :=
       ∃ pre l post, addrs = pre ++ (l, x) :: post ∧ p x ∧ ∀ y ∈ pre, ¬p y.2
     let faults (i : Instr) (c : TrapCode) (x : Nat) : Prop :=
       Issues i s f → exec i s = .next (s.faulted i f { code := c, val := some (BitVec.ofNat 64 x) })
     (∀ x, low (fun x => 2 ^ 57 ≤ x + sizeBytes o.size - 1) (f.laneAddrs o.s o.v) x →
       faults (.ld o) .addressRange x ∧ faults (.st o) .addressRange x) ∧
     (∀ x, low (fun x => x % 4 ≠ 0) (f.laneAddrs a.s a.v) x → faults (.atom a) .misaligned x) ∧
     (∀ x, (∀ y ∈ f.laneAddrs a.s a.v, y.2 % 4 = 0) → low (fun x => 2 ^ 57 ≤ x + 3) (f.laneAddrs a.s a.v) x →
       faults (.atom a) .addressRange x)) ∧
  (∀ (s : State) (d ctx va k : Nat) (t : Nat → Nat), k ≤ 4 →
     let hbm := 0x1800000000
     let shift (j : Nat) : Nat := [48, 39, 30, 21, 16].getD j 0
     let count (j : Nat) : Nat := if j = 4 then 32 else 512
     let entry (j : Nat) : BitVec 64 :=
       BitVec.ofNat 64 (s.hbm.load (d * hbm + t j + 8 * (va / 2 ^ shift j % count j)) 8)
     let bits (j hi lo : Nat) : Nat := ((entry j).extractLsb' lo (hi + 1 - lo)).toNat
     let fits (j : Nat) : Prop := t j + 8 * count j ≤ hbm
     let reserved (j : Nat) : Prop := bits j 63 48 ≠ 0 ∨ bits j 7 7 ≠ 0
     let page (j : Nat) : Nat := 2 ^ shift j
     let pa (j : Nat) : Nat := bits j 47 8 * 256
     t 0 = ((((s.die d).ctx ctx).root).extractLsb' 12 36).toNat * 4096 →
     (∀ j < k, fits j ∧ bits j 0 0 = 1 ∧ bits j 1 1 = 0 ∧ bits j 6 2 = 0 ∧ ¬reserved j ∧ t (j + 1) = pa j ∧
       t (j + 1) % (8 * count (j + 1)) = 0) →
     (¬fits k → s.walk d ctx va = .error .pteInvalid) ∧
     (fits k → bits k 0 0 = 0 → s.walk d ctx va = .error .pageFault) ∧
     (fits k → bits k 0 0 = 1 →
       (reserved k → s.walk d ctx va = .error .pteInvalid) ∧
       (bits k 1 1 = 1 → (k < 2 ∨ bits k 5 4 = 3 ∨ pa k % page k ≠ 0 ∨ hbm < pa k + page k) →
         s.walk d ctx va = .error .pteInvalid) ∧
       (bits k 1 1 = 0 → (k = 4 ∨ bits k 6 2 ≠ 0 ∨ pa k % (8 * count (k + 1)) ≠ 0) →
         s.walk d ctx va = .error .pteInvalid) ∧
       (bits k 1 1 = 1 → 2 ≤ k → ¬reserved k → pa k % page k = 0 → pa k + page k ≤ hbm → ∀ kind : PageKind,
         bits k 5 4 = (match kind with | .un => 0 | .rc => 1 | .so => 2) →
         s.walk d ctx va = .ok ⟨pa k, page k, kind, (entry k).getLsbD 6, (entry k).getLsbD 2, (entry k).getLsbD 3⟩))) ∧
  (∀ (s : State) (f : Focus) (o : MOps) (a : AOps) (d r : SCode) (stream : BitVec 4) (word : Bool) (i : Instr) (u : Use)
       (n : Nat) (addrs pre post : List (Nat × Nat)) (l va : Nat) (before after : List (Nat × Nat)) (run : Nat × Nat)
       (pa : Nat → Nat → Nat) (leaf : Nat → Nat → Leaf),
     let ag := f.agent
     let bytes := if word then 4 else 8
     (i, u, n, addrs) ∈ [(Instr.ld o, Use.read, sizeBytes o.size, f.laneAddrs o.s o.v),
       (.st o, .write, sizeBytes o.size, f.laneAddrs o.s o.v), (.atom a, .atomic, 4, f.laneAddrs a.s a.v),
       (.sld d r stream word, .read, bytes, [(32, f.addr r)]), (.sst d r stream word, .write, bytes, [(32, f.addr r)])] →
     Issues i s f → (i = .atom a → ∀ x ∈ addrs, x.2 % 4 = 0) →
     (∀ j ∈ [Instr.sld d r stream word, .sst d r stream word], j = i → 2 ^ 57 ≤ f.addr r + bytes - 1 →
       exec i s = .next (s.faulted i f { code := .addressRange, val := some (BitVec.ofNat 64 (f.addr r)) })) ∧
     ((∀ x ∈ addrs, x.2 + n ≤ 2 ^ 57) → addrs = pre ++ (l, va) :: post → s.LanesMapped ag u n pre pa leaf →
       pageRuns va n = before ++ run :: after →
       (∀ q ∈ before, s.Mapped ag u (va + q.1) (pa l q.1) (leaf l q.1)) →
       let x := va + run.1
       let die := f.stand.die
       let ctx := f.stand.ctx
       let secure := f.stand.sec
       let faults (t : State) (c : TrapCode) : Prop :=
         exec i s = .next (t.faulted i f { code := c, val := some (BitVec.ofNat 64 x) })
       (∀ c, s.tlbHit die f.stand.core ctx x = none → s.tlbShared die ctx x = none → s.walk die ctx x = .error c →
         faults s c) ∧
       (∀ y, s.tlbHit die f.stand.core ctx x = some y → s.walk die ctx x = .ok y →
         (secure = false → y.s = true → faults s .worldViolation) ∧
         ((secure = true ∨ y.s = false) → u.writes = true → y.w = false → faults s .protection) ∧
         (secure = false → y.s = false → (u.writes = true → y.w = true) →
           (s.die die).secureAt (y.pa + x % y.size) = true →
           faults (s.violation ag (y.pa + x % y.size) u.num (BitVec.ofNat 64 x)) .worldViolation))))

/-- O16. LDS, STS and ATOMS of offsets that are aligned and inside the window, with nothing that holds them back and
no tile task accepted whose future is not full: lanes take effect in increasing order, and no other byte, register or
flag changes; the threads' later accesses that the access stands before are not placed before it, a .rel store
releases the path's scratchpad writes, and what was stored awaits an operand fence (R182, R185, R187, R196, R199,
R277). A scratchpad access whose lowest faulting lane is misaligned, or with none misaligned is beyond the window,
raises MISALIGNED or SP_RANGE with that offset and changes nothing (R170, R191, R197). A load or an atomic of a byte
of scratchpad that an uncorrectable error has struck raises MEM_ERROR, after every other check, and changes nothing
(R373, R374). -/
def Obligations.ScratchpadAccessesCompleteOrFault : Prop :=
  (∀ (s : State) (f : Focus) (o : MOps) (a : AOps), s.racyRead f.stand = [] → s.Whole →
     let ok (n : Nat) (addrs : List (Nat × Nat)) : Prop :=
       ∀ x ∈ addrs, x.2 % n = 0 ∧ x.2 + n ≤ f.stand.spGran * 16384
     let n := sizeBytes o.size
     let addrs := f.laneAddrs o.s o.v
     let sp := f.stand.sp
     let stored : Memory := addrs.foldl (fun m x => m.store x.2 n (f.storeData o.size o.d x.1)) sp
     let lanesOf (m : Memory) : List (Nat × Nat) → Memory × List (Nat × Word)
       | l => l.foldl (fun r x =>
           let old : Word := BitVec.ofNat 32 (r.1.load x.2 4)
           let y := f.atomicData a x.1
           (r.1.store x.2 4 (atomicNew a.op old (BitVec.ofNat 32 y.1) (BitVec.ofNat 32 y.2)).toNat,
             r.2 ++ [(x.1, old)])) (m, [])
     let done := lanesOf sp (f.laneAddrs a.s a.v)
     let left : Stand := if o.ordered then s.released f.stand f.cord.id f.active else f.stand
     (Issues (.lds o) s f → spHeld s f o.stream false = false → ok n addrs →
       exec (.lds o) s = .next ((s.noteSp f o.stream true o.ordered).goneOn f
         (f.cord.loadRegs o.size o.d.toNat f.active fun l => sp.load (f.laneAddr o.s o.v l) n))) ∧
     (Issues (.sts o) s f → spHeld s f o.stream o.ordered = false → ok n addrs →
       exec (.sts o) s = .next ((s.noteSp f o.stream false false).goneOnIn f
         { left.wroteLanes f.cord.id o.stream n addrs with sp := stored } f.cord)) ∧
     (Issues (.atoms a) s f → spHeld s f a.stream false = false → ok 4 (f.laneAddrs a.s a.v) →
       exec (.atoms a) s = .next ((s.noteSp f a.stream true false).goneOnIn f
         { f.stand.wroteLanes f.cord.id a.stream 4 (f.laneAddrs a.s a.v) with sp := done.1 }
         (if a.d = 60 then f.cord else f.cord.writeV a.d.toNat f.active
           (fun l => ((done.2.find? fun x => x.1 = l).map Prod.snd).getD 0) .general)))) ∧
  (∀ (s : State) (f : Focus) (o : MOps) (a : AOps) (i : Instr) (n : Nat) (addrs : List (Nat × Nat)) (rel : Bool)
       (stream : BitVec 4),
     (i, n, addrs, stream, rel) ∈ [(Instr.lds o, sizeBytes o.size, f.laneAddrs o.s o.v, o.stream, false),
       (.sts o, sizeBytes o.size, f.laneAddrs o.s o.v, o.stream, o.ordered),
       (.atoms a, 4, f.laneAddrs a.s a.v, a.stream, false)] →
     Issues i s f → spHeld s f stream rel = false →
     let low (p : Nat → Prop) (x : Nat) : Prop :=
       ∃ pre l post, addrs = pre ++ (l, x) :: post ∧ p x ∧ ∀ y ∈ pre, ¬p y.2
     (∀ x, low (fun x => x % n ≠ 0) x →
       exec i s = .next (s.faulted i f { code := .misaligned, val := some (BitVec.ofNat 64 x) })) ∧
     (∀ x, (∀ y ∈ addrs, y.2 % n = 0) → low (fun x => f.stand.spGran * 16384 < x + n) x →
       exec i s = .next (s.faulted i f { code := .spRange, val := some (BitVec.ofNat 64 x) }))) ∧
  (∀ (s : State) (f : Focus) (o : MOps) (a : AOps) (i : Instr) (n : Nat) (addrs : List (Nat × Nat)) (stream : BitVec 4)
       (x : Nat × Nat) (b : Nat),
     (i, n, addrs, stream) ∈ [(Instr.lds o, sizeBytes o.size, f.laneAddrs o.s o.v, o.stream),
       (.atoms a, 4, f.laneAddrs a.s a.v, a.stream)] →
     Issues i s f → spHeld s f stream false = false →
     (∀ y ∈ addrs, y.2 % n = 0 ∧ y.2 + n ≤ f.stand.spGran * 16384) →
     x ∈ addrs → x.2 ≤ b → b < x.2 + n → Struck.scratchpad f.stand.sid b ∈ (s.die f.stand.die).damaged →
     exec i s = .next (s.faulted i f { code := .memError }))

/-- O17. A fence of a path holds it while it waits: for the parts of the path's accesses that it orders before it, of
a kind or of streams, and for those of stores that come before the path through what it has acquired; at cord and
stand scope for those only that read, since stores take their places there. Then it goes on: those stores take their
places, what the path has done stands before its later accesses as the fence orders it, scratchpad writes are
released, and from there the handles its cord has invalidated are read anew. PREF of addresses that its core's TLB
already holds only goes on (R188, R189, R193, R201, R202, R277, R316). That a fence at grove scope waits for HBM is
the model's choice, log 15; that it flushes the handles of the whole cord's QINVs is log 57 and log 78. What an
acquire of some threads at a scope gives them: a later load of theirs is not placed before it, so that it passes over
no write performed until then, of the die at grove and die scope, of its stand at stand scope, of its cord at cord
scope, and reads what stands where it may pass over none; the bytes of memory stay as they are. The same place holds
them behind a read that they had performed before a FENCE.ACQ of the scope (R184, R186, R188, R189). That a load's
place is chosen when it is performed is the model's way to say so, log 17. -/
def Obligations.FencesPrefetchComplete : Prop :=
  (∀ (s : State) (f : Focus) (c : Scope) (m : BitVec 16) (l2 : Bool) (r : SCode) (v : VCode),
     let sid := f.stand.sid
     let id := f.cord.id
     let lanes := f.path.mask
     let fence (i : Instr) (before : Access → Bool) (syncs : Bool) (near : Bool) (st : State → Stand) : Prop :=
       let parts := openParts s.works sid id lanes before ++ if near then (s.fenced i sid id lanes).nearParts sid id lanes else []
       let waits : Prop := (∃ y ∈ parts, c = .grove ∨ c = .die ∨ y.2.1.kind ≠ .store) ∨
         (syncs = true ∧ s.syncing sid id lanes = true)
       let t := (s.takePlaces c parts).fenced i sid id lanes
       Issues i s f → (¬waits → exec i s = .next ((t.flushHandles f).goneOnIn f (st t) f.cord)) ∧ (waits → exec i s = .next s)
     let released (own : Unfenced → Bool) (t : State) : Stand :=
       f.stand.releases id lanes own (t.reachedBy sid id lanes) { t.place.within c with die := 0 }
     fence (.fence c) (fun _ => true) true true (released fun _ => true) ∧
     fence (.fenceX c m) (fun a => m.getLsbD a.stream.toNat) false true
       (released fun u => u.stream.any fun n => m.getLsbD n.toNat) ∧
     fence (.fenceAcq c) (fun a => match a.kind with | .store => false | _ => true) true false (fun _ => f.stand) ∧
     fence (.fenceRel c) (fun _ => true) true true (released fun _ => true) ∧
     (Issues (.pref l2 r v) s f → (∀ x ∈ f.laneAddrs r v, x.2 < 2 ^ 57 → ∃ l,
         s.tlbHit f.stand.die f.stand.core f.stand.ctx x.2 = some l ∧ s.walk f.stand.die f.stand.ctx x.2 = .ok l) →
       exec (.pref l2 r v) s = .next (s.goneOn f f.cord))) ∧
  (∀ (s : State) (y : Scope) (sid c id h n : Nat) (m : Mask) (a : Access) (p : Part) (e : Past) (r : Seen),
     m ≠ 0 → s.uid ≤ id → a.sid = sid → a.cord = c → a.within p m = true →
     let t := s.acquireAt y sid c m
     let x := t.floor id a p
     let now := s.clock + 1
     t.hbm = s.hbm ∧ t.past = s.past ∧
     (y = .grove ∨ y = .die → e.place.die ≤ now → e.after x sid c = false) ∧
     (y ≠ .cord → (∃ k, e.writer = some (sid, k)) → e.place.stand ≤ now → e.after x sid c = false) ∧
     (e.writer = some (sid, c) → e.place.cord ≤ now → e.after x sid c = false) ∧
     ((∀ e ∈ s.past, e.meets h n = true → e.after x sid c = false) → (t.loadPast x sid c h n).2.1 = s.hbm.load h n) ∧
     (r ∈ s.seen → r.sid = sid → r.cord = c → r.since ≤ id → a.within p (r.threads &&& m) = true →
       (∃ pa k kind stream acq, r.what = .access pa k kind stream true acq) →
       let z := (s.fenced (.fenceAcq y) sid c m).floor id a p
       (y ≠ .cord → r.place.stand ≤ z.stand) ∧ (y = .grove ∨ y = .die → r.place.die ≤ z.die) ∧ r.place.cord ≤ z.cord))

/-- O18. MEM_ACCESS_COMPLETE and STORE_ACKNOWLEDGE perform the one part of an access that is left, when nothing holds
it back: a load delivers its lanes and leaves memory alone, a store leaves its bytes, an atomic the new word, and
nothing else in memory changes; what a store or an atomic replaces may still be read by loads that nothing orders
after it. An atomic reads what stands; a load reads what stands before some of the newest writes that nothing orders
before it, and what stands where there is none (R182, R184, R186, R190, R199, R203). Which it reads of these is a free
value, log 17. The word each atomic operation leaves (R199): the sum modulo 2^32, the signed and unsigned minimum and
maximum, the bitwise operations, the operand, the new value where the old word is the compared one, and the F32 sum
rounded once by .rne with the default NaN; and under .maxsi the operand where its BF16 score is greater, or equal with
a smaller index, or the stored score alone is a NaN (R200). -/
def Obligations.GlobalAccessesArePerformed : Prop :=
  (∀ (s : State) (id : Nat) (x : Item) (a : Access) (pre post : List Part) (p : Part) (i : Instr),
     i ∈ [Instr.memAccessComplete id, .storeAcknowledge id] → s.focus = none → s.hbm.wf = true →
     s.work? id = some x → x.work = .access a → a.parts = pre ++ p :: post →
     (∀ q ∈ pre ++ post, q.done = true ∧ q ≠ p) → s.partReady id a p = true →
     s.Whole →
     let loads : Bool := match a.kind with
       | .load _ | .scalarLoad _ => true
       | _ => false
     let passed : List Past := if loads then s.passable (s.floor id a p) a.sid a.cord p.pa p.n else []
     ∃ (n fresh : Nat) (seen : List Seen), n ≤ passed.length ∧
       let old := (rewind s.hbm (passed.take n)).load p.pa p.n
       let new : Nat := match a.kind with
         | .atomic op _ => (atomicNew op (BitVec.ofNat 32 old) (BitVec.ofNat 32 p.val) (BitVec.ofNat 32 p.cmp)).toNat
         | _ => p.val
       let q : Part := if a.kind = .store then { p with done := true } else { p with val := old, done := true }
       let t : State := if loads then { s with fresh := fresh, seen := seen } else
         { s with
             hbm := s.hbm.put p.pa (leBytes p.n new), seen := seen,
             past := ⟨p.pa, s.hbm.bytes p.pa p.n, s.uid, p.placeNow s.place, some (a.sid, a.cord)⟩ :: s.past }
       let u : State := if a.kind = .store then t.storeReleases a p else t
       exec i s = .next ({ u with works := s.works.filter fun w => w.id ≠ id }.modCord a.sid a.cord
         { a with parts := pre ++ q :: post }.deliver)) ∧
  (∀ old x y : Word,
     let new (op : AOp) : Word := atomicNew op old x y
     (new .add).toNat = (old.toNat + x.toNat) % 2 ^ 32 ∧ (new .min).toInt = min old.toInt x.toInt ∧
     (new .max).toInt = max old.toInt x.toInt ∧ (new .minu).toNat = min old.toNat x.toNat ∧
     (new .maxu).toNat = max old.toNat x.toNat ∧
     (∀ k < 32, (new .and).getLsbD k = (old.getLsbD k && x.getLsbD k) ∧ (new .or).getLsbD k = (old.getLsbD k || x.getLsbD k) ∧
       (new .xor).getLsbD k = (old.getLsbD k ^^ x.getLsbD k)) ∧
     new .xchg = x ∧ (old = y → new .cas = x) ∧ (old ≠ y → new .cas = old) ∧
     (let z := sumNums [FloatFmt.f32.value old.toNat, FloatFmt.f32.value x.toNat]
      new .fadd = BitVec.ofNat 32 (z.toFmt .f32).1 ∧ (z.isNan = true → new .fadd = 0x7FC00000)) ∧
     let score (w : Word) : Machine.Num := FloatFmt.bf16.value (w.toNat / 65536)
     let index (w : Word) : Nat := w.toNat % 65536
     let less (a b : Machine.Num) : Prop := match a, b with
       | .num _ _ _, .num _ _ _ => a.rat < b.rat
       | .inf true, .num _ _ _ | .num _ _ _, .inf false | .inf true, .inf false => True
       | _, _ => False
     let same (a b : Machine.Num) : Prop := match a, b with
       | .num _ _ _, .num _ _ _ => a.rat = b.rat
       | .inf s, .inf s' => s = s'
       | _, _ => False
     let wins : Prop := (score x).isNan = false ∧
       ((score old).isNan = true ∨ less (score old) (score x) ∨ same (score old) (score x) ∧ index x < index old)
     (wins → new .maxsi = x) ∧ (¬wins → new .maxsi = old))

/-- O19. A load of canonical memory reads what a store left there, and a store leaves every other byte (R1, R183). -/
def Obligations.MemoryReadsWhatWasStored : Prop :=
  ∀ (m : Memory) (a n v b : Nat) (bs : List Byte), m.wf = true →
    (m.store a n v).load a n = v % 256 ^ n ∧ (m.put a bs).bytes a bs.length = bs ∧
    (m.store a n v).read b = (if a ≤ b ∧ b < a + n then BitVec.ofNat 8 (v / 256 ^ (b - a)) else m.read b) ∧
    (m.put a bs).read b = (if a ≤ b ∧ b < a + bs.length then bs.getD (b - a) 0 else m.read b) ∧
    (m.zero a n).read b = (if a ≤ b ∧ b < a + n then 0 else m.read b)

/-! ### Copies -/

/-- O20. CPY, CPYT, CPYX, CPYM, MCDRAIN, CPYW and WEVICT with operands inside their limits enter the skidder's queue,
and hold their path while it holds 32 entries; a CPY with no active lane only goes on, and a CPYW.nb or WEVICT.nb
whose claim cannot be granted at once answers BUSY (R204, R205, R211 to R213, R218 to R222, R285). The fields of a
CPYT record and their limits; and a copy instruction with operands outside their limits raises the fault of its table
at issue and does nothing else: MISALIGNED of an address off its alignment, COPY_PARAM of a count or a record outside
its limits, SP_RANGE and ADDRESS_RANGE of a side beyond the window or 2^57, MCAST_RANGE of a receiver outside the
grove, and then COPY_PARAM, or MATRIX_PARAM of WEVICT, of a bit that must be zero, and PROTECTION of a slot that
another context owns (R207, R211 to R213, R218 to R222, R285, R374). COPY_DONE of a per-lane or bulk copy whose global
bytes are mapped and whole, with no tile task of its stand and no byte that it both reads and writes: its destination
holds the source's bytes, the rest of memory and of the scratchpad is as it was, and the status pair tells completion
and the count; while an access before it is outstanding it waits (R192, R205, R206, R211, R213). That all its bytes
move in one step is the model's choice, log 12; what a copy counts is log 13, and that its status is an acquire when
it is written is log 17. -/
def Obligations.CopiesBeginAndComplete : Prop :=
  (∀ (s : State) (f : Focus) (o : XOps) (d v : VCode) (r : SCode) (dir : CopyDir) (size : CopySize) (s2h nb : Bool),
     let core := f.stand.core
     let sp := f.stand.spGran * 16384
     let a := f.cord.sreg o.s
     let b := f.cord.sreg (o.s + 1)
     let field (x : DWord) (lo n : Nat) : Nat := (x.extractLsb' lo n).toNat
     let busy (i : Instr) (reg : VCode) : Prop := Issues i s f → skidFull s f = false →
       exec i s = .next (s.answered f reg.toNat 0x10 0)
     let begins (i : Instr) (m : Mask) (reg : VCode) (k : CopyKind) : Prop := Issues i s f →
       (skidFull s f = true → exec i s = .next s) ∧
       (skidFull s f = false → exec i s = .next
         (s.began f reg.toNat 2 (.copy (f.dest m reg.toNat) f.stand.die core k)))
     let n := match size with | .b4 => 4 | .b8 => 8 | .b16 => 16
     let inside (global : Bool) (x : Nat) : Prop := x % n = 0 ∧ if global then x + n ≤ 2 ^ 57 else x + n ≤ sp
     let moves := (Mask.toLanes f.active).map fun l => (l, f.laneAddr r v l, f.laneAddr r (v + 1) l)
     let off := f.addr o.s % 2 ^ 32
     let x := tensorRec (f.stand.sp.bytes off 64)
     let whole (base : Int) (k1 k2 k3 : Int) (bound : Int) : Prop :=
       ∀ i1 < x.e1, ∀ i2 < x.e2, ∀ i3 < x.e3,
         0 ≤ base + i1 * k1 + i2 * k2 + i3 * k3 ∧ base + i1 * k1 + i2 * k2 + i3 * k3 + x.e0 ≤ bound
     (f.active = 0 → Issues (.cpy d r v dir size) s f →
       exec (.cpy d r v dir size) s = .next (s.goneOn f f.cord)) ∧
     (f.active ≠ 0 → (∀ y ∈ moves, inside (dir = .h2s ∨ dir = .h2h) y.2.1 ∧ inside (dir = .s2h ∨ dir = .h2h) y.2.2) →
       begins (.cpy d r v dir size) f.active d (.lanes dir n moves)) ∧
     (s.Whole → off % 64 = 0 → off + 64 ≤ sp → x.limits = true → recField (f.stand.sp.bytes off 64) 22 2 = 0 →
       recField (f.stand.sp.bytes off 64) 60 4 = 0 → whole x.gaddr x.g1 x.g2 x.g3 (2 ^ 57) →
       whole x.spoff x.s1 x.s2 x.s3 sp →
       ∃ rows : List (Nat × Nat × Nat), begins (.cpyt o s2h) f.path.mask o.d (.tensor s2h rows) ∧
         rows.length = x.e1 * x.e2 * x.e3 ∧
         ∀ i1 < x.e1, ∀ i2 < x.e2, ∀ i3 < x.e3,
           let g := ((x.gaddr : Int) + i1 * x.g1 + i2 * x.g2 + i3 * x.g3).toNat
           let p := ((x.spoff : Int) + i1 * x.s1 + i2 * x.s2 + i3 * x.s3).toNat
           rows[i1 + x.e1 * (i2 + x.e2 * i3)]? = some (if s2h then p else g, if s2h then g else p, x.e0)) ∧
     (let dst := field a 32 32
      let src := field a 0 32
      let n := field b 32 21
      let obj := field b 0 32
      let c := field b 56 5
      dst % 16 = 0 → src % 16 = 0 → obj % 16 = 0 → 16 ≤ n → n ≤ 2 ^ 20 → n % 16 = 0 → src + n ≤ sp →
      c / 8 = core / 8 → b.extractLsb' 53 3 = 0#3 → b.extractLsb' 61 3 = 0#3 →
      begins (.cpyx o) f.path.mask o.d (.cross src dst obj n c 0 .reaching)) ∧
     (let src := field a 0 32
      let n := field a 32 14
      src % 16 = 0 → 16 ≤ n → n ≤ 8192 → n % 16 = 0 → src + n ≤ sp →
      (∀ c < 32, b.getLsbD c → c / 8 = core / 8) → a.extractLsb' 46 2 = 0#2 → b.extractLsb' 32 32 = 0#32 →
      begins (.cpym o) f.path.mask o.d (.park (a.extractLsb' 48 16) n src (b.extractLsb' 0 32))) ∧
     (let dst := field a 0 32
      dst % 16 = 0 → dst + 8192 ≤ sp → a.extractLsb' 48 16 = 0#16 →
      begins (.mcdrain o) f.path.mask o.d (.drain (a.extractLsb' 32 16) dst)) ∧
     (let slot := field b 0 7
      let scales := b.getLsbD 8
      a.toNat % 256 = 0 → a.toNat + 32768 + (if scales then 2048 else 0) ≤ 2 ^ 57 → b.getLsbD 7 = false →
      b.extractLsb' 9 55 = 0#55 →
      ((nb = true → claimFree s f slot = true) →
        begins (.cpyw o nb) f.path.mask o.d (.weight slot a.toNat scales (s.core f.stand.die core).taskSeq nb)) ∧
      (claimFree s f slot = false → busy (.cpyw o true) o.d)) ∧
     (let slot := field a 0 7
      a.extractLsb' 7 57 = 0#57 → s.owned f slot = false →
      ((nb = true → claimFree s f slot = true) →
        begins (.wevict o nb) f.path.mask o.d (.evict slot (s.core f.stand.die core).taskSeq)) ∧
      (claimFree s f slot = false → busy (.wevict o true) o.d))) ∧
  (∀ (s : State) (f : Focus) (o : XOps) (d v : VCode) (r : SCode) (dir : CopyDir) (size : CopySize) (s2h nb : Bool),
     skidFull s f = false → s.Whole →
     let grove := f.stand.core / 8
     let sp := f.stand.spGran * 16384
     let a := f.cord.sreg o.s
     let b := f.cord.sreg (o.s + 1)
     let field (x : DWord) (lo n : Nat) : Nat := (x.extractLsb' lo n).toNat
     let faults (i : Instr) (c : TrapCode) (val : Option DWord) : Prop :=
       Issues i s f → exec i s = .next (s.faulted i f { code := c, val := val })
     let misaligned (i : Instr) : Prop := ∃ val, faults i .misaligned val
     let at_ (x : Nat) : Option DWord := some (BitVec.ofNat 64 x)
     let off := f.addr o.s % 2 ^ 32
     let bytes := f.stand.sp.bytes off 64
     let x := tensorRec bytes
     let u (k n : Nat) : Nat := ((List.range n).map fun j => (bytes.getD (k + j) 0).toNat * 256 ^ j).sum
     let i (k n : Nat) : Int := (BitVec.ofNat (8 * n) (u k n)).toInt
     let beyond (base : Int) (k1 k2 k3 : Int) (bound : Int) : Prop :=
       ∃ i1 < x.e1, ∃ i2 < x.e2, ∃ i3 < x.e3,
         base + i1 * k1 + i2 * k2 + i3 * k3 < 0 ∨ bound < base + i1 * k1 + i2 * k2 + i3 * k3 + x.e0
     (x.gaddr = u 0 8 ∧ x.spoff = u 8 4 ∧ x.e0 = u 12 4 ∧ x.e1 = u 16 2 ∧ x.e2 = u 18 2 ∧ x.e3 = u 20 2 ∧
       x.g1 = i 24 8 ∧ x.g2 = i 32 8 ∧ x.g3 = i 40 8 ∧ x.s1 = i 48 4 ∧ x.s2 = i 52 4 ∧ x.s3 = i 56 4) ∧
     (x.limits = true ↔ x.gaddr < 2 ^ 57 ∧ x.gaddr % 4 = 0 ∧ x.spoff % 4 = 0 ∧ 4 ≤ x.e0 ∧ x.e0 ≤ 2 ^ 20 ∧ x.e0 % 4 = 0 ∧
       1 ≤ x.e1 ∧ 1 ≤ x.e2 ∧ 1 ≤ x.e3 ∧ (∀ k ∈ [x.g1, x.g2, x.g3, x.s1, x.s2, x.s3], k % 4 = 0) ∧
       x.e0 * x.e1 * x.e2 * x.e3 ≤ 2 ^ 24) ∧
     (let cpyt := Instr.cpyt o s2h
      (off % 64 ≠ 0 → faults cpyt .misaligned (at_ off)) ∧
      (off % 64 = 0 → sp < off + 64 → faults cpyt .spRange (at_ off)) ∧
      (off % 64 = 0 → off + 64 ≤ sp →
        (x.limits = false → faults cpyt .copyParam none) ∧
        (x.limits = true → beyond x.gaddr x.g1 x.g2 x.g3 (2 ^ 57) → faults cpyt .addressRange none) ∧
        (x.limits = true → ¬beyond x.gaddr x.g1 x.g2 x.g3 (2 ^ 57) →
          (beyond x.spoff x.s1 x.s2 x.s3 sp → faults cpyt .spRange none) ∧
          (¬beyond x.spoff x.s1 x.s2 x.s3 sp → u 22 2 ≠ 0 ∨ u 60 4 ≠ 0 → faults cpyt .copyParam none)))) ∧
     (let n := match size with | .b4 => 4 | .b8 => 8 | .b16 => 16
      let global (side : Bool) : Prop := if side then dir = .s2h ∨ dir = .h2h else dir = .h2s ∨ dir = .h2h
      let outside (side : Bool) (x : Nat) (c : TrapCode) : Prop :=
        (global side ∧ 2 ^ 57 < x + n ∧ c = .addressRange) ∨ (¬global side ∧ sp < x + n ∧ c = .spRange)
      let moves := (Mask.toLanes f.active).map fun l => (f.laneAddr r v l, f.laneAddr r (v + 1) l)
      let i := Instr.cpy d r v dir size
      ∀ pre post src dst, moves = pre ++ (src, dst) :: post →
        ((∀ y ∈ pre, y.1 % n = 0 ∧ y.2 % n = 0) → src % n ≠ 0 ∨ dst % n ≠ 0 → misaligned i) ∧
        ((∀ y ∈ moves, y.1 % n = 0 ∧ y.2 % n = 0) → (∀ y ∈ pre, ∀ c, ¬outside false y.1 c ∧ ¬outside true y.2 c) → ∀ c,
          (outside false src c → faults i c (at_ src)) ∧
          ((∀ c, ¬outside false src c) → outside true dst c → faults i c (at_ dst)))) ∧
     (let dst := field a 32 32
      let src := field a 0 32
      let n := field b 32 21
      let obj := field b 0 32
      let c := field b 56 5
      let i := Instr.cpyx o
      (dst % 16 ≠ 0 ∨ src % 16 ≠ 0 ∨ obj % 16 ≠ 0 → misaligned i) ∧
      (dst % 16 = 0 → src % 16 = 0 → obj % 16 = 0 →
        (n < 16 ∨ 2 ^ 20 < n ∨ n % 16 ≠ 0 → faults i .copyParam none) ∧
        (16 ≤ n → n ≤ 2 ^ 20 → n % 16 = 0 →
          (sp < src + n → faults i .spRange (at_ src)) ∧
          (src + n ≤ sp → c / 8 ≠ grove → faults i .mcastRange (at_ c)) ∧
          (src + n ≤ sp → c / 8 = grove → b.extractLsb' 53 3 ≠ 0#3 ∨ b.extractLsb' 61 3 ≠ 0#3 → faults i .copyParam none)))) ∧
     (let src := field a 0 32
      let n := field a 32 14
      let i := Instr.cpym o
      (src % 16 ≠ 0 → misaligned i) ∧
      (src % 16 = 0 →
        (n < 16 ∨ 8192 < n ∨ n % 16 ≠ 0 → faults i .copyParam none) ∧
        (16 ≤ n → n ≤ 8192 → n % 16 = 0 →
          (sp < src + n → faults i .spRange (at_ src)) ∧
          (src + n ≤ sp →
            (∀ c < 32, b.getLsbD c = true → c / 8 ≠ grove → (∀ k < c, b.getLsbD k = true → k / 8 = grove) →
              faults i .mcastRange (at_ c)) ∧
            ((∀ c < 32, b.getLsbD c = true → c / 8 = grove) → a.extractLsb' 46 2 ≠ 0#2 ∨ b.extractLsb' 32 32 ≠ 0#32 →
              faults i .copyParam none))))) ∧
     (let dst := field a 0 32
      let i := Instr.mcdrain o
      (dst % 16 ≠ 0 → misaligned i) ∧ (dst % 16 = 0 → sp < dst + 8192 → faults i .spRange (at_ dst)) ∧
      (dst % 16 = 0 → dst + 8192 ≤ sp → a.extractLsb' 48 16 ≠ 0#16 → faults i .copyParam none)) ∧
     (let n := 32768 + if b.getLsbD 8 then 2048 else 0
      let i := Instr.cpyw o nb
      (a.toNat % 256 ≠ 0 → misaligned i) ∧ (a.toNat % 256 = 0 → 2 ^ 57 < a.toNat + n → faults i .addressRange (some a)) ∧
      (a.toNat % 256 = 0 → a.toNat + n ≤ 2 ^ 57 → b.getLsbD 7 = true ∨ b.extractLsb' 9 55 ≠ 0#55 → faults i .copyParam none)) ∧
     (a.extractLsb' 7 57 ≠ 0#57 → faults (.wevict o nb) .matrixParam none) ∧
     (a.extractLsb' 7 57 = 0#57 → s.owned f (field a 0 7) = true → faults (.wevict o nb) .protection none)) ∧
  (∀ (s : State) (id : Nat) (t : Dest) (die core : Nat) (k : CopyKind) (st : Stand) (fromG toG : Bool)
       (moves : List (Nat × Nat × Nat)) (count : Nat) (pa : Nat → Nat) (leaf : Nat → Leaf),
     let a : Agent := ⟨st.die, st.ctx, st.sec && (s.core st.die st.core).skSecure, st.fpid, 1, st.core, (s.named t).2⟩
     let runs (va n : Nat) : List (Nat × Nat) := (pageRuns va n).map fun r => (hAddr st.die (pa (va + r.1)), r.2)
     let mapped (u : Use) (va n : Nat) : Prop := ∀ r ∈ pageRuns va n, s.Mapped a u (va + r.1) (pa (va + r.1)) (leaf (va + r.1))
     let srcRuns (x : Nat × Nat × Nat) : List (Nat × Nat) := if fromG then runs x.1 x.2.2 else [(x.1, x.2.2)]
     let dstRuns (x : Nat × Nat × Nat) : List (Nat × Nat) := if toG then runs x.2.1 x.2.2 else [(x.2.1, x.2.2)]
     let bytes (x : Nat × Nat × Nat) : List Byte :=
       (srcRuns x).flatMap fun r => (if fromG then s.hbm else st.sp).bytes r.1 r.2
     let written (m : Memory) : Memory := moves.foldl (fun m x =>
       (((dstRuns x).foldl (fun q r => (q.1.put r.1 (q.2.take r.2), q.2.drop r.2)) (m, bytes x)).1)) m
     s.focus = none → s.active? id = some (.copy t die core k) →
     (s.unreleased id t.sid t.cord t.mask = true → exec (.copyDone id) s = .next s) ∧
     (s.unreleased id t.sid t.cord t.mask = false → s.stand? t.sid = some st → s.noTasks t.sid →
     s.Whole →
     (∀ x ∈ moves, (fromG = true → mapped .read x.1 x.2.2) ∧ (toG = true → mapped .write x.2.1 x.2.2)) →
     (fromG = toG → ∀ x ∈ moves, ∀ y ∈ moves, ∀ r ∈ srcRuns x, ∀ w ∈ dstRuns y, r.1 + r.2 ≤ w.1 ∨ w.1 + w.2 ≤ r.1) →
     ((∃ dir n m, k = .lanes dir n m ∧ moves = m.map (fun x => (x.2.1, x.2.2, n)) ∧ count = n ∧
         fromG = decide (dir = .h2s ∨ dir = .h2h) ∧ toG = decide (dir = .s2h ∨ dir = .h2h)) ∨
       (∃ s2h, k = .tensor s2h moves ∧ count = (moves.map fun x => x.2.2).sum ∧ fromG = !s2h ∧ toG = s2h)) →
     ∃ (draws : Nat) (past : List Past) (exposed : Stand → List Unfenced), (toG = false → past = s.past) ∧
       exec (.copyDone id) s = .next (State.finishedWork
       { (s.modStand t.sid fun y => if toG then y else { y with sp := written y.sp, unfenced := exposed y }) with
           hbm := if toG then written s.hbm else s.hbm, past := past, fresh := s.fresh + draws }
       id t 0 (BitVec.ofNat 32 count))))

/-- O21. The transfers and shares of a grove: a CPYX opens at its receiver's oldest-started stand, each of its beats
puts at most 64 bytes there and counts them off the barrier object, and it reports; a CPYM parks in the first free
slot and reports when its shares are taken; an MCDRAIN takes the oldest share that suits it; what no stand opens in
time is discarded with TMO (R205, R206, R210, R214, R216, R219, R220). That an MCDRAIN takes its share in one step is
the model's choice, log 12. A claim on a canopy slot is granted when every earlier claim on it is complete and every
pin taken before it released: an eviction then clears the slot, and a fill reads its tile and side band, and each
raises GEN. A pin that waits is taken when every claim accepted before it is complete (R222, R258, R284, R285). That a
fill's bytes all land in the step that completes it is the model's choice, log 12. -/
def Obligations.TransfersAndClaimsAdvance : Prop :=
  (∀ (s : State) (id : Nat) (t : Dest) (die core src dst obj n rc sent : Nat) (tag : BitVec 16) (mask : Mask)
       (st rv : Stand) (slot : Nat) (h : Hold), s.focus = none → s.stand? t.sid = some st → st.sid = t.sid →
     let cross (x : Cross) (sent : Nat) : Work := .copy t die core (.cross src dst obj n rc sent x)
     let grove := core / 8
     let setHold (s : State) (h : Option Hold) : State := s.modGrove die grove fun g => { g with hold := g.hold.set slot h }
     let status (code bits drained : Nat) : Word := BitVec.ofNat 32 (code * 16 + bits * 4 + drained * 65536)
     (s.active? id = some (cross .reaching sent) → s.unreleased id t.sid t.cord t.mask = false →
       (s.receiver die rc st.tract = some rv →
         exec (.cpyxBeatArrive id) s = .next (s.setWork id (cross (.opened rv.sid) sent))) ∧
       (s.residentOf die rc st.tract = [] → (s.core die rc).ended.contains st.tract = true →
         exec (.cpyxBeatArrive id) s = .next (s.setWork id (cross .finished sent))) ∧
       (s.receiver die rc st.tract = none →
         s.residentOf die rc st.tract ≠ [] ∨ (s.core die rc).ended.contains st.tract = false →
         exec (.cpyxBeatArrive id) s = .next (s.setWork id (cross (.waiting (s.clock + 2 ^ 20)) sent)))) ∧
     (s.active? id = some (cross (.opened rv.sid) sent) → s.stand? rv.sid = some rv → s.noTasks rv.sid → s.Whole → sent < n →
       dst + n ≤ rv.spGran * 16384 → obj + 16 ≤ rv.spGran * 16384 → (rv.sid = st.sid → src + n ≤ dst ∨ dst + n ≤ src) →
       let k := min 64 (n - sent)
       ∃ draws : Nat, exec (.cpyxBeatArrive id) s = .next (State.setWork (State.countBarrier
         { (s.modStand rv.sid fun y => { y with
               sp := y.sp.put (dst + sent) (st.sp.bytes (src + sent) k),
               unfenced := y.unfenced ++ [⟨64, 0, dst + sent, k, none, { s.place with die := 0 }, []⟩] }) with fresh := s.fresh + draws }
         rv.sid obj (-(k : Int)) (decide (sent + k = n)) false) id (cross (.opened rv.sid) (sent + k)))) ∧
     (s.active? id = some (cross (.opened rv.sid) n) → s.unreleased id t.sid t.cord t.mask = false →
       exec (.copyDone id) s = .next (s.finishedWork id t (status 0 0 0) (BitVec.ofNat 32 n))) ∧
     (s.active? id = some (cross .finished sent) →
       exec (.cpyxBeatArrive id) s = .next (s.finishedWork id t (status 2 2 0) 0)) ∧
     (∀ e, e ≤ s.clock → s.active? id = some (cross (.waiting e) sent) →
       exec (.shareWaitTimeout id rc) s = .next (s.finishedWork id t (status 2 1 0) 0)) ∧
     (s.active? id = some (.copy t die core (.park tag n src mask)) → s.unreleased id t.sid t.cord t.mask = false →
       (mask = 0 → exec (.cpymPark id) s = .next (s.finishedWork id t (status 0 0 0) 0)) ∧
       (mask ≠ 0 → (s.grove die grove).hold[slot]? = some none →
         (∀ j < slot, ((s.grove die grove).hold.getD j none).isSome) → s.Whole →
         (∀ c < 32, mask.getLsbD c → s.residentOf die c st.tract ≠ []) →
         let h : Hold :=
           { tract := st.tract, tag := tag, bytes := st.sp.bytes src n, shares := (Mask.toLanes mask).map Share.opened,
             drained := 0, fin := false, tmo := false, order := s.uid, copy := id }
         exec (.cpymPark id) s = .next (((State.setWork { setHold s (some h) with uid := s.uid + 1 } id
           (.copy t die core (.parked slot))).modCord t.sid t.cord fun c =>
             (c.writeV (t.d + 1) t.mask (fun _ => BitVec.ofNat 32 n) .general).unmarkV [t.d + 1]).acquireAt .die t.sid t.cord
               t.mask))) ∧
     (s.active? id = some (.copy t die core (.parked slot)) → s.unreleased id t.sid t.cord t.mask = false →
       (s.grove die grove).hold[slot]? = some (some h) → h.shares = [] →
       exec (.copyDone id) s = .next ((State.modCord { setHold s none with works := s.works.filter fun w => w.id ≠ id }
         t.sid t.cord fun c => (c.writeV t.d t.mask (fun _ => statusLow (if h.fin || h.tmo then 2 else 0) h.fin h.tmo 0
           h.drained) .general).unmarkV [t.d]).acquireAt .die t.sid t.cord t.mask)) ∧
     (s.active? id = some (.copy t die core (.drain tag dst)) → s.noTasks t.sid → s.Whole → st.phase.isSaving = false →
       (∀ i ∈ s.works.takeWhile (fun i => i.id ≠ id), ∀ t' d' c' g' p', i.work = .copy t' d' c' (.drain g' p') →
         (d', c', g') ≠ (die, core, tag)) → (s.grove die grove).hold[slot]? = some (some h) → h.tag = tag →
       h.tract = st.tract → Share.opened core ∈ h.shares →
       (∀ j y, (s.grove die grove).hold[j]? = some (some y) → y.tag = tag → y.tract = st.tract →
         Share.opened core ∈ y.shares → j = slot ∨ h.order < y.order) →
       let left : Hold := { h with shares := h.shares.filter fun x => x ≠ .opened core, drained := h.drained + 1 }
       ∃ (draws : Nat) (exposed : Stand → List Unfenced), exec (.mcdrainMatch id) s = .next (State.finishedWork
         { setHold (s.modStand t.sid fun y => { y with sp := y.sp.put dst h.bytes, unfenced := exposed y }) (some left) with
             fresh := s.fresh + draws }
         id t 0 (BitVec.ofNat 32 h.bytes.length))) ∧
     (∀ e c, e ≤ s.clock → s.active? id = some (.copy t die core (.parked slot)) →
       (s.grove die grove).hold[slot]? = some (some h) → h.shares = [Share.waiting c e] →
       exec (.shareWaitTimeout id c) s = .next (setHold s (some { h with shares := [], tmo := true })))) ∧
  (∀ (s : State) (id : Nat) (t : Dest) (die core slot src seq : Nat) (scales g : Bool) (st : Stand) (pa : Nat → Nat)
       (leaf : Nat → Leaf), s.focus = none → s.stand? t.sid = some st →
     let n := 32768 + (if scales then 2048 else 0)
     let a : Agent := ⟨st.die, st.ctx, st.sec && (s.core st.die st.core).skSecure, st.fpid, 1, st.core, (s.named t).2⟩
     let free : Prop := (s.claims die core slot).takeWhile (fun x => x.1 ≠ id) = [] ∧
       s.pinnedBefore die core slot seq = false ∧ (s.before id).any (Work.pinsSlot die core slot) = false
     let fills (owner : Option Nat) (f : Canopy → Canopy) : State := s.modCore die core fun k =>
       { k with canopy := k.canopy.modify slot fun x => { f x with owner := owner, gen := (x.gen + 1) % 2 ^ 32 } }
     let bytes : List Byte := (pageRuns src n).flatMap fun r => s.hbm.bytes (hAddr st.die (pa (src + r.1))) r.2
     (s.active? id = some (.copy t die core (.evict slot seq)) → free → s.Whole →
       exec (.wevictClaimGrant id) s = .next
         ((fills none fun x => { x with bytes := [], side := [] }).repliedWork id t 0 0)) ∧
     (s.active? id = some (.copy t die core (.weight slot src scales seq g)) →
       free → s.unreleased id t.sid t.cord t.mask = false →
       exec (.cpywClaimGrant id) s = .next (s.setWork id (.copy t die core (.weight slot src scales seq true)))) ∧
     (s.active? id = some (.copy t die core (.weight slot src scales seq true)) →
       s.Whole →
       (∀ r ∈ pageRuns src n, s.Mapped a .read (src + r.1) (pa (src + r.1)) (leaf (src + r.1))) →
       ∃ f : Canopy → Canopy, exec (.cpywFillDone id) s = .next
           ((fills (some st.ctx) f).finishedWork id t 0 (BitVec.ofNat 32 n)) ∧
         ∀ x : Canopy, (f x).pins = x.pins ∧ (∀ k < 32768, (f x).bytes.read k = bytes.getD k 0) ∧
           (scales = true → ∀ k < 2048, (f x).side.read k = bytes.getD (32768 + k) 0) ∧
           (scales = false → (f x).side = x.side)) ∧
     (s.active? id = some (.pin t die core slot) → (∀ x ∈ s.claims die core slot, id ≤ x.1) →
       (∀ v ∈ (s.die die).saved, v.sid ≠ t.sid) →
       let x := (s.core die core).canopy.getD slot {}
       x.pins < 65535 → (∀ c ∈ x.owner, c = st.ctx) →
       exec (.cpywClaimGrant id) s = .next ((State.modStand ({ s with works := s.works.filter fun w => w.id ≠ id }.modCore
           die core fun k => { k with canopy := k.canopy.modify slot fun y => { y with pins := y.pins + 1 } })
           t.sid fun y => { y with pins := y.pins ++ [slot] }).modCord t.sid t.cord fun c =>
         (c.writeV t.d t.mask (fun _ => BitVec.ofNat 32 (x.pins + 1)) .general).unmarkV [t.d])))

/-! ### Crews, barriers, futures, tasks, grove words, time -/

/-- O22. What BARI and the beats of a CPYX make of a barrier object, and a PBAR of a phase-bit object: the fields of
R215 and R234 change as R216 and R235 say, and no other byte (R215, R216, R234, R235). BARI counts its bytes into its
object; BARW goes on when the object is complete and parks otherwise; PBAR sends its arrival to the bank and goes on;
PWAIT goes on when the phase is not its parity and parks in the wait table otherwise; PBAR_BANK_STEP changes the
object and wakes the path parked on it when the phase flips. A wait that is over acquires, and the bank's step
releases (R193, R216, R217, R227, R235, R236). -/
def Obligations.BarriersCountAndComplete : Prop :=
  ((∀ (m : Memory) (o : Nat) (k : Int) (last arm : Bool), m.wf = true →
     let r := barrierCount m o k last arm
     let remain : DWord := BitVec.ofNat 64 (m.load o 8) + BitVec.ofInt 64 k
     let bits := m.load (o + 12) 4
     let bits' := r.1.load (o + 12) 4
     let armed := arm || bits.testBit 0
     r.1.load o 8 = remain.toNat ∧ r.1.load (o + 8) 4 = (m.load (o + 8) 4 + last.toNat) % 2 ^ 32 ∧
     bits'.testBit 0 = armed ∧
     bits'.testBit 1 = (bits.testBit 1 || armed && decide (remain.toInt ≤ 0)) ∧
     bits'.testBit 2 = (bits.testBit 2 || armed && decide (remain.toInt < 0)) ∧ bits' / 8 = bits / 8 ∧
     r.2 = (armed && !bits.testBit 1 && decide (remain.toInt ≤ 0)) ∧
     ∀ a, a < o ∨ o + 16 ≤ a → r.1.read a = m.read a) ∧
   (∀ (w : DWord) (k : Nat), w.extractLsb' 0 16 ≠ 0#16 → 0 < k → k < 2 ^ 16 →
     let expect := (w.extractLsb' 0 16).toNat
     let n := (w.extractLsb' 16 16).toNat + k
     phaseArrive w.toNat k =
       if n < expect then ((w.extractLsb' 32 32 ++ BitVec.ofNat 16 n ++ w.extractLsb' 0 16).toNat, false)
       else ((w.extractLsb' 34 30 ++ (if n = expect then w.extractLsb' 33 1 else 1#1) ++ ~~~(w.extractLsb' 32 1) ++ 0#16 ++
         w.extractLsb' 0 16).toNat, true))) ∧
  ((∀ (s : State) (f : Focus) (o : XOps) (r : SCode),
     let off (r : SCode) := f.addr r % 2 ^ 32
     let sp := f.stand.spGran * 16384
     let k := ((f.cord.vreg o.d.toNat).lane (Mask.low f.path.mask)).toNat
     let q := k.testBit 0
     let quiet : Prop := pbarPending s f = false ∧ s.Whole
     (Issues (.bari o) s f → quiet → off o.s % 16 = 0 → off o.s + 16 ≤ sp →
       exec (.bari o) s = .next ((s.seat f.advance.whole).countBarrier f.stand.sid (off o.s) k false true)) ∧
     (Issues (.barw r) s f → quiet → off r % 16 = 0 → off r + 16 ≤ sp → exec (.barw r) s = .next
       (if (f.stand.sp.load (off r + 12) 4).testBit 1 then (s.acquireAt .grove f.stand.sid f.cord.id f.path.mask).goneOn f f.cord
        else s.parked f (.barrier (off r)))) ∧
     (Issues (.pbar o) s f → off o.s % 8 = 0 → off o.s + 8 ≤ sp → 1 ≤ k → k ≤ 0xFFFF →
       exec (.pbar o) s = .next
         ((s.withWork (.pbar (f.dest f.path.mask 0) (off o.s) k)).goneOn f f.cord)) ∧
     (Issues (.pwait o) s f → quiet → off o.s % 8 = 0 → off o.s + 8 ≤ sp →
       ((s.core f.stand.die f.stand.core).waits.filter fun w => !w.spilled).length < 256 →
       exec (.pwait o) s = .next
         (if (f.stand.sp.load (off o.s) 8).testBit 32 ≠ q then
             (s.acquireAt .stand f.stand.sid f.cord.id f.path.mask).goneOn f f.cord
          else (s.modCore f.stand.die f.stand.core fun x => { x with
             waits := x.waits ++ [⟨f.stand.sid, f.cord.id, f.slotB, false, off o.s, false⟩] }).parked f
               (.phase (off o.s) q)))) ∧
   (∀ (s : State) (id : Nat) (t : Dest) (st : Stand) (off k : Nat),
     s.focus = none → s.active? id = some (.pbar t off k) → s.pbarWaits id t = false →
     s.stand? t.sid = some st → s.Whole → nbits (st.sp.load off 8) 15 0 ≠ 0 →
     let r := phaseArrive (st.sp.load off 8) k
     let left (s : State) : State := { s with works := s.works.filter fun w => w.id ≠ id }
     let counted : State := ((left (s.takePlaces .stand (s.pbarParts id t))).noteStep t.sid t.cord t.mask 0 0).modStand
       t.sid fun y => s.released { y with sp := y.sp.store off 8 r.1 } t.cord t.mask
     (r.2 = false → exec (.pbarBankStep id) s = .next counted) ∧
     (r.2 = true → (s.core st.die st.core).waits = [] → exec (.pbarBankStep id) s = .next counted) ∧
     (∀ c b p q, r.2 = true → (s.core st.die st.core).waits = [⟨t.sid, c, b, false, off, false⟩] →
       s.path? t.sid c b = some p → p.wait = some (.phase off q) →
       exec (.pbarBankStep id) s = .next (((counted.modCore st.die st.core fun x => { x with waits := [] }).modCord
         t.sid c fun y => match y.slot b with
           | some p => y.setSlot b (some { p with
               pc := p.pc + 4, pfx := none, wait := none, chain := {}, yielded := false })
           | none => y).acquireAt .stand t.sid c p.mask))))

/-- O23. CJOIN, CLEAVE and CBAR: a cord joins a crew while it is in fewer than four and the table has room, leaves it,
and waits in it; the last member's arrival reduces the contributions and wakes every arrived path with the result. An
arrival releases at grove scope, when what it orders is performed (R193, R229 to R233). -/
def Obligations.CrewsComplete : Prop :=
  ∀ (s : State) (f : Focus) (o : XOps) (r : SCode) (pre post : List Crew) (c : Crew),
    let st := f.stand
    let g := st.core / 8
    let crews := (s.grove st.die g).crews
    let key (r : SCode) : BitVec 16 := (f.cord.sreg r).extractLsb' 0 16
    let zero (r : SCode) (n : Nat) : Prop := (f.cord.sreg r).extractLsb' n (64 - n) = 0
    let named (r : SCode) (x : Crew) : Prop := x.tract = st.tract ∧ x.key = key r
    let only (r : SCode) : Prop := crews = pre ++ c :: post ∧ named r c ∧ ∀ x ∈ pre ++ post, ¬named r x
    let mine := f.cord.crews
    let answer (s : State) (cs : List (BitVec 16)) (x : Word) : State :=
      s.goneOn f ({ f.cord with crews := cs }.writeV o.d.toNat f.path.mask (fun _ => x) .general)
    let set (cs : List Crew) : State := s.modGrove st.die g fun x => { x with crews := cs }
    (Issues (.cjoin o) s f → zero o.s 16 →
      (key o.s ∈ mine → only o.s → exec (.cjoin o) s = .next (answer s mine (BitVec.ofNat 32 c.members))) ∧
      (key o.s ∉ mine → 4 ≤ mine.length → exec (.cjoin o) s = .next (s.faulted (.cjoin o) f { code := .syncParam })) ∧
      (key o.s ∉ mine → mine.length < 4 → (∀ x ∈ crews, ¬named o.s x) → 16 ≤ crews.length →
        exec (.cjoin o) s = .next (answer s mine 0xFFFFFFFF)) ∧
      (key o.s ∉ mine → mine.length < 4 → (∀ x ∈ crews, ¬named o.s x) → crews.length < 16 →
        exec (.cjoin o) s = .next (answer (set (crews ++ [⟨st.tract, key o.s, 1, 0, []⟩])) (mine ++ [key o.s]) 1)) ∧
      (key o.s ∉ mine → mine.length < 4 → only o.s → c.members ≠ 0 → exec (.cjoin o) s = .next
        (answer (set (pre ++ { c with members := c.members + 1 } :: post)) (mine ++ [key o.s])
          (BitVec.ofNat 32 (c.members + 1))))) ∧
    (Issues (.cleave r) s f → zero r 16 →
      (key r ∉ mine → exec (.cleave r) s = .next (s.goneOn f f.cord)) ∧
      (key r ∈ mine → only r → c.arrived = [] → exec (.cleave r) s = .next
        ((set ((pre ++ { c with members := c.members - 1 } :: post).filter fun x => x.members ≠ 0)).seat
          { f with cord := { f.cord with crews := mine.filter fun k => k ≠ key r } }.advance.whole))) ∧
    (let v := f.cord.sreg o.s
     let op := (v.extractLsb' 16 4).toNat
     let x : Arrival := ⟨st.sid, f.cord.id, f.slotB, v.extractLsb' 32 32, o.d.toNat⟩
     let all := c.arrived ++ [x]
     let result : Word := if op = 0 then BitVec.ofNat 32 c.members
       else match all.map Arrival.value with
         | [] => 0
         | y :: ys => ys.foldl (crewFold op) y
     let put (arrived : List Arrival) : State :=
       (set (pre ++ { c with op := op, arrived := arrived } :: post)).parked
         { f with stand := s.released st f.cord.id f.path.mask } (.crew (key o.s) o.d.toNat)
     Issues (.cbar o) s f → st.phase = .running → releaseHeld s f = false →
      key o.s ∈ mine → op ≤ 8 → v.extractLsb' 20 12 = 0#12 → only o.s → (c.arrived = [] ∨ c.op = op) →
      (all.length ≠ c.members → exec (.cbar o) s = .next (put all)) ∧
      (all.length = c.members → exec (.cbar o) s = .next
        (all.foldl (fun s a => s.wakePath a.sid a.cord a.slotB fun m y =>
          y.writeV a.d m (fun _ => result) .general) (put []))))

/-- O24. The value of each reduction of a crew: the sum modulo 2^32, the signed and the unsigned least and greatest,
and the bitwise and, or and exclusive or of the contributions; each is associative and commutative, so that the result
does not depend on the order of arrival (R233). -/
def Obligations.CrewReductionsCommute : Prop :=
  (∀ a b : Word,
    (crewFold 1 a b).toNat = (a.toNat + b.toNat) % 2 ^ 32 ∧
    (crewFold 2 a b).toInt = min a.toInt b.toInt ∧ (crewFold 3 a b).toInt = max a.toInt b.toInt ∧
    (crewFold 4 a b).toNat = min a.toNat b.toNat ∧ (crewFold 5 a b).toNat = max a.toNat b.toNat ∧
    ∀ n < 32, (crewFold 6 a b).getLsbD n = (a.getLsbD n && b.getLsbD n) ∧
      (crewFold 7 a b).getLsbD n = (a.getLsbD n || b.getLsbD n) ∧
      (crewFold 8 a b).getLsbD n = (a.getLsbD n != b.getLsbD n)) ∧
  (∀ (c : Crew) (x : Arrival) (r : List Arrival), c.arrived = x :: r →
    c.acc = r.foldl (fun a y => crewFold c.op a y.value) x.value) ∧
  ∀ op, 1 ≤ op → op ≤ 8 → (∀ a b : Word, crewFold op a b = crewFold op b a) ∧
    (∀ a b c : Word, crewFold op (crewFold op a b) c = crewFold op a (crewFold op b c)) ∧
    ∀ (c d : Crew), c.op = op → d.op = op → c.arrived.Perm d.arrived → c.acc = d.acc

/-- O25. FRES begins a resolution; FWAIT on a full or poisoned future takes its value, and on an empty one counts a
waiter in and parks; FTEST takes the state word; FUTURE_RESOLVE leaves the value and an empty wait count and sends a
wake to every core when waiters are shown; FUTURE_WAKE wakes the path registered on the address with the value; a
second resolution is DOUBLE_RESOLVE. A resolution releases at die scope, and a value taken or a state seen full
acquires (R193, R226, R227, R237 to R241). That FWAIT and FTEST take their step as they issue is log 16, and that
waits match on the physical address is log 83. -/
def Obligations.FuturesComplete : Prop :=
  (∀ (s : State) (f : Focus) (o : XOps) (poison : Bool) (pa : Nat) (leaf : Leaf),
    let st := f.stand
    let va := f.addr o.s
    let h := hAddr st.die pa
    let w : DWord := BitVec.ofNat 64 (s.hbm.load h 8)
    let word (n : Nat) : Word := BitVec.ofNat 32 (s.hbm.load (h + n) 4)
    let low (d : VCode) : Word := (f.cord.vreg d.toNat).lane (Mask.low f.path.mask)
    let waited : DWord := 1#2 ++ w.extractLsb' 32 30 ++ (w.extractLsb' 0 32 + 1)
    let ready : Prop := futureHeld s f h = false ∧ s.Whole ∧
      ((s.core st.die st.core).waits.filter fun w => !w.spilled).length < 256
    va % 16 = 0 → va + 16 ≤ 2 ^ 57 → s.Mapped f.agent .atomic va pa leaf →
    (Issues (.fres o poison) s f → exec (.fres o poison) s = .next
      ((s.withWork (.resolve { die := st.die, ctx := st.ctx, dest := some (f.dest f.path.mask 0) } va (some pa)
        (low (o.d + 1) ++ low o.d) poison)).goneOn f f.cord)) ∧
    (Issues (.fwait o) s f → ready →
      (w.getLsbD 63 = true → exec (.fwait o) s = .next
        ((s.acquireAt .die st.sid f.cord.id f.path.mask).answered f o.d.toNat (word 8) (word 12))) ∧
      (w.getLsbD 63 = false → exec (.fwait o) s = .next (State.parked
        ({ s.remember none s.place h 16 with hbm := s.hbm.store h 8 waited.toNat }.modCore st.die st.core fun x => { x with
          waits := x.waits ++ [(⟨st.sid, f.cord.id, f.slotB, true, pa, false⟩ : Waiter)] }) f (.future pa o.d.toNat)))) ∧
    (Issues (.ftest o) s f → ready → exec (.ftest o) s = .next
      ((if w.getLsbD 63 then s.acquireAt .die st.sid f.cord.id f.path.mask
        else s.noteStep st.sid f.cord.id f.path.mask h 16).answered f o.d.toNat (word 0) (word 4)))) ∧
  (∀ (s : State) (id die pa va : Nat) (t : Dest) (ctx : Nat) (v : DWord) (poison : Bool), s.focus = none →
    s.active? id = some (.resolve { die := die, ctx := ctx, dest := some t } va (some pa) v poison) →
    s.unreleased id t.sid t.cord t.mask = false → s.Whole →
    let h := hAddr die pa
    let w : DWord := BitVec.ofNat 64 (s.hbm.load h 8)
    let gone (s : State) : State := { s with works := s.works.filter fun w => w.id ≠ id }
    let told : State := (s.modStand t.sid fun x => s.released x t.cord t.mask).noteStep t.sid t.cord t.mask h 16
    let full : DWord := (if poison then 3#2 else 2#2) ++ w.extractLsb' 32 30 ++ 0#32
    let resolved : State := { (gone told).remember none s.place h 16 with hbm := (s.hbm.store h 8 full.toNat).store (h + 8) 8 v.toNat }
    (w.getLsbD 63 = false → exec (.futureResolve id) s = .next
      (if w.getLsbD 62 ∨ w.extractLsb' 0 32 ≠ 0#32 then
        (List.range 32).foldl (fun s c => s.withWork (.wake die c pa)) resolved else resolved)) ∧
    (w.getLsbD 63 = true → exec (.futureResolve id) s = .next
      ((gone s).trapInFlight t { code := .doubleResolve, val := some (BitVec.ofNat 64 va) }))) ∧
  (∀ (s : State) (id die core pa : Nat), s.focus = none → s.active? id = some (.wake die core pa) →
    let clear (x : Task) : Task := { x with registered := x.registered.filter fun y => y ≠ pa }
    let arrived (waits : List Waiter) : State := { s with works := s.works.filter fun w => w.id ≠ id }.modCore die core
      fun x => { x with q0 := x.q0.map clear, q1 := x.q1.map clear, waits := waits }
    ((s.core die core).waits = [] → exec (.futureWake id) s = .next (arrived [])) ∧
    (∀ sid c b p d st, (s.core die core).waits = [⟨sid, c, b, true, pa, false⟩] → s.stand? sid = some st →
      st.die = die → st.core = core → s.path? sid c b = some p → p.wait = some (.future pa d) →
      let word (n : Nat) : Word := BitVec.ofNat 32 (s.hbm.load (hAddr die pa + n) 4)
      exec (.futureWake id) s = .next ((arrived []).wakePath sid c b fun m x => x.writePair d m (word 8) (word 12))))

/-- O26. SPAWN, TAKE, STEAL and DONE of a mapped set begin one step on it, with SPAWN's record captured (R243 to
R247). What is checked at issue, and what in the step, is log 18. DEQUE_STEP on a sound deque in one page does what
R245 to R247 say, in one step: a full push answers 1 and an empty pop zeros; a push puts the record at BOTTOM and
raises it, a TAKE lowers BOTTOM, a STEAL raises TOP, and a DONE lowers JOIN and pushes the record when it reaches 0. A
SPAWN and a DONE release; a DONE, and a TAKE or STEAL of a record, acquire (R193, R244 to R247). That these steps are
one step each is log 18. -/
def Obligations.DequesBeginAndStep : Prop :=
  (∀ (s : State) (f : Focus) (o : XOps) (p q : Nat) (k k' : Leaf),
     let st := f.stand
     let a := f.cord.sreg o.s
     let b := f.cord.sreg (o.s + 1)
     let begins (i : Instr) (base c n : Nat) (op : DequeOp) : Prop := Issues i s f → base % 4096 = 0 →
       base + 0x80 + 0x40 * c ≤ 2 ^ 57 → s.Mapped f.agent .atomic base p k →
       exec i s = .next (s.began f o.d.toNat n (.deque (f.dest f.path.mask o.d.toNat) op))
     let off := (b.extractLsb' 0 32).toNat
     let r := st.sp.bytes off 32
     (s.Whole → off % 32 = 0 → off + 32 ≤ st.spGran * 16384 → b.extractLsb' 32 32 = 0#32 →
       recField r 0 8 ≠ 0 → recField r 20 4 < 256 →
       begins (.spawn o) a.toNat st.core 1 (.spawn a.toNat r)) ∧
     begins (.take o) a.toNat st.core 8 (.take a.toNat) ∧
     (b.extractLsb' 5 59 = 0#59 →
       begins (.steal o) a.toNat (b.extractLsb' 0 5).toNat 8 (.steal a.toNat (b.extractLsb' 0 5).toNat)) ∧
     (a.toNat % 32 = 0 → a.toNat + 32 ≤ 2 ^ 57 → s.Mapped f.agent .atomic a.toNat q k' →
       begins (.done o) b.toNat st.core 1 (.done a.toNat b.toNat))) ∧
  (∀ (s : State) (id : Nat) (t : Dest) (op : DequeOp) (st : Stand) (pa pr : Nat) (k k' : Leaf), s.focus = none →
     s.active? id = some (.deque t op) → s.dequeBefore id t = false → s.stand? t.sid = some st → s.Whole →
     let pushes := match op with | .spawn _ _ | .done _ _ => true | _ => false
     (pushes = true → s.unreleased id t.sid t.cord t.mask = false) →
     let base := match op with | .spawn b _ | .take b | .steal b _ | .done _ b => b
     let c := match op with | .steal _ c => c | _ => st.core
     let a : Agent := ⟨st.die, st.ctx, st.sec, st.fpid, 0, st.core, (s.named t).2⟩
     let h := hAddr st.die pa
     let hq := h + 0x40 + 0x40 * c
     let m := s.hbm
     let lg := m.load h 4
     let cap := 2 ^ lg
     let top := m.load hq 4
     let bottom := m.load (hq + 4) 4
     let size := (bottom + 2 ^ 32 - top) % 2 ^ 32
     let ring (i : Nat) := 0x1000 + (c * cap + i % cap) * 32
     base + 0x1000 + 32 * cap * (c + 1) ≤ 2 ^ 57 →
     (∀ n < 0x1000 + 32 * cap * (c + 1), s.Mapped a .atomic (base + n) (pa + n) k) →
     base % 4096 = 0 → c < 32 → 4 ≤ lg → lg ≤ 16 → size ≤ cap → (∀ n < 60, m.read (h + 4 + n) = 0) → (∀ n < 56, m.read (hq + 8 + n) = 0) →
     let words (a : Nat) : List Word := (List.range 8).map fun n => BitVec.ofNat 32 (m.load (a + 4 * n) 4)
     let heads := [(h, 64), (hq, 64)] ++ match op with | .done _ _ => [(hAddr st.die pr, 32)] | _ => []
     let told : State := if pushes then s.modStand t.sid fun x => s.released x t.cord t.mask else s
     let ends (m' : Memory) (ws : List Word) (at' : List Nat) (acquires : Bool) : Prop := ∃ past,
       let noted : State := (heads ++ at'.map fun a => (a, 32)).foldl
         (fun (x : State) (y : Nat × Nat) => x.noteStep t.sid t.cord t.mask y.1 y.2)
         { told with works := s.works.filter fun w => w.id ≠ id, hbm := m', past := past }
       exec (.dequeStep id) s = .next
         (State.writeGroup (if acquires then noted.acquireAt .die t.sid t.cord t.mask else noted) t ws)
     s.touchBefore id t heads = false →
     let push (m : Memory) (r : List Byte) : Memory :=
       (m.put (h + ring bottom) r).put (hq + 4) (leBytes 4 ((bottom + 1) % 2 ^ 32))
     (∀ b r, op = .spawn b r → r.length = 32 → if size = cap then ends m [1] [] false
       else ends (push m r) [0] [h + ring bottom] false) ∧
     (∀ b, op = .take b → if size = 0 then ends m (List.replicate 8 0) [] false else
       let i := (bottom + 2 ^ 32 - 1) % 2 ^ 32
       ends (m.put (hq + 4) (leBytes 4 i)) (words (h + ring i)) [h + ring i] true) ∧
     (∀ b x, op = .steal b x → if size = 0 then ends m (List.replicate 8 0) [] false else
       ends (m.put hq (leBytes 4 ((top + 1) % 2 ^ 32))) (words (h + ring top)) [h + ring top] true) ∧
     (∀ b ra, op = .done ra b → ra % 32 = 0 → ra + 32 ≤ 2 ^ 57 →
       s.Mapped a .atomic ra pr k' →
       let hr := hAddr st.die pr
       let join : Word := BitVec.ofNat 32 (m.load (hr + 16) 4)
       let r := m.bytes hr 16 ++ leBytes 4 (join - 1).toNat ++ m.bytes (hr + 20) 12
       0 < join.toInt → m.load hr 8 ≠ 0 → m.load (hr + 20) 4 < 256 →
       if join ≠ 1 then ends (m.put hr r) [0] [] true else if size = cap then ends (m.put hr r) [2] [] true
       else ends (push (m.put hr r) r) [1] [h + ring bottom] true))

/-- O27. GMAX, GMIN, GRD and GWAIT on the words of the path's own context: the fold, the value an EMPTY word reads as,
and the wait of a GWAIT whose value stands, which a changing fold wakes with the new value. A changing fold releases
at grove scope, when what it orders is performed, and a read of a folded word acquires (R193, R248 to R251). SLEEP
goes on or parks, and RDCLK reads CLK; the end of a sleep and of a stall move their path on; the pending head older
than AGELIM takes the slot of the youngest live path; a walk that ends fills both TLBs, and a lookup that the core's
TLB misses takes the die's translation, or that of the walk in flight of its page, or begins a walk (R34, R63, R138,
R152, R174, R252 to R254). That slot B's path is the younger of two of one age is the model's choice, log 76, and that
a walk's translation is known when it begins is log 14. -/
def Obligations.GroveWordsAndTimeComplete : Prop :=
  (∀ (s : State) (f : Focus) (r : SCode) (w : BitVec 4) (grow : Bool),
     let st := f.stand
     let g := (s.grove st.die (st.core / 8)).word st.owner w.toNat
     let x := f.cord.sreg r
     let now : DWord := g.value.getD 0x8000000000000000
     let set (s : State) (y : GroveWord) : State := s.modWord st.die (st.core / 8) st.owner w.toNat fun _ => y
     let v : DWord := match g.value with
       | none => x
       | some y => if grow then (if y.slt x then x else y) else (if x.slt y then x else y)
     let i : Instr := if grow then .gmax r w else .gmin r w
     let folded : State := s.seat { f with cord := f.cord.writeS r v }.advance.whole
     let told : State :=
       s.seat { f with stand := s.released st f.cord.id f.path.mask, cord := f.cord.writeS r v }.advance.whole
     let read (c : Cord) : State :=
       (if g.value.isSome then s.acquireAt .grove st.sid f.cord.id f.path.mask else s).goneOn f c
     (Issues i s f → releaseHeld s f = false →
       (g.value = some v → exec i s = .next folded) ∧
       (g.value ≠ some v → g.waits = [] → exec i s = .next (set told { value := some v, waits := [] })) ∧
       (∀ sid c b p d, g.value ≠ some v → g.waits = [(sid, c, b)] → told.path? sid c b = some p →
         p.wait = some (.grove w.toNat now d) →
         exec i s = .next ((set told { value := some v, waits := [] }).wakePath sid c b fun _ y =>
           match (y.slot b).bind Path.wait with
           | some (.grove _ _ d) => y.writeS (BitVec.ofNat 5 d) v
           | _ => y))) ∧
     (Issues (.grd r w) s f → exec (.grd r w) s = .next (read (f.cord.writeS r now))) ∧
     (Issues (.gwait r w) s f →
       (now ≠ x → exec (.gwait r w) s = .next (read (f.cord.writeS r now))) ∧
       (now = x → exec (.gwait r w) s = .next ((s.modWord st.die (st.core / 8) st.owner w.toNat fun y =>
         { y with waits := y.waits ++ [(st.sid, f.cord.id, f.slotB)] }).parked f (.grove w.toNat x r.toNat))))) ∧
  ((∀ (s : State) (f : Focus) (r : SCode),
     let k := s.core f.stand.die f.stand.core
     let clk : DWord := BitVec.ofNat 64 (k.clkBase + (s.clock - k.clkSince) * k.mhz / 1500)
     (Issues (.rdclk r) s f → exec (.rdclk r) s = .next (s.goneOn f (f.cord.writeS r clk))) ∧
     (Issues (.sleep r) s f → exec (.sleep r) s = .next
       (if clk.ult (f.cord.sreg r) then s.parked f (.sleep (f.cord.sreg r)) else s.goneOn f f.cord))) ∧
   (∀ (s : State) (sid c slot : Nat) (st : Stand) (cord : Cord) (p : Path), s.focus = none → s.stand? sid = some st →
     st.cord? c = some cord → cord.slot (slot = 1) = some p →
     let k := s.core st.die st.core
     (∀ t : DWord, p.wait = some (.sleep t) →
       t.toNat ≤ (BitVec.ofNat 64 (k.clkBase + (s.clock - k.clkSince) * k.mhz / 1500)).toNat →
       exec (.sleepExpire sid c slot) s = .next (s.wakePath sid c (slot = 1) fun _ y => y)) ∧
     (∀ e, p.stall = some e → e < s.clock → exec (.hstlExpire sid c slot) s = .next (s.modCord sid c fun y =>
       match y.slot (slot = 1) with
       | some q => y.setSlot (slot = 1) (some { q with stall := none, stallEnd := e })
       | none => y)) ∧
     (∀ h, p.wait = none → (∀ b q, cord.slot b = some q → s.inGroup st q = false) → cord.ringCount = 0 → cord.pending = [h] →
       k.agelim.toNat < h.age + (s.clock - h.since) →
       (∀ q, cord.slot (decide (slot ≠ 1)) = some q → if slot = 1 then q.liveSince ≤ p.liveSince else p.liveSince > q.liveSince) →
       let q : Path := { pc := h.pc, mask := h.mask, liveSince := s.clock }
       exec (.ageingSwap sid c) s = .next (s.modStand sid fun _ => st.modCord c fun _ =>
         { cord.setSlot (slot = 1) (some q) with pending := [⟨p.pc, p.mask, 0, s.clock⟩] }))) ∧
   (∀ (s : State) (die ctx va : Nat) (w : Walk) (pre post : List Walk), s.focus = none →
     (s.die die).walks = pre ++ w :: post →
     let covers (w : Walk) : Prop := w.entry.ctx = ctx ∧ w.entry.va ≤ va ∧ va < w.entry.va + w.entry.leaf.size
     covers w → (∀ x ∈ pre, ¬covers x) →
     exec (.tlbWalkDone die ctx va) s = .next (State.modDie (State.modCore
       (s.modDie die fun x => { x with walks := pre ++ post }) die w.core fun k => { k with tlb := (w.entry :: k.tlb).take 128 })
       die fun x => { x with tlb := (w.entry :: x.tlb).take 8192 })) ∧
   (∀ (s : State) (d c ctx va : Nat) (l : Leaf), s.tlbHit d c ctx va = none → s.walk d ctx va = .ok l →
     let e : TlbEntry := ⟨ctx, va / l.size * l.size, l⟩
     (s.tlbShared d ctx va = some l → s.lookup d c ctx va =
       (s.modCore d c fun k => { k with tlb := (e :: k.tlb).take 128 }, .ok l)) ∧
     (s.tlbShared d ctx va = none → (s.die d).walks.length < 256 → s.lookup d c ctx va =
       (s.modDie d fun x => { x with walks := ⟨c, e⟩ :: x.walks }, .ok l))))

/-! ### Matrix and ranked lists -/

/-- O28. The matrix instructions with operands inside their limits: MTASK takes a pin and joins its queue, or answers
1 where queue and backing are full; MFENCE and MARRIVE wait for the path's writes and go on with them covered, the
latter with its count added; MDRAIN begins; WPIN raises or lowers PINS, or waits for the claims before it; MQCFG,
MZERO and MSTAT act at once (R267 to R270, R277, R281 to R284, R286 to R289). What counts as covered is the model's
choice, log 19. The record of a tile task: each field stands where R267 puts it, and MTASK takes no record that breaks
a limit or a range of R267, a format pair of R260 or a dependence of R268, and no slot that another context owns; nor
do MDRAIN, WPIN, MQCFG and MZERO take operands outside their limits (R260, R267 to R269, R281, R283, R284, R287,
R288). -/
def Obligations.MatrixInstructionsComplete : Prop :=
  (∀ (s : State) (f : Focus) (o : XOps) (r : SCode) (fm : DrainFmt) (rnd : Rnd) (sat : Bool),
     let st := f.stand
     let k := s.core st.die st.core
     let window := st.spGran * 16384
     let off := f.addr o.s % 2 ^ 32
     let x := f.cord.sreg o.s
     let y := f.cord.sreg (o.s + 1)
     let z := f.cord.sreg (o.s + 2)
     let field (x : DWord) (lo n : Nat) : Nat := (x.extractLsb' lo n).toNat
     let core (g : Core → Core) : State := s.modCore st.die st.core g
     let pins (w : Nat) : Nat := (k.canopy.getD w {}).pins
     let pin (k : Core) (w : Nat) (g : Nat → Nat) : List Canopy := k.canopy.modify w fun x => { x with pins := g x.pins }
     let lane (n : Word) : Cord := f.cord.writeV o.d.toNat f.path.mask (fun _ => n) .general
     (let r := taskOf st.sid k.taskSeq s.clock (st.sp.bytes off 64)
      let t := st.taint { r with
        cord := f.cord.id, mask := f.path.mask, word := if r.mode = 2 then (st.region r.accbase).getD 0 else 0 }
      Issues (.mtask o) s f → s.Whole → off % 64 = 0 → off + 64 ≤ window → recordOk st (st.sp.bytes off 64) = true →
       s.owned f t.wslot = false →
       (pins t.wslot < 65535 → k.queueFull t.queue1 = false → exec (.mtask o) s = .next
         ((core fun k => if t.queue1 then
             { k with canopy := pin k t.wslot (· + 1), taskSeq := k.taskSeq + 1, q1 := k.q1 ++ [t] }
           else { k with canopy := pin k t.wslot (· + 1), taskSeq := k.taskSeq + 1, q0 := k.q0 ++ [t] }).answered
             f o.d.toNat 0 (BitVec.ofNat 32 k.taskSeq))) ∧
       (65535 ≤ pins t.wslot ∨ (k.queueFull t.queue1 = true ∧
           (if t.queue1 then st.q1cap else st.q0cap).toNat ≤ k.backedOf st.sid t.queue1) →
         exec (.mtask o) s = .next (s.answered f o.d.toNat 1 0)) ∧
       (∀ pa leaf, let cap := (if t.queue1 then st.q1cap else st.q0cap).toNat
         let base := (if t.queue1 then st.q1b else st.q0b).toNat
         let va := base + 64 * ((if t.queue1 then st.q1w else st.q0w) % cap)
         let st' := if t.queue1 then { st with q1w := st.q1w + 1 } else { st with q0w := st.q0w + 1 }
         pins t.wslot < 65535 → k.queueFull t.queue1 = true → k.backedOf st.sid t.queue1 < cap → va % 64 = 0 →
         s.Mapped st.agent .write va pa leaf →
         ∃ past, exec (.mtask o) s = .next (State.goneOnIn
           (State.modCore { s with hbm := s.hbm.put (hAddr st.die pa) (taskBytes t), past := past } st.die st.core fun k => { k with
             canopy := pin k t.wslot (· + 1), taskSeq := k.taskSeq + 1, backed := k.backed ++ [⟨t, va, true, none, false⟩] })
           f st' (f.cord.writePair o.d.toNat f.path.mask 0 (BitVec.ofNat 32 k.taskSeq))))) ∧
     (Issues .mfence s f → exec .mfence s = .next (if fenceHeld s f then s
       else s.goneOnIn f (st.fenced f.cord.id f.path.mask k.taskSeq (s.reachedBy st.sid f.cord.id f.path.mask)) f.cord)) ∧
     (let sum := st.sp.load off 8 + ((f.cord.vreg o.d.toNat).lane (Mask.low f.path.mask)).toNat
      Issues (.marrive o) s f → s.Whole → off % 8 = 0 → off + 8 ≤ window → exec (.marrive o) s = .next
       (if fenceHeld s f then s
        else s.goneOnIn f { (s.released st f.cord.id f.path.mask).fenced f.cord.id f.path.mask k.taskSeq
            (s.reachedBy st.sid f.cord.id f.path.mask) with
          sp := st.sp.store off 8 (sum % 2 ^ 64) } f.cord)) ∧
     (let dst := field x 32 32
      let src := field x 0 32
      let sdst := field y 32 32
      let rows := field y 0 10
      let mx := decide (fm = .e2m1)
      let row := match fm with | .f32 => 512 | .f16 | .bf16 => 256 | .e4m3 | .e5m2 => 128 | .e2m1 => 64
      let lfsr := if rnd = .rs then lfsrStep f.cord.lfsr else f.cord.lfsr
      Issues (.mdrain o fm rnd sat) s f → dst % 64 = 0 → src % 512 = 0 → z.toNat % 4 = 0 → z.toNat < 2 ^ 57 → 1 ≤ rows →
       rows ≤ 512 → dst + rows * row ≤ window → src + 512 * rows ≤ st.asGran * 16384 → y.extractLsb' 10 6 = 0#6 →
       y.extractLsb' 17 15 = 0#15 → (if mx then sdst % 4 = 0 ∧ sdst + 4 * rows ≤ window else sdst = 0) →
       exec (.mdrain o fm rnd sat) s = .next (s.began { f with cord := { f.cord with lfsr := lfsr } } o.d.toNat 2
         (.drain (f.dest f.path.mask o.d.toNat) ⟨dst, src, sdst, y.getLsbD 16, rows, z.toNat, fm, rnd, sat, lfsr⟩))) ∧
     (let w := field x 0 7
      Issues (.wpin o) s f → x.getLsbD 7 = false → x.extractLsb' 9 55 = 0#55 →
       (x.getLsbD 8 = true → w ∈ st.pins → exec (.wpin o) s = .next
         ((core fun k => { k with canopy := pin k w (· - 1) }).goneOnIn f { st with pins := st.pins.erase w }
           (lane (BitVec.ofNat 32 (pins w - 1))))) ∧
       (x.getLsbD 8 = false → (s.seat f.whole).claims st.die st.core w = [] → pins w < 65535 → s.owned f w = false →
         exec (.wpin o) s = .next ((core fun k => { k with canopy := pin k w (· + 1) }).goneOnIn f
           { st with pins := st.pins ++ [w] } (lane (BitVec.ofNat 32 (pins w + 1))))) ∧
       (x.getLsbD 8 = false → (s.seat f.whole).claims st.die st.core w ≠ [] → exec (.wpin o) s = .next
         (s.began f o.d.toNat 1 (.pin (f.dest f.path.mask o.d.toNat) st.die st.core w)))) ∧
     (let b := f.cord.sreg r
      let c := f.cord.sreg (r + 1)
      let q1 := c.getLsbD 16
      let cap := field c 0 13
      let age := field c 32 20
      Issues (.mqcfg r) s f → b.toNat % 4096 = 0 → b.toNat < 2 ^ 57 → c.extractLsb' 52 12 = 0#12 →
       c.extractLsb' 17 15 = 0#15 → c.extractLsb' 13 3 = 0#3 → cap ≤ 4096 → (b = 0 → cap = 0) →
       (if q1 then 64 ≤ age else age = 0) → k.backedOf st.sid q1 = 0 →
       exec (.mqcfg r) s = .next (s.goneOnIn f
         (if q1 then { st with q1b := b, q1cap := BitVec.ofNat 32 cap, q1age := BitVec.ofNat 32 age }
          else { st with q0b := b, q0cap := BitVec.ofNat 32 cap }) f.cord)) ∧
     (let a := f.cord.sreg r
      let off := field a 0 32
      let n := field a 32 32
      Issues (.mzero r) s f → s.Whole → off % 64 = 0 → n % 64 = 0 → n ≠ 0 → off + n ≤ st.asGran * 16384 →
       st.declaredIn off n = false → s.racyAcc st = [] →
       exec (.mzero r) s = .next (s.goneOnIn f { st with acc := st.acc.zero off n } f.cord)) ∧
     let seen : State := if k.queued st.sid true = 0 ∧ k.queued st.sid false = 0 ∧ k.runs st.sid = false then
         s.acquireAt .stand st.sid f.cord.id f.path.mask
       else s
     (Issues (.mstatRead r) s f → exec (.mstatRead r) s = .next (seen.goneOn f (f.cord.writeS r (k.mstatWord st)))) ∧
     (Issues (.mstatClr r) s f → exec (.mstatClr r) s = .next
       (seen.goneOnIn f { st with mstat := 0 } (f.cord.writeS r (k.mstatWord st))))) ∧
  (∀ (s : State) (f : Focus) (o : XOps) (c : SCode) (fm : DrainFmt) (rnd : Rnd) (sat : Bool),
     let st := f.stand
     let k := s.core st.die st.core
     let window := st.spGran * 16384
     let rows := st.asGran * 16384
     let off := f.addr o.s % 2 ^ 32
     let r := st.sp.bytes off 64
     let b (i n : Nat) : Nat := recField r i n
     let wfmt := b 49 1 % 16
     let afmt := b 49 1 / 16
     let mode := b 50 1 % 4
     let dep (w : Nat) : Prop :=
       (w / 2 ^ 62 = 0 → w = 0) ∧ (w / 2 ^ 62 = 1 → w / 2 ^ 57 % 32 = 0 ∧ w % 16 = 0) ∧
       (w / 2 ^ 62 = 2 → w % 8 = 0 ∧ w % 2 ^ 32 + 8 ≤ window) ∧ w / 2 ^ 62 ≠ 3
     let limits : Prop :=
       b 0 8 % 16 = 0 ∧ b 0 8 < 2 ^ 57 ∧ b 8 8 % 4 = 0 ∧ b 8 8 < 2 ^ 57 ∧ dep (b 16 8) ∧ dep (b 24 8) ∧
       b 32 4 % 256 = 0 ∧ (wfmt = 4 → b 36 4 % 16 = 0) ∧ (wfmt ≠ 4 → b 36 4 = 0) ∧
       (mode ≠ 2 → b 40 4 % 512 = 0 ∧ b 52 4 = 0 ∧ b 56 4 = 0) ∧ 1 ≤ b 44 2 ∧ b 44 2 ≤ 512 ∧ 1 ≤ b 46 2 ∧ b 46 2 ≤ 6144 ∧
       b 48 1 < 128 ∧ (wfmt, afmt) ∈ [(0, 0), (1, 1), (1, 2), (2, 1), (2, 2), (3, 3), (4, 4)] ∧ b 50 1 < 8 ∧ mode ≠ 3 ∧
       b 51 1 = 0 ∧ b 60 4 = 0
     let ranges : Prop :=
       b 32 4 + (b 44 2 - 1) * b 46 2 * 256 + 256 ≤ window ∧ (wfmt = 4 → b 36 4 + 16 * b 44 2 ≤ window) ∧
       (mode ≠ 2 → b 40 4 + 512 * b 44 2 ≤ rows ∧ st.declaredIn (b 40 4) (512 * b 44 2) = false) ∧
       (mode = 2 → ∃ w : DWord, st.region (b 40 4) = some w ∧
         (w.extractLsb' 24 2).toNat = (if wfmt = 3 then 2 else 0) ∧ b 52 4 + b 44 2 ≤ (w.extractLsb' 0 11).toNat)
     let t := taskOf st.sid k.taskSeq s.clock r
     let faults (i : Instr) (c : TrapCode) : Prop := ∃ v, exec i s = .next (s.faulted i f { code := c, val := v })
     let field (x : DWord) (lo n : Nat) : Nat := (x.extractLsb' lo n).toNat
     let x := f.cord.sreg o.s
     let y := f.cord.sreg (o.s + 1)
     let z := f.cord.sreg (o.s + 2)
     (recordOk st r = true ↔ limits ∧ ranges) ∧
     (t.fut = b 0 8 ∧ t.amax = b 8 8 ∧ t.aoff = b 32 4 ∧ t.ascale = b 36 4 ∧ t.accbase = b 40 4 ∧ t.m = b 44 2 ∧
       t.astride = b 46 2 ∧ t.wslot = b 48 1 % 128 ∧ t.wfmt = wfmt ∧ t.afmt = afmt ∧ t.mode = mode ∧
       t.queue1 = (b 50 1).testBit 2 ∧ t.lrow = b 52 4 ∧ t.idxbase = b 56 4 ∧ t.seq = k.taskSeq ∧ t.accepted = s.clock ∧
       ∀ p ∈ [(t.dep0, b 16 8), (t.dep1, b 24 8)], dep p.2 → p.1 = (if p.2 / 2 ^ 62 = 0 then Dep.none
         else if p.2 / 2 ^ 62 = 1 then .future (p.2 % 2 ^ 57) else .counter (p.2 % 2 ^ 32) (p.2 / 2 ^ 32 % 2 ^ 30))) ∧
     (Issues (.mtask o) s f → s.Whole →
       (off % 64 ≠ 0 → faults (.mtask o) .misaligned) ∧
       (off % 64 = 0 → window < off + 64 → faults (.mtask o) .spRange) ∧
       (off % 64 = 0 → off + 64 ≤ window → ¬(limits ∧ ranges) → faults (.mtask o) .matrixParam) ∧
       (off % 64 = 0 → off + 64 ≤ window → limits → ranges → s.owned f t.wslot = true → faults (.mtask o) .protection)) ∧
     (let row := match fm with | .f32 => 512 | .f16 | .bf16 => 256 | .e4m3 | .e5m2 => 128 | .e2m1 => 64
      let n := field y 0 10
      let sd := field y 32 32
      let aligned : Prop := field x 32 32 % 64 = 0 ∧ field x 0 32 % 512 = 0 ∧ z.toNat % 4 = 0 ∧ (fm = .e2m1 → sd % 4 = 0)
      let inside : Prop := field x 32 32 + n * row ≤ window ∧ (fm = .e2m1 → sd + 4 * n ≤ window)
      Issues (.mdrain o fm rnd sat) s f →
       (¬aligned → faults (.mdrain o fm rnd sat) .misaligned) ∧
       (aligned → n = 0 ∨ 512 < n → faults (.mdrain o fm rnd sat) .matrixParam) ∧
       (aligned → 1 ≤ n → n ≤ 512 →
         (¬inside → faults (.mdrain o fm rnd sat) .spRange) ∧
         (inside → rows < field x 0 32 + 512 * n → faults (.mdrain o fm rnd sat) .accRange) ∧
         (inside → field x 0 32 + 512 * n ≤ rows →
           (2 ^ 57 ≤ z.toNat → faults (.mdrain o fm rnd sat) .addressRange) ∧
           (z.toNat < 2 ^ 57 → (y.extractLsb' 10 6 ≠ 0#6 ∨ y.extractLsb' 17 15 ≠ 0#15 ∨ (fm ≠ .e2m1 ∧ sd ≠ 0)) →
             faults (.mdrain o fm rnd sat) .matrixParam)))) ∧
     (let w := field x 0 7
      let pins := (k.canopy.getD w {}).pins
      let zero : Prop := x.getLsbD 7 = false ∧ x.extractLsb' 9 55 = 0#55
      Issues (.wpin o) s f →
       (¬zero → faults (.wpin o) .matrixParam) ∧
       (zero → x.getLsbD 8 = true → w ∉ st.pins → faults (.wpin o) .matrixParam) ∧
       (zero → x.getLsbD 8 = false → (s.seat f.whole).claims st.die st.core w = [] →
         (65535 ≤ pins → faults (.wpin o) .matrixParam) ∧
         (pins < 65535 → s.owned f w = true → faults (.wpin o) .protection))) ∧
     (let base := f.cord.sreg c
      let g := f.cord.sreg (c + 1)
      let q1 := g.getLsbD 16
      Issues (.mqcfg c) s f →
       ¬(base.toNat % 4096 = 0 ∧ base.toNat < 2 ^ 57 ∧ g.extractLsb' 52 12 = 0#12 ∧ g.extractLsb' 17 15 = 0#15 ∧
         g.extractLsb' 13 3 = 0#3 ∧ field g 0 13 ≤ 4096 ∧ (base = 0 → field g 0 13 = 0) ∧
         (if q1 then 64 ≤ field g 32 20 else field g 32 20 = 0) ∧ k.backedOf st.sid q1 = 0) →
       faults (.mqcfg c) .matrixParam) ∧
     (let a := field (f.cord.sreg c) 0 32
      let n := field (f.cord.sreg c) 32 32
      Issues (.mzero c) s f →
       (a % 64 ≠ 0 ∨ n % 64 ≠ 0 → faults (.mzero c) .misaligned) ∧
       (a % 64 = 0 → n = 0 → faults (.mzero c) .matrixParam) ∧
       (a % 64 = 0 → n % 64 = 0 → n ≠ 0 → rows < a + n → faults (.mzero c) .accRange)))

/-- O29. A task that the picker chooses enters the idle array with its tile and gives up its pin, or waits picked; a
task completes with its accumulators and flags written; a poisoned dependence skips its task; a backed record moves
on-chip; a dependence is registered as FWAIT does; a drain leaves its rows and reports (R259, R270 to R273, R276,
R277, R283). That a drain moves all its rows in one step is log 27; that the pin goes as the task enters the array is
log 20, and which poison a skipped task passes on is log 26. DEP_POLL reads a dependence future beyond the core's
registrations: one that is mapped leaves the machine as it is, and the picker finds it resolved or not; one whose page
is not valid holds its task with a page-fault record that carries a resume token (R273, R377). -/
def Obligations.TileTasksAdvance : Prop :=
  (∀ (s : State) (n : Nat) (st : Stand) (t : Task), s.focus = none → s.stand? t.sid = some st → s.Whole →
      let d := n / 32
     let c := n % 32
     let k := s.core d c
     let core (g : Core → Core) : State := s.modCore d c g
     let free (k : Core) (w : Nat) : List Canopy := k.canopy.modify w fun x => { x with pins := x.pins - 1 }
     let others (l : List Task) : List Task := l.filter fun x => !(decide (x.sid = t.sid) && decide (x.seq = t.seq))
     (∀ aged, k.picked = none → s.choose d c = some (t, aged) → t.registered = [] →
       let u : Task := if t.dep0 = .none ∧ t.dep1 = .none then t else st.taint t
       (k.running = none → exec (.taskPick n) s = .next (core fun k => { k with
         q0 := others k.q0, q1 := others k.q1, lastAged := aged, active := some (k.tileFor t), picked := none,
         canopy := if t.mode = 2 then k.canopy else free k t.pin,
         running := some ⟨{ u with pinned := decide (t.mode = 2) }, s.clock, k.tileFor t⟩ })) ∧
       (k.running ≠ none → exec (.taskPick n) s = .next (core fun k => { k with
         q0 := others k.q0, q1 := others k.q1, lastAged := aged, picked := some ⟨u, s.clock, k.tileFor t⟩ }))) ∧
     (∀ r : Running, k.running = some r → r.task = t → k.picked = none → t.mode ≠ 2 → t.tainted = [] → t.spoiled = [] →
       t.amax = 0 → t.fut = 0 →
       let q := tileResults st st.sp r.tile t
       exec (.taskComplete n) s = .next ((s.modStand t.sid fun x =>
         { x with acc := q.1, mstat := x.mstat ||| q.2.1 }).modCore d c fun k => { k with running := none })) ∧
     (∀ (r : Running) (w : DWord), k.running = some r → r.task = t → k.picked = none → t.mode = 2 → t.tainted = [] → t.amax = 0 →
       t.fut = 0 → k.insq = [] → t.word = w →
       let q := tileCands st.sp r.tile t
       let put (s : State) (x : Nat × Word × Word) : State :=
         let v := (listVal (lType w) x.2.1, x.2.2)
         if (s.core d c).passes t.sid t.accbase (lType w) x.1 v then s.insertAt t.sid t.accbase w [] x.1 v
         else s.onRow t.sid t.accbase w x.1 [] fun y => y.discard 1
       exec (.taskComplete n) s = .next ((((q.1.foldl put s).modStand t.sid fun x =>
         { x with mstat := x.mstat ||| q.2 }).modCore d c fun k => { k with canopy := free k t.pin }).modCore d c
           fun k => { k with running := none })) ∧
     (∀ v, k.onChip.find? (fun x => x.seq = t.seq) = some t → st.phase = .running → t.held = none → t.registered = [] →
       s.depPoison st t = some v →
       let skipped : State := (core fun k => { k with q0 := others k.q0, q1 := others k.q1, canopy := free k t.pin }).modStand
         t.sid fun x => { x with mstat := x.mstat ||| 16 }
       exec (.taskSkip n t.seq) s = .next
         (if t.fut = 0 then skipped else skipped.addL2 (.resolve
           { die := st.die, ctx := st.ctx, dest := none, sid := some st.sid, task := some t } t.fut none v true))) ∧
     (∀ (va pa : Nat) (leaf : Leaf) (rest : List Task) (more : List Nat), k.onChip = t :: rest → k.registrations < 64 →
       st.phase = .running → st.die = d → st.core = c → s.unregistered st t = va :: more → va % 16 = 0 →
       s.Mapped st.agent .atomic va pa leaf → futureDone s.hbm (hAddr d pa) = false →
       let w : DWord := BitVec.ofNat 64 (s.hbm.load (hAddr d pa) 8)
       let add (x : Task) : Task :=
         if x.sid = t.sid ∧ x.seq = t.seq then { x with registered := x.registered ++ [pa] } else x
       let waited : DWord := 1#2 ++ w.extractLsb' 32 30 ++ (w.extractLsb' 0 32 + 1)
       exec (.depPoll n t.seq) s = .next s ∧
       exec (.pickerReeval n) s = .next ({ s.remember none s.place (hAddr d pa) 16 with hbm := s.hbm.store (hAddr d pa) 8 waited.toNat }.modCore d c fun k =>
           { k with q0 := k.q0.map add, q1 := k.q1.map add })) ∧
     (∀ (b : Backed) (rest : List Backed) (low : Bool) (pa : Nat) (leaf : Leaf), b.task = t → t.queue1 = low →
       k.backed = b :: rest → b.held = none → st.phase = .running →
       let here (x : Backed) : Bool := decide (x.task.sid = t.sid) && decide (x.task.seq = t.seq)
       let r := s.hbm.bytes (hAddr st.die pa) 64
       let read : Task := { taskOf t.sid t.seq t.accepted r with
         pin := t.pin, queue1 := low, cord := t.cord, mask := t.mask, tainted := t.tainted, spoiled := t.spoiled
         word := let r := taskOf 0 0 0 r; if r.mode = 2 then (st.region r.accbase).getD 0 else 0 }
       let enters (x : Task) : State := core fun k => { k with
         q0 := if low then k.q0 else k.q0 ++ [x], q1 := if low then k.q1 ++ [x] else k.q1,
         backed := k.backed.filter fun x => !here x }
       (b.restored = true → (if low then k.q1 else k.q0).length < 16 →
         exec (.taskBackingRefill n low) s = .next (enters t)) ∧
       (b.restored = false → b.va % 64 = 0 → b.written = false → s.Mapped st.agent .write b.va pa leaf →
         ∃ past, exec (.taskBackingRefill n low) s = .next
           (State.modCore { s with hbm := s.hbm.put (hAddr st.die pa) (taskBytes t), past := past } d c fun k => { k with
             backed := k.backed.map fun x => if here x then { b with written := true, held := none } else x })) ∧
       (b.restored = false → b.va % 64 = 0 → b.written = true → (if low then k.q1 else k.q0).length < 16 → s.Mapped st.agent .read b.va pa leaf →
         recordOk st r = true → exec (.taskBackingRefill n low) s = .next (enters read))) ∧
     (∀ (id : Nat) (x : Dest) (p : Drain), x.sid = t.sid → s.active? id = some (.drain x p) → p.amax = 0 →
       s.drainBefore id st.die st.core = false → s.noTasks t.sid →
       let words (r : Nat) : List Nat := (List.range 128).map fun n => st.acc.load (p.src + 512 * r + 4 * n) 4
       let outs := (List.range p.rows).map fun r => (r, drainRow p r (words r))
       let row := match p.fmt with | .f32 => 512 | .f16 | .bf16 => 256 | .e4m3 | .e5m2 => 128 | .e2m1 => 64
       let sp := outs.foldl (fun (m : Memory) y => (m.put (p.dst + row * y.1) y.2.1).put (p.sdst + 4 * y.1) y.2.2.1) st.sp
       ∃ exposed : Stand → List Unfenced, exec (.mdrainDone id) s = .next (State.repliedWork (s.modStand t.sid fun y =>
           { y with sp := sp, unfenced := exposed y, mstat := y.mstat ||| mstatFlags (orFlags (outs.map fun y => y.2.2.2)) })
         id x 0 (BitVec.ofNat 32 (p.rows * row + if p.fmt = .e2m1 then 4 * p.rows else 0))))) ∧
  (∀ (s : State) (n : Nat) (st : Stand) (t : Task) (va : Nat) (more : List Nat), s.focus = none →
     s.stand? t.sid = some st → (s.core (n / 32) (n % 32)).onChip.find? (fun x => x.seq = t.seq) = some t →
     s.unregistered st t = va :: more → va % 16 = 0 →
     (∀ pa leaf, s.Mapped st.agent .read va pa leaf → s.Whole →
       exec (.depPoll n t.seq) s = .next s) ∧
     (s.tlbHit st.die st.core st.ctx va = none → s.tlbShared st.die st.ctx va = none →
       s.walk st.die st.ctx va = .error .pageFault →
       let hold (x : Task) : Task := if x.sid = t.sid ∧ x.seq = t.seq then { x with held := some s.uid } else x
       let e : Event :=
         { kind := 3, code := 0x10, ctx := BitVec.ofNat 8 st.ctx, fpid := st.fpid, core := BitVec.ofNat 8 (st.die * 32 + st.core),
           standId := BitVec.ofNat 32 st.standId, val := BitVec.ofNat 64 va, info := BitVec.ofNat 64 s.uid }
       exec (.depPoll n t.seq) s = .next (State.modCore ({ s with uid := s.uid + 1 }.post st.die e) st.die st.core fun k =>
         { k with q0 := k.q0.map hold, q1 := k.q1.map hold })))

/-- O30. The arithmetic of a tile: under the I8 class every accumulator word is the sum of 256 exact signed products,
and the old word where the task accumulates, modulo 2^32, every candidate of a list-mode task is that sum, and no flag
is raised; an F32 source drained to F32 is copied exactly (R261, R265, R283, R300). A tile of the F32 classes, with
every element and scale finite: each column's partial sum starts at +0 and, element row by element row, becomes the
F32 value of the exact sum of itself and that row's exact products, an FP4 product with its two scales; a task that
accumulates adds the last partial sum to the old word in the same way; each rounding is to the nearest with subnormal
results flushed to a zero of their sign, which sets UF, an overflow OF, and nothing INEX (R257, R261, R263, R264,
R266). -/
def Obligations.TileArithmeticIsExact : Prop :=
  ((∀ (st : Stand) (tile : Tile) (t : Task), st.acc.wf = true → t.wfmt = 3 → t.mode ≤ 1 →
     let q := tileResults st st.sp tile t
     let byte (m : Memory) (a : Nat) : Int := (m.read a).toInt
     q.2.1 = 0 ∧ (∀ r < t.m, ∀ n < 128,
       let sum : Int := ((List.range 256).map fun k =>
         byte st.sp (t.aoff + r * t.astride * 256 + k) * byte tile.bytes (n * 256 + k)).sum
       let o := t.accbase + 512 * r + 4 * n
       (q.1.load o 4 : Int) = ((if t.mode = 1 then (st.acc.load o 4 : Int) else 0) + sum) % 2 ^ 32) ∧
     ∀ a, (a < t.accbase ∨ t.accbase + 512 * t.m ≤ a) → q.1.read a = st.acc.read a) ∧
   (∀ (sp : Memory) (tile : Tile) (t : Task), t.wfmt = 3 → t.mode = 2 →
     let q := tileCands sp tile t
     let byte (m : Memory) (a : Nat) : Int := (m.read a).toInt
     q.2 = 0 ∧ ∀ r < t.m, ∀ n < 128,
       let sum : Int := ((List.range 256).map fun k =>
         byte sp (t.aoff + r * t.astride * 256 + k) * byte tile.bytes (n * 256 + k)).sum
       q.1[128 * r + n]? = some (t.lrow + r, BitVec.ofInt 32 sum, BitVec.ofNat 32 (t.idxbase + n))) ∧
   (∀ (p : Drain) (r : Nat) (ws : List Nat), p.fmt = .f32 → p.srcI = false →
     drainRow p r ws = (ws.flatMap (leBytes 4), [], 0))) ∧
  ((∀ (sp : Memory) (tile : Tile) (t : Task) (r n : Nat), t.wfmt ≠ 3 → t.wfmt ≤ 4 → tilePair t.wfmt t.afmt = true → n < 128 →
     let per := if t.wfmt = 0 then 1 else if t.wfmt = 4 then 4 else 2
     let bits (m : Memory) (o fmt k : Nat) : Nat :=
       if fmt = 0 then m.load (o + 2 * k) 2
       else if fmt = 4 then (m.read (o + k / 2)).toNat / (if k % 2 = 0 then 1 else 16) % 16
       else (m.read (o + k)).toNat
     let scale (m : Memory) (a : Nat) : Nat := if t.wfmt = 4 then (m.read a).toNat else 127
     let act (k : Nat) : Machine.Num := (tileFmt t.afmt).value (bits sp (t.aoff + r * t.astride * 256) t.afmt k)
     let wgt (k : Nat) : Machine.Num := (tileFmt t.wfmt).value (bits tile.bytes (256 * n) t.wfmt k)
     let sa (k : Nat) : Nat := scale sp (t.ascale + 16 * r + k / 32)
     let sw (k : Nat) : Nat := scale tile.side (16 * n + k / 32)
     let product (k : Nat) : ℚ := (act k).rat * 2 ^ ((sa k : Int) - 127) * ((wgt k).rat * 2 ^ ((sw k : Int) - 127))
     let finite (x : Machine.Num) : Prop := ∃ neg m e, x = .num neg m e
     (∀ k < 128 * per, finite (act k) ∧ finite (wgt k) ∧ sa k < 255 ∧ sw k < 255) →
     ∃ ps : Nat → Nat, ps 0 = 0 ∧
       (∀ i < 128, finite (FloatFmt.f32.value (ps i)) → ∃ x, finite x ∧
         x.rat = (FloatFmt.f32.value (ps i)).rat + ((List.range per).map fun j => product (per * i + j)).sum ∧
         ps (i + 1) = (tileRound x).1) ∧
       (((taskRow sp tile t r).map Prod.fst)[n]? = some (ps 128)) ∧
       ∀ old, finite (FloatFmt.f32.value old) → finite (FloatFmt.f32.value (ps 128)) → t.mode = 1 → ∃ x, finite x ∧
         x.rat = (FloatFmt.f32.value old).rat + (FloatFmt.f32.value (ps 128)).rat ∧ accWord t old (ps 128) = tileRound x) ∧
   (∀ x : Machine.Num,
     let q := x.toFmt .f32
     let sign := q.1 / 2 ^ 31 * 2 ^ 31
     let tiny : Prop := 0 < q.1 % 2 ^ 31 ∧ q.1 % 2 ^ 31 < 2 ^ 23
     (tiny → (tileRound x).1 = sign) ∧ (¬tiny → (tileRound x).1 = q.1) ∧
     ∀ k < 5, (tileRound x).2.getLsbD k =
       (if k = 0 then q.2.getLsbD 0 else if k = 1 then q.2.getLsbD 2 else decide (k = 2 ∧ tiny))))

/-- O31. The picker takes the first eligible aged task of q1, unless its last pick was such a one; else the first
eligible task of q0, else of q1; and where any is eligible, it picks. A task is eligible when its stand runs, each of
its dependences holds and is not poisoned, no earlier task of its stand covers a byte it covers, and every claim
accepted before it on its slot has completed (R268, R271, R273, R274). -/
def Obligations.PickerFollowsItsRules : Prop :=
  (∀ (s : State) (d c : Nat) (t : Task) (aged : Bool), s.choose d c = some (t, aged) →
    let k := s.core d c
    s.eligible d c t = true ∧ t ∈ k.onChip ∧
    (aged = true → k.lastAged = false ∧ t ∈ k.q1 ∧
      ∃ st, s.stand? t.sid = some st ∧ st.q1age.toNat < s.clock - t.accepted) ∧
    (aged = false → ∀ pre post, k.q1.take 16 = pre ++ t :: post → t ∉ k.q0 →
      (∀ x ∈ k.q0.take 16, s.eligible d c x = false) ∧ (t ∉ pre → ∀ x ∈ pre, s.eligible d c x = false)) ∧
    ∀ x ∈ k.allTasks, x.sid = t.sid → x.seq < t.seq → ∀ st, s.stand? t.sid = some st →
      x.cover.1 + x.cover.2 ≤ t.cover.1 ∨ t.cover.1 + t.cover.2 ≤ x.cover.1) ∧
  (∀ (s : State) (d c : Nat),
    let k := s.core d c
    let ok (t : Task) : Prop := s.eligible d c t = true
    let old (t : Task) : Prop := ok t ∧ ∃ st, s.stand? t.sid = some st ∧ st.q1age.toNat < s.clock - t.accepted
    let first (p : Task → Prop) (l : List Task) (t : Task) : Prop := ∃ pre post, l = pre ++ t :: post ∧ p t ∧ ∀ x ∈ pre, ¬p x
    let idle : Prop := k.lastAged = true ∨ ∀ x ∈ k.q1.take 16, ¬old x
    (s.choose d c = none ↔ ∀ x ∈ k.onChip, ¬ok x) ∧
    (∀ t, k.lastAged = false → first old (k.q1.take 16) t → s.choose d c = some (t, true)) ∧
    (∀ t, idle → first ok (k.q0.take 16) t → s.choose d c = some (t, false)) ∧
    (∀ t, idle → (∀ x ∈ k.q0.take 16, ¬ok x) → first ok (k.q1.take 16) t → s.choose d c = some (t, false))) ∧
  (∀ (s : State) (d c : Nat) (t : Task) (st : Stand) (pa : Nat → Nat) (leaf : Nat → Leaf), s.stand? t.sid = some st →
    (∀ va ∈ t.futures, s.Mapped st.agent .atomic va (pa va) (leaf va)) →
    let holds (x : Dep) : Prop := match x with
      | .none => True
      | .future va => s.hbm.load (hAddr st.die (pa va)) 8 / 2 ^ 62 = 2
      | .counter o n => n ≤ st.sp.load o 8
    (s.eligible d c t = true ↔ st.phase = .running ∧ t.held = none ∧ holds t.dep0 ∧ holds t.dep1 ∧
      (∀ x ∈ (s.core d c).allTasks, x.sid = t.sid → x.seq < t.seq → meetRanges x.cover t.cover = false) ∧
      ∀ x ∈ s.claims d c t.wslot, t.seq < x.2))

/-- O32. The list instructions with operands inside their limits: LDECL declares a region and its thresholds or
answers 1, and LINS, LTHR, LREAD, LMERGE and LCLR enter the insertion queue, in issue order, with what R297 filters
(R294, R297 to R301, R306 to R312). The operand faults of the list instructions, which change nothing else: LIST_PARAM
for a limit or a zero field of R292, a type or a flag that differs, an overlap with a declared region, an operand that
names no row of a declared region, a candidate's row beyond it, an empty or too long COUNT, and a FREE of less than
the whole region; MISALIGNED for a BASE, DEST or SRC that is no multiple of 16, before it; ACC_RANGE and SP_RANGE for
an extent beyond the storage, after the limits that give it and before the rest (R292, R303, R306 to R312, R374).
LIST_INSERT inserts the next candidate of the queue's head, and the last one takes the operation off the queue;
LIST_OP_PERFORM empties a declared or cleared region's rows, compares against a row's last entry, copies rows out, and
merges an image's rows in (R293, R295, R298, R301, R309 to R312). That each of these takes one step is log 12; when a
freed region leaves its table is log 22, and TRAPVAL of a failed merge is log 23. -/
def Obligations.ListsBeginAndAdvance : Prop :=
  (∀ (s : State) (f : Focus) (o : XOps) (v p : VCode) (r : SCode) (t : ListTy) (larger : Bool) (base row0 n : Nat) (w : DWord),
     let st := f.stand
     let k := s.core st.die st.core
     let ty := match t with | .f32 => 0 | .bf16 => 1 | .i32 => 2
     let field (x : DWord) (lo n : Nat) : Nat := (x.extractLsb' lo n).toNat
     let rows := field w 0 11
     let rb := 16 + 8 * field w 16 7
     let entry (d : Nat) (op : ListOp) : ListEntry :=
       ⟨st.sid, f.cord.id, f.slotB, f.path.restart, f.path.mask, d, w, op, s.uid⟩
     let queued (g : Core → Core) (d : Nat) (op : ListOp) : State :=
       s.modCore st.die st.core fun k => { g k with insq := k.insq ++ [entry d op] }
     let names (a : DWord) : Prop := st.region base = some w ∧ field a 0 32 = base ∧ field a 32 10 = row0 ∧
       a.extractLsb' 42 22 = 0#22 ∧ row0 < rows
     let extent (b : DWord) : Prop := field b 32 11 = n ∧ 1 ≤ n ∧ row0 + n ≤ rows
     let offset (l : Nat) : Nat := if v = 63 then 0 else ((f.cord.vreg v.toNat).lane l).toNat
     let marked (ns : List Nat) : Cord := { f.cord with vmarks := f.cord.vmarks ++ ns }
     (Issues (.ldecl o t larger) s f → f.cord.sreg o.s = w → (f.cord.sreg (o.s + 1)).toNat = base → base < 2 ^ 32 →
       base % 16 = 0 → 1 ≤ rows → rows ≤ 1024 → 1 ≤ field w 16 7 → field w 16 7 ≤ 64 →
       base + rows * rb ≤ st.asGran * 16384 → w.extractLsb' 29 35 = 0#35 → w.extractLsb' 26 2 = 0#2 →
       w.getLsbD 23 = false → w.extractLsb' 11 5 = 0#5 → field w 24 2 = ty → w.getLsbD 28 = larger →
       st.declaredIn base (rows * rb) = false →
       (8 ≤ st.regionCount ∨ 1024 < k.thresh.length + rows → exec (.ldecl o t larger) s = .next
         (s.goneOn f (f.cord.writeV o.d.toNat f.path.mask (fun _ => 1) .general))) ∧
       (st.regionCount < 8 → k.thresh.length + rows ≤ 1024 → exec (.ldecl o t larger) s = .next
         ((queued (fun k => { k with thresh := k.thresh ++ (List.range rows).map fun j => ⟨st.sid, base, j, false, 0, 0⟩ })
           o.d.toNat (.declare base)).goneOnIn f (st.addRegion base w) (marked [o.d.toNat])))) ∧
     (let cands := (Mask.toLanes f.path.mask).map fun l => (row0 + offset l,
         listVal ty ((f.cord.vreg o.d.toNat).lane l), (f.cord.vreg (o.d.toNat + 1)).lane l)
      let pass (c : Nat × Word × Word) : Bool := k.passes st.sid base ty c.1 c.2
      Issues (.lins o v t) s f → names (f.cord.sreg o.s) → field w 24 2 = ty → (∀ c ∈ cands, c.1 < rows) →
       (k.queuedCands + (cands.filter pass).length ≤ 256 → exec (.lins o v t) s = .next
         ((queued id 0 (.insert base (cands.filter pass) ((cands.filter fun c => !pass c).map Prod.fst))).goneOn f f.cord)) ∧
       (256 < k.queuedCands + (cands.filter pass).length → exec (.lins o v t) s = .next s)) ∧
     (Issues (.lthr p r v) s f → names (f.cord.sreg r) → ∃ vals : List Word,
       (∀ l < 32, vals.getD l 0 = listVal (field w 24 2) (if v = 63 then 0 else (f.cord.vreg v.toNat).lane l)) ∧
       exec (.lthr p r v) s = .next ((queued id 0 (.thr base row0 vals p.toNat)).goneOn f
         { f.cord with pmarks := f.cord.pmarks ++ [p.toNat] })) ∧
     (∀ (i : Instr) (op : Nat → ListOp), (i, op) ∈ [(Instr.lread o, ListOp.read base row0 n), (.lmerge o, .merge base row0 n)] →
       let b := f.cord.sreg (o.s + 1)
       let off := field b 0 32
       Issues i s f → names (f.cord.sreg o.s) → extent b → b.extractLsb' 43 21 = 0#21 → off % 16 = 0 →
       off + n * rb ≤ st.spGran * 16384 →
       exec i s = .next ((queued id o.d.toNat (op off)).goneOn f (marked [o.d.toNat, o.d.toNat + 1]))) ∧
     (let b := f.cord.sreg (r + 1)
      let free := b.getLsbD 63
      let kept (l : List Thresh) : List Thresh :=
        if free then l.filter fun t => !(decide (t.sid = st.sid) && decide (t.base = base))
        else l.map fun t =>
         if t.sid = st.sid ∧ t.base = base ∧ row0 ≤ t.row ∧ t.row < row0 + n then { t with full := false } else t
      Issues (.lclr r) s f → names (f.cord.sreg r) → extent b → b.extractLsb' 43 20 = 0#20 → b.extractLsb' 0 32 = 0#32 →
       (free = true → row0 = 0 ∧ n = rows) →
       exec (.lclr r) s = .next ((queued (fun k => { k with thresh := kept k.thresh }) 0 (.clear base row0 n free)).goneOnIn f
         (if free then st.dropRegion base else st) f.cord))) ∧
  (∀ (s : State) (f : Focus) (o : XOps) (v p : VCode) (r : SCode) (t : ListTy) (larger : Bool),
     let st := f.stand
     let ty := match t with | .f32 => 0 | .bf16 => 1 | .i32 => 2
     let field (x : DWord) (lo n : Nat) : Nat := (x.extractLsb' lo n).toNat
     let rows (w : DWord) : Nat := field w 0 11
     let rb (w : DWord) : Nat := 16 + 8 * field w 16 7
     let raises (i : Instr) (t : Trap) : Prop := Issues i s f → exec i s = .next (s.faulted i f t)
     let at_ (c : TrapCode) (x : Nat) : Trap := { code := c, val := some (BitVec.ofNat 64 x) }
     let names (a : DWord) (w : DWord) : Prop := st.region (field a 0 32) = some w ∧ field a 32 10 < rows w
     let whole (a : DWord) (w : DWord) : Prop := names a w ∧ a.extractLsb' 42 22 = 0#22
     (let w := f.cord.sreg o.s
      let a := f.cord.sreg (o.s + 1)
      let base := field a 0 32
      let limits : Prop := 1 ≤ rows w ∧ rows w ≤ 1024 ∧ 1 ≤ field w 16 7 ∧ field w 16 7 ≤ 64
      let i := Instr.ldecl o t larger
      (base % 16 ≠ 0 → raises i (at_ .misaligned base)) ∧
      (base % 16 = 0 → ¬limits → raises i { code := .listParam }) ∧
      (base % 16 = 0 → limits → st.asGran * 16384 < base + rows w * rb w → raises i { code := .accRange }) ∧
      (base % 16 = 0 → limits → base + rows w * rb w ≤ st.asGran * 16384 →
        w.extractLsb' 29 35 ≠ 0#35 ∨ w.extractLsb' 26 2 ≠ 0#2 ∨ w.getLsbD 23 = true ∨ w.extractLsb' 11 5 ≠ 0#5 ∨
          a.extractLsb' 32 32 ≠ 0#32 ∨ field w 24 2 ≠ ty ∨ w.getLsbD 28 ≠ larger ∨ st.declaredIn base (rows w * rb w) = true →
        raises i { code := .listParam })) ∧
     (let a := f.cord.sreg o.s
      let i := Instr.lins o v t
      let offset (l : Nat) : Nat := if v = 63 then 0 else ((f.cord.vreg v.toNat).lane l).toNat
      ((∀ w, ¬whole a w) → raises i { code := .listParam }) ∧
      ∀ w, whole a w → field w 24 2 ≠ ty ∨ (∃ l < 32, f.path.mask.getLsbD l = true ∧ rows w ≤ field a 32 10 + offset l) →
        raises i { code := .listParam }) ∧
     ((∀ w, ¬whole (f.cord.sreg r) w) → raises (.lthr p r v) { code := .listParam }) ∧
     (∀ i ∈ [Instr.lread o, .lmerge o],
       let a := f.cord.sreg o.s
       let b := f.cord.sreg (o.s + 1)
       let off := field b 0 32
       let n := field b 32 11
       let extent (w : DWord) : Prop := names a w ∧ 1 ≤ n ∧ field a 32 10 + n ≤ rows w
       (off % 16 ≠ 0 → raises i (at_ .misaligned off)) ∧
       (off % 16 = 0 → (∀ w, ¬extent w) → raises i { code := .listParam }) ∧
       (∀ w, off % 16 = 0 → extent w →
         (st.spGran * 16384 < off + n * rb w → raises i (at_ .spRange off)) ∧
         (off + n * rb w ≤ st.spGran * 16384 → a.extractLsb' 42 22 ≠ 0#22 ∨ b.extractLsb' 43 21 ≠ 0#21 →
           raises i { code := .listParam }))) ∧
     (let a := f.cord.sreg r
      let b := f.cord.sreg (r + 1)
      let n := field b 32 11
      let limits (w : DWord) : Prop := whole a w ∧ 1 ≤ n ∧ field a 32 10 + n ≤ rows w ∧ b.extractLsb' 43 20 = 0#20 ∧
        b.extractLsb' 0 32 = 0#32 ∧ (b.getLsbD 63 = true → field a 32 10 = 0 ∧ n = rows w)
      (∀ w, ¬limits w) → raises (.lclr r) { code := .listParam })) ∧
  (∀ (s : State) (n : Nat) (st : Stand) (e : ListEntry) (rest : List ListEntry), s.focus = none →
     (s.core (n / 32) (n % 32)).insq = e :: rest → s.stand? e.sid = some st → s.noTasks e.sid → s.Whole →
     let w := e.word
     let ty := lType w
     let rb := 16 + 8 * lK w
     let pop (s : State) : State := s.modCore (n / 32) (n % 32) fun k => { k with insq := k.insq.tail }
     let empty := ListRow.empty.bytes ty (lK w)
     let rows (s : State) (base row0 m : Nat) (bs : List Byte) : State := s.modStand e.sid fun x =>
       { x with acc := (List.range m).foldl (fun a j => a.put (base + (row0 + j) * rb) bs) x.acc }
     let quiet := s.unreleased e.since e.sid e.cord e.mask = false
     (∀ base c cs drops, e.op = .insert base (c :: cs) drops →
       let s' := s.insertAt e.sid base w [] c.1 c.2
       exec (.listInsert n) s = .next (if cs ≠ [] then s'.modCore (n / 32) (n % 32) fun k =>
           { k with insq := { e with op := .insert base cs drops } :: k.insq.tail }
         else pop (drops.foldl (fun s r => s.onRow e.sid base w r [] fun x => x.discard 1) s'))) ∧
     (∀ base drops, e.op = .insert base [] drops → exec (.listInsert n) s = .next
       (pop (drops.foldl (fun s r => s.onRow e.sid base w r [] fun x => x.discard 1) s))) ∧
     (∀ base, e.op = .declare base → exec (.listOpPerform n) s = .next ((rows (pop s) base 0 (lRows w) empty).modCord
       e.sid e.cord fun c => (c.writeV e.d e.mask (fun _ => 0) .general).unmarkV [e.d])) ∧
     (∀ base row0 m free, e.op = .clear base row0 m free → exec (.listOpPerform n) s = .next
       (rows (pop s) base row0 m (if free then List.replicate rb 0 else empty))) ∧
     (∀ base row vals p, e.op = .thr base row vals p →
       let x := readRow st.acc (base + row * rb) (lK w)
       ∃ bits : Mask, exec (.listOpPerform n) s = .next ((pop s).modCord e.sid e.cord fun c =>
           (c.writeP p e.mask bits).unmarkP [p]) ∧
         ∀ l < 32, bits.getLsbD l = (!listNan ty (vals.getD l 0) &&
           (decide (x.entries.length < lK w) || !listLt ty (vals.getD l 0) (x.last ty (lK w)).1))) ∧
     (∀ base row0 m dst, e.op = .read base row0 m dst → quiet →
       let put (x : Stand) : Stand :=
         { x with sp := x.sp.put dst (st.acc.bytes (base + row0 * rb) (m * rb)) }.wrote e.cord e.mask dst (m * rb)
       ∃ draws : Nat, exec (.listOpPerform n) s = .next
       (State.acquireAt (State.modCord { (pop s).modStand e.sid put with fresh := s.fresh + draws } e.sid e.cord fun c =>
         (c.writePair e.d e.mask 0 (BitVec.ofNat 32 (m * rb))).unmarkV [e.d, e.d + 1]) .die e.sid e.cord e.mask)) ∧
     (∀ base row0 m src, e.op = .merge base row0 m src → quiet →
       let len (j : Nat) := st.sp.load (src + j * rb) 4
       let cand (j i : Nat) : Word × Word :=
         let v : Word := BitVec.ofNat 32 (st.sp.load (src + j * rb + 16 + 8 * i) 4)
         (listVal ty (if ty = 1 then v >>> 16 else v), BitVec.ofNat 32 (st.sp.load (src + j * rb + 20 + 8 * i) 4))
       let row (s : State) (j : Nat) : State :=
         let s' := s.onRow e.sid base w (row0 + j) [] fun r => r.discard (st.sp.load (src + j * rb + 12) 4)
         (List.range (len j)).foldl (fun s i => s.insertAt e.sid base w [] (row0 + j) (cand j i)) s'
       (∀ j < m, len j ≤ lK w) →
       exec (.listOpPerform n) s = .next (((pop ((List.range m).foldl row s)).modCord e.sid e.cord fun c =>
         (c.writePair e.d e.mask 0 (BitVec.ofNat 32 ((List.range m).map fun j => 16 + 8 * len j).sum)).unmarkV
           [e.d, e.d + 1]).acquireAt .die e.sid e.cord e.mask)))

/-- O33. An insertion keeps a row ranked, at most K long and free of NaN; without DUP a candidate that precedes the
row's last entry, or finds room, is in the row afterwards, and what leaves the row or does not enter it is counted in
OVER (R291, R293, R295). -/
def Obligations.RowsStayRanked : Prop :=
  ∀ (ty k : Nat) (dup : Bool) (r : ListRow) (c : Word × Word), ty < 3 → 1 ≤ k →
    let ranked (l : List (Word × Word)) : Prop := l.Pairwise (fun a b => precedes ty b a = false) ∧ l.length ≤ k ∧
      ∀ e ∈ l, listNan ty e.1 = false
    ranked r.entries →
    let q := r.insert ty k dup c
    let lostOne : Prop := q.lost = min (r.lost + 1) (2 ^ 32 - 1)
    ranked q.entries ∧ (∀ e ∈ q.entries, e = c ∨ e ∈ r.entries) ∧
    (listNan ty c.1 = true → q.entries = r.entries ∧ lostOne) ∧
    (dup = false → listNan ty c.1 = false →
      (r.entries.length < k → c ∈ q.entries ∧ q.entries.length = r.entries.length + 1 ∧ q.lost = r.lost) ∧
      (r.entries.length = k → precedes ty c (r.entries.getD (k - 1) (0, 0)) = true →
        c ∈ q.entries ∧ q.entries.length = k ∧ lostOne) ∧
      (r.entries.length = k → precedes ty c (r.entries.getD (k - 1) (0, 0)) = false → q.entries = r.entries ∧ lostOne)) ∧
    (dup = true → listNan ty c.1 = false → (∃ e ∈ r.entries, e.2 = c.2) → lostOne) ∧
    (dup = true → (r.entries.map Prod.snd).Nodup → (q.entries.map Prod.snd).Nodup)

/-! ### Flumes -/

/-- O34. The flume instructions of a bound or valid handle: QBIND ends and makes a binding, QRSV and QENQ send a
reservation or park for allowance, QPUT sends its element, QDEQ and QTRY take a ready head or wait or answer EMPTY,
QALW, QINV, QSTAT and BRAL act as R350 to R353 say (R326, R329, R334, R345 to R353). A handle is cached as it stands
in its table; when a QINV's invalidation takes effect is log 78, and that a head taken counts as a write no fence has
covered is log 19. The CAP of a new binding is log 25, and its place in the table, and what becomes of its messages
when it ends, log 34. The flume instructions with operands outside their limits: a set bit outside the fields of R344,
a count outside 1 to 64 or above the CHUNK, a handle the cord has no binding of, and a second binding of one QID are
FLUME_PARAM; an offset that is not a multiple of 16 is MISALIGNED and one beyond the window SP_RANGE; a handle whose
entry is not valid for the process is REMOTE_ERROR 0x01, one without the right 0x02, and a dequeue from another die
0x08; and nothing else changes (R315, R339, R344 to R352). The TRAPVAL of an invalid handle is free, log 9. -/
def Obligations.FlumeInstructionsComplete : Prop :=
  (∀ (s : State) (f : Focus) (o : XOps) (a v : VCode) (r : SCode) (b : Binding) (q : Word) (e : DWord) (fl : Flume)
       (ar : BitVec 3) (c : BitVec 4) (disp : BitVec 18),
     let st := f.stand
     let x := f.cord.sreg o.s
     let y := f.cord.sreg (o.s + 1)
     let field (x : DWord) (lo n : Nat) : Nat := (x.extractLsb' lo n).toNat
     let handle (x : DWord) : BitVec 12 := x.extractLsb' 0 12
     let off := field y 0 32
     let t := f.dest f.path.mask o.d.toNat
     let args : Prop := x.extractLsb' 12 52 = 0#52 ∧ off % 16 = 0 ∧ off + 256 ≤ st.spGran * 16384 ∧ y.extractLsb' 32 32 = 0#32
     let valid (h : BitVec 12) (right : Bool) : Prop :=
       ((s.core st.die st.core).handles.find? fun z => z.handle = h ∧ z.fpid = st.fpid) = some ⟨h, st.fpid, e⟩ ∧
         s.tableEntry st.die h = e ∧ e.getLsbD 63 = true ∧ e.extractLsb' 32 16 = st.fpid ∧ q = e.extractLsb' 0 32 ∧
         right = true
     let next (c : Cord) : State := s.goneOn f c
     let marked : Cord := { f.cord with vmarks := f.cord.vmarks ++ [t.d, t.d + 1] }
     let spend (s : State) (n : Nat) (put : Option Put) : State :=
       (((s.modBinding st.die b.bid fun b => { b with credit := b.credit - n }).emit st.die b.bid b.qid 1
         (.reserve t st.die b.bid b.qid b.handle n put st.owner)).askCredit st.die b.bid)
     let reserves (i : Instr) (h : BitVec 12) (n : Nat) (put : Option Put) : Prop :=
       s.bindingOf f h = some b →
       (n ≤ min b.credit b.cap → exec i s = .next (spend (next marked) n put)) ∧
       (min b.credit b.cap < n → exec i s = .next
         ((s.withWork (.reserveWait t b.bid n s.clock put)).parked f (.reserve s.uid t.d)))
     let ts : DWord := BitVec.ofNat 64 (if f.cord.tsfloor.toNat ≤ s.ts then s.ts else f.cord.tsfloor.toNat)
     let package := s.tableRoute q
     (Issues (.qbind a r) s f → f.cord.sreg r = 0x8000000000000000 → exec (.qbind a r) s = .next
       (State.goneOn (match f.cord.allow.getD a.toNat none with | some e => s.unbind st.die e | none => s) f
         { f.cord with allow := f.cord.allow.set a.toNat none })) ∧
     (∀ n, Issues (.qbind a r) s f → (f.cord.sreg r).extractLsb' 12 52 = 0#52 →
       valid (handle (f.cord.sreg r)) (e.getLsbD 48) → f.cord.allow.getD a.toNat none = none →
       (∀ m ∈ f.cord.allow, ∀ k, m = some k → ∀ z, (s.die st.die).binding k = some z → z.qid ≠ q) →
       (s.die st.die).bindings.length < 32768 → n ∉ (s.die st.die).bindings.map Prod.fst →
       (∀ k < n, k ∈ (s.die st.die).bindings.map Prod.fst) → s.route st.die package n q s.uid = .up →
       let made : Binding :=
         { bid := s.uid, sid := st.sid, cord := f.cord.id, slotB := f.slotB, pc := f.path.restart, ctx := st.ctx,
           fpid := st.fpid, handle := handle (f.cord.sreg r), qid := q, credit := 0, cap := 64, chunk := 0,
           route := package, asking := false, retryAt := none }
       let with_ : State := { s with uid := s.uid + 1 }.modDie st.die fun z => { z with bindings := z.bindings ++ [(n, made)] }
       exec (.qbind a r) s = .next ((with_.askCredit st.die s.uid).goneOn f
         { f.cord with allow := f.cord.allow.set a.toNat (some n) })) ∧
     (let n := field x 16 7
      Issues (.qrsv o) s f → x.extractLsb' 23 41 = 0#41 → x.extractLsb' 12 4 = 0#4 → 1 ≤ n → n ≤ 64 →
       (b.chunk = 0 ∨ n ≤ b.chunk) → reserves (.qrsv o) (handle x) n none) ∧
     (Issues (.qenq o) s f → args → reserves (.qenq o) (handle x) 1 (some ⟨none, off, ts, handle x⟩)) ∧
     (Issues (.qput o v) s f → args → s.bindingOf f (handle x) = some b → exec (.qput o v) s = .next
       ((next marked).emit st.die b.bid b.qid 2 (.put t st.die b.bid b.qid
         ⟨some (if v = 63 then 0 else ((f.cord.vreg v.toNat).lane (Mask.low f.path.mask)).toNat), off, ts, handle x⟩))) ∧
     (∀ i ∈ [Instr.qdeq o, .qtry o], Issues i s f → args → valid (handle x) (e.getLsbD 49) → qidDie q = st.die →
       s.flume? q = some fl → fl.fpid = st.fpid →
       ((s.port (qidDie q) (qidPort q)).secure = true → st.sec = true) → s.racySp st = [] → s.Whole →
       (∀ bs n z d k h pc, fl.waits = [] → fl.slots.head? = some (false, .filled bs n d k h pc) → z = fl.head →
         exec i s = .next (((s.modFlume q Flume.pop).acquireAt .die st.sid f.cord.id f.path.mask).goneOnIn f
           ({ st with sp := st.sp.put off bs }.wrote f.cord.id f.path.mask off bs.length) ({ f.cord with tsfloor := if f.cord.tsfloor.toNat < n.toNat then n else f.cord.tsfloor }.writePair t.d
             f.path.mask 0 (BitVec.ofNat 32 z)))) ∧
       (fl.waits ≠ [] ∨ (∀ bs n d k h pc, fl.slots.head? ≠ some (false, .filled bs n d k h pc)) →
         exec i s = .next (if i = .qtry o then s.answered f t.d 16 0
           else ((s.withWork (.dequeueWait t q (handle x) off)).modFlume q fun z =>
             { z with waits := z.waits ++ [s.uid] }).parked f (.dequeue s.uid t.d)))) ∧
     (Issues (.qalw a r) s f →
       ((f.cord.allow.getD a.toNat none).bind (s.die st.die).binding = some b → exec (.qalw a r) s = .next
         (next (f.cord.writeS r (BitVec.ofNat 64 (b.handle.toNat * 2 ^ 32 + 2 ^ 31 + b.chunk * 2 ^ 24 + b.cap * 2 ^ 16 +
           b.credit * 2 ^ 8 + min b.credit b.cap))))) ∧
       ((f.cord.allow.getD a.toNat none).bind (s.die st.die).binding = none → exec (.qalw a r) s = .next
         (next (f.cord.writeS r 0)))) ∧
     (let x := f.cord.sreg r
      Issues (.qinv r) s f → x.extractLsb' 62 2 = 0#2 → x.extractLsb' 12 49 = 0#49 →
       (x.getLsbD 61 = true → handle x = 0) → exec (.qinv r) s = .next ((s.modCore st.die st.core fun k => { k with
         qinvs := k.qinvs ++ [(st.sid, f.cord.id, if x.getLsbD 61 then none else some (handle x))] }).goneOn f
           f.cord)) ∧
     (Issues (.qstat o) s f → x.extractLsb' 12 52 = 0#52 → valid (handle x) (e.getLsbD 48 || e.getLsbD 49) →
       exec (.qstat o) s = .next ((next marked).emitOn ⟨1, st.die, q, none⟩ (s.route st.die package 0 q s.uid)
         (.stat t q (handle x)))) ∧
     (let vis := ((f.cord.allow.getD ar.toNat none).bind (s.die st.die).binding).elim 0 fun b => min b.credit b.cap
      Issues (.bral ar c disp) s f → exec (.bral ar c disp) s = .next { s with focus := some { f with path := { f.path with
         pc := if c.toNat ≤ vis then f.path.pc + 4 * disp.signExtend 57 else f.path.pc + 4, pfx := none, wait := none,
         chain := {}, yielded := false } } })) ∧
  (∀ (s : State) (f : Focus) (o : XOps) (a v : VCode) (r : SCode) (q : Word) (e : DWord),
     let st := f.stand
     let x := f.cord.sreg o.s
     let y := f.cord.sreg (o.s + 1)
     let z := f.cord.sreg r
     let off := (y.extractLsb' 0 32).toNat
     let n := (x.extractLsb' 16 7).toNat
     let faults (i : Instr) (c : TrapCode) : Prop := ∃ v, exec i s = .next (s.faulted i f { code := c, val := v })
     let fits : Prop := off % 16 = 0 ∧ off + 256 ≤ st.spGran * 16384
     let zero : Prop := x.extractLsb' 12 52 = 0#52 ∧ y.extractLsb' 32 32 = 0#32
     let cached (h : BitVec 12) : Prop :=
       ((s.core st.die st.core).handles.find? fun z => z.handle = h ∧ z.fpid = st.fpid) = some ⟨h, st.fpid, e⟩ ∧
         s.tableEntry st.die h = e ∧ e.getLsbD 63 = true ∧ e.extractLsb' 32 16 = st.fpid ∧ q = e.extractLsb' 0 32
     let unknown (h : BitVec 12) : Prop :=
       (∀ z ∈ (s.core st.die st.core).handles, ¬(z.handle = h ∧ z.fpid = st.fpid)) ∧
         ((s.tableEntry st.die h).getLsbD 63 = false ∨ (s.tableEntry st.die h).extractLsb' 32 16 ≠ st.fpid)
     let remote (reason : BitVec 8) (h : BitVec 12) : Trap :=
       { code := .remoteError, val := some (0#24 ++ reason ++ q), reason := reason, info := 0#20 ++ h ++ q }
     (Issues (.qbind a r) s f → z.extractLsb' 12 51 ≠ 0#51 ∨ (z.getLsbD 63 = true ∧ z.extractLsb' 0 12 ≠ 0#12) →
       faults (.qbind a r) .flumeParam) ∧
     (Issues (.qbind a r) s f → z.extractLsb' 12 52 = 0#52 → f.cord.allow.getD a.toNat none = none →
       (s.die st.die).bindings.length < 32768 →
       (unknown (z.extractLsb' 0 12) → ∃ w : Word, exec (.qbind a r) s = .next
         (State.faulted { s with fresh := s.fresh + 1 } (.qbind a r) f
           { code := .remoteError, val := some (0#24 ++ 1#8 ++ w), reason := 1, info := 0#20 ++ z.extractLsb' 0 12 ++ w })) ∧
       (cached (z.extractLsb' 0 12) → e.getLsbD 48 = false →
         exec (.qbind a r) s = .next (s.faulted (.qbind a r) f (remote 2 (z.extractLsb' 0 12)))) ∧
       (∀ (k m : Nat) (b : Binding), cached (z.extractLsb' 0 12) → e.getLsbD 48 = true → f.cord.allow[k]? = some (some m) →
         (s.die st.die).binding m = some b → b.qid = q → faults (.qbind a r) .flumeParam)) ∧
     (Issues (.qrsv o) s f →
       (x.extractLsb' 23 41 ≠ 0#41 ∨ x.extractLsb' 12 4 ≠ 0#4 ∨ n = 0 ∨ 64 < n → faults (.qrsv o) .flumeParam) ∧
       (s.bindingOf f (x.extractLsb' 0 12) = none → faults (.qrsv o) .flumeParam) ∧
       (∀ b, s.bindingOf f (x.extractLsb' 0 12) = some b → b.chunk ≠ 0 → b.chunk < n → faults (.qrsv o) .flumeParam)) ∧
     (∀ i ∈ [Instr.qput o v, .qenq o, .qdeq o, .qtry o], Issues i s f →
       (off % 16 ≠ 0 → faults i .misaligned) ∧
       (off % 16 = 0 → st.spGran * 16384 < off + 256 → faults i .spRange) ∧
       (fits → ¬zero → faults i .flumeParam)) ∧
     (∀ i ∈ [Instr.qput o v, .qenq o], Issues i s f → fits → zero → s.bindingOf f (x.extractLsb' 0 12) = none →
       faults i .flumeParam) ∧
     (∀ i ∈ [Instr.qdeq o, .qtry o], Issues i s f → fits → zero →
       (unknown (x.extractLsb' 0 12) → ∃ w : Word, exec i s = .next (State.faulted { s with fresh := s.fresh + 1 } i f
         { code := .remoteError, val := some (0#24 ++ 1#8 ++ w), reason := 1, info := 0#20 ++ x.extractLsb' 0 12 ++ w })) ∧
       (cached (x.extractLsb' 0 12) → e.getLsbD 49 = false →
         exec i s = .next (s.faulted i f (remote 2 (x.extractLsb' 0 12)))) ∧
       (cached (x.extractLsb' 0 12) → e.getLsbD 49 = true →
         (q.extractLsb' 20 12 ≠ s.pkgid ∨ (q.extractLsb' 17 3).toNat ≠ st.die) →
         exec i s = .next (s.faulted i f (remote 8 (x.extractLsb' 0 12))))) ∧
     (Issues (.qinv r) s f → z.extractLsb' 62 2 ≠ 0#2 ∨ z.extractLsb' 12 49 ≠ 0#49 ∨
       (z.getLsbD 61 = true ∧ z.extractLsb' 0 12 ≠ 0#12) → faults (.qinv r) .flumeParam) ∧
     (Issues (.qstat o) s f →
       (x.extractLsb' 12 52 ≠ 0#52 → faults (.qstat o) .flumeParam) ∧
       (x.extractLsb' 12 52 = 0#52 → cached (x.extractLsb' 0 12) → e.getLsbD 48 = false → e.getLsbD 49 = false →
         exec (.qstat o) s = .next (s.faulted (.qstat o) f (remote 2 (x.extractLsb' 0 12))))))

/-- O35. Credit moves on a route that is up: a binding with too little asks once; its request joins the queue of the
home port; the port grants the first in its queue whose flume has a free slot what is asked or free and promises no
more than its slots; the grant raises CREDIT; a cap the route allows is taken up; and a reservation parked 4,096
cycles goes on its credit (R322, R327 to R329). That a request whose flume has no slot does not hold up the others is
log 32. Slots move at the home port: a reservation takes consecutive numbers, in the window while nothing has spilled
and in spill after that; a put fills its reserved slot; a refill moves the lowest spilled slot into the window; a
ready head goes to the oldest waiting dequeue with its TS; a status arrives at its registers, and orders nothing; an
error is raised where it was caused (R323 to R325, R334, R336, R338, R339, R346, R347, R352). A put releases and a
dequeue acquires (R336); which later loads see what a put to spill replaced is left open here (log 17), and a slot
whose put fails becomes void as log 40 says. A refill's page must be writable too (R339). How an operation of a
binding leaves its die: where the package's own port is home and no packet of the binding waits on a link, it is a
piece of work that travels under the route entry in force; to another package it joins the queue of a link that is up,
the first that its route entry names from its place on; and while packets of the binding are queued on a link, its
later ones join them there (R318, R408, R409). The flits of a packet and the order of ports are log 36. -/
def Obligations.CreditsAndSlotsMove : Prop :=
  (∀ (s : State) (id d : Nat) (b : Binding) (fl : Flume) (owner : Stand), s.focus = none → s.stand? b.sid = some owner →
     (s.die d).bound b.bid = some b → s.flume? b.qid = some fl → fl.fpid = owner.fpid →
     ((s.port (qidDie b.qid) (qidPort b.qid)).secure = true → owner.sec = true) →
     let up (id : Nat) : Prop := s.routeOf d b.bid b.qid id = .up
     let port (g : Port → Port) : State := s.modPort (qidDie b.qid) (qidPort b.qid) g
     let done : State := { s with works := s.works.filter fun w => w.id ≠ id }
     let waitsFor (n : Nat) : Prop := ∀ i ∈ s.works, ∀ t k m p, i.work = .reserveWait t b.bid k m p → n < k ∧ (b.chunk = 0 ∨ k ≤ b.chunk)
     (b.asking = false → b.retryAt = none → b.chunk = 0 ∨ b.credit < b.chunk → up s.uid → s.askCredit d b.bid =
       (s.modBinding d b.bid fun x => { x with asking := true, route := s.routeEntry d b.bid b.qid }).withWork
         (.creditReq ⟨d, b.bid, b.qid, b.chunk - b.credit⟩)) ∧
     (b.asking = true ∨ b.retryAt ≠ none ∨ (b.chunk ≠ 0 ∧ b.chunk ≤ b.credit) → s.askCredit d b.bid = s) ∧
     (∀ asked, s.active? id = some (.creditReq ⟨d, b.bid, b.qid, asked⟩) → s.flumeFirst id b.bid = true → up id →
       (((s.port (qidDie b.qid) (qidPort b.qid)).credits.length < 1024) → exec (.creditRequestArrive id) s = .next
         (State.modPort done (qidDie b.qid) (qidPort b.qid) fun p =>
           { p with credits := p.credits ++ [⟨d, b.bid, b.qid, if asked = 0 then fl.chunk else asked⟩] })) ∧
       (1024 ≤ (s.port (qidDie b.qid) (qidPort b.qid)).credits.length → exec (.creditRequestArrive id) s = .next
         (State.modBinding done d b.bid fun b => { b with asking := false, retryAt := some (s.clock + 256) }))) ∧
     (∀ asked pre post, (s.port (qidDie b.qid) (qidPort b.qid)).credits = pre ++ ⟨d, b.bid, b.qid, asked⟩ :: post →
       (∀ x ∈ pre, ∃ y, s.flume? x.qid = some y ∧ y.wslots + y.sslots ≤ y.used + y.promised) → 0 < fl.free →
       let g := min asked fl.free
       exec (.creditGrant (qidDie b.qid) (qidPort b.qid)) s = .next
         (((port fun p => { p with credits := pre ++ post }).modFlume b.qid fun x =>
           { x with promised := x.promised + g }).withWork (.creditGrant d b.bid b.qid g fl.chunk)) ∧
       (fl.used + fl.promised ≤ fl.wslots + fl.sslots → fl.used + (fl.promised + g) ≤ fl.wslots + fl.sslots)) ∧
     (∀ g chunk, s.active? id = some (.creditGrant d b.bid b.qid g chunk) → s.crossing d (qidDie b.qid) id = false →
       (∀ i ∈ s.works, ∀ t k m p, i.work ≠ .reserveWait t b.bid k m p) → 0 < chunk → chunk ≤ b.credit + g →
       exec (.creditGrantArrive id) s = .next (State.modBinding done d b.bid fun b =>
         { b with credit := b.credit + g, chunk := chunk, asking := false })) ∧
     (∀ e k, (s.die d).binding e = some b → b.retryAt = some k → k ≤ s.clock → exec (.creditRetry d e) s = .next
       ((s.modBinding d b.bid fun b => { b with retryAt := none }).askCredit d b.bid)) ∧
     (∀ e cap r, (s.die d).binding e = some b → s.routeOf d b.bid b.qid s.uid = r →
       ((r = .up ∨ ∃ p, r = .away p false) ∧ cap ∈ [64, 32, 8, 2] ∨
         (r = .held ∨ (∃ p, r = .away p true) ∨ ∃ x, r = .down x) ∧ cap = 0) →
       waitsFor (min b.credit cap) →
       exec (.routeCapChange d e cap) s = .next (s.modBinding d b.bid fun b => { b with cap := cap })) ∧
     (∀ (sid c slot k : Nat) (st : Stand) (p : Path) (t : Dest) (n since : Nat) (put : Option Put),
       s.stand? sid = some st → st.die = d → t.sid = sid → s.path? sid c (slot = 1) = some p → p.wait = some (.reserve id k) →
       (∃ h, s.work? id = some ⟨id, h, .reserveWait t b.bid n since put⟩) → since + 4096 ≤ s.clock → n ≤ b.credit →
       0 < b.cap → exec (.reservationTimeout sid c slot) s = .next
         ((((State.wakePath done t.sid t.cord t.slotB fun _ c => { c with vmarks := c.vmarks ++ [t.d, t.d + 1] }).modBinding
           d b.bid fun b => { b with credit := b.credit - n }).emit d b.bid b.qid 1
             (.reserve t d b.bid b.qid b.handle n put st.owner)).askCredit d b.bid))) ∧
  (∀ (s : State) (id d : Nat) (t : Dest) (st : Stand) (b : Binding) (fl : Flume) (q : Word), s.focus = none →
     s.stand? t.sid = some st → s.Whole → s.flume? q = some fl → fl.fpid = st.fpid →
     ((s.port (qidDie q) (qidPort q)).secure = true → st.sec = true) →
     let done : State := { s with works := s.works.filter fun w => w.id ≠ id }
     let first (bid : Nat) : Prop := s.flumeFirst id bid = true ∧ s.routeOf d bid q id = .up
     let reply (s : State) (lo hi : Word) : State :=
       State.withWork { s with works := s.works.filter fun w => w.id ≠ id } (.reply t (qidDie q) lo hi)
     let released (s : State) : State := s.modStand t.sid fun y => s.released y t.cord t.mask
     (∀ n h w, s.active? id = some (.reserve t d b.bid q h n none w) → first b.bid → (s.die d).bound b.bid = some b →
       let placed : List (Bool × SlotState) := (List.range n).map fun j =>
         (decide (fl.spilled ≠ 0 ∨ fl.wslots ≤ fl.used + j), SlotState.reserved b.bid)
       exec (.reservationArrive id) s = .next (reply (s.modFlume q fun _ =>
         { fl with slots := fl.slots ++ placed, promised := fl.promised - n }.settle)
           (BitVec.ofNat 32 ((fl.head + fl.used) % 2 ^ 32)) (BitVec.ofNat 32 n))) ∧
     (∀ n k off ts h, s.active? id = some (.put t d b.bid q ⟨some n, off, ts, h⟩) → first b.bid →
       s.unreleased id t.sid t.cord t.mask = false → k = (n + 2 ^ 32 - fl.head) % 2 ^ 32 →
       fl.slots[k]? = some (false, .reserved b.bid) →
       exec (.elementStore id) s = .next (reply ((released s).modFlume q fun x =>
         { x with slots := x.slots.set k (false, .filled (st.sp.bytes off (16 * 2 ^ fl.elem)) ts d st.ctx h t.pc) })
           0 (BitVec.ofNat 32 n))) ∧
     (∀ n k off ts h a pa leaf, s.active? id = some (.put t d b.bid q ⟨some n, off, ts, h⟩) → first b.bid →
       s.unreleased id t.sid t.cord t.mask = false → k = (n + 2 ^ 32 - fl.head) % 2 ^ 32 →
       fl.slots[k]? = some (true, .reserved b.bid) → s.spillAgent (qidDie q) fl = some a →
       let size := 16 * 2 ^ fl.elem
       let va := fl.spill + n % fl.sslots * size
       pageRuns va size = [(0, size)] → s.Mapped a .write va pa leaf →
       ∃ past : List Past, exec (.elementStore id) s = .next (reply ((released { s with
           hbm := s.hbm.put (hAddr (qidDie q) pa) (st.sp.bytes off size), past := past }).modFlume q fun x =>
         { x with slots := x.slots.set k (true, .filled (st.sp.bytes off size) ts d st.ctx h t.pc) })
           0 (BitVec.ofNat 32 n))) ∧
     (∀ n k off ts h, s.active? id = some (.put t d b.bid q ⟨some n, off, ts, h⟩) → first b.bid →
       s.unreleased id t.sid t.cord t.mask = false → k = (n + 2 ^ 32 - fl.head) % 2 ^ 32 →
       (∀ x, fl.slots[k]? ≠ some (x, .reserved b.bid)) → exec (.elementStore id) s = .next
         (State.withWork done (.remoteError d st.ctx (some t) t.pc 0x09 q h))) ∧
     (∀ k, qidDie q = d → fl.slots.findIdx? (fun x => x.1) = some k → k < fl.wslots →
       (fl.slots[k]? = some (true, .void) → exec (.spillRefillDone d (qidPort q) q) s = .next
         (s.modFlume q fun x => { x with slots := x.slots.set k (false, .void) }.settle)) ∧
       (∀ bs ts d' ctx h pc a pa leaf, fl.slots[k]? = some (true, .filled bs ts d' ctx h pc) → s.spillAgent d fl = some a →
         let va := fl.spill + (fl.head + k) % 2 ^ 32 % fl.sslots * (16 * 2 ^ fl.elem)
         pageRuns va (16 * 2 ^ fl.elem) = [(0, 16 * 2 ^ fl.elem)] → s.Mapped a .atomic va pa leaf →
         exec (.spillRefillDone d (qidPort q) q) s = .next (s.modFlume q fun x => { x with
           slots := x.slots.set k (false, .filled (s.hbm.bytes (hAddr d pa) (16 * 2 ^ fl.elem)) ts d' ctx h pc) }))) ∧
     (∀ bs ts d' ctx h pc rest off z, qidDie q = d → fl.slots.head? = some (false, .filled bs ts d' ctx h pc) →
       fl.waits = id :: rest → (∃ held, s.work? id = some ⟨id, held, .dequeueWait t q z off⟩) → s.noTasks t.sid →
       exec (.headDeliver d (qidPort q) q) s = .next (State.wakePath
         { ((done.modFlume q fun x => { x.pop with waits := rest }).modStand t.sid fun y =>
             { y with sp := y.sp.put off bs }.wrote t.cord t.mask off bs.length) with fresh := s.fresh + 1 }
         t.sid t.cord t.slotB fun m c =>
           { c with tsfloor := if c.tsfloor.toNat < ts.toNat then ts else c.tsfloor }.writePair t.d m 0
             (BitVec.ofNat 32 fl.head))) ∧
     (∀ home lo hi, s.active? id = some (.reply t home lo hi) → s.crossing st.die home id = false →
       exec (.flumeReplyArrive id) s = .next (s.repliedWork id t lo hi)) ∧
     (∀ h, s.active? id = some (.stat t q h) → s.route st.die (s.tableRoute q) 0 q id = .up →
       exec (.flumeReplyArrive id) s = .next (reply s (BitVec.ofNat 32 (fl.waits.length * 2 ^ 18 +
           (match fl.slots.head? with | some (false, .filled _ _ _ _ _ _) => 2 ^ 17 | _ => 0) + fl.slots.length))
         (BitVec.ofNat 32 fl.head))) ∧
     (∀ ctx pc reason h, s.active? id = some (.remoteError d ctx (some t) pc reason q h) →
       s.crossing d (qidDie q) id = false → exec (.remoteErrorReport id) s = .next (done.trapInFlight t
         { code := .remoteError, val := some (BitVec.ofNat 64 (reason.toNat * 2 ^ 32 + q.toNat)), reason := reason,
           info := BitVec.ofNat 64 (h.toNat * 2 ^ 32 + q.toNat) })) ∧
     (∀ ctx pc reason h, s.active? id = some (.remoteError d ctx none pc reason q h) →
       s.crossing d (qidDie q) id = false → exec (.remoteErrorReport id) s = .next (done.endContext d ctx 0x27
         { kind := 1, code := 0x27, reason := reason, ctx := BitVec.ofNat 8 ctx, fpid := ((s.die d).ctx ctx).fpid,
           pc := pc.zeroExtend 64, val := BitVec.ofNat 64 (reason.toNat * 2 ^ 32 + q.toNat),
           info := BitVec.ofNat 64 (h.toNat * 2 ^ 32 + q.toNat) }))) ∧
  (∀ (s : State) (d bid : Nat) (q : Word) (flits : Nat) (w : Work) (b : Binding), (s.die d).bound bid = some b →
     let force : DWord := if s.packetsOf bid then b.route else s.tableRoute q
     let kept : State := s.modBinding d bid fun x => { x with route := force }
     let queue (k : Nat) : State := { kept.withWork w with
       links := s.links.modify k fun l => { l with queue := l.queue ++ [⟨flits, d, q, some bid⟩] } }
     (∀ k, s.queuedOn bid = some k → s.emit d bid q flits w = queue k) ∧
     (s.queuedOn bid = none → qidPkg q = s.pkgid.toNat → s.emit d bid q flits w = kept.withWork w) ∧
     (s.queuedOn bid = none → qidPkg q ≠ s.pkgid.toNat → ∀ p,
       let n := (force.extractLsb' 24 2).toNat + 1
       let at' (j : Nat) : Nat := (force.extractLsb' (6 * (j % n)) 6).toNat
       let e := (s.die d).entryOf bid
       let isUp (j : Nat) : Prop := (s.links.getD (at' (e + j)) {}).width ≠ 0
       (∀ j, force.getLsbD 63 = true → j < n → isUp j → (∀ i < j, ¬isUp i) → p = at' (e + j) →
         s.emit d bid q flits w = queue p) ∧
       (force.getLsbD 63 = false ∨ (∀ j < n, ¬isUp j) → s.emit d bid q flits w = kept.withWork w ∧
         ∀ id, s.routeOf d bid q id = .down 0x04)))

/-- O36. The commands of a flume port: a creation record inside its limits makes an empty flume; destroy removes an
idle one and answers 1 for one in use; forced destroy tells every context that holds a binding or a path parked on the
flume, once each, and every operation on its way to it; an argument that cannot be used and an unknown command answer
4 (R319 to R321, R339). That the operations on their way fail with 0x07, and that their credit is void, is log 84. A
creation record is inside its limits exactly when each of its fields is: its QID names the accepting port of the
package and no flume of it, ELEM is at most 4, CHUNK 1 to 64 and at most WSLOTS + SSLOTS, WSLOTS 1 to 4,096, SSLOTS at
most 65,536, SPILL a multiple of 4,096, and 0 where SSLOTS is 0, and its other bytes are zero; the flume made has the
record's fields, HEAD and NEXT 0, no slot taken, nothing promised and no path waiting (R314, R320). -/
def Obligations.PortCommandsComplete : Prop :=
  (∀ (s : State) (die port : Nat), s.focus = none →
     let p := s.port die port
     let answer (s : State) (r : BitVec 4) : State := s.modPort die port fun x => { x with flcmd := 0, flres := r }
     let a := p.flarg.toNat
     let rec' := s.hbm.bytes (hAddr die a) 64
     (p.flcmd = 1 →
       (a % 64 ≠ 0 ∨ Config.hbmBytes < a + 64 → exec (.flumeCreate die port) s = .next (answer s 4)) ∧
       (a % 64 = 0 → a + 64 ≤ Config.hbmBytes →
         (flumeRecordOk s die port rec' = false → exec (.flumeCreate die port) s = .next (answer s 3)) ∧
         (flumeRecordOk s die port rec' = true → p.flumes.length < 512 →
           ((p.flumes ++ [flumeOf rec']).map fun x => x.wslots * (16 * 2 ^ x.elem)).sum ≤ 262144 →
           exec (.flumeCreate die port) s = .next
             (answer (s.modPort die port fun x => { x with flumes := x.flumes ++ [flumeOf rec'] }) 0)) ∧
         (flumeRecordOk s die port rec' = true → 512 ≤ p.flumes.length →
           exec (.flumeCreate die port) s = .next (answer s 2)))) ∧
     (∀ fl, p.flcmd = 2 → p.flarg.extractLsb' 32 32 = 0#32 → p.flume? (p.flarg.extractLsb' 0 32) = some fl →
       (fl.slots = [] → fl.promised = 0 → fl.waits = [] → s.bindingsTo fl.qid = [] →
         exec (.flumeDestroy die port) s = .next
           (answer (s.modPort die port fun x => { x with flumes := x.flumes.filter fun y => y.qid ≠ fl.qid }) 0)) ∧
       (fl.slots ≠ [] ∨ fl.promised ≠ 0 ∨ fl.waits ≠ [] ∨ s.bindingsTo fl.qid ≠ [] →
         exec (.flumeDestroy die port) s = .next (answer s 1))) ∧
     (∀ fl, p.flcmd = 3 → p.flarg.extractLsb' 32 32 = 0#32 → p.flume? (p.flarg.extractLsb' 0 32) = some fl →
       qidDie fl.qid = die → qidPort fl.qid = port →
       let parked := fl.waits.filterMap fun id => (s.work? id).bind fun i => match i.work with
         | .dequeueWait t _ h _ => (s.engineAgent t false).map fun a => (a.die, a.ctx, h)
         | _ => none
       let gone : State := s.modPort die port fun x => { x with
         flumes := x.flumes.filter (fun y => y.qid ≠ fl.qid), credits := x.credits.filter fun r => r.qid ≠ fl.qid }
       let removed : State := { gone with
         works := s.works.filter fun i => !i.work.ofFlume fl.qid
         dies := gone.dies.map fun x => { x with bindings := x.bindings.map fun b =>
           if b.2.qid = fl.qid then (b.1, { b.2 with credit := 0, asking := false, retryAt := none }) else b } }
       let failed := s.works.filterMap fun i => gone.bound? fl.qid i.work
       let told := oneEach ((s.bindingsTo fl.qid).map (fun b => (b.1, b.2.ctx, b.2.handle)) ++ parked)
       exec (.flumeForcedDestroy die port) s = .next (answer (told.foldl
         (fun s w => s.withWork (.remoteError w.1 w.2.1 none 0 0x07 fl.qid w.2.2))
         (failed.foldl (fun s e => s.withWork (.remoteError e.1 e.2.1 (some e.2.2.1) e.2.2.1.pc 0x07 fl.qid e.2.2.2)) removed))
         0)) ∧
     (∀ l : List (Nat × Nat × BitVec 12), ((oneEach l).map fun x => (x.1, x.2.1)).Nodup ∧
       ∀ x, (x ∈ oneEach l → x ∈ l) ∧ (x ∈ l → ∃ y ∈ oneEach l, y.1 = x.1 ∧ y.2.1 = x.2.1)) ∧
     (∀ i c, (i, c) ∈ [(Instr.flumeDestroy die port, 2#3), (.flumeForcedDestroy die port, 3#3)] → p.flcmd = c →
       p.flarg.extractLsb' 32 32 ≠ 0#32 ∨ p.flume? (p.flarg.extractLsb' 0 32) = none →
       exec i s = .next (answer s 4)) ∧
     (∀ c : BitVec 3, 3 < c.toNat → p.flcmd = c → exec (.flcmdInvalid die port c) s = .next (answer s 4))) ∧
  (∀ (s : State) (die port : Nat) (r : List Byte), r.length = 64 →
     let b (o n : Nat) : Nat := ((List.range n).map fun k => ((r.getD (o + k) 0).toNat) * 256 ^ k).sum
     let fl := flumeOf r
     (flumeRecordOk s die port r = true ↔
       b 0 4 / 2 ^ 20 = s.pkgid.toNat ∧ b 0 4 / 2 ^ 17 % 8 = die ∧ b 0 4 / 2 ^ 13 % 16 = port ∧
       (∀ x ∈ (s.port die port).flumes, x.qid.toNat ≠ b 0 4) ∧ b 6 1 ≤ 4 ∧ 1 ≤ b 7 1 ∧ b 7 1 ≤ 64 ∧
       b 7 1 ≤ b 8 2 + b 12 4 ∧ 1 ≤ b 8 2 ∧ b 8 2 ≤ 4096 ∧ b 10 2 = 0 ∧ b 12 4 ≤ 65536 ∧ b 16 8 % 4096 = 0 ∧
       (b 12 4 = 0 → b 16 8 = 0) ∧ ∀ k, 24 ≤ k → k < 64 → r.getD k 0 = 0) ∧
     fl.qid.toNat = b 0 4 ∧ fl.fpid.toNat = b 4 2 ∧ fl.elem = b 6 1 ∧ fl.chunk = b 7 1 ∧ fl.wslots = b 8 2 ∧
     fl.sslots = b 12 4 ∧ fl.spill = b 16 8 ∧ fl.head = 0 ∧ fl.slots = [] ∧ fl.used = 0 ∧ fl.promised = 0 ∧ fl.voids = 0 ∧
     fl.waits = [] ∧ fl.free = b 8 2 + b 12 4)

/-! ### Launch -/

/-- O37. LAUNCH, CMBI and CMBW with operands inside their limits begin; the last two wait for room in the skidder's
queue (R362, R370). LAUNCH, CMBI and CMBW with operands outside their limits: an offset, base, OUT or FUT off its
alignment is MISALIGNED, a record, image or slot beyond the window SP_RANGE, a base or an end at or above 2^57
ADDRESS_RANGE, and a field outside its limits or a set bit outside the fields LAUNCH_PARAM or COMBINE_PARAM; and
nothing else changes (R362, R365, R370). That a field which gives the extent is looked at before the range, and the
others after it, is R374's order. -/
def Obligations.LaunchCombineBegin : Prop :=
  (∀ (s : State) (f : Focus) (o : XOps),
     let st := f.stand
     let sp := st.spGran * 16384
     let x := f.cord.sreg o.s
     let y := f.cord.sreg (o.s + 1)
     let t := f.dest f.path.mask o.d.toNat
     let begins (w : Work) : State := s.began f o.d.toNat 2 w
     (let off := (x.extractLsb' 0 32).toNat
      Issues (.launch o) s f → s.Whole → x.extractLsb' 32 32 = 0#32 → off % 128 = 0 → off + 128 ≤ sp → y.extractLsb' 3 61 = 0#61 →
       exec (.launch o) s = .next (begins (.launchRec t (y.extractLsb' 0 3).toNat
         ⟨st.sp.bytes off 128, st.ctx, some st.fpid, st.prio⟩))) ∧
     (let off := (y.extractLsb' 0 32).toNat
      let b := st.sp.bytes off 32
      let h := combineHdr b
      Issues (.cmbi o) s f → s.Whole → x.toNat % 64 = 0 → off % 32 = 0 → off + 32 ≤ sp → y.extractLsb' 32 32 = 0#32 →
       h.out % 64 = 0 → h.out < 2 ^ 57 → h.fut % 16 = 0 → 1 ≤ h.tokens → h.tokens ≤ 2 ^ 20 → 16 ≤ h.width →
       h.width ≤ 8192 → h.width % 16 = 0 → 1 ≤ h.ranks → h.ranks ≤ 8 → recField b 23 9 = 0 →
       x.toNat + 64 + 64 * ((4 * h.tokens + 63) / 64) + h.tokens * h.ranks * 4 * h.width ≤ 2 ^ 57 →
       exec (.cmbi o) s = .next (if skidFull s f then s else begins (.combineInit t x.toNat b))) ∧
     (let off := (y.extractLsb' 0 32).toNat
      let skip := y.getLsbD 63
      Issues (.cmbw o) s f → x.toNat % 64 = 0 → x.toNat < 2 ^ 57 → off % 64 = 0 → y.extractLsb' 55 8 = 0#8 →
       (if skip then off = 0 else off + 64 ≤ sp) →
       exec (.cmbw o) s = .next (if skidFull s f then s else begins
         (.combine t x.toNat (y.extractLsb' 52 3).toNat (y.extractLsb' 32 20).toNat off skip .claim)))) ∧
  (∀ (s : State) (f : Focus) (o : XOps),
     let st := f.stand
     let sp := st.spGran * 16384
     let x := f.cord.sreg o.s
     let y := f.cord.sreg (o.s + 1)
     let faults (i : Instr) (c : TrapCode) : Prop := ∃ v, exec i s = .next (s.faulted i f { code := c, val := v })
     (let off := (x.extractLsb' 0 32).toNat
      Issues (.launch o) s f → s.Whole →
       (off % 128 ≠ 0 → faults (.launch o) .misaligned) ∧
       (off % 128 = 0 → sp < off + 128 → faults (.launch o) .spRange) ∧
       (off % 128 = 0 → off + 128 ≤ sp → x.extractLsb' 32 32 ≠ 0#32 ∨ y.extractLsb' 3 61 ≠ 0#61 →
         faults (.launch o) .launchParam)) ∧
     (let off := (y.extractLsb' 0 32).toNat
      let b := st.sp.bytes off 32
      let h := combineHdr b
      let extent : Prop := 1 ≤ h.tokens ∧ h.tokens ≤ 2 ^ 20 ∧ 16 ≤ h.width ∧ h.width ≤ 8192 ∧ h.width % 16 = 0 ∧ 1 ≤ h.ranks ∧
       h.ranks ≤ 8
      let last := x.toNat + 64 + 64 * ((4 * h.tokens + 63) / 64) + h.tokens * h.ranks * 4 * h.width
      Issues (.cmbi o) s f → s.Whole → skidFull s f = false →
       (x.toNat % 64 ≠ 0 ∨ off % 32 ≠ 0 → faults (.cmbi o) .misaligned) ∧
       (x.toNat % 64 = 0 → off % 32 = 0 →
         (sp < off + 32 → faults (.cmbi o) .spRange) ∧
         (off + 32 ≤ sp → h.out % 64 ≠ 0 ∨ h.fut % 16 ≠ 0 → faults (.cmbi o) .misaligned) ∧
         (off + 32 ≤ sp → h.out % 64 = 0 → h.fut % 16 = 0 →
           (¬extent → faults (.cmbi o) .combineParam) ∧
           (extent → 2 ^ 57 < last → faults (.cmbi o) .addressRange) ∧
           (extent → last ≤ 2 ^ 57 → 2 ^ 57 ≤ h.out ∨ recField b 23 9 ≠ 0 ∨ y.extractLsb' 32 32 ≠ 0#32 →
             faults (.cmbi o) .combineParam)))) ∧
     (let off := (y.extractLsb' 0 32).toNat
      let skip := y.getLsbD 63
      Issues (.cmbw o) s f → skidFull s f = false →
       (x.toNat % 64 ≠ 0 ∨ off % 64 ≠ 0 → faults (.cmbw o) .misaligned) ∧
       (x.toNat % 64 = 0 → off % 64 = 0 →
         (skip = false → sp < off + 64 → faults (.cmbw o) .spRange) ∧
         ((skip = false → off + 64 ≤ sp) →
           (2 ^ 57 ≤ x.toNat → faults (.cmbw o) .addressRange) ∧
           (x.toNat < 2 ^ 57 → y.extractLsb' 55 8 ≠ 0#8 ∨ (skip = true ∧ off ≠ 0) → faults (.cmbw o) .combineParam)))))

/-- O38. The steps on a mapped combine buffer: CMBI writes its header and clears the token words; CMBW claims its slot
in the token word, copies its data, and marks it filled, and the last fill of a token sums its slots in rank order,
writes the result, and raises TDONE; the fill releases (R366 to R370). A CMBW whose token word a CMBI has zeroed since
its claim ends with no write (log 79), and a CMBI writes in one step (log 47). Which later loads see what the steps
replaced is left open here (log 17). Combine buffers: each field of a header stands where R366 puts it, and a header
is sound exactly when each is inside its limits; a token's sum, in each element, starts with the first rank that is
not skipped, exactly, or with the default NaN for a NaN, adds each later one in rank order, rounding the exact sum to
the nearest F32, is the default NaN where an operand is a NaN or two infinities differ, and is +0 where every rank is
skipped (R366, R368). -/
def Obligations.CombineBuffersAdvance : Prop :=
  (∀ (s : State) (id : Nat) (t : Dest) (st : Stand) (base rank token off pa po : Nat) (skip : Bool) (k : Leaf)
       (image : List Byte), s.focus = none → s.stand? t.sid = some st → s.unreleased id t.sid t.cord t.mask = false →
     s.Whole →
     let a : Agent := ⟨st.die, st.ctx, st.sec && (s.core st.die st.core).skSecure, st.fpid, 1, st.core, (s.named t).2⟩
     let at_ := hAddr st.die pa
     let combine (c : CombineStage) : Work := .combine t base rank token off skip c
     let h := combineHdr (s.hbm.bytes at_ 64)
     let n := 4 * h.width
     let slots := 64 + 64 * ((4 * h.tokens + 63) / 64)
     let tw := at_ + 64 + 4 * token
     let w : Word := BitVec.ofNat 32 (s.hbm.load tw 4)
     let word (x : Word) (m : Memory) : Memory := m.put tw (leBytes 4 x.toNat)
     let sound : Prop := combineOk (s.hbm.bytes at_ 64) = true ∧ rank < h.ranks ∧ token < h.tokens ∧ base % 64 = 0 ∧
       base + slots + h.tokens * h.ranks * n ≤ 2 ^ 57 ∧
       ∀ j < slots + h.tokens * h.ranks * n, s.Mapped a .atomic (base + j) (pa + j) k
     (s.active? id = some (.combineInit t base image) → image.length = 32 →
       (let n := 64 + 4 * (combineHdr image).tokens
        (∀ j < n, s.Mapped a .write (base + j) (pa + j) k) →
        ∃ past : List Past, exec (.combineStep id) s = .next (State.finishedWork (State.loseClaims { s with
            hbm := s.hbm.put at_ (image.take 24 ++ List.replicate (n - 24) 0), past := past } a base (combineHdr image).tokens)
          id t 0 (BitVec.ofNat 32 n)))) ∧
     (∀ n i, i ∈ (s.loseClaims a base n).works → i ∈ s.works ∨ ∃ t b r k off skip,
       base ≤ b + 4 * k ∧ b + 4 * k < base + 4 * n ∧ ∃ c, c ≠ .claim ∧
       i.work = .combine t b r k off skip (.lost c.sent) ∧ { i with work := .combine t b r k off skip c } ∈ s.works) ∧
     (∀ m, s.active? id = some (combine (.lost m)) → pageRuns base 64 = [(0, 64)] → base + 64 ≤ 2 ^ 57 → s.Mapped a .atomic base pa k →
       exec (.combineStep id) s = .next (s.finishedWork id t 0 (BitVec.ofNat 32 (if skip then 0 else n)))) ∧
     (s.active? id = some (combine .claim) → sound → w.getLsbD rank = false → (skip = false → off + n ≤ st.spGran * 16384) →
       ∃ past : List Past, exec (.combineStep id) s = .next
         (State.setWork { s with hbm := word (w ||| (1#32 <<< rank)) s.hbm, past := past } id (combine .data))) ∧
     (s.active? id = some (combine .claim) → sound → w.getLsbD rank = true → (skip = false → off + n ≤ st.spGran * 16384) →
       exec (.combineStep id) s = .next (s.combineFault id t 0 { code := .combineParam })) ∧
     (s.active? id = some (combine .data) → sound →
       ∃ past : List Past, exec (.combineStep id) s = .next (State.setWork { s with
         past := past
         hbm := if skip then word (w ||| (1#32 <<< (16 + rank))) s.hbm
           else s.hbm.put (at_ + slots + (token * h.ranks + rank) * n) (st.sp.bytes off n) } id (combine (.fill (if skip then 0 else n))))) ∧
     (∀ m, s.active? id = some (combine (.fill m)) → sound →
       let w' := w ||| (1#32 <<< (8 + rank))
       let filled := word w' s.hbm
       let told : State := s.modStand t.sid fun x => s.released x t.cord t.mask
       let count : Word := BitVec.ofNat 32 (if skip then 0 else n)
       ((w'.extractLsb' 8 8).toNat ≠ 2 ^ h.ranks - 1 → ∃ past : List Past, exec (.combineStep id) s = .next
         (State.finishedWork { told with hbm := filled, past := past } id t 0 count)) ∧
       ((w'.extractLsb' 8 8).toNat = 2 ^ h.ranks - 1 → h.out + (token + 1) * n ≤ 2 ^ 57 →
         (∀ j < n, State.Mapped { s with hbm := filled } a .write (h.out + token * n + j) (po + j) k) →
         (let at' := slots + token * h.ranks * n
          ∀ j < h.ranks * n, State.Mapped { s with hbm := filled } a .atomic (base + at' + j) (pa + at' + j) k) →
         let slot (r e : Nat) : Word := BitVec.ofNat 32 (filled.load (at_ + slots + (token * h.ranks + r) * n + 4 * e) 4)
         let ranks := (List.range h.ranks).filter fun r => !w'.getLsbD (16 + r)
         let bytes := (List.range h.width).flatMap fun e => leBytes 4 (combineSum (ranks.map fun r => slot r e)).toNat
         let out := filled.put (hAddr st.die po) bytes
         let done := (out.load (at_ + 24) 4 + 1) % 2 ^ 32
         let m := (out.put tw (leBytes 4 (w'.toNat % 2 ^ 31 + 2 ^ 31))).put (at_ + 24) (leBytes 4 done)
         let fut : Option Work := if done = h.tokens ∧ h.fut ≠ 0 then
           some (.resolve { die := st.die, ctx := st.ctx, dest := some t } h.fut none (BitVec.ofNat 64 h.tokens) false) else none
         h.fut < 2 ^ 57 → (∀ x ∈ s.works, x.id ≠ s.uid) →
         ∃ past : List Past, exec (.combineStep id) s = .next ((match fut with
           | some x => State.withWork { told with hbm := m, past := past } x
           | none => { told with hbm := m, past := past }).finishedWork id t 0 count)))) ∧
  ((∀ b : List Byte, b.length = 64 →
     let n (o k : Nat) : Nat := ((List.range k).map fun j => ((b.getD (o + j) 0).toNat) * 256 ^ j).sum
     let h := combineHdr b
     (h.out = n 0 8 ∧ h.fut = n 8 8 ∧ h.tokens = n 16 4 ∧ h.width = n 20 2 ∧ h.ranks = n 22 1) ∧
     (combineOk b = true ↔ n 0 8 % 64 = 0 ∧ n 0 8 < 2 ^ 57 ∧ n 8 8 % 16 = 0 ∧ 1 ≤ n 16 4 ∧ n 16 4 ≤ 1048576 ∧
       16 ≤ n 20 2 ∧ n 20 2 ≤ 8192 ∧ n 20 2 % 16 = 0 ∧ 1 ≤ n 22 1 ∧ n 22 1 ≤ 8 ∧ n 23 1 = 0 ∧
       ∀ j, 28 ≤ j → j < 64 → b.getD j 0 = 0)) ∧
   combineSum [] = 0 ∧
   (∀ x : Word, combineSum [x] = if (FloatFmt.f32.value x.toNat).isNan then 0x7FC00000#32 else x) ∧
   (∀ (l : List Word) (y : Word), l ≠ [] →
     let a := FloatFmt.f32.value (combineSum l).toNat
     let b := FloatFmt.f32.value y.toNat
     let r := combineSum (l ++ [y])
     r = BitVec.ofNat 32 ((sumNums [a, b]).toFmt .f32).1 ∧
     (a.isNan = true ∨ b.isNan = true ∨ (∃ s, a = .inf s ∧ b = .inf (!s)) → r = 0x7FC00000#32) ∧
     (∀ s n e, a = .num s n e → ∀ s' n' e', b = .num s' n' e' → ∃ x : Machine.Num,
       x.rat = a.rat + b.rat ∧ x.isNan = false ∧ x.isInf = false ∧ r = BitVec.ofNat 32 (x.toFmt .f32).1)))

/-- O39. Launches: a LAUNCH's record is stored behind its cord's earlier ones with the next sequence number, and the
host's staged record when there is room; GO captures, or answers BUSY; the port turns the oldest record into a tract,
or refuses it with the lowest reason and poisons its future (R24 to R26, R358, R361 to R364, R403). Which cord's
record arrives first is left free (log 3). The refusal of a launch record gives the lowest reason that holds: 1 for
another configuration, 2 for no die, 3 for a stand that fits no empty core, 4 for a field outside its limits, 5 for
another process (R25, R358). The lowest of several reasons is log 48. The limits of a launch record: a record is
inside them exactly when each field of the record, of its partition word and of its role descriptors is inside its
own, and what no field takes is zero; it fits an empty core when its granules are at most 96, its cords at most 64,
and its register file holds its roles' registers; its roles are those its descriptors give (R17, R19, R355 to R357).
-/
def Obligations.LaunchesAdvanceOrAreRefused : Prop :=
  (∀ (s : State) (die : Nat), s.focus = none →
     let x := s.die die
     let store (l : LaunchRec) : State := s.modDie die fun x =>
       { x with launches := x.launches ++ [(x.launchSeq, l)], launchSeq := (x.launchSeq + 1) % 2 ^ 32 }
     (∀ id t l, s.active? id = some (.launchRec t die l) → s.unreleased id t.sid t.cord t.mask = false →
       (∀ i ∈ s.works.takeWhile (fun i => i.id ≠ id), ∀ t' l', i.work = .launchRec t' die l' →
         (t'.sid, t'.cord) ≠ (t.sid, t.cord)) →
       x.harvested = false → x.inService = true → x.uncRst = false →
       (∀ st, s.stand? t.sid = some st → s.crossing st.die die id = false) → (s.stand? t.sid).isSome →
       (x.launches.length < 256 → exec (.launchRecordStore id) s = .next
         (State.withWork { (s.modStand t.sid fun y => s.released y t.cord t.mask).modDie die
             fun x => { x with launches := x.launches ++ [(x.launchSeq, l)], launchSeq := (x.launchSeq + 1) % 2 ^ 32 } with
             works := s.works.filter fun w => w.id ≠ id }
           (.reply t die 0 (BitVec.ofNat 32 x.launchSeq)))) ∧
       (256 ≤ x.launches.length → exec (.launchRecordStore id) s = .next s)) ∧
     (∀ ctx, x.harvested = true ∨ x.inService = false →
       exec (.hostLaunchSubmit die ctx) s = .next { s with hostReply := some .error }) ∧
     (∀ ctx, x.harvested = false → x.inService = true → s.firmware.fwstat = 1 → exec (.hostLaunchSubmit die ctx) s = .next (s.modDie die fun x =>
       if x.stage.go then { x with stage := { x.stage with code := 1 } }
       else { x with stage := { x.stage with
         go := true, ctx := ctx, captured := some ⟨x.stage.image, ctx.toNat, none, 3⟩ } })) ∧
     (∀ l, x.stage.captured = some l →
       (x.launches.length < 256 → exec (.hostLaunchStore die) s = .next ((store l).modDie die fun y => { y with stage :=
         { y.stage with go := false, seq := BitVec.ofNat 32 x.launchSeq, code := 0, captured := none } })) ∧
       (256 ≤ x.launches.length → exec (.hostLaunchStore die) s = .next s)) ∧
     (∀ n l rest, x.launches = (n, l) :: rest → x.available = true →
       let taken : State := s.modDie die fun x => { x with launches := rest }
       let r := l.bytes
       (s.refusal die l = none → exec (.launchCapture die) s = .next { taken with
         uid := s.uid + 1
         tracts := s.tracts ++ [
           { id := s.uid, die := die, ctx := l.ctx, fpid := l.fpid, prio := min (recField r 28 1) l.limit,
             stands := recField r 4 4, next := 0, ended := 0, param := BitVec.ofNat 64 (recField r 8 8),
             fut := recField r 16 8, seed := BitVec.ofNat 32 (recField r 24 4), affinity := r.getD 29 0,
             rf := recField r 32 1 % 128, spGran := recField r 33 1 % 128, asGran := recField r 34 1 % 128,
             roles := recRoles r, reenter := [], poison := none, blocked := none }] }) ∧
       (∀ why, s.refusal die l = some why → recField r 16 8 = 0 → exec (.launchCapture die) s = .next (taken.post die
         { kind := 4, code := 0x29, reason := why, ctx := BitVec.ofNat 8 l.ctx, fpid := ((s.die die).ctx l.ctx).fpid,
           info := BitVec.ofNat 64 n, info2 := 0 })) ∧
       (∀ why pa leaf m wakes, let fut := recField r 16 8
         let e := x.ctx l.ctx
         s.refusal die l = some why → fut ≠ 0 → fut % 16 = 0 → fut < 2 ^ 57 → e.v = true →
         s.Mapped ⟨die, l.ctx, e.sec, e.fpid, 0, 32, {}⟩ .atomic fut pa leaf →
         resolveFuture s.hbm (hAddr die pa) 0x29 true = some (m, wakes) →
         ∃ past : List Past, let poisoned : State := { taken with hbm := m, past := past }
           exec (.launchCapture die) s = .next ((if wakes then poisoned.sendWakes die pa else poisoned).post die
             { kind := 4, code := 0x29, reason := why, ctx := BitVec.ofNat 8 l.ctx, fpid := e.fpid,
               info := BitVec.ofNat 64 n, info2 := BitVec.ofNat 64 fut })))) ∧
  (∀ (s : State) (d : Nat) (l : LaunchRec),
     let r := l.bytes
     let e := (s.die d).ctx l.ctx
     let named := (List.range 8).filter fun n => (r.getD 29 0).getLsbD n && (s.die n).available
     let config := recField r 0 4 = Config.configId
     let fits := recFits r = true ∧ ∃ n ∈ named, ∃ k ∈ (s.die n).cores, k.secure = ((s.die n).ctx l.ctx).sec
     (s.refusal d l = some 1 ↔ ¬config) ∧
     (s.refusal d l = some 2 ↔ config ∧ named = []) ∧
     (s.refusal d l = some 3 ↔ config ∧ named ≠ [] ∧ ¬fits) ∧
     (s.refusal d l = some 4 ↔ config ∧ named ≠ [] ∧ fits ∧ (recLimits r = false ∨ e.v = false)) ∧
     (s.refusal d l = some 5 ↔ config ∧ named ≠ [] ∧ fits ∧ recLimits r = true ∧ e.v = true ∧
       ∃ p, l.fpid = some p ∧ p ≠ e.fpid) ∧
     (s.refusal d l = none ∨ ∃ n ∈ [1, 2, 3, 4, 5], s.refusal d l = some (BitVec.ofNat 8 n))) ∧
  (∀ r : List Byte, r.length = 128 →
     let b (o k : Nat) : Nat := ((List.range k).map fun j => ((r.getD (o + j) 0).toNat) * 256 ^ j).sum
     let role (j : Nat) : Nat := 64 + 16 * j
     let zero (o k : Nat) : Prop := ∀ i < k, r.getD (o + i) 0 = 0
     let used := min 4 (b 30 1)
     let rf := b 32 1 % 128
     let roleLimits (j : Nat) : Prop :=
       b (role j) 8 % 4 = 0 ∧ b (role j) 8 < 2 ^ 57 ∧ 8 ≤ b (role j + 8) 1 ∧ b (role j + 8) 1 ≤ 60 ∧
       b (role j + 8) 1 % 4 = 0 ∧ 1 ≤ b (role j + 9) 1 ∧ b (role j + 9) 1 ≤ 64 ∧ 1 ≤ b (role j + 10) 1 ∧
       b (role j + 10) 1 ≤ 24 ∧ zero (role j + 11) 5
     (recFits r = true ↔ rf + b 33 1 % 128 + b 34 1 % 128 ≤ 96 ∧
       ((List.range used).map fun j => b (role j + 9) 1 * b (role j + 8) 1 * 128).sum ≤ rf * 16384 ∧
       ((List.range used).map fun j => b (role j + 9) 1).sum ≤ 64) ∧
     (recLimits r = true ↔ recFits r = true ∧ 1 ≤ b 4 4 ∧ b 4 4 ≤ 1048576 ∧ b 8 8 < 2 ^ 57 ∧ b 16 8 % 16 = 0 ∧
       b 16 8 < 2 ^ 57 ∧ b 28 1 < 4 ∧ 1 ≤ b 30 1 ∧ b 30 1 ≤ 4 ∧ b 31 1 = 0 ∧ 1 ≤ b 32 1 ∧ b 32 1 ≤ 96 ∧ b 33 1 ≤ 96 ∧
       b 34 1 ≤ 96 ∧ b 35 1 = 0 ∧ zero 36 28 ∧ (∀ j < b 30 1, roleLimits j) ∧
       ∀ j < 4, b 30 1 ≤ j → zero (role j) 16) ∧
     (recRoles r).length = used ∧
     ∀ j < used, ∃ x, (recRoles r)[j]? = some x ∧ x.pc.toNat = b (role j) 8 % 2 ^ 57 ∧ x.regs = b (role j + 8) 1 ∧
       x.count = b (role j + 9) 1 ∧ x.sregs = b (role j + 10) 1)

/-- O40. The life of a stand. STAND_PLACE completes: with no stand that re-enters, the oldest tract of the highest
priority that has a stand to place places its next one on the accepting die, or, where that has no core that fits, on
the lowest other named die that has, on the fitting core with the most free granules, the lowest of equals; a stand
that fits nowhere waits at the head. STAND_GANG_START completes: all roles of a placed stand start at once, after
every lower stand of the tract. REGFILE_RELEASE completes: an exited cord with no outstanding write releases its
storage. STAND_END completes when nothing of the stand is left: its granules begin to clear, free 64 cycles later and
no sooner; its pins, threshold entries and waits go; its tract counts it and, with its last stand, ends and resolves
its future. GRANULE_CLEAR_DONE completes: granules whose 64 cycles have passed are free (R18, R19, R23, R26, R27, R29
to R31, R160, R360). -/
def Obligations.StandsLiveAndEnd : Prop :=
  ∀ (s : State), s.focus = none →
    (∀ (die d c : Nat) (t : Tract) (pre post : List Tract) (slots : List Nat),
      let entry (d : Nat) : Ctx := (s.die d).ctx t.ctx
      let named (d : Nat) : Prop := d < 8 ∧ t.affinity.getLsbD d = true ∧ (s.die d).inService = true ∧
        (s.die d).harvested = false ∧ (s.die d).uncRst = false ∧ (entry d).v = true ∧
        ∀ p, t.fpid = some p → p = (entry d).fpid
      let fits (d c : Nat) : Prop := c < 32 ∧ (s.die d).coreRst = false ∧ (s.core d c).quiesced = false ∧
        (s.core d c).secure = (entry d).sec ∧ t.rf + t.spGran + t.asGran ≤ (s.core d c).free ∧
        (takeSlots (s.slotsUsed d c) (quadsOf (cordsOf t.roles))).isSome = true ∧
        (let sets := (s.grove d (c / 8)).sets
         (∃ x ∈ sets, x.1 = ⟨t.ctx, (entry d).fpid, (entry d).sec⟩) ∨ sets.length < 4) ∧
        (s.core d c).thresh.length ≤ 1024
      (s.die die).inService = true → (s.die die).harvested = false → (s.die die).uncRst = false →
      s.tracts = pre ++ t :: post → t.die = die → t.prio ≤ 3 → t.next < t.stands →
      (∀ x ∈ s.tracts, x.die = die → x.reenter = []) →
      (∀ x ∈ pre, x.die = die → x.next < x.stands → x.prio < t.prio) →
      (∀ x ∈ post, x.die = die → x.next < x.stands → x.prio ≤ t.prio) →
      (named d → fits d c → (d ≠ die → named die → ∀ c, ¬fits die c) →
        (∀ d', d' < d → d' ≠ die → d ≠ die → named d' → ∀ c, ¬fits d' c) →
        (∀ c', fits d c' → (s.core d c').free < (s.core d c).free ∨ (s.core d c').free = (s.core d c).free ∧ c ≤ c') →
        takeSlots (s.slotsUsed d c) (quadsOf (cordsOf t.roles)) = some slots →
        let st := newStand t s.uid t.next d c slots (entry d)
        exec (.standPlace die) s = .next ((State.bindSet
          { (s.modCore d c fun k => { k with free := k.free - (t.rf + t.spGran + t.asGran) }) with
              uid := s.uid + 1, stands := s.stands ++ [st] } d c ⟨t.ctx, (entry d).fpid, (entry d).sec⟩).modTract t.id
          fun t => { t with next := t.next + 1, blocked := none, sids := t.sids ++ [s.uid] })) ∧
      ((∀ d, named d → ∀ c, ¬fits d c) → exec (.standPlace die) s =
        .next (s.modTract t.id fun t => { t with blocked := t.blocked.or (some s.clock) }))) ∧
    (∀ (sid : Nat) (st : Stand), s.stand? sid = some st → st.phase = .placed →
      (∀ x ∈ s.stands, x.tract = st.tract → x.phase = .placed → st.standId ≤ x.standId) →
      let first (x : Stand) (c : Cord) : Path :=
        { pc := ((x.roles[c.role]?).map Role.pc).getD 0, mask := BitVec.allOnes 32, liveSince := s.clock }
      exec (.standGangStart sid) s = .next ((s.modStand sid fun x => { x with
        phase := .running, started := s.clock
        cords := x.cords.map fun c => { c with slotA := some (first x c) } }).reshare st.die st.core st.tract false)) ∧
    (∀ (sid cord : Nat) (st : Stand) (c : Cord), s.stand? sid = some st → st.cord? cord = some c →
      c.exited = BitVec.allOnes 32 → c.vmarks = [] → c.smarks = [] → c.pmarks = [] →
      ∃ t st' c', exec (.regfileRelease sid cord) s = .next t ∧ t.stand? sid = some st' ∧ st'.cord? cord = some c' ∧
        c' = { c with released := true } ∧ t = { s with stands := t.stands }) ∧
    (∀ (sid : Nat) (st : Stand), s.stand? sid = some st → st.phase = .running →
      (∀ c ∈ st.cords, c.exited = BitVec.allOnes 32 ∧ c.released = true) →
      (∀ i ∈ s.works, i.work.ofStand st.sid = false) →
      (∀ t ∈ (s.core st.die st.core).allTasks, t.sid ≠ st.sid) → (∀ e ∈ (s.core st.die st.core).insq, e.sid ≠ st.sid) →
      s.receiving st.sid = false → st.die < s.dies.length → st.core < (s.die st.die).cores.length →
      let k := s.core st.die st.core
      ∃ t : State, exec (.standEnd sid) s = .next t ∧
        t = ((((st.pins.foldl (fun s w => s.unpin st.die st.core w) s).releaseStand st true).countEnded
          [st.tract]).finishTracts).leaveContext st.die st.ctx ∧
        (let k' := t.core st.die st.core
         k'.free = k.free ∧ k'.clearing = k.clearing ++ [(st.rf + st.spGran + st.asGran, s.clock + 64)] ∧
         k'.thresh = (k.thresh.filter fun x => x.sid ≠ st.sid) ∧ k'.waits = (k.waits.filter fun x => x.sid ≠ st.sid) ∧
         k'.ended.head? = some st.tract ∧
         (∀ w < k.canopy.length, (k'.canopy.getD w {}).pins = (k.canopy.getD w {}).pins - st.pins.count w)) ∧
        t.stands = (s.stands.filter fun x => x.sid ≠ st.sid) ∧ t.hbm = s.hbm ∧ t.hostMem = s.hostMem ∧
        (∀ x ∈ s.tracts, x.id = st.tract → x.ended + 1 < x.stands → { x with ended := x.ended + 1 } ∈ t.tracts) ∧
        (∀ x ∈ s.tracts, x.id = st.tract → x.stands ≤ x.ended + 1 → { x with ended := x.ended + 1 } ∉ t.tracts ∧
          (x.fut ≠ 0 → ∃ i ∈ t.works, i.work = .resolve { die := x.die, ctx := x.ctx, dest := none, after := x.sids } x.fut none
            ((x.poison.map (BitVec.zeroExtend 64)).getD 0) x.poison.isSome))) ∧
    (∀ n, exec (.granuleClearDone n) s = .next (s.modCore (n / 32) (n % 32) fun k => { k with
      free := k.free + ((k.clearing.filter fun x => x.2 ≤ s.clock).map Prod.fst).sum,
      clearing := k.clearing.filter fun x => s.clock < x.2 }))

/-- O41. What a new stand finds: scratchpad and accumulators of zeros, no region, no flag, every vector register zero
and uniform, the parameter pointer in s0 and zero in every other scalar, p0 all ones and the other predicates zero, an
LFSR that is not zero, and no wait (R18, R27, R140). -/
def Obligations.NewStandsAreClean : Prop :=
  ∀ (t : Tract) (sid n die core : Nat) (slots : List Nat) (e : Ctx),
    let st := newStand t sid n die core slots e
    (∀ a, st.sp.read a = 0 ∧ st.acc.read a = 0) ∧ (∀ b, st.region b = none) ∧ st.mstat = 0 ∧ st.pins = [] ∧ st.unfenced = [] ∧
    st.q0b = 0 ∧ st.q1b = 0 ∧ st.q0cap = 0 ∧ st.q1cap = 0 ∧ st.q1age = 4096 ∧
    st.cords.length = (t.roles.map Role.count).sum ∧ (st.cords.map Cord.id = List.range st.cords.length) ∧
    ∀ c ∈ st.cords, (∀ r l, (c.vreg r).lane l = 0 ∧ (c.vreg r).tag = .uniform) ∧ c.sreg 0 = t.param ∧
      (∀ r : SCode, r ≠ 0 → c.sreg r = 0) ∧ c.pred 0 = BitVec.allOnes 32 ∧ (∀ p, 1 ≤ p → p < 8 → c.pred p = 0) ∧
      c.lfsr ≠ 0 ∧ c.fpstat = 0 ∧ c.tokens = [] ∧ c.pending = [] ∧ c.crews = [] ∧ c.exited = 0 ∧ c.tsfloor = 0 ∧
      c.slotA = none ∧ c.slotB = none ∧ c.vmarks = [] ∧ c.smarks = [] ∧ c.pmarks = [] ∧ c.inTrap = false

/-! ### System -/

/-- O42. RDSPR writes the selected special register; WRSPR clears the bits of W1C fields, writes PRM, TRAPPC and, at
system level, AGELIM, which it keeps at least 0x40; the others ignore it, and AGELIM at user level is PRIVILEGE (R53,
R65, R119, R152, R375, R388, R392). -/
def Obligations.SpecialRegistersComplete : Prop :=
  ∀ (s : State) (f : Focus) (d : SCode) (r : Spr),
    let st := f.stand
    let c := f.cord
    let x := c.sreg d
    let k := s.core st.die st.core
    let count (q1 : Bool) : Nat := k.queued st.sid q1
    let value : DWord := match r with
      | .clk => s.clk st.die st.core
      | .ts => if c.tsfloor.toNat ≤ s.ts then BitVec.ofNat 64 s.ts else c.tsfloor
      | .tsfloor => c.tsfloor
      | .fpstat => c.fpstat.zeroExtend 64
      | .mstat => BitVec.ofNat 64 (count true * 2 ^ 29 + count false * 2 ^ 16 + (k.runs st.sid).toNat * 2 ^ 7 + st.mstat.toNat)
      | .prm => (c.prmX ++ c.prmR ++ c.prmB).zeroExtend 64
      | .seed => st.seed.zeroExtend 64
      | .cordid => BitVec.ofNat 64 c.id
      | .standid => BitVec.ofNat 64 st.standId
      | .coreid => BitVec.ofNat 64 (s.pkgid.toNat * 256 + st.die * 32 + st.core)
      | .agelim => k.agelim.zeroExtend 64
      | .trapcause => (c.trapImm ++ BitVec.ofBool c.inTrap ++ 0#7 ++ c.trapCode).zeroExtend 64
      | .trappc => c.trapPc.zeroExtend 64
      | .trapval => c.trapVal
      | .worldstat => BitVec.ofNat 64 (st.fpid.toNat * 2 ^ 16 + st.ctx * 2 ^ 8 + k.skSecure.toNat * 8 + k.secure.toNat * 4 +
          st.sys.toNat * 2 + st.sec.toNat)
    (Issues (.rdspr d r) s f → exec (.rdspr d r) s = .next (s.goneOn f (c.writeS d value))) ∧
    (Issues (.wrspr d r) s f →
      (r = .agelim → st.sys = false → exec (.wrspr d r) s = .next (s.faulted (.wrspr d r) f { code := .privilege })) ∧
      (r = .agelim → st.sys = true → exec (.wrspr d r) s = .next ((s.modCore st.die st.core fun k =>
        { k with agelim := if (x.truncate 20).toNat < 0x40 then 0x40 else x.truncate 20 }).goneOn f c)) ∧
      (r = .fpstat → exec (.wrspr d r) s = .next (s.goneOn f { c with fpstat := c.fpstat &&& ~~~(x.truncate 6) })) ∧
      (r = .mstat → exec (.wrspr d r) s = .next (s.goneOnIn f { st with mstat := st.mstat &&& ~~~(x.truncate 5) } c)) ∧
      (r = .prm → exec (.wrspr d r) s = .next (s.goneOn f
        { c with prmX := x.extractLsb' 10 5, prmR := x.extractLsb' 5 5, prmB := x.extractLsb' 0 5 })) ∧
      (r = .trappc → exec (.wrspr d r) s = .next (s.goneOn f { c with trapPc := x.truncate 57 })) ∧
      (r ∉ [.agelim, .fpstat, .mstat, .prm, .trappc] → exec (.wrspr d r) s = .next (s.goneOn f c)))

/-- O43. TRAP writes the trap registers and enters the cord's handler, or stops the stand; ERET returns from it; HALT
stops the stand; a word that no row accepts raises ILLEGAL_INSTR with the word in TRAPVAL (R39, R72, R377, R393). The
stop itself is what TakingAnException states. -/
def Obligations.TrapsAndReturnsComplete : Prop :=
  ∀ (s : State) (f : Focus) (imm : BitVec 16),
    let c := f.cord
    let next := f.path.pc + 4
    (Issues (.trap imm) s f →
      (f.stand.trapvec ≠ 0 → c.inTrap = false → exec (.trap imm) s = .next (s.goneOn
        { f with path := { f.path with pc := f.stand.trapvec.truncate 57 - 4 } }
        { c with trapImm := imm, trapCode := 0x30, trapPc := next, trapVal := 0, inTrap := true })) ∧
      (f.stand.trapvec = 0 ∨ c.inTrap = true → exec (.trap imm) s = .next (s.takeTrap f ⟨.trap, some 0, 0, 0⟩ imm next))) ∧
    (Issues .eret s f →
      (c.inTrap = false → exec .eret s = .next (s.faulted .eret f { code := .illegalInstr })) ∧
      (c.inTrap = true → c.trapPc.toNat % 4 ≠ 0 →
        exec .eret s = .next (s.faulted .eret f { code := .misaligned, val := some (c.trapPc.zeroExtend 64) })) ∧
      (c.inTrap = true → c.trapPc.toNat % 4 = 0 → exec .eret s = .next (s.goneOn
        { f with path := { f.path with pc := c.trapPc - 4 } } { c with inTrap := false }))) ∧
    (Issues .halt s f → exec .halt s = .next (s.takeTrap f ⟨.halt, some 0, 0, 0⟩ 0 next)) ∧
    (∀ w, Issues (.illegalWord w) s f →
      exec (.illegalWord w) s =
        .next (s.faulted (.illegalWord w) f { code := .illegalInstr, val := some (w.zeroExtend 64) }))

/-- O44. The four system instructions hold their path until every access of their path is performed, and then have
their effect: TLBINV drops the translations it names; CSAVE stops the named stands that have a save block, or ends a
context; CRST returns a saved stand or resumes an engine; WORLD sets the world of an empty core, an idle skidder or
port, or writes a region descriptor, and answers 1 where it may not (R394 to R398). That a stand placed and not yet
started is resident is log 84. What the fence before the effect makes known is log 17, and which handles it translates
anew is log 78; what of a pool is free, which stands CSAVE counts, and which bits of a descriptor are tested are logs
50, 53 and 55. TLBINV, CSAVE, CRST and WORLD with operands outside their tables: a set bit where the table has zero, a
CSAVE that ends its own or every context, a CRST of an unknown kind, and a WORLD index or value out of range are
SYS_PARAM, and nothing else changes; a region descriptor from s22 on is ILLEGAL_REG (R394 to R398). -/
def Obligations.SystemControlsComplete : Prop :=
  (∀ (s : State) (f : Focus) (o : S3),
     let st := f.stand
     let d := st.die
     let c := f.cord
     let a := c.sreg o.a
     let b := c.sreg o.b
     let field (w : DWord) (lo n : Nat) : Nat := (w.extractLsb' lo n).toNat
     let acts (i : Instr) : Prop := Issues i s f ∧ systemHeld s f = false
     let fenced (s' : State) : State := (s'.fenced (.fence .die) st.sid c.id f.path.mask).flushHandles f
     let g : Focus := { f with stand := s.released st c.id f.path.mask }
     let ends (s' : State) (v : DWord) : State := (fenced s').goneOn g (c.writeS o.d v)
     (acts (.tlbinv o.a o.b) → field b 8 54 = 0 →
       let drop (e : TlbEntry) : Bool := b.getLsbD 62 || (decide (e.ctx = field b 0 8) &&
         (b.getLsbD 63 || (decide (e.va ≤ a.toNat) && decide (a.toNat < e.va + e.leaf.size))))
       exec (.tlbinv o.a o.b) s = .next ((fenced (s.modDie d fun y => { y with
         tlb := y.tlb.filter fun e => !drop e
         walks := y.walks.filter fun w => !drop w.entry
         cores := y.cores.map fun k => { k with tlb := k.tlb.filter fun e => !drop e } })).goneOn g c)) ∧
     (acts (.csave o.d o.a) → field a 32 32 = 0 → field a 26 5 = 0 → a.getLsbD 24 = false → field a 9 7 = 0 → field a 5 3 = 0 →
       (a.getLsbD 31 = true → a.getLsbD 25 = false → field a 16 8 ≠ st.ctx → exec (.csave o.d o.a) s =
         .next ((ends s 0).endContext d (field a 16 8) 0x34
           { kind := 1, code := 0x34, ctx := a.extractLsb' 16 8, fpid := ((s.die d).ctx (field a 16 8)).fpid })) ∧
       (a.getLsbD 31 = false → s.csaveStands st a.toNat = [] → exec (.csave o.d o.a) s = .next (ends s 0)) ∧
       (∀ x xs, a.getLsbD 31 = false → s.csaveStands st a.toNat = x :: xs → exec (.csave o.d o.a) s =
         .next ((x :: xs).foldl (fun s st => s.stopStand st.sid 0 false 0 false)
           ((fenced s).parked g (.saves ((x :: xs).map Stand.sid) 0 o.d))))) ∧
     (acts (.crst o) →
       (b = 1 → exec (.crst o) s = .next (ends (s.resumeToken a.toNat).1 (if (s.resumeToken a.toNat).2 then 0 else 1))) ∧
       (b = 0 → s.restorable d a.toNat = none → exec (.crst o) s = .next (ends s 1)) ∧
       (∀ v, b = 0 → s.restorable d a.toNat = some v →
         let marked : State := s.modDie d fun x => { x with
           saved := x.saved.map fun y => if y.sid = v.sid then { y with awaitCrst := false } else y }
         exec (.crst o) s = .next (ends ({ marked with uid := s.uid + 1 }.modTract v.tract fun t =>
           { t with reenter := (d, a.toNat, s.uid) :: t.reenter }) 0)) ∧
       (1 < b.toNat → exec (.crst o) s = .next (s.faulted (.crst o) f { code := .sysParam }))) ∧
     (Issues (.world o) s f →
       (st.sec = false → exec (.world o) s = .next (s.faulted (.world o) f { code := .privilege })) ∧
       (st.sec = true → systemHeld s f = false → field a 6 56 = 0 →
         let n := field a 0 6
         let bit := b.getLsbD 0
         let w1 := c.sreg (o.b + 1)
         let empty : Prop := st.core ≠ n ∧ ∀ x ∈ s.stands, x.die = d → x.core ≠ n
         let queued := (s.settled f).skidding d n
         (field a 62 2 = 0 → n < 32 → b.toNat < 2 →
           (empty → exec (.world o) s = .next (ends (s.modCore d n fun x => { x with secure := bit }) 0)) ∧
           (¬empty → exec (.world o) s = .next (ends s 1))) ∧
         (field a 62 2 = 1 → n < 32 → b.toNat < 2 →
           (queued = 0 → exec (.world o) s = .next (ends (s.modCore d n fun x => { x with skSecure := bit }) 0)) ∧
           (queued ≠ 0 → exec (.world o) s = .next (ends s 1))) ∧
         (field a 62 2 = 2 → n < 16 → b.toNat < 2 →
           ((s.port d n).flumes = [] → exec (.world o) s = .next (ends (s.modPort d n fun x => { x with secure := bit }) 0)) ∧
           ((s.port d n).flumes ≠ [] → exec (.world o) s = .next (ends s 1))) ∧
         (field a 62 2 = 3 → o.b.toNat < 22 → field b 0 16 = 0 → field b 48 16 = 0 → field w1 0 16 = 0 → field w1 48 14 = 0 →
           exec (.world o) s = .next (ends (s.modDie d fun x => { x with descs := x.descs.set n (b, w1) }) 0))))) ∧
  (∀ (s : State) (f : Focus) (o : S3),
     let st := f.stand
     let a := f.cord.sreg o.a
     let b := f.cord.sreg o.b
     let w1 := f.cord.sreg (o.b + 1)
     let field (w : DWord) (lo n : Nat) : Nat := (w.extractLsb' lo n).toNat
     let faults (i : Instr) (c : TrapCode) : Prop := ∃ v, exec i s = .next (s.faulted i f { code := c, val := v })
     (Issues (.tlbinv o.a o.b) s f → field b 8 54 ≠ 0 → faults (.tlbinv o.a o.b) .sysParam) ∧
     (Issues (.csave o.d o.a) s f → field a 32 32 ≠ 0 ∨ field a 26 5 ≠ 0 ∨ a.getLsbD 24 = true ∨ field a 9 7 ≠ 0 ∨
       field a 5 3 ≠ 0 ∨ (a.getLsbD 31 = true ∧ (a.getLsbD 25 = true ∨ field a 16 8 = st.ctx)) →
       faults (.csave o.d o.a) .sysParam) ∧
     (Issues (.crst o) s f → 1 < b.toNat → faults (.crst o) .sysParam) ∧
     (Issues (.world o) s f → st.sec = true →
       (field a 62 2 = 3 → 22 ≤ o.b.toNat → faults (.world o) .illegalReg) ∧
       ((field a 62 2 = 3 → o.b.toNat < 22) → field a 6 56 ≠ 0 ∨ (field a 62 2 < 2 ∧ 32 ≤ field a 0 6) ∨
         (field a 62 2 = 2 ∧ 16 ≤ field a 0 6) ∨ (field a 62 2 < 3 ∧ 2 ≤ b.toNat) ∨
         (field a 62 2 = 3 ∧ (field b 0 16 ≠ 0 ∨ field w1 0 16 ≠ 0 ∨ field b 48 16 ≠ 0 ∨ field w1 48 14 ≠ 0)) →
         faults (.world o) .sysParam)))

/-- O45. A swap-out: when what it waits for is over, the stand takes the lowest free save block that holds its image,
or resumes where nothing stopped it, or its context ends with SAVE_EXHAUSTED; when the image is written the stand
leaves its core, and re-enters its distributor or posts a record of kind 0x2; the distributor restores it on a core
that it may have and that fits it; and a head that has waited 1,000 cycles pre-empts the fewest victims (R195, R377,
R379, R381, R382, R387). That the image appears in one step is log 45, what binds a stand to its core log 49, the
order of those that re-enter log 51, and the order of victims log 52. Who may be pre-empted: a stand of a core that
runs, whose priority is below the head's, which started or returned 65,536 cycles ago or more, and which finds a save
block; they are taken by lowest priority, then by latest start, and no fewer of them, taken in that order, let the
head's stand fit; it fits when, without them, the core has its granules, cord slots, word set and threshold entries
(R19, R26, R249, R294, R382). That a smaller set out of this order is not looked for is log 52. A stand restored from
the image that its swap-out wrote has its roles and partition, its scratchpad and accumulators byte for byte, its
regions, queue settings, flags and seed, and in each cord the scalar registers its role saves, zero in the others, the
predicates, every lane of the vector registers, the paths of both slots and the pending ones with their masks, the
tokens, the ring, the LFSR, PRM, FPSTAT, TSFLOOR, the trap registers, the crews and the bindings (R356, R381, R384 to
R386). -/
def Obligations.StandsAreSavedAndReturn : Prop :=
  (∀ (s : State), s.focus = none →
     (∀ (sid : Nat) (st : Stand) (cause : BitVec 8) (requeue : Bool) (cord : Nat) (slotB : Bool),
       s.stand? sid = some st → st.phase = .stopping cause requeue cord slotB → s.swapReady st = true →
       (s.core st.die st.core).running = none → (s.core st.die st.core).picked = none →
       (∀ b, s.freeBlock st [] = some b → exec (.swapoutSave sid) s =
         .next (s.modStand sid fun x => { x with phase := .saving cause requeue cord slotB b (s.imageSize st) })) ∧
       (s.freeBlock st [] = none → cause = 0 → exec (.swapoutSave sid) s =
         .next ((s.modStand sid fun x => { x with phase := .running }).saveOver sid false)) ∧
       (s.freeBlock st [] = none → cause ≠ 0 → exec (.swapoutSave sid) s =
         .next (s.endContext st.die st.ctx 0x32 { stopEvent st 1 cause cord slotB 0 with code := 0x32 }))) ∧
     (∀ (sid : Nat) (st : Stand) (cause : BitVec 8) (requeue : Bool) (cord : Nat) (slotB : Bool) (block size : Nat),
       s.stand? sid = some st → st.phase = .saving cause requeue cord slotB block size → s.reportsOf sid = false →
       (s.core st.die st.core).tasksOf sid = [] →
       let after : State := st.cords.foldl (fun s c => s.fenced (.fence .die) st.sid c.id (BitVec.allOnes 32)) s
       let written : State := after.putImage (hAddr st.die block) st (after.imageOf st cause)
       let v : Saved :=
         { block := block, size := size, sid := sid, standId := st.standId, tract := st.tract, ctx := st.ctx, core := st.core,
           fpid := st.fpid, sec := st.sec, bindCore := s.bindsCore st, bindGrove := st.bindsGrove,
           crews := st.cords.flatMap Cord.crews, unfenced := st.unfenced, tasks := [], awaitCrst := !requeue,
           pins := st.pins, taskPins := [] }
       let gone : State := ((((written.modCore st.die st.core fun k => k.withoutTasks sid).modDie st.die fun x =>
         { x with saved := x.saved ++ [v] }).releaseStand st false).saveOver sid true)
       (requeue = true → exec (.saveWriteDone sid) s = .next
         ({ gone with uid := gone.uid + 1 }.modTract st.tract fun t => { t with reenter := (st.die, block, gone.uid) :: t.reenter })) ∧
       (requeue = false → exec (.saveWriteDone sid) s = .next (gone.post st.die (stopEvent st 2 cause cord slotB block)))) ∧
     (∀ (die d block n c : Nat) (t : Tract) (rest : List (Nat × Nat × Nat)) (v : Saved) (slots : List Nat),
       s.head die = some t → t.reenter = (d, block, n) :: rest → (s.die d).saved.find? (fun v => v.block = block) = some v →
       (s.die d).available = true → ((s.die d).ctx v.ctx).v = true →
       (s.bestCore (s.needSaved d v) d v.cores = some c → takeSlots (s.slotsUsed d c) (quadsOf (s.needSaved d v).cords) = some slots →
         exec (.standRestore die) s = .next ((s.restoreStand t d v c slots).modTract t.id fun t =>
           { t with reenter := rest, blocked := none })) ∧
       (s.bestCore (s.needSaved d v) d v.cores = none → exec (.standRestore die) s =
         .next (s.modTract t.id fun t => { t with blocked := t.blocked.or (some s.clock) }))) ∧
     (∀ (die since : Nat) (t : Tract), s.head die = some t → t.blocked = some since → since + 1000 ≤ s.clock →
       ∃ vs : List Stand, exec (.preemptCheck die) s = .next (vs.foldl (fun s st => s.stopStand st.sid 0 true 0 false)
           (s.modTract t.id fun t => { t with blocked := some s.clock })) ∧
         (∀ x ∈ s.wanted t, ∀ g, s.fewest x.2.2 t.prio x.1 x.2.1 = some g → vs.length ≤ g.length ∧ vs ≠ []) ∧
         (vs = [] ∨ ∃ x ∈ s.wanted t, s.fewest x.2.2 t.prio x.1 x.2.1 = some vs))) ∧
  (∀ (s : State) (n : Need) (prio d c : Nat) (t : Tract) (g : List Stand),
     let vs := s.victims prio d c
     let k := s.core d c
     let stay := s.stands.filter fun x => decide (∀ y ∈ g, y.sid ≠ x.sid)
     let sets := ((s.grove d (c / 8)).sets.map Prod.fst).filter fun o => decide (∃ x ∈ stay, x.die = d ∧ x.core / 8 = c / 8 ∧ x.owner = o)
     (∀ x ∈ vs, x ∈ s.stands ∧ x.die = d ∧ x.core = c ∧ x.phase = .running ∧ x.prio < prio ∧ 65536 ≤ s.clock - x.started ∧
       ∃ l b, s.freeBlock x l = some b) ∧
     (∀ x ∈ s.stands, x.die = d → x.core = c → x.phase = .running → x.prio < prio → 65536 ≤ s.clock - x.started →
       x ∈ vs ∨ ∃ l, s.freeBlock x l = none ∧ ∀ u ∈ l, ∃ y ∈ vs, u.2 = s.imageSize y) ∧
     vs.Pairwise (fun x y => x.prio < y.prio ∨ x.prio = y.prio ∧ y.started ≤ x.started) ∧
     (s.fewest n prio d c = some g → g ≠ [] ∧ g = vs.take g.length ∧ s.fitsWithout n d c g = true ∧
       ∀ j, 0 < j → j < g.length → s.fitsWithout n d c (vs.take j) = false) ∧
     (s.fewest n prio d c = none → ∀ j, 0 < j → j ≤ vs.length → s.fitsWithout n d c (vs.take j) = false) ∧
     (s.fitsWithout n d c g = true ↔ (s.die d).coreRst = false ∧ k.quiesced = false ∧ k.secure = n.owner.sec ∧
       n.granules ≤ k.free + (g.map fun x => x.rf + x.spGran + x.asGran).sum ∧
       (takeSlots ((stay.filter fun x => decide (x.die = d ∧ x.core = c)).flatMap fun x =>
         (x.cords.filter fun y => !y.released).map fun y => (y.quad, y.cslot)) (quadsOf n.cords)).isSome = true ∧
       (n.owner ∈ sets ∨ sets.length < 4) ∧
       (k.thresh.filter fun x => decide (∀ y ∈ g, y.sid ≠ x.sid)).length + n.rows ≤ 1024) ∧
     (t.reenter = [] → ∀ d c n, (d, c, n) ∈ s.wanted t ↔ c < 32 ∧ d ∈ s.diesFor t ∧ n = s.needOf t d) ∧
     (let e := (s.die d).ctx t.ctx
      (s.needOf t d).owner = ⟨t.ctx, e.fpid, e.sec⟩ ∧ (s.needOf t d).cords = (t.roles.map Role.count).sum ∧
       (s.needOf t d).granules = t.rf + t.spGran + t.asGran ∧ (s.needOf t d).rows = 0)) ∧
  (∀ (s s' : State) (st : Stand) (cause : BitVec 8) (v : Saved) (core : Nat) (slots : List Nat) (t : Tract),
     let written : State := s.putImage (hAddr st.die v.block) st (s.imageOf st cause)
     let place (p : Path) : Pc × Mask := (p.pc, p.mask)
     st.sp.wf = true → st.acc.wf = true → st.rf ≤ 96 → st.spGran ≤ 96 → st.asGran ≤ 96 → st.roles.length ≤ 4 →
     (∀ r ∈ st.roles, r.regs ≤ 60 ∧ r.count ≤ 64 ∧ r.sregs ≤ 24) → st.cords.length = (rolesOf st.roles).length →
     st.regions.length = 8 → (∀ b w, some (b, w) ∈ st.regions → b < 2 ^ 32 ∧ w ≠ 0) → (s.imageOf st cause).length < 2 ^ 32 →
     (∀ (k : Nat) (c : Cord) (r : Nat × Role), st.cords[k]? = some c → (rolesOf st.roles)[k]? = some r → c.id = k ∧ c.role = r.1 ∧ c.budget = r.2.regs ∧
       c.sregs = r.2.sregs ∧ c.tokens.length ≤ 8 ∧ c.pending.length ≤ 2 ∧ c.spilled ≤ 32 ∧ c.ringHead < 32 ∧ c.ringTail < 32 ∧
       c.ringCount ≤ 30 ∧ c.crews.length ≤ 4 ∧ c.allow.length = 8 ∧ (∀ e, some e ∈ c.allow → e < 2 ^ 15) ∧
       (∀ n ∈ c.vmarks, n < 60) ∧ c.pred 0 = BitVec.allOnes 32 ∧ ∀ n < c.budget, (c.vreg n).Exact) →
     s'.hbm = written.hbm → s'.Whole → s'.stand? v.sid = none →
     ∃ x : Stand, (s'.restoreStand t st.die v core slots).stand? v.sid = some x ∧ x.die = st.die ∧ x.core = core ∧
       x.phase = .running ∧ x.roles = st.roles ∧ x.rf = st.rf ∧ x.spGran = st.spGran ∧ x.asGran = st.asGran ∧
       (∀ a < st.spGran * 16384, x.sp.read a = st.sp.read a) ∧ (∀ a < st.asGran * 16384, x.acc.read a = st.acc.read a) ∧
       x.regions = st.regions ∧ x.mstat = st.mstat ∧ x.q0b = st.q0b ∧ x.q1b = st.q1b ∧ x.q0cap = st.q0cap ∧
       x.q1cap = st.q1cap ∧ x.q1age = st.q1age ∧ x.seed = st.seed ∧ x.cords.length = st.cords.length ∧
       ∀ (k : Nat) (c : Cord), st.cords[k]? = some c → ∃ y : Cord, x.cords[k]? = some y ∧ y.id = c.id ∧ y.role = c.role ∧ y.budget = c.budget ∧
         (∀ n : SCode, n.toNat < 24 → y.sreg n = if n.toNat < c.sregs then c.sreg n else 0) ∧ (∀ n < 8, y.pred n = c.pred n) ∧
         (∀ n < c.budget, ∀ l < 32, (y.vreg n).lane l = (c.vreg n).lane l) ∧
         (∀ b, (y.slot b).map place = (c.slot b).map place) ∧
         (y.pending.map fun p => (p.pc, p.mask)) = (c.pending.map fun p => (p.pc, p.mask)) ∧ y.tokens = c.tokens ∧
         y.spilled = c.spilled ∧ y.ringHead = c.ringHead ∧ y.ringTail = c.ringTail ∧ y.ringCount = c.ringCount ∧
         y.lfsr = c.lfsr ∧ y.prmX = c.prmX ∧ y.prmR = c.prmR ∧ y.prmB = c.prmB ∧ y.fpstat = c.fpstat ∧
         y.tsfloor = c.tsfloor ∧ y.trapImm = c.trapImm ∧ y.inTrap = c.inTrap ∧ y.trapCode = c.trapCode ∧
         y.trapPc = c.trapPc ∧ y.trapVal = c.trapVal ∧ y.crews = c.crews ∧ y.allow = c.allow)

/-! ### The device in its system -/

/-- O46. Host requests: a write to window H stores its bytes and a read returns them, where every byte lies in a die
that is present and, without the secure world, is not secure; a refused one enters the violation log, and it, and one
to a die that is not present, get an error completion. Register writes reach PKGID, the firmware registers, context
entries, event rings and region descriptors; WANT writes start or hold a contrail change, which ends when what was
sent before it is delivered; an event record goes to the host's ring, is held while that has no room, and waits or is
dropped beyond the 64 held ones; the oldest held record follows when there is room (R371, R387, R390, R391, R401,
R402, R404 to R406, R416). What the error completion returns is log 69; that a record waits is log 39, what a held
WANT counts for is log 30, and that world bits written by the host are not refused is log 62. An event record is 64
bytes, and each field stands at its offset of R387, least significant byte first; the other bytes are zero. -/
def Obligations.HostRequestsComplete : Prop :=
  (∀ (s : State), s.focus = none →
     let got (s : State) (bs : List Byte) : State := { s with hostReply := some (.data bs) }
     let wrote := got s []
     (∀ (write secure : Bool) (die pa : Nat) (data : List (BitVec 8)), pa < 0x1800000000 → pa + data.length ≤ 0x1800000000 →
       (∀ d ∈ s.dies, d.damaged = []) →
       let at_ := die * 0x1800000000 + pa
       let answers : Prop := s.firmware.fwstat = 1 ∧ die < 8 ∧ (s.die die).inService = true ∧ (s.die die).harvested = false
       (¬answers → exec (.hostMemAccess write secure at_ data) s = .next { s with hostReply := some .error }) ∧
       (answers → secure = true ∨ (s.die die).descs = List.replicate 64 (0, 0) →
         (write = false → exec (.hostMemAccess write secure at_ data) s =
           .next (got s (s.hbm.bytes at_ data.length))) ∧
         (write = true → ∃ past : List Past, exec (.hostMemAccess write secure at_ data) s =
           .next (got { s with hbm := s.hbm.put at_ data, past := past } []))) ∧
       (answers → secure = false → (s.die die).secureAt pa = true →
         exec (.hostMemAccess write secure at_ data) s =
           .next { s.violation ⟨die, 0, false, 0, 3, 0, {}⟩ pa write.toNat 0 with hostReply := some .error })) ∧
     (∀ (secure : Bool) (v : BitVec 64),
       exec (.registerWrite secure 0 v) s = .next { wrote with pkgid := v.truncate 12 } ∧
       exec (.registerWrite secure 0x10000 v) s = .next { wrote with firmware := { s.firmware with fwaddr := v } } ∧
       exec (.registerWrite secure 0x10008 v) s = .next { wrote with firmware := { s.firmware with fwlen := v.truncate 32 } } ∧
       exec (.registerWrite secure 0x10010 v) s =
         .next { wrote with firmware := { s.firmware with load := s.firmware.load || v.getLsbD 0 } } ∧
       (∀ die, s.firmware.fwstat = 1 → die < 8 → (s.die die).inService = true → (s.die die).harvested = false →
         let off := 0x1000000 + 0x400000 * die
         (∀ c, c < 256 → secure = true ∨ ((s.die die).ctx c).sec = false ∧ v.getLsbD 18 = false →
           exec (.registerWrite secure (off + 0x1000 + 0x40 * c + 0x20) v) s = .next (wrote.modDie die fun x => { x with
             ctxs := x.ctxs.modify c fun e => { e with
               fpid := v.truncate 16, v := v.getLsbD 16, sys := v.getLsbD 17, sec := v.getLsbD 18 } })) ∧
         exec (.registerWrite secure (off + 0x40008) v) s =
           .next (wrote.modDie die fun x => { x with ring := { x.ring with head := v.truncate 32 } }) ∧
         (∀ j, j < 64 → exec (.registerWrite secure (off + 0x50000 + 16 * j) v) s = .next (if secure then
           wrote.modDie die fun x => { x with descs := x.descs.modify j fun w => (v &&& 0x0000FFFFFFFF0000, w.2) }
           else wrote)))) ∧
     (∀ (secure : Bool) (v : BitVec 64) (die off : Nat), die < 8 → off < 0x400000 →
       (s.die die).inService = false ∨ (s.die die).harvested = true →
       exec (.registerWrite secure (0x1000000 + 0x400000 * die + off) v) s = .next { s with hostReply := some .error }) ∧
     (∀ (die : Nat) (e : Event),
       let r := (s.die die).ring
       let now := BitVec.ofNat 64 s.ts
       let room : Prop := r.enable = true ∧ (r.tail - r.head).toNat < 64 * 2 ^ r.size.toNat
       let put (e : Event) (time : DWord) (r' : Ring) : State := State.modDie { s with
         hostMem := s.hostMem.put (r.base.toNat * 4096 + 64 * (r.tail.toNat % (64 * 2 ^ r.size.toNat))) (eventBytes e time r.rseq)
         msix := if r.tail = r.head then die :: s.msix else s.msix } die fun x => { x with
           ring := { r' with tail := r.tail + 1, rseq := r.rseq + 1 } }
       (room → r.buffer = [] → r.waits = [] → s.post die e = put e now r) ∧
       (¬room → s.post die e = s.modDie die fun x => { x with ring :=
         if r.buffer.length < 64 ∧ r.waits = [] then { r with buffer := r.buffer ++ [(e, now)] }
         else if e.kind = 5 then { r with drop := r.drop + 1 }
         else { r with waits := r.waits ++ [e] } }) ∧
       (¬room ∨ r.buffer = [] → exec (.eventPost die) s = .next s) ∧
       (∀ old time rest, room → r.buffer = (old, time) :: rest →
         (r.waits = [] → exec (.eventPost die) s = .next (put old time { r with buffer := rest })) ∧
         (∀ x more, r.waits = x :: more →
           exec (.eventPost die) s = .next (put old time { r with buffer := rest ++ [(x, now)], waits := more })))) ∧
     (∀ (i : Nat) (want : BitVec 4), s.firmware.fwstat = 1 →
       let dir (c : Contrail) : BitVec 2 := if want = c.waves then 0 else if c.waves.toNat < want.toNat then 1 else 3
       let write (c : Contrail) : Contrail :=
         if s.wantOk i want = false then { c with err := true }
         else if c.state ≠ 0 then { c with held := some want }
         else { c with want := want, held := none, state := dir c, since := s.uid }
       exec (.contrailWantWrite i want) s = .next { s with contrails := s.contrails.modify i write }) ∧
     (∀ i : Nat,
       let e := s.contrails.getD i {}
       let dir (c : Contrail) (w : BitVec 4) : BitVec 2 := if w = c.want then 0 else if c.want.toNat < w.toNat then 1 else 3
       let done (c : Contrail) : Contrail := match c.held with
         | none => { c with waves := c.want, state := 0 }
         | some w => { c with waves := c.want, want := w, held := none, state := dir c w, since := s.uid }
       let under : Prop := ∃ w ∈ s.works, w.id < e.since ∧ w.held = none ∧
         (s.travels w.work = some (contrailPair i) ∨ s.travels w.work = some (contrailPair i).swap)
       (e.state = 0 ∨ under → exec (.contrailChangeDone i) s = .next s) ∧
       (e.state ≠ 0 → ¬under → exec (.contrailChangeDone i) s = .next { s with contrails := s.contrails.modify i done }))) ∧
  (∀ (e : Event) (time : DWord) (rseq : Word),
     let b := eventBytes e time rseq
     let field (off n : Nat) : Nat := (List.range n).foldr (fun k a => (b.getD (off + k) 0).toNat + 256 * a) 0
     b.length = 64 ∧ field 0 1 = e.kind.toNat ∧ field 1 1 = e.code.toNat ∧ field 2 1 = e.reason.toNat ∧ field 3 1 = e.ctx.toNat ∧
     field 4 2 = e.fpid.toNat ∧ field 6 1 = e.core.toNat ∧ field 7 1 = 0 ∧ field 8 4 = e.standId.toNat ∧
     field 0xC 1 = e.cord.toNat ∧ field 0xD 1 = e.slot.toNat ∧ field 0xE 2 = 0 ∧ field 0x10 8 = e.pc.toNat ∧
     field 0x18 8 = e.val.toNat ∧ field 0x20 8 = time.toNat ∧ field 0x28 8 = e.info.toNat ∧ field 0x30 8 = e.info2.toNat ∧
     field 0x38 4 = rseq.toNat ∧ field 0x3C 4 = 0)

/-- O47. Links: a port captures a key record once; a packet of n flits takes n counters, or holds the link when the
last would pass 2^48 - 2, and is kept for a replay; a key switch restarts the counter; a good flit ends a run of
failures and may be the first under a pending receive key; the sixteenth failure in a row, or the last lane, takes the
link down, and its packets steer around it; a failed lane is replaced by the spare or narrows the link, which retrains
(R407, R408, R410, R411). The side of the peer is log 61, and the flits of a packet log 36. -/
def Obligations.LinksAdvance : Prop :=
  ∀ (s : State) (port : Nat), s.focus = none → port < s.links.length →
    let l := s.link port
    let put (x : Link) : State := { s with links := s.links.set port x }
    let down (x : Link) : State := { x.queue.foldl State.steer
      (put { x with width := 0, failures := 0, train := false, queue := [], replay := [] }) with msix := 8 :: s.msix }
    (∀ key salt dir, s.firmware.fwstat = 1 → key.length = 32 → salt.length = 6 →
      s.hostMem.bytes l.keyaddr.toNat 48 = key ++ salt ++ [dir] ++ List.replicate 9 0 →
      (dir = 0 → exec (.keyInstall port) s = .next (put { l with nextSend := some ⟨key, salt⟩, txPend := true })) ∧
      (dir = 1 → exec (.keyInstall port) s = .next (put { l with nextRecv := some ⟨key, salt⟩, rxPend := true }))) ∧
    (∀ (p : Packet) rest, l.queue = p :: rest → 1 ≤ p.flits → l.width ≠ 0 → l.train = false → l.held = false → l.sendKey.isSome →
      let n := p.flits
      let replay := (((List.range n).map fun k => l.txctr.toNat + k).reverse ++ l.replay).take 64
      (∀ c, l.txctr.toNat + n = c → c + 1 ≤ 2 ^ 48 →
        (2 ^ 47 ≤ l.txctr.toNat → exec (.packetSend port) s =
          .next (put { l with txctr := BitVec.ofNat 48 c, queue := rest, replay := replay, rekey := true })) ∧
        (l.txctr.toNat < 2 ^ 47 → c < 2 ^ 47 → exec (.packetSend port) s =
          .next (put { l with txctr := BitVec.ofNat 48 c, queue := rest, replay := replay })) ∧
        (l.txctr.toNat < 2 ^ 47 → 2 ^ 47 ≤ c → exec (.packetSend port) s = .next
          { put { l with txctr := BitVec.ofNat 48 c, queue := rest, replay := replay, rekey := true } with msix := 9 :: s.msix })) ∧
      (2 ^ 48 - 2 < l.txctr.toNat + n - 1 → exec (.packetSend port) s =
        .next ((put { l with held := true }).post s.lowestDie
          { kind := 6, info := BitVec.ofNat 64 (port * 2 ^ 48 + l.txctr.toNat) }))) ∧
    (exec (.keySwitch port) s = .next (put (if l.txPend then
      { l with sendKey := l.nextSend, nextSend := none, txctr := 0, txPend := false, rekey := false, held := false, replay := [] }
      else l))) ∧
    (l.width ≠ 0 →
      (l.failures < 15 → exec (.flitReceive port false) s = .next (put { l with failures := l.failures + 1 })) ∧
      (15 ≤ l.failures → exec (.flitReceive port false) s = .next (down l)) ∧
      (l.rxPend = false → exec (.flitReceive port true) s = .next
        { put { l with failures := 0, rxctr := l.rxctr + 1 } with fresh := s.fresh + 1 }) ∧
      (l.rxPend = true → ∃ x ∈ [{ l with failures := 0, recvKey := l.nextRecv, nextRecv := none, rxPend := false, rxctr := 1 },
          { l with failures := 0, rxctr := l.rxctr + 1 }],
        exec (.flitReceive port true) s = .next { put x with fresh := s.fresh + 1 } ∧
        (l.recvKey = none → x.recvKey = l.nextRecv ∧ x.rxPend = false))) ∧
    (∀ lane, l.width = 4 → l.laneOk = 0x1F → l.spare = false → lane < 4 →
      exec (.laneFail port lane) s = .next (put { l with laneOk := l.laneOk &&& ~~~((1 : BitVec 5) <<< lane), train := true })) ∧
    (l.width = 1 → l.laneOk = 1 → exec (.laneFail port 0) s = .next (down { l with laneOk := 0 })) ∧
    (exec (.linkRetrainDone port) s = .next (put (if l.train then
      let n := ((List.range 4).filter fun k => l.laneOk.getLsbD k).length
      let spare := decide (n < 4) && l.laneOk.getLsbD 4
      let m := if spare then n + 1 else n
      { l with train := false, spare := spare, width := if 4 ≤ m then 4 else if 2 ≤ m then 2 else if m = 1 then 1 else 0 }
    else l)))

/-- O48. Resets, self-test, repair, firmware, attestation and clocks: a core reset ends every context on the die, an
uncore reset its tables and flumes too, and fails what is in flight to it, a package reset everything but flash; a
request to an absent die gets an error completion; a self-test ends the reset, with its findings free, and signs its
records; a quiesced core takes no stand and returns; an accepted image sets the minimum; a throttled clock keeps CLK;
a soft error damages its data (R252, R374, R389, R401, R412 to R418). What a test finds and the spares' layout are log
8, what an image or a report verifies is log 7, the sensors and the rise of a clock are log 73, and that a forced
uncore reset is free to happen, and loses what it loses, is log 80. What a core reset keeps is log 64, what a quiesced
core keeps log 58, and what a second load of firmware does log 63. -/
def Obligations.ResetsAndRepairComplete : Prop :=
  ∀ (s : State) (die : Nat), s.focus = none →
    let killed (s : State) : State := (s.contextsOn die).foldl (fun s c => s.endContext die c 0x34
      { kind := 1, code := 0x34, ctx := BitVec.ofNat 8 c, fpid := ((s.die die).ctx c).fpid }) s
    let cores (s : State) : State := (killed s).modDie die fun x => { x with
      cores := x.cores.map fun k => { Core.reset with
        secure := k.secure, skSecure := k.skSecure, clkSince := (killed s).clock, mhz := k.mhz }
      groves := List.replicate 4 Grove.reset, qrun := false, coreRst := true
      damaged := x.damaged.filter fun y => match y with | .hbm _ => true | _ => false }
    let drawn : State := { s with fresh := s.fresh + 1 }
    let present : Prop := (s.die die).inService = true ∧ (s.die die).harvested = false
    let uncore : State := ((cores drawn).failDie die).modDie die fun x => { Die.reset with
      cores := x.cores.map fun k => { k with secure := false, skSecure := false }
      inService := x.inService, harvested := x.harvested, damaged := x.damaged
      coreRst := true, uncRst := true }
    let tested (i : Instr) (f : Die → Die) : Prop := ∃ (new : List Repair) (out : Bool),
      exec i s = .next (State.modDie { drawn with flash := s.flash ++ new } die fun x =>
        f { x with harvested := x.harvested || out, inService := x.inService && !out }) ∧
      (∀ r ∈ new, r.part.die = die ∧ r.spare < r.part.kind.spares ∧ r.verified = true ∧
        ∀ q ∈ s.flash, q.verified = true → q.part.sameUnit r.part = true → q.spare ≠ r.spare) ∧
      new.Pairwise fun q r => q.part.sameUnit r.part = true → q.spare ≠ r.spare
    (¬present → ∀ i ∈ [Instr.coreReset die, .uncoreReset die, .qcoreGo die 0],
      exec i s = .next { s with hostReply := some .error }) ∧
    (present → s.firmware.fwstat = 1 → exec (.coreReset die) s = .next (cores s)) ∧
    (present → s.firmware.fwstat = 1 → (∀ p ∈ ((cores drawn).die die).ports, p.credits = []) →
      exec (.uncoreReset die) s = .next uncore ∨ exec (.uncoreReset die) s = .next (uncore.loseDirty die)) ∧
    (∀ s : State,
      let t := s.failDie die
      let failed (w : Work) (x : Nat × Nat × Dest × Word × BitVec 12) : Prop := s.boundFor die w = some x
      let report (x : Nat × Nat × Dest × Word × BitVec 12) : Work :=
        .remoteError x.1 x.2.1 (some x.2.2.1) x.2.2.1.pc 0x03 x.2.2.2.1 x.2.2.2.2
      (∀ i ∈ s.works, s.worksFor die i.work = false → i ∈ t.works) ∧
      (∀ i ∈ s.works, ∀ x, failed i.work x → ∃ j ∈ t.works, j.work = report x) ∧
      (∀ j ∈ t.works, j ∈ s.works ∧ s.worksFor die j.work = false ∨ ∃ i ∈ s.works, ∃ x, failed i.work x ∧ j.work = report x) ∧
      (∀ y d l, s.worksFor die (.launchRec y d l) = decide (d = die) ∧
        s.boundFor die (.launchRec y die l) = some ((s.originOf y).die, l.ctx, y, 0, 0))) ∧
    (∀ s : State, ∃ m : Memory,
      s.loseDirty die = { s with
        hbm := m, past := s.past.filter fun e => e.pa / 0x1800000000 ≠ die, fresh := s.fresh + 1 } ∧
      ∀ a, (∀ e ∈ s.past, e.pa / 0x1800000000 = die → a < e.pa ∨ e.pa + e.bytes.length ≤ a) → m.read a = s.hbm.read a) ∧
    (∃ t, exec .packageReset s = .next t ∧ t.stands = [] ∧ t.tracts = [] ∧ t.works = [] ∧ t.flash = s.flash ∧ t.hbm = [] ∧ t.pkgRst = true ∧
      t.firmware.fwstat = 0 ∧ t.firmware.minimum = s.firmware.minimum ∧ t.dies.length = s.dies.length ∧
      ∀ d ∈ t.dies, d.coreRst = true ∧ d.uncRst = true ∧ d.ctxs = List.replicate 256 {} ∧ d.ports = List.replicate 16 Port.reset) ∧
    (die < 8 → (s.die die).coreRst = true →
      ((s.die die).uncRst = false → tested (.bistDone die) fun x => { x with coreRst := false }) ∧
      ((s.die die).uncRst = true → tested (.bistDone (8 + die)) fun x => { x with coreRst := false, uncRst := false })) ∧
    (s.pkgRst = false → exec (.bistDone 16) s = .next s) ∧
    (s.pkgRst = true → ∃ t, exec (.bistDone 16) s = .next t ∧ t.pkgRst = false ∧
      (∀ d < 8, (t.die d).coreRst = false ∧ (t.die d).uncRst = false) ∧
      (∀ k < 64, k < s.links.length → (t.link k).train = true ∧
        ∀ r ∈ s.flash, r.part.kind = .lane → r.part.core = k → (t.link k).laneOk.getLsbD r.part.index = false)) ∧
    (∀ core, core < 32 → present → s.firmware.fwstat = 1 → (s.die die).qrun = false → (∀ st ∈ s.stands, st.die = die → st.core ≠ core) →
      exec (.qcoreGo die core) s = .next ((s.modDie die fun x => { x with
        qcore := BitVec.ofNat 5 core, qtarget := BitVec.ofNat 5 core, qgo := true, qrun := true, qdone := false }).modCore die core
          fun k => { k with quiesced := true })) ∧
    (let x := s.die die
     x.qrun = true → (∀ st ∈ s.stands, st.die = die → st.core ≠ x.qtarget.toNat) → ∃ (new : List Repair) (n : BitVec 2),
      let kept : State := { drawn with flash := s.flash ++ new }
      let back (s : State) : State := s.modDie die fun y => { y with
        qcore := x.qcore, qtarget := x.qtarget, qgo := x.qgo, qrun := false, qdone := true, qresult := n }
      exec (.qcoreReturn die) s = .next (back (if n = 2 then (kept.resetUncore die).harvest die
        else kept.modCore die x.qtarget.toNat fun k => { k with quiesced := false })) ∧
      (n = 0 ∨ n = 1 ∨ n = 2) ∧ (n ≠ 2 → (n = 1 ↔ ∃ r ∈ new, r.part.kind = .core)) ∧
      ∀ r ∈ new, r.part.die = die ∧ r.spare < r.part.kind.spares ∧ r.verified = true ∧
        ∀ q ∈ s.flash, q.verified = true → q.part.sameUnit r.part = true → q.spare ≠ r.spare) ∧
    (s.firmware.load = true →
      let image := s.hostMem.bytes s.firmware.fwaddr.toNat (min s.firmware.fwlen.toNat (2 ^ 24))
      let d := (Config.freeDigest 0 image).toNat
      let version := (Config.freeDigest 1 image).toNat
      let n : BitVec 4 :=
        if s.firmware.fwaddr.toNat % 4096 ≠ 0 ∨ 2 ^ 24 < s.firmware.fwlen.toNat ∨ Config.freeVerify 2 d = false then 5
        else if Config.freeVerify 0 d = false then 2
        else if Config.freeVerify 1 d = false then 3
        else if version < s.firmware.minimum then 4
        else 1
      exec .firmwareLoad s = .next { s with firmware := if n = 1 then { s.firmware with
            load := false, fwstat := 1, digest := Config.freeDigest 0 image, version := version, minimum := version }
          else { s.firmware with load := false, fwstat := n } }) ∧
    (∀ nonce : List (BitVec 8), s.firmware.fwstat = 1 → nonce.length = 32 → ∃ r : Report,
      exec (.attestationRequest nonce) s = .next { s with report := some r } ∧ r.nonce = nonce ∧
      r.digest = s.firmware.digest ∧ r.version = s.firmware.version ∧ r.config = 0x01080100 ∧
      r.worlds = s.dies.map Die.worldBits ∧ r.repairs = Config.freeDigest 2 ((s.flash.filter Repair.verified).flatMap Repair.bytes) ∧
      r.rsa = Config.freeSignature 0 r.content ∧ r.slhDsa = Config.freeSignature 1 r.content ∧
      ∀ n < 8, r.harvested.getLsbD n = (s.die n).harvested) ∧
    (∀ g mhz, die < 8 → s.dies.length = 8 → (s.die die).cores.length = 32 → g < 4 →
      let now := s.islandMhz.getD (5 * die + g) 1500
      let lowers : Prop := 1050 < s.junction.toNat ∨ ∃ t, s.overSince = some t ∧ t + 1500000 ≤ s.clock
      (lowers → 700 ≤ now ∧ mhz = now - 100) → (¬lowers → now ≤ 1400 ∧ mhz = now + 100) → ∃ t,
      exec (.clockThrottle (5 * die + g) mhz) s = .next t ∧ t.islandMhz = s.islandMhz.set (5 * die + g) mhz ∧
      (∀ c < 32, c / 8 = g → (t.core die c).mhz = mhz ∧ t.clk die c = s.clk die c) ∧
      (∀ c, c / 8 ≠ g → t.core die c = s.core die c) ∧ t = { s with dies := t.dies, islandMhz := t.islandMhz }) ∧
    (∀ x, s.holds die x = false → exec (.uncorrectableSoftError die x) s = .next s) ∧
    (∀ x, s.holds die x = true → (∀ sid c n lane, x ≠ .register sid c n lane) →
      ∃ t, exec (.uncorrectableSoftError die x) s = .next t ∧ (die < s.dies.length → x ∈ (t.die die).damaged) ∧
        t = { s with dies := t.dies }) ∧
    (∀ sid c n lane, s.holds die (.register sid c n lane) = true →
      exec (.uncorrectableSoftError die (.register sid c n lane)) s = .next (s.modCord sid c fun y => { y with
        v := y.v.modify n fun r => { r with bad := r.bad ||| (1 : Mask) <<< lane } })) ∧
    (∀ addr, s.holds die (.hbm addr) = true ↔ addr < 0x1800000000) ∧
    (∀ sid off, (s.holds die (.scratchpad sid off) = true ↔ ∃ st, s.stand? sid = some st ∧ st.die = die ∧ off < st.spGran * 16384) ∧
      (s.holds die (.accumulator sid off) = true ↔ ∃ st, s.stand? sid = some st ∧ st.die = die ∧ off < st.asGran * 16384)) ∧
    (∀ sid c n lane, s.holds die (.register sid c n lane) = true ↔ ∃ st x, s.stand? sid = some st ∧ st.die = die ∧
      st.cord? c = some x ∧ n < x.v.length ∧ lane < 32)

/-! ### The whole machine -/

/-- O49. What reset leaves, where the rules state it: 8 dies of 32 cores in 4 groves, with 256 contexts, 16 flume
ports and 64 region descriptors each, 128 canopy slots a core, 64 links and 28 contrail entries; no context entry, no
stand and no tract; agelim 0x400, free pools, empty canopies, groves, queues and flume ports; non-secure worlds, no
region; an idle ring, staging area, launch flume, contrail table, links and firmware block; MODCAP 3,600 (R152, R258,
R315, R319, R371, R389, R390, R403 to R405, R407, R418). Fields the rules give no reset value for are the model's
choice (log 2) and not stated here. -/
def Obligations.ResetIsAsStated : Prop :=
  let s := State.reset
  s.dies.length = 8 ∧ s.links.length = 64 ∧ s.contrails.length = 28 ∧ s.routes.length = 4096 ∧
  s.stands = [] ∧ s.tracts = [] ∧ s.works = [] ∧ s.pkgid = 0 ∧ s.modcap = 3600 ∧ s.firmware.fwaddr = 0 ∧
  s.firmware.fwlen = 0 ∧ s.firmware.load = false ∧ s.firmware.fwstat = 0 ∧
  (∀ c ∈ s.contrails, c.want = 0 ∧ c.waves = 0 ∧ c.state = 0 ∧ c.err = false) ∧
  (∀ l ∈ s.links, l.held = false ∧ l.rekey = false ∧ l.train = false ∧ l.txctr = 0 ∧ l.keyaddr = 0 ∧ l.rxPend = false ∧
    l.txPend = false) ∧
  ∀ d ∈ s.dies,
    d.cores.length = 32 ∧ d.groves.length = 4 ∧ d.ctxs.length = 256 ∧ d.ports.length = 16 ∧ d.descs.length = 64 ∧
    (∀ e ∈ d.ctxs, e = {}) ∧ (∀ w ∈ d.descs, w = (0, 0)) ∧ d.log = [] ∧ d.launches = [] ∧ d.bindings = [] ∧
    d.ring.base = 0 ∧ d.ring.size = 0 ∧ d.ring.head = 0 ∧ d.ring.tail = 0 ∧ d.ring.drop = 0 ∧ d.ring.enable = false ∧
    d.stage.go = false ∧ d.stage.ctx = 0 ∧ d.stage.seq = 0 ∧ d.stage.code = 0 ∧ d.stage.image.length = 128 ∧ (∀ b ∈ d.stage.image, b = 0) ∧
    d.qcore = 0 ∧ d.qgo = false ∧ d.qdone = false ∧ d.qresult = 0 ∧
    (∀ p ∈ d.ports, p.flcmd = 0 ∧ p.flarg = 0 ∧ p.flres = 0 ∧ p.secure = false ∧ p.flumes = [] ∧ p.qtt.length = 256 ∧
      ∀ w ∈ p.qtt, w = 0) ∧
    (∀ g ∈ d.groves, g.crews = [] ∧ g.sets = [] ∧ g.hold.length = 64 ∧ ∀ h ∈ g.hold, h = none) ∧
    ∀ k ∈ d.cores, k.agelim = 0x400 ∧ k.free = 96 ∧ k.clearing = [] ∧ k.secure = false ∧ k.skSecure = false ∧
      k.q0 = [] ∧ k.q1 = [] ∧ k.running = none ∧ k.insq = [] ∧ k.canopy.length = 128 ∧
      ∀ x ∈ k.canopy, x.bytes = [] ∧ x.pins = 0 ∧ x.owner = none

/-- O50. HBM and host memory are in their canonical form, and the contrail table is within its limits, right after
reset. -/
def Obligations.ResetHoldsTheInvariants : Prop :=
 State.reset.memWf = true ∧ State.reset.ContrailsInLimits

/-- O51. HBM and host memory keep their one canonical form through every step. -/
def Obligations.StepKeepsMemoryCanonical : Prop :=
  ∀ s t : State, s.memWf = true → step s = .next t → t.memWf = true

/-- O52. Through every step, each die takes part in at most 16 wavelengths wanted or in use, no entry wants or uses
more than 8, and a steady entry uses what it wants (R405, R406). That a held WANT and the wavelengths in use during a
change count is the model's reading (log 30). -/
def Obligations.StepKeepsContrailLimits : Prop :=
  ∀ s t : State, s.ContrailsInLimits → step s = .next t → t.ContrailsInLimits

/-- O53. When the four bytes at the PC of the path whose turn it is translate and decode to an instruction, the step
is that instruction's meaning, with the issue noted for the round-robins, and a cycle passes; of bytes written since
the stand was placed, the fetch may find the new ones or older ones (R194); where the PC does not translate, the path
takes the fetch's fault, whose TRAPVAL is the address (R16, R38, R136, R173). Which version a fetch finds is log 46,
and that a cycle is a step is log 10. -/
def Obligations.StepRunsTheDecodedInstruction : Prop :=
  ∀ (s : State) (f : Focus), s.focus = some f → s.turn = true →
    let pc := f.path.pc
    let die := f.stand.die
    let noted (i : Instr) : State := { s.modCore die f.stand.core fun k => { k with
        lastIssue := k.lastIssue.set f.cord.quad (some (2 * f.cord.cslot + f.slotB.toNat))
        lastPipe := if usesPipe i then f.cord.quad else k.lastPipe
        lastFilter := if usesFilter i then f.cord.quad else k.lastFilter } with
      focus := some { f with cord :=
        if f.slotB then { f.cord with lastB := s.clock } else { f.cord with lastA := s.clock } } }
    (∀ pa leaf, s.Mapped f.agent .fetch pc.toNat pa leaf → (s.die die).damaged = [] →
      let at_ := hAddr die pa
      let since := s.past.filter fun e => e.meets at_ 4 && !decide (e.upto ≤ f.stand.sid)
      ∃ n ≤ since.length, ∀ (i : Instr) (t : State),
        decode ((rewind s.hbm (since.take n)).bytes at_ 4) = .ok (i, []) → exec i (noted i) = .next t →
        step s = .next { t with
          clock := t.clock + 1, ts := t.ts + (2 * (t.clock + 1) / 3 - 2 * t.clock / 3), turn := false }) ∧
    (∀ c, s.tlbHit die f.stand.core f.stand.ctx pc.toNat = none → s.tlbShared die f.stand.ctx pc.toNat = none →
      s.walk die f.stand.ctx pc.toNat = .error c → f.path.chain.prev ≠ .alu →
      step s = .next (s.takeTrap f { code := c, val := some (pc.zeroExtend 64) } 0 f.path.restart).tick)

/-- O54. Words of the spec's own examples, and of its encoding tables written out field by field, decode to the
instructions they stand for, and a reserved word to none (R64 to R72, R94, R140, R163, R201, R211, R237, R280, R305,
R342, R365, R392, R393, R394). -/
def Obligations.WordsDecodeToTheirInstructions : Prop :=
  decodeWord 0x00000000 = .nop ∧ decodeWord 0x70080000 = .laneid (.reg 1) ∧ decodeWord 0x68100004 = .movi 2 .i32 4 ∧
  decodeWord 0x44181080 = .imul ⟨.reg 3, 1, 2, .ident, .ident⟩ .i32 ∧
  decodeWord 0x40203080 = .iadd ⟨.reg 4, 3, 2, .ident, .ident⟩ .i32 ∧ decodeWord 0x6A180100 = .iaddi 3 .i32 0x100 ∧
  decodeWord 0x1EA00002 = .hpred false 2 ∧ decodeWord 0x1C194800 = .rdtag 3 5 ∧
  decodeWord 0x90101600 = .fcvt ⟨.reg 2, 1, .ident⟩ .e4m3 .f32 .rne false ∧
  decodeWord 0x90181601 = .fcvt ⟨.reg 3, 1, .ident⟩ .e4m3 .f32 .rne true ∧
  decodeWord 0x02400003 = .brc 1 false 3 ∧ decodeWord 0x02A00003 = .brc 2 true 3 ∧ decodeWord 0x0A00000B = .rcv 11 ∧
  decodeWord 0x0E400006 = .brk 1 6 ∧ decodeWord 0x0C000000 = .join ∧ decodeWord 0x10000000 = .exit ∧
  decodeWord 0x24140100 = .sldi 1 0x100 ∧ decodeWord 0xABE04200 = .atoms ⟨60, 1, 2, 0, .add⟩ ∧
  decodeWord 0xAD810003 = .fenceX .die 3 ∧ decodeWord 0xC410FF00 = .pbar ⟨2, 3⟩ ∧ decodeWord 0xC428FF10 = .pwait ⟨5, 3⟩ ∧
  decodeWord 0x18400050 = .rdspr 4 .trapcause ∧ decodeWord 0x18610051 = .wrspr 6 .trappc ∧
  decodeWord 0x16000012 = .trap 0x12 ∧ decodeWord 0x16010000 = .eret ∧ decodeWord 0x16020000 = .halt ∧
  decodeWord 0x1A219080 = .crst ⟨2, 3, 4⟩ ∧
  decodeWord (0b1011000#7 ++ 10#6 ++ 2#5 ++ 4#6 ++ 0b0000#4 ++ 0b00#2 ++ 0b10#2) = .cpy 10 2 4 .h2s .b16 ∧
  decodeWord (0b1101000#7 ++ 10#6 ++ 2#5 ++ 0b111111#6 ++ 0#4 ++ 0#4) = .mtask ⟨10, 2⟩ ∧
  decodeWord (0b1110001#7 ++ 4#6 ++ 2#5 ++ 6#6 ++ 0b0000#4 ++ 0#4) = .lins ⟨4, 2⟩ 6 .f32 ∧
  decodeWord (0b1111000#7 ++ 6#6 ++ 8#5 ++ 0b111111#6 ++ 0#4 ++ 0#4) = .qdeq ⟨6, 8⟩ ∧
  decodeWord (0b1111100#7 ++ 4#6 ++ 6#5 ++ 0b111111#6 ++ 0#4 ++ 0#4) = .launch ⟨4, 6⟩ ∧
  decodeWord 0x00000001 = .illegalWord 1 ∧ decodeWord 0xFE000000 = .illegalWord 0xFE000000

/-- O55. Decoding what the encoder lays down gives every well-formed instruction back, with every operand, and the
bytes after it (R1, R38, R41, R64 to R71). -/
def Obligations.DecodeInvertsEncode : Prop :=
  ∀ (i : Instr) (rest : List Byte), i.wf = true → decode (bytesOfWord (encode i) ++ rest) = .ok (i, rest)

/-- O56. Every word is either one that no row accepts, or the one word of a well-formed instruction, so that no
reserved bit is dropped (R72). -/
def Obligations.EveryWordHasOneMeaning : Prop :=
  ∀ w : BitVec 32, decodeWord w = .illegalWord w ∨ ((decodeWord w).wf = true ∧ encode (decodeWord w) = w)

/-- O57. From every state the step answers a next state: what the rules call a fault is an exception the machine
takes, and no run ends. -/
def Obligations.EveryStepAnswers : Prop :=
 ∀ s : State, Answers (step s)

/-- O58. Every instruction of an issuing path waits while a register it names has an outstanding write, and then takes
the first fault of the decoder's checks, in their order, with no effect of its own (R39, R42 to R46, R48, R57, R59,
R60, R89, R92, R374, R394). That DIVERGED_SCALAR comes before the privilege check is log 71, and that a damaged source
register raises MEM_ERROR after it log 44. Vector register codes within their limits: a code from the budget to 59
raises ILLEGAL_REG in every vector field, and so do codes 60 to 63 of a destination (R42); codes 60 to 62 of an
address offset, 63 being none, and codes 61 to 63 in the d field of an atomic (R45); and a group that breaks its
alignment, or that reaches the budget (R46). -/
def Obligations.ChecksComeBeforeEffects : Prop :=
  (∀ (i : Instr) (s : State) (f : Focus), i.isStep = false → s.focus = some f →
     let o := opndsOf i
     let c := f.path.chain
     let codes := o.codesOk f.cord.budget c.readers
     let chain : Prop := o.isReader = true → c.readers < 4 ∧ c.prev = .alu ∧ c.broken = false
     let suits : Prop := ∀ p, f.path.pfx = some p → (if o.hint then o.bare = false else o.prefixOk (some p) = true)
     let raises (e : TrapCode) : Prop := exec i s = .next (s.faulted i f { code := e })
     (o.marked f = true → exec i s = .next s) ∧
     (o.marked f = false →
       (codes = false → raises .illegalReg) ∧
       (codes = true → ¬chain → raises .latchChain) ∧
       (codes = true → chain → ¬suits → raises .illegalInstr) ∧
       (codes = true → chain → suits → o.uniform = true → f.cord.converged = false → raises .divergedScalar) ∧
       (codes = true → chain → suits → (o.uniform = true → f.cord.converged = true) →
         (o.priv = true → f.stand.sys = false → raises .privilege) ∧
         ((o.priv = true → f.stand.sys = true) →
           (∃ c ∈ o.a ++ o.off.toList ++ o.rd, c.toNat < 60 ∧ (f.cord.vreg c.toNat).bad ≠ 0) → raises .memError)))) ∧
  (∀ (s : State) (f : Focus), s.focus = some f →
     let k := f.cord.budget
     let refused (i : Instr) : Prop := (opndsOf i).marked f = false → exec i s = .next (s.faulted i f { code := .illegalReg })
     let beyond (c : VCode) : Prop := k ≤ c.toNat ∧ c.toNat ≤ 59
     (∀ i : Instr, i.isStep = false → ∀ c,
       (c ∈ (opndsOf i).v → k ≤ 60 → k ≤ c.toNat → refused i) ∧ (c ∈ (opndsOf i).a → beyond c → refused i)) ∧
     (∀ (o : V2) (d : VCode), o.dst = .reg d → 60 ≤ d.toNat → k ≤ 60 → refused (.and o)) ∧
     (∀ o : V2, beyond o.a ∨ beyond o.b → refused (.and o) ∧ refused (.fadd o .f32)) ∧
     (∀ o : F3, beyond o.a ∨ beyond o.b ∨ beyond o.c → refused (.imad o) ∧ refused (.ffma o)) ∧
     (∀ o : MOps, k ≤ 60 →
       let c := o.d.toNat
       let span := match o.size with | .w64 => 2 | .w128 => 4 | _ => 1
       (c % span ≠ 0 ∨ k < c + span ∨ (k ≤ o.v.toNat ∧ o.v.toNat < 63)) →
         refused (.ld o) ∧ refused (.st o) ∧ refused (.lds o) ∧ refused (.sts o)) ∧
     ∀ o : AOps, k ≤ 60 →
       let c := o.d.toNat
       ((o.op = .cas → c % 2 ≠ 0 ∨ k < c + 2 ∨ (k ≤ o.v.toNat ∧ o.v.toNat < 63)) ∧
        (o.op ≠ .cas → c ≠ 60 → k ≤ c ∨ (k ≤ o.v.toNat ∧ o.v.toNat < 63)) ∧
        (o.op ≠ .cas → c = 60 → o.v.toNat % 2 ≠ 0 ∨ k < o.v.toNat + 2)) →
         refused (.atom o) ∧ refused (.atoms o))

/-- O59. Taking an exception: the trap registers of the cord are written; a recoverable fault stops the stand, with
the path at the restart address; any other ends the context on the die, which leaves none of its stands there and
posts a record of kind 0x1 with the fault's code: it is in the host's ring, or the newest of the held records, or
behind those that wait where the buffer is full (R373, R375, R377, R378, R379, R387, R404; log 39). -/
def Obligations.TakingAnException : Prop :=
  ∀ (s : State) (f : Focus) (t : Trap) (imm : BitVec 16) (pc : Pc) (v : DWord), t.val = some v → s.focus = some f →
    let c : Cord := { f.cord with trapImm := imm, trapCode := t.code.num, trapPc := pc, trapVal := v }
    let p : Path := { f.path with pc := pc, pfx := none, wait := none, chain := {} }
    let st : Stand := { f.stand with cords := f.stand.cords.map fun x => if x.id = c.id then c.setSlot f.slotB (some p) else x }
    (t.code ∈ [.pageFault, .trap, .halt] → st.phase = .running → (∀ x ∈ s.stands, x.sid ≠ st.sid) →
      (∀ x ∈ st.cords, ∀ b q, x.slot b = some q → q.wait = none) →
      s.takeTrap f t imm pc = { s with
        fresh := s.fresh + 1, focus := none
        stands := { st with phase := .stopping t.code.num false c.id f.slotB } :: s.stands }) ∧
    (t.code ∉ [.pageFault, .trap, .halt] → st.die < s.dies.length →
      (∀ x ∈ (s.takeTrap f t imm pc).stands, x.die = st.die → x.ctx ≠ st.ctx) ∧
      let e : Event := {
        kind := 1, code := t.code.num, reason := t.reason, ctx := BitVec.ofNat 8 st.ctx, fpid := st.fpid
        core := BitVec.ofNat 8 (st.die * 32 + st.core), standId := BitVec.ofNat 32 st.standId, cord := BitVec.ofNat 8 c.id
        slot := if f.slotB then 1 else 0, pc := pc.zeroExtend 64, val := v, info := t.info }
      let ring := ((s.takeTrap f t imm pc).die st.die).ring
      let at_ := ring.base.toNat * 4096 + 64 * ((ring.tail - 1).toNat % (64 * 2 ^ ring.size.toNat))
      (∃ time, (s.takeTrap f t imm pc).hostMem.bytes at_ 64 = eventBytes e time (ring.rseq - 1)) ∨
        (∃ rest time, ring.buffer = rest ++ [(e, time)]) ∨
        ∃ rest, ring.waits = rest ++ [e] ∧ (rest ≠ [] ∨ 64 ≤ ring.buffer.length))

/-- O60. The shape tag of every vector register and latch stays exact under every ALU instruction: where the tag says
that the lanes are equal, or rise by one step, they are and do (R82, R85, R86). The shape-tag table of R85, entry by
entry, for an instruction with every lane active: the tag of the register it writes, from the tags its sources
present. A 16-bit type never gives A. Every ALU instruction writes its result into the active lanes of its destination
alone, whose tag becomes general where a lane is inactive; with NW = 1 it writes no register and no tag; its result
shifts into the latches, b0 to b3; and it changes no other register (R6, R47, R51, R60, R86, R97). -/
def Obligations.TagsStayExact : Prop :=
  (∀ (i : Instr) (s t : State) (f g : Focus), (opndsOf i).kind = .alu → s.focus = some f → f.TagsExact →
     exec i s = .next t → t.focus = some g → g.TagsExact) ∧
  (∀ (s : State) (f : Focus) (d : VCode) (o : V2) (o1 : V1) (o3 : F3) (t : IntTy) (w : ElW) (m : ShflMode) (imm : BitVec 16),
     f.active = BitVec.allOnes 32 → d.toNat < f.cord.v.length → o.dst = .reg d → o1.dst = .reg d → o3.dst = .reg d →
     let writes (i : Instr) (tag : Tag) : Prop := Issues i s f →
       ∃ u g, exec i s = .next u ∧ u.focus = some g ∧ (g.cord.vreg d.toNat).tag = tag
     let a := (f.psrc (v2Opnds o).isReader o.a o.pa).tag
     let b := (f.psrc (v2Opnds o).isReader o.b o.pb).tag
     let x := (f.psrc (v1Opnds o1).isReader o1.a o1.pa).tag
     let y (c : VCode) := (f.vsrc (f3Opnds o3).isReader c).tag
     let z := (f.cord.vreg d.toNat).tag
     let wide : Prop := t = .i32 ∨ t = .n32
     let some_ (l : List Tag) (k : Tag) : Prop := k ∈ l
     -- IADD, ISUB, IADDI
     (a = .uniform → b = .uniform → writes (.iadd o t) .uniform ∧ writes (.isub o t) .uniform) ∧
     (some_ [a, b] .affine → ¬some_ [a, b] .general →
       (wide → writes (.iadd o t) .affine ∧ writes (.isub o t) .affine) ∧
       (¬wide → writes (.iadd o t) .general ∧ writes (.isub o t) .general)) ∧
     (some_ [a, b] .general → writes (.iadd o t) .general ∧ writes (.isub o t) .general) ∧
     (z = .uniform → writes (.iaddi d t imm) .uniform ∧ writes (.imuli d t imm) .uniform) ∧
     (z = .affine → (wide → writes (.iaddi d t imm) .affine ∧ writes (.imuli d t imm) .affine) ∧
       (¬wide → writes (.iaddi d t imm) .general ∧ writes (.imuli d t imm) .general)) ∧
     (z = .general → writes (.iaddi d t imm) .general ∧ writes (.imuli d t imm) .general) ∧
     -- IMUL
     (a = .uniform → b = .uniform → writes (.imul o t) .uniform) ∧
     (some_ [a, b] .affine → some_ [a, b] .uniform →
       (wide → writes (.imul o t) .affine) ∧ (¬wide → writes (.imul o t) .general)) ∧
     (a ≠ .uniform → b ≠ .uniform → writes (.imul o t) .general) ∧
     (some_ [a, b] .general → writes (.imul o t) .general) ∧
     -- SHL
     (a = .uniform → b = .uniform → writes (.shl o w) .uniform) ∧
     (a = .affine → b = .uniform → (w = .w32 → writes (.shl o w) .affine) ∧ (w = .w16 → writes (.shl o w) .general)) ∧
     (b ≠ .uniform ∨ a = .general → writes (.shl o w) .general) ∧
     -- IMAD
     (y o3.a = .uniform → y o3.b = .uniform → writes (.imad o3) (y o3.c)) ∧
     (some_ [y o3.a, y o3.b] .affine → some_ [y o3.a, y o3.b] .uniform → y o3.c ≠ .general → writes (.imad o3) .affine) ∧
     (y o3.a ≠ .uniform → y o3.b ≠ .uniform → writes (.imad o3) .general) ∧
     (some_ [y o3.a, y o3.b, y o3.c] .general → writes (.imad o3) .general) ∧
     -- MOV, MOVI, LANEID, AFFINE, SHFL
     writes (.mov o1) x ∧ (∀ k, writes (.movi d k imm) .uniform) ∧ writes (.laneid (.reg d)) .affine ∧
     writes (.affine o) (if a = .uniform ∧ b = .uniform then .affine else .general) ∧
     writes (.shfl o m) (if a = .uniform then .uniform else .general) ∧
     -- all others
     (∀ i ∈ [Instr.imulh o t, .imin o t, .imax o t, .and o, .or o, .xor o, .shr o w, .sra o w, .rot o w],
       writes i (if a = .uniform ∧ b = .uniform then .uniform else .general)) ∧
     (∀ i ∈ [Instr.iabs o1 w, .ineg o1 w, .not o1, .popc o1, .clz o1, .ctz o1, .brev o1],
       writes i (if x = .uniform then .uniform else .general)) ∧
     (∀ i ∈ [Instr.andi d imm, .ori d imm, .xori d imm], writes i (if z = .uniform then .uniform else .general)) ∧
     -- SEL
     ∀ (p q : VCode) (pp : Perm) (n : BitVec 3) (neg : Bool),
       let i := Instr.sel (.reg d) p q pp n neg
       let u := f.psrc (opndsOf i).isReader p pp
       let v := f.vsrc (opndsOf i).isReader q
       let takes (l : Nat) : Bool := (f.cord.pred n.toNat).getLsbD l != neg
       ((∀ l < 32, takes l = true) → writes i u.tag) ∧ ((∀ l < 32, takes l = false) → writes i v.tag) ∧
       ((∃ l < 32, takes l = true) → (∃ l < 32, takes l = false) →
         (u.tag = .uniform → v.tag = .uniform → u.lane 0 = v.lane 0 → writes i .uniform) ∧
         (u.tag ≠ .uniform ∨ v.tag ≠ .uniform → writes i .general) ∧
         (u.lane 0 ≠ v.lane 0 → writes i .general))) ∧
  (∀ (i : Instr) (s : State) (f : Focus), (opndsOf i).kind = .alu → Issues i s f → f.cord.latch.length = 4 →
     f.cord.v.length = 60 → f.cord.budget ≤ 60 →
     let on (l : Nat) : Bool := f.path.mask.getLsbD l &&
       match f.path.pfx.bind Prefix.hpred with
       | some (neg, p) => (f.cord.pred p.toNat).getLsbD l != neg
       | none => true
     ∃ t g, exec i s = .next t ∧ t.focus = some g ∧
       (∀ k < 3, g.cord.latch[k + 1]? = f.cord.latch[k]?) ∧
       (∀ n < 60, (∀ d ∈ (opndsOf i).v, d.toNat ≠ n) → g.cord.vreg n = f.cord.vreg n) ∧
       (∀ d ∈ (opndsOf i).v, ∀ b0, g.cord.latch[0]? = some b0 →
         (∀ l < 32, (g.cord.vreg d.toNat).lane l = if on l then b0.lane l else (f.cord.vreg d.toNat).lane l) ∧
         ((∀ l < 32, on l = true) → (g.cord.vreg d.toNat).tag = b0.tag) ∧
         ((∃ l < 32, on l = false) → (g.cord.vreg d.toNat).tag = .general)) ∧
       g.stand = f.stand ∧
       { g.cord with v := f.cord.v, latch := f.cord.latch, fpstat := f.cord.fpstat, lfsr := f.cord.lfsr } = f.cord ∧
       { g.path with
           pc := f.path.pc, pfx := f.path.pfx, chain := f.path.chain, wait := f.path.wait
           yielded := f.path.yielded } = f.path)
end

