-- ==== Sys2Proof/Laws/Issue.lean ====
section
/-! SUPPORT. What the shared frame of an instruction comes to, once for every instruction: proofs cite these lemmas and
never unfold issue. -/

namespace Sys2Proof.Machine

/-- An instruction that issues has the effect its meaning gives. -/
theorem issue_of_issues {i : Instr} {s : State} {f : Focus} (h : Issues i s f) (e : Focus → Did) :
    issue i s e = match e f with
      | .done s' => .next s'
      | .held => .next s
      | .trap s' t => .next (s'.faulted i f t) := by
  obtain ⟨h1, h2, h3⟩ := h
  simp only [issue, h1, h2, h3, State.faulted]
  rfl

/-- An instruction that changes its cord alone goes on with it. -/
theorem issueCord_of_issues {i : Instr} {s : State} {f : Focus} (h : Issues i s f) (g : Focus → Cord) :
    issueCord i s g = .next (s.goneOn f (g f)) := by
  simp only [issueCord, issue_of_issues h]; rfl

/-- An ALU instruction that issues leaves its result and nothing else. -/
theorem issueAlu_of_issues {i : Instr} {s : State} {f : Focus} (h : Issues i s f) (dst : Dst)
    (g : Focus → (Nat → Word) × Tag × BitVec 6) :
    issueAlu i dst s g = .next (s.afterAlu i f dst (g f).1 (g f).2.1 (g f).2.2) := by
  simp only [issueAlu, issue_of_issues h]; rfl

/-- A compare that issues writes bits of its predicate. -/
theorem issueCmp_of_issues {i : Instr} {s : State} {f : Focus} (h : Issues i s f) (p : BitVec 3)
    (g : Focus → Mask × BitVec 6) :
    issueCmp i p s g = .next (s.afterCmp i f p (g f).1 (g f).2) := by
  simp only [issueCmp, issue_of_issues h]; rfl

/-- An instruction that moves its path leaves the stand and the cord its effect gives, or takes the fault it finds, at its
own address or at the path it was moving (R139, R167); it consumes the bytes of its spill area that it reads (R374). -/
theorem issueCtl_of_issues {i : Instr} {s : State} {f : Focus} (h : Issues i s f) (g : Focus → Ctl) :
    issueCtl i s g = match g f with
      | .ok (st, c) =>
        if s.spillBad f.stand f.cord c then .next (s.faulted i f { code := .memError })
        else .next ((s.mendSpill f.stand f.cord c).settle st c f.slotB)
      | .error (.own t) => .next (s.faulted i f t)
      | .error (.moved st c t pc b) =>
        let v := s.trapVal t
        let c := c.setTrap t v 0 pc
        .next ((s.seat (st.modCord c.id fun _ => c)).endContext st.die st.ctx t.code.num (faultEvent 1 st c.id b t v pc)) := by
  simp only [issueCtl, issue_of_issues h]
  rcases g f with (_ | _) | x
  · rfl
  · rfl
  · dsimp only
    split_ifs <;> rfl

/-- A fence holds its path while an access or a synchronising step it orders is not performed; then it orders what it
orders, stores that only its scope sees take their places, and the path goes on (R188, R189, R193, R201). -/
theorem issueFence_of_issues {i : Instr} {s : State} {f : Focus} (h : Issues i s f) :
    issueFence i s =
      if fenceWaits i s f then .next s
      else
        let s' := (s.takePlaces (fenceScope i) (s.fenceParts i f)).fenced i f.stand.sid f.cord.id f.path.mask
        .next ((s'.flushHandles f).goneOnIn f (s'.fenceReleases i f) f.cord) := by
  simp only [issueFence, issue_of_issues h]
  split_ifs <;> rfl

/-- A frame always answers a next state while a path is in focus. -/
theorem issue_answers {i : Instr} {s : State} (h : s.focus.isSome) (e : Focus → Did) : Answers (issue i s e) := by
  obtain ⟨f, hf⟩ := Option.isSome_iff_exists.mp h
  simp only [issue, hf]
  split
  · exact ⟨_, rfl⟩
  · split
    · exact ⟨_, rfl⟩
    · split <;> exact ⟨_, rfl⟩

/-- The scoreboard holds an instruction back: nothing changes (R89). -/
theorem issue_of_marked {i : Instr} {s : State} {f : Focus} (hf : s.focus = some f)
    (h : (opndsOf i).marked f = true) (e : Focus → Did) : issue i s e = .next s := by
  simp only [issue, hf, h, if_true]

/-- The first check an instruction fails is the fault it takes (R39). -/
theorem issue_of_check {i : Instr} {s : State} {f : Focus} {c : TrapCode} (hf : s.focus = some f)
    (hm : (opndsOf i).marked f = false) (hc : (opndsOf i).check f = some c) (e : Focus → Did) :
    issue i s e = .next (s.faulted i f { code := c }) := by
  simp only [issue, hf, hm, hc, State.faulted]; rfl

/-- The operands of an atomic are no ALU's. -/
theorem aOpsOpnds_kind (o : AOps) : (aOpsOpnds o).kind = .none := by unfold aOpsOpnds; split <;> rfl

/-- An ALU instruction that issues leaves its result in the register its d field names, and nothing else; FCVT.rs steps the
LFSR first (R47, R116). -/
theorem exec_alu {i : Instr} {s : State} {f : Focus} (hk : (opndsOf i).kind = .alu) (h : Issues i s f) :
    ∃ dst vals t flags lfsr, dstRegs dst = (opndsOf i).v ∧
      exec i s = .next (s.afterAlu i { f with cord := { f.cord with lfsr := lfsr } } dst vals t flags) := by
  cases i
  case atom o => exact absurd ((aOpsOpnds_kind o).symm.trans hk) (by decide)
  case atoms o => exact absurd ((aOpsOpnds_kind o).symm.trans hk) (by decide)
  case fcvt o df sf r sat =>
    let f' : Focus := { f with cord := { f.cord with lfsr := if r = .rs then lfsrStep f.cord.lfsr else f.cord.lfsr } }
    let a := f'.psrc (opndsOf (.fcvt o df sf r sat)).isReader o.a o.pa
    let g (l : Nat) : Word × Flags := fcvtLane df sf r sat (rsDraw f'.cord.lfsr l 0) (a.lane l)
    refine ⟨o.dst, fun l => (g l).1, if r = .rs then .general else tagF [a.tag],
      orFlags ((Mask.toLanes f'.active).map fun l => (g l).2), f'.cord.lfsr, rfl, ?_⟩
    change execFcvt o df sf r sat s = _
    unfold execFcvt
    rw [issue_of_issues h]
    by_cases hr : r = .rs
    · subst hr; rfl
    · have e : f' = f := by simp only [f', if_neg hr]
      simp only [g, a, e, if_neg hr]; rfl
  all_goals try (exact absurd (show AluKind.none = AluKind.alu from hk) (by decide))
  all_goals try (exact absurd (show AluKind.compare = AluKind.alu from hk) (by decide))
  all_goals exact ⟨_, _, _, _, f.cord.lfsr, rfl, issueAlu_of_issues h _ _⟩

end Sys2Proof.Machine
end

