-- ==== Sys2Proof/Laws/Access.lean ====
section
/-! SUPPORT. What translation and the reach of an access come to where every page is mapped. -/

namespace Sys2Proof.Machine

/-- A core that a die does not have is not changed. -/
theorem State.modCore_beyond {s : State} {d c : Nat} {f : Core → Core} (h : (s.die d).cores.length ≤ c) :
    s.modCore d c f = s := by
  have e : (s.dies.modify d fun x => { x with cores := x.cores.modify c f }) = s.dies := by
    refine List.ext_getElem? fun i => ?_
    rw [List.getElem?_modify]
    by_cases hi : d = i
    · subst hi
      cases hd : s.dies[d]? with
      | none => rfl
      | some x =>
        have hx : s.die d = x := by simp [State.die, List.getD, hd]
        rw [hx] at h
        simp [List.modify_eq_self h]
    · simp [hi]
  show { s with dies := _ } = s
  rw [e]

/-- Such a core holds no translation. -/
theorem State.tlbHit_beyond {s : State} {d c ctx va : Nat} (h : (s.die d).cores.length ≤ c) : s.tlbHit d c ctx va = none := by
  have e : s.core d c = Core.reset := by simp [State.core, Die.core, List.getD, List.getElem?_eq_none h]
  rw [State.tlbHit, e]; rfl

/-- A mapped address is looked up as its page, and the state stays as it is (R174, R175). -/
theorem lookup_of_mapped {s : State} {a : Agent} {u : Use} {va pa : Nat} {l : Leaf} (h : s.Mapped a u va pa l) :
    s.lookup a.die a.tlbCore a.ctx va = (s, .ok l) := by
  obtain ⟨h1 | ⟨hc, hl, h1⟩, h2, -⟩ := h
  · simp only [State.lookup, State.oldOrNew, h1, h2, if_true]
  · rw [← hc] at hl
    simp only [State.lookup, State.oldOrNew, State.tlbHit_beyond hl, State.modCore_beyond hl, h1, h2, if_true]

/-- A mapped address translates as its page says, and the state stays as it is (R172 to R175). -/
theorem translate_of_mapped {s : State} {a : Agent} {u : Use} {va pa : Nat} {l : Leaf} (h : s.Mapped a u va pa l) :
    s.translate a u va = (s, .ok (pa, l)) := by
  have h0 := lookup_of_mapped h
  obtain ⟨-, -, rfl, h3, h4, h5, h6⟩ := h
  have e1 : (!a.sec && l.s) = false := by rcases h3 with h | h <;> simp [h]
  have e2 : (u.writes && !l.w) = false := by cases hu : u.writes <;> simp_all
  have e3 : (decide (u = .fetch) && !l.x) = false := by by_cases hu : u = .fetch <;> simp_all
  have e4 : (!a.sec && (s.die a.die).secureAt (l.pa + va % l.size)) = false := by rcases h6 with h | h <;> simp [h]
  simp [State.translate, h0, e1, e2, e3, e4]

/-- Mapped addresses translate one after the other, and the state stays as it is (R176). -/
theorem translateAll_of_mapped {s : State} {a : Agent} {u : Use} (pa : Nat → Nat) (leaf : Nat → Leaf) (va : Nat) :
    ∀ rs : List (Nat × Nat), (∀ r ∈ rs, s.Mapped a u (va + r.1) (pa r.1) (leaf r.1)) →
      s.translateAll a u (rs.map fun r => va + r.1) = (s, .ok (rs.map fun r => (pa r.1, leaf r.1)))
  | [], _ => rfl
  | r :: rs, h => by
    simp only [List.map_cons, State.translateAll, translate_of_mapped (h r (by simp)),
      translateAll_of_mapped pa leaf va rs (fun x hx => h x (by simp [hx]))]

/-- An access whose page runs are mapped reaches them (R176, R191). -/
theorem reach_of_mapped {s : State} {a : Agent} {u : Use} {va n : Nat} (pa : Nat → Nat) (leaf : Nat → Leaf)
    (h : ∀ r ∈ pageRuns va n, s.Mapped a u (va + r.1) (pa r.1) (leaf r.1)) :
    s.reach a u va n = (s, .ok ((pageRuns va n).map fun r => (r.1, r.2, pa r.1, leaf r.1))) := by
  have z : ∀ rs : List (Nat × Nat),
      ((rs.zip (rs.map fun r => (pa r.1, leaf r.1))).map fun x => (x.1.1, x.1.2, x.2.1, x.2.2)) =
        rs.map fun r => (r.1, r.2, pa r.1, leaf r.1) := by
    intro rs
    induction rs with
    | nil => rfl
    | cons r rs ih => simp only [List.map_cons, List.zip_cons_cons, ih]
  simp only [State.reach, translateAll_of_mapped pa leaf va _ h, z]

/-- The lanes of an access whose page runs are mapped reach their parts (R182, R191). -/
theorem reachLanes_of_mapped {s : State} {a : Agent} {u : Use} {n : Nat} {pa : Nat → Nat → Nat}
    {leaf : Nat → Nat → Leaf} (data : Nat → Nat × Nat) :
    ∀ addrs : List (Nat × Nat),
      (∀ x ∈ addrs, ∀ r ∈ pageRuns x.2 n, s.Mapped a u (x.2 + r.1) (pa x.1 r.1) (leaf x.1 r.1)) →
      s.reachLanes a u n data addrs = (s, .ok (lanesParts a.die n addrs data pa leaf))
  | [], _ => rfl
  | (l, va) :: r, h => by
    simp only [State.reachLanes, reach_of_mapped (pa l) (leaf l) (h (l, va) (by simp)),
      reachLanes_of_mapped data r (fun x hx => h x (by simp [hx]))]
    rfl

theorem Seen.alike_eq {e y : Seen} (h : e.alike y = true) : y = { e with place := y.place } := by
  obtain ⟨sid, cord, threads, what, since, place⟩ := y
  simp only [Seen.alike, Bool.and_eq_true, decide_eq_true_eq] at h
  obtain ⟨⟨⟨⟨h1, h2⟩, h3⟩, h4⟩, h5⟩ := h
  simp [h1, h2, h3, h4, h5]

/-- What stands before an access among the merged ones stands no earlier than what did before. -/
theorem le_mergeSeen {r : Seen} {l : List Seen} (h : r ∈ l) :
    ∃ y ∈ mergeSeen l, y = { r with place := y.place } ∧
      r.place.die ≤ y.place.die ∧ r.place.stand ≤ y.place.stand ∧ r.place.cord ≤ y.place.cord := by
  induction l with
  | nil => cases h
  | cons e l ih =>
    show ∃ y ∈ (if (mergeSeen l).any e.alike then _ else _), _
    rcases List.mem_cons.mp h with rfl | h
    · split
      · rename_i hc
        obtain ⟨y, hy, hk⟩ := List.any_eq_true.mp hc
        refine ⟨_, List.mem_map_of_mem hy, ?_⟩
        rw [if_pos hk]
        have hk' : y = { r with place := y.place } := Seen.alike_eq hk
        refine ⟨?_, Nat.le_max_left _ _, Nat.le_max_left _ _, Nat.le_max_left _ _⟩
        rw [hk']
      · exact ⟨r, List.mem_cons_self, rfl, Nat.le_refl _, Nat.le_refl _, Nat.le_refl _⟩
    · obtain ⟨y, hy, hk, h1, h2, h3⟩ := ih h
      split
      · refine ⟨_, List.mem_map_of_mem hy, ?_⟩
        split
        · refine ⟨?_, le_trans h1 (Nat.le_max_right _ _), le_trans h2 (Nat.le_max_right _ _), le_trans h3 (Nat.le_max_right _ _)⟩
          rw [hk]
        · exact ⟨hk, h1, h2, h3⟩
      · exact ⟨y, List.mem_cons_of_mem _ hy, hk, h1, h2, h3⟩

theorem le_foldSeen {r : Seen} {l : List Seen} (uid : Nat) (h : r ∈ l) :
    ∃ y ∈ foldSeen uid l, y = { r with place := y.place } ∧
      r.place.die ≤ y.place.die ∧ r.place.stand ≤ y.place.stand ∧ r.place.cord ≤ y.place.cord := by
  by_cases hu : uid ≤ r.since
  · obtain ⟨y, hy, hk⟩ := le_mergeSeen (l := l.filter fun e => decide (uid ≤ e.since)) (List.mem_filter.mpr ⟨h, by simpa using hu⟩)
    exact ⟨y, List.mem_append_left _ hy, hk⟩
  · exact ⟨r, List.mem_append_right _ (List.mem_filter.mpr ⟨h, by simpa using hu⟩), rfl, Nat.le_refl _, Nat.le_refl _, Nat.le_refl _⟩

end Sys2Proof.Machine
end

