-- ==== Sys2Proof/Laws/Float.lean ====
section
/-! SUPPORT. What rounding to a format comes to, once for every format and mode: the code below the exact value, and
whether the result is that code or the one above it. -/

namespace Sys2Proof.Machine

/-- The value of a pattern of a format without its sign (R111). -/
def FloatFmt.mag (k : FloatFmt) (c : Nat) : ℚ :=
  if c / 2 ^ k.m = 0 then (c : ℚ) * 2 ^ k.qmin
  else ((2 ^ k.m + c % 2 ^ k.m : ℕ) : ℚ) * 2 ^ (k.qmin + (c / 2 ^ k.m : ℕ) - 1)

/-- The pattern of t steps of 2^(qmin + j): t fills the mantissa, or j is zero. -/
theorem FloatFmt.mag_code (k : FloatFmt) {j t : Nat} (ht : t ≤ 2 ^ (k.m + 1)) (h : j = 0 ∨ 2 ^ k.m ≤ t) :
    k.mag (j * 2 ^ k.m + t) = (t : ℚ) * 2 ^ (k.qmin + j) := by
  have hp : 0 < 2 ^ k.m := Nat.two_pow_pos _
  rw [pow_succ] at ht
  have z : (2 : ℚ) ≠ 0 := by norm_num
  by_cases h1 : t < 2 ^ k.m
  · have hj : j = 0 := h.resolve_right (by omega)
    subst hj
    simp [FloatFmt.mag, Nat.div_eq_of_lt h1]
  by_cases h2 : t < 2 ^ k.m * 2
  · have e : j * 2 ^ k.m + t = 2 ^ k.m * (j + 1) + (t - 2 ^ k.m) := by
      rw [Nat.mul_add, Nat.mul_comm]; omega
    have d : (j * 2 ^ k.m + t) / 2 ^ k.m = j + 1 := by
      rw [e, Nat.mul_add_div hp, Nat.div_eq_of_lt (by omega)]
    have m : (j * 2 ^ k.m + t) % 2 ^ k.m = t - 2 ^ k.m := by
      rw [e, Nat.mul_add_mod, Nat.mod_eq_of_lt (by omega)]
    simp only [FloatFmt.mag, d, m, if_neg (Nat.succ_ne_zero j), Nat.add_sub_cancel' (Nat.le_of_not_lt h1)]
    congr 2; push_cast; ring
  · have e2 : t = 2 ^ k.m * 2 := by omega
    have e : j * 2 ^ k.m + t = 2 ^ k.m * (j + 2) + 0 := by rw [e2]; ring
    have d : (j * 2 ^ k.m + t) / 2 ^ k.m = j + 2 := by rw [e, Nat.mul_add_div hp]; simp
    have m : (j * 2 ^ k.m + t) % 2 ^ k.m = 0 := by rw [e, Nat.mul_add_mod]; simp
    simp only [FloatFmt.mag, d, m, if_neg (Nat.succ_ne_zero (j + 1)), Nat.add_zero]
    rw [e2, show k.qmin + ((j + 2 : ℕ) : ℤ) - 1 = k.qmin + j + 1 by push_cast; ring, zpow_add_one₀ z]
    push_cast; ring

/-- Every pattern is some steps of one size, and its mantissa's last bit is that of the steps. -/
theorem FloatFmt.code_split (k : FloatFmt) (c : Nat) :
    ∃ j t, c = j * 2 ^ k.m + t ∧ t < 2 ^ (k.m + 1) ∧ (j = 0 ∨ 2 ^ k.m ≤ t) := by
  have hp : 0 < 2 ^ k.m := Nat.two_pow_pos _
  have hd := Nat.div_add_mod c (2 ^ k.m)
  have hm := Nat.mod_lt c hp
  rw [pow_succ]
  by_cases h : c / 2 ^ k.m = 0
  · refine ⟨0, c, by simp, ?_, .inl rfl⟩
    rw [h] at hd; omega
  · refine ⟨c / 2 ^ k.m - 1, c % 2 ^ k.m + 2 ^ k.m, ?_, by omega, .inr (by omega)⟩
    obtain ⟨a, ha⟩ := Nat.exists_eq_succ_of_ne_zero h
    rw [ha] at hd ⊢
    simp only [Nat.succ_sub_one]
    rw [Nat.mul_succ, Nat.mul_comm] at hd
    omega

/-- The next pattern is one step above. -/
theorem FloatFmt.mag_succ (k : FloatFmt) (c : Nat) : k.mag c < k.mag (c + 1) := by
  obtain ⟨j, t, rfl, h1, h2⟩ := k.code_split c
  have e := k.mag_code (j := j) (t := t + 1) (by omega) (h2.imp_right (by omega))
  rw [← Nat.add_assoc] at e
  rw [k.mag_code h1.le h2, e]
  have : (0 : ℚ) < 2 ^ (k.qmin + j) := by positivity
  push_cast; nlinarith

/-- Values rise with their patterns. -/
theorem FloatFmt.mag_strictMono (k : FloatFmt) : StrictMono k.mag := strictMono_nat_of_lt_succ k.mag_succ

/-- The steps below a magnitude, and the part of one step that is left. -/
theorem cut_spec (n : Nat) (e q : Int) :
    (n : ℚ) * 2 ^ e = ((cut n e q).1 + (cut n e q).2.1 / 2 ^ (cut n e q).2.2) * 2 ^ q ∧
    (cut n e q).2.1 < 2 ^ (cut n e q).2.2 := by
  have z : (2 : ℚ) ≠ 0 := by norm_num
  unfold cut
  split
  case isTrue h =>
    refine ⟨?_, by simp⟩
    obtain ⟨d, hd⟩ := Int.eq_ofNat_of_zero_le (Int.sub_nonneg.mpr h)
    rw [hd, show e = q + d by omega, zpow_add₀ z]
    simp; ring
  case isFalse h =>
    obtain ⟨d, hd⟩ := Int.eq_ofNat_of_zero_le (show 0 ≤ q - e by omega)
    rw [hd]
    simp only [Int.toNat_natCast]
    refine ⟨?_, Nat.mod_lt _ (Nat.two_pow_pos d)⟩
    rw [show q = e + d by omega, zpow_add₀ z, zpow_natCast]
    have hp : (2 : ℚ) ^ d ≠ 0 := by positivity
    have := congrArg (Nat.cast (R := ℚ)) (Nat.div_add_mod n (2 ^ d))
    push_cast at this
    field_simp
    rw [← this]; ring

/-- Whether a cut magnitude that is not a whole number of steps goes up is what the table of modes says (R114, R116). -/
theorem roundsUp_eq_goesUp (r : Rnd) (neg : Bool) (t frac d h : Nat) (u : ℚ) (hu : 0 < u) (hf : frac ≠ 0)
    (hl : frac < 2 ^ d) :
    roundsUp r neg t frac d false h =
      goesUp r neg (decide (t % 2 = 1)) (t * u) ((t + frac / 2 ^ d) * u) ((t + 1) * u) h := by
  have hd : d ≠ 0 := by rintro rfl; omega
  obtain ⟨d, rfl⟩ := Nat.exists_eq_succ_of_ne_zero hd
  have hp : (0 : ℚ) < 2 ^ d := by positivity
  have e1 : ((t : ℚ) + 1) * u - (t + frac / 2 ^ (d + 1)) * u = (2 ^ (d + 1) - frac) / 2 ^ (d + 1) * u := by
    field_simp; ring
  have e2 : ((t : ℚ) + frac / 2 ^ (d + 1)) * u - t * u = frac / 2 ^ (d + 1) * u := by ring
  have e3 : ((t : ℚ) + 1) * u - t * u = u := by ring
  have lt : ((2 : ℚ) ^ (d + 1) - frac) / 2 ^ (d + 1) * u < frac / 2 ^ (d + 1) * u ↔ 2 ^ d < frac := by
    rw [mul_lt_mul_iff_left₀ hu, div_lt_div_iff_of_pos_right (by positivity), pow_succ]
    constructor
    · intro h; exact_mod_cast (by linarith : (2 : ℚ) ^ d < frac)
    · intro h; have : (2 : ℚ) ^ d < frac := by exact_mod_cast h
      linarith
  have eq : ((2 : ℚ) ^ (d + 1) - frac) / 2 ^ (d + 1) * u = frac / 2 ^ (d + 1) * u ↔ frac = 2 ^ d := by
    rw [mul_left_inj' hu.ne', div_left_inj' (by positivity), pow_succ]
    constructor
    · intro h; exact_mod_cast (by linarith : (frac : ℚ) = 2 ^ d)
    · intro h; have : (frac : ℚ) = 2 ^ d := by exact_mod_cast h
      linarith
  cases r
  · simp only [roundsUp, goesUp, Nat.succ_eq_add_one, e1, e2, lt, eq, Nat.add_sub_cancel, Nat.add_eq_zero_iff]
    by_cases h1 : frac = 2 ^ d
    · simp [h1]
    · have : 2 ^ d ≤ frac ↔ 2 ^ d < frac := by omega
      simp [h1, this]
  · rfl
  · simp [roundsUp, goesUp, hf]
  · simp [roundsUp, goesUp, hf]
  · simp only [roundsUp, goesUp, Nat.succ_eq_add_one, e2, e3]
    rw [mul_div_assoc, div_self hu.ne', mul_one, decide_eq_decide, div_mul_eq_mul_div, lt_div_iff₀ (by positivity)]
    norm_cast

/-- What rounding answers for a value that is not zero: the pattern at or below it, or the one above where the mode says
so; and past the largest finite value, what an overflow gives (R113 to R117). -/
theorem roundNum_spec (k : FloatFmt) (hm : k.m ≠ 0) (r : Rnd) (sat : Bool) (h : Nat) (neg : Bool) (n : Nat) (e : Int)
    (hn : n ≠ 0) :
    ∃ c : Nat, k.mag c ≤ (n : ℚ) * 2 ^ e ∧ (n : ℚ) * 2 ^ e < k.mag (c + 1) ∧
      let inexact := decide (k.mag c < (n : ℚ) * 2 ^ e)
      let up := inexact && goesUp r neg (decide (c % 2 = 1)) (k.mag c) ((n : ℚ) * 2 ^ e) (k.mag (c + 1)) h
      let c' := if up then c + 1 else c
      roundNum k r sat h neg n e false =
        if k.maxBits < c' then overflowBits k r sat neg up
        else (k.signBit neg + c', (if inexact then flagINEX else 0) ||| (if inexact ∧ c' < 2 ^ k.m then flagUF else 0)) := by
  have z : (2 : ℚ) ≠ 0 := by norm_num
  set q := max ((Nat.log2 n : Int) + e - k.m) k.qmin with hq
  obtain ⟨hx, hl⟩ := cut_spec n e q
  set t := (cut n e q).1 with ht
  set frac := (cut n e q).2.1 with hfr
  set d := (cut n e q).2.2 with hd
  have hu : (0 : ℚ) < 2 ^ q := by positivity
  have hlq : (frac : ℚ) < 2 ^ d := by exact_mod_cast hl
  have f0 : (0 : ℚ) ≤ frac / 2 ^ d := by positivity
  have f1 : (frac : ℚ) / 2 ^ d < 1 := (div_lt_one (by positivity)).mpr hlq
  -- bounds of the value itself
  have b1 : (n : ℚ) < 2 ^ (Nat.log2 n + 1) := by exact_mod_cast Nat.lt_log2_self
  have b2 : (2 : ℚ) ^ (Nat.log2 n) ≤ n := by exact_mod_cast Nat.log2_self_le hn
  have e0 : (0 : ℚ) < 2 ^ e := by positivity
  -- t < 2^(m+1)
  have t1 : t < 2 ^ (k.m + 1) := by
    have hle : (Nat.log2 n : Int) + e - k.m ≤ q := le_max_left _ _
    have : (t : ℚ) * 2 ^ q < 2 ^ (k.m + 1) * 2 ^ q := by
      calc (t : ℚ) * 2 ^ q ≤ (t + frac / 2 ^ d) * 2 ^ q := by nlinarith
        _ = n * 2 ^ e := hx.symm
        _ < 2 ^ (Nat.log2 n + 1) * 2 ^ e := by nlinarith
        _ = (2 : ℚ) ^ ((Nat.log2 n : ℤ) + 1 + e) := by rw [zpow_add₀ z]; norm_cast
        _ ≤ (2 : ℚ) ^ ((k.m : ℤ) + 1 + q) := zpow_le_zpow_right₀ (by norm_num) (by omega)
        _ = 2 ^ (k.m + 1) * 2 ^ q := by rw [zpow_add₀ z]; norm_cast
    exact_mod_cast lt_of_mul_lt_mul_right this hu.le
  have t2 : q = k.qmin ∨ 2 ^ k.m ≤ t := by
    rcases max_choice ((Nat.log2 n : Int) + e - k.m) k.qmin with h | h
    · right
      have hqe : q = (Nat.log2 n : Int) + e - k.m := h
      have : (2 : ℚ) ^ k.m * 2 ^ q < (t + 1) * 2 ^ q := by
        calc (2 : ℚ) ^ k.m * 2 ^ q = 2 ^ ((Nat.log2 n : ℤ) + e) := by
              rw [← zpow_natCast, ← zpow_add₀ z]; congr 1; omega
          _ = 2 ^ (Nat.log2 n) * 2 ^ e := by rw [zpow_add₀ z]; norm_cast
          _ ≤ n * 2 ^ e := by nlinarith
          _ = (t + frac / 2 ^ d) * 2 ^ q := hx
          _ < (t + 1) * 2 ^ q := by nlinarith
      have := lt_of_mul_lt_mul_right this hu.le
      have : 2 ^ k.m < t + 1 := by exact_mod_cast this
      omega
    · exact .inl h
  have hqm : k.qmin ≤ q := le_max_right _ _
  set j := (q - k.qmin).toNat with hj
  have hjq : q = k.qmin + j := by omega
  have t2' : j = 0 ∨ 2 ^ k.m ≤ t := t2.imp_left (by omega)
  have m0 : k.mag (j * 2 ^ k.m + t) = t * 2 ^ q := by rw [k.mag_code t1.le t2', ← hjq]
  have m1 : k.mag (j * 2 ^ k.m + t + 1) = (t + 1) * 2 ^ q := by
    have := k.mag_code (j := j) (t := t + 1) (by omega) (t2'.imp_right (by omega))
    rw [← Nat.add_assoc, ← hjq] at this; rw [this]; push_cast; rfl
  have par : (j * 2 ^ k.m + t) % 2 = t % 2 := by
    obtain ⟨a, ha⟩ := Nat.exists_eq_succ_of_ne_zero hm
    rw [ha, pow_succ, ← Nat.mul_assoc, Nat.add_comm, Nat.add_mul_mod_self_right]
  have ine : (t : ℚ) * 2 ^ q < (t + frac / 2 ^ d) * 2 ^ q ↔ frac ≠ 0 := by
    rw [mul_lt_mul_iff_left₀ hu]
    constructor
    · intro h h0; simp [h0] at h
    · intro h
      have : (0 : ℚ) < frac / 2 ^ d := by positivity
      linarith
  refine ⟨j * 2 ^ k.m + t, ?_, ?_, ?_⟩
  · rw [m0, hx]; nlinarith
  · rw [m1, hx]; nlinarith
  · rw [m0, m1, hx, par]
    simp only [ine]
    have hup : roundsUp r neg t frac d false h =
        (decide (frac ≠ 0) && goesUp r neg (decide (t % 2 = 1)) (t * 2 ^ q) ((t + frac / 2 ^ d) * 2 ^ q) ((t + 1) * 2 ^ q) h) := by
      by_cases hf : frac = 0
      · rw [hf]
        cases r <;> simp [roundsUp]
        intro hd0 h0
        exact absurd h0 (Nat.two_pow_pos _).ne
      · rw [roundsUp_eq_goesUp r neg t frac d h _ hu hf hl]; simp [hf]
    have un : roundNum k r sat h neg n e false =
        if k.maxBits < j * 2 ^ k.m + (if roundsUp r neg t frac d false h then t + 1 else t) then
          overflowBits k r sat neg (roundsUp r neg t frac d false h)
        else (k.signBit neg + (j * 2 ^ k.m + (if roundsUp r neg t frac d false h then t + 1 else t)),
          (if (decide (frac ≠ 0) || false) then flagINEX else 0) |||
          (if (decide (frac ≠ 0) || false) ∧ (j * 2 ^ k.m + (if roundsUp r neg t frac d false h then t + 1 else t)) < 2 ^ k.m
            then flagUF else 0)) := by
      rw [roundNum, if_neg (by simp [hn])]
    rw [un, hup]
    have mv : ∀ b : Bool, j * 2 ^ k.m + (if b then t + 1 else t) = if b then j * 2 ^ k.m + t + 1 else j * 2 ^ k.m + t := by
      intro b; cases b <;> simp [Nat.add_assoc]
    simp only [mv, Bool.or_false, decide_eq_true_eq]

/-- A magnitude that is a little more than n steps rounds as the middle of its step does, where n holds more bits than the
mantissa; stochastic rounding is not taken of such a value. -/
theorem roundNum_sticky (k : FloatFmt) (r : Rnd) (hr : r ≠ .rs) (sat : Bool) (h : Nat) (neg : Bool) (n : Nat) (e : Int)
    (hn : 2 ^ (k.m + 1) ≤ n) :
    roundNum k r sat h neg n e true = roundNum k r sat h neg (2 * n + 1) (e - 1) false := by
  have n0 : n ≠ 0 := by have := Nat.two_pow_pos (k.m + 1); omega
  have hlog : k.m + 1 ≤ Nat.log2 n := (Nat.le_log2 n0).mpr hn
  have hlog2 : Nat.log2 (2 * n + 1) = Nat.log2 n + 1 := by
    rw [Nat.log2_def]
    simp only [show 2 * n + 1 ≥ 2 by omega, if_true, show (2 * n + 1) / 2 = n by omega]
  have hq : ((Nat.log2 (2 * n + 1) : Nat) : Int) + (e - 1) = Nat.log2 n + e := by rw [hlog2]; push_cast; omega
  simp only [roundNum, n0, hq, false_and, if_false, show ¬2 * n + 1 = 0 by omega]
  set q := max ((Nat.log2 n : Int) + e - k.m) k.qmin
  have hle : (Nat.log2 n : Int) + e - k.m ≤ q := le_max_left _ _
  obtain ⟨d, hd⟩ := Int.eq_ofNat_of_zero_le (show 0 ≤ q - e - 1 by omega)
  have c1 : cut n e q = (n / 2 ^ (d + 1), n % 2 ^ (d + 1), d + 1) := by
    rw [cut, if_neg (by omega), show (q - e).toNat = d + 1 by omega]
  have c2 : cut (2 * n + 1) (e - 1) q = (n / 2 ^ (d + 1), 2 * (n % 2 ^ (d + 1)) + 1, d + 2) := by
    have hp : 0 < 2 ^ (d + 1) := Nat.two_pow_pos _
    have hdm := Nat.div_add_mod n (2 ^ (d + 1))
    have hlt := Nat.mod_lt n hp
    have e1 : 2 * n + 1 = 2 ^ (d + 2) * (n / 2 ^ (d + 1)) + (2 * (n % 2 ^ (d + 1)) + 1) := by
      rw [pow_succ 2 (d + 1), Nat.mul_right_comm]; omega
    have hb : 2 * (n % 2 ^ (d + 1)) + 1 < 2 ^ (d + 2) := by rw [pow_succ 2 (d + 1)]; omega
    rw [cut, if_neg (by omega), show (q - (e - 1)).toNat = d + 2 by omega]
    refine Prod.ext ?_ (Prod.ext ?_ rfl)
    · simp only []
      rw [e1, Nat.mul_add_div (Nat.two_pow_pos _), Nat.div_eq_of_lt hb]; rfl
    · simp only []
      rw [e1, Nat.mul_add_mod, Nat.mod_eq_of_lt hb]
  have up : roundsUp r neg (n / 2 ^ (d + 1)) (n % 2 ^ (d + 1)) (d + 1) true h =
      roundsUp r neg (n / 2 ^ (d + 1)) (2 * (n % 2 ^ (d + 1)) + 1) (d + 2) false h := by
    cases r
    · have : 2 * (n % 2 ^ (d + 1)) + 1 ≠ 2 ^ (d + 1) := by rw [pow_succ]; omega
      simp only [roundsUp, Nat.succ_ne_zero, if_false, Nat.add_sub_cancel, this, false_and, and_false, Bool.true_eq_false,
        show d + 2 - 1 = d + 1 from rfl]
      rw [decide_eq_decide, pow_succ]; omega
    all_goals first | exact absurd rfl hr | simp [roundsUp]
  simp only [c1, c2, up]
  simp

/-- The integer square root is the whole part of the root. -/
theorem isqrt_spec (n : Nat) : ∀ (k r : Nat), r * r ≤ n → n < (r + 2 ^ k) * (r + 2 ^ k) →
    isqrt n k r * isqrt n k r ≤ n ∧ n < (isqrt n k r + 1) * (isqrt n k r + 1)
  | 0, r, h1, h2 => ⟨h1, by simpa [isqrt] using h2⟩
  | k + 1, r, h1, h2 => by
    rw [isqrt]
    split
    case isTrue h => exact isqrt_spec n k _ h (by rw [pow_succ] at h2; rwa [Nat.add_assoc, ← Nat.mul_two])
    case isFalse h => exact isqrt_spec n k _ h1 (Nat.lt_of_not_le h)

end Sys2Proof.Machine
end

