-- ==== Sys2Proof/Laws/Memory.lean ====
section
/-! SUPPORT. Every operation on a memory keeps its canonical form, and a byte reads as it was written last. -/

namespace Sys2Proof.Machine

/-- Every address a memory lists is above a bound. -/
theorem Memory.wf_cons {a : Nat} {b : Byte} {m : Memory} :
    Memory.wf ((a, b) :: m) = true ↔ b ≠ 0 ∧ (∀ c ∈ m, a < c.1) ∧ Memory.wf m = true := by
  induction m generalizing a b with
  | nil => simp [Memory.wf]
  | cons c r ih =>
    obtain ⟨k, x⟩ := c
    simp only [Memory.wf, Bool.and_eq_true, decide_eq_true_eq, List.mem_cons, forall_eq_or_imp, and_assoc]
    constructor
    · rintro ⟨h1, h2, h3⟩
      exact ⟨h1, h2, fun c hc => h2.trans ((ih.mp h3).2.1 c hc), h3⟩
    · rintro ⟨h1, h2, -, h4⟩
      exact ⟨h1, h2, h4⟩

/-- What a write lists is what was listed, or the written cell. -/
theorem Memory.mem_write {m : Memory} {a : Nat} {b : Byte} {c : Host.Cell} (h : c ∈ m.write a b) :
    c ∈ m ∨ c.1 = a := by
  induction m with
  | nil => by_cases hb : b = 0 <;> simp_all [Memory.write]
  | cons d r ih =>
    obtain ⟨k, x⟩ := d
    simp only [Memory.write] at h
    split_ifs at h <;> simp_all <;> first | tauto | (rcases h with rfl | h <;> simp_all)

/-- A write keeps the canonical form. -/
theorem Memory.wf_write {m : Memory} (h : m.wf = true) (a : Nat) (b : Byte) : (m.write a b).wf = true := by
  induction m with
  | nil => unfold Memory.write; split_ifs with hb <;> simp_all [Memory.wf]
  | cons d r ih =>
    obtain ⟨k, x⟩ := d
    obtain ⟨h1, h2, h3⟩ := Memory.wf_cons.mp h
    simp only [Memory.write]
    split_ifs with ha he hb hb
    · refine Memory.wf_cons.mpr ⟨h1, fun c hc => ?_, ih h3⟩
      rcases Memory.mem_write hc with hc | hc
      · exact h2 c hc
      · omega
    · exact h3
    · subst he
      exact Memory.wf_cons.mpr ⟨hb, h2, h3⟩
    · exact h
    · refine Memory.wf_cons.mpr ⟨hb, fun c hc => ?_, h⟩
      rcases List.mem_cons.mp hc with rfl | hc
      · omega
      · have := h2 c hc
        omega

/-- A store keeps the canonical form. -/
theorem Memory.wf_store {m : Memory} (h : m.wf = true) (a n v : Nat) : (m.store a n v).wf = true := by
  induction n generalizing m a v with
  | zero => exact h
  | succ n ih => exact ih (Memory.wf_write h a _) _ _

/-- Writing bytes keeps the canonical form. -/
theorem Memory.wf_put {m : Memory} (h : m.wf = true) (a : Nat) (bs : List Byte) : (m.put a bs).wf = true := by
  induction bs generalizing m a with
  | nil => exact h
  | cons b r ih => exact ih (Memory.wf_write h a b) _

/-- Leaving cells out keeps the canonical form. -/
theorem Memory.wf_filter {m : Memory} (h : m.wf = true) (p : Host.Cell → Bool) : Memory.wf (m.filter p) = true := by
  induction m with
  | nil => rfl
  | cons d r ih =>
    obtain ⟨k, x⟩ := d
    obtain ⟨h1, h2, h3⟩ := Memory.wf_cons.mp h
    rw [List.filter_cons]
    split_ifs
    · exact Memory.wf_cons.mpr ⟨h1, fun c hc => h2 c (List.mem_of_mem_filter hc), ih h3⟩
    · exact ih h3

/-- Writing zeros keeps the canonical form. -/
theorem Memory.wf_zero {m : Memory} (h : m.wf = true) (a n : Nat) : (m.zero a n).wf = true := Memory.wf_filter h _

/-- Laying a memory over another keeps the canonical form. -/
theorem Memory.wf_overlay {m : Memory} (h : m.wf = true) (a n : Nat) (x : Memory) : (m.overlay a n x).wf = true := by
  unfold Memory.overlay
  generalize x.filter (fun c => decide (c.1 < n)) = l
  have h' := Memory.wf_zero h a n
  generalize m.zero a n = m' at h'
  induction l generalizing m' with
  | nil => exact h'
  | cons c r ih => exact ih _ (Memory.wf_write h' _ _)

/-- Moving the cells of a range down keeps the canonical form. -/
theorem Memory.wf_slice {m : Memory} (h : m.wf = true) (a n : Nat) : (m.slice a n).wf = true := by
  unfold Memory.slice
  induction m with
  | nil => rfl
  | cons d r ih =>
    obtain ⟨k, x⟩ := d
    obtain ⟨h1, h2, h3⟩ := Memory.wf_cons.mp h
    rw [List.filter_cons]
    split_ifs with hk
    · refine Memory.wf_cons.mpr ⟨h1, fun c hc => ?_, ih h3⟩
      obtain ⟨e, he, rfl⟩ := List.mem_map.mp hc
      have := h2 e (List.mem_of_mem_filter he)
      simp only [Bool.and_eq_true, decide_eq_true_eq] at hk ⊢
      show k - a < e.1 - a
      omega
    · exact ih h3

/-- Below every listed address a memory reads 0. -/
theorem Memory.read_of_lt {m : Memory} {a : Nat} (h : ∀ c ∈ m, a < c.1) : m.read a = 0 := by
  cases m with
  | nil => rfl
  | cons c r =>
    have := h c (by simp)
    simp only [Memory.read]
    rw [if_neg (by omega), if_neg (by omega)]

/-- A byte reads as it was written. -/
theorem Memory.read_write_same {m : Memory} (h : m.wf = true) (a : Nat) (b : Byte) : (m.write a b).read a = b := by
  induction m with
  | nil => unfold Memory.write; split_ifs with hb <;> simp_all [Memory.read]
  | cons d r ih =>
    obtain ⟨k, x⟩ := d
    obtain ⟨h1, h2, h3⟩ := Memory.wf_cons.mp h
    simp only [Memory.write]
    split_ifs with ha he hb hb
    · simp only [Memory.read]
      rw [if_neg (by omega), if_pos ha, ih h3]
    · subst he
      rw [hb]
      exact Memory.read_of_lt h2
    · simp [Memory.read]
    · rw [hb]
      refine Memory.read_of_lt fun c hc => ?_
      rcases List.mem_cons.mp hc with rfl | hc
      · show a < k
        omega
      · have := h2 c hc
        omega
    · simp [Memory.read]

/-- A write leaves every other byte alone. -/
theorem Memory.read_write_other {m : Memory} (h : m.wf = true) {a e : Nat} (b : Byte) (he : e ≠ a) :
    (m.write a b).read e = m.read e := by
  induction m with
  | nil => unfold Memory.write; split_ifs with hb <;> simp_all [Memory.read, Ne.symm he]
  | cons d r ih =>
    obtain ⟨k, x⟩ := d
    obtain ⟨h1, h2, h3⟩ := Memory.wf_cons.mp h
    simp only [Memory.write]
    split_ifs with ha hk hb hb
    · simp only [Memory.read, ih h3]
    · subst hk
      simp only [Memory.read]
      rw [if_neg he.symm]
      split_ifs with hlt
      · rfl
      · exact Memory.read_of_lt fun c hc => lt_of_le_of_lt (by omega) (h2 c hc)
    · subst hk
      simp only [Memory.read]
      rw [if_neg he.symm, if_neg he.symm]
    · rfl
    · have hd : (k, x).1 = k := rfl
      by_cases hlt : a < e
      · simp only [Memory.read]
        rw [if_neg he.symm, if_pos hlt]
      · have hz : Memory.read ((k, x) :: r) e = 0 := by
          refine Memory.read_of_lt fun c hc => ?_
          rcases List.mem_cons.mp hc with rfl | hc
          · show e < k
            omega
          · have := h2 c hc
            omega
        rw [hz]
        simp only [Memory.read]
        rw [if_neg he.symm, if_neg hlt]

end Sys2Proof.Machine
end

