-- ==== Sys2Proof/Laws/State.lean ====
section
/-! SUPPORT. What each named update of the state leaves in each field: true by definition, so that no proof unfolds a
record update. -/

namespace Sys2Proof.Machine

variable (s : State)

/-! modDie -/

@[simp] theorem State.modDie_hbm (n : Nat) (f : Die → Die) : (s.modDie n f).hbm = s.hbm := rfl
@[simp] theorem State.modDie_hostMem (n : Nat) (f : Die → Die) : (s.modDie n f).hostMem = s.hostMem := rfl
@[simp] theorem State.modDie_dies (n : Nat) (f : Die → Die) : (s.modDie n f).dies = s.dies.modify n f := rfl
@[simp] theorem State.modDie_stands (n : Nat) (f : Die → Die) : (s.modDie n f).stands = s.stands := rfl
@[simp] theorem State.modDie_tracts (n : Nat) (f : Die → Die) : (s.modDie n f).tracts = s.tracts := rfl
@[simp] theorem State.modDie_works (n : Nat) (f : Die → Die) : (s.modDie n f).works = s.works := rfl
@[simp] theorem State.modDie_pkgid (n : Nat) (f : Die → Die) : (s.modDie n f).pkgid = s.pkgid := rfl
@[simp] theorem State.modDie_contrails (n : Nat) (f : Die → Die) : (s.modDie n f).contrails = s.contrails := rfl
@[simp] theorem State.modDie_routes (n : Nat) (f : Die → Die) : (s.modDie n f).routes = s.routes := rfl
@[simp] theorem State.modDie_links (n : Nat) (f : Die → Die) : (s.modDie n f).links = s.links := rfl
@[simp] theorem State.modDie_firmware (n : Nat) (f : Die → Die) : (s.modDie n f).firmware = s.firmware := rfl
@[simp] theorem State.modDie_flash (n : Nat) (f : Die → Die) : (s.modDie n f).flash = s.flash := rfl
@[simp] theorem State.modDie_modcap (n : Nat) (f : Die → Die) : (s.modDie n f).modcap = s.modcap := rfl
@[simp] theorem State.modDie_junction (n : Nat) (f : Die → Die) : (s.modDie n f).junction = s.junction := rfl
@[simp] theorem State.modDie_islandPower (n : Nat) (f : Die → Die) : (s.modDie n f).islandPower = s.islandPower := rfl
@[simp] theorem State.modDie_islandMhz (n : Nat) (f : Die → Die) : (s.modDie n f).islandMhz = s.islandMhz := rfl
@[simp] theorem State.modDie_msix (n : Nat) (f : Die → Die) : (s.modDie n f).msix = s.msix := rfl
@[simp] theorem State.modDie_report (n : Nat) (f : Die → Die) : (s.modDie n f).report = s.report := rfl
@[simp] theorem State.modDie_clock (n : Nat) (f : Die → Die) : (s.modDie n f).clock = s.clock := rfl
@[simp] theorem State.modDie_ts (n : Nat) (f : Die → Die) : (s.modDie n f).ts = s.ts := rfl
@[simp] theorem State.modDie_focus (n : Nat) (f : Die → Die) : (s.modDie n f).focus = s.focus := rfl
@[simp] theorem State.modDie_turn (n : Nat) (f : Die → Die) : (s.modDie n f).turn = s.turn := rfl
@[simp] theorem State.modDie_inputs (n : Nat) (f : Die → Die) : (s.modDie n f).inputs = s.inputs := rfl
@[simp] theorem State.modDie_fresh (n : Nat) (f : Die → Die) : (s.modDie n f).fresh = s.fresh := rfl
@[simp] theorem State.modDie_past (n : Nat) (f : Die → Die) : (s.modDie n f).past = s.past := rfl
@[simp] theorem State.modDie_seen (n : Nat) (f : Die → Die) : (s.modDie n f).seen = s.seen := rfl
@[simp] theorem State.modDie_overSince (n : Nat) (f : Die → Die) : (s.modDie n f).overSince = s.overSince := rfl
@[simp] theorem State.modDie_pkgRst (n : Nat) (f : Die → Die) : (s.modDie n f).pkgRst = s.pkgRst := rfl
@[simp] theorem State.modDie_hostReply (n : Nat) (f : Die → Die) : (s.modDie n f).hostReply = s.hostReply := rfl
@[simp] theorem State.modDie_served (n : Nat) (f : Die → Die) : (s.modDie n f).served = s.served := rfl
@[simp] theorem State.modDie_owed (n : Nat) (f : Die → Die) : (s.modDie n f).owed = s.owed := rfl
@[simp] theorem State.modDie_uid (n : Nat) (f : Die → Die) : (s.modDie n f).uid = s.uid := rfl

/-! modCore -/

@[simp] theorem State.modCore_hbm (d c : Nat) (f : Core → Core) : (s.modCore d c f).hbm = s.hbm := rfl
@[simp] theorem State.modCore_hostMem (d c : Nat) (f : Core → Core) : (s.modCore d c f).hostMem = s.hostMem := rfl
@[simp] theorem State.modCore_stands (d c : Nat) (f : Core → Core) : (s.modCore d c f).stands = s.stands := rfl
@[simp] theorem State.modCore_tracts (d c : Nat) (f : Core → Core) : (s.modCore d c f).tracts = s.tracts := rfl
@[simp] theorem State.modCore_works (d c : Nat) (f : Core → Core) : (s.modCore d c f).works = s.works := rfl
@[simp] theorem State.modCore_pkgid (d c : Nat) (f : Core → Core) : (s.modCore d c f).pkgid = s.pkgid := rfl
@[simp] theorem State.modCore_contrails (d c : Nat) (f : Core → Core) : (s.modCore d c f).contrails = s.contrails := rfl
@[simp] theorem State.modCore_routes (d c : Nat) (f : Core → Core) : (s.modCore d c f).routes = s.routes := rfl
@[simp] theorem State.modCore_links (d c : Nat) (f : Core → Core) : (s.modCore d c f).links = s.links := rfl
@[simp] theorem State.modCore_firmware (d c : Nat) (f : Core → Core) : (s.modCore d c f).firmware = s.firmware := rfl
@[simp] theorem State.modCore_flash (d c : Nat) (f : Core → Core) : (s.modCore d c f).flash = s.flash := rfl
@[simp] theorem State.modCore_modcap (d c : Nat) (f : Core → Core) : (s.modCore d c f).modcap = s.modcap := rfl
@[simp] theorem State.modCore_junction (d c : Nat) (f : Core → Core) : (s.modCore d c f).junction = s.junction := rfl
@[simp] theorem State.modCore_islandPower (d c : Nat) (f : Core → Core) : (s.modCore d c f).islandPower = s.islandPower := rfl
@[simp] theorem State.modCore_islandMhz (d c : Nat) (f : Core → Core) : (s.modCore d c f).islandMhz = s.islandMhz := rfl
@[simp] theorem State.modCore_msix (d c : Nat) (f : Core → Core) : (s.modCore d c f).msix = s.msix := rfl
@[simp] theorem State.modCore_report (d c : Nat) (f : Core → Core) : (s.modCore d c f).report = s.report := rfl
@[simp] theorem State.modCore_clock (d c : Nat) (f : Core → Core) : (s.modCore d c f).clock = s.clock := rfl
@[simp] theorem State.modCore_ts (d c : Nat) (f : Core → Core) : (s.modCore d c f).ts = s.ts := rfl
@[simp] theorem State.modCore_focus (d c : Nat) (f : Core → Core) : (s.modCore d c f).focus = s.focus := rfl
@[simp] theorem State.modCore_turn (d c : Nat) (f : Core → Core) : (s.modCore d c f).turn = s.turn := rfl
@[simp] theorem State.modCore_inputs (d c : Nat) (f : Core → Core) : (s.modCore d c f).inputs = s.inputs := rfl
@[simp] theorem State.modCore_fresh (d c : Nat) (f : Core → Core) : (s.modCore d c f).fresh = s.fresh := rfl
@[simp] theorem State.modCore_past (d c : Nat) (f : Core → Core) : (s.modCore d c f).past = s.past := rfl
@[simp] theorem State.modCore_seen (d c : Nat) (f : Core → Core) : (s.modCore d c f).seen = s.seen := rfl
@[simp] theorem State.modCore_overSince (d c : Nat) (f : Core → Core) : (s.modCore d c f).overSince = s.overSince := rfl
@[simp] theorem State.modCore_pkgRst (d c : Nat) (f : Core → Core) : (s.modCore d c f).pkgRst = s.pkgRst := rfl
@[simp] theorem State.modCore_hostReply (d c : Nat) (f : Core → Core) : (s.modCore d c f).hostReply = s.hostReply := rfl
@[simp] theorem State.modCore_served (d c : Nat) (f : Core → Core) : (s.modCore d c f).served = s.served := rfl
@[simp] theorem State.modCore_owed (d c : Nat) (f : Core → Core) : (s.modCore d c f).owed = s.owed := rfl
@[simp] theorem State.modCore_uid (d c : Nat) (f : Core → Core) : (s.modCore d c f).uid = s.uid := rfl

/-! modGrove -/

@[simp] theorem State.modGrove_hbm (d g : Nat) (f : Grove → Grove) : (s.modGrove d g f).hbm = s.hbm := rfl
@[simp] theorem State.modGrove_hostMem (d g : Nat) (f : Grove → Grove) : (s.modGrove d g f).hostMem = s.hostMem := rfl
@[simp] theorem State.modGrove_stands (d g : Nat) (f : Grove → Grove) : (s.modGrove d g f).stands = s.stands := rfl
@[simp] theorem State.modGrove_tracts (d g : Nat) (f : Grove → Grove) : (s.modGrove d g f).tracts = s.tracts := rfl
@[simp] theorem State.modGrove_works (d g : Nat) (f : Grove → Grove) : (s.modGrove d g f).works = s.works := rfl
@[simp] theorem State.modGrove_pkgid (d g : Nat) (f : Grove → Grove) : (s.modGrove d g f).pkgid = s.pkgid := rfl
@[simp] theorem State.modGrove_contrails (d g : Nat) (f : Grove → Grove) : (s.modGrove d g f).contrails = s.contrails := rfl
@[simp] theorem State.modGrove_routes (d g : Nat) (f : Grove → Grove) : (s.modGrove d g f).routes = s.routes := rfl
@[simp] theorem State.modGrove_links (d g : Nat) (f : Grove → Grove) : (s.modGrove d g f).links = s.links := rfl
@[simp] theorem State.modGrove_firmware (d g : Nat) (f : Grove → Grove) : (s.modGrove d g f).firmware = s.firmware := rfl
@[simp] theorem State.modGrove_flash (d g : Nat) (f : Grove → Grove) : (s.modGrove d g f).flash = s.flash := rfl
@[simp] theorem State.modGrove_modcap (d g : Nat) (f : Grove → Grove) : (s.modGrove d g f).modcap = s.modcap := rfl
@[simp] theorem State.modGrove_junction (d g : Nat) (f : Grove → Grove) : (s.modGrove d g f).junction = s.junction := rfl
@[simp] theorem State.modGrove_islandPower (d g : Nat) (f : Grove → Grove) : (s.modGrove d g f).islandPower = s.islandPower := rfl
@[simp] theorem State.modGrove_islandMhz (d g : Nat) (f : Grove → Grove) : (s.modGrove d g f).islandMhz = s.islandMhz := rfl
@[simp] theorem State.modGrove_msix (d g : Nat) (f : Grove → Grove) : (s.modGrove d g f).msix = s.msix := rfl
@[simp] theorem State.modGrove_report (d g : Nat) (f : Grove → Grove) : (s.modGrove d g f).report = s.report := rfl
@[simp] theorem State.modGrove_clock (d g : Nat) (f : Grove → Grove) : (s.modGrove d g f).clock = s.clock := rfl
@[simp] theorem State.modGrove_ts (d g : Nat) (f : Grove → Grove) : (s.modGrove d g f).ts = s.ts := rfl
@[simp] theorem State.modGrove_focus (d g : Nat) (f : Grove → Grove) : (s.modGrove d g f).focus = s.focus := rfl
@[simp] theorem State.modGrove_turn (d g : Nat) (f : Grove → Grove) : (s.modGrove d g f).turn = s.turn := rfl
@[simp] theorem State.modGrove_inputs (d g : Nat) (f : Grove → Grove) : (s.modGrove d g f).inputs = s.inputs := rfl
@[simp] theorem State.modGrove_fresh (d g : Nat) (f : Grove → Grove) : (s.modGrove d g f).fresh = s.fresh := rfl
@[simp] theorem State.modGrove_past (d g : Nat) (f : Grove → Grove) : (s.modGrove d g f).past = s.past := rfl
@[simp] theorem State.modGrove_seen (d g : Nat) (f : Grove → Grove) : (s.modGrove d g f).seen = s.seen := rfl
@[simp] theorem State.modGrove_overSince (d g : Nat) (f : Grove → Grove) : (s.modGrove d g f).overSince = s.overSince := rfl
@[simp] theorem State.modGrove_pkgRst (d g : Nat) (f : Grove → Grove) : (s.modGrove d g f).pkgRst = s.pkgRst := rfl
@[simp] theorem State.modGrove_hostReply (d g : Nat) (f : Grove → Grove) : (s.modGrove d g f).hostReply = s.hostReply := rfl
@[simp] theorem State.modGrove_served (d g : Nat) (f : Grove → Grove) : (s.modGrove d g f).served = s.served := rfl
@[simp] theorem State.modGrove_owed (d g : Nat) (f : Grove → Grove) : (s.modGrove d g f).owed = s.owed := rfl
@[simp] theorem State.modGrove_uid (d g : Nat) (f : Grove → Grove) : (s.modGrove d g f).uid = s.uid := rfl

/-! modPort -/

@[simp] theorem State.modPort_hbm (d p : Nat) (f : Port → Port) : (s.modPort d p f).hbm = s.hbm := rfl
@[simp] theorem State.modPort_hostMem (d p : Nat) (f : Port → Port) : (s.modPort d p f).hostMem = s.hostMem := rfl
@[simp] theorem State.modPort_stands (d p : Nat) (f : Port → Port) : (s.modPort d p f).stands = s.stands := rfl
@[simp] theorem State.modPort_tracts (d p : Nat) (f : Port → Port) : (s.modPort d p f).tracts = s.tracts := rfl
@[simp] theorem State.modPort_works (d p : Nat) (f : Port → Port) : (s.modPort d p f).works = s.works := rfl
@[simp] theorem State.modPort_pkgid (d p : Nat) (f : Port → Port) : (s.modPort d p f).pkgid = s.pkgid := rfl
@[simp] theorem State.modPort_contrails (d p : Nat) (f : Port → Port) : (s.modPort d p f).contrails = s.contrails := rfl
@[simp] theorem State.modPort_routes (d p : Nat) (f : Port → Port) : (s.modPort d p f).routes = s.routes := rfl
@[simp] theorem State.modPort_links (d p : Nat) (f : Port → Port) : (s.modPort d p f).links = s.links := rfl
@[simp] theorem State.modPort_firmware (d p : Nat) (f : Port → Port) : (s.modPort d p f).firmware = s.firmware := rfl
@[simp] theorem State.modPort_flash (d p : Nat) (f : Port → Port) : (s.modPort d p f).flash = s.flash := rfl
@[simp] theorem State.modPort_modcap (d p : Nat) (f : Port → Port) : (s.modPort d p f).modcap = s.modcap := rfl
@[simp] theorem State.modPort_junction (d p : Nat) (f : Port → Port) : (s.modPort d p f).junction = s.junction := rfl
@[simp] theorem State.modPort_islandPower (d p : Nat) (f : Port → Port) : (s.modPort d p f).islandPower = s.islandPower := rfl
@[simp] theorem State.modPort_islandMhz (d p : Nat) (f : Port → Port) : (s.modPort d p f).islandMhz = s.islandMhz := rfl
@[simp] theorem State.modPort_msix (d p : Nat) (f : Port → Port) : (s.modPort d p f).msix = s.msix := rfl
@[simp] theorem State.modPort_report (d p : Nat) (f : Port → Port) : (s.modPort d p f).report = s.report := rfl
@[simp] theorem State.modPort_clock (d p : Nat) (f : Port → Port) : (s.modPort d p f).clock = s.clock := rfl
@[simp] theorem State.modPort_ts (d p : Nat) (f : Port → Port) : (s.modPort d p f).ts = s.ts := rfl
@[simp] theorem State.modPort_focus (d p : Nat) (f : Port → Port) : (s.modPort d p f).focus = s.focus := rfl
@[simp] theorem State.modPort_turn (d p : Nat) (f : Port → Port) : (s.modPort d p f).turn = s.turn := rfl
@[simp] theorem State.modPort_inputs (d p : Nat) (f : Port → Port) : (s.modPort d p f).inputs = s.inputs := rfl
@[simp] theorem State.modPort_fresh (d p : Nat) (f : Port → Port) : (s.modPort d p f).fresh = s.fresh := rfl
@[simp] theorem State.modPort_past (d p : Nat) (f : Port → Port) : (s.modPort d p f).past = s.past := rfl
@[simp] theorem State.modPort_seen (d p : Nat) (f : Port → Port) : (s.modPort d p f).seen = s.seen := rfl
@[simp] theorem State.modPort_overSince (d p : Nat) (f : Port → Port) : (s.modPort d p f).overSince = s.overSince := rfl
@[simp] theorem State.modPort_pkgRst (d p : Nat) (f : Port → Port) : (s.modPort d p f).pkgRst = s.pkgRst := rfl
@[simp] theorem State.modPort_hostReply (d p : Nat) (f : Port → Port) : (s.modPort d p f).hostReply = s.hostReply := rfl
@[simp] theorem State.modPort_served (d p : Nat) (f : Port → Port) : (s.modPort d p f).served = s.served := rfl
@[simp] theorem State.modPort_owed (d p : Nat) (f : Port → Port) : (s.modPort d p f).owed = s.owed := rfl
@[simp] theorem State.modPort_uid (d p : Nat) (f : Port → Port) : (s.modPort d p f).uid = s.uid := rfl

/-! modStand -/

@[simp] theorem State.modStand_hbm (n : Nat) (f : Stand → Stand) : (s.modStand n f).hbm = s.hbm := rfl
@[simp] theorem State.modStand_hostMem (n : Nat) (f : Stand → Stand) : (s.modStand n f).hostMem = s.hostMem := rfl
@[simp] theorem State.modStand_dies (n : Nat) (f : Stand → Stand) : (s.modStand n f).dies = s.dies := rfl
@[simp] theorem State.modStand_stands (n : Nat) (f : Stand → Stand) : (s.modStand n f).stands = s.stands.map fun st => if st.sid = n then f st else st := rfl
@[simp] theorem State.modStand_tracts (n : Nat) (f : Stand → Stand) : (s.modStand n f).tracts = s.tracts := rfl
@[simp] theorem State.modStand_works (n : Nat) (f : Stand → Stand) : (s.modStand n f).works = s.works := rfl
@[simp] theorem State.modStand_pkgid (n : Nat) (f : Stand → Stand) : (s.modStand n f).pkgid = s.pkgid := rfl
@[simp] theorem State.modStand_contrails (n : Nat) (f : Stand → Stand) : (s.modStand n f).contrails = s.contrails := rfl
@[simp] theorem State.modStand_routes (n : Nat) (f : Stand → Stand) : (s.modStand n f).routes = s.routes := rfl
@[simp] theorem State.modStand_links (n : Nat) (f : Stand → Stand) : (s.modStand n f).links = s.links := rfl
@[simp] theorem State.modStand_firmware (n : Nat) (f : Stand → Stand) : (s.modStand n f).firmware = s.firmware := rfl
@[simp] theorem State.modStand_flash (n : Nat) (f : Stand → Stand) : (s.modStand n f).flash = s.flash := rfl
@[simp] theorem State.modStand_modcap (n : Nat) (f : Stand → Stand) : (s.modStand n f).modcap = s.modcap := rfl
@[simp] theorem State.modStand_junction (n : Nat) (f : Stand → Stand) : (s.modStand n f).junction = s.junction := rfl
@[simp] theorem State.modStand_islandPower (n : Nat) (f : Stand → Stand) : (s.modStand n f).islandPower = s.islandPower := rfl
@[simp] theorem State.modStand_islandMhz (n : Nat) (f : Stand → Stand) : (s.modStand n f).islandMhz = s.islandMhz := rfl
@[simp] theorem State.modStand_msix (n : Nat) (f : Stand → Stand) : (s.modStand n f).msix = s.msix := rfl
@[simp] theorem State.modStand_report (n : Nat) (f : Stand → Stand) : (s.modStand n f).report = s.report := rfl
@[simp] theorem State.modStand_clock (n : Nat) (f : Stand → Stand) : (s.modStand n f).clock = s.clock := rfl
@[simp] theorem State.modStand_ts (n : Nat) (f : Stand → Stand) : (s.modStand n f).ts = s.ts := rfl
@[simp] theorem State.modStand_focus (n : Nat) (f : Stand → Stand) : (s.modStand n f).focus = s.focus := rfl
@[simp] theorem State.modStand_turn (n : Nat) (f : Stand → Stand) : (s.modStand n f).turn = s.turn := rfl
@[simp] theorem State.modStand_inputs (n : Nat) (f : Stand → Stand) : (s.modStand n f).inputs = s.inputs := rfl
@[simp] theorem State.modStand_fresh (n : Nat) (f : Stand → Stand) : (s.modStand n f).fresh = s.fresh := rfl
@[simp] theorem State.modStand_past (n : Nat) (f : Stand → Stand) : (s.modStand n f).past = s.past := rfl
@[simp] theorem State.modStand_seen (n : Nat) (f : Stand → Stand) : (s.modStand n f).seen = s.seen := rfl
@[simp] theorem State.modStand_overSince (n : Nat) (f : Stand → Stand) : (s.modStand n f).overSince = s.overSince := rfl
@[simp] theorem State.modStand_pkgRst (n : Nat) (f : Stand → Stand) : (s.modStand n f).pkgRst = s.pkgRst := rfl
@[simp] theorem State.modStand_hostReply (n : Nat) (f : Stand → Stand) : (s.modStand n f).hostReply = s.hostReply := rfl
@[simp] theorem State.modStand_served (n : Nat) (f : Stand → Stand) : (s.modStand n f).served = s.served := rfl
@[simp] theorem State.modStand_owed (n : Nat) (f : Stand → Stand) : (s.modStand n f).owed = s.owed := rfl
@[simp] theorem State.modStand_uid (n : Nat) (f : Stand → Stand) : (s.modStand n f).uid = s.uid := rfl

/-! modCord -/

@[simp] theorem State.modCord_hbm (n c : Nat) (f : Cord → Cord) : (s.modCord n c f).hbm = s.hbm := rfl
@[simp] theorem State.modCord_hostMem (n c : Nat) (f : Cord → Cord) : (s.modCord n c f).hostMem = s.hostMem := rfl
@[simp] theorem State.modCord_dies (n c : Nat) (f : Cord → Cord) : (s.modCord n c f).dies = s.dies := rfl
@[simp] theorem State.modCord_tracts (n c : Nat) (f : Cord → Cord) : (s.modCord n c f).tracts = s.tracts := rfl
@[simp] theorem State.modCord_works (n c : Nat) (f : Cord → Cord) : (s.modCord n c f).works = s.works := rfl
@[simp] theorem State.modCord_pkgid (n c : Nat) (f : Cord → Cord) : (s.modCord n c f).pkgid = s.pkgid := rfl
@[simp] theorem State.modCord_contrails (n c : Nat) (f : Cord → Cord) : (s.modCord n c f).contrails = s.contrails := rfl
@[simp] theorem State.modCord_routes (n c : Nat) (f : Cord → Cord) : (s.modCord n c f).routes = s.routes := rfl
@[simp] theorem State.modCord_links (n c : Nat) (f : Cord → Cord) : (s.modCord n c f).links = s.links := rfl
@[simp] theorem State.modCord_firmware (n c : Nat) (f : Cord → Cord) : (s.modCord n c f).firmware = s.firmware := rfl
@[simp] theorem State.modCord_flash (n c : Nat) (f : Cord → Cord) : (s.modCord n c f).flash = s.flash := rfl
@[simp] theorem State.modCord_modcap (n c : Nat) (f : Cord → Cord) : (s.modCord n c f).modcap = s.modcap := rfl
@[simp] theorem State.modCord_junction (n c : Nat) (f : Cord → Cord) : (s.modCord n c f).junction = s.junction := rfl
@[simp] theorem State.modCord_islandPower (n c : Nat) (f : Cord → Cord) : (s.modCord n c f).islandPower = s.islandPower := rfl
@[simp] theorem State.modCord_islandMhz (n c : Nat) (f : Cord → Cord) : (s.modCord n c f).islandMhz = s.islandMhz := rfl
@[simp] theorem State.modCord_msix (n c : Nat) (f : Cord → Cord) : (s.modCord n c f).msix = s.msix := rfl
@[simp] theorem State.modCord_report (n c : Nat) (f : Cord → Cord) : (s.modCord n c f).report = s.report := rfl
@[simp] theorem State.modCord_clock (n c : Nat) (f : Cord → Cord) : (s.modCord n c f).clock = s.clock := rfl
@[simp] theorem State.modCord_ts (n c : Nat) (f : Cord → Cord) : (s.modCord n c f).ts = s.ts := rfl
@[simp] theorem State.modCord_focus (n c : Nat) (f : Cord → Cord) : (s.modCord n c f).focus = s.focus := rfl
@[simp] theorem State.modCord_turn (n c : Nat) (f : Cord → Cord) : (s.modCord n c f).turn = s.turn := rfl
@[simp] theorem State.modCord_inputs (n c : Nat) (f : Cord → Cord) : (s.modCord n c f).inputs = s.inputs := rfl
@[simp] theorem State.modCord_fresh (n c : Nat) (f : Cord → Cord) : (s.modCord n c f).fresh = s.fresh := rfl
@[simp] theorem State.modCord_past (n c : Nat) (f : Cord → Cord) : (s.modCord n c f).past = s.past := rfl
@[simp] theorem State.modCord_seen (n c : Nat) (f : Cord → Cord) : (s.modCord n c f).seen = s.seen := rfl
@[simp] theorem State.modCord_overSince (n c : Nat) (f : Cord → Cord) : (s.modCord n c f).overSince = s.overSince := rfl
@[simp] theorem State.modCord_pkgRst (n c : Nat) (f : Cord → Cord) : (s.modCord n c f).pkgRst = s.pkgRst := rfl
@[simp] theorem State.modCord_hostReply (n c : Nat) (f : Cord → Cord) : (s.modCord n c f).hostReply = s.hostReply := rfl
@[simp] theorem State.modCord_served (n c : Nat) (f : Cord → Cord) : (s.modCord n c f).served = s.served := rfl
@[simp] theorem State.modCord_owed (n c : Nat) (f : Cord → Cord) : (s.modCord n c f).owed = s.owed := rfl
@[simp] theorem State.modCord_uid (n c : Nat) (f : Cord → Cord) : (s.modCord n c f).uid = s.uid := rfl

/-! modTract -/

@[simp] theorem State.modTract_hbm (n : Nat) (f : Tract → Tract) : (s.modTract n f).hbm = s.hbm := rfl
@[simp] theorem State.modTract_hostMem (n : Nat) (f : Tract → Tract) : (s.modTract n f).hostMem = s.hostMem := rfl
@[simp] theorem State.modTract_dies (n : Nat) (f : Tract → Tract) : (s.modTract n f).dies = s.dies := rfl
@[simp] theorem State.modTract_stands (n : Nat) (f : Tract → Tract) : (s.modTract n f).stands = s.stands := rfl
@[simp] theorem State.modTract_tracts (n : Nat) (f : Tract → Tract) : (s.modTract n f).tracts = s.tracts.map fun t => if t.id = n then f t else t := rfl
@[simp] theorem State.modTract_works (n : Nat) (f : Tract → Tract) : (s.modTract n f).works = s.works := rfl
@[simp] theorem State.modTract_pkgid (n : Nat) (f : Tract → Tract) : (s.modTract n f).pkgid = s.pkgid := rfl
@[simp] theorem State.modTract_contrails (n : Nat) (f : Tract → Tract) : (s.modTract n f).contrails = s.contrails := rfl
@[simp] theorem State.modTract_routes (n : Nat) (f : Tract → Tract) : (s.modTract n f).routes = s.routes := rfl
@[simp] theorem State.modTract_links (n : Nat) (f : Tract → Tract) : (s.modTract n f).links = s.links := rfl
@[simp] theorem State.modTract_firmware (n : Nat) (f : Tract → Tract) : (s.modTract n f).firmware = s.firmware := rfl
@[simp] theorem State.modTract_flash (n : Nat) (f : Tract → Tract) : (s.modTract n f).flash = s.flash := rfl
@[simp] theorem State.modTract_modcap (n : Nat) (f : Tract → Tract) : (s.modTract n f).modcap = s.modcap := rfl
@[simp] theorem State.modTract_junction (n : Nat) (f : Tract → Tract) : (s.modTract n f).junction = s.junction := rfl
@[simp] theorem State.modTract_islandPower (n : Nat) (f : Tract → Tract) : (s.modTract n f).islandPower = s.islandPower := rfl
@[simp] theorem State.modTract_islandMhz (n : Nat) (f : Tract → Tract) : (s.modTract n f).islandMhz = s.islandMhz := rfl
@[simp] theorem State.modTract_msix (n : Nat) (f : Tract → Tract) : (s.modTract n f).msix = s.msix := rfl
@[simp] theorem State.modTract_report (n : Nat) (f : Tract → Tract) : (s.modTract n f).report = s.report := rfl
@[simp] theorem State.modTract_clock (n : Nat) (f : Tract → Tract) : (s.modTract n f).clock = s.clock := rfl
@[simp] theorem State.modTract_ts (n : Nat) (f : Tract → Tract) : (s.modTract n f).ts = s.ts := rfl
@[simp] theorem State.modTract_focus (n : Nat) (f : Tract → Tract) : (s.modTract n f).focus = s.focus := rfl
@[simp] theorem State.modTract_turn (n : Nat) (f : Tract → Tract) : (s.modTract n f).turn = s.turn := rfl
@[simp] theorem State.modTract_inputs (n : Nat) (f : Tract → Tract) : (s.modTract n f).inputs = s.inputs := rfl
@[simp] theorem State.modTract_fresh (n : Nat) (f : Tract → Tract) : (s.modTract n f).fresh = s.fresh := rfl
@[simp] theorem State.modTract_past (n : Nat) (f : Tract → Tract) : (s.modTract n f).past = s.past := rfl
@[simp] theorem State.modTract_seen (n : Nat) (f : Tract → Tract) : (s.modTract n f).seen = s.seen := rfl
@[simp] theorem State.modTract_overSince (n : Nat) (f : Tract → Tract) : (s.modTract n f).overSince = s.overSince := rfl
@[simp] theorem State.modTract_pkgRst (n : Nat) (f : Tract → Tract) : (s.modTract n f).pkgRst = s.pkgRst := rfl
@[simp] theorem State.modTract_hostReply (n : Nat) (f : Tract → Tract) : (s.modTract n f).hostReply = s.hostReply := rfl
@[simp] theorem State.modTract_served (n : Nat) (f : Tract → Tract) : (s.modTract n f).served = s.served := rfl
@[simp] theorem State.modTract_owed (n : Nat) (f : Tract → Tract) : (s.modTract n f).owed = s.owed := rfl
@[simp] theorem State.modTract_uid (n : Nat) (f : Tract → Tract) : (s.modTract n f).uid = s.uid := rfl

/-! modLink -/

@[simp] theorem State.modLink_hbm (n : Nat) (f : Link → Link) : (s.modLink n f).hbm = s.hbm := rfl
@[simp] theorem State.modLink_hostMem (n : Nat) (f : Link → Link) : (s.modLink n f).hostMem = s.hostMem := rfl
@[simp] theorem State.modLink_dies (n : Nat) (f : Link → Link) : (s.modLink n f).dies = s.dies := rfl
@[simp] theorem State.modLink_stands (n : Nat) (f : Link → Link) : (s.modLink n f).stands = s.stands := rfl
@[simp] theorem State.modLink_tracts (n : Nat) (f : Link → Link) : (s.modLink n f).tracts = s.tracts := rfl
@[simp] theorem State.modLink_works (n : Nat) (f : Link → Link) : (s.modLink n f).works = s.works := rfl
@[simp] theorem State.modLink_pkgid (n : Nat) (f : Link → Link) : (s.modLink n f).pkgid = s.pkgid := rfl
@[simp] theorem State.modLink_contrails (n : Nat) (f : Link → Link) : (s.modLink n f).contrails = s.contrails := rfl
@[simp] theorem State.modLink_routes (n : Nat) (f : Link → Link) : (s.modLink n f).routes = s.routes := rfl
@[simp] theorem State.modLink_links (n : Nat) (f : Link → Link) : (s.modLink n f).links = s.links.modify n f := rfl
@[simp] theorem State.modLink_firmware (n : Nat) (f : Link → Link) : (s.modLink n f).firmware = s.firmware := rfl
@[simp] theorem State.modLink_flash (n : Nat) (f : Link → Link) : (s.modLink n f).flash = s.flash := rfl
@[simp] theorem State.modLink_modcap (n : Nat) (f : Link → Link) : (s.modLink n f).modcap = s.modcap := rfl
@[simp] theorem State.modLink_junction (n : Nat) (f : Link → Link) : (s.modLink n f).junction = s.junction := rfl
@[simp] theorem State.modLink_islandPower (n : Nat) (f : Link → Link) : (s.modLink n f).islandPower = s.islandPower := rfl
@[simp] theorem State.modLink_islandMhz (n : Nat) (f : Link → Link) : (s.modLink n f).islandMhz = s.islandMhz := rfl
@[simp] theorem State.modLink_msix (n : Nat) (f : Link → Link) : (s.modLink n f).msix = s.msix := rfl
@[simp] theorem State.modLink_report (n : Nat) (f : Link → Link) : (s.modLink n f).report = s.report := rfl
@[simp] theorem State.modLink_clock (n : Nat) (f : Link → Link) : (s.modLink n f).clock = s.clock := rfl
@[simp] theorem State.modLink_ts (n : Nat) (f : Link → Link) : (s.modLink n f).ts = s.ts := rfl
@[simp] theorem State.modLink_focus (n : Nat) (f : Link → Link) : (s.modLink n f).focus = s.focus := rfl
@[simp] theorem State.modLink_turn (n : Nat) (f : Link → Link) : (s.modLink n f).turn = s.turn := rfl
@[simp] theorem State.modLink_inputs (n : Nat) (f : Link → Link) : (s.modLink n f).inputs = s.inputs := rfl
@[simp] theorem State.modLink_fresh (n : Nat) (f : Link → Link) : (s.modLink n f).fresh = s.fresh := rfl
@[simp] theorem State.modLink_past (n : Nat) (f : Link → Link) : (s.modLink n f).past = s.past := rfl
@[simp] theorem State.modLink_seen (n : Nat) (f : Link → Link) : (s.modLink n f).seen = s.seen := rfl
@[simp] theorem State.modLink_overSince (n : Nat) (f : Link → Link) : (s.modLink n f).overSince = s.overSince := rfl
@[simp] theorem State.modLink_pkgRst (n : Nat) (f : Link → Link) : (s.modLink n f).pkgRst = s.pkgRst := rfl
@[simp] theorem State.modLink_hostReply (n : Nat) (f : Link → Link) : (s.modLink n f).hostReply = s.hostReply := rfl
@[simp] theorem State.modLink_served (n : Nat) (f : Link → Link) : (s.modLink n f).served = s.served := rfl
@[simp] theorem State.modLink_owed (n : Nat) (f : Link → Link) : (s.modLink n f).owed = s.owed := rfl
@[simp] theorem State.modLink_uid (n : Nat) (f : Link → Link) : (s.modLink n f).uid = s.uid := rfl

/-! modContrail -/

@[simp] theorem State.modContrail_hbm (n : Nat) (f : Contrail → Contrail) : (s.modContrail n f).hbm = s.hbm := rfl
@[simp] theorem State.modContrail_hostMem (n : Nat) (f : Contrail → Contrail) : (s.modContrail n f).hostMem = s.hostMem := rfl
@[simp] theorem State.modContrail_dies (n : Nat) (f : Contrail → Contrail) : (s.modContrail n f).dies = s.dies := rfl
@[simp] theorem State.modContrail_stands (n : Nat) (f : Contrail → Contrail) : (s.modContrail n f).stands = s.stands := rfl
@[simp] theorem State.modContrail_tracts (n : Nat) (f : Contrail → Contrail) : (s.modContrail n f).tracts = s.tracts := rfl
@[simp] theorem State.modContrail_works (n : Nat) (f : Contrail → Contrail) : (s.modContrail n f).works = s.works := rfl
@[simp] theorem State.modContrail_pkgid (n : Nat) (f : Contrail → Contrail) : (s.modContrail n f).pkgid = s.pkgid := rfl
@[simp] theorem State.modContrail_contrails (n : Nat) (f : Contrail → Contrail) : (s.modContrail n f).contrails = s.contrails.modify n f := rfl
@[simp] theorem State.modContrail_routes (n : Nat) (f : Contrail → Contrail) : (s.modContrail n f).routes = s.routes := rfl
@[simp] theorem State.modContrail_links (n : Nat) (f : Contrail → Contrail) : (s.modContrail n f).links = s.links := rfl
@[simp] theorem State.modContrail_firmware (n : Nat) (f : Contrail → Contrail) : (s.modContrail n f).firmware = s.firmware := rfl
@[simp] theorem State.modContrail_flash (n : Nat) (f : Contrail → Contrail) : (s.modContrail n f).flash = s.flash := rfl
@[simp] theorem State.modContrail_modcap (n : Nat) (f : Contrail → Contrail) : (s.modContrail n f).modcap = s.modcap := rfl
@[simp] theorem State.modContrail_junction (n : Nat) (f : Contrail → Contrail) : (s.modContrail n f).junction = s.junction := rfl
@[simp] theorem State.modContrail_islandPower (n : Nat) (f : Contrail → Contrail) : (s.modContrail n f).islandPower = s.islandPower := rfl
@[simp] theorem State.modContrail_islandMhz (n : Nat) (f : Contrail → Contrail) : (s.modContrail n f).islandMhz = s.islandMhz := rfl
@[simp] theorem State.modContrail_msix (n : Nat) (f : Contrail → Contrail) : (s.modContrail n f).msix = s.msix := rfl
@[simp] theorem State.modContrail_report (n : Nat) (f : Contrail → Contrail) : (s.modContrail n f).report = s.report := rfl
@[simp] theorem State.modContrail_clock (n : Nat) (f : Contrail → Contrail) : (s.modContrail n f).clock = s.clock := rfl
@[simp] theorem State.modContrail_ts (n : Nat) (f : Contrail → Contrail) : (s.modContrail n f).ts = s.ts := rfl
@[simp] theorem State.modContrail_focus (n : Nat) (f : Contrail → Contrail) : (s.modContrail n f).focus = s.focus := rfl
@[simp] theorem State.modContrail_turn (n : Nat) (f : Contrail → Contrail) : (s.modContrail n f).turn = s.turn := rfl
@[simp] theorem State.modContrail_inputs (n : Nat) (f : Contrail → Contrail) : (s.modContrail n f).inputs = s.inputs := rfl
@[simp] theorem State.modContrail_fresh (n : Nat) (f : Contrail → Contrail) : (s.modContrail n f).fresh = s.fresh := rfl
@[simp] theorem State.modContrail_past (n : Nat) (f : Contrail → Contrail) : (s.modContrail n f).past = s.past := rfl
@[simp] theorem State.modContrail_seen (n : Nat) (f : Contrail → Contrail) : (s.modContrail n f).seen = s.seen := rfl
@[simp] theorem State.modContrail_overSince (n : Nat) (f : Contrail → Contrail) : (s.modContrail n f).overSince = s.overSince := rfl
@[simp] theorem State.modContrail_pkgRst (n : Nat) (f : Contrail → Contrail) : (s.modContrail n f).pkgRst = s.pkgRst := rfl
@[simp] theorem State.modContrail_hostReply (n : Nat) (f : Contrail → Contrail) : (s.modContrail n f).hostReply = s.hostReply := rfl
@[simp] theorem State.modContrail_served (n : Nat) (f : Contrail → Contrail) : (s.modContrail n f).served = s.served := rfl
@[simp] theorem State.modContrail_owed (n : Nat) (f : Contrail → Contrail) : (s.modContrail n f).owed = s.owed := rfl
@[simp] theorem State.modContrail_uid (n : Nat) (f : Contrail → Contrail) : (s.modContrail n f).uid = s.uid := rfl

/-! addWork -/

@[simp] theorem State.addWork_hbm (w : Work) : (s.addWork w).hbm = s.hbm := rfl
@[simp] theorem State.addWork_hostMem (w : Work) : (s.addWork w).hostMem = s.hostMem := rfl
@[simp] theorem State.addWork_dies (w : Work) : (s.addWork w).dies = s.dies := rfl
@[simp] theorem State.addWork_stands (w : Work) : (s.addWork w).stands = s.stands := rfl
@[simp] theorem State.addWork_tracts (w : Work) : (s.addWork w).tracts = s.tracts := rfl
@[simp] theorem State.addWork_works (w : Work) : (s.addWork w).works = s.works ++ [{ id := s.uid, work := w }] := rfl
@[simp] theorem State.addWork_pkgid (w : Work) : (s.addWork w).pkgid = s.pkgid := rfl
@[simp] theorem State.addWork_contrails (w : Work) : (s.addWork w).contrails = s.contrails := rfl
@[simp] theorem State.addWork_routes (w : Work) : (s.addWork w).routes = s.routes := rfl
@[simp] theorem State.addWork_links (w : Work) : (s.addWork w).links = s.links := rfl
@[simp] theorem State.addWork_firmware (w : Work) : (s.addWork w).firmware = s.firmware := rfl
@[simp] theorem State.addWork_flash (w : Work) : (s.addWork w).flash = s.flash := rfl
@[simp] theorem State.addWork_modcap (w : Work) : (s.addWork w).modcap = s.modcap := rfl
@[simp] theorem State.addWork_junction (w : Work) : (s.addWork w).junction = s.junction := rfl
@[simp] theorem State.addWork_islandPower (w : Work) : (s.addWork w).islandPower = s.islandPower := rfl
@[simp] theorem State.addWork_islandMhz (w : Work) : (s.addWork w).islandMhz = s.islandMhz := rfl
@[simp] theorem State.addWork_msix (w : Work) : (s.addWork w).msix = s.msix := rfl
@[simp] theorem State.addWork_report (w : Work) : (s.addWork w).report = s.report := rfl
@[simp] theorem State.addWork_clock (w : Work) : (s.addWork w).clock = s.clock := rfl
@[simp] theorem State.addWork_ts (w : Work) : (s.addWork w).ts = s.ts := rfl
@[simp] theorem State.addWork_focus (w : Work) : (s.addWork w).focus = s.focus := rfl
@[simp] theorem State.addWork_turn (w : Work) : (s.addWork w).turn = s.turn := rfl
@[simp] theorem State.addWork_inputs (w : Work) : (s.addWork w).inputs = s.inputs := rfl
@[simp] theorem State.addWork_fresh (w : Work) : (s.addWork w).fresh = s.fresh := rfl
@[simp] theorem State.addWork_past (w : Work) : (s.addWork w).past = s.past := rfl
@[simp] theorem State.addWork_seen (w : Work) : (s.addWork w).seen = s.seen := rfl
@[simp] theorem State.addWork_overSince (w : Work) : (s.addWork w).overSince = s.overSince := rfl
@[simp] theorem State.addWork_pkgRst (w : Work) : (s.addWork w).pkgRst = s.pkgRst := rfl
@[simp] theorem State.addWork_hostReply (w : Work) : (s.addWork w).hostReply = s.hostReply := rfl
@[simp] theorem State.addWork_served (w : Work) : (s.addWork w).served = s.served := rfl
@[simp] theorem State.addWork_owed (w : Work) : (s.addWork w).owed = s.owed := rfl
@[simp] theorem State.addWork_uid (w : Work) : (s.addWork w).uid = s.uid + 1 := rfl

/-! dropWork -/

@[simp] theorem State.dropWork_hbm (n : Nat) : (s.dropWork n).hbm = s.hbm := rfl
@[simp] theorem State.dropWork_hostMem (n : Nat) : (s.dropWork n).hostMem = s.hostMem := rfl
@[simp] theorem State.dropWork_dies (n : Nat) : (s.dropWork n).dies = s.dies := rfl
@[simp] theorem State.dropWork_stands (n : Nat) : (s.dropWork n).stands = s.stands := rfl
@[simp] theorem State.dropWork_tracts (n : Nat) : (s.dropWork n).tracts = s.tracts := rfl
@[simp] theorem State.dropWork_works (n : Nat) : (s.dropWork n).works = s.works.filter fun i => i.id ≠ n := rfl
@[simp] theorem State.dropWork_pkgid (n : Nat) : (s.dropWork n).pkgid = s.pkgid := rfl
@[simp] theorem State.dropWork_contrails (n : Nat) : (s.dropWork n).contrails = s.contrails := rfl
@[simp] theorem State.dropWork_routes (n : Nat) : (s.dropWork n).routes = s.routes := rfl
@[simp] theorem State.dropWork_links (n : Nat) : (s.dropWork n).links = s.links := rfl
@[simp] theorem State.dropWork_firmware (n : Nat) : (s.dropWork n).firmware = s.firmware := rfl
@[simp] theorem State.dropWork_flash (n : Nat) : (s.dropWork n).flash = s.flash := rfl
@[simp] theorem State.dropWork_modcap (n : Nat) : (s.dropWork n).modcap = s.modcap := rfl
@[simp] theorem State.dropWork_junction (n : Nat) : (s.dropWork n).junction = s.junction := rfl
@[simp] theorem State.dropWork_islandPower (n : Nat) : (s.dropWork n).islandPower = s.islandPower := rfl
@[simp] theorem State.dropWork_islandMhz (n : Nat) : (s.dropWork n).islandMhz = s.islandMhz := rfl
@[simp] theorem State.dropWork_msix (n : Nat) : (s.dropWork n).msix = s.msix := rfl
@[simp] theorem State.dropWork_report (n : Nat) : (s.dropWork n).report = s.report := rfl
@[simp] theorem State.dropWork_clock (n : Nat) : (s.dropWork n).clock = s.clock := rfl
@[simp] theorem State.dropWork_ts (n : Nat) : (s.dropWork n).ts = s.ts := rfl
@[simp] theorem State.dropWork_focus (n : Nat) : (s.dropWork n).focus = s.focus := rfl
@[simp] theorem State.dropWork_turn (n : Nat) : (s.dropWork n).turn = s.turn := rfl
@[simp] theorem State.dropWork_inputs (n : Nat) : (s.dropWork n).inputs = s.inputs := rfl
@[simp] theorem State.dropWork_fresh (n : Nat) : (s.dropWork n).fresh = s.fresh := rfl
@[simp] theorem State.dropWork_past (n : Nat) : (s.dropWork n).past = s.past := rfl
@[simp] theorem State.dropWork_seen (n : Nat) : (s.dropWork n).seen = s.seen := rfl
@[simp] theorem State.dropWork_overSince (n : Nat) : (s.dropWork n).overSince = s.overSince := rfl
@[simp] theorem State.dropWork_pkgRst (n : Nat) : (s.dropWork n).pkgRst = s.pkgRst := rfl
@[simp] theorem State.dropWork_hostReply (n : Nat) : (s.dropWork n).hostReply = s.hostReply := rfl
@[simp] theorem State.dropWork_served (n : Nat) : (s.dropWork n).served = s.served := rfl
@[simp] theorem State.dropWork_owed (n : Nat) : (s.dropWork n).owed = s.owed := rfl
@[simp] theorem State.dropWork_uid (n : Nat) : (s.dropWork n).uid = s.uid := rfl

/-! setWork -/

@[simp] theorem State.setWork_hbm (n : Nat) (w : Work) : (s.setWork n w).hbm = s.hbm := rfl
@[simp] theorem State.setWork_hostMem (n : Nat) (w : Work) : (s.setWork n w).hostMem = s.hostMem := rfl
@[simp] theorem State.setWork_dies (n : Nat) (w : Work) : (s.setWork n w).dies = s.dies := rfl
@[simp] theorem State.setWork_stands (n : Nat) (w : Work) : (s.setWork n w).stands = s.stands := rfl
@[simp] theorem State.setWork_tracts (n : Nat) (w : Work) : (s.setWork n w).tracts = s.tracts := rfl
@[simp] theorem State.setWork_pkgid (n : Nat) (w : Work) : (s.setWork n w).pkgid = s.pkgid := rfl
@[simp] theorem State.setWork_contrails (n : Nat) (w : Work) : (s.setWork n w).contrails = s.contrails := rfl
@[simp] theorem State.setWork_routes (n : Nat) (w : Work) : (s.setWork n w).routes = s.routes := rfl
@[simp] theorem State.setWork_links (n : Nat) (w : Work) : (s.setWork n w).links = s.links := rfl
@[simp] theorem State.setWork_firmware (n : Nat) (w : Work) : (s.setWork n w).firmware = s.firmware := rfl
@[simp] theorem State.setWork_flash (n : Nat) (w : Work) : (s.setWork n w).flash = s.flash := rfl
@[simp] theorem State.setWork_modcap (n : Nat) (w : Work) : (s.setWork n w).modcap = s.modcap := rfl
@[simp] theorem State.setWork_junction (n : Nat) (w : Work) : (s.setWork n w).junction = s.junction := rfl
@[simp] theorem State.setWork_islandPower (n : Nat) (w : Work) : (s.setWork n w).islandPower = s.islandPower := rfl
@[simp] theorem State.setWork_islandMhz (n : Nat) (w : Work) : (s.setWork n w).islandMhz = s.islandMhz := rfl
@[simp] theorem State.setWork_msix (n : Nat) (w : Work) : (s.setWork n w).msix = s.msix := rfl
@[simp] theorem State.setWork_report (n : Nat) (w : Work) : (s.setWork n w).report = s.report := rfl
@[simp] theorem State.setWork_clock (n : Nat) (w : Work) : (s.setWork n w).clock = s.clock := rfl
@[simp] theorem State.setWork_ts (n : Nat) (w : Work) : (s.setWork n w).ts = s.ts := rfl
@[simp] theorem State.setWork_focus (n : Nat) (w : Work) : (s.setWork n w).focus = s.focus := rfl
@[simp] theorem State.setWork_turn (n : Nat) (w : Work) : (s.setWork n w).turn = s.turn := rfl
@[simp] theorem State.setWork_inputs (n : Nat) (w : Work) : (s.setWork n w).inputs = s.inputs := rfl
@[simp] theorem State.setWork_fresh (n : Nat) (w : Work) : (s.setWork n w).fresh = s.fresh := rfl
@[simp] theorem State.setWork_past (n : Nat) (w : Work) : (s.setWork n w).past = s.past := rfl
@[simp] theorem State.setWork_seen (n : Nat) (w : Work) : (s.setWork n w).seen = s.seen := rfl
@[simp] theorem State.setWork_overSince (n : Nat) (w : Work) : (s.setWork n w).overSince = s.overSince := rfl
@[simp] theorem State.setWork_pkgRst (n : Nat) (w : Work) : (s.setWork n w).pkgRst = s.pkgRst := rfl
@[simp] theorem State.setWork_hostReply (n : Nat) (w : Work) : (s.setWork n w).hostReply = s.hostReply := rfl
@[simp] theorem State.setWork_served (n : Nat) (w : Work) : (s.setWork n w).served = s.served := rfl
@[simp] theorem State.setWork_owed (n : Nat) (w : Work) : (s.setWork n w).owed = s.owed := rfl
@[simp] theorem State.setWork_uid (n : Nat) (w : Work) : (s.setWork n w).uid = s.uid := rfl

/-! draw -/

@[simp] theorem State.draw_hbm : (s.draw).hbm = s.hbm := rfl
@[simp] theorem State.draw_hostMem : (s.draw).hostMem = s.hostMem := rfl
@[simp] theorem State.draw_dies : (s.draw).dies = s.dies := rfl
@[simp] theorem State.draw_stands : (s.draw).stands = s.stands := rfl
@[simp] theorem State.draw_tracts : (s.draw).tracts = s.tracts := rfl
@[simp] theorem State.draw_works : (s.draw).works = s.works := rfl
@[simp] theorem State.draw_pkgid : (s.draw).pkgid = s.pkgid := rfl
@[simp] theorem State.draw_contrails : (s.draw).contrails = s.contrails := rfl
@[simp] theorem State.draw_routes : (s.draw).routes = s.routes := rfl
@[simp] theorem State.draw_links : (s.draw).links = s.links := rfl
@[simp] theorem State.draw_firmware : (s.draw).firmware = s.firmware := rfl
@[simp] theorem State.draw_flash : (s.draw).flash = s.flash := rfl
@[simp] theorem State.draw_modcap : (s.draw).modcap = s.modcap := rfl
@[simp] theorem State.draw_junction : (s.draw).junction = s.junction := rfl
@[simp] theorem State.draw_islandPower : (s.draw).islandPower = s.islandPower := rfl
@[simp] theorem State.draw_islandMhz : (s.draw).islandMhz = s.islandMhz := rfl
@[simp] theorem State.draw_msix : (s.draw).msix = s.msix := rfl
@[simp] theorem State.draw_report : (s.draw).report = s.report := rfl
@[simp] theorem State.draw_clock : (s.draw).clock = s.clock := rfl
@[simp] theorem State.draw_ts : (s.draw).ts = s.ts := rfl
@[simp] theorem State.draw_focus : (s.draw).focus = s.focus := rfl
@[simp] theorem State.draw_turn : (s.draw).turn = s.turn := rfl
@[simp] theorem State.draw_inputs : (s.draw).inputs = s.inputs := rfl
@[simp] theorem State.draw_fresh : (s.draw).fresh = s.fresh + 1 := rfl
@[simp] theorem State.draw_past : (s.draw).past = s.past := rfl
@[simp] theorem State.draw_seen : (s.draw).seen = s.seen := rfl
@[simp] theorem State.draw_overSince : (s.draw).overSince = s.overSince := rfl
@[simp] theorem State.draw_pkgRst : (s.draw).pkgRst = s.pkgRst := rfl
@[simp] theorem State.draw_hostReply : (s.draw).hostReply = s.hostReply := rfl
@[simp] theorem State.draw_served : (s.draw).served = s.served := rfl
@[simp] theorem State.draw_owed : (s.draw).owed = s.owed := rfl
@[simp] theorem State.draw_uid : (s.draw).uid = s.uid := rfl

/-! keep -/

@[simp] theorem State.keep_hbm (f : Focus) : (s.keep f).hbm = s.hbm := rfl
@[simp] theorem State.keep_hostMem (f : Focus) : (s.keep f).hostMem = s.hostMem := rfl
@[simp] theorem State.keep_dies (f : Focus) : (s.keep f).dies = s.dies := rfl
@[simp] theorem State.keep_stands (f : Focus) : (s.keep f).stands = s.stands := rfl
@[simp] theorem State.keep_tracts (f : Focus) : (s.keep f).tracts = s.tracts := rfl
@[simp] theorem State.keep_works (f : Focus) : (s.keep f).works = s.works := rfl
@[simp] theorem State.keep_pkgid (f : Focus) : (s.keep f).pkgid = s.pkgid := rfl
@[simp] theorem State.keep_contrails (f : Focus) : (s.keep f).contrails = s.contrails := rfl
@[simp] theorem State.keep_routes (f : Focus) : (s.keep f).routes = s.routes := rfl
@[simp] theorem State.keep_links (f : Focus) : (s.keep f).links = s.links := rfl
@[simp] theorem State.keep_firmware (f : Focus) : (s.keep f).firmware = s.firmware := rfl
@[simp] theorem State.keep_flash (f : Focus) : (s.keep f).flash = s.flash := rfl
@[simp] theorem State.keep_modcap (f : Focus) : (s.keep f).modcap = s.modcap := rfl
@[simp] theorem State.keep_junction (f : Focus) : (s.keep f).junction = s.junction := rfl
@[simp] theorem State.keep_islandPower (f : Focus) : (s.keep f).islandPower = s.islandPower := rfl
@[simp] theorem State.keep_islandMhz (f : Focus) : (s.keep f).islandMhz = s.islandMhz := rfl
@[simp] theorem State.keep_msix (f : Focus) : (s.keep f).msix = s.msix := rfl
@[simp] theorem State.keep_report (f : Focus) : (s.keep f).report = s.report := rfl
@[simp] theorem State.keep_clock (f : Focus) : (s.keep f).clock = s.clock := rfl
@[simp] theorem State.keep_ts (f : Focus) : (s.keep f).ts = s.ts := rfl
@[simp] theorem State.keep_focus (f : Focus) : (s.keep f).focus = some f := rfl
@[simp] theorem State.keep_turn (f : Focus) : (s.keep f).turn = s.turn := rfl
@[simp] theorem State.keep_inputs (f : Focus) : (s.keep f).inputs = s.inputs := rfl
@[simp] theorem State.keep_fresh (f : Focus) : (s.keep f).fresh = s.fresh := rfl
@[simp] theorem State.keep_past (f : Focus) : (s.keep f).past = s.past := rfl
@[simp] theorem State.keep_seen (f : Focus) : (s.keep f).seen = s.seen := rfl
@[simp] theorem State.keep_overSince (f : Focus) : (s.keep f).overSince = s.overSince := rfl
@[simp] theorem State.keep_pkgRst (f : Focus) : (s.keep f).pkgRst = s.pkgRst := rfl
@[simp] theorem State.keep_hostReply (f : Focus) : (s.keep f).hostReply = s.hostReply := rfl
@[simp] theorem State.keep_served (f : Focus) : (s.keep f).served = s.served := rfl
@[simp] theorem State.keep_owed (f : Focus) : (s.keep f).owed = s.owed := rfl
@[simp] theorem State.keep_uid (f : Focus) : (s.keep f).uid = s.uid := rfl

/-! seat -/

@[simp] theorem State.seat_hbm (st : Stand) : (s.seat st).hbm = s.hbm := rfl
@[simp] theorem State.seat_hostMem (st : Stand) : (s.seat st).hostMem = s.hostMem := rfl
@[simp] theorem State.seat_dies (st : Stand) : (s.seat st).dies = s.dies := rfl
@[simp] theorem State.seat_stands (st : Stand) : (s.seat st).stands = st :: s.stands := rfl
@[simp] theorem State.seat_tracts (st : Stand) : (s.seat st).tracts = s.tracts := rfl
@[simp] theorem State.seat_works (st : Stand) : (s.seat st).works = s.works := rfl
@[simp] theorem State.seat_pkgid (st : Stand) : (s.seat st).pkgid = s.pkgid := rfl
@[simp] theorem State.seat_contrails (st : Stand) : (s.seat st).contrails = s.contrails := rfl
@[simp] theorem State.seat_routes (st : Stand) : (s.seat st).routes = s.routes := rfl
@[simp] theorem State.seat_links (st : Stand) : (s.seat st).links = s.links := rfl
@[simp] theorem State.seat_firmware (st : Stand) : (s.seat st).firmware = s.firmware := rfl
@[simp] theorem State.seat_flash (st : Stand) : (s.seat st).flash = s.flash := rfl
@[simp] theorem State.seat_modcap (st : Stand) : (s.seat st).modcap = s.modcap := rfl
@[simp] theorem State.seat_junction (st : Stand) : (s.seat st).junction = s.junction := rfl
@[simp] theorem State.seat_islandPower (st : Stand) : (s.seat st).islandPower = s.islandPower := rfl
@[simp] theorem State.seat_islandMhz (st : Stand) : (s.seat st).islandMhz = s.islandMhz := rfl
@[simp] theorem State.seat_msix (st : Stand) : (s.seat st).msix = s.msix := rfl
@[simp] theorem State.seat_report (st : Stand) : (s.seat st).report = s.report := rfl
@[simp] theorem State.seat_clock (st : Stand) : (s.seat st).clock = s.clock := rfl
@[simp] theorem State.seat_ts (st : Stand) : (s.seat st).ts = s.ts := rfl
@[simp] theorem State.seat_focus (st : Stand) : (s.seat st).focus = none := rfl
@[simp] theorem State.seat_turn (st : Stand) : (s.seat st).turn = s.turn := rfl
@[simp] theorem State.seat_inputs (st : Stand) : (s.seat st).inputs = s.inputs := rfl
@[simp] theorem State.seat_fresh (st : Stand) : (s.seat st).fresh = s.fresh := rfl
@[simp] theorem State.seat_past (st : Stand) : (s.seat st).past = s.past := rfl
@[simp] theorem State.seat_seen (st : Stand) : (s.seat st).seen = s.seen := rfl
@[simp] theorem State.seat_overSince (st : Stand) : (s.seat st).overSince = s.overSince := rfl
@[simp] theorem State.seat_pkgRst (st : Stand) : (s.seat st).pkgRst = s.pkgRst := rfl
@[simp] theorem State.seat_hostReply (st : Stand) : (s.seat st).hostReply = s.hostReply := rfl
@[simp] theorem State.seat_served (st : Stand) : (s.seat st).served = s.served := rfl
@[simp] theorem State.seat_owed (st : Stand) : (s.seat st).owed = s.owed := rfl
@[simp] theorem State.seat_uid (st : Stand) : (s.seat st).uid = s.uid := rfl

/-! raiseMsix -/

@[simp] theorem State.raiseMsix_hbm (n : Nat) : (s.raiseMsix n).hbm = s.hbm := rfl
@[simp] theorem State.raiseMsix_hostMem (n : Nat) : (s.raiseMsix n).hostMem = s.hostMem := rfl
@[simp] theorem State.raiseMsix_dies (n : Nat) : (s.raiseMsix n).dies = s.dies := rfl
@[simp] theorem State.raiseMsix_stands (n : Nat) : (s.raiseMsix n).stands = s.stands := rfl
@[simp] theorem State.raiseMsix_tracts (n : Nat) : (s.raiseMsix n).tracts = s.tracts := rfl
@[simp] theorem State.raiseMsix_works (n : Nat) : (s.raiseMsix n).works = s.works := rfl
@[simp] theorem State.raiseMsix_pkgid (n : Nat) : (s.raiseMsix n).pkgid = s.pkgid := rfl
@[simp] theorem State.raiseMsix_contrails (n : Nat) : (s.raiseMsix n).contrails = s.contrails := rfl
@[simp] theorem State.raiseMsix_routes (n : Nat) : (s.raiseMsix n).routes = s.routes := rfl
@[simp] theorem State.raiseMsix_links (n : Nat) : (s.raiseMsix n).links = s.links := rfl
@[simp] theorem State.raiseMsix_firmware (n : Nat) : (s.raiseMsix n).firmware = s.firmware := rfl
@[simp] theorem State.raiseMsix_flash (n : Nat) : (s.raiseMsix n).flash = s.flash := rfl
@[simp] theorem State.raiseMsix_modcap (n : Nat) : (s.raiseMsix n).modcap = s.modcap := rfl
@[simp] theorem State.raiseMsix_junction (n : Nat) : (s.raiseMsix n).junction = s.junction := rfl
@[simp] theorem State.raiseMsix_islandPower (n : Nat) : (s.raiseMsix n).islandPower = s.islandPower := rfl
@[simp] theorem State.raiseMsix_islandMhz (n : Nat) : (s.raiseMsix n).islandMhz = s.islandMhz := rfl
@[simp] theorem State.raiseMsix_msix (n : Nat) : (s.raiseMsix n).msix = n :: s.msix := rfl
@[simp] theorem State.raiseMsix_report (n : Nat) : (s.raiseMsix n).report = s.report := rfl
@[simp] theorem State.raiseMsix_clock (n : Nat) : (s.raiseMsix n).clock = s.clock := rfl
@[simp] theorem State.raiseMsix_ts (n : Nat) : (s.raiseMsix n).ts = s.ts := rfl
@[simp] theorem State.raiseMsix_focus (n : Nat) : (s.raiseMsix n).focus = s.focus := rfl
@[simp] theorem State.raiseMsix_turn (n : Nat) : (s.raiseMsix n).turn = s.turn := rfl
@[simp] theorem State.raiseMsix_inputs (n : Nat) : (s.raiseMsix n).inputs = s.inputs := rfl
@[simp] theorem State.raiseMsix_fresh (n : Nat) : (s.raiseMsix n).fresh = s.fresh := rfl
@[simp] theorem State.raiseMsix_past (n : Nat) : (s.raiseMsix n).past = s.past := rfl
@[simp] theorem State.raiseMsix_seen (n : Nat) : (s.raiseMsix n).seen = s.seen := rfl
@[simp] theorem State.raiseMsix_overSince (n : Nat) : (s.raiseMsix n).overSince = s.overSince := rfl
@[simp] theorem State.raiseMsix_pkgRst (n : Nat) : (s.raiseMsix n).pkgRst = s.pkgRst := rfl
@[simp] theorem State.raiseMsix_hostReply (n : Nat) : (s.raiseMsix n).hostReply = s.hostReply := rfl
@[simp] theorem State.raiseMsix_served (n : Nat) : (s.raiseMsix n).served = s.served := rfl
@[simp] theorem State.raiseMsix_owed (n : Nat) : (s.raiseMsix n).owed = s.owed := rfl
@[simp] theorem State.raiseMsix_uid (n : Nat) : (s.raiseMsix n).uid = s.uid := rfl

/-! tick -/

@[simp] theorem State.tick_hbm : (s.tick).hbm = s.hbm := rfl
@[simp] theorem State.tick_hostMem : (s.tick).hostMem = s.hostMem := rfl
@[simp] theorem State.tick_dies : (s.tick).dies = s.dies := rfl
@[simp] theorem State.tick_stands : (s.tick).stands = s.stands := rfl
@[simp] theorem State.tick_tracts : (s.tick).tracts = s.tracts := rfl
@[simp] theorem State.tick_works : (s.tick).works = s.works := rfl
@[simp] theorem State.tick_pkgid : (s.tick).pkgid = s.pkgid := rfl
@[simp] theorem State.tick_contrails : (s.tick).contrails = s.contrails := rfl
@[simp] theorem State.tick_routes : (s.tick).routes = s.routes := rfl
@[simp] theorem State.tick_links : (s.tick).links = s.links := rfl
@[simp] theorem State.tick_firmware : (s.tick).firmware = s.firmware := rfl
@[simp] theorem State.tick_flash : (s.tick).flash = s.flash := rfl
@[simp] theorem State.tick_modcap : (s.tick).modcap = s.modcap := rfl
@[simp] theorem State.tick_junction : (s.tick).junction = s.junction := rfl
@[simp] theorem State.tick_islandPower : (s.tick).islandPower = s.islandPower := rfl
@[simp] theorem State.tick_islandMhz : (s.tick).islandMhz = s.islandMhz := rfl
@[simp] theorem State.tick_msix : (s.tick).msix = s.msix := rfl
@[simp] theorem State.tick_report : (s.tick).report = s.report := rfl
@[simp] theorem State.tick_clock : (s.tick).clock = s.clock + 1 := rfl
@[simp] theorem State.tick_focus : (s.tick).focus = s.focus := rfl
@[simp] theorem State.tick_turn : (s.tick).turn = false := rfl
@[simp] theorem State.tick_inputs : (s.tick).inputs = s.inputs := rfl
@[simp] theorem State.tick_fresh : (s.tick).fresh = s.fresh := rfl
@[simp] theorem State.tick_past : (s.tick).past = s.past := rfl
@[simp] theorem State.tick_seen : (s.tick).seen = s.seen := rfl
@[simp] theorem State.tick_overSince : (s.tick).overSince = s.overSince := rfl
@[simp] theorem State.tick_pkgRst : (s.tick).pkgRst = s.pkgRst := rfl
@[simp] theorem State.tick_hostReply : (s.tick).hostReply = s.hostReply := rfl
@[simp] theorem State.tick_served : (s.tick).served = s.served := rfl
@[simp] theorem State.tick_owed : (s.tick).owed = s.owed := rfl
@[simp] theorem State.tick_uid : (s.tick).uid = s.uid := rfl

/-! post -/

/-- A record that goes to a ring changes host memory, the vectors raised and the dies, and nothing else (R404). -/
theorem State.ringPut_keeps (d : Nat) (e : Event) (t : DWord) {α : Type} (p : State → α)
    (h : ∀ (s : State) m v x, p { s with hostMem := m, msix := v, dies := x } = p s) : p (s.ringPut d e t) = p s := h s _ _ _

theorem State.ringMove_keeps (d : Nat) {α : Type} (p : State → α)
    (h : ∀ (s : State) m v x, p { s with hostMem := m, msix := v, dies := x } = p s) : p (s.ringMove d) = p s := by
  unfold State.ringMove
  dsimp only
  split
  · rfl
  · split
    · exact (h _ (State.hostMem _) (State.msix _) _).trans (s.ringPut_keeps d _ _ p h)
    · rfl

/-- Posting a record changes host memory, the vectors raised and the dies, and nothing else (R404). -/
theorem State.post_keeps (d : Nat) (e : Event) {α : Type} (p : State → α)
    (h : ∀ (s : State) m v x, p { s with hostMem := m, msix := v, dies := x } = p s) : p (s.post d e) = p s := by
  have moves (l : List Nat) : ∀ s : State, p (l.foldl (fun s _ => s.ringMove d) s) = p s := by
    induction l with
    | nil => exact fun _ => rfl
    | cons _ _ ih => exact fun s => (ih _).trans (s.ringMove_keeps d p h)
  unfold State.post
  dsimp only
  split
  · exact (State.ringPut_keeps _ d e _ p h).trans (moves _ s)
  · exact (h _ (State.hostMem _) (State.msix _) _).trans (moves _ s)

@[simp] theorem State.post_hbm (d : Nat) (e : Event) : (s.post d e).hbm = s.hbm := s.post_keeps d e State.hbm fun _ _ _ _ => rfl
@[simp] theorem State.post_stands (d : Nat) (e : Event) : (s.post d e).stands = s.stands := s.post_keeps d e State.stands fun _ _ _ _ => rfl
@[simp] theorem State.post_tracts (d : Nat) (e : Event) : (s.post d e).tracts = s.tracts := s.post_keeps d e State.tracts fun _ _ _ _ => rfl
@[simp] theorem State.post_works (d : Nat) (e : Event) : (s.post d e).works = s.works := s.post_keeps d e State.works fun _ _ _ _ => rfl
@[simp] theorem State.post_pkgid (d : Nat) (e : Event) : (s.post d e).pkgid = s.pkgid := s.post_keeps d e State.pkgid fun _ _ _ _ => rfl
@[simp] theorem State.post_contrails (d : Nat) (e : Event) : (s.post d e).contrails = s.contrails := s.post_keeps d e State.contrails fun _ _ _ _ => rfl
@[simp] theorem State.post_routes (d : Nat) (e : Event) : (s.post d e).routes = s.routes := s.post_keeps d e State.routes fun _ _ _ _ => rfl
@[simp] theorem State.post_links (d : Nat) (e : Event) : (s.post d e).links = s.links := s.post_keeps d e State.links fun _ _ _ _ => rfl
@[simp] theorem State.post_firmware (d : Nat) (e : Event) : (s.post d e).firmware = s.firmware := s.post_keeps d e State.firmware fun _ _ _ _ => rfl
@[simp] theorem State.post_flash (d : Nat) (e : Event) : (s.post d e).flash = s.flash := s.post_keeps d e State.flash fun _ _ _ _ => rfl
@[simp] theorem State.post_modcap (d : Nat) (e : Event) : (s.post d e).modcap = s.modcap := s.post_keeps d e State.modcap fun _ _ _ _ => rfl
@[simp] theorem State.post_junction (d : Nat) (e : Event) : (s.post d e).junction = s.junction := s.post_keeps d e State.junction fun _ _ _ _ => rfl
@[simp] theorem State.post_islandPower (d : Nat) (e : Event) : (s.post d e).islandPower = s.islandPower := s.post_keeps d e State.islandPower fun _ _ _ _ => rfl
@[simp] theorem State.post_islandMhz (d : Nat) (e : Event) : (s.post d e).islandMhz = s.islandMhz := s.post_keeps d e State.islandMhz fun _ _ _ _ => rfl
@[simp] theorem State.post_report (d : Nat) (e : Event) : (s.post d e).report = s.report := s.post_keeps d e State.report fun _ _ _ _ => rfl
@[simp] theorem State.post_clock (d : Nat) (e : Event) : (s.post d e).clock = s.clock := s.post_keeps d e State.clock fun _ _ _ _ => rfl
@[simp] theorem State.post_ts (d : Nat) (e : Event) : (s.post d e).ts = s.ts := s.post_keeps d e State.ts fun _ _ _ _ => rfl
@[simp] theorem State.post_focus (d : Nat) (e : Event) : (s.post d e).focus = s.focus := s.post_keeps d e State.focus fun _ _ _ _ => rfl
@[simp] theorem State.post_turn (d : Nat) (e : Event) : (s.post d e).turn = s.turn := s.post_keeps d e State.turn fun _ _ _ _ => rfl
@[simp] theorem State.post_inputs (d : Nat) (e : Event) : (s.post d e).inputs = s.inputs := s.post_keeps d e State.inputs fun _ _ _ _ => rfl
@[simp] theorem State.post_fresh (d : Nat) (e : Event) : (s.post d e).fresh = s.fresh := s.post_keeps d e State.fresh fun _ _ _ _ => rfl
@[simp] theorem State.post_past (d : Nat) (e : Event) : (s.post d e).past = s.past := s.post_keeps d e State.past fun _ _ _ _ => rfl
@[simp] theorem State.post_seen (d : Nat) (e : Event) : (s.post d e).seen = s.seen := s.post_keeps d e State.seen fun _ _ _ _ => rfl
@[simp] theorem State.post_overSince (d : Nat) (e : Event) : (s.post d e).overSince = s.overSince := s.post_keeps d e State.overSince fun _ _ _ _ => rfl
@[simp] theorem State.post_pkgRst (d : Nat) (e : Event) : (s.post d e).pkgRst = s.pkgRst := s.post_keeps d e State.pkgRst fun _ _ _ _ => rfl
@[simp] theorem State.post_hostReply (d : Nat) (e : Event) : (s.post d e).hostReply = s.hostReply := s.post_keeps d e State.hostReply fun _ _ _ _ => rfl
@[simp] theorem State.post_served (d : Nat) (e : Event) : (s.post d e).served = s.served := s.post_keeps d e State.served fun _ _ _ _ => rfl
@[simp] theorem State.post_owed (d : Nat) (e : Event) : (s.post d e).owed = s.owed := s.post_keeps d e State.owed fun _ _ _ _ => rfl
@[simp] theorem State.post_uid (d : Nat) (e : Event) : (s.post d e).uid = s.uid := s.post_keeps d e State.uid fun _ _ _ _ => rfl

/-! forget -/

@[simp] theorem State.forget_hbm (h n : Nat) : (s.forget h n).hbm = s.hbm := rfl
@[simp] theorem State.forget_hostMem (h n : Nat) : (s.forget h n).hostMem = s.hostMem := rfl
@[simp] theorem State.forget_dies (h n : Nat) : (s.forget h n).dies = s.dies := rfl
@[simp] theorem State.forget_stands (h n : Nat) : (s.forget h n).stands = s.stands := rfl
@[simp] theorem State.forget_tracts (h n : Nat) : (s.forget h n).tracts = s.tracts := rfl
@[simp] theorem State.forget_works (h n : Nat) : (s.forget h n).works = s.works := rfl
@[simp] theorem State.forget_pkgid (h n : Nat) : (s.forget h n).pkgid = s.pkgid := rfl
@[simp] theorem State.forget_contrails (h n : Nat) : (s.forget h n).contrails = s.contrails := rfl
@[simp] theorem State.forget_routes (h n : Nat) : (s.forget h n).routes = s.routes := rfl
@[simp] theorem State.forget_links (h n : Nat) : (s.forget h n).links = s.links := rfl
@[simp] theorem State.forget_firmware (h n : Nat) : (s.forget h n).firmware = s.firmware := rfl
@[simp] theorem State.forget_flash (h n : Nat) : (s.forget h n).flash = s.flash := rfl
@[simp] theorem State.forget_modcap (h n : Nat) : (s.forget h n).modcap = s.modcap := rfl
@[simp] theorem State.forget_junction (h n : Nat) : (s.forget h n).junction = s.junction := rfl
@[simp] theorem State.forget_islandPower (h n : Nat) : (s.forget h n).islandPower = s.islandPower := rfl
@[simp] theorem State.forget_islandMhz (h n : Nat) : (s.forget h n).islandMhz = s.islandMhz := rfl
@[simp] theorem State.forget_overSince (h n : Nat) : (s.forget h n).overSince = s.overSince := rfl
@[simp] theorem State.forget_pkgRst (h n : Nat) : (s.forget h n).pkgRst = s.pkgRst := rfl
@[simp] theorem State.forget_msix (h n : Nat) : (s.forget h n).msix = s.msix := rfl
@[simp] theorem State.forget_report (h n : Nat) : (s.forget h n).report = s.report := rfl
@[simp] theorem State.forget_hostReply (h n : Nat) : (s.forget h n).hostReply = s.hostReply := rfl
@[simp] theorem State.forget_clock (h n : Nat) : (s.forget h n).clock = s.clock := rfl
@[simp] theorem State.forget_ts (h n : Nat) : (s.forget h n).ts = s.ts := rfl
@[simp] theorem State.forget_focus (h n : Nat) : (s.forget h n).focus = s.focus := rfl
@[simp] theorem State.forget_turn (h n : Nat) : (s.forget h n).turn = s.turn := rfl
@[simp] theorem State.forget_inputs (h n : Nat) : (s.forget h n).inputs = s.inputs := rfl
@[simp] theorem State.forget_served (h n : Nat) : (s.forget h n).served = s.served := rfl
@[simp] theorem State.forget_owed (h n : Nat) : (s.forget h n).owed = s.owed := rfl
@[simp] theorem State.forget_fresh (h n : Nat) : (s.forget h n).fresh = s.fresh := rfl
@[simp] theorem State.forget_uid (h n : Nat) : (s.forget h n).uid = s.uid := rfl

/-! answerHost -/

@[simp] theorem State.answerHost_hbm (r : HostReply) : (s.answerHost r).hbm = s.hbm := rfl
@[simp] theorem State.answerHost_hostMem (r : HostReply) : (s.answerHost r).hostMem = s.hostMem := rfl
@[simp] theorem State.answerHost_past (r : HostReply) : (s.answerHost r).past = s.past := rfl
@[simp] theorem State.answerHost_seen (r : HostReply) : (s.answerHost r).seen = s.seen := rfl
@[simp] theorem State.answerHost_dies (r : HostReply) : (s.answerHost r).dies = s.dies := rfl
@[simp] theorem State.answerHost_stands (r : HostReply) : (s.answerHost r).stands = s.stands := rfl
@[simp] theorem State.answerHost_tracts (r : HostReply) : (s.answerHost r).tracts = s.tracts := rfl
@[simp] theorem State.answerHost_works (r : HostReply) : (s.answerHost r).works = s.works := rfl
@[simp] theorem State.answerHost_pkgid (r : HostReply) : (s.answerHost r).pkgid = s.pkgid := rfl
@[simp] theorem State.answerHost_contrails (r : HostReply) : (s.answerHost r).contrails = s.contrails := rfl
@[simp] theorem State.answerHost_routes (r : HostReply) : (s.answerHost r).routes = s.routes := rfl
@[simp] theorem State.answerHost_links (r : HostReply) : (s.answerHost r).links = s.links := rfl
@[simp] theorem State.answerHost_firmware (r : HostReply) : (s.answerHost r).firmware = s.firmware := rfl
@[simp] theorem State.answerHost_flash (r : HostReply) : (s.answerHost r).flash = s.flash := rfl
@[simp] theorem State.answerHost_modcap (r : HostReply) : (s.answerHost r).modcap = s.modcap := rfl
@[simp] theorem State.answerHost_junction (r : HostReply) : (s.answerHost r).junction = s.junction := rfl
@[simp] theorem State.answerHost_islandPower (r : HostReply) : (s.answerHost r).islandPower = s.islandPower := rfl
@[simp] theorem State.answerHost_islandMhz (r : HostReply) : (s.answerHost r).islandMhz = s.islandMhz := rfl
@[simp] theorem State.answerHost_overSince (r : HostReply) : (s.answerHost r).overSince = s.overSince := rfl
@[simp] theorem State.answerHost_pkgRst (r : HostReply) : (s.answerHost r).pkgRst = s.pkgRst := rfl
@[simp] theorem State.answerHost_msix (r : HostReply) : (s.answerHost r).msix = s.msix := rfl
@[simp] theorem State.answerHost_report (r : HostReply) : (s.answerHost r).report = s.report := rfl
@[simp] theorem State.answerHost_hostReply (r : HostReply) : (s.answerHost r).hostReply = some r := rfl
@[simp] theorem State.answerHost_clock (r : HostReply) : (s.answerHost r).clock = s.clock := rfl
@[simp] theorem State.answerHost_ts (r : HostReply) : (s.answerHost r).ts = s.ts := rfl
@[simp] theorem State.answerHost_focus (r : HostReply) : (s.answerHost r).focus = s.focus := rfl
@[simp] theorem State.answerHost_turn (r : HostReply) : (s.answerHost r).turn = s.turn := rfl
@[simp] theorem State.answerHost_inputs (r : HostReply) : (s.answerHost r).inputs = s.inputs := rfl
@[simp] theorem State.answerHost_served (r : HostReply) : (s.answerHost r).served = s.served := rfl
@[simp] theorem State.answerHost_owed (r : HostReply) : (s.answerHost r).owed = s.owed := rfl
@[simp] theorem State.answerHost_fresh (r : HostReply) : (s.answerHost r).fresh = s.fresh := rfl
@[simp] theorem State.answerHost_uid (r : HostReply) : (s.answerHost r).uid = s.uid := rfl

/-! sense -/

@[simp] theorem State.sense_hbm : (s.sense).hbm = s.hbm := rfl
@[simp] theorem State.sense_hostMem : (s.sense).hostMem = s.hostMem := rfl
@[simp] theorem State.sense_past : (s.sense).past = s.past := rfl
@[simp] theorem State.sense_seen : (s.sense).seen = s.seen := rfl
@[simp] theorem State.sense_dies : (s.sense).dies = s.dies := rfl
@[simp] theorem State.sense_stands : (s.sense).stands = s.stands := rfl
@[simp] theorem State.sense_tracts : (s.sense).tracts = s.tracts := rfl
@[simp] theorem State.sense_works : (s.sense).works = s.works := rfl
@[simp] theorem State.sense_pkgid : (s.sense).pkgid = s.pkgid := rfl
@[simp] theorem State.sense_contrails : (s.sense).contrails = s.contrails := rfl
@[simp] theorem State.sense_routes : (s.sense).routes = s.routes := rfl
@[simp] theorem State.sense_links : (s.sense).links = s.links := rfl
@[simp] theorem State.sense_firmware : (s.sense).firmware = s.firmware := rfl
@[simp] theorem State.sense_flash : (s.sense).flash = s.flash := rfl
@[simp] theorem State.sense_modcap : (s.sense).modcap = s.modcap := rfl
@[simp] theorem State.sense_islandMhz : (s.sense).islandMhz = s.islandMhz := rfl
@[simp] theorem State.sense_msix : (s.sense).msix = s.msix := rfl
@[simp] theorem State.sense_report : (s.sense).report = s.report := rfl
@[simp] theorem State.sense_hostReply : (s.sense).hostReply = s.hostReply := rfl
@[simp] theorem State.sense_clock : (s.sense).clock = s.clock := rfl
@[simp] theorem State.sense_ts : (s.sense).ts = s.ts := rfl
@[simp] theorem State.sense_focus : (s.sense).focus = s.focus := rfl
@[simp] theorem State.sense_turn : (s.sense).turn = s.turn := rfl
@[simp] theorem State.sense_inputs : (s.sense).inputs = s.inputs := rfl
@[simp] theorem State.sense_served : (s.sense).served = s.served := rfl
@[simp] theorem State.sense_owed : (s.sense).owed = s.owed := rfl
@[simp] theorem State.sense_fresh : (s.sense).fresh = s.fresh := rfl
@[simp] theorem State.sense_uid : (s.sense).uid = s.uid := rfl

/-! Registers of a cord -/

@[simp] theorem Cord.writeV_s (c : Cord) (n : Nat) (m : Mask) (f : Nat → Word) (t : Tag) : (c.writeV n m f t).s = c.s := rfl
@[simp] theorem Cord.writeV_p (c : Cord) (n : Nat) (m : Mask) (f : Nat → Word) (t : Tag) : (c.writeV n m f t).p = c.p := rfl
@[simp] theorem Cord.writeV_latch (c : Cord) (n : Nat) (m : Mask) (f : Nat → Word) (t : Tag) :
    (c.writeV n m f t).latch = c.latch := rfl
@[simp] theorem Cord.writePair_s (c : Cord) (d : Nat) (m : Mask) (lo hi : Word) : (c.writePair d m lo hi).s = c.s := rfl
@[simp] theorem Cord.writePair_p (c : Cord) (d : Nat) (m : Mask) (lo hi : Word) : (c.writePair d m lo hi).p = c.p := rfl

/-- sz reads zero (R43). -/
@[simp] theorem Cord.sreg_sz (c : Cord) : c.sreg 31 = 0 := rfl

/-- A write to sz is discarded (R43). -/
@[simp] theorem Cord.writeS_sz (c : Cord) (x : DWord) : c.writeS 31 x = c := rfl

/-- p0 reads all ones (R44). -/
@[simp] theorem Cord.pred_zero (c : Cord) : c.pred 0 = BitVec.allOnes 32 := rfl

@[simp] theorem Cord.writeS_v (c : Cord) (n : SCode) (x : DWord) : (c.writeS n x).v = c.v := by
  unfold Cord.writeS; split <;> rfl
@[simp] theorem Cord.writeS_p (c : Cord) (n : SCode) (x : DWord) : (c.writeS n x).p = c.p := by
  unfold Cord.writeS; split <;> rfl

/-- With no path issuing there is nothing to put back. -/
theorem State.unfocus_of_none {s : State} (h : s.focus = none) : s.unfocus = s := by
  simp only [State.unfocus, h]

/-- The state has no path issuing once one is put back. -/
@[simp] theorem State.unfocus_focus : s.unfocus.focus = none := by
  unfold State.unfocus; split <;> simp_all

end Sys2Proof.Machine
end

