-- ==== Sys2Proof/Tests/Slice0.lean ====
section
/-! SUPPORT. Tests. The words are written out from the fields of spec/opcode_table.json; the other expected values come
from the rules named. A theorem `witness_…` shows a state and operands that meet the hypotheses of a statement, or of one
of its clauses, together. -/

open Sys2Proof Sys2Proof.Machine

namespace Sys2Proof.Tests

set_option maxRecDepth 100000
set_option Elab.async false

/-! ### States -/

/-- The machine with a program loaded: a converged cord of 32 lanes at system level issues next. -/
def booted : State := State.reset.boot

/-- That machine with its path in another shape. -/
def shaped (g : Focus → Focus) : State := { booted with focus := booted.focus.map g }

/-- The issuing path of a state with no damaged byte meets the premise `Issues` of an instruction, and a condition. -/
def meets (s : State) (i : Instr) (p : Focus → Bool) : Bool :=
  (s.dies.all fun d => d.damaged.isEmpty) && s.focus.any fun f =>
    !(opndsOf i).marked f && ((opndsOf i).check f).isNone && p f

/-- The issuing path of a state meets the premise `Issues` of an instruction. -/
def ready (s : State) (i : Instr) : Bool := meets s i fun _ => true

theorem issues_of_meets {s : State} {i : Instr} {p : Focus → Bool} (h : meets s i p = true) :
    ∃ f, Issues i s f ∧ s.Whole ∧ p f = true := by
  unfold meets at h
  cases hf : s.focus with
  | none => simp [hf] at h
  | some f =>
    simp only [hf, Option.any_some, Bool.and_eq_true, Bool.not_eq_true', Option.isNone_iff_eq_none] at h
    exact ⟨f, ⟨hf, h.2.1.1, h.2.1.2⟩, h.1, h.2.2⟩

/-- A next state that meets a condition. -/
def after (r : Host.Outcome State Fault Refusal) (p : State → Bool) : Bool :=
  match r with
  | .next s => p s
  | _ => false

/-- The focused path after an instruction. -/
def then_ (i : Instr) (s : State) (p : Focus → Bool) : Bool := after (exec i s) fun t => t.focus.any p

/-! ### Decoding -/

def controlWords : List (BitVec 32 × Instr) :=
   [(0x00000000, .nop), (0x02A00003, .brc 2 true 3), (0x041FFFFF, .jmp 0x1FFFFF), (0x06000005, .call 5),
    (0x08480000, .jmpr 9), (0x08480400, .callr 9), (0x08000800, .ret), (0x0A00000B, .rcv 11), (0x0C000000, .join),
    (0x0E400006, .brk 1 6), (0x10000000, .exit), (0x10000040, .yield), (0x12531C00, .pand ⟨5, 6, 7⟩),
    (0x12531C40, .por ⟨5, 6, 7⟩), (0x12531C80, .pxor ⟨5, 6, 7⟩), (0x12531CC0, .pandn ⟨5, 6, 7⟩),
    (0x12530100, .pnot 5 6), (0x12530140, .pmov 5 6), (0x14286000, .voteAll 5 6), (0x14286001, .voteAny 5 6),
    (0x14286002, .voteBal 5 6), (0xF4E7FFFF, .bral 3 9 0x3FFFF)]

theorem test_decode_control : (controlWords.all fun x => decodeWord x.1 == x.2 && x.2.wf) = true := by decide +kernel

theorem witness_issues_control : (controlWords.all fun x => ready booted x.2) = true := by decide +kernel

def systemWords : List (BitVec 32 × Instr) :=
   [(0x16000012, .trap 0x12), (0x16010000, .eret), (0x16020000, .halt), (0x18400050, .rdspr 4 .trapcause),
    (0x18610051, .wrspr 6 .trappc), (0x1A031C00, .tlbinv 6 7), (0x1A530040, .csave 5 6),
    (0x1A531C80, .crst ⟨5, 6, 7⟩), (0x1A531CC0, .world ⟨5, 6, 7⟩), (0x1C018000, .rdseed 6), (0x1C018400, .wrseed 6),
    (0x1C194800, .rdtag 3 5), (0x1E02FC44, .hprm true false true 31 2 4), (0x1E201234, .himm 0x1234),
    (0x1E400000, .hyld), (0x1E600064, .hstl 100), (0x1E80001E, .hcache true 3 2), (0x1EA0000A, .hpred true 2)]

theorem test_decode_system : (systemWords.all fun x => decodeWord x.1 == x.2 && x.2.wf) = true := by decide +kernel

theorem witness_issues_system : (systemWords.all fun x => ready booted x.2) = true := by decide +kernel

def scalarWords : List (BitVec 32 × Instr) :=
   [(0x20531C00, .sadd ⟨5, 6, 7⟩), (0x20531C40, .ssub ⟨5, 6, 7⟩), (0x20531C80, .smul ⟨5, 6, 7⟩),
    (0x20531CC0, .smulh ⟨5, 6, 7⟩), (0x20531D00, .smulhu ⟨5, 6, 7⟩), (0x20531D40, .sand ⟨5, 6, 7⟩),
    (0x20531D80, .sor ⟨5, 6, 7⟩), (0x20531DC0, .sxor ⟨5, 6, 7⟩), (0x20531E00, .sshl ⟨5, 6, 7⟩),
    (0x20531E40, .sshr ⟨5, 6, 7⟩), (0x20531E80, .ssra ⟨5, 6, 7⟩), (0x20531EC0, .smin ⟨5, 6, 7⟩),
    (0x20531F00, .smax ⟨5, 6, 7⟩), (0x20531F40, .sminu ⟨5, 6, 7⟩), (0x20531F80, .sslt ⟨5, 6, 7⟩),
    (0x20531FC0, .ssltu ⟨5, 6, 7⟩), (0x22500028, .saddi 5 40), (0x22510028, .smuli 5 40), (0x22520028, .sandi 5 40),
    (0x22530028, .sori 5 40), (0x22540028, .sxori 5 40), (0x22550028, .sshli 5 40), (0x22560028, .sshri 5 40),
    (0x22570028, .ssrai 5 40), (0x22580028, .sslti 5 40), (0x22590028, .ssltui 5 40), (0x24520009, .sldiH 5 2 9),
    (0x24140100, .sldi 1 0x100), (0x2648C000, .s2v 9 3), (0x2648C41F, .v2s 9 3 31), (0x28534800, .sld 5 6 9 false),
    (0x285348C0, .sst 5 6 9 true)]

theorem test_decode_scalar : (scalarWords.all fun x => decodeWord x.1 == x.2 && x.2.wf) = true := by decide +kernel

theorem witness_issues_scalar : (scalarWords.all fun x => ready booted x.2) = true := by decide +kernel

def integerWords : List (BitVec 32 × Instr) :=
   [(0x402861D8, .iadd ⟨.reg 5, 6, 7, .bc, .rot⟩ .i32), (0x422861D9, .isub ⟨.reg 5, 6, 7, .bc, .rot⟩ .n32),
    (0x442861DA, .imul ⟨.reg 5, 6, 7, .bc, .rot⟩ .i16), (0x462861DB, .imulh ⟨.reg 5, 6, 7, .bc, .rot⟩ .n16),
    (0x4A2861D8, .imin ⟨.reg 5, 6, 7, .bc, .rot⟩ .i32), (0x4C2861D9, .imax ⟨.reg 5, 6, 7, .bc, .rot⟩ .n32),
    (0x4828C390, .imad ⟨.reg 5, 6, 7, 8⟩), (0x4E286030, .iabs ⟨.reg 5, 6, .bfly⟩ .w32),
    (0x4E286072, .ineg ⟨.reg 5, 6, .bfly⟩ .w16), (0x502861D8, .and ⟨.reg 5, 6, 7, .bc, .rot⟩),
    (0x522861D8, .or ⟨.reg 5, 6, 7, .bc, .rot⟩), (0x542861D8, .xor ⟨.reg 5, 6, 7, .bc, .rot⟩),
    (0x56286030, .not ⟨.reg 5, 6, .bfly⟩), (0x582861D8, .shl ⟨.reg 5, 6, 7, .bc, .rot⟩ .w32),
    (0x5A2861DA, .shr ⟨.reg 5, 6, 7, .bc, .rot⟩ .w16), (0x5C2861D8, .sra ⟨.reg 5, 6, 7, .bc, .rot⟩ .w32),
    (0x5E2861DA, .rot ⟨.reg 5, 6, 7, .bc, .rot⟩ .w16), (0x60286030, .popc ⟨.reg 5, 6, .bfly⟩),
    (0x60286070, .clz ⟨.reg 5, 6, .bfly⟩), (0x602860B0, .ctz ⟨.reg 5, 6, .bfly⟩),
    (0x602860F0, .brev ⟨.reg 5, 6, .bfly⟩), (0x6290110D, .iset .lt ⟨2, 1, 4, .ident, .bfly⟩ .n32),
    (0x64381097, .sel (.reg 7) 1 2 .bc 3 true), (0x66046030, .mov ⟨.nw, 6, .bfly⟩), (0x68160004, .movi 2 .e4m3 4),
    (0x6A180100, .iaddi 3 .i32 0x100), (0x6C1B0100, .imuli 3 .n16 0x100), (0x6E180007, .andi 3 7),
    (0x6E190007, .ori 3 7), (0x6E1A0007, .xori 3 7), (0x70080000, .laneid (.reg 1)),
    (0x702861D9, .affine ⟨.reg 5, 6, 7, .bc, .rot⟩), (0x722861DA, .shfl ⟨.reg 5, 6, 7, .bc, .rot⟩ .down)]

theorem test_decode_integer : (integerWords.all fun x => decodeWord x.1 == x.2 && x.2.wf) = true := by decide +kernel

theorem witness_issues_integer : (integerWords.all fun x => ready booted x.2) = true := by decide +kernel

def floatWords : List (BitVec 32 × Instr) :=
   [(0x802861D8, .fadd ⟨.reg 5, 6, 7, .bc, .rot⟩ .f32), (0x822861D9, .fsub ⟨.reg 5, 6, 7, .bc, .rot⟩ .f16),
    (0x842861DA, .fmul ⟨.reg 5, 6, 7, .bc, .rot⟩ .bf16), (0x882861DB, .fmin ⟨.reg 5, 6, 7, .bc, .rot⟩ .e4m3),
    (0x8A2861D8, .fmax ⟨.reg 5, 6, 7, .bc, .rot⟩ .f32), (0x922861DA, .fscale ⟨.reg 5, 6, 7, .bc, .rot⟩ .bf16),
    (0x8628C390, .ffma ⟨.reg 5, 6, 7, 8⟩), (0x9C28C390, .dot2 ⟨.reg 5, 6, 7, 8⟩),
    (0x8DD0110E, .fset .ord ⟨2, 1, 4, .ident, .bfly⟩ .bf16), (0x8E286031, .fabs ⟨.reg 5, 6, .bfly⟩ .f16),
    (0x8E286072, .fneg ⟨.reg 5, 6, .bfly⟩ .bf16), (0x8E2860B0, .fsqrt ⟨.reg 5, 6, .bfly⟩),
    (0x8E2860F0, .frsq ⟨.reg 5, 6, .bfly⟩), (0x8E286130, .frcp ⟨.reg 5, 6, .bfly⟩),
    (0x8E286170, .fexp2 ⟨.reg 5, 6, .bfly⟩), (0x8E2861B0, .flog2 ⟨.reg 5, 6, .bfly⟩),
    (0x8E2861F0, .fsin ⟨.reg 5, 6, .bfly⟩), (0x8E286230, .fcos ⟨.reg 5, 6, .bfly⟩),
    (0x8E286270, .ftanh ⟨.reg 5, 6, .bfly⟩), (0x8E2862B0, .ffloor ⟨.reg 5, 6, .bfly⟩),
    (0x8E2862F0, .fceil ⟨.reg 5, 6, .bfly⟩), (0x8E286330, .ftrunc ⟨.reg 5, 6, .bfly⟩),
    (0x8E286370, .frint ⟨.reg 5, 6, .bfly⟩), (0x902869F9, .fcvt ⟨.reg 5, 6, .bfly⟩ .e5m2 .n32 .rs true),
    (0x942861DB, .fpack ⟨.reg 5, 6, 7, .bc, .rot⟩ .merge), (0x96286470, .funpk ⟨.reg 5, 6, .bfly⟩ 17),
    (0x981C3E80, .faddi 3 .f32 0x3E80), (0x9A1E0038, .fmuli 3 .e4m3 0x38)]

theorem test_decode_float : (floatWords.all fun x => decodeWord x.1 == x.2 && x.2.wf) = true := by decide +kernel

theorem witness_issues_float : (floatWords.all fun x => ready booted x.2) = true := by decide +kernel

def memoryWords : List (BitVec 32 × Instr) :=
   [(0xA040C493, .ld ⟨8, 3, 4, 9, .i8, true⟩), (0xA240C49A, .st ⟨8, 3, 4, 9, .w64, false⟩),
    (0xA440C496, .lds ⟨8, 3, 4, 9, .i16, false⟩), (0xA640C49D, .sts ⟨8, 3, 4, 9, .w128, true⟩),
    (0xA840C49A, .atom ⟨8, 3, 4, 9, .fadd⟩), (0xAA40C49B, .atoms ⟨8, 3, 4, 9, .maxsi⟩), (0xAC800000, .fence .stand),
    (0xAD010005, .fenceX .grove 5), (0xAD820000, .fenceAcq .die), (0xAC030000, .fenceRel .cord),
    (0xAE08C400, .pref true 3 4), (0xB050C412, .cpy 10 3 4 .s2h .b16), (0xB250FF10, .cpyt ⟨10, 3⟩ true),
    (0xB450FF00, .cpyx ⟨10, 3⟩), (0xB650FF00, .cpym ⟨10, 3⟩), (0xB850FF00, .mcdrain ⟨10, 3⟩),
    (0xBA50FF01, .cpyw ⟨10, 3⟩ true), (0xBC50FF00, .bari ⟨10, 3⟩), (0xBC00FF10, .barw 3)]

theorem test_decode_memory : (memoryWords.all fun x => decodeWord x.1 == x.2 && x.2.wf) = true := by decide +kernel

theorem witness_issues_memory : (memoryWords.all fun x => ready booted x.2) = true := by decide +kernel

def synchronisationWords : List (BitVec 32 × Instr) :=
   [(0xC050FF00, .cjoin ⟨10, 3⟩), (0xC000FF10, .cleave 3), (0xC250FF00, .cbar ⟨10, 3⟩), (0xC450FF00, .pbar ⟨10, 3⟩),
    (0xC450FF10, .pwait ⟨10, 3⟩), (0xC650FF01, .fres ⟨10, 3⟩ true), (0xC650FF10, .fwait ⟨10, 3⟩),
    (0xC650FF20, .ftest ⟨10, 3⟩), (0xC850FF00, .spawn ⟨10, 3⟩), (0xCA80FF00, .take ⟨16, 3⟩),
    (0xCA80FF10, .steal ⟨16, 3⟩), (0xCA50FF20, .done ⟨10, 3⟩), (0xCC00FF0B, .gmax 3 11), (0xCC00FF1B, .gmin 3 11),
    (0xCC00FF2B, .grd 3 11), (0xCC00FF3B, .gwait 3 11), (0xCE00FF00, .sleep 3), (0xCE00FF10, .rdclk 3),
    (0xCE00FF20, .rdts 3)]

theorem test_decode_synchronisation : (synchronisationWords.all fun x => decodeWord x.1 == x.2 && x.2.wf) = true := by decide +kernel

theorem witness_issues_synchronisation : (synchronisationWords.all fun x => ready booted x.2) = true := by decide +kernel

def matrixAndListsWords : List (BitVec 32 × Instr) :=
   [(0xD050FF00, .mtask ⟨10, 3⟩), (0xD207FF00, .mfence), (0xD450FF49, .mdrain ⟨10, 3⟩ .e5m2 .rs true),
    (0xD650FF00, .wpin ⟨10, 3⟩), (0xD650FF11, .wevict ⟨10, 3⟩ true), (0xD850FF00, .marrive ⟨10, 3⟩),
    (0xDA00FF00, .mqcfg 3), (0xDC00FF00, .mzero 3), (0xDE00FF00, .mstatRead 3), (0xDE00FF10, .mstatClr 3),
    (0xE050FF21, .ldecl ⟨10, 3⟩ .i32 true), (0xE250C610, .lins ⟨10, 3⟩ 6 .bf16), (0xE450FF00, .lmerge ⟨10, 3⟩),
    (0xE650FF00, .lread ⟨10, 3⟩), (0xE628C410, .lthr 5 3 4), (0xE600FF20, .lclr 3)]

theorem test_decode_matrix_and_lists : (matrixAndListsWords.all fun x => decodeWord x.1 == x.2 && x.2.wf) = true := by decide +kernel

theorem witness_issues_matrix_and_lists : (matrixAndListsWords.all fun x => ready booted x.2) = true := by decide +kernel

def flumesAndLaunchWords : List (BitVec 32 × Instr) :=
   [(0xE828FF00, .qbind 5 3), (0xEA50FF00, .qrsv ⟨10, 3⟩), (0xEC50CC00, .qput ⟨10, 3⟩ 12),
    (0xEE50FF00, .qenq ⟨10, 3⟩), (0xF050FF00, .qdeq ⟨10, 3⟩), (0xF050FF10, .qtry ⟨10, 3⟩), (0xF228FF00, .qalw 5 3),
    (0xF200FF10, .qinv 3), (0xF250FF20, .qstat ⟨10, 3⟩), (0xF850FF00, .launch ⟨10, 3⟩), (0xFA50FF00, .cmbi ⟨10, 3⟩),
    (0xFA50FF10, .cmbw ⟨10, 3⟩)]

theorem test_decode_flumes_and_launch : (flumesAndLaunchWords.all fun x => decodeWord x.1 == x.2 && x.2.wf) = true := by decide +kernel

theorem witness_issues_flumes_and_launch : (flumesAndLaunchWords.all fun x => ready booted x.2) = true := by decide +kernel
/-! ### Scalar, vector and float instructions -/

theorem witness_shift_limit : meets booted (.sshli 5 63) (fun f => f.path.pfx.isNone) = true ∧
    meets booted (.sshri 5 64) (fun f => f.path.pfx.isNone) = true := by decide +kernel

theorem witness_scalar_codes : booted.focus.any (fun f => decide (f.cord.s.length = 24) &&
    !(opndsOf (.sadd ⟨24, 0, 23⟩)).marked f && !(opndsOf (.sst 30 1 0 false)).marked f) = true ∧
    (24 : SCode) ∈ (opndsOf (.sadd ⟨24, 0, 23⟩)).s ++ (opndsOf (.sadd ⟨24, 0, 23⟩)).sNoZ := by decide +kernel

/-- The path with a HIMM before its next instruction. -/
def extended : State := shaped fun f => { f with path := { f.path with pfx := some ⟨f.path.pc - 4, some 0x1234, none, none⟩ } }

theorem witness_immediates : ([.movi 3 .n32 7, .movi 3 .f32 7, .iaddi 3 .i16 7, .xori 3 7, .faddi 3 .f32 7,
    .saddi 5 7] : List Instr).all (fun i => meets extended i fun f => f.path.pfx.any fun p => p.himm.isSome) = true ∧
    meets booted (.movi 3 .e4m3 7) (fun f => (f.path.pfx.bind Prefix.himm).isNone) = true := by decide +kernel

/-- The path two instructions behind an ALU instruction: it may read the latches. -/
def chained : State := shaped fun f => { f with path := { f.path with chain := { f.path.chain with prev := .alu } } }

theorem witness_latch_reader : ([.iadd ⟨.reg 5, 60, 7, .ident, .ident⟩ .i32, .fset .lt ⟨2, 60, 4, .ident, .ident⟩ .f32,
    .imad ⟨.nw, 60, 6, 7⟩] : List Instr).all (ready chained) = true := by decide +kernel

theorem witness_unary_codes : ([.funpk ⟨.reg 5, 6, .ident⟩ 0, .funpk ⟨.reg 5, 6, .ident⟩ 19] : List Instr).all
    (ready booted) = true := by decide +kernel

/-- R93: SMULHU of all-ones by itself is 2^64 − 2 in its upper half. -/
theorem test_smulhu : then_ (.smulhu ⟨5, 6, 6⟩) (shaped fun f => { f with cord := f.cord.writeS 6 0xFFFFFFFFFFFFFFFF })
    (fun f => f.cord.sreg 5 == 0xFFFFFFFFFFFFFFFE) = true := by decide +kernel

/-- R97: I16 elements wrap on their own; R122: 1.5 + 2.25 = 3.75 in F32. -/
theorem test_elements : then_ (.iaddi 3 .i16 1) (shaped fun f =>
      let c := f.cord.writeV 3 f.path.mask (fun _ => 0x7FFFFFFF) .uniform
      { f with cord := c }) (fun f => (f.cord.vreg 3).lane 31 == 0x80000000) = true ∧
    then_ (.fadd ⟨.reg 5, 3, 4, .ident, .ident⟩ .f32) (shaped fun f =>
      let c := (f.cord.writeV 3 f.path.mask (fun _ => 0x3FC00000) .uniform).writeV 4 f.path.mask (fun _ => 0x40100000) .uniform
      { f with cord := c }) (fun f => (f.cord.vreg 5).lane 7 == 0x40700000 && f.cord.fpstat == 0) = true := by decide +kernel

/-! ### Control flow -/

theorem witness_branch_displacements : meets booted (.jmp 0x100000) (fun _ => true) = true ∧
    meets booted (.bral 0 0 0x20000) (fun _ => true) = true := by decide +kernel

/-- A path of the low 16 lanes under a JOIN token and a CALL token, with p1 holding its low 8 lanes. -/
def nested (tokens : List Token) : State := shaped fun f => 
  let c := f.cord.writeP 1 (BitVec.allOnes 32) 0xFF
  { f with cord := { c with tokens := tokens }, path := { f.path with mask := 0xFFFF } }

def joinToken : Token := ⟨false, 0x400000, BitVec.allOnes 32, 0⟩
def callToken : Token := ⟨true, 0x400100, 0xFFFF, 0⟩

theorem witness_branches : meets booted (.brc 1 false 3) (fun f => f.path.mask &&& f.cord.pred 1 = 0) = true ∧
    meets booted (.brc 0 false 3) (fun f => f.path.mask &&& f.cord.pred 0 = f.path.mask) = true ∧
    meets (nested []) (.brc 1 true 3) (fun f => f.path.mask &&& f.cord.pred 1 = 0xFF &&
      (f.cord.slot (!f.slotB)).isNone) = true ∧
    meets booted (.call 3) (fun f => f.cord.spilled = 0 && decide (f.cord.tokens.length < 8)) = true ∧
    meets (shaped fun f => { f with cord := { f.cord with tokens := List.replicate 8 joinToken, spilled := 32 } }) (.rcv 3)
      (fun f => decide (40 ≤ f.cord.tokens.length + f.cord.spilled)) = true := by decide +kernel

theorem witness_indirect : meets booted (.callr 3) (fun f => f.path.mask ≠ 0 && (List.range 32).all fun l =>
      f.path.pc.extractLsb' 32 25 ++ (f.cord.vreg 3).lane l == (0 : Pc)) = true ∧
    meets (shaped fun f => { f with cord := f.cord.writeV 3 0xFFFFFFFE (fun _ => 6) .general }) (.jmpr 3) (fun f =>
      f.path.mask.getLsbD 1 && (f.cord.vreg 3).lane 0 == 0 && (f.cord.vreg 3).lane 1 == 6) = true := by decide +kernel

theorem witness_join_return : ([
    (.join, [joinToken]), (.ret, [callToken]), (.ret, [{ callToken with m := BitVec.allOnes 32 }]),
    (.join, [{ joinToken with m := 0xFFFF }]), (.join, [callToken]), (.ret, [joinToken])] : List (Instr × List Token)).all (fun x =>
      meets (nested x.2) x.1 fun f => f.cord.spilled = 0 && f.cord.ringCount = 0 && f.cord.pending.isEmpty &&
        f.cord.tokens.all fun t => t.m &&& f.path.mask ≠ 0) = true := by decide +kernel

theorem witness_break : meets (nested [joinToken, joinToken]) (.brk 1 6) (fun f => f.cord.spilled = 0 &&
      (f.cord.tokens.filter fun t => t.m &&& f.path.mask ≠ 0).length = 2 &&
      f.cord.tokens.all fun t => t.w &&& ~~~f.path.mask ≠ t.m &&& ~~~f.path.mask) = true ∧
    meets (nested [joinToken]) (.brk 1 6) (fun f => f.cord.pending.isEmpty && f.cord.ringCount = 0) = true ∧
    meets (nested [callToken]) (.brk 0 6) (fun f => f.cord.pending.isEmpty && f.cord.ringCount = 0) = true := by
  decide +kernel

theorem witness_exit_yield : meets (nested []) .exit (fun f => f.cord.exited ||| f.path.mask ≠ BitVec.allOnes 32) = true ∧
    meets booted .exit (fun f => f.cord.exited ||| f.path.mask = BitVec.allOnes 32 && f.cord.tokens.isEmpty) = true ∧
    meets booted .yield (fun f => f.cord.pending.isEmpty) = true ∧
    meets (shaped fun f => { f with cord := { f.cord with pending := [⟨0x400100, 0xFF, 0, 0⟩] } }) .yield
      (fun f => f.cord.pending.length = 1 && f.cord.ringCount = 0) = true := by decide +kernel

/-- R155: the taken side of a BRC whose predicate holds in every lane goes to the branch's address plus 4 × 3. -/
theorem test_brc : then_ (.brc 0 false 3) booted (fun f => f.path.pc == 0x40000C && f.cord.slotB.isNone) = true ∧
    then_ (.brc 1 true 3) (nested []) (fun f => f.cord.slotB.isSome &&
      (f.path.mask ||| (f.cord.slotB.map Path.mask).getD 0) == 0xFFFF) = true := by decide +kernel

/-- R145: the last arrival at a JOIN goes on behind it with the region's lanes. -/
theorem test_join : then_ .join (nested [{ joinToken with w := 0xFFFF0000 }])
    (fun f => f.path.pc == 0x400004 && f.path.mask == BitVec.allOnes 32 && f.cord.tokens.isEmpty) = true := by decide +kernel

/-! ### Memory -/

/-- The loaded machine whose TLB holds its first GiB, with two pieces of data at 0x500000. -/
def warm : State :=
  let s := booted.tlbFill 0 0 ⟨0, 0, ⟨0, 2 ^ 30, .un, false, true, true⟩⟩
  { s with hbm := s.hbm.store 0x500000 16 0x0123456789ABCDEF1122334455667788 }

/-- What the TLBs of an agent hold for an address, as `State.Mapped` looks for it. -/
def cached (s : State) (a : Agent) (va : Nat) : Option Leaf :=
  (s.tlbHit a.die a.tlbCore a.ctx va).or
    (if a.tlbCore = 32 ∧ (s.die a.die).cores.length ≤ 32 then s.tlbShared a.die a.ctx va else none)

/-- The premise `State.Mapped` of one byte. -/
def mapped (s : State) (a : Agent) (u : Use) (va : Nat) : Bool :=
  match cached s a va, s.walk a.die a.ctx va with
  | some l, .ok m => decide (l = m) && (a.sec || !l.s) && (!u.writes || l.w) && (u != .fetch || l.x) &&
      (a.sec || !(s.die a.die).secureAt (l.pa + va % l.size))
  | _, _ => false

theorem mapped_of_bool {s : State} {a : Agent} {u : Use} {va : Nat} (h : mapped s a u va = true) :
    ∃ pa k, s.Mapped a u va pa k := by
  unfold mapped at h
  split at h
  · next l m h1 h2 =>
    simp only [Bool.and_eq_true, decide_eq_true_eq, Bool.or_eq_true, Bool.not_eq_true'] at h
    obtain ⟨⟨⟨⟨rfl, h3⟩, h4⟩, h5⟩, h6⟩ := h
    refine ⟨_, _, ?_, h2, rfl, by simpa using h3, fun hu => by simpa [hu] using h4, fun hu => ?_, by simpa using h6⟩
    · unfold cached at h1
      cases ht : s.tlbHit a.die a.tlbCore a.ctx va with
      | some x => exact .inl (by simpa [ht] using h1)
      | none =>
        simp only [ht, Option.none_or] at h1
        split at h1
        · next hc => exact .inr ⟨hc.1, hc.2, h1⟩
        · simp at h1
    · subst hu
      simpa using h5
  · simp at h

/-- The first core of die 0, for context 0. -/
def agent : Agent := ⟨0, 0, false, 0, 1, 0, {}⟩

/-- The path with an address in s1, and offsets of its lanes in v4. -/
def addressing (a : DWord) (off : Nat → Word) (s : State) : State :=
  { s with focus := s.focus.map fun f =>
      { f with cord := (f.cord.writeS 1 a).writeV 4 f.path.mask off .general } }

/-- All lanes name 4-byte words from 0x500000 on. -/
def words : State := addressing 0x500000 (fun l => BitVec.ofNat 32 (4 * l)) warm

/-- The path with no active lane: HPRED p1, which is empty. -/
def noLanes : State := { words with focus := words.focus.map fun f =>
  { f with path := { f.path with pfx := some ⟨f.path.pc - 4, none, some (false, 1), none⟩ } } }

def lanesOk (u : Use) (n : Nat) (f : Focus) : Bool := (f.laneAddrs 1 4).all fun x => decide (x.2 + n ≤ 2 ^ 57) &&
  (pageRuns x.2 n).all fun r => mapped words f.stand.agent u (x.2 + r.1)

theorem witness_global_accesses :
    meets words (.ld ⟨8, 1, 4, 0, .w32, true⟩) (fun f => f.active ≠ 0 && lanesOk .read 4 f) = true ∧
    meets words (.st ⟨8, 1, 4, 15, .n8, true⟩) (fun f => f.active ≠ 0 && lanesOk .write 1 f) = true ∧
    meets words (.atom ⟨60, 1, 4, 0, .add⟩) (fun f => lanesOk .atomic 4 f && (f.laneAddrs 1 4).all fun x => x.2 % 4 = 0) = true ∧
    meets words (.atom ⟨8, 1, 4, 0, .cas⟩) (fun f => lanesOk .atomic 4 f) = true ∧
    meets words (.sld 5 1 0 true) (fun f => mapped words f.stand.agent .read (f.addr 1)) = true ∧
    meets words (.sst 5 1 0 false) (fun f => mapped words f.stand.agent .write (f.addr 1)) = true ∧
    meets noLanes (.ld ⟨8, 1, 4, 0, .w128, false⟩) (fun f => f.active = 0) = true := by decide +kernel

/-- The top of the address space: lane 3 is the first beyond it, or the first misaligned one. -/
def high (step : Nat) : State := addressing 0x1FFFFFFFFFFFFF4 (fun l => BitVec.ofNat 32 (step * l)) warm

theorem witness_global_faults :
    meets (high 4) (.ld ⟨8, 1, 4, 0, .w32, false⟩) (fun f => (f.laneAddrs 1 4).findIdx (fun x => decide (2 ^ 57 ≤ x.2 + 3)) = 3) = true ∧
    meets (high 4) (.atom ⟨8, 1, 4, 0, .add⟩) (fun f => (f.laneAddrs 1 4).all (fun x => x.2 % 4 = 0) &&
      (f.laneAddrs 1 4).findIdx (fun x => decide (2 ^ 57 ≤ x.2 + 3)) = 3) = true ∧
    meets (high 1) (.atom ⟨8, 1, 4, 0, .add⟩) (fun f => (f.laneAddrs 1 4).findIdx (fun x => x.2 % 4 ≠ 0) = 1) = true := by
  decide +kernel

/-- Scratchpad words that end at the window's last byte, and one lane beyond it. -/
def spWords (base : Nat) : State := addressing (BitVec.ofNat 64 base) (fun l => BitVec.ofNat 32 (4 * l)) booted

theorem witness_scratchpad : ([.lds ⟨8, 1, 4, 0, .w32, false⟩, .sts ⟨8, 1, 4, 0, .w32, true⟩, .atoms ⟨8, 1, 4, 0, .maxsi⟩] :
      List Instr).all (fun i =>
        meets (spWords 16256) i (fun f => (booted.racyRead f.stand).isEmpty && !spHeld booted f 0 true &&
          (f.laneAddrs 1 4).all fun x => x.2 % 4 = 0 && decide (x.2 + 4 ≤ f.stand.spGran * 16384)) &&
        meets (spWords 16260) i (fun f =>
          (f.laneAddrs 1 4).findIdx (fun x => decide (f.stand.spGran * 16384 < x.2 + 4)) = 31) &&
        meets (spWords 2) i (fun f => (f.laneAddrs 1 4).all fun x => x.2 % 4 ≠ 0)) = true := by decide +kernel

/-- The next state of an instruction. -/
def next (i : Instr) (s : State) : State := match exec i s with | .next t => t | _ => s

/-- A load of the words has begun and nothing has been performed. -/
def loading : State := next (.ld ⟨8, 1, 4, 0, .w32, false⟩) words

theorem witness_fences : ([.fence .die, .fenceX .stand 1, .fenceAcq .die, .fenceRel .cord] : List Instr).all (fun i =>
      meets booted i (fun f => !fenceWaits i booted f) && meets loading i (fenceWaits i loading)) = true ∧
    meets words (.pref true 1 4) (fun f => (f.laneAddrs 1 4).all fun x =>
      mapped words f.stand.agent .read x.2) = true := by decide +kernel

/-- A write by the first stand's cord, at a place, that a load may still pass over; the cord's own read of it, noted. -/
def wrote (place : Place) : State := { booted with
  past := [⟨0x500000, [1, 2, 3, 4], 0, place, some (1, 0)⟩]
  seen := [⟨1, 0, 1, .access 0x500000 4 (some .un) 0 true false, 0, place⟩], clock := 9 }

/-- A load of those bytes by its first lane. -/
def loadOf (sid : Nat) : Access :=
  { sid := sid, cord := 0, slotB := false, pc := 0x400000, kind := .load .w32, stream := 0, ordered := false, threads := 1, d := 8,
    parts := [⟨0, 0, 0x500000, 4, .un, 0, 0, false, {}⟩] }

theorem witness_acquires : (let s := wrote ⟨3, 4, 5⟩
     (loadOf 1).parts.all (fun p => (loadOf 1).within p 1 && decide (s.uid ≤ s.uid)) &&
     s.past.all (fun e => decide (e.place.die ≤ 10) && decide (e.place.stand ≤ 10) && decide (e.place.cord ≤ 10) &&
       decide (e.writer = some (1, 0)) && e.meets 0x500000 4) &&
     s.seen.all fun r => decide (r.sid = 1) && decide (r.since ≤ s.uid) && (loadOf 1).parts.all fun p =>
       (loadOf 1).within p (r.threads &&& 1)) = true ∧
    (let s := (wrote ⟨0, 0, 0⟩).acquireAt .cord 1 0 1
     s.past.all fun e => (loadOf 1).parts.all fun p => !e.after (s.floor s.uid (loadOf 1) p) 1 0) = true := by decide +kernel

/-- One active lane's access, of which its only part is left: a load, a store, an atomic. -/
def accessLeft (k : AccessKind) : State := booted.unfocus.withWork (.access
  { sid := 1, cord := 0, slotB := false, pc := 0x400000, kind := k, stream := 0, ordered := false, threads := 1, d := 8,
    parts := [⟨0, 0, 0x500000, 4, .un, 7, 0, false, {}⟩] })

theorem witness_performed : ([.load .w32, .store, .atomic .add true] : List AccessKind).all (fun k =>
      let s := accessLeft k
      s.focus.isNone && s.hbm.wf && (s.dies.all fun d => d.damaged.isEmpty) && (match s.work? booted.uid with
        | some ⟨_, _, .access a⟩ => a.parts.all fun p => s.partReady booted.uid a p
        | _ => false)) = true := by decide +kernel

/-- R199: ATOM.add leaves the sum in memory, R196: a store its bytes. -/
theorem test_performed : after (exec (.memAccessComplete booted.uid) (accessLeft (.atomic .add true)))
      (fun s => s.hbm.load 0x500000 4 == 7 && s.works.isEmpty) = true ∧
    after (exec (.storeAcknowledge booted.uid) (accessLeft .store)) (fun s => s.hbm.read 0x500001 == 0 && s.hbm.read 0x500000 == 7) = true := by
  decide +kernel

/-- R1: memory is little-endian, and storing zeros leaves the canonical form. -/
theorem test_memory : ((Memory.store [] 8 4 0x11223344).read 8 == 0x44 && (Memory.store [] 8 4 0x11223344).wf &&
    (Memory.store (Memory.store [] 8 4 0x11223344) 8 4 0 == [])) = true := by decide +kernel

/-! ### Copies -/

/-- The warm machine with scalar registers, and values of vector registers in every lane, set by hand. -/
def withRegs (ss : List (SCode × DWord)) (vs : List (Nat × (Nat → Word))) (s : State) : State :=
  { s with focus := s.focus.map fun f =>
      let c := vs.foldl (fun (c : Cord) x => c.writeV x.1 f.path.mask x.2 .general)
        (ss.foldl (fun (c : Cord) x => c.writeS x.1 x.2) f.cord)
      { f with cord := c } }

/-- The machine with bytes in the scratchpad of its stand. -/
def withSp (xs : List (Nat × Nat × Nat)) (s : State) : State :=
  let put (st : Stand) : Stand := { st with sp := xs.foldl (fun m x => m.store x.1 x.2.1 x.2.2) st.sp }
  { s with focus := s.focus.map (fun f => { f with stand := put f.stand }), stands := s.stands.map put }

/-- Per-lane copies of 16 bytes from 0x500000 + 16l to scratchpad 16l. -/
def copying : State :=
  withRegs [] [(4, fun l => BitVec.ofNat 32 (0x500000 + 16 * l)), (5, fun l => BitVec.ofNat 32 (16 * l))] warm

/-- Thirty-two copies of the core wait already. -/
def skidding : State := (List.range 32).foldl (fun s _ => s.withWork (.copy ⟨7, 0, false, 0, 1, 2⟩ 0 0 (.drain 1 0))) copying

theorem witness_cpy : meets copying (.cpy 8 31 4 .h2s .b16) (fun f => f.active ≠ 0 && !skidFull copying f &&
      (Mask.toLanes f.active).all fun l => f.laneAddr 31 4 l % 16 = 0 && f.laneAddr 31 5 l % 16 = 0 &&
        decide (f.laneAddr 31 4 l + 16 ≤ 2 ^ 57) && decide (f.laneAddr 31 5 l + 16 ≤ f.stand.spGran * 16384)) = true ∧
    meets skidding (.cpy 8 31 4 .h2s .b16) (fun f => skidFull skidding f) = true ∧
    meets noLanes (.cpy 8 31 4 .s2s .b4) (fun f => f.active = 0) = true := by decide +kernel

/-- A tensor record of two rows of 64 bytes at offset 16,320, the last that fits. -/
def tensor : State := withRegs [(1, 16320)] [] (withSp
  [(16320, 8, 0x500000), (16328, 4, 0), (16332, 4, 64), (16336, 2, 2), (16338, 2, 1), (16340, 2, 1), (16344, 8, 128),
   (16368, 4, 64)] warm)

theorem witness_cpyt : meets tensor (.cpyt ⟨8, 1⟩ false) (fun f =>
    let r := f.stand.sp.bytes 16320 64
    let x := tensorRec r
    f.addr 1 % 2 ^ 32 = 16320 && f.stand.spGran = 1 && x.limits && recField r 22 2 = 0 && recField r 60 4 = 0 &&
      (x.gaddr, x.spoff, x.e0, x.e1) == (0x500000, 0, 64, 2) && (x.g1, x.s1) == (128, 64)) = true := by decide +kernel

theorem witness_grove_copies :
    meets (withRegs [(1, 0x100000000100), (2, 0x0700001000000200)] [] warm) (.cpyx ⟨8, 1⟩) (fun f =>
      (f.cord.sreg 1).extractLsb' 0 32 = 0x100#32 && (f.cord.sreg 2).extractLsb' 32 21 = 16#21 &&
      (f.cord.sreg 2).extractLsb' 56 5 = 7#5 && f.stand.core = 0) = true ∧
    meets (withRegs [(1, 0x0005200000000100), (2, 0x81)] [] warm) (.cpym ⟨8, 1⟩) (fun f =>
      (f.cord.sreg 1).extractLsb' 32 14 = 8192#14 && f.stand.spGran = 1) = true ∧
    meets (withRegs [(1, 0x0000000500002000)] [] warm) (.mcdrain ⟨8, 1⟩) (fun f => f.stand.spGran = 1) = true ∧
    meets (withRegs [(1, 0x1FFFFFFFFFF7800), (2, 0x17F)] [] warm) (.cpyw ⟨8, 1⟩ true) (fun f => claimFree warm f 127 &&
      decide ((f.cord.sreg 1).toNat + 34816 = 2 ^ 57) && (f.cord.sreg 1).toNat % 256 = 0) = true ∧
    meets (withRegs [(1, 3)] [] warm) (.wevict ⟨8, 1⟩ true) (fun f => !warm.owned f 3 && claimFree warm f 3) = true := by
  decide +kernel

/-- The first work of the loaded machine, for every lane of its path, with the machine out of focus. -/
def idle (w : Work) : State := warm.unfocus.withWork w
def dest : Dest := ⟨1, 0, false, 0x400000, BitVec.allOnes 32, 8⟩

/-- That work may be performed now. -/
def performable (s : State) (w : Work) : Bool :=
  s.focus.isNone && s.active? 2 == some w && !s.unreleased 2 1 0 dest.mask && (s.stand? 1).any (fun st => st.sid = 1) &&
    (s.dies.all fun d => d.damaged.isEmpty) && s.stands.all fun st => (s.openTasks st).isEmpty

theorem witness_copy_done : ([.lanes .h2s 16 [(0, 0x500000, 0), (1, 0x500010, 16)], .lanes .h2h 8 [(0, 0x500000, 0x600000)],
      .tensor true [(0, 0x500000, 64)]] : List CopyKind).all (fun k =>
      let s := idle (.copy dest 0 0 k)
      performable s (.copy dest 0 0 k) && [0x500000, 0x500010, 0x600000].all fun va =>
        mapped s agent .read va && mapped s agent .write va) = true ∧
    ((idle (.copy dest 0 0 (.drain 0 0))).stand? 1).any (fun st => st.die = 0 && st.ctx = 0 && !st.sec && st.fpid = 0) = true := by
  decide +kernel

/-- R211: CPY.h2s moves its bytes and reports the bytes of a lane. -/
theorem test_copy_done : after (exec (.copyDone 2) (idle (.copy dest 0 0 (.lanes .h2s 16 [(0, 0x500000, 32)])))) (fun s =>
    (s.stand? 1).any fun st => st.sp.load 32 8 == 0x1122334455667788 && st.sp.load 40 8 == 0x0123456789ABCDEF &&
      st.cords.any fun c => (c.vreg 8).lane 0 == 0 && (c.vreg 9).lane 31 == 16) = true := by decide +kernel

/-- A parked tile of 16 bytes for core 0, with the share as given. -/
def held (shares : List Share) : Option Hold := some ⟨0, 5, List.replicate 16 7, shares, 0, false, false, 1, 2⟩
def holding (h : Option Hold) (s : State) : State := s.modGrove 0 0 fun g => { g with hold := g.hold.set 0 h }
def ended (c : Nat) (s : State) : State := s.modCore 0 c fun k => { k with ended := [0] }

theorem witness_transfers : ([
      (idle, .copy dest 0 0 (.cross 0 64 128 32 0 0 .reaching), fun s => (s.receiver 0 0 0).isSome),
      (idle, .copy dest 0 0 (.cross 0 64 128 32 1 0 .reaching), fun s =>
        (s.receiver 0 1 0).isNone && !(s.core 0 1).ended.contains 0),
      (fun w => ended 1 (idle w), .copy dest 0 0 (.cross 0 64 128 32 1 0 .reaching), fun s =>
        (s.receiver 0 1 0).isNone && (s.core 0 1).ended.contains 0),
      (idle, .copy dest 0 0 (.cross 0 64 128 32 0 0 (.opened 1)), fun _ => true),
      (idle, .copy dest 0 0 (.cross 0 64 128 32 0 32 (.opened 1)), fun _ => true),
      (idle, .copy dest 0 0 (.cross 0 64 128 32 1 0 .finished), fun _ => true),
      (idle, .copy dest 0 0 (.cross 0 64 128 32 1 0 (.waiting 0)), fun s => decide (0 ≤ s.clock)),
      (idle, .copy dest 0 0 (.park 5 16 0 0), fun _ => true),
      (idle, .copy dest 0 0 (.park 5 16 0 1), fun s => (s.grove 0 0).hold[0]? == some none && !(s.residentOf 0 0 0).isEmpty),
      (fun w => holding (held []) (idle w), .copy dest 0 0 (.parked 0), fun s => (s.grove 0 0).hold[0]? == some (held [])),
      (fun w => holding (held [.opened 0]) (idle w), .copy dest 0 0 (.drain 5 0), fun s =>
        (s.grove 0 0).hold[0]? == some (held [.opened 0]) && (s.grove 0 0).hold.tail.all Option.isNone),
      (fun w => holding (held [.waiting 9 0]) (idle w), .copy dest 0 0 (.parked 0), fun s =>
        (s.grove 0 0).hold[0]? == some (held [.waiting 9 0]))] : List ((Work → State) × Work × (State → Bool))).all (fun x =>
      performable (x.1 x.2.1) x.2.1 && x.2.2 (x.1 x.2.1)) = true := by decide +kernel

theorem witness_claims : ([.evict 3 0, .weight 3 0x500000 true 0 false, .weight 3 0x500000 true 0 true] : List CopyKind).all
    (fun k => let s := idle (.copy dest 0 0 k)
      performable s (.copy dest 0 0 k) && ((s.claims 0 0 3).takeWhile fun x => x.1 ≠ 2).isEmpty && !s.pinnedBefore 0 0 3 0 &&
        !(s.before 2).any (Work.pinsSlot 0 0 3) &&
      (pageRuns 0x500000 34816).all fun r => mapped s agent .read (0x500000 + r.1)) = true ∧
    (let s := idle (.pin dest 0 0 3)
     performable s (.pin dest 0 0 3) && (s.claims 0 0 3).all (fun x => decide (2 ≤ x.1)) && (s.die 0).saved.isEmpty &&
       ((s.core 0 0).canopy.getD 3 {}).owner.isNone && decide (((s.core 0 0).canopy.getD 3 {}).pins < 65535)) = true := by
  decide +kernel

/-! ### Crews, barriers, futures -/

/-- A barrier object at 16,368 that still waits for 8 bytes, and one at 64 that is complete. -/
def barriers : State := withRegs [(1, 16368), (2, 64), (3, 16376)] [(4, fun _ => 3)] (withSp [(16368, 8, 8), (16380, 4, 1), (76, 4, 3)] warm)

theorem witness_barriers : meets barriers (.bari ⟨4, 1⟩) (fun f => !pbarPending barriers f && f.addr 1 % 2 ^ 32 = 16368 &&
      f.stand.spGran = 1) = true ∧
    meets barriers (.barw 1) (fun f => !(f.stand.sp.load 16380 4).testBit 1) = true ∧
    meets barriers (.barw 2) (fun f => (f.stand.sp.load 76 4).testBit 1 && f.addr 2 % 2 ^ 32 = 64) = true ∧
    meets barriers (.pbar ⟨4, 3⟩) (fun f => f.addr 3 % 2 ^ 32 = 16376 && ((f.cord.vreg 4).lane 0).toNat = 3) = true ∧
    meets barriers (.pwait ⟨4, 2⟩) (fun f => !pbarPending barriers f &&
      decide (((barriers.core 0 0).waits.filter fun w => !w.spilled).length < 256)) = true := by decide +kernel

/-- A phase object at 8 that expects 3 arrivals, with the path parked on its phase. -/
def phased (parked : Bool) (k : Nat) : State :=
  let s := withSp [(8, 8, 3)] (idle (.pbar dest 8 k))
  if parked then
    (s.modCore 0 0 fun x => { x with waits := [⟨1, 0, false, false, 8, false⟩] }).modCord 1 0 fun c =>
      { c with slotA := c.slotA.map fun p => { p with wait := some (.phase 8 false) } }
  else s

theorem witness_phase_step : performable (phased false 2) (.pbar dest 8 2) = true ∧ performable (phased true 3) (.pbar dest 8 3) = true ∧
    (phaseArrive 3 2).2 = false ∧ (phaseArrive 3 3).2 = true ∧
    ((phased true 3).path? 1 0 false).any (fun p => p.wait == some (.phase 8 false)) = true := by decide +kernel

/-- R235: the last arrival flips PHASE and clears the count. -/
theorem test_phase : after (exec (.pbarBankStep 2) (phased true 3)) (fun s => (s.stand? 1).any fun st =>
    st.sp.load 8 8 == 0x100000003 && (s.core 0 0).waits.isEmpty) = true := by decide +kernel

def crewed (arrived : List Arrival) (members : Nat) (mine : List (BitVec 16)) : State :=
  let s := withRegs [(1, 0x0000000700010009)] [] warm
  { s.modGrove 0 0 (fun g => { g with crews := if members = 0 then [] else [⟨0, 9, members, 1, arrived⟩] }) with
      focus := s.focus.map fun f => { f with cord := { f.cord with crews := mine } } }
def joining (crews : List Crew) (mine : List (BitVec 16)) : State :=
  let s := withRegs [(1, 9)] [] warm
  { s.modGrove 0 0 (fun g => { g with crews := crews }) with
      focus := s.focus.map fun f => { f with cord := { f.cord with crews := mine } } }

theorem witness_crews : ([
      (joining [⟨0, 9, 2, 0, []⟩] [9], .cjoin ⟨8, 1⟩), (joining [] [1, 2, 3, 4], .cjoin ⟨8, 1⟩),
      (joining (List.replicate 16 ⟨5, 9, 1, 0, []⟩) [], .cjoin ⟨8, 1⟩), (joining [] [], .cjoin ⟨8, 1⟩),
      (joining [⟨0, 9, 1, 0, []⟩] [1, 2, 3], .cjoin ⟨8, 1⟩), (joining [] [], .cleave 1),
      (joining [⟨0, 9, 1, 0, []⟩] [9], .cleave 1),
      (crewed [] 2 [9], .cbar ⟨8, 1⟩), (crewed [⟨5, 0, false, 3, 8⟩] 2 [9], .cbar ⟨8, 1⟩)] : List (State × Instr)).all
    (fun x => meets x.1 x.2 fun f => f.stand.tract = 0 && f.stand.core = 0 && (f.cord.sreg 1).extractLsb' 0 16 == 9#16 &&
      !releaseHeld x.1 f && f.stand.phase == .running) = true := by decide +kernel

/-- R233: the last arrival reduces with op 1 and every path goes on with the result. -/
theorem test_cbar : then_ (.cbar ⟨8, 1⟩) (crewed [] 1 [9]) (fun f => (f.cord.vreg 8).lane 5 == 7 && f.path.pc == 0x400004) ∨
    after (exec (.cbar ⟨8, 1⟩) (crewed [] 1 [9])) (fun s => (s.stand? 1).any fun st => st.cords.any fun c =>
      (c.vreg 8).lane 5 == 7 && c.slotA.any fun p => p.pc == 0x400004) = true := by decide +kernel

/-- A future at 0x500020 in a state. -/
def future (state : Nat) : State :=
  let s := withRegs [(1, 0x500020)] [(4, fun _ => 5)] warm
  { s with hbm := (s.hbm.store 0x500020 8 (state * 2 ^ 62)).store 0x500028 8 42 }

theorem witness_futures : ([.fres ⟨4, 1⟩ true, .fwait ⟨8, 1⟩, .ftest ⟨8, 1⟩] : List Instr).all (fun i =>
      [0, 1, 2, 3].all fun state => meets (future state) i fun f =>
        f.addr 1 % 16 = 0 && mapped (future state) f.stand.agent .atomic (f.addr 1) && !futureHeld (future state) f 0x500020 &&
          (BitVec.ofNat 64 ((future state).hbm.load 0x500020 8)).getLsbD 63 == decide (2 ≤ state)) = true := by decide +kernel

def resolving (state : Nat) : State :=
  let s := idle (.resolve { die := 0, ctx := 0, dest := some dest } 0x500020 (some 0x500020) 42 false)
  { s with hbm := s.hbm.store 0x500020 8 (state * 2 ^ 62) }
def waking (parked : Bool) : State :=
  let s := idle (.wake 0 0 0x500020)
  if parked then
    (s.modCore 0 0 fun x => { x with waits := [⟨1, 0, false, true, 0x500020, false⟩] }).modCord 1 0 fun c =>
      { c with slotA := c.slotA.map fun p => { p with wait := some (.future 0x500020 8) } }
  else s

theorem witness_resolutions : ([0, 1, 2].all fun state => performable (resolving state)
      (.resolve { die := 0, ctx := 0, dest := some dest } 0x500020 (some 0x500020) 42 false)) = true ∧
    performable (waking false) (.wake 0 0 0x500020) = true ∧ performable (waking true) (.wake 0 0 0x500020) = true ∧
    ((waking true).path? 1 0 false).any (fun p => p.wait == some (.future 0x500020 8)) = true := by decide +kernel

/-- R238: a resolution of a future with waiters sends a wake to each of the 32 cores, and leaves it full. -/
theorem test_resolve : after (exec (.futureResolve 2) (resolving 1)) (fun s => s.works.length == 32 &&
    s.hbm.load 0x500020 8 == 2 ^ 63 && s.hbm.load 0x500028 8 == 42) = true := by decide +kernel

/-! ### Deques, grove words, time -/

def ringSet : Nat := 0x600000
/-- A sound set of 16-record deques at 0x600000, of which core 0 holds `n` records, and a sound record at 0x500000 whose
JOIN is `join`; the scratchpad holds a record at 0. -/
def deques (n join : Nat) (s : State) : State :=
  let m := ((s.hbm.zero 0x500000 32).store 0x500000 8 0x400000).store 0x500010 4 join
  withSp [(0, 8, 0x400000)] { s with hbm := (m.store ringSet 4 4).store (ringSet + 0x44) 4 n }

theorem witness_deque_begin : ([(.spawn ⟨8, 1⟩, 0x600000, 0), (.take ⟨16, 1⟩, 0x600000, 0), (.steal ⟨16, 1⟩, 0x600000, 31),
      (.done ⟨8, 1⟩, 0x500000, 0x600000)] : List (Instr × DWord × DWord)).all (fun x =>
      let s := deques 0 1 (withRegs [(1, x.2.1), (2, x.2.2)] [] warm)
      meets s x.1 fun f => mapped s f.stand.agent .atomic ringSet && mapped s f.stand.agent .atomic 0x500000 &&
        recField (f.stand.sp.bytes 0 32) 0 8 ≠ 0 && recField (f.stand.sp.bytes 0 32) 20 4 = 0) = true := by decide +kernel

theorem witness_deque_step : ([(.spawn ringSet (List.replicate 32 1), 0, 1), (.spawn ringSet (List.replicate 32 1), 16, 1), (.take ringSet, 0, 1),
      (.take ringSet, 3, 1), (.steal ringSet 0, 0, 1), (.steal ringSet 0, 3, 1), (.done 0x500000 ringSet, 0, 2),
      (.done 0x500000 ringSet, 16, 1), (.done 0x500000 ringSet, 3, 1)] : List (DequeOp × Nat × Nat)).all (fun x =>
      let w : Work := .deque dest x.1
      let s := deques x.2.1 x.2.2 (idle w)
      performable s w && [0x600000, 0x601000, 0x6011FF, 0x500000].all (fun a => mapped s agent .atomic a) &&
        s.hbm.load ringSet 4 == 4 && s.hbm.load (ringSet + 0x40) 4 == 0 && s.hbm.load (ringSet + 0x44) 4 == x.2.1 &&
        (List.range 60).all (fun n => s.hbm.read (ringSet + 4 + n) == 0) &&
        (List.range 56).all (fun n => s.hbm.read (ringSet + 0x48 + n) == 0)) = true := by decide +kernel

/-- R246: a TAKE of an empty deque delivers zeros; R247: the last DONE pushes its record and answers 1. -/
theorem test_deque : after (exec (.dequeStep 2) (deques 0 1 (idle (.deque dest (.done 0x500000 ringSet))))) (fun s =>
      s.hbm.load 0x601000 8 == 0x400000 && s.hbm.load (ringSet + 0x44) 4 == 1 && s.hbm.load 0x500010 4 == 0 &&
      (s.stand? 1).any fun st => st.cords.any fun c => (c.vreg 8).lane 0 == 1) = true := by decide +kernel

def groveWord (g : GroveWord) (s : State) : State :=
  s.modGrove 0 0 fun x => { x with sets := [(⟨0, 0, false⟩, (List.replicate 16 {}).set 3 g)] }
/-- A word of value 5 on which a second cord's path waits. -/
def waited : State :=
  let s := groveWord ⟨some 5, [(9, 0, false)]⟩ (withRegs [(1, 7)] [] warm)
  let p := { livePath 0 0x400000 (BitVec.allOnes 32) with wait := some (.grove 3 5 6) }
  let other := booted.unfocus.stands.map fun st =>
    { st with sid := 9, cords := st.cords.map fun c => { c with slotA := some p } }
  { s with stands := s.stands ++ other }

theorem witness_grove_words : meets (groveWord ⟨some 7, []⟩ (withRegs [(1, 7)] [] warm)) (.gmax 1 3) (fun f =>
      !releaseHeld (groveWord ⟨some 7, []⟩ (withRegs [(1, 7)] [] warm)) f && f.stand.owner == ⟨0, 0, false⟩) = true ∧
    meets (groveWord ⟨none, []⟩ (withRegs [(1, 7)] [] warm)) (.gmin 1 3) (fun _ => true) = true ∧
    meets waited (.gmax 1 3) (fun f => !releaseHeld waited f &&
      ((waited.grove 0 0).word f.stand.owner 3).waits.length = 1 &&
      (waited.path? 9 0 false).any fun p => p.wait == some (.grove 3 5 6)) = true ∧
    meets waited (.grd 1 3) (fun _ => true) = true ∧ meets waited (.gwait 1 3) (fun f => f.cord.sreg 1 ≠ 5) = true ∧
    meets (withRegs [(1, 5)] [] waited) (.gwait 1 3) (fun f => f.cord.sreg 1 = 5) = true := by decide +kernel

/-- The machine out of focus, with its path changed, at a later cycle. -/
def later (n : Nat) (g : Cord → Cord) : State := { warm.unfocus with clock := n }.modCord 1 0 g

theorem witness_time : meets (withRegs [(1, 1)] [] warm) (.sleep 1) (fun f => f.cord.sreg 1 = 1) = true ∧
    meets warm (.sleep 1) (fun f => f.cord.sreg 1 = 0) = true ∧
    ((later 9 fun c => { c with slotA := c.slotA.map fun p => { p with wait := some (.sleep 9) } }).path? 1 0 false).any
      (fun p => p.wait == some (.sleep 9)) = true ∧
    ((later 9 fun c => { c with slotA := c.slotA.map fun p => { p with stall := some 8 } }).path? 1 0 false).any
      (fun p => p.stall == some 8) = true ∧
    (let s := later 1100 fun c => { c with pending := [⟨0x400100, 0xFF, 0, 0⟩] }
     (s.stand? 1).any fun st => (st.cord? 0).any fun c => (c.slot false).any fun p => p.wait.isNone && !s.inGroup st p &&
       c.ringCount = 0 && c.pending.length = 1 && decide ((s.core 0 0).agelim.toNat < s.clock) && c.slotB.isNone) = true ∧
    (let l : Leaf := ⟨0, 2 ^ 30, .un, false, true, true⟩
     let w : Walk := ⟨5, ⟨0, 0, l⟩⟩
     let s := booted.unfocus.modDie 0 fun x => { x with walks := [⟨4, ⟨9, 0, l⟩⟩, w] }
     (s.die 0).walks.tail == [w] && booted.unfocus.tlbHit 0 5 0 0x500000 == none && booted.unfocus.tlbShared 0 0 0x500000 == none &&
       (match booted.unfocus.walk 0 0 0x500000 with | .ok m => m == l | .error _ => false) && s.tlbHit 0 5 0 0x500000 == none &&
       s.tlbShared 0 0 0x500000 == some l && decide ((booted.unfocus.die 0).walks.length < 256)) = true := by decide +kernel

/-- R152: with 0x400 cycles of age over, the pending head takes the slot of the live path. -/
theorem test_ageing : after (exec (.ageingSwap 1 0) (later 1100 fun c => { c with pending := [⟨0x400100, 0xFF, 0, 0⟩] }))
    (fun s => (s.path? 1 0 false).any fun p => p.pc == 0x400100 && p.mask == 0xFF) = true := by decide +kernel

/-! ### Matrix and ranked lists -/

/-- A task record at scratchpad 64: I8, accumulate, one row at 512, slot 3, to accumulators 1,024 on. -/
def taskRec : List (Nat × Nat × Nat) :=
  [(64 + 32, 4, 512), (64 + 40, 4, 1024), (64 + 44, 2, 1), (64 + 46, 2, 1), (64 + 48, 1, 3), (64 + 49, 1, 0x33), (64 + 50, 1, 1)]
def matrix (f : Core → Core) : State := (withRegs [(1, 64)] [(4, fun _ => 2)] (withSp taskRec warm)).modCore 0 0 f
def task : Task := { taskOf 1 0 0 ((Memory.store [] 0 0 0).bytes 0 0) with accbase := 1024, aoff := 512, m := 1, astride := 1, wslot := 3, pin := 3, afmt := 3, wfmt := 3, mode := 1 }
def fullQueue (k : Core) : Core := { k with q0 := List.replicate 16 { task with seq := 100 } }
def backing (cap : Word) (s : State) : State :=
  { s with focus := s.focus.map fun f => { f with stand := { f.stand with q0b := 0x700000, q0cap := cap } } }

theorem witness_mtask : ([(matrix id, 0), (matrix fun k => { k with canopy := k.canopy.set 3 { pins := 65535 } }, 1),
      (matrix fullQueue, 1), (backing 64 (matrix fullQueue), 2)] : List (State × Nat)).all (fun x =>
      meets x.1 (.mtask ⟨8, 1⟩) fun f =>
        let k := x.1.core 0 0
        let full := k.queueFull false
        f.addr 1 % 2 ^ 32 = 64 && recordOk f.stand (f.stand.sp.bytes 64 64) && !x.1.owned f 3 && match x.2 with
        | 0 => !full && decide ((k.canopy.getD 3 {}).pins < 65535)
        | 1 => decide ((k.canopy.getD 3 {}).pins = 65535) || full && decide (f.stand.q0cap.toNat ≤ k.backedOf 1 false)
        | _ => full && decide (k.backedOf 1 false < f.stand.q0cap.toNat) && mapped x.1 f.stand.agent .write 0x700000) = true := by
  decide +kernel

theorem witness_matrix : meets (matrix id) .mfence (fun f => !fenceHeld (matrix id) f) = true ∧
    meets (matrix id) (.marrive ⟨4, 1⟩) (fun f => f.addr 1 % 2 ^ 32 = 64) = true ∧
    meets (withRegs [(1, 0x0000200000000000), (2, 0x10010), (3, 0)] [] warm) (.mdrain ⟨8, 1⟩ .f32 .rs false) (fun f =>
      (f.cord.sreg 2).extractLsb' 0 10 = 16#10 && f.stand.asGran = 1 && f.stand.spGran = 1) = true ∧
    meets (withRegs [(1, 0), (2, 0x0000100000000020), (3, 0)] [] warm) (.mdrain ⟨8, 1⟩ .e2m1 .rne false) (fun f =>
      (f.cord.sreg 2).extractLsb' 32 32 = 4096#32) = true ∧
    meets (withRegs [(1, 127)] [] warm) (.wpin ⟨8, 1⟩) (fun f => !warm.owned f 127 && ((warm.seat f.whole).claims 0 0 127).isEmpty) = true ∧
    meets { (withRegs [(1, 0x17F)] [] warm) with focus := (withRegs [(1, 0x17F)] [] warm).focus.map fun f =>
      { f with stand := { f.stand with pins := [127] } } } (.wpin ⟨8, 1⟩) (fun f => f.stand.pins.contains 127) = true ∧
    meets (withRegs [(1, 0x1FFFFFFFFFF000), (2, 0x4000011000)] [] warm) (.mqcfg 1) (fun f => (f.cord.sreg 2).extractLsb' 0 13 = 4096#13 &&
      (f.cord.sreg 2).getLsbD 16 && (f.cord.sreg 2).extractLsb' 32 20 = 64#20) = true ∧
    meets (withRegs [(1, 0), (2, 0)] [] warm) (.mqcfg 1) (fun _ => true) = true ∧
    meets (withRegs [(1, 0x400000000000)] [] warm) (.mzero 1) (fun f => !f.stand.declaredIn 0 16384 && (warm.racyAcc f.stand).isEmpty) = true ∧
    meets warm (.mstatRead 1) (fun _ => true) = true ∧ meets warm (.mstatClr 31) (fun _ => true) = true := by decide +kernel

def queued (f : Core → Core) : State := warm.unfocus.modCore 0 0 f
def running (t : Task) : Running := ⟨t, 0, ⟨3, 3, 0, [], []⟩⟩
def poisoned : Task := { task with dep0 := .future 0x500020 }
def listTask : Task := { task with mode := 2, accbase := 0 }
def region : DWord := 0x02020001 -- ROWS 1, K 2, I32

theorem witness_tasks : ([queued fun k => { k with q0 := [task] }, queued fun k => { k with q0 := [task], running := some (running { task with seq := 9, m := 2 }), lastAged := true }] :
      List State).all (fun s => s.choose 0 0 == some (task, false) && decide s.Whole && (s.stand? 1).isSome && (s.core 0 0).picked.isNone) = true ∧
    ((queued fun k => { k with running := some (running task) }).core 0 0).running == some (running task) ∧
    (let s := (queued fun k => { k with running := some (running listTask) }).modStand 1 fun st => { st with regions := [some (0, region)] }
     decide s.Whole && (s.stand? 1).any fun st => st.region 0 == some region) = true ∧
    (let s := { queued fun k => { k with q1 := [poisoned] } with hbm := warm.hbm.store 0x500020 8 (3 * 2 ^ 62) }
     decide s.Whole && (s.stand? 1).any fun st => (s.depPoison st poisoned).isSome && st.phase == .running && poisoned.registered.isEmpty) = true ∧
    (let s := queued fun k => { k with q0 := [poisoned] }
     decide s.Whole && (s.stand? 1).any fun st => s.unregistered st poisoned == [0x500020] && decide ((s.core 0 0).registrations < 64) &&
       mapped s st.agent .atomic 0x500020 && !futureDone s.hbm 0x500020) = true ∧
    (let s := idle (.drain dest ⟨0, 0, 0, false, 16, 0, .f32, .rne, false, 0⟩)
     performable s (.drain dest ⟨0, 0, 0, false, 16, 0, .f32, .rne, false, 0⟩) && !s.drainBefore 2 0 0) = true := by decide +kernel

theorem witness_refill : (let s := queued fun k => { k with backed := [⟨task, 0x700000, false, none, false⟩] }
     decide s.Whole && (s.stand? 1).any fun st => mapped s st.agent .write 0x700000 && st.phase == .running) = true ∧
    (let s := { queued fun k => { k with backed := [⟨task, 0x700000, true, none, false⟩] } with hbm := warm.hbm.put 0x700000 (taskBytes task) }
     decide s.Whole && (s.stand? 1).any fun st => mapped s st.agent .read 0x700000 && recordOk st (s.hbm.bytes 0x700000 64) &&
       decide ((s.core 0 0).q0.length < 16)) = true := by decide +kernel

/-- R271: a task of q1 older than its age limit is picked before the first eligible task of q0. -/
theorem test_pick : ({ queued fun k => { k with q0 := [task], q1 := [{ task with seq := 1, accbase := 4096, queue1 := true }] } with
    clock := 4097 }).choose 0 0 == some ({ task with seq := 1, accbase := 4096, queue1 := true }, true) := by decide +kernel

theorem witness_tile : (task.wfmt = 3 ∧ task.mode ≤ 1) ∧ (listTask.wfmt = 3 ∧ listTask.mode = 2) ∧
    ((booted.unfocus.stand? 1).any fun st => st.acc.wf) = true := by decide +kernel

/-- The path with a region of one row of two I32 entries declared at 0. -/
def listed (thr : List Thresh) : State :=
  let s := withRegs [(1, 0), (2, 0x100000000), (3, 0), (4, 0x8000000100000000)] [(4, fun l => BitVec.ofNat 32 l), (5, fun _ => 9)] warm
  { s.modCore 0 0 (fun k => { k with thresh := thr }) with
      focus := s.focus.map fun f => { f with stand := { f.stand with regions := [some (0, region)] } } }
def ldecl (n : Nat) : State :=
  let s := withRegs [(1, region), (2, 0x1000)] [] warm
  { s with focus := s.focus.map fun f => { f with stand := { f.stand with regions := List.replicate n (some (0x3000, region)) } } }

theorem witness_lists_begin : meets (ldecl 7) (.ldecl ⟨8, 1⟩ .i32 false) (fun f => decide (f.stand.regionCount < 8) &&
      !f.stand.declaredIn 0x1000 32) = true ∧
    meets (ldecl 8) (.ldecl ⟨8, 1⟩ .i32 false) (fun f => decide (f.stand.regionCount = 8)) = true ∧
    ([.lins ⟨4, 1⟩ 63 .i32, .lthr 5 1 4, .lread ⟨8, 1⟩, .lmerge ⟨8, 1⟩, .lclr 1] : List Instr).all (fun i =>
      meets (listed [⟨1, 0, 0, false, 0, 0⟩]) i fun f => f.stand.region 0 == some region) = true ∧
    meets (listed []) (.lclr 3) (fun f => (f.cord.sreg 4).getLsbD 63 && (f.cord.sreg 4).extractLsb' 32 11 = 1#11) = true := by
  decide +kernel

def entry (op : ListOp) : ListEntry := ⟨1, 0, false, 0x400000, BitVec.allOnes 32, 8, region, op, 0⟩
def inserting (op : ListOp) : State := queued fun k => { k with insq := [entry op] }

theorem witness_lists_advance : ([.insert 0 [(0, 7, 1), (0, 8, 2)] [], .insert 0 [(0, 7, 1)] [0], .insert 0 [] [0], .declare 0,
      .clear 0 0 1 true, .thr 0 0 [5] 3, .read 0 0 1 0, .merge 0 0 1 0] : List ListOp).all (fun op =>
      let s := inserting op
      s.focus.isNone && decide s.Whole && (s.core 0 0).insq == [entry op] && (s.stand? 1).isSome && !s.unreleased 0 1 0 (BitVec.allOnes 32)) = true := by
  decide +kernel

/-- R295: a larger value enters before the smaller ones of a full row, whose last entry is then lost. -/
theorem test_rows : ((⟨[(9, 0), (5, 1)], 0⟩ : ListRow).insert 2 2 false (7, 2)).entries == [(9, 0), (7, 2)] := by decide +kernel

theorem witness_rows : (⟨[(9, 0), (5, 1)], 0⟩ : ListRow).entries.Pairwise (fun a b => precedes 2 b a = false) ∧
    precedes 2 (7, 2) (5, 1) = true ∧ precedes 2 (4, 2) (5, 1) = false ∧ listNan 0 0x7FC00000 = true := by decide +kernel

/-! ### Flumes -/

def qid : Word := 0x2001 -- die 0, port 1, flume 1
def flume : Flume := ⟨qid, 0, 0, 8, 16, 16, 0x800000, 5, [], 0, 0, []⟩
def binding : Binding := ⟨50, 1, 0, false, 0x400000, 0, 0, 0x105, qid, 8, 64, 8, 0, false, none⟩
/-- Entry 5 of port 1's handle table: valid, of FPID 0, with both rights. -/
def tableWord : DWord := 0x8003000000002001

/-- A flume at port 1, its handle cached on core 0, and a binding in entry 0. -/
def plumbed (fl : Flume) (bs : List (Nat × Binding)) (cr : List CreditReq) (s : State) : State :=
  let e : HandleEntry := ⟨0x105, 0, tableWord⟩
  ((s.modPort 0 1 fun p => { p with flumes := [fl], qtt := p.qtt.set 5 tableWord, credits := cr }).modDie 0 fun x =>
    { x with bindings := bs }).modCore 0 0 fun k => { k with handles := [e] }

/-- The path with its allowance register 2 bound as given, and s1, s2 set. -/
def bound (a : Option Nat) (s1 s2 : DWord) (fl : Flume) (bs : List (Nat × Binding)) : State :=
  let s := plumbed fl bs [] (withRegs [(1, s1), (2, s2)] [] warm)
  { s with focus := s.focus.map fun f => { f with cord := { f.cord with allow := f.cord.allow.set 2 a } } }

def handleValid (s : State) : Bool :=
  ((s.core 0 0).handles.find? fun z => z.handle = 0x105 ∧ z.fpid = 0) == some ⟨0x105, 0, tableWord⟩ &&
    s.tableEntry 0 0x105 == tableWord

def filled : Bool × SlotState := (false, .filled (List.replicate 16 7) 90 0 0 0 0x400000)

theorem witness_flume_instructions :
    meets (bound (some 0) 0x8000000000000000 0 flume [(0, binding)]) (.qbind 2 1) (fun f => f.cord.allow.getD 2 none == some 0) = true ∧
    meets (bound none 0x105 0 flume []) (.qbind 2 1) (fun f => handleValid (bound none 0x105 0 flume []) &&
      f.cord.allow.all Option.isNone && f.stand.fpid == 0 && (match warm.route 0 (warm.tableRoute qid) 0 qid 2 with | .up => true | _ => false)) = true ∧
    ([(0x080105, .qrsv ⟨8, 1⟩, binding), (0x080105, .qrsv ⟨8, 1⟩, { binding with credit := 7 }), (0x105, .qenq ⟨8, 1⟩, binding),
      (0x105, .qenq ⟨8, 1⟩, { binding with cap := 0 }), (0x105, .qput ⟨8, 1⟩ 63, binding), (0x105, .qalw 2 1, binding),
      (0x105, .qstat ⟨8, 1⟩, binding), (0x105, .bral 2 8 5, binding), (0x105, .bral 2 9 5, binding), (0x105, .qinv 1, binding),
      (0x2000000000000000, .qinv 1, binding)] : List (DWord × Instr × Binding)).all (fun x =>
      let s := bound (some 0) x.1 0x3F00 flume [(0, x.2.2)]
      meets s x.2.1 fun f => s.bindingOf f 0x105 == some x.2.2 && handleValid s && f.stand.spGran = 1) = true ∧
    ([.qdeq ⟨8, 1⟩, .qtry ⟨8, 1⟩] : List Instr).all (fun i => [[], [filled], [(true, .void)]].all fun slots =>
      let s := bound none 0x105 0x3F00 { flume with slots := slots } []
      meets s i fun f => handleValid s && s.flume? qid == some { flume with slots := slots } && (s.racySp f.stand).isEmpty) = true := by
  decide +kernel

def flumeWork (fl : Flume) (b : Binding) (w : Work) : State := plumbed fl [(0, b)] [] (idle w)

theorem witness_credits : ([(.creditReq ⟨0, 50, qid, 3⟩, { binding with asking := true }), (.creditGrant 0 50 qid 4 8, binding)] :
      List (Work × Binding)).all (fun x => let s := flumeWork flume x.2 x.1
      performable s x.1 && (s.stand? 1).isSome && s.flumeFirst 2 50 && (s.die 0).bound 50 == some x.2 && s.flume? qid == some flume &&
        (match s.routeOf 0 50 qid 2 with | .up => true | _ => false)) = true ∧
    (let s := flumeWork flume { binding with retryAt := some 0 } (.creditReq ⟨0, 51, qid, 3⟩)
     (s.die 0).binding 0 == some { binding with retryAt := some 0 } && decide (0 ≤ s.clock)) = true ∧
    (let s := plumbed flume [(0, binding)] [⟨0, 50, qid, 3⟩] warm.unfocus
     (s.port 0 1).credits == [⟨0, 50, qid, 3⟩] && decide (0 < flume.free)) = true ∧
    (let s := plumbed flume [(0, binding)] (List.replicate 1024 ⟨0, 9, qid, 1⟩) warm.unfocus
     (s.port 0 1).credits.length == 1024) = true ∧
    (let s := (flumeWork flume binding (.reserveWait dest 50 8 0 none)).modCord 1 0 fun c => { c with slotA := c.slotA.map fun p => { p with wait := some (.reserve 2 8) } }
     (s.path? 1 0 false).any (fun p => p.wait == some (.reserve 2 8)) && s.work? 2 == some ⟨2, none, .reserveWait dest 50 8 0 none⟩) = true := by
  decide +kernel

def reservedSlot (sp : Bool) : Bool × SlotState := (sp, .reserved 50)

theorem witness_slots : ([(flume, .reserve dest 0 50 qid 0x105 3 none ⟨0, 0, false⟩), ({ flume with slots := [reservedSlot false] }, .put dest 0 50 qid ⟨some 5, 0, 0, 0x105⟩),
      ({ flume with slots := [reservedSlot true] }, .put dest 0 50 qid ⟨some 5, 0, 0, 0x105⟩), (flume, .reply dest 0 1 2), (flume, .stat dest qid 0x105),
      (flume, .remoteError 0 0 (some dest) 0 3 qid 0x105)] : List (Flume × Work)).all (fun x =>
      let s := flumeWork x.1 binding x.2
      performable s x.2 && s.flumeFirst 2 50 && (s.spillAgent 0 x.1).any fun a => mapped s a .write 0x800050 && mapped s a .read 0x800050) = true ∧
    (pageRuns 0x800050 16 = [(0, 16)] ∧ 0x800000 + 5 % 16 * 16 = 0x800050) ∧
    ([[(true, .void)], [(true, .filled (List.replicate 16 7) 90 0 0 0 0)]] : List (List (Bool × SlotState))).all (fun l =>
      l.findIdx? (fun x => x.1) == some 0 && decide warm.unfocus.Whole && (plumbed { flume with slots := l } [] [] warm.unfocus).flume? qid == some { flume with slots := l }) = true ∧
    (let s := plumbed { flume with slots := [filled], waits := [2] } [] [] (idle (.dequeueWait dest qid 0x105 0))
     s.work? 2 == some ⟨2, none, .dequeueWait dest qid 0x105 0⟩ && decide s.Whole && (s.stand? 1).isSome) = true := by decide +kernel

/-- R334: a ready head goes to the oldest waiting path, with the flume's sequence number and TS. -/
theorem test_deliver : after (exec (.headDeliver 0 1 qid) (let s := plumbed { flume with slots := [filled], waits := [2] } [] [] (idle (.dequeueWait dest qid 0x105 64))
    s.modCord 1 0 fun c => { c with slotA := c.slotA.map fun p => { p with wait := some (.dequeue 2 8) } })) (fun s =>
      (s.stand? 1).any fun st => st.sp.read 64 == 7 && st.cords.any fun c => c.tsfloor == 90 && (c.vreg 9).lane 0 == 5) = true := by
  decide +kernel

/-- A command in the register of port 1, with a creation record at 0x500000. -/
def command (c : BitVec 3) (arg : DWord) (fl : Flume) : State :=
  let m := ((((warm.hbm.zero 0x500000 64).store 0x500000 4 0x2002).store 0x500006 1 4).store 0x500007 1 64).store 0x500008 2 64
  { plumbed fl [] [] warm.unfocus with hbm := m }.modPort 0 1 fun p => { p with flcmd := c, flarg := arg }

theorem witness_port_commands : ([(1, 0x500001), (1, 0x500000), (1, 0x500040), (2, 0x2001), (2, 0x2005), (3, 0x2001), (3, 0x2005), (7, 0)] :
      List (BitVec 3 × DWord)).all (fun x => let s := command x.1 x.2 flume
      s.focus.isNone && (s.port 0 1).flcmd == x.1 && ((s.port 0 1).flume? qid).isSome) = true ∧
    flumeRecordOk (command 1 0x500000 flume) 0 1 ((command 1 0x500000 flume).hbm.bytes 0x500000 64) = true ∧
    flumeRecordOk (command 1 0x500040 flume) 0 1 ((command 1 0x500040 flume).hbm.bytes 0x500040 64) = false ∧
    { flume with waits := [1] }.waits ≠ [] ∧ (command 2 0x2001 flume).bindingsTo qid = [] := by decide +kernel

/-- R321: a destroy of a flume in use answers 1, and a creation record inside its limits makes a flume. -/
theorem test_commands : after (exec (.flumeDestroy 0 1) (command 2 0x2001 { flume with slots := [filled] })) (fun s =>
      (s.port 0 1).flres == 1 && (s.port 0 1).flumes.length == 1) = true ∧
    after (exec (.flumeCreate 0 1) (command 1 0x500000 flume)) (fun s => (s.port 0 1).flres == 0 && (s.port 0 1).flumes.length == 2) = true := by
  decide +kernel

/-! ### Launch -/

/-- A launch record inside its limits: one stand of one cord of 60 registers at 0x400000, one granule of each kind. -/
def record : List (Nat × Nat × Nat) :=
  [(0, 4, 0x01080100), (4, 4, 1), (28, 1, 3), (29, 1, 1), (30, 1, 1), (32, 1, 1), (33, 1, 1), (34, 1, 1), (64, 8, 0x400000),
    (72, 1, 60), (73, 1, 1), (74, 1, 24)]
def recordBytes (xs : List (Nat × Nat × Nat)) : List Byte := ((record ++ xs).foldl (fun (m : Memory) x => m.store x.1 x.2.1 x.2.2) ([] : Memory)).bytes 0 128
def header : List (Nat × Nat × Nat) := [(0, 8, 0x700000), (16, 4, 2), (20, 2, 16), (22, 1, 2)]

theorem witness_launch_begin : meets (withRegs [(1, 128), (2, 7)] [] warm) (.launch ⟨8, 1⟩) (fun f => f.stand.spGran = 1) = true ∧
    meets (withRegs [(1, 0x600000), (2, 0)] [] (withSp header warm)) (.cmbi ⟨8, 1⟩) (fun f =>
      combineOk (f.stand.sp.bytes 0 64) && recField (f.stand.sp.bytes 0 32) 23 9 = 0) = true ∧
    meets (withRegs [(1, 0x600000), (2, 0x0010000100003FC0)] [] warm) (.cmbw ⟨8, 1⟩) (fun f => (f.cord.sreg 2).extractLsb' 0 32 = 0x3FC0#32) = true ∧
    meets (withRegs [(1, 0x600000), (2, 0x8000000000000000)] [] warm) (.cmbw ⟨8, 1⟩) (fun _ => true) = true := by decide +kernel

/-- A combine buffer of two tokens and two ranks at 0x600000, with a token word. -/
def buffer (w : Work) (word : Nat) : State :=
  let s := idle w
  { s with hbm := (header.foldl (fun m x => m.store (0x600000 + x.1) x.2.1 x.2.2) s.hbm).store 0x600044 4 word }

theorem witness_combine : ([(.combineInit dest 0x600000 (List.replicate 32 0), 0), (.combine dest 0x600000 1 1 0 false .claim, 1),
      (.combine dest 0x600000 1 1 0 true .claim, 1), (.combine dest 0x600000 1 1 0 false .data, 3), (.combine dest 0x600000 1 1 0 true .data, 3),
      (.combine dest 0x600000 1 1 0 false (.fill 64), 3), (.combine dest 0x600000 1 1 0 false (.fill 64), 0x103)] : List (Work × Nat)).all (fun x =>
      let s := buffer x.1 x.2
      performable s x.1 && combineOk (s.hbm.bytes 0x600000 64) && [0x600000, 0x600100, 0x6001FF, 0x700000].all fun a =>
        mapped s agent .atomic a) = true ∧
    ([0x600100, 0x60017F, 0x700040, 0x70007F].all fun a =>
      let s := buffer (.combine dest 0x600000 1 1 0 false (.fill 64)) 0x103
      mapped { s with hbm := s.hbm.put 0x600044 (leBytes 4 0x303) } agent .atomic a) = true := by decide +kernel

/-- R368: the last fill of a token writes the sum of its slots in rank order, and raises TDONE. -/
theorem test_combine : after (exec (.combineStep 2)
    (let s := buffer (.combine dest 0x600000 1 1 0 false (.fill 64)) 0x103
     { s with hbm := (s.hbm.store 0x600100 4 0x3F800000).store 0x600140 4 0x40000000 })) (fun s =>
      s.hbm.load 0x700040 4 == 0x40400000 && s.hbm.load 0x600018 4 == 1 && s.hbm.load 0x600044 4 == 0x80000303) = true := by decide +kernel

def launches (l : LaunchRec) (s : State) : State := s.modDie 0 fun x => { x with launches := [(0, l)] }
def launchRec (xs : List (Nat × Nat × Nat)) : LaunchRec := ⟨recordBytes xs, 0, none, 3⟩

theorem witness_launches : performable (idle (.launchRec dest 0 (launchRec []))) (.launchRec dest 0 (launchRec [])) = true ∧
    (let x := warm.unfocus.die 0
     !x.harvested && x.inService && !x.uncRst && x.available && decide (x.launches.length < 256) && decide (0 < warm.dies.length)) = true ∧
    warm.firmware.fwstat = 1 ∧ (launches (launchRec []) warm.unfocus).refusal 0 (launchRec []) = none := by decide +kernel

theorem witness_refusals : ([([(0, 4, 0)], 1), ([(29, 1, 0)], 2), ([(33, 1, 96)], 3), ([(28, 1, 4)], 4)] :
      List (List (Nat × Nat × Nat) × BitVec 8)).all (fun x => warm.refusal 0 (launchRec x.1) == some x.2) = true ∧
    warm.refusal 0 ⟨recordBytes [], 0, some 7, 3⟩ = some 5 := by decide +kernel

/-- A tract whose only stand is next. -/
def placing : State := next (.launchCapture 0) (launches (launchRec []) warm.unfocus)

theorem witness_stands : (match placing.head 0 with
      | some t => t.reenter.isEmpty && (placing.site t).any fun x =>
          (takeSlots (placing.slotsUsed x.1 x.2) (quadsOf (cordsOf t.roles))).isSome
      | none => false) = true ∧
    (let s : State := { placing with dies := placing.dies.map fun x => { x with cores := x.cores.map fun k => { k with free := 0 } } }
     match s.head 0 with | some t => (s.site t).isNone | none => false) = true ∧
    (let s := next (.standPlace 0) placing
     s.stands.any fun st => st.phase == .placed && st.tract == 2) = true ∧
    (let s := warm.unfocus.modCord 1 0 fun c => { c with exited := BitVec.allOnes 32 }
     (s.stand? 1).any fun st => st.phase == .running && st.cords.all fun c => c.exited == BitVec.allOnes 32 && c.vmarks.isEmpty &&
       c.smarks.isEmpty && c.pmarks.isEmpty) = true ∧
    (let s := next (.regfileRelease 1 0) (warm.unfocus.modCord 1 0 fun c => { c with exited := BitVec.allOnes 32 })
     (s.stand? 1).any (fun st => st.cords.all fun c => c.released) && s.works.isEmpty && !s.receiving 1) = true := by decide +kernel

/-- R18: the granules of an ended stand are free again 64 cycles later. -/
theorem test_end : after (exec (.standEnd 1) (next (.regfileRelease 1 0) (warm.unfocus.modCord 1 0 fun c => { c with exited := BitVec.allOnes 32 })))
    (fun s => s.stands.isEmpty && (s.core 0 0).free == 93 && (s.core 0 0).clearing == [(3, 64)]) = true := by decide +kernel

/-! ### System -/

/-- The path at system or user level, in its trap handler or not, with a handler or none. -/
def level (sys sec : Bool) (vec : DWord) (inTrap : Bool) (pc : Pc) (s : State) : State :=
  { s with focus := s.focus.map fun f => { f with
      stand := { f.stand with sys := sys, sec := sec, trapvec := vec }, cord := { f.cord with inTrap := inTrap, trapPc := pc } } }

theorem witness_special_registers : ([.clk, .ts, .tsfloor, .fpstat, .mstat, .prm, .seed, .cordid, .standid, .coreid, .agelim,
      .trapcause, .trappc, .trapval, .worldstat] : List Spr).all (fun r => ready booted (.rdspr 5 r) && ready booted (.wrspr 5 r)) = true ∧
    meets (level false false 0 false 0 booted) (.wrspr 5 .agelim) (fun f => !f.stand.sys) = true ∧
    meets booted (.wrspr 5 .agelim) (fun f => f.stand.sys) = true := by decide +kernel

theorem witness_traps : meets (level true false 0x400800 false 0 booted) (.trap 5) (fun f => f.stand.trapvec ≠ 0 && !f.cord.inTrap) = true ∧
    meets booted (.trap 5) (fun f => f.stand.trapvec = 0) = true ∧ meets booted .eret (fun f => !f.cord.inTrap) = true ∧
    meets (level true false 0 true 0x400002 booted) .eret (fun f => f.cord.inTrap && f.cord.trapPc.toNat % 4 = 2) = true ∧
    meets (level true false 0 true 0x400010 booted) .eret (fun f => f.cord.inTrap && f.cord.trapPc.toNat % 4 = 0) = true ∧
    meets booted .halt (fun _ => true) = true ∧ meets booted (.illegalWord 1) (fun _ => true) = true := by decide +kernel

/-- R393: TRAP saves the next address and goes to the handler; ERET returns there. -/
theorem test_trap : then_ (.trap 5) (level true false 0x400800 false 0 booted)
      (fun f => f.path.pc == 0x400800 && f.cord.trapPc == 0x400004 && f.cord.trapCode == 0x30 && f.cord.inTrap) = true ∧
    then_ .eret (level true false 0 true 0x400010 booted) (fun f => f.path.pc == 0x400010 && !f.cord.inTrap) = true := by decide +kernel

/-- A context with a pool of four save blocks of 128 KiB, and a stand that is stopping for a HALT or for a pre-emption. -/
def pooled (blocks : Word) (s : State) : State := s.modDie 0 fun x => { x with
  ctxs := x.ctxs.set 0 { x.ctxs.getD 0 {} with savebase := 0x10000000, saven := blocks, saveblk := 2 } }
def stopping (blocks : Word) (cause : BitVec 8) (requeue : Bool) : State :=
  (pooled blocks warm.unfocus).modStand 1 fun st => { st with
    phase := .stopping cause requeue 0 false, savebase := 0x10000000, saven := blocks, saveblk := 2, roles := [⟨0x400000, 8, 1, 24⟩],
    cords := st.cords.map fun c => { c with budget := 8, v := c.v.take 8 } }
def saving (requeue : Bool) : State := next (.swapoutSave 1) (stopping 4 0x31 requeue)

theorem witness_swap : ([(stopping 4 0x31 true, true), (stopping 0 0 false, false), (stopping 0 0x31 true, false)] : List (State × Bool)).all
    (fun x => (x.1.stand? 1).any fun st => x.1.swapReady st && (x.1.freeBlock st []).isSome == x.2 &&
      (x.1.core 0 0).running.isNone && (x.1.core 0 0).picked.isNone) = true ∧
    ([true, false].all fun r => ((saving r).stand? 1).any fun st => (match st.phase with | .saving _ q _ _ _ _ => q == r | _ => false) &&
      decide (((saving r).die 0).ring.buffer.length < 64) && (((saving r).core 0 0).tasksOf 1).isEmpty) = true := by decide +kernel

/-- A stand that has been saved, with its tract's entry. -/
def savedStand (requeue : Bool) : State := next (.saveWriteDone 1) (saving requeue)

theorem witness_restore : (let s := savedStand true
     match s.head 0 with
     | some t => t.reenter.length = 1 && (s.die 0).saved.any fun v => (s.bestCore (s.needSaved 0 v) 0 v.cores).any fun c =>
         (takeSlots (s.slotsUsed 0 c) (quadsOf (s.needSaved 0 v).cords)).isSome && ((s.die 0).ctx v.ctx).v
     | none => false) = true ∧
    (let s : State := { savedStand true with dies := (savedStand true).dies.map fun x => { x with cores := x.cores.map fun k => { k with free := 0 } } }
     (s.die 0).saved.all fun v => (s.bestCore (s.needSaved 0 v) 0 v.cores).isNone) = true ∧
    (let s := savedStand true
     let s : State := { s with tracts := s.tracts.map (fun t => { t with blocked := some 0 }), clock := 1000 }
     (s.head 0).any fun t => t.blocked == some 0) = true := by decide +kernel

/-- R381: a restored stand finds its registers as they were saved. -/
theorem test_restore : after (exec (.standRestore 0) (next (.saveWriteDone 1) (next (.swapoutSave 1)
    ((stopping 4 0x31 true).modCord 1 0 fun c => c.writeS 7 0x1234)))) (fun s => s.stands.any fun st => st.phase == .running &&
      st.cords.any fun c => c.sreg 7 == 0x1234 && c.budget == 8) = true := by decide +kernel

/-- The path with the operands of a system instruction in s1 to s3, in the secure world. -/
def control (a b c : DWord) (s : State) : State :=
  { s with focus := s.focus.map fun f =>
      { f with stand := { f.stand with sec := true }, cord := ((f.cord.writeS 1 a).writeS 2 b).writeS 3 c } }

/-- A second stand of the context, on core 1, that has a save block. -/
def second (s : State) : State :=
  let st := warm.unfocus.stands.map fun st => { st with sid := 9, core := 1, savebase := 0x10000000, saven := 4, saveblk := 2 }
  pooled 4 { s with stands := s.stands ++ st }

theorem witness_system_controls : ([(.tlbinv 1 2, control 0 0 0 warm), (.tlbinv 1 2, control 0 0xC000000000000000 0 warm),
      (.csave 4 1, control 0x80050000 0 0 warm), (.csave 4 1, control 5 0 0 warm), (.csave 4 1, control 1 0 0 (second warm)),
      (.crst ⟨4, 1, 2⟩, control 7 1 0 warm), (.crst ⟨4, 1, 2⟩, control 7 0 0 warm), (.crst ⟨4, 1, 2⟩, control 7 2 0 warm),
      (.world ⟨4, 1, 2⟩, control 31 1 0 warm), (.world ⟨4, 1, 2⟩, control 0 1 0 warm), (.world ⟨4, 1, 2⟩, control 0x400000000000001F 1 0 warm),
      (.world ⟨4, 1, 2⟩, control 0x4000000000000000 1 0 skidding), (.world ⟨4, 1, 2⟩, control 0x800000000000000F 1 0 warm),
      (.world ⟨4, 1, 2⟩, control 0x8000000000000001 1 0 (plumbed flume [] [] warm)), (.world ⟨4, 1, 2⟩, control 0xC00000000000003F 0x10000 0x8000000000010000 warm)] :
      List (Instr × State)).all (fun x => meets x.2 x.1 fun f => !systemHeld x.2 f && f.stand.sec) = true ∧
    meets warm (.world ⟨4, 1, 2⟩) (fun f => !f.stand.sec) = true ∧ (second warm).stands.length = 1 ∧
    meets (control 1 0 0 (second warm)) (.csave 4 1) (fun f => ((second warm).csaveStands f.stand 1).length = 1) = true ∧
    meets (control 0 1 0 skidding) (.world ⟨4, 1, 2⟩) (fun f => (skidding.settled f).skidding 0 0 ≠ 0) = true ∧
    (let s := savedStand false
     (s.die 0).saved.any fun v => (s.restorable 0 v.block).isSome) = true := by decide +kernel

/-! ### The device in its system -/

/-- Host registers: the machine with firmware, host memory with a key record at 0x9000, and a link that is up. -/
def connected (f : Link → Link) : State :=
  let m := (List.range 48).foldl (fun (m : Memory) n => m.store (0x9000 + n) 1 (if n < 38 then n + 1 else if n = 38 then 1 else 0)) []
  let s : State := { warm.unfocus with hostMem := m }
  { s with links := s.links.set 3 (f { width := 4, laneOk := 0x1F, keyaddr := 0x9000, sendKey := some ⟨[], []⟩ }) }

/-- A region of die 0 that is secure, as the host finds it. -/
def secured : State := warm.unfocus.modDie 0 fun x => { x with descs := x.descs.set 0 (0, 0xC000000000020000) }

theorem witness_host : (let s := warm.unfocus
     s.firmware.fwstat == 1 && (s.die 7).inService && !(s.die 7).harvested && (s.die 0).descs == List.replicate 64 (0, 0) &&
       s.dies.all fun d => d.damaged.isEmpty) = true ∧
    (secured.die 0).secureAt 0x10000 = true ∧
    ((warm.unfocus.die 0).ctx 255).sec = false ∧
    (let s := (warm.unfocus.post 0 { kind := 4 }).modDie 0 fun x => { x with ring := { x.ring with enable := true, size := 0, base := 2, tail := 63 } }
     let r := (s.die 0).ring
     r.buffer.length = 1 && r.enable && decide ((r.tail - r.head).toNat < 64 * 2 ^ r.size.toNat)) = true := by decide +kernel

theorem witness_contrails : (let s := next (.contrailWantWrite 0 4) warm.unfocus
     s.wantOk 0 8 && !s.wantOk 0 9 && (s.contrails.getD 0 {}).state == 1 && (next (.contrailWantWrite 0 2) s).contrails.any fun c => c.held == some 2) = true := by
  decide +kernel

/-- R406: an accepted WANT starts a change, and its end brings the wavelengths up. -/
theorem test_contrail : after (exec (.contrailChangeDone 0) (next (.contrailWantWrite 0 4) warm.unfocus))
    (fun s => (s.contrails.getD 0 {}).waves == 4 && (s.contrails.getD 0 {}).state == 0) = true := by decide +kernel

theorem witness_links : (let s := connected id
     decide (3 < s.links.length) && (s.hostMem.bytes 0x9000 48).drop 38 == [1] ++ List.replicate 9 0 && s.firmware.fwstat == 1) = true ∧
    (([0, 0x7FFFFFFFFFFE, 0x7FFFFFFFFFFF, 0xFFFFFFFFFFFE, 0xFFFFFFFFFFFF] : List (BitVec 48)).all fun n =>
      let l := (connected fun l => { l with txctr := n, queue := [⟨1, 0, 0x1000, none⟩] }).link 3
      l.queue == [⟨1, 0, 0x1000, none⟩] && l.width != 0 && !l.train && !l.held && l.sendKey.isSome) = true ∧
    ((connected fun l => { l with failures := 15, rxPend := true }).link 3).recvKey = none ∧
    ((connected id).link 3).laneOk = 0x1F ∧ ((connected fun l => { l with width := 1, laneOk := 1 }).link 3).laneOk = 1 := by decide +kernel

/-- R410: a failed lane of a full link is replaced by the spare, and the link stays four lanes wide. -/
theorem test_lane : after (exec (.linkRetrainDone 3) (next (.laneFail 3 2) (connected id)))
    (fun s => (s.link 3).width == 4 && (s.link 3).spare && (s.link 3).laneOk == 0x1B && !(s.link 3).train) = true := by decide +kernel

theorem witness_resets : (let s := warm.unfocus
     s.focus.isNone && s.firmware.fwstat == 1 && s.works.isEmpty && (s.die 0).qrun == false && (s.die 0).present && s.dies.length = 8 && (s.die 7).cores.length = 32 &&
       s.stands.all fun st => st.core ≠ 31) = true ∧
    (let s := next (.coreReset 1) warm.unfocus
     (s.die 1).coreRst && !(s.die 1).uncRst) = true ∧
    (let s := (next (.coreReset 1) warm.unfocus).modDie 1 fun x => { x with uncRst := true }
     (s.die 1).coreRst && (s.die 1).uncRst && (s.die 1).ports.all fun p => p.credits.isEmpty) = true ∧
    (let s := next (.qcoreGo 0 31) warm.unfocus
     (s.die 0).qrun && s.stands.all (fun st => st.core ≠ (s.die 0).qtarget.toNat)) = true ∧
    ((next (.registerWrite true 0x10010 1) warm.unfocus).firmware.load) = true ∧
    (decide (1050 < ({ warm.unfocus with junction := 1100 } : State).junction.toNat) && warm.islandMhz.getD 0 1500 == 1500 &&
      ({ warm.unfocus with islandMhz := warm.islandMhz.set 0 1300 } : State).overSince.isNone) = true := by decide +kernel

/-- R412: a core reset ends the context of the die's stands and leaves AGELIM at its reset value. -/
theorem test_core_reset : after (exec (.coreReset 0) (warm.unfocus.modCore 0 5 fun k => { k with agelim := 7 })) (fun s =>
    s.stands.isEmpty && (s.core 0 5).agelim == 0x400 && (s.die 0).coreRst) = true := by decide +kernel

/-! ### The whole machine -/

/-- R38 with R136: the word at the PC of the path whose turn it is. -/
def fetching (w : Nat) : State := State.withFetchWord warm 32 w

theorem witness_fetch : (fetching 0x68100004).turn = true ∧ (fetching 0x68100004).focus.any (fun f =>
      mapped (fetching 0x68100004) f.stand.agent .fetch f.path.pc.toNat && ((fetching 0x68100004).die 0).damaged.isEmpty &&
        (match decode ((fetching 0x68100004).hbm.bytes f.path.pc.toNat 4) with | .ok (i, []) => i == .movi 2 .i32 4 | _ => false)) = true ∧
    (shaped fun f => { f with path := { f.path with pc := 0x40000000 } }).focus.any (fun f =>
      (booted.tlbHit 0 0 0 f.path.pc.toNat).isNone && (booted.tlbShared 0 0 f.path.pc.toNat).isNone && (match booted.walk 0 0 f.path.pc.toNat with | .ok _ => false | .error _ => true) &&
        f.path.chain.prev == .other) = true := by decide +kernel

/-- The first step after a load runs the word that stands where it fetches. -/
theorem test_first_step : after (step (State.reset.withFetchWord 32 0x68100004)) (fun s =>
      s.focus.any fun f => (f.cord.vreg 2).lane 31 == 4 && f.path.pc == 0x400004) = true ∧
    after (step (State.reset.withFetchWord 32 0x00000001)) (fun s => s.stands.isEmpty) = true := by decide +kernel

theorem witness_checks : booted.focus.any (fun f => (opndsOf (.sadd ⟨5, 24, 0⟩)).codesOk f.cord.budget 0 == false &&
      (opndsOf (.sadd ⟨5, 23, 0⟩)).codesOk f.cord.budget 0 && (opndsOf (.iadd ⟨.nw, 60, 1, .ident, .ident⟩ .i32)).codesOk f.cord.budget 0 &&
      (opndsOf (.iadd ⟨.nw, 60, 1, .ident, .ident⟩ .i32)).isReader) = true ∧
    (shaped fun f => { f with cord := { f.cord with smarks := [5] } }).focus.any (fun f => (opndsOf (.sadd ⟨5, 6, 7⟩)).marked f) = true ∧
    (shaped fun f => { f with path := { f.path with pfx := some ⟨0, some 1, none, none⟩ } }).focus.any (fun f =>
      (opndsOf (.iadd ⟨.reg 3, 4, 5, .ident, .ident⟩ .i32)).prefixOk f.path.pfx == false) = true ∧
    (shaped fun f => { f with cord := { f.cord with slotB := some { f.path with mask := 1 } } }).focus.any (fun f =>
      (opndsOf (.sadd ⟨5, 6, 7⟩)).uniform && !f.cord.converged) = true ∧
    (let s := level false false 0 false 0 booted
     s.focus.any fun f => (opndsOf (.tlbinv 1 2)).priv && !f.stand.sys) = true := by decide +kernel

theorem witness_exceptions : booted.focus.any (fun f => f.stand.phase == .running && booted.stands.all (fun x => x.sid ≠ f.stand.sid) &&
    f.stand.cords.all (fun x => [false, true].all fun b => (x.slot b).all fun q => q.wait.isNone) && decide (f.stand.die < booted.dies.length)) = true := by
  decide +kernel

/-- R378: a fault that is not recoverable ends the context, and a record of kind 0x1 goes to the host; R377: HALT stops
the stand instead. -/
theorem test_exceptions : after (exec (.illegalWord 1) booted) (fun s => s.stands.isEmpty && (s.die 0).ring.buffer.any fun e =>
      e.1.kind == 1 && e.1.val == 1) = true ∧
    after (exec .halt booted) (fun s => s.stands.any fun st => match st.phase with | .stopping c _ _ _ => c == TrapCode.halt.num | _ => false) = true := by
  decide +kernel

theorem witness_tags : booted.focus.any (fun f => (f.cord.v ++ f.cord.latch).all fun r => r.tag == .uniform && r.lanes.all fun x => x == 0) = true ∧
    ([.iadd ⟨.reg 5, 3, 4, .ident, .ident⟩ .i32, .laneid .nw, .movi 3 .i32 7, .fadd ⟨.reg 5, 3, 4, .bc, .rot⟩ .f32] : List Instr).all
      (fun i => (opndsOf i).kind == .alu && after (exec i booted) fun s => s.focus.isSome) = true := by decide +kernel

theorem witness_crew_perm : (⟨0, 9, 2, 1, [⟨1, 0, false, 3, 8⟩, ⟨2, 0, false, 4, 8⟩]⟩ : Crew).arrived.Perm
    (⟨0, 9, 2, 1, [⟨2, 0, false, 4, 8⟩, ⟨1, 0, false, 3, 8⟩]⟩ : Crew).arrived := List.Perm.swap _ _ _

theorem witness_invariants : State.reset.memWf = true ∧ booted.memWf = true ∧ booted.contrails.length = 28 ∧
    after (step booted) (fun _ => true) = true := by decide +kernel

/-! ### Well-formed instructions -/

/-- A term that each check of `Instr.wf` refuses. -/
theorem test_wellformed : ([.fcvt ⟨.reg 1, 2, .ident⟩ .f32 .f32 .rne false, .fcvt ⟨.reg 1, 2, .ident⟩ .i32 .n32 .rne false,
    .fcvt ⟨.reg 1, 2, .ident⟩ .f16 .f32 .rne true, .funpk ⟨.reg 1, 2, .ident⟩ 20, .st ⟨1, 2, 3, 0, .i8, false⟩,
    .sts ⟨1, 2, 3, 0, .i16, false⟩, .atom ⟨1, 2, 3, 0, .maxsi⟩, .atoms ⟨1, 2, 3, 0, .fadd⟩, .fenceX .die 0, .hcache false 2 0,
    .sshli 1 64, .sshri 1 0x8000, .ssrai 1 64, .mdrain ⟨8, 1⟩ .bf16 .rne true, .mdrain ⟨8, 1⟩ .e2m1 .rs false,
    .illegalWord 1, .taskPick 0, .hostMemAccess true false 0 []] : List Instr).all (fun i => !i.wf) = true := by decide +kernel

/-! ### Premises of the rounding, translation and refusal clauses -/

/-- O6: exact values between two F16 patterns, at a tie, and past the largest finite one. -/
theorem witness_rounding : (0 : ℚ) < 1 * 2 ^ (-25 : ℤ) ∧ (1 : ℚ) * 2 ^ (-25 : ℤ) < 2 ^ (1 - 15 : ℤ) * (1 / 2 ^ 10) ∧
    (65504 : ℚ) < 65519 * 2 ^ (0 : ℤ) ∧ (65519 : ℚ) * 2 ^ (0 : ℤ) < 65504 + 32 := by norm_num

/-- O6, O8, O30: finite numbers, infinities and NaNs of either kind are values of patterns. -/
theorem witness_values : (FloatFmt.f16.value 0x3C00, FloatFmt.f16.value 0xFC00, FloatFmt.f16.value 0x7D00, FloatFmt.e4m3.value 0x7F) =
    (.num false 1024 (-10), .inf true, .nan true, .nan false) := by decide +kernel

theorem witness_unary : (∀ i ∈ [Instr.fsqrt ⟨.reg 5, 3, .ident⟩, .frsq ⟨.nw, 3, .bc⟩, .frint ⟨.reg 5, 3, .rot⟩, .fcvt ⟨.reg 5, 3, .ident⟩ .e4m3 .f32 .rs true],
    ready booted i = true) := by decide +kernel

/-- The loaded machine with a leaf entry of its page table written, and the leaf cached or not. -/
def leafEntry (e : Nat) (l : Option Leaf) (s : State) : State :=
  let s := { s with hbm := s.hbm.store 0x3000 8 e }
  match l with
  | some l => s.tlbFill 0 0 ⟨0, 0, l⟩
  | none => s

/-- The path of non-secure lanes that name words from an address on. -/
def naming (va : DWord) (s : State) : State := addressing va (fun l => BitVec.ofNat 32 (4 * l)) s

/-- O15: the entries on the way to the leaf at level 2, and one of each kind of fault there. -/
theorem witness_walk : (let s := booted
     let bits (t hi lo : Nat) : Nat := ((BitVec.ofNat 64 (s.hbm.load t 8)).extractLsb' lo (hi + 1 - lo)).toNat
     (((s.die 0).ctx 0).root.extractLsb' 12 36).toNat * 4096 == 0x1000 &&
       [(0x1000, 0x2000), (0x2000, 0x3000)].all (fun t => bits t.1 0 0 == 1 && bits t.1 1 1 == 0 && bits t.1 6 2 == 0 &&
         bits t.1 63 48 == 0 && bits t.1 7 7 == 0 && bits t.1 47 8 * 256 == t.2 && t.2 % 4096 == 0) &&
       bits 0x3000 1 0 == 3 && bits 0x3000 5 4 == 0 && bits 0x3000 47 8 == 0) = true ∧
    [(0xF, none), (0, some .pageFault), (0x1000000000000F, some .pteInvalid), (0x3F, some .pteInvalid), (0x10F, some .pteInvalid),
      (0x5001, some TrapCode.pageFault), (0x5005, some .pteInvalid)].all (fun x =>
        match (leafEntry x.1 none booted).walk 0 0 0x500000, x.2 with
        | .ok _, none => true
        | .error c, some d => c == d
        | _, _ => false) = true := by decide +kernel

/-- O15: addresses whose first page has no translation, is secure, or cannot be written. -/
theorem witness_translation_faults :
    meets (naming 0x40000000 booted) (.ld ⟨8, 1, 4, 0, .w32, true⟩) (fun f =>
      booted.tlbHit 0 f.stand.core f.stand.ctx 0x40000000 == none && booted.tlbShared 0 f.stand.ctx 0x40000000 == none &&
        (match booted.walk 0 f.stand.ctx 0x40000000 with | .error c => c == .pageFault | .ok _ => false) &&
        (f.laneAddrs 1 4).head? == some (0, 0x40000000) && pageRuns 0x40000000 4 == [(0, 4)]) = true ∧
    ([(0x4F, ⟨0, 2 ^ 30, .un, true, true, true⟩), (0xB, ⟨0, 2 ^ 30, .un, false, false, true⟩)] : List (Nat × Leaf)).all (fun x =>
      let s := naming 0x500000 (leafEntry x.1 (some x.2) booted)
      [Instr.st ⟨8, 1, 4, 0, .w32, false⟩, .atom ⟨8, 1, 4, 0, .add⟩, .sst 5 1 0 true].all fun i => meets s i fun f =>
        s.tlbHit 0 f.stand.core f.stand.ctx 0x500000 == some x.2 && !f.stand.sec &&
          (match s.walk 0 f.stand.ctx 0x500000 with | .ok l => l == x.2 | .error _ => false)) = true ∧
    (let s := naming 0x500000 (warm.modDie 0 fun d => { d with descs := d.descs.set 0 (0x500000, 0xC000000000500000) })
     meets s (.ld ⟨8, 1, 4, 0, .w32, true⟩) fun f => !f.stand.sec && (s.die 0).secureAt 0x500000 &&
       (s.tlbHit 0 f.stand.core f.stand.ctx 0x500000).any fun l => !l.s && l.w) = true ∧
    meets (withRegs [(1, 0x1FFFFFFFFFFFFFD)] [] warm) (.sld 5 1 0 true) (fun f => decide (2 ^ 57 ≤ f.addr 1 + 3)) = true := by
  decide +kernel

/-- O16: no byte of the scratchpad is undefined to a read. -/
theorem witness_no_race : booted.focus.any (fun f => (booted.racyRead f.stand).isEmpty) = true := by decide +kernel

/-- O20: a claim that cannot be granted at once. -/
theorem witness_busy : (let s := (withRegs [(1, 3)] [] warm).withWork (.copy dest 0 0 (.weight 3 0x500000 false 0 false))
    meets s (.wevict ⟨8, 1⟩ true) fun f => !claimFree s f 3 && !skidFull s f && !s.owned f 3) = true := by decide +kernel

/-- O28: operands outside their limits. -/
theorem witness_matrix_refusals :
    ([withRegs [(1, 65)] [] warm, withRegs [(1, 16384)] [] warm, withRegs [(1, 0)] [] warm] : List State).all
      (fun s => ready s (.mtask ⟨8, 1⟩)) = true ∧
    booted.focus.any (fun f => !recordOk f.stand (f.stand.sp.bytes 0 64)) = true ∧
    (let s := (matrix fun k => { k with canopy := k.canopy.set 3 { owner := some 9 } })
     meets s (.mtask ⟨8, 1⟩) fun f => s.owned f 3 && recordOk f.stand (f.stand.sp.bytes 64 64)) = true ∧
    ([(1, 16, 0), (0, 0, 0), (0, 513, 0), (0x3F0000000000, 16, 0), (0x400000000000, 16, 0), (0, 16, 2 ^ 57), (0, 0x410, 0)] :
      List (DWord × DWord × DWord)).all (fun x =>
        ready (withRegs [(1, x.1), (2, x.2.1), (3, x.2.2)] [] warm) (.mdrain ⟨8, 1⟩ .f32 .rne false)) = true ∧
    ([0x80, 0x103, 3] : List DWord).all (fun x => meets (withRegs [(1, x)] [] warm) (.wpin ⟨8, 1⟩) fun f =>
      f.stand.pins.isEmpty && ((warm.seat f.whole).claims 0 0 3).isEmpty) = true ∧
    ready (withRegs [(1, 8), (2, 0)] [] warm) (.mqcfg 1) = true ∧
    ([1, 0x3F00000000, 0, 0x400000004000] : List DWord).all (fun x => ready (withRegs [(1, x)] [] warm) (.mzero 1)) = true := by
  decide +kernel

/-- O29, O31: a dependence whose page is mapped, and one whose page is not valid. -/
theorem witness_dependences : ([0x500020, 0x40000000] : List Nat).all (fun va =>
      let t : Task := { task with dep0 := .future va, seq := 100 }
      let s := queued fun k => { k with q0 := List.replicate 16 t }
      (s.stand? 1).any fun st => s.unregistered st t == [va] && t.futures == [va] && ((s.core 0 0).onChip.find? fun x => x.seq = 100) == some t &&
        (if va = 0x500020 then mapped s st.agent .read va && mapped s st.agent .atomic va
         else s.tlbHit 0 0 0 va == none && s.tlbShared 0 0 va == none &&
           match s.walk 0 0 va with | .error c => c == .pageFault | .ok _ => false)) = true := by decide +kernel

/-- O30: a tile of zeros of the F32 classes has finite elements. -/
theorem witness_finite_tile : ([(0, 0), (1, 2), (2, 1), (4, 4)] : List (Nat × Nat)).all (fun x => tilePair x.1 x.2 &&
    ([0, 1] : List Nat).all fun b => match (tileFmt x.1).value b, (tileFmt x.2).value b, FloatFmt.f32.value b with
      | .num _ _ _, .num _ _ _, .num _ _ _ => true
      | _, _, _ => false) = true := by decide +kernel

/-- O35: a binding whose packets are to stay in the package, one with a packet on a link, and one of another package. -/
theorem witness_routes : (let s := flumeWork flume binding (.reply dest 0 1 2)
     s.queuedOn 50 == none && qidPkg qid == s.pkgid.toNat && (s.die 0).bound 50 == some binding) = true ∧
    (let s := { flumeWork flume binding (.reply dest 0 1 2) with links := (List.replicate 64 ({} : Link)).set 3 { queue := [⟨1, 0, qid, some 50⟩] } }
     s.queuedOn 50 == some 3) = true ∧
    (let q : Word := 0x102001
     let b := { binding with qid := q, route := 0x80000000010000C3 }
     let s := { flumeWork flume b (.reply dest 0 1 2) with links := (List.replicate 64 ({} : Link)).set 3 { width := 4 } }
     qidPkg q != s.pkgid.toNat && (s.die 0).bound 50 == some b && s.queuedOn 50 == none && b.route.getLsbD 63 &&
       (s.links.getD 3 {}).width != 0) = true := by decide +kernel

/-- O38: a CMBW whose token word a CMBI has zeroed. -/
theorem witness_lost : (let w : Work := .combine dest 0x600000 1 1 0 false (.lost 64)
     performable (buffer w 0) w && mapped (buffer w 0) agent .atomic 0x600000 && pageRuns 0x600000 64 == [(0, 64)]) = true ∧
    ((buffer (.combine dest 0x600000 1 1 0 false (.fill 64)) 3).loseClaims agent 0x600000 2).works.all (fun i =>
      i.work == .combine dest 0x600000 1 1 0 false (.lost 64)) = true := by decide +kernel

/-- O39: a refused record whose future is mapped and empty. -/
theorem witness_poisoned : (let s := launches (launchRec [(0, 4, 0), (16, 8, 0x500020)]) warm.unfocus
     s.refusal 0 (launchRec [(0, 4, 0), (16, 8, 0x500020)]) == some 1 && ((s.die 0).ctx 0).v &&
       mapped s ⟨0, 0, false, 0, 0, 32, {}⟩ .atomic 0x500020 && (resolveFuture s.hbm 0x500020 0x29 true).isSome) = true ∧
    (let s := warm.unfocus.modDie 0 fun x => { x with stage := { x.stage with captured := some (launchRec []) } }
     (s.die 0).stage.captured.isSome && decide ((s.die 0).launches.length < 256)) = true := by decide +kernel

/-- O40: the tract next to place, whose stand fits core 1 with the most free granules, the lowest of equals; and, with no
free granule, no core. -/
theorem witness_place : (match placing.tracts with
      | [b, t] =>
        let e := (placing.die 0).ctx t.ctx
        let fits (s : State) (c : Nat) : Bool := !(s.die 0).coreRst && !(s.core 0 c).quiesced && (s.core 0 c).secure == e.sec &&
          decide (t.rf + t.spGran + t.asGran ≤ (s.core 0 c).free) &&
          (takeSlots (s.slotsUsed 0 c) (quadsOf (cordsOf t.roles))).isSome && decide ((s.grove 0 (c / 8)).sets.length < 4) &&
          decide ((s.core 0 c).thresh.length ≤ 1024)
        let full : State := { placing with dies := placing.dies.map fun x => { x with cores := x.cores.map fun k => { k with free := 0 } } }
        t.die == 0 && decide (t.prio ≤ 3 ∧ t.next < t.stands ∧ b.stands ≤ b.next) && t.affinity == 1 && e.v && t.fpid.isNone &&
          b.reenter.isEmpty && t.reenter.isEmpty && fits placing 1 && (List.range 32).all (fun c => !fits placing c ||
            decide ((placing.core 0 c).free < (placing.core 0 1).free) || decide ((placing.core 0 c).free = (placing.core 0 1).free ∧ 1 ≤ c)) &&
          (List.range 32).all (fun c => !fits full c)
      | _ => false) = true := by decide +kernel

/-- O40: a stand of which nothing is left. -/
theorem witness_ends : (let s := next (.regfileRelease 1 0) (warm.unfocus.modCord 1 0 fun c => { c with exited := BitVec.allOnes 32 })
     (s.stand? 1).any fun st => st.phase == .running && st.cords.all (fun c => c.exited == BitVec.allOnes 32 && c.released) &&
       s.works.all (fun i => !i.work.ofStand 1) && (s.core 0 0).allTasks.all (fun t => t.sid ≠ 1) &&
       (s.core 0 0).insq.all (fun e => e.sid ≠ 1) && !s.receiving 1 && decide (st.die < s.dies.length) &&
       decide (st.core < (s.die st.die).cores.length)) = true := by decide +kernel

/-- O46: a die that does not answer. -/
theorem witness_absent : (let s := warm.unfocus.modDie 3 fun x => { x with inService := false, harvested := true }
    decide (s.firmware.fwstat = 1) && !(s.die 3).inService && s.dies.all fun d => d.damaged.isEmpty) = true := by decide +kernel

/-- A path of a cord with 8 registers. -/
def narrow : State := shaped fun f => { f with cord := { f.cord with budget := 8, v := f.cord.v.take 8 } }

/-- O58: codes beyond a budget of 8, groups that break their alignment or reach it, and destinations 60 to 63. -/
theorem witness_code_limits : narrow.focus.any (fun f => f.cord.budget == 8 &&
    ([.and ⟨.reg 60, 1, 2, .ident, .ident⟩, .and ⟨.reg 8, 1, 2, .ident, .ident⟩, .fadd ⟨.reg 1, 8, 59, .ident, .ident⟩ .f32,
      .imad ⟨.reg 1, 2, 3, 8⟩, .ld ⟨3, 1, 4, 0, .w64, false⟩, .ld ⟨6, 1, 4, 0, .w128, false⟩, .lds ⟨4, 1, 60, 0, .w32, false⟩,
      .atom ⟨61, 1, 4, 0, .add⟩, .atom ⟨60, 1, 3, 0, .add⟩, .atoms ⟨7, 1, 4, 0, .cas⟩] : List Instr).all fun i =>
        !(opndsOf i).marked f && !(opndsOf i).codesOk f.cord.budget 0) = true := by decide +kernel

/-- O60: latches and registers in number, every lane active, or the lanes that a predicate chooses. -/
theorem witness_alu_writes : booted.focus.any (fun f => f.cord.latch.length == 4 && f.cord.v.length == 60 && decide (f.cord.budget ≤ 60) &&
      f.active == BitVec.allOnes 32) = true ∧
    ([.iadd ⟨.reg 5, 3, 4, .ident, .ident⟩ .i32, .iadd ⟨.nw, 3, 4, .ident, .ident⟩ .i16, .imad ⟨.reg 5, 3, 4, 5⟩, .sel (.reg 5) 3 4 .ident 1 false] :
      List Instr).all (ready booted) = true ∧
    (shaped fun f => { f with path := { f.path with pfx := some ⟨f.path.pc - 4, none, some (true, 0), none⟩ } }).focus.any (fun f =>
      f.active == 0) = true := by decide +kernel

/-- R97, R51: an instruction with an empty predicate writes no lane, and one with NW = 1 no register. -/
theorem test_inactive_lanes : then_ (.iaddi 3 .i32 7) (shaped fun f =>
      { f with path := { f.path with pfx := some ⟨f.path.pc - 4, none, some (true, 0), none⟩ } }) (fun f =>
      (f.cord.vreg 3).lane 0 == 0 && (f.cord.vreg 3).tag == .general) = true ∧
    then_ (.iadd ⟨.nw, 3, 4, .ident, .ident⟩ .i32) booted (fun f => f.cord.v == (booted.focus.map fun g => g.cord.v).getD [] ) = true := by
  decide +kernel

/-- R114, R115: ties go to the even pattern, and the modes differ past the largest finite value. -/
theorem test_rounding : roundNum .f16 .rne false 0 false 2049 0 false = (0x6800, flagINEX) ∧
    roundNum .f16 .rne false 0 false 2051 0 false = (0x6802, flagINEX) ∧
    roundNum .f16 .rz false 0 true 65536 0 false = (0xFBFF, flagOF ||| flagINEX) ∧
    roundNum .f16 .rm false 0 false 65536 0 false = (0x7BFF, flagOF ||| flagINEX) ∧
    roundNum .f16 .rp true 0 false 65536 0 false = (0x7BFF, flagSAT ||| flagINEX) := by decide +kernel


/-- An uncorrectable error has struck a byte of the scratchpad. -/
def struckWord : State := (spWords 64).modDie 0 fun x => { x with damaged := [.scratchpad 1 67] }

theorem witness_struck : ((struckWord.die 0).damaged == [.scratchpad 1 67] && struckWord.focus.any fun f => f.stand.sid = 1 &&
      f.stand.die = 0 && (f.laneAddrs 1 4).contains (0, 64) && !spHeld struckWord f 0 false &&
      ([.lds ⟨8, 1, 4, 0, .w32, false⟩, .atoms ⟨8, 1, 4, 0, .add⟩] : List Instr).all fun i =>
        !(opndsOf i).marked f && ((opndsOf i).check f).isNone &&
          (f.laneAddrs 1 4).all fun x => x.2 % 4 = 0 && decide (x.2 + 4 ≤ f.stand.spGran * 16384)) = true ∧
    (booted.unfocus.stand? 1).any (fun st => st.die = 0 && decide (67 < st.spGran * 16384) && decide (67 < st.asGran * 16384)) = true := by
  decide +kernel

/-- R374: the error is recorded on the byte it strikes. -/
theorem test_strike : after (exec (.uncorrectableSoftError 0 (.scratchpad 1 67)) booted)
    (fun s => (s.die 0).damaged == [.scratchpad 1 67]) = true := by decide +kernel

/-- R374: a load of the struck byte raises MEM_ERROR, which ends the context; a store over it ends the damage. -/
theorem test_struck : after (exec (.lds ⟨8, 1, 4, 0, .w32, false⟩) struckWord) (fun s => (s.stand? 1).isNone &&
      (s.die 0).ring.buffer.any fun e => e.1.code == 0x17) = true ∧
    after (exec (.sts ⟨8, 1, 4, 0, .w32, false⟩) struckWord) (fun s => decide s.Whole && s.focus.isSome) = true := by
  decide +kernel

/-! ### Operands outside their limits, and the records and tables the statements give -/

/-- An instruction that may issue takes a fault: the last event record of its die has the code. -/
def raises (code : TrapCode) (s : State) (i : Instr) : Bool :=
  ready s i && after (exec i s) fun t => (t.die 0).ring.buffer.getLast?.any fun e => e.1.code == code.num

/-- O20: each copy with an operand that breaks a limit, in the order of the checks. -/
theorem witness_copy_operands :
    ([(.misaligned, withRegs [(1, 16328)] [] tensor, .cpyt ⟨8, 1⟩ false), (.spRange, withRegs [(1, 16384)] [] tensor, .cpyt ⟨8, 1⟩ false),
      (.copyParam, withSp [(16332, 4, 6)] tensor, .cpyt ⟨8, 1⟩ true),
      (.addressRange, withSp [(16320, 8, 2 ^ 57 - 64)] tensor, .cpyt ⟨8, 1⟩ true),
      (.spRange, withSp [(16328, 4, 16300)] tensor, .cpyt ⟨8, 1⟩ true), (.copyParam, withSp [(16380, 4, 1)] tensor, .cpyt ⟨8, 1⟩ true),
      (.misaligned, withRegs [] [(4, fun l => BitVec.ofNat 32 (16 * l + 4))] warm, .cpy 8 31 4 .h2s .b16),
      (.spRange, withRegs [] [(5, fun l => BitVec.ofNat 32 (16 * l + 15904))] warm, .cpy 8 31 4 .h2s .b16),
      (.misaligned, withRegs [(1, 0x108), (2, 16)] [] warm, .cpyx ⟨8, 1⟩),
      (.copyParam, withRegs [(1, 0x100), (2, 0)] [] warm, .cpyx ⟨8, 1⟩),
      (.mcastRange, withRegs [(1, 0x100), (2, 0x0800001000000200)] [] warm, .cpyx ⟨8, 1⟩),
      (.copyParam, withRegs [(1, 0x0005210000000100), (2, 0x81)] [] warm, .cpym ⟨8, 1⟩),
      (.mcastRange, withRegs [(1, 0x0000200000000100), (2, 0x101)] [] warm, .cpym ⟨8, 1⟩),
      (.spRange, withRegs [(1, 0x2010)] [] warm, .mcdrain ⟨8, 1⟩), (.copyParam, withRegs [(1, 0x0001000000002000)] [] warm, .mcdrain ⟨8, 1⟩),
      (.misaligned, withRegs [(1, 0x80), (2, 1)] [] warm, .cpyw ⟨8, 1⟩ true),
      (.addressRange, withRegs [(1, 0x1FFFFFFFFFFF900), (2, 1)] [] warm, .cpyw ⟨8, 1⟩ true),
      (.copyParam, withRegs [(1, 0x100), (2, 0x81)] [] warm, .cpyw ⟨8, 1⟩ true), (.matrixParam, withRegs [(1, 0x80)] [] warm, .wevict ⟨8, 1⟩ true)] :
      List (TrapCode × State × Instr)).all (fun x => raises x.1 x.2.1 x.2.2) = true := by decide +kernel

/-- O32: the list instructions. -/
theorem witness_list_operands : ([(.misaligned, withRegs [(1, region), (2, 8)] [] warm, .ldecl ⟨8, 1⟩ .i32 false),
      (.listParam, withRegs [(1, region - 1), (2, 0)] [] warm, .ldecl ⟨8, 1⟩ .i32 false),
      (.accRange, withRegs [(1, region), (2, 16368)] [] warm, .ldecl ⟨8, 1⟩ .i32 false),
      (.listParam, withRegs [(1, region), (2, 0)] [] warm, .ldecl ⟨8, 1⟩ .f32 false),
      (.listParam, withRegs [(1, region), (2, 16)] [] (listed []), .ldecl ⟨8, 1⟩ .i32 false),
      (.listParam, withRegs [(1, 16)] [] (listed []), .lins ⟨4, 1⟩ 63 .i32), (.listParam, listed [], .lins ⟨4, 1⟩ 63 .f32),
      (.listParam, withRegs [] [(5, fun _ => 1)] (listed []), .lins ⟨4, 1⟩ 5 .i32),
      (.listParam, withRegs [(1, 0x100000000)] [] (listed []), .lthr 5 1 4),
      (.misaligned, withRegs [(2, 0x100000008)] [] (listed []), .lread ⟨8, 1⟩), (.listParam, withRegs [(2, 0)] [] (listed []), .lread ⟨8, 1⟩),
      (.spRange, withRegs [(2, 0x100003FF0)] [] (listed []), .lmerge ⟨8, 1⟩),
      (.listParam, withRegs [(2, 0x80000100000000)] [] (listed []), .lmerge ⟨8, 1⟩),
      (.listParam, withRegs [(2, 0x100000010)] [] (listed []), .lclr 1)] : List (TrapCode × State × Instr)).all
      (fun x => raises x.1 x.2.1 x.2.2) = true := by decide +kernel

/-- O34: the flume instructions. -/
theorem witness_flume_operands : ([(.flumeParam, bound none 0x1105 0 flume [], .qbind 2 1),
      (.remoteError, bound none 0x106 0 flume [], .qbind 2 1), (.flumeParam, bound none 0x105 0 flume [], .qrsv ⟨8, 1⟩),
      (.flumeParam, bound (some 0) 0x410105 0 flume [(0, binding)], .qrsv ⟨8, 1⟩),
      (.flumeParam, bound (some 0) 0x090105 0 flume [(0, binding)], .qrsv ⟨8, 1⟩),
      (.misaligned, bound (some 0) 0x105 8 flume [(0, binding)], .qenq ⟨8, 1⟩),
      (.spRange, bound (some 0) 0x105 0x3F10 flume [(0, binding)], .qput ⟨8, 1⟩ 63),
      (.flumeParam, bound (some 0) 0x105 0x100000000 flume [(0, binding)], .qdeq ⟨8, 1⟩),
      (.flumeParam, bound none 0x105 0 flume [], .qenq ⟨8, 1⟩), (.remoteError, bound none 0x106 0 flume [], .qtry ⟨8, 1⟩),
      (.flumeParam, bound none 0x1000 0 flume [], .qinv 1), (.flumeParam, bound none 0x1000 0 flume [], .qstat ⟨8, 1⟩)] :
      List (TrapCode × State × Instr)).all (fun x => raises x.1 x.2.1 x.2.2) = true := by decide +kernel

/-- O37: LAUNCH, CMBI and CMBW. -/
theorem witness_launch_operands : ([(.misaligned, withRegs [(1, 64)] [] warm, .launch ⟨8, 1⟩), (.spRange, withRegs [(1, 16384)] [] warm, .launch ⟨8, 1⟩),
      (.launchParam, withRegs [(1, 128), (2, 8)] [] warm, .launch ⟨8, 1⟩),
      (.misaligned, withRegs [(1, 0x600020), (2, 0)] [] warm, .cmbi ⟨8, 1⟩), (.combineParam, withRegs [(1, 0x600000), (2, 0)] [] warm, .cmbi ⟨8, 1⟩),
      (.addressRange, withRegs [(1, 2 ^ 57 - 64), (2, 0)] [] (withSp header warm), .cmbi ⟨8, 1⟩),
      (.combineParam, withRegs [(1, 0x600000), (2, 0)] [] (withSp (header ++ [(24, 1, 1)]) warm), .cmbi ⟨8, 1⟩),
      (.spRange, withRegs [(1, 0x600000), (2, 0x4000)] [] warm, .cmbw ⟨8, 1⟩), (.addressRange, withRegs [(1, 2 ^ 57), (2, 0)] [] warm, .cmbw ⟨8, 1⟩),
      (.combineParam, withRegs [(1, 0x600000), (2, 0x8000000000000040)] [] warm, .cmbw ⟨8, 1⟩)] : List (TrapCode × State × Instr)).all
      (fun x => raises x.1 x.2.1 x.2.2) = true := by decide +kernel

/-- O44: TLBINV, CSAVE, CRST and WORLD. -/
theorem witness_system_operands : ([(.sysParam, control 0 0x100 0 warm, .tlbinv 1 2), (.sysParam, control 0x100000000 0 0 warm, .csave 4 1),
      (.sysParam, control 0x80000000 0 0 warm, .csave 4 1), (.sysParam, control 7 2 0 warm, .crst ⟨4, 1, 2⟩),
      (.illegalReg, control 0xC000000000000000 0 0 warm, .world ⟨4, 1, 22⟩), (.sysParam, control 0x40 0 0 warm, .world ⟨4, 1, 2⟩),
      (.sysParam, control 32 0 0 warm, .world ⟨4, 1, 2⟩), (.sysParam, control 0 2 0 warm, .world ⟨4, 1, 2⟩),
      (.sysParam, control 0xC000000000000000 1 0 warm, .world ⟨4, 1, 2⟩)] : List (TrapCode × State × Instr)).all
      (fun x => raises x.1 x.2.1 x.2.2) = true := by decide +kernel

/-- O15, O18: a load's value of each size, and what .maxsi keeps. -/
theorem witness_sizes : loadWord .i8 0x80 0 = 0xFFFFFF80 ∧ loadWord .n16 0x8000 0 = 0x8000 ∧ loadWord .w128 (7 * 2 ^ 96) 3 = 7 ∧
    booted.focus.any (fun f => decide (8 + 4 ≤ f.cord.v.length)) = true ∧ (Memory.store [] 5 1 1).wf = true ∧
    atomicNew .maxsi 0x3F800005 0x3F800004 0 = 0x3F800004 ∧ atomicNew .maxsi 0x3F800005 0x7FC00000 0 = 0x3F800005 ∧
    atomicNew .maxsi 0x80000005 0x00000006 0 = 0x80000005 ∧ atomicNew .min 0xFFFFFFFF 1 0 = 0xFFFFFFFF ∧
    (sumNums [FloatFmt.f32.value 0x7F800000, FloatFmt.f32.value 0xFF800000]).isNan = true := by decide +kernel

/-- O36, O38, O39: a creation record, a header and a launch record have the bytes their tables give them, and ranks add up. -/
theorem witness_records : ((command 1 0x500000 flume).hbm.bytes 0x500000 64).length = 64 ∧ (recordBytes []).length = 128 ∧
    recLimits (recordBytes []) = true ∧ recLimits (recordBytes [(28, 1, 4)]) = false ∧ recFits (recordBytes [(32, 1, 96)]) = false ∧
    combineSum [0x3F800000, 0x40000000, 0x40400000] = 0x40C00000 ∧ combineSum [0x7F800000, 0xFF800000] = 0x7FC00000 := by
  decide +kernel

/-- O46: a ring with room, one without, and one with a full buffer. -/
theorem witness_post : (let r := ((warm.unfocus.modDie 0 fun x => { x with ring := { x.ring with enable := true } }).die 0).ring
     r.buffer.isEmpty && r.waits.isEmpty && r.enable && decide ((r.tail - r.head).toNat < 64 * 2 ^ r.size.toNat)) = true ∧
    (warm.unfocus.die 0).ring.enable = false ∧
    (let s := (List.range 65).foldl (fun s _ => s.post 0 { kind := 1 }) warm.unfocus
     (s.die 0).ring.buffer.length == 64 && (s.die 0).ring.waits.length == 1) = true ∧
    (let s := ((List.range 65).foldl (fun s _ => s.post 0 { kind := 1 }) warm.unfocus).modDie 0 fun x => { x with ring := { x.ring with enable := true } }
     (s.die 0).ring.room && (s.die 0).ring.waits != []) = true := by decide +kernel

/-- R404: a record for which the ring has room goes straight to host memory, with KIND at 0 and INFO at 0x28. -/
theorem test_post : (let ring := warm.unfocus.modDie 0 fun x => { x with ring := { x.ring with enable := true, base := 2 } }
     let s := ring.post 0 { kind := 4, info := 0x1234 }
     s.hostMem.read 0x2000 == 4 && s.hostMem.load 0x2028 8 == 0x1234 && (s.die 0).ring.tail == 1 && s.msix == [0]) = true := by decide +kernel

/-- O48: absent dies, a package test, a core test, work under way to a die, and a register that holds an error. -/
theorem witness_domains : (let s := warm.unfocus.modDie 1 fun x => { x with inService := false }
     !(s.die 1).present && s.absentAt true 0x1400008) = true ∧
    (next .packageReset warm.unfocus).pkgRst = true ∧ (State.reset.pkgRst = false) ∧
    (let s := next (.qcoreGo 0 31) warm.unfocus
     (s.die 0).qrun && s.stands.all fun st => st.core ≠ (s.die 0).qtarget.toNat) = true ∧
    (let s := idle (.launchRec dest 0 (launchRec []))
     s.works.all fun i => s.worksFor 0 i.work && (s.boundFor 0 i.work).isSome) = true ∧
    warm.unfocus.holds 0 (.register 1 0 3 31) = true ∧ warm.unfocus.holds 0 (.register 1 0 60 31) = false ∧
    warm.unfocus.holds 0 (.hbm 5) = true := by decide +kernel

/-- R374: a struck register raises MEM_ERROR where it is read, and not once it is written. -/
theorem test_register_error : raises .memError (shaped fun f =>
      { f with cord := { f.cord with v := f.cord.v.modify 6 fun r => { r with bad := 1 } } }) (.iadd ⟨.reg 5, 6, 7, .ident, .ident⟩ .i32) = false ∧
    (let s := shaped fun f => { f with cord := { f.cord with v := f.cord.v.modify 6 fun r => { r with bad := 1 } } }
     after (exec (.iadd ⟨.reg 5, 6, 7, .ident, .ident⟩ .i32) s) (fun t =>
       (t.die 0).ring.buffer.getLast?.any fun e => e.1.code == TrapCode.memError.num) &&
     ready s (.movi 6 .i32 7)) = true := by decide +kernel

/-- O45: a stand that may be pre-empted, and an image that gives back its stand. -/
theorem witness_image : (let s := stopping 4 0x31 true
     (s.stand? 1).any fun st => st.sp.wf && st.acc.wf && decide (st.rf ≤ 96) && decide (st.spGran ≤ 96) && decide (st.asGran ≤ 96) &&
       st.roles.all (fun r => decide (r.regs ≤ 60) && decide (r.count ≤ 64) && decide (r.sregs ≤ 24)) &&
       st.cords.length == (rolesOf st.roles).length && st.regions.length == 8 && decide ((s.imageOf st 0x31).length < 2 ^ 32) &&
       (st.cords.zip (rolesOf st.roles)).all fun x => x.1.role == x.2.1 && x.1.budget == x.2.2.regs && x.1.sregs == x.2.2.sregs &&
         x.1.allow.length == 8 && x.1.pred 0 == BitVec.allOnes 32) = true ∧
    (let s : State := pooled 4 warm.unfocus
     let s : State := { s with clock := 70000, stands := s.stands.map fun st => { st with savebase := 0x10000000, saven := 4, saveblk := 2, prio := 0, started := 0 } }
     (s.victims 1 0 0).length = 1 && (s.fewest ⟨⟨0, 0, false⟩, 1, 96, 0⟩ 1 0 0).isSome) = true := by decide +kernel
end Sys2Proof.Tests
end

section
/-! SUPPORT. What a memory reads after a store, bytes put, and zeros written (R1, R183), and the memories right after
reset. -/

namespace Sys2Proof.Machine

@[simp] theorem length_leBytes (n v : Nat) : (leBytes n v).length = n := by
  induction n generalizing v with
  | zero => rfl
  | succ n ih => simp [leBytes, ih]

/-- Byte k of a little-endian value. -/
theorem getD_leBytes {n k : Nat} (v : Nat) (h : k < n) : (leBytes n v).getD k 0 = BitVec.ofNat 8 (v / 256 ^ k) := by
  induction n generalizing v k with
  | zero => omega
  | succ n ih =>
    cases k with
    | zero => simp [leBytes]
    | succ k => simpa [leBytes, Nat.div_div_eq_div_mul, pow_succ'] using ih (v / 256) (by omega)

theorem leNat_leBytes (n v : Nat) : leNat (leBytes n v) = v % 256 ^ n := by
  induction n generalizing v with
  | zero => simp [leBytes, leNat, Nat.mod_one]
  | succ n ih => rw [leBytes, leNat, ih, pow_succ', Nat.mod_mul]; rfl

theorem Memory.store_eq_put (m : Memory) (a n v : Nat) : m.store a n v = m.put a (leBytes n v) := by
  induction n generalizing m a v with
  | zero => rfl
  | succ n ih => exact ih _ _ _

theorem Memory.load_eq_leNat (m : Memory) (a n : Nat) : m.load a n = leNat (m.bytes a n) := by
  induction n generalizing a with
  | zero => rfl
  | succ n ih => rw [Memory.load, ih]; rfl

/-- A byte within bytes put reads as put, and every other byte as before. -/
theorem Memory.read_put {m : Memory} (h : m.wf = true) (a : Nat) (bs : List Byte) (b : Nat) :
    (m.put a bs).read b = if a ≤ b ∧ b < a + bs.length then bs.getD (b - a) 0 else m.read b := by
  induction bs generalizing m a with
  | nil => rw [if_neg (by simp)]; rfl
  | cons x r ih =>
    rw [Memory.put, ih (Memory.wf_write h a x), List.length_cons]
    by_cases hb : b = a
    · subst hb
      rw [if_neg (by omega), if_pos (by omega), Memory.read_write_same h]
      simp
    · rw [Memory.read_write_other h x hb]
      refine if_ctx_congr (by omega) (fun hr => ?_) fun _ => rfl
      rw [show b - a = b - (a + 1) + 1 by omega, List.getD_cons_succ]

theorem Memory.bytes_put {m : Memory} (h : m.wf = true) (a : Nat) (bs : List Byte) :
    (m.put a bs).bytes a bs.length = bs := by
  induction bs generalizing m a with
  | nil => rfl
  | cons x r ih =>
    have hx : (m.put a (x :: r)).read a = x := by rw [Memory.read_put h, if_pos (by simp)]; simp
    rw [List.length_cons, Memory.bytes, hx, Memory.put, ih (Memory.wf_write h a x)]

/-- A byte of a memory some of whose addresses are left out. -/
theorem Memory.read_filter {m : Memory} (h : m.wf = true) (p : Nat → Bool) (b : Nat) :
    Memory.read (m.filter fun c => p c.1) b = if p b then m.read b else 0 := by
  induction m with
  | nil => simp [Memory.read]
  | cons c r ih =>
    obtain ⟨k, x⟩ := c
    obtain ⟨-, above, hr⟩ := Memory.wf_cons.mp h
    rw [List.filter_cons, apply_ite (Memory.read · b)]
    simp only [Memory.read, ih hr]
    rcases lt_trichotomy k b with hb | rfl | hb
    · simp [hb, hb.ne]
    · simp [Memory.read_of_lt above]
    · simp [hb.ne', Memory.read_of_lt fun c hc => hb.trans (above c hc)]

theorem Memory.read_zero {m : Memory} (h : m.wf = true) (a n b : Nat) :
    (m.zero a n).read b = if a ≤ b ∧ b < a + n then 0 else m.read b := by
  rw [Memory.zero, Memory.read_filter h fun k => decide (k < a) || decide (a + n ≤ k)]
  by_cases hb : a ≤ b ∧ b < a + n
  · rw [if_pos hb, if_neg (by simp; omega)]
  · rw [if_neg hb, if_pos (by simp; omega)]

/-- Settles O19: a store is the value's little-endian bytes put, of which each reads as it was put. -/
theorem memoryReadsWhatWasStored : Obligations.MemoryReadsWhatWasStored := by
  intro m a n v b bs h
  refine ⟨?_, Memory.bytes_put h a bs, ?_, Memory.read_put h a bs b, Memory.read_zero h a n b⟩
  · have := Memory.bytes_put h a (leBytes n v)
    rw [length_leBytes] at this
    rw [Memory.load_eq_leNat, Memory.store_eq_put, this, leNat_leBytes]
  · rw [Memory.store_eq_put, Memory.read_put h, length_leBytes]
    refine if_ctx_congr Iff.rfl (fun hb => getD_leBytes v (by omega)) fun _ => rfl

/-- Settles O50: both memories are empty, and every contrail entry is idle with no wavelength. -/
theorem resetHoldsTheInvariants : Obligations.ResetHoldsTheInvariants := by
  have idle (i : Nat) : State.reset.contrails.getD i {} = {} := by
    rw [List.getD_eq_getElem?_getD, show State.reset.contrails = List.replicate 28 {} from rfl, List.getElem?_replicate]
    split <;> rfl
  refine ⟨rfl, rfl, fun c hc => ?_, fun d _ => ?_⟩
  · rw [List.eq_of_mem_replicate hc]; decide
  · simp only [idle, show Contrail.most {} = 0 from rfl]; simp

end Sys2Proof.Machine
end

section
/-! SUPPORT. What is stored: the parts of a state whose form is an invariant, and the operations that leave them as they
are (R1, R183). -/

namespace Sys2Proof.Machine

/-- HBM, host memory and the contrail table: the storages of the package whose form is an invariant. -/
structure Stored where
  hbm : Memory
  hostMem : Memory
  contrails : List Contrail

def State.stored (t : State) : Stored := ⟨t.hbm, t.hostMem, t.contrails⟩

/-! `stored` of the state that an operation answers. The proof `by rfl`, and not a bare `rfl`, makes the equation a
rewrite rule of `simp`, and not a definitional step of it. -/

@[simp ↓] theorem stored_ite {c : Prop} [Decidable c] {t u : State} :
    (if c then t else u).stored = if c then t.stored else u.stored := apply_ite State.stored c t u

@[simp ↓] theorem stored_fst_ite {c : Prop} [Decidable c] {α : Type} {x y : State × α} :
    (if c then x else y).1.stored = if c then x.1.stored else y.1.stored := by split <;> rfl

section
variable {s t : State}

@[simp ↓] theorem stored_foldl {α : Type} {l : List α} {f : State → α → State} (h : ∀ u x, (f u x).stored = u.stored) :
    (l.foldl f t).stored = t.stored := by
  induction l generalizing t with
  | nil => rfl
  | cons x r ih => rw [List.foldl_cons, ih, h]

theorem stored_withHbm {m} : State.stored { t with hbm := m } = ⟨m, t.hostMem, t.contrails⟩ := by rfl
@[simp ↓] theorem stored_withTracts {x y} : State.stored { t with tracts := x, uid := y } = t.stored := by rfl
@[simp ↓] theorem stored_withWorks {x} : State.stored { t with works := x } = t.stored := by rfl
@[simp ↓] theorem stored_withSeen {x} : State.stored { t with seen := x } = t.stored := by rfl
@[simp ↓] theorem stored_withFirmware {x} : State.stored { t with firmware := x } = t.stored := by rfl
@[simp ↓] theorem stored_withFlash {x y} : State.stored { t with flash := x, fresh := y } = t.stored := by rfl
@[simp ↓] theorem stored_withPkgRst {x} : State.stored { t with pkgRst := x } = t.stored := by rfl
@[simp ↓] theorem stored_withIslandMhz {x} : State.stored { t with islandMhz := x } = t.stored := by rfl
@[simp ↓] theorem stored_withInputs {x} : State.stored { t with inputs := x } = t.stored := by rfl
@[simp ↓] theorem stored_withReport {x} : State.stored { t with report := x } = t.stored := by rfl

/-! Components of the package, and work under way. -/

@[simp ↓] theorem stored_modDie {n f} : (t.modDie n f).stored = t.stored := by rfl
@[simp ↓] theorem stored_modCore {d c f} : (t.modCore d c f).stored = t.stored := by rfl
@[simp ↓] theorem stored_modGrove {d g f} : (t.modGrove d g f).stored = t.stored := by rfl
@[simp ↓] theorem stored_modPort {d p f} : (t.modPort d p f).stored = t.stored := by rfl
@[simp ↓] theorem stored_modStand {sid f} : (t.modStand sid f).stored = t.stored := by rfl
@[simp ↓] theorem stored_modCord {sid c f} : (t.modCord sid c f).stored = t.stored := by rfl
@[simp ↓] theorem stored_unfocus : t.unfocus.stored = t.stored := by unfold State.unfocus; split <;> rfl
@[simp ↓] theorem stored_seat {st} : (t.seat st).stored = t.stored := by rfl
@[simp ↓] theorem stored_focusOn {sid c b} : (t.focusOn sid c b).stored = t.stored := by
  unfold State.focusOn; dsimp only
  (repeat' split) <;> exact stored_unfocus
@[simp ↓] theorem stored_addWork {w} : (t.addWork w).stored = t.stored := by rfl
@[simp ↓] theorem stored_dropWork {id} : (t.dropWork id).stored = t.stored := by rfl
@[simp ↓] theorem stored_setWork {id w} : (t.setWork id w).stored = t.stored := by rfl
@[simp ↓] theorem stored_draw : t.draw.stored = t.stored := by rfl
@[simp ↓] theorem stored_tlbFill {d c e} : (t.tlbFill d c e).stored = t.stored := by rfl
@[simp ↓] theorem stored_endWalk {d w} : (t.endWalk d w).stored = t.stored := by rfl
@[simp ↓] theorem stored_beginWalk {d c e} : (t.beginWalk d c e).stored = t.stored := by
  unfold State.beginWalk; (repeat' split) <;> simp
@[simp ↓] theorem stored_oldOrNew {o r} : (t.oldOrNew o r).1.stored = t.stored := by
  unfold State.oldOrNew; (repeat' split) <;> rfl

/-! Translation, stores and damage. -/

@[simp ↓] theorem stored_lookup {d c ctx va} : (t.lookup d c ctx va).1.stored = t.stored := by
  unfold State.lookup; (repeat' split) <;> simp
@[simp ↓] theorem stored_forget {h n} : (t.forget h n).stored = t.stored := by rfl
@[simp ↓] theorem stored_remember {w x h n} : (t.remember w x h n).stored = t.stored := by rfl
@[simp ↓] theorem stored_acquireAt {x sid c m} : (t.acquireAt x sid c m).stored = t.stored := by
  unfold State.acquireAt; split <;> rfl
@[simp ↓] theorem stored_noteStep {sid c m h n} : (t.noteStep sid c m h n).stored = t.stored := by
  unfold State.noteStep; split <;> rfl
@[simp ↓] theorem stored_mendAt {d x n} : (t.mendAt d x n).stored = t.stored := by unfold State.mendAt; split <;> rfl
@[simp ↓] theorem stored_mended {h n} : (t.mended h n).stored = t.stored := by simp [State.mended]
@[simp ↓] theorem stored_mendSp {st off n} : (t.mendSp st off n).stored = t.stored := by simp [State.mendSp]
@[simp ↓] theorem stored_mendAcc {st off n} : (t.mendAcc st off n).stored = t.stored := by simp [State.mendAcc]

/-! Waits, crews, bindings, and the end of cords and stands. -/

@[simp ↓] theorem stored_unregister {sid c b} : (t.unregister sid c b).stored = t.stored := by
  unfold State.unregister; (repeat' split) <;> simp
@[simp ↓] theorem stored_wakePath {sid c b f} : (t.wakePath sid c b f).stored = t.stored := by
  unfold State.wakePath; dsimp only; (repeat' split) <;> simp
@[simp ↓] theorem stored_crewComplete {d g tract key} : (t.crewComplete d g tract key).stored = t.stored := by
  unfold State.crewComplete; (repeat' split) <;> simp
@[simp ↓] theorem stored_crewLeave {d g tract key} : (t.crewLeave d g tract key).stored = t.stored := by
  simp [State.crewLeave]
@[simp ↓] theorem stored_crewWithdraw {d g tract key sid c} : (t.crewWithdraw d g tract key sid c).stored = t.stored :=
  by rfl
@[simp ↓] theorem stored_modWord {d g o w f} : (t.modWord d g o w f).stored = t.stored := by rfl
@[simp ↓] theorem stored_freeSets {d g} : (t.freeSets d g).stored = t.stored := by rfl
@[simp ↓] theorem stored_modFlume {q f} : (t.modFlume q f).stored = t.stored := by unfold State.modFlume; split <;> rfl
@[simp ↓] theorem stored_modBinding {d bid f} : (t.modBinding d bid f).stored = t.stored := by rfl
@[simp ↓] theorem stored_unbind {d e} : (t.unbind d e).stored = t.stored := by
  unfold State.unbind; (repeat' split) <;> simp
@[simp ↓] theorem stored_dropDequeue {id} : (t.dropDequeue id).stored = t.stored := by
  unfold State.dropDequeue; (repeat' split) <;> simp
@[simp ↓] theorem stored_dropStandWork {sid} : (t.dropStandWork sid).stored = t.stored := by simp [State.dropStandWork]
@[simp ↓] theorem stored_unpin {d c slot} : (t.unpin d c slot).stored = t.stored := by rfl
@[simp ↓] theorem stored_startTask {d c r} : (t.startTask d c r).stored = t.stored := by simp [State.startTask]
@[simp ↓] theorem stored_nextTask {d c} : (t.nextTask d c).stored = t.stored := by
  unfold State.nextTask; dsimp only; (repeat' split) <;> simp
@[simp ↓] theorem stored_reshare {d c tract away} : (t.reshare d c tract away).stored = t.stored := by rfl
@[simp ↓] theorem stored_forgetStruck {st} : (t.forgetStruck st).stored = t.stored := by
  unfold State.forgetStruck; split <;> rfl
@[simp ↓] theorem stored_releaseStand {st ended} : (t.releaseStand st ended).stored = t.stored := by
  rw [State.releaseStand, stored_reshare, stored_freeSets, stored_forgetStruck]; rfl
@[simp ↓] theorem stored_releaseCord {st c} : (t.releaseCord st c).stored = t.stored := by
  simp only [State.releaseCord]
  rw [stored_foldl, stored_foldl]
  · intro u a; cases a <;> simp
  · simp
@[simp ↓] theorem stored_saveOver {sid saved} : (t.saveOver sid saved).stored = t.stored := by rfl
@[simp ↓] theorem stored_finishTracts : t.finishTracts.stored = t.stored := by
  rw [State.finishTracts, stored_foldl (by simp)]; rfl
@[simp ↓] theorem stored_countEnded {tracts} : (t.countEnded tracts).stored = t.stored := by rfl
@[simp ↓] theorem stored_dropHolds {d copies} : (t.dropHolds d copies).stored = t.stored := by rfl
@[simp ↓] theorem stored_disownSlots {d ctx} : (t.disownSlots d ctx).stored = t.stored := by rfl
@[simp ↓] theorem stored_dropReports {d ctx} : (t.dropReports d ctx).stored = t.stored := by rfl
@[simp ↓] theorem stored_leaveContext {d ctx} : (t.leaveContext d ctx).stored = t.stored := by
  unfold State.leaveContext; split <;> rfl

/-! Issue and accesses. -/

@[simp ↓] theorem stored_keep {f} : (t.keep f).stored = t.stored := by rfl
@[simp ↓] theorem stored_settle {st c b} : (t.settle st c b).stored = t.stored := by unfold State.settle; split <;> rfl
@[simp ↓] theorem stored_mendSpill {st c c'} : (t.mendSpill st c c').stored = t.stored := by simp [State.mendSpill]
@[simp ↓] theorem stored_finishCord {st c} : (t.finishCord st c).stored = t.stored := by simp [State.finishCord]
@[simp ↓] theorem stored_drawIf {rs} : (t.drawIf rs).stored = t.stored := by unfold State.drawIf; split <;> rfl
@[simp ↓] theorem stored_notePart {id a p x} : (t.notePart id a p x).stored = t.stored := by rfl
@[simp ↓] theorem stored_noteSp {f stream reads acq} : (t.noteSp f stream reads acq).stored = t.stored := by
  unfold State.noteSp; split <;> rfl
@[simp ↓] theorem stored_takePlaces {x ps} : (t.takePlaces x ps).stored = t.stored := by
  unfold State.takePlaces; split <;> rfl
@[simp ↓] theorem stored_storeReleases {a p} : (t.storeReleases a p).stored = t.stored := by
  unfold State.storeReleases; split <;> rfl
@[simp ↓] theorem stored_addAccess {f k stream ord m d parts} :
    (t.addAccess f k stream ord m d parts).stored = t.stored := by
  unfold State.addAccess; split <;> rfl
@[simp ↓] theorem stored_mendLanes {st n addrs} : (t.mendLanes st n addrs).stored = t.stored := by
  simp [State.mendLanes]
@[simp ↓] theorem stored_flushHandles {f} : (t.flushHandles f).stored = t.stored := by rfl
@[simp ↓] theorem stored_fenced {i sid c m} : (t.fenced i sid c m).stored = t.stored := by rfl
@[simp ↓] theorem stored_prefetch {f va} : (t.prefetch f va).stored = t.stored := by
  unfold State.prefetch; dsimp only; split <;> simp

/-! Saved stands. -/

@[simp ↓] theorem stored_saveStruck {st pool} : (t.saveStruck st pool).stored = t.stored := by
  unfold State.saveStruck; split <;> rfl
@[simp ↓] theorem stored_loadStruck {st h} : (t.loadStruck st h).stored = t.stored := by
  unfold State.loadStruck; split <;> rfl
@[simp ↓] theorem stored_saveBad {st h} : (t.saveBad st h).stored = t.stored := by unfold State.saveBad; split <;> rfl
@[simp ↓] theorem stored_loadBad {sid h} : (t.loadBad sid h).stored = t.stored := by
  simp only [State.loadBad]
  split
  · rfl
  · exact stored_foldl fun _ _ => rfl
@[simp ↓] theorem stored_mendOf {sid off n} : (t.mendOf sid off n).stored = t.stored := by
  unfold State.mendOf; (repeat' split) <;> simp

/-! Engines, synchronization, lists and matrix tasks. -/

@[simp ↓] theorem stored_settled {f} : (t.settled f).stored = t.stored := by rfl
@[simp ↓] theorem stored_begin {f d m w} : (t.begin f d m w).stored = t.stored := by rfl
@[simp ↓] theorem stored_answer {f d lo hi} : (t.answer f d lo hi).stored = t.stored := by rfl
@[simp ↓] theorem stored_beginCopy {f d m k} : (t.beginCopy f d m k).stored = t.stored := by rfl
@[simp ↓] theorem stored_countBarrier {sid o k last arm} : (t.countBarrier sid o k last arm).stored = t.stored := by
  unfold State.countBarrier; (repeat' split) <;> simp
@[simp ↓] theorem stored_pinSlot {d c slot} : (t.pinSlot d c slot).stored = t.stored := by rfl
@[simp ↓] theorem stored_endFill {d c slot owner f} : (t.endFill d c slot owner f).stored = t.stored := by rfl
@[simp ↓] theorem stored_result {f d x} : (t.result f d x).stored = t.stored := by rfl
@[simp ↓] theorem stored_wakeWaiter {d w} : (t.wakeWaiter d w).stored = t.stored := by
  unfold State.wakeWaiter; (repeat' split) <;> simp
@[simp ↓] theorem stored_sendWakes {d pa} : (t.sendWakes d pa).stored = t.stored := stored_foldl fun _ _ => rfl
@[simp ↓] theorem stored_releaseOf {t'} : (t.releaseOf t').stored = t.stored := by rfl
@[simp ↓] theorem stored_releaseOrigin {o h} : (t.releaseOrigin o h).stored = t.stored := by
  unfold State.releaseOrigin; split <;> simp
@[simp ↓] theorem stored_dequeOrder {t' op stores hs} : (t.dequeOrder t' op stores hs).stored = t.stored := by
  unfold State.dequeOrder; dsimp only; split <;> simp
@[simp ↓] theorem stored_beginDeque {f d n op} : (t.beginDeque f d n op).stored = t.stored := by rfl
@[simp ↓] theorem stored_writeGroup {t' ws} : (t.writeGroup t' ws).stored = t.stored := by rfl
@[simp ↓] theorem stored_acquireWord {f g} : (t.acquireWord f g).stored = t.stored := by simp [State.acquireWord]
@[simp ↓] theorem stored_onRow {sid base w row racy g} : (t.onRow sid base w row racy g).stored = t.stored := by
  unfold State.onRow; (repeat' split) <;> simp
@[simp ↓] theorem stored_insertAt {sid base w racy row c} : (t.insertAt sid base w racy row c).stored = t.stored := by
  simp [State.insertAt]
@[simp ↓] theorem stored_enlist {f d w op} : (t.enlist f d w op).stored = t.stored := by rfl
@[simp ↓] theorem stored_popList {core} : (t.popList core).stored = t.stored := by rfl
@[simp ↓] theorem stored_modTask {d c t' f} : (t.modTask d c t' f).stored = t.stored := by rfl
@[simp ↓] theorem stored_spoil {st a n} : (t.spoil st a n).stored = t.stored := by rfl
@[simp ↓] theorem stored_mstatSeen {f} : (t.mstatSeen f).stored = t.stored := by simp [State.mstatSeen]

/-! Flumes. -/

@[simp ↓] theorem stored_emitOn {p r w} : (t.emitOn p r w).stored = t.stored := by unfold State.emitOn; split <;> rfl
@[simp ↓] theorem stored_emit {d bid q flits w} : (t.emit d bid q flits w).stored = t.stored := by simp [State.emit]
@[simp ↓] theorem stored_askCredit {d bid} : (t.askCredit d bid).stored = t.stored := by
  unfold State.askCredit; (repeat' split) <;> simp
@[simp ↓] theorem stored_sendReserve {t' d b n put o} : (t.sendReserve t' d b n put o).stored = t.stored := by
  simp [State.sendReserve]
@[simp ↓] theorem stored_freeReserve {id t' d b n put} : (t.freeReserve id t' d b n put).stored = t.stored := by
  simp [State.freeReserve]
@[simp ↓] theorem stored_failFlume {id d ctx t' pc reason q h} :
    (t.failFlume id d ctx t' pc reason q h).stored = t.stored :=
  by rfl
@[simp ↓] theorem stored_sendReply {id t' home lo hi} : (t.sendReply id t' home lo hi).stored = t.stored := by rfl
@[simp ↓] theorem stored_carryElement {d q seq runs} : (t.carryElement d q seq runs).stored = t.stored := by
  simp [State.carryElement]
@[simp ↓] theorem stored_portResult {d p r} : (t.portResult d p r).stored = t.stored := by rfl
@[simp ↓] theorem stored_failOps {q reason} : (t.failOps q reason).stored = t.stored := by
  rw [State.failOps, stored_foldl (by simp)]; rfl
@[simp ↓] theorem stored_removeFlume {f} : (t.removeFlume f).stored = t.stored := by simp [State.removeFlume]

/-! Launch and restoring. -/

@[simp ↓] theorem stored_answerHost {r} : (t.answerHost r).stored = t.stored := by rfl
@[simp ↓] theorem stored_modTract {id f} : (t.modTract id f).stored = t.stored := by rfl
@[simp ↓] theorem stored_bindSet {d c o} : (t.bindSet d c o).stored = t.stored := by rfl
@[simp ↓] theorem stored_claim {st} : (t.claim st).stored = t.stored := by rfl
@[simp ↓] theorem stored_loseClaims {a base tokens} : (t.loseClaims a base tokens).stored = t.stored := by rfl
@[simp ↓] theorem stored_resume {sid} : (t.resume sid).stored = t.stored := by rfl
@[simp ↓] theorem stored_swapFence {st} : (t.swapFence st).stored = t.stored := by simp [State.swapFence]
@[simp ↓] theorem stored_restoreStand {t' d v core cslots} : (t.restoreStand t' d v core cslots).stored = t.stored := by
  simp [State.restoreStand]
@[simp ↓] theorem stored_asFence {f} : (t.asFence f).stored = t.stored := by rfl

/-! Links, resets and tests. -/

@[simp ↓] theorem stored_modLink {k f} : (t.modLink k f).stored = t.stored := by rfl
@[simp ↓] theorem stored_raiseMsix {n} : (t.raiseMsix n).stored = t.stored := by rfl
@[simp ↓] theorem stored_steer {p} : (t.steer p).stored = t.stored := by
  unfold State.steer; dsimp only; (repeat' split) <;> simp
@[simp ↓] theorem stored_linkDown {port} : (t.linkDown port).stored = t.stored := by simp [State.linkDown]
@[simp ↓] theorem stored_failCredits {d} : (t.failCredits d).stored = t.stored := by
  refine stored_foldl fun u r => ?_
  split <;> rfl
@[simp ↓] theorem stored_failDie {d} : (t.failDie d).stored = t.stored := by
  rw [State.failDie, stored_foldl (by simp)]; rfl
@[simp ↓] theorem stored_harvest {d} : (t.harvest d).stored = t.stored := by rfl
@[simp ↓] theorem stored_testCores {d} : (t.testCores d).stored = t.stored := by
  simp only [State.testCores]
  split <;> rfl
@[simp ↓] theorem stored_testLink {k} : (t.testLink k).stored = t.stored := by
  simp only [State.testLink]
  (repeat' split) <;> rfl
@[simp ↓] theorem stored_unplace {st} : (t.unplace st).stored = t.stored := by simp [State.unplace]

/-! The clock and the issuer. -/

@[simp ↓] theorem stored_sense : t.sense.stored = t.stored := by rfl
@[simp ↓] theorem stored_tick : t.tick.stored = t.stored := by rfl
@[simp ↓] theorem stored_noteIssue {i} : (t.noteIssue i).stored = t.stored := by unfold State.noteIssue; split <;> rfl
end

end Sys2Proof.Machine
end

section
/-! SUPPORT. What every step keeps of what is stored, and the operations on memory, on event rings and on stands that
keep it. -/

namespace Sys2Proof.Machine

/-- What every step keeps: memories that were canonical are canonical, and the contrail table is the same. -/
def Stored.Keeps (a b : Stored) : Prop :=
  (a.hbm.wf = true → b.hbm.wf = true) ∧ (a.hostMem.wf = true → b.hostMem.wf = true) ∧ b.contrails = a.contrails

section
variable {a : Stored} {t u : State}

theorem Stored.Keeps.refl : a.Keeps a := ⟨id, id, rfl⟩

@[simp ↓] theorem keeps_ite {c : Prop} [Decidable c] {b b' : Stored} :
    a.Keeps (if c then b else b') ↔ if c then a.Keeps b else a.Keeps b' := by split <;> rfl

theorem hbm_of_stored (e : t.stored = u.stored) : t.hbm = u.hbm := congrArg Stored.hbm e

theorem stored_ringPut {d e x} : (t.ringPut d e x).stored =
    let r := (t.die d).ring
    ⟨t.hbm, t.hostMem.put (r.base.toNat * 4096 + 64 * (r.tail.toNat % r.entries)) (eventBytes e x r.rseq),
      t.contrails⟩ := by
  simp only [State.ringPut, State.stored, State.modDie_hbm, State.modDie_hostMem, State.modDie_contrails]

namespace Stored.Keeps

/-- A new HBM that is canonical where the old one is. -/
theorem withHbm (h : a.Keeps t.stored) {m : Memory} (hm : t.hbm.wf = true → m.wf = true) :
    a.Keeps ⟨m, t.hostMem, t.contrails⟩ := ⟨hm ∘ h.1, h.2⟩

theorem withHostMem (h : a.Keeps t.stored) {m : Memory} (hm : t.hostMem.wf = true → m.wf = true) :
    a.Keeps ⟨t.hbm, m, t.contrails⟩ := ⟨h.1, hm ∘ h.2.1, h.2.2⟩

/-- A result of an operation that answers a state and a value. -/
theorem of_eq {α : Type} {x : State × α} {r : α} (h : a.Keeps x.1.stored) (e : x = (t, r)) : a.Keeps t.stored := by
  subst e; exact h

theorem foldl {α : Type} {l : List α} {f : State → α → State} (h : a.Keeps t.stored)
    (hf : ∀ u x, a.Keeps u.stored → a.Keeps (f u x).stored) : a.Keeps (l.foldl f t).stored := by
  induction l generalizing t with
  | nil => exact h
  | cons x r ih => exact ih (hf t x h)

/-! Event rings: records are put into host memory. -/

@[simp ↓] theorem ringPut (h : a.Keeps t.stored) {d e x} : a.Keeps (t.ringPut d e x).stored := by
  rw [stored_ringPut]; exact h.withHostMem fun hw => Memory.wf_put hw _ _

@[simp ↓] theorem ringMove (h : a.Keeps t.stored) {d} : a.Keeps (t.ringMove d).stored := by
  unfold State.ringMove; dsimp only; (repeat' split) <;> simp [h]

@[simp ↓] theorem post (h : a.Keeps t.stored) {d e} : a.Keeps (t.post d e).stored := by
  have h' := h.foldl (l := List.range ((t.die d).ring.buffer.length + (t.die d).ring.waits.length))
    (f := fun s _ => s.ringMove d) fun _ _ h => h.ringMove
  unfold State.post; dsimp only; split <;> simp [h']

@[simp ↓] theorem violation (h : a.Keeps t.stored) {x pa n v} : a.Keeps (t.violation x pa n v).stored := by
  simp [State.violation, h]

/-! Translation. -/

@[simp ↓] theorem translate (h : a.Keeps t.stored) {x u va} : a.Keeps (t.translate x u va).1.stored := by
  have hl : a.Keeps (t.lookup x.die x.tlbCore x.ctx va).1.stored := by simp [h]
  unfold State.translate
  split
  next e => exact hl.of_eq e
  next e =>
    have := hl.of_eq e
    dsimp only
    split_ifs <;> simp [this]

@[simp ↓] theorem translateAll (h : a.Keeps t.stored) {x u vas} : a.Keeps (t.translateAll x u vas).1.stored := by
  induction vas generalizing t with
  | nil => exact h
  | cons va r ih =>
    unfold State.translateAll
    split
    next e => exact h.translate.of_eq e
    next e =>
      have := ih (h.translate.of_eq e)
      split <;> next e => exact this.of_eq e

/-! HBM. -/

@[simp ↓] theorem hbmSet (h : a.Keeps t.stored) {p bs} : a.Keeps (t.hbmSet p bs).stored := by
  rw [State.hbmSet, stored_mended]; exact h.withHbm fun hw => Memory.wf_put hw _ _

@[simp ↓] theorem hbmPut (h : a.Keeps t.stored) {p bs} : a.Keeps (t.hbmPut p bs).stored := by
  simp [State.hbmPut, h]

/-- A future's two words are written: HBM holds what they leave of it. -/
theorem setFuture (h : a.Keeps u.stored) {p m} (hm : u.hbm.wf = true → m.wf = true)
    (e : t.stored = u.stored := by rfl) : a.Keeps (t.setFuture p m).stored :=
  withHbm (t := t) (e ▸ h) (by rwa [hbm_of_stored e])

theorem wf_futureWithdraw {m : Memory} (h : m.wf = true) (p : Nat) : (futureWithdraw m p).wf = true := by
  unfold futureWithdraw; dsimp only; split
  · exact Memory.wf_store h _ _ _
  · exact h

@[simp ↓] theorem withdrawFuture (h : a.Keeps t.stored) {p q} :
    a.Keeps (t.setFuture p (futureWithdraw t.hbm q)).stored :=
  h.setFuture fun hw => wf_futureWithdraw hw q

@[simp ↓] theorem storeFuture (h : a.Keeps t.stored) {p q n v} : a.Keeps (t.setFuture p (t.hbm.store q n v)).stored :=
  h.setFuture fun hw => Memory.wf_store hw q n v

/-! The end of stands and contexts, and exceptions. -/

@[simp ↓] theorem unregisterTask (h : a.Keeps t.stored) {d x} : a.Keeps (t.unregisterTask d x).stored :=
  h.foldl fun _ _ h => h.withdrawFuture

@[simp ↓] theorem unregisterTasks (h : a.Keeps t.stored) {d} {l : List Task} :
    a.Keeps (l.foldl (fun s x => s.unregisterTask d x) t).stored := h.foldl fun _ _ h => h.unregisterTask

@[simp ↓] theorem dropTasks (h : a.Keeps t.stored) {d c sid} : a.Keeps (t.dropTasks d c sid).stored := by
  have h' := h.foldl (l := (t.core d c).allTasks.filter fun x => x.sid = sid)
    (f := fun s x => (if x.pinned then s.unpin d c x.pin else s).unregisterTask d x) fun u x h => by simp [h]
  unfold State.dropTasks; dsimp only; split <;> simp [h']

@[simp ↓] theorem killStand (h : a.Keeps t.stored) {st} : a.Keeps (t.killStand st).stored := by
  have h' := h.foldl (l := st.futuresWaited) (f := fun s pa =>
    s.setFuture (hAddr st.die pa) (futureWithdraw s.hbm (hAddr st.die pa))) fun _ _ h => h.withdrawFuture
  simp [State.killStand, h']

@[simp ↓] theorem endContext (h : a.Keeps t.stored) {d ctx code e} : a.Keeps (t.endContext d ctx code e).stored := by
  have hk := fun (u : State) (hu : a.Keeps u.stored) (l : List Stand) =>
    foldl (l := l) hu fun _ st h => h.killStand (st := st)
  unfold State.endContext
  refine post ?_
  simp [h, hk]

@[simp ↓] theorem trapInFlight (h : a.Keeps t.stored) {d r} : a.Keeps (t.trapInFlight d r).stored := by
  unfold State.trapInFlight; dsimp only; (repeat' split) <;> simp [h]

@[simp ↓] theorem scanWaits (h : a.Keeps t.stored) {d c} : a.Keeps (t.scanWaits d c).stored :=
  h.foldl fun u w h => by split <;> simp [h]

@[simp ↓] theorem withdraw (h : a.Keeps t.stored) {sid c b} : a.Keeps (t.withdraw sid c b).stored := by
  unfold State.withdraw; dsimp only; (repeat' split) <;> simp [h]

@[simp ↓] theorem stopStand (h : a.Keeps t.stored) {sid cause re c b} :
    a.Keeps (t.stopStand sid cause re c b).stored := by
  unfold State.stopStand
  split
  · exact h
  · split
    · exact foldl (by simp [h]) fun u x hu => by simp [hu]
    · split <;> simp [h]
    · exact h

@[simp ↓] theorem takeTrap (h : a.Keeps t.stored) {f x imm pc} : a.Keeps (t.takeTrap f x imm pc).stored := by
  simp [State.takeTrap, h]

@[simp ↓] theorem trapDevice (h : a.Keeps t.stored) {o r} : a.Keeps (t.trapDevice o r).stored := by
  unfold State.trapDevice; split <;> simp [h]

@[simp ↓] theorem pageEvent (h : a.Keeps t.stored) {o va} : a.Keeps (t.pageEvent o va).stored := by
  unfold State.pageEvent; refine post ?_; exact h

@[simp ↓] theorem holdWork (h : a.Keeps t.stored) {o id va} : a.Keeps (t.holdWork o id va).stored := by
  unfold State.holdWork; refine pageEvent ?_; exact h

end Stored.Keeps
end

end Sys2Proof.Machine
end

section
/-! SUPPORT. Accesses, copies, synchronization, tasks, flumes, combine buffers and resets keep what is stored. -/

namespace Sys2Proof.Machine

section
variable {a : Stored} {t u : State}

theorem Memory.wf_foldl {α : Type} {l : List α} {f : Memory → α → Memory} {m : Memory} (h : m.wf = true)
    (hf : ∀ m x, Memory.wf m = true → (f m x).wf = true) : Memory.wf (l.foldl f m) = true := by
  induction l generalizing m with
  | nil => exact h
  | cons x r ih => exact ih (hf m x h)

/-! What answers a state that is stored as before, beside a value. -/

@[simp ↓] theorem stored_loadPast {p sid c h n} : (t.loadPast p sid c h n).1.stored = t.stored := by
  unfold State.loadPast; dsimp only; split <;> rfl

@[simp ↓] theorem stored_mergeRows {e st base racy image rows n} :
    (t.mergeRows e st base racy image rows n).1.stored = t.stored := by
  induction rows generalizing t n with
  | nil => rfl
  | cons r rest ih => unfold State.mergeRows; simp [ih]

@[simp ↓] theorem stored_handle {f h} : (t.handle f h).1.stored = t.stored := by
  unfold State.handle; dsimp only; (repeat' split) <;> rfl

@[simp ↓] theorem stored_lookupHandle {f h right} : (t.lookupHandle f h right).1.stored = t.stored := by
  unfold State.lookupHandle; dsimp only; (repeat' split) <;> simp

@[simp ↓] theorem stored_storeLaunch {d l} : (t.storeLaunch d l).1.stored = t.stored := by rfl
@[simp ↓] theorem stored_resumeToken {tok} : (t.resumeToken tok).1.stored = t.stored := by rfl

namespace Stored.Keeps

/-! Accesses. -/

@[simp ↓] theorem fetch (h : a.Keeps t.stored) {f} : a.Keeps (t.fetch f).1.stored := by
  unfold State.fetch
  split
  next e => exact h.translate.of_eq e
  next e => split <;> exact h.translate.of_eq e

@[simp ↓] theorem fetchTrap (h : a.Keeps t.stored) {f x} : a.Keeps (t.fetchTrap f x).stored := h.takeTrap

@[simp ↓] theorem reach (h : a.Keeps t.stored) {x v va n} : a.Keeps (t.reach x v va n).1.stored := by
  unfold State.reach; dsimp only
  split <;> next e => exact h.translateAll.of_eq e

@[simp ↓] theorem reachLanes (h : a.Keeps t.stored) {x v n data rows} :
    a.Keeps (t.reachLanes x v n data rows).1.stored := by
  induction rows generalizing t with
  | nil => exact h
  | cons r rest ih =>
    unfold State.reachLanes
    split
    next e => exact h.reach.of_eq e
    next e => split <;> next e' => exact (ih (h.reach.of_eq e)).of_eq e'

@[simp ↓] theorem performPart (h : a.Keeps t.stored) {id x p} : a.Keeps (t.performPart id x p).1.stored := by
  unfold State.performPart; dsimp only; split <;> simp [h]

@[simp ↓] theorem performAccess (h : a.Keeps t.stored) {id} : a.Keeps (t.performAccess id).stored := by
  unfold State.performAccess; dsimp only; (repeat' split) <;> simp [h]

@[simp ↓] theorem engineReach (h : a.Keeps t.stored) {x v va n} : a.Keeps (t.engineReach x v va n).1.stored := by
  unfold State.engineReach; dsimp only
  split
  next e => exact h.reach.of_eq e
  next e => split <;> exact h.reach.of_eq e

@[simp ↓] theorem reachAll (h : a.Keeps t.stored) {x rows} : a.Keeps (t.reachAll x rows).1.stored := by
  induction rows generalizing t with
  | nil => exact h
  | cons r rest ih =>
    unfold State.reachAll
    split
    · exact h
    · split
      next e => exact h.engineReach.of_eq e
      next e => split <;> next e' => exact (ih (h.engineReach.of_eq e)).of_eq e'

@[simp ↓] theorem scatter (h : a.Keeps t.stored) {runs bs} : a.Keeps (t.scatter runs bs).stored := by
  induction runs generalizing t bs with
  | nil => exact h
  | cons r rest ih => exact ih h.hbmPut

@[simp ↓] theorem putSp (h : a.Keeps t.stored) {sid c m off bs} : a.Keeps (t.putSp sid c m off bs).stored := by
  unfold State.putSp; (repeat' split) <;> simp [h]

/-! Images and status registers of a saved stand. -/

theorem wf_patchImage {m : Memory} (h : m.wf = true) (p c n : Nat) (k : Mask) (w : Word) :
    (patchImage m p c n k w).wf = true := by
  unfold patchImage; dsimp only
  split
  · exact Memory.wf_foldl h fun _ _ hm => Memory.wf_store hm _ _ _
  · exact h

@[simp ↓] theorem putImage (h : a.Keeps t.stored) {p st head} : a.Keeps (t.putImage p st head).stored := by
  rw [State.putImage, stored_saveBad, stored_withHbm]
  refine withHbm (by simp [h]) fun hw => Memory.wf_overlay (Memory.wf_overlay (Memory.wf_put ?_ _ _) _ _ _) _ _ _
  rwa [hbm_of_stored (u := t) (by simp)] at hw

@[simp ↓] theorem writeDest (h : a.Keeps t.stored) {d lo hi} : a.Keeps (t.writeDest d lo hi).stored := by
  unfold State.writeDest
  split
  · exact h
  · split
    · rw [stored_withHbm]; exact h.withHbm fun hw => wf_patchImage (wf_patchImage hw _ _ _ _ _) _ _ _ _ _
    · exact h

@[simp ↓] theorem writeHalf (h : a.Keeps t.stored) {d n w} : a.Keeps (t.writeHalf d n w).stored := by
  unfold State.writeHalf
  split
  · exact h
  · split
    · rw [stored_withHbm]; exact h.withHbm fun hw => wf_patchImage hw _ _ _ _ _
    · exact h

@[simp ↓] theorem writeStatus (h : a.Keeps t.stored) {d lo hi} : a.Keeps (t.writeStatus d lo hi).stored := by
  simp [State.writeStatus, h]

/-! Engines. -/

theorem engineFault (h : a.Keeps t.stored) {o id e stop} (hs : ∀ u r, a.Keeps u.stored → a.Keeps (stop u r).stored) :
    a.Keeps (t.engineFault o id e stop).stored := by
  unfold State.engineFault
  split
  · exact h.holdWork
  · exact hs _ _ h

@[simp ↓] theorem copyStatus (h : a.Keeps t.stored) {id d lo n} : a.Keeps (t.copyStatus id d lo n).stored := by
  simp [State.copyStatus, h]

@[simp ↓] theorem copyFault (h : a.Keeps t.stored) {d n r} : a.Keeps (State.copyFault d n t r).stored := by
  simp [State.copyFault, h]

@[simp ↓] theorem laneFault (h : a.Keeps t.stored) {d n m r} : a.Keeps (State.laneFault d n m t r).stored := by
  simp [State.laneFault, h]

@[simp ↓] theorem plan (h : a.Keeps t.stored) {x sid srcG dstG moves} :
    a.Keeps (t.plan x sid srcG dstG moves).1.stored := by
  induction moves generalizing t with
  | nil => exact h
  | cons m rest ih =>
    unfold State.plan
    split
    next e => exact of_eq (by simp [h]) e
    next e =>
      have hs := of_eq (a := a) (by simp [h]) e
      split
      next e => exact of_eq (by simp [hs]) e
      next e => exact ih (of_eq (by simp [hs]) e)

@[simp ↓] theorem putPiece (h : a.Keeps t.stored) {g d p bs} : a.Keeps (t.putPiece g d p bs).stored := by
  simp [State.putPiece, h]

theorem moveAll (h : a.Keeps t.stored) {id d srcG dstG moves n stop}
    (hs : ∀ ps u r, a.Keeps u.stored → a.Keeps (stop ps u r).stored) :
    a.Keeps (t.moveAll id d srcG dstG moves n stop).stored := by
  unfold State.moveAll
  split
  · exact h
  · dsimp only
    split
    · simp [h]
    · split
      · exact copyStatus (foldl (by simp [h]) fun u x hu => hu.putPiece)
      · exact hs _ _ _ (foldl (by simp [h]) fun u x hu => hu.putPiece)

@[simp ↓] theorem park (h : a.Keeps t.stored) {f w} : a.Keeps (t.park f w).stored := by
  unfold State.park; dsimp only; split <;> simp [h]

@[simp ↓] theorem crossBeat (h : a.Keeps t.stored) {id d die c src dst obj n rc sent x} :
    a.Keeps (t.crossBeat id d die c src dst obj n rc sent x).stored := by
  unfold State.crossBeat; dsimp only; (repeat' split) <;> simp [h]

@[simp ↓] theorem takePin (h : a.Keeps t.stored) {id d die c slot} : a.Keeps (t.takePin id d die c slot).stored := by
  unfold State.takePin; dsimp only; (repeat' split) <;> simp [h]

@[simp ↓] theorem register (h : a.Keeps t.stored) {f glob addr named spill w} :
    a.Keeps (t.register f glob addr named spill w).stored := by
  unfold State.register; refine park ?_; exact h

@[simp ↓] theorem wakeAddr (h : a.Keeps t.stored) {d c glob addr sid} :
    a.Keeps (t.wakeAddr d c glob addr sid).stored := by
  simp [State.wakeAddr, h]

theorem wf_resolveFuture {m m' : Memory} {p v poison wakes} (h : m.wf = true)
    (e : resolveFuture m p v poison = some (m', wakes)) : m'.wf = true := by
  unfold resolveFuture at e
  dsimp only at e
  split at e
  · cases e
  · cases e; exact Memory.wf_store (Memory.wf_store h _ _ _) _ _ _

@[simp ↓] theorem performL2 (h : a.Keeps t.stored) {id} : a.Keeps (t.performL2 id).stored := by
  unfold State.performL2
  split
  · split
    · exact h
    · extract_lets q u
      have hu : a.Keeps u.stored := by
        simp only [u, q]
        split
        · exact h
        · split <;> next e => exact h.translate.of_eq e
      clear_value u
      split
      · exact engineFault hu fun _ _ hu => hu.trapDevice
      · split
        · simp [hu]
        · split
          · simp [hu]
          next e =>
            rw [stored_ite, stored_sendWakes, ite_self]
            exact hu.setFuture (fun hw => wf_resolveFuture hw e) (by simp)
  · split
    next e =>
      refine engineFault (h.engineReach.of_eq e) fun _ _ hu => ?_
      split <;> simp [hu]
    next e =>
      have hu := h.engineReach.of_eq e
      dsimp only
      split <;> simp [hu]
  · exact h

@[simp ↓] theorem writeBacked (h : a.Keeps t.stored) {st b} : a.Keeps (t.writeBacked st b).1.stored := by
  unfold State.writeBacked; dsimp only
  split <;> next e => simp [h.engineReach.of_eq e]

@[simp ↓] theorem readDep (h : a.Keeps t.stored) {st x reg va} : a.Keeps (t.readDep st x reg va).stored := by
  unfold State.readDep; dsimp only
  split <;> next e => simp [h.engineReach.of_eq e]

@[simp ↓] theorem taskError (h : a.Keeps t.stored) {st x} : a.Keeps (t.taskError st x).stored := h.trapDevice

@[simp ↓] theorem addL2 (h : a.Keeps t.stored) {w} : a.Keeps (t.addL2 w).stored := by
  simp [State.addL2, h]

@[simp ↓] theorem reportTask (h : a.Keeps t.stored) {st x n} : a.Keeps (t.reportTask st x n).stored := by
  unfold State.reportTask; dsimp only; (repeat' split) <;> simp [h]

/-! Flumes. -/

@[simp ↓] theorem releaseReserves (h : a.Keeps t.stored) {d bid} : a.Keeps (t.releaseReserves d bid).stored :=
  h.foldl fun u i hu => by (repeat' split) <;> simp [hu]

@[simp ↓] theorem portCheck (h : a.Keeps t.stored) {q x} : a.Keeps (t.portCheck q x).1.stored := by
  unfold State.portCheck; (repeat' split) <;> simp [h]

@[simp ↓] theorem spillRuns (h : a.Keeps t.stored) {d fl q refill} : a.Keeps (t.spillRuns d fl q refill).1.stored := by
  unfold State.spillRuns
  split
  · exact h
  · split <;> next e => exact h.reach.of_eq e

@[simp ↓] theorem reserveOrPark (h : a.Keeps t.stored) {f b d n put} :
    a.Keeps (t.reserveOrPark f b d n put).stored := by
  unfold State.reserveOrPark; dsimp only; split <;> simp [h]

/-! Launch and combine buffers. -/

@[simp ↓] theorem poisonRefused (h : a.Keeps t.stored) {d l} : a.Keeps (t.poisonRefused d l).stored := by
  unfold State.poisonRefused; dsimp only
  split
  · exact h
  · split
    next e => exact h.translate.of_eq e
    next e =>
      have hu := h.translate.of_eq e
      split
      · exact hu
      next e =>
        rw [stored_ite, stored_sendWakes, ite_self]
        exact hu.setFuture fun hw => wf_resolveFuture hw e

@[simp ↓] theorem combineFault (h : a.Keeps t.stored) {id d n r} : a.Keeps (t.combineFault id d n r).stored := by
  simp [State.combineFault, h]

/-- What a part of a combine operation answers: a state to go on from, or the one it ends in. -/
def Either {α : Type} (a : Stored) : Except State (State × α) → Prop
  | .ok (t, _) | .error t => a.Keeps t.stored

theorem of_error {α : Type} {x : Except State (State × α)} (h : Either a x) (e : x = .error t) : a.Keeps t.stored := by
  subst e; exact h

theorem of_ok {α : Type} {x : Except State (State × α)} {r : α} (h : Either a x) (e : x = .ok (t, r)) :
    a.Keeps t.stored := by
  subst e; exact h

theorem combineReach (h : a.Keeps t.stored) {id d n x v va k} : Either a (t.combineReach id d n x v va k) := by
  have hr : a.Keeps (if 2 ^ 57 < va + k then (t, .error (.addressRange, va)) else t.engineReach x v va k).1.stored := by
    simp [h]
  unfold State.combineReach
  split
  next e => exact hr.of_eq e
  next e => exact engineFault (hr.of_eq e) fun _ _ hu => hu.copyFault

theorem combineSlots (h : a.Keeps t.stored) {id d n x first k rs} : Either a (t.combineSlots id d n x first k rs) := by
  induction rs generalizing t with
  | nil => exact h
  | cons r rest ih =>
    unfold State.combineSlots
    split
    next e => exact of_error h.combineReach e
    next e =>
      have hu := of_ok h.combineReach e
      split
      next e => exact of_error (ih hu) e
      next e => exact of_ok (ih hu) e

@[simp ↓] theorem combineToken (h : a.Keeps t.stored) {id d x base token hd hdr tw w n} :
    a.Keeps (t.combineToken id d x base token hd hdr tw w n).stored := by
  unfold State.combineToken; dsimp only
  split
  next e => exact of_error h.combineSlots e
  next e =>
    have hu := of_ok h.combineSlots e
    split
    next e => exact of_error hu.combineReach e
    next e =>
      have hv {runs bs p b₁ q b₂} := (((of_ok hu.combineReach e).scatter (runs := runs) (bs := bs)).hbmPut (p := p)
        (bs := b₁)).hbmPut (p := q) (bs := b₂)
      (repeat' split) <;> simp [hv]

@[simp ↓] theorem combineStep (h : a.Keeps t.stored) {id d base rank token off skip stage x} :
    a.Keeps (t.combineStep id d base rank token off skip stage x).stored := by
  unfold State.combineStep; dsimp only
  split
  next e => exact of_error h.combineReach e
  next e =>
    have hu := of_ok h.combineReach e
    iterate 4
      split
      · simp [hu]
    split
    next e => exact of_error hu.combineReach e
    next e =>
      have hv := of_ok hu.combineReach e
      split
      · exact hv
      · simp [hu, hv]
      · split
        · simp [hv]
        · split
          next e => exact of_error hv.combineReach e
          next e => have := of_ok hv.combineReach e; split <;> simp [this]
      · have hp {p bs} := hbmPut (t := State.releaseOf _ d) (p := p) (bs := bs) (by simpa using hv)
        (repeat' split) <;> simp [hp]

@[simp ↓] theorem combineInit (h : a.Keeps t.stored) {id d base image x} :
    a.Keeps (t.combineInit id d base image x).stored := by
  unfold State.combineInit; dsimp only
  split
  next e => exact of_error h.combineReach e
  next e => simp [of_ok h.combineReach e]

/-! The system. -/

@[simp ↓] theorem streamRows (h : a.Keeps t.stored) {st r n} : a.Keeps (t.streamRows st r n).stored := by
  unfold State.streamRows; dsimp only; split <;> simp [h]

@[simp ↓] theorem leaveArray (h : a.Keeps t.stored) {st} : a.Keeps (t.leaveArray st).stored := by
  unfold State.leaveArray; dsimp only; (repeat' split) <;> simp [h]

@[simp ↓] theorem resetCores (h : a.Keeps t.stored) {d} : a.Keeps (t.resetCores d).stored := by
  rw [State.resetCores, stored_modDie]
  exact foldl (by simp [h]) fun u c hu => hu.endContext

@[simp ↓] theorem resetUncore (h : a.Keeps t.stored) {d} : a.Keeps (t.resetUncore d).stored := by
  simp [State.resetUncore, h]

theorem wf_rewind {m : Memory} (h : m.wf = true) (es : List Past) : (rewind m es).wf = true :=
  Memory.wf_foldl h fun _ _ hm => Memory.wf_put hm _ _

@[simp ↓] theorem loseDirty (h : a.Keeps t.stored) {d} : a.Keeps (t.loseDirty d).stored := by
  refine withHbm (t := t) h fun hw => ?_
  exact Memory.wf_foldl hw fun _ _ hm => wf_rewind hm _

@[simp ↓] theorem noteMove (h : a.Keeps t.stored) {m} : a.Keeps (t.noteMove m).stored := by
  unfold State.noteMove; split <;> exact h

end Stored.Keeps
end

end Sys2Proof.Machine
end

section
/-! SUPPORT. What an outcome keeps, and what the instructions share. -/

namespace Sys2Proof.Machine

/-- An outcome's next state keeps what was stored. (Irreducible: unfolding it would run the step.) -/
@[irreducible] def Stored.Next (a : Stored) : Host.Outcome State Fault Refusal → Prop
  | .next t => a.Keeps t.stored
  | .fault _ | .refused _ => True

/-- The state in which an instruction's effect is done, or its fault is met, keeps what was stored. -/
def Stored.Did (a : Stored) : Machine.Did → Prop
  | .done t | .trap t _ => a.Keeps t.stored
  | .held => True

section
variable {a : Stored} {t : State}

@[simp ↓] theorem next_next : a.Next (.next t) ↔ a.Keeps t.stored := by unfold Stored.Next; rfl
theorem next_fault {r} : a.Next (.fault r) := by unfold Stored.Next; trivial
@[simp ↓] theorem did_done : a.Did (.done t) ↔ a.Keeps t.stored := Iff.rfl
@[simp ↓] theorem did_trap {r} : a.Did (.trap t r) ↔ a.Keeps t.stored := Iff.rfl
@[simp ↓] theorem did_held : a.Did .held := trivial

@[simp ↓] theorem next_ite {c : Prop} [Decidable c] {x y : Host.Outcome State Fault Refusal} :
    a.Next (if c then x else y) ↔ if c then a.Next x else a.Next y := by split <;> rfl

@[simp ↓] theorem did_ite {c : Prop} [Decidable c] {x y : Machine.Did} :
    a.Did (if c then x else y) ↔ if c then a.Did x else a.Did y := by split <;> rfl

namespace Stored.Keeps

theorem unfocus (h : a.Keeps t.stored) : a.Keeps t.unfocus.stored := by simpa using h

theorem next (h : a.Keeps t.stored) : a.Next (.next t) := next_next.mpr h

@[simp ↓] theorem stopStands {l : List Stand} {cause re} (h : a.Keeps t.stored) :
    a.Keeps (l.foldl (fun s st => s.stopStand st.sid cause re 0 false) t).stored := h.foldl fun _ _ h => h.stopStand

/-! What instructions share. -/

theorem issue (h : a.Keeps t.stored) {i effect} (he : ∀ f, a.Did (effect f)) : a.Next (Machine.issue i t effect) := by
  unfold Machine.issue
  split
  · exact next_fault
  next f _ =>
    dsimp only
    split
    · simp [h]
    · split
      · simp [h]
      · have hf := he f
        split <;> next e => simp_all

theorem issueCord (h : a.Keeps t.stored) {i g} : a.Next (Machine.issueCord i t g) := h.issue fun f => by simp [h]

theorem aluDone (h : a.Keeps t.stored) {i dst f r} : a.Did (Machine.aluDone i dst t f r) := by
  simp [Machine.aluDone, h]

theorem issueAlu (h : a.Keeps t.stored) {i dst g} : a.Next (Machine.issueAlu i dst t g) := h.issue fun _ => h.aluDone

theorem issueCmp (h : a.Keeps t.stored) {i p g} : a.Next (Machine.issueCmp i p t g) := h.issue fun f => by simp [h]

theorem shiftImm (h : a.Keeps t.stored) {i d imm op} : a.Next (Machine.shiftImm i d imm op t) :=
  h.issue fun f => by dsimp only; split <;> simp [h]

theorem prefixHint (h : a.Keeps t.stored) {i g} : a.Next (Machine.prefixHint i t g) := h.issue fun f => by simp [h]

theorem actingHint (h : a.Keeps t.stored) {i g} : a.Next (Machine.actingHint i t g) := h.issue fun f => by simp [h]

theorem issueCtl (h : a.Keeps t.stored) {i g} : a.Next (Machine.issueCtl i t g) :=
  h.issue fun f => by
    split
    · split <;> simp [h]
    · simp [h]
    · simp [h]

theorem globalAccess (h : a.Keeps t.stored) {f k u n addrs data stream ordered m d} :
    a.Did (Machine.globalAccess t f k u n addrs data stream ordered m d) := by
  unfold Machine.globalAccess
  split
  · exact h
  · split
    next e => exact h.reachLanes.of_eq e
    next e => simp [h.reachLanes.of_eq e]

theorem issueFence (h : a.Keeps t.stored) {i} : a.Next (Machine.issueFence i t) :=
  h.issue fun f => by dsimp only; split <;> simp [h]

@[simp ↓] theorem futureAddr (h : a.Keeps t.stored) {f u r} : a.Keeps (Machine.futureAddr t f u r).1.stored := by
  unfold Machine.futureAddr; dsimp only
  split
  · exact h
  · split
    · exact h
    · split <;> next e => exact h.translate.of_eq e

@[simp ↓] theorem dequeTrap (h : a.Keeps t.stored) {f base c} : a.Keeps (Machine.dequeTrap t f base c).1.stored := by
  unfold Machine.dequeTrap
  split
  · exact h
  · split <;> next e => exact h.translate.of_eq e

theorem foldWord (h : a.Keeps t.stored) {i r w pick} : a.Next (Machine.foldWord i r w pick t) :=
  h.issue fun f => by dsimp only; (repeat' split) <;> simp [h]

theorem dequeue (h : a.Keeps t.stored) {i o wait} : a.Next (Machine.dequeue i o wait t) :=
  h.issue fun f => by
    split
    · exact h
    · split
      next e => exact of_eq (by simp [h]) e
      next e =>
        have hu := of_eq (a := a) (by simp [h]) e
        split
        · exact hu
        · split
          next e => exact hu.portCheck.of_eq e
          next e =>
            have hv := hu.portCheck.of_eq e
            (repeat' split) <;> simp [hv]

@[simp ↓] theorem sysResult (h : a.Keeps t.stored) {f d v} : a.Did (Machine.sysResult t f d v) := by
  simp [Machine.sysResult, h]

end Stored.Keeps
end

end Sys2Proof.Machine
end

section
/-! SUPPORT. Each instruction and each event of the machine keeps what is stored. -/

namespace Sys2Proof.Machine

section
variable {a : Stored} {t : State}
namespace Stored.Keeps

/-! Reserved words, control flow and conversions. -/

theorem execIllegalWord (h : a.Keeps t.stored) {w} : a.Next (Machine.execIllegalWord w t) :=
  h.issue fun f => by simp [h]

theorem execExit (h : a.Keeps t.stored) : a.Next (Machine.execExit t) :=
  h.issue fun f => by dsimp only; split <;> simp [h]

theorem execAgeingSwap (h : a.Keeps t.stored) {sid cord} : a.Next (Machine.execAgeingSwap sid cord t) := by
  unfold Machine.execAgeingSwap; dsimp only; (repeat' split) <;> simp [h]

theorem execFcvt (h : a.Keeps t.stored) {o dstF srcF r sat} :
    a.Next (Machine.execFcvt o dstF srcF r sat t) := h.issue fun _ => h.aluDone

/-! Accesses and fences. -/

theorem execMemAccessComplete (h : a.Keeps t.stored) {id} :
    a.Next (Machine.execMemAccessComplete id t) := h.performAccess.next

theorem execStoreAcknowledge (h : a.Keeps t.stored) {id} :
    a.Next (Machine.execStoreAcknowledge id t) := h.performAccess.next

theorem execTlbWalkDone (h : a.Keeps t.stored) {die ctx va} : a.Next (Machine.execTlbWalkDone die ctx va t) := by
  unfold Machine.execTlbWalkDone; dsimp only; split <;> simp [h]

theorem execLd (h : a.Keeps t.stored) {o} : a.Next (Machine.execLd o t) := h.issue fun _ => h.globalAccess

theorem execSt (h : a.Keeps t.stored) {o} : a.Next (Machine.execSt o t) := h.issue fun _ => h.globalAccess

theorem execLds (h : a.Keeps t.stored) {o} : a.Next (Machine.execLds o t) :=
  h.issue fun f => by dsimp only; (repeat' split) <;> simp [h]

theorem execSts (h : a.Keeps t.stored) {o} : a.Next (Machine.execSts o t) :=
  h.issue fun f => by dsimp only; (repeat' split) <;> simp [h]

theorem execSld (h : a.Keeps t.stored) {d x stream word} :
    a.Next (Machine.execSld d x stream word t) := h.issue fun _ => h.globalAccess

theorem execSst (h : a.Keeps t.stored) {d x stream word} :
    a.Next (Machine.execSst d x stream word t) := h.issue fun _ => h.globalAccess

theorem execAtom (h : a.Keeps t.stored) {o} : a.Next (Machine.execAtom o t) :=
  h.issue fun f => by
    dsimp only; split
    · exact h
    · exact h.globalAccess

theorem execAtoms (h : a.Keeps t.stored) {o} : a.Next (Machine.execAtoms o t) :=
  h.issue fun f => by dsimp only; (repeat' split) <;> simp [h]

theorem execPref (h : a.Keeps t.stored) {toL2 r v} : a.Next (Machine.execPref toL2 r v t) :=
  h.issue fun f => by simp [h]

/-! Copies. -/

theorem execCpy (h : a.Keeps t.stored) {d r v dir size} : a.Next (Machine.execCpy d r v dir size t) :=
  h.issue fun f => by dsimp only; (repeat' split) <;> simp [h]

theorem execCpyt (h : a.Keeps t.stored) {o s2h} : a.Next (Machine.execCpyt o s2h t) :=
  h.issue fun f => by
    extract_lets off r x g p
    clear_value p g x r off
    (repeat' split) <;> simp [h]

theorem execBari (h : a.Keeps t.stored) {o} : a.Next (Machine.execBari o t) :=
  h.issue fun f => by (repeat' split) <;> simp [h]

theorem execBarw (h : a.Keeps t.stored) {r} : a.Next (Machine.execBarw r t) :=
  h.issue fun f => by (repeat' split) <;> simp [h]

theorem execCpyx (h : a.Keeps t.stored) {o} : a.Next (Machine.execCpyx o t) :=
  h.issue fun f => by dsimp only; (repeat' split) <;> simp [h]

theorem execCpyxBeatArrive (h : a.Keeps t.stored) {id} : a.Next (Machine.execCpyxBeatArrive id t) := by
  unfold Machine.execCpyxBeatArrive; dsimp only; split <;> simp [h]

theorem execCpym (h : a.Keeps t.stored) {o} : a.Next (Machine.execCpym o t) :=
  h.issue fun f => by dsimp only; (repeat' split) <;> simp [h]

theorem execCpymPark (h : a.Keeps t.stored) {id} : a.Next (Machine.execCpymPark id t) := by
  unfold Machine.execCpymPark; dsimp only; (repeat' split) <;> simp [h]

theorem execMcdrain (h : a.Keeps t.stored) {o} : a.Next (Machine.execMcdrain o t) :=
  h.issue fun f => by dsimp only; (repeat' split) <;> simp [h]

theorem execMcdrainMatch (h : a.Keeps t.stored) {id} : a.Next (Machine.execMcdrainMatch id t) := by
  unfold Machine.execMcdrainMatch; dsimp only; (repeat' split) <;> simp [h]

theorem execShareWaitTimeout (h : a.Keeps t.stored) {id core} : a.Next (Machine.execShareWaitTimeout id core t) := by
  unfold Machine.execShareWaitTimeout; dsimp only; split <;> simp [h]

theorem execCopyDone (h : a.Keeps t.stored) {id} : a.Next (Machine.execCopyDone id t) := by
  unfold Machine.execCopyDone; dsimp only
  split
  · split
    · simp [h]
    · split
      · exact (moveAll h.unfocus fun _ _ _ hu => hu.laneFault).next
      · exact (moveAll h.unfocus fun _ _ _ hu => hu.copyFault).next
      · split <;> simp [h]
      · (repeat' split) <;> simp [h]
      · simp [h]
  · simp [h]

theorem execCpyw (h : a.Keeps t.stored) {o nb} : a.Next (Machine.execCpyw o nb t) :=
  h.issue fun f => by dsimp only; (repeat' split) <;> simp [h]

theorem execCpywClaimGrant (h : a.Keeps t.stored) {id} : a.Next (Machine.execCpywClaimGrant id t) := by
  unfold Machine.execCpywClaimGrant; dsimp only; split <;> simp [h]

theorem execCpywFillDone (h : a.Keeps t.stored) {id} : a.Next (Machine.execCpywFillDone id t) := by
  unfold Machine.execCpywFillDone; dsimp only; (repeat' split) <;> simp [h]

theorem execWevict (h : a.Keeps t.stored) {o nb} : a.Next (Machine.execWevict o nb t) :=
  h.issue fun f => by simp [h]

theorem execWevictClaimGrant (h : a.Keeps t.stored) {id} : a.Next (Machine.execWevictClaimGrant id t) := by
  unfold Machine.execWevictClaimGrant; dsimp only; split <;> simp [h]

/-! Crews, barriers and futures. -/

theorem execCjoin (h : a.Keeps t.stored) {o} : a.Next (Machine.execCjoin o t) :=
  h.issue fun f => by simp [h]

theorem execCleave (h : a.Keeps t.stored) {r} : a.Next (Machine.execCleave r t) :=
  h.issue fun f => by simp [h]

theorem execCbar (h : a.Keeps t.stored) {o} : a.Next (Machine.execCbar o t) :=
  h.issue fun f => by simp [h]

theorem execPbar (h : a.Keeps t.stored) {o} : a.Next (Machine.execPbar o t) :=
  h.issue fun f => by dsimp only; split <;> simp [h]

theorem execPbarBankStep (h : a.Keeps t.stored) {id} : a.Next (Machine.execPbarBankStep id t) := by
  unfold Machine.execPbarBankStep; dsimp only; (repeat' split) <;> simp [h]

theorem execPwait (h : a.Keeps t.stored) {o} : a.Next (Machine.execPwait o t) :=
  h.issue fun f => by dsimp only; (repeat' split) <;> simp [h]

theorem execFres (h : a.Keeps t.stored) {o poison} : a.Next (Machine.execFres o poison t) :=
  h.issue fun f => by
    split
    next e => exact h.futureAddr.of_eq e
    next e => simp [h.futureAddr.of_eq e]

theorem execFutureResolve (h : a.Keeps t.stored) {id} : a.Next (Machine.execFutureResolve id t) := by
  simp [Machine.execFutureResolve, h]

theorem execFutureWake (h : a.Keeps t.stored) {id} : a.Next (Machine.execFutureWake id t) := by
  unfold Machine.execFutureWake; dsimp only; split <;> simp [h]

theorem execFwait (h : a.Keeps t.stored) {o} : a.Next (Machine.execFwait o t) :=
  h.issue fun f => by
    split
    next e => exact h.futureAddr.of_eq e
    next e =>
      have hu := h.futureAddr.of_eq e
      (repeat' split) <;> simp [hu]

theorem execFtest (h : a.Keeps t.stored) {o} : a.Next (Machine.execFtest o t) :=
  h.issue fun f => by
    split
    next e => exact h.futureAddr.of_eq e
    next e => simp [h.futureAddr.of_eq e]

/-! Deques. -/

theorem execSpawn (h : a.Keeps t.stored) {o} : a.Next (Machine.execSpawn o t) :=
  h.issue fun f => by
    dsimp only; split
    · exact h
    · split
      · exact h
      · split
        next e => exact h.dequeTrap.of_eq e
        next e =>
          have hu := h.dequeTrap.of_eq e
          (repeat' split) <;> simp [hu]

theorem execTake (h : a.Keeps t.stored) {o} : a.Next (Machine.execTake o t) :=
  h.issue fun f => by
    dsimp only; split
    · exact h
    · split <;> next e => simp [h.dequeTrap.of_eq e]

theorem execSteal (h : a.Keeps t.stored) {o} : a.Next (Machine.execSteal o t) :=
  h.issue fun f => by
    dsimp only; split
    · exact h
    · split
      next e => exact h.dequeTrap.of_eq e
      next e => split <;> simp [h.dequeTrap.of_eq e]

theorem execDone (h : a.Keeps t.stored) {o} : a.Next (Machine.execDone o t) :=
  h.issue fun f => by
    dsimp only; split
    · exact h
    · split
      · exact h
      · split
        next e => exact h.translate.of_eq e
        next e => split <;> next e' => simp [(h.translate.of_eq e).dequeTrap.of_eq e']

theorem execDequeStep (h : a.Keeps t.stored) {id} : a.Next (Machine.execDequeStep id t) := by
  unfold Machine.execDequeStep
  extract_lets u
  have h : a.Keeps u.stored := h.unfocus
  clear_value u
  split
  · extract_lets pushes
    clear_value pushes
    rw [next_ite]; split
    · exact h.next
    · split
      · simp [h]
      · dsimp only
        split
        next e => exact (engineFault (h.reachAll.of_eq e) fun _ _ h => h.trapInFlight).next
        next e =>
          have h := h.reachAll.of_eq e
          rw [next_ite]; split
          · exact h.next
          · split
            · simp [h]
            · split
              next e => exact (engineFault (of_eq (by simp [h]) e) fun _ _ h => h.trapInFlight).next
              next e =>
                have h := of_eq (a := a) (by simp [h]) e
                split
                · simp [h]
                · rw [next_next, stored_writeGroup, stored_dequeOrder]
                  exact foldl (by simpa using h) fun _ _ h => h.hbmPut
  · exact h.next

/-! Grove words and clocks. -/

theorem execGrd (h : a.Keeps t.stored) {r w} : a.Next (Machine.execGrd r w t) :=
  h.issue fun f => by simp [h]

theorem execGwait (h : a.Keeps t.stored) {r w} : a.Next (Machine.execGwait r w t) :=
  h.issue fun f => by simp [h]

theorem execSleep (h : a.Keeps t.stored) {r} : a.Next (Machine.execSleep r t) :=
  h.issue fun f => by simp [h]

theorem execSleepExpire (h : a.Keeps t.stored) {sid cord slot} : a.Next (Machine.execSleepExpire sid cord slot t) := by
  unfold Machine.execSleepExpire; dsimp only; split <;> simp [h]

theorem execHstlExpire (h : a.Keeps t.stored) {sid cord slot} : a.Next (Machine.execHstlExpire sid cord slot t) := by
  unfold Machine.execHstlExpire; dsimp only; split <;> simp [h]

/-! Lists. -/

theorem execLdecl (h : a.Keeps t.stored) {o ty larger} : a.Next (Machine.execLdecl o ty larger t) :=
  h.issue fun f => by simp [h]

theorem execLins (h : a.Keeps t.stored) {o v ty} : a.Next (Machine.execLins o v ty t) :=
  h.issue fun f => by dsimp only; split <;> simp [h]

theorem execLthr (h : a.Keeps t.stored) {p r v} : a.Next (Machine.execLthr p r v t) :=
  h.issue fun f => by split <;> simp [h]

theorem execLread (h : a.Keeps t.stored) {o} : a.Next (Machine.execLread o t) :=
  h.issue fun f => by split <;> simp [h]

theorem execLmerge (h : a.Keeps t.stored) {o} : a.Next (Machine.execLmerge o t) :=
  h.issue fun f => by split <;> simp [h]

theorem execLclr (h : a.Keeps t.stored) {r} : a.Next (Machine.execLclr r t) :=
  h.issue fun f => by split <;> simp [h]

theorem execListInsert (h : a.Keeps t.stored) {core} : a.Next (Machine.execListInsert core t) := by
  unfold Machine.execListInsert; dsimp only; (repeat' split) <;> simp [h]

theorem execListOpPerform (h : a.Keeps t.stored) {core} : a.Next (Machine.execListOpPerform core t) := by
  unfold Machine.execListOpPerform; dsimp only; (repeat' split) <;> simp [h]

/-! Matrix tasks. -/

theorem execMtask (h : a.Keeps t.stored) {o} : a.Next (Machine.execMtask o t) :=
  h.issue fun f => by
    split
    · simp [h]
    · extract_lets r d c k ty ty' b took seq w u v q
      have ht : a.Keeps took.stored := by simp [took, h]
      have hq : a.Keeps q.1.stored := by simp [q, v, ht]
      clear_value q v u w took b ty' ty k r
      simp [h, ht, hq]

theorem execTaskBackingRefill (h : a.Keeps t.stored) {core low} :
    a.Next (Machine.execTaskBackingRefill core low t) := by
  unfold Machine.execTaskBackingRefill
  extract_lets u d c k
  have h : a.Keeps u.stored := by simpa [u] using h
  clear_value u
  split
  · exact h.next
  · split
    · exact h.next
    · iterate 4
        rw [next_ite]; split; · simp [h]
      split <;> next e => simp [h.engineReach.of_eq e]

theorem execPickerReeval (h : a.Keeps t.stored) {core} : a.Next (Machine.execPickerReeval core t) := by
  unfold Machine.execPickerReeval; dsimp only; (repeat' split) <;> simp [h]

theorem execDepPoll (h : a.Keeps t.stored) {core seq} : a.Next (Machine.execDepPoll core seq t) := by
  unfold Machine.execDepPoll; dsimp only; (repeat' split) <;> simp [h]

theorem execTaskPick (h : a.Keeps t.stored) {core} : a.Next (Machine.execTaskPick core t) := by
  unfold Machine.execTaskPick; dsimp only; (repeat' split) <;> simp [h]

theorem execTaskSkip (h : a.Keeps t.stored) {core seq} : a.Next (Machine.execTaskSkip core seq t) := by
  unfold Machine.execTaskSkip; dsimp only; (repeat' split) <;> simp [h]

theorem execTaskComplete (h : a.Keeps t.stored) {core} : a.Next (Machine.execTaskComplete core t) := by
  unfold Machine.execTaskComplete; dsimp only; (repeat' split) <;> simp [h]

theorem execMfence (h : a.Keeps t.stored) : a.Next (Machine.execMfence t) :=
  h.issue fun f => by simp [h]

theorem execMarrive (h : a.Keeps t.stored) {o} : a.Next (Machine.execMarrive o t) :=
  h.issue fun f => by dsimp only; (repeat' split) <;> simp [h]

theorem execMdrain (h : a.Keeps t.stored) {o fm r sat} : a.Next (Machine.execMdrain o fm r sat t) :=
  h.issue fun f => by dsimp only; (repeat' split) <;> simp [h]

theorem execMdrainDone (h : a.Keeps t.stored) {id} : a.Next (Machine.execMdrainDone id t) := by
  unfold Machine.execMdrainDone; dsimp only; (repeat' split) <;> simp [h]

theorem execWpin (h : a.Keeps t.stored) {o} : a.Next (Machine.execWpin o t) :=
  h.issue fun f => by simp [h]

theorem execMqcfg (h : a.Keeps t.stored) {r} : a.Next (Machine.execMqcfg r t) :=
  h.issue fun f => by simp [h]

theorem execMzero (h : a.Keeps t.stored) {r} : a.Next (Machine.execMzero r t) :=
  h.issue fun f => by simp [h]

theorem execMstatRead (h : a.Keeps t.stored) {r} : a.Next (Machine.execMstatRead r t) :=
  h.issue fun f => by simp [h]

theorem execMstatClr (h : a.Keeps t.stored) {r} : a.Next (Machine.execMstatClr r t) :=
  h.issue fun f => by simp [h]

/-! Flumes. -/

theorem execCreditRequestArrive (h : a.Keeps t.stored) {id} : a.Next (Machine.execCreditRequestArrive id t) := by
  unfold Machine.execCreditRequestArrive
  replace h := h.unfocus
  generalize t.unfocus = u at h ⊢
  dsimp only
  split
  · split
    · simp [h]
    · rw [next_ite]; split
      · exact h.next
      · split
        · exact h.next
        · exact h.next
        · simp [h]
        · split <;> next e => simp [h.portCheck.of_eq e]
  · exact h.next

theorem execCreditGrant (h : a.Keeps t.stored) {die port} : a.Next (Machine.execCreditGrant die port t) := by
  unfold Machine.execCreditGrant; dsimp only; (repeat' split) <;> simp [h]

theorem execCreditGrantArrive (h : a.Keeps t.stored) {id} : a.Next (Machine.execCreditGrantArrive id t) := by
  unfold Machine.execCreditGrantArrive; dsimp only; (repeat' split) <;> simp [h]

theorem execCreditRetry (h : a.Keeps t.stored) {die entry} : a.Next (Machine.execCreditRetry die entry t) := by
  unfold Machine.execCreditRetry; dsimp only; split <;> simp [h]

theorem execRouteCapChange (h : a.Keeps t.stored) {die entry cap} :
    a.Next (Machine.execRouteCapChange die entry cap t) := by
  unfold Machine.execRouteCapChange; dsimp only; split <;> simp [h]

theorem execReservationTimeout (h : a.Keeps t.stored) {sid cord slot} :
    a.Next (Machine.execReservationTimeout sid cord slot t) := by
  unfold Machine.execReservationTimeout; dsimp only; (repeat' split) <;> simp [h]

theorem execReservationArrive (h : a.Keeps t.stored) {id} : a.Next (Machine.execReservationArrive id t) := by
  unfold Machine.execReservationArrive
  replace h := h.unfocus
  generalize t.unfocus = u at h ⊢
  dsimp only
  split
  · rw [next_ite]; split
    · exact h.next
    · split
      · exact h.next
      · exact h.next
      · simp [h]
      · simp [h]
      · split <;> next e => simp [h.portCheck.of_eq e]
      · split
        next e => simp [h.portCheck.of_eq e]
        next e =>
          have h := h.portCheck.of_eq e
          (repeat' split) <;> simp [h]
  · exact h.next

theorem execElementStore (h : a.Keeps t.stored) {id} : a.Next (Machine.execElementStore id t) := by
  unfold Machine.execElementStore
  replace h := h.unfocus
  generalize t.unfocus = u at h ⊢
  dsimp only
  split
  · rw [next_ite]; split
    · exact h.next
    · split
      · exact h.next
      · exact h.next
      · simp [h]
      · simp [h]
      · split
        next e => simp [h.portCheck.of_eq e]
        next e =>
          have h := h.portCheck.of_eq e
          split
          · exact h.next
          · rw [next_ite]; split
            · simp [h]
            · split
              · simp [h]
              · rw [next_ite]; split
                · split <;> next e => simp [h.spillRuns.of_eq e]
                · simp [h]
              · simp [h]
  · exact h.next

theorem execSpillRefillDone (h : a.Keeps t.stored) {die port qid} :
    a.Next (Machine.execSpillRefillDone die port qid t) := by
  unfold Machine.execSpillRefillDone
  replace h := h.unfocus
  generalize t.unfocus = u at h ⊢
  dsimp only
  split
  · exact h.next
  · rw [next_ite]; split
    · exact h.next
    · split
      · split <;> next e => simp [h.spillRuns.of_eq e]
      · simp [h]
      · exact h.next

theorem execHeadDeliver (h : a.Keeps t.stored) {die port qid} : a.Next (Machine.execHeadDeliver die port qid t) := by
  unfold Machine.execHeadDeliver; dsimp only; (repeat' split) <;> simp [h]

theorem execFlumeReplyArrive (h : a.Keeps t.stored) {id} : a.Next (Machine.execFlumeReplyArrive id t) := by
  unfold Machine.execFlumeReplyArrive
  replace h := h.unfocus
  generalize t.unfocus = u at h ⊢
  dsimp only
  split
  · simp [h]
  · split
    · simp [h]
    · split
      · exact h.next
      · exact h.next
      · simp [h]
      · split
        next e => simp [h.portCheck.of_eq e]
        next e => split <;> simp [h.portCheck.of_eq e]
  · exact h.next

theorem execRemoteErrorReport (h : a.Keeps t.stored) {id} : a.Next (Machine.execRemoteErrorReport id t) := by
  unfold Machine.execRemoteErrorReport; dsimp only; (repeat' split) <;> simp [h]

theorem execQbind (h : a.Keeps t.stored) {x r} : a.Next (Machine.execQbind x r t) :=
  h.issue fun f => by
    extract_lets x k d old u g
    rw [did_ite]; split
    · exact h
    · rw [did_ite]; split
      · trivial
      · clear_value old
        have hu : a.Keeps u.stored := by cases old <;> simp [u, h]
        clear_value u
        rw [did_ite]; split
        · simp [hu]
        · split
          next e => exact of_eq (by simp [hu]) e
          next e =>
            have hv := of_eq (a := a) (by simp [hu]) e
            simp [hv]

theorem execQrsv (h : a.Keeps t.stored) {o} : a.Next (Machine.execQrsv o t) :=
  h.issue fun f => by dsimp only; (repeat' split) <;> simp [h]

theorem execQput (h : a.Keeps t.stored) {o v} : a.Next (Machine.execQput o v t) :=
  h.issue fun f => by dsimp only; (repeat' split) <;> simp [h]

theorem execQenq (h : a.Keeps t.stored) {o} : a.Next (Machine.execQenq o t) :=
  h.issue fun f => by (repeat' split) <;> simp [h]

theorem execQinv (h : a.Keeps t.stored) {r} : a.Next (Machine.execQinv r t) :=
  h.issue fun f => by simp [h]

theorem execQstat (h : a.Keeps t.stored) {o} : a.Next (Machine.execQstat o t) :=
  h.issue fun f => by
    dsimp only
    rw [did_ite]; split
    · exact h
    · split <;> next e =>
        have h := of_eq (a := a) (by simp [h]) e
        simp [h]

theorem execBral (h : a.Keeps t.stored) {x c disp} : a.Next (Machine.execBral x c disp t) :=
  h.issue fun f => by simp [h]

theorem execFlumeCreate (h : a.Keeps t.stored) {die port} : a.Next (Machine.execFlumeCreate die port t) := by
  simp [Machine.execFlumeCreate, h]

theorem execFlumeDestroy (h : a.Keeps t.stored) {die port} : a.Next (Machine.execFlumeDestroy die port t) := by
  unfold Machine.execFlumeDestroy; dsimp only; (repeat' split) <;> simp [h]

theorem execFlumeForcedDestroy (h : a.Keeps t.stored) {die port} :
    a.Next (Machine.execFlumeForcedDestroy die port t) := by
  unfold Machine.execFlumeForcedDestroy; dsimp only; (repeat' split) <;> simp [h]

theorem execFlcmdInvalid (h : a.Keeps t.stored) {die port cmd} : a.Next (Machine.execFlcmdInvalid die port cmd t) := by
  simp [Machine.execFlcmdInvalid, h]

/-! Launch, placement and the end of stands. -/

theorem execLaunchCapture (h : a.Keeps t.stored) {die} : a.Next (Machine.execLaunchCapture die t) := by
  unfold Machine.execLaunchCapture
  replace h := h.unfocus
  generalize t.unfocus = u at h ⊢
  dsimp only
  (repeat' split) <;> simp [h]

theorem execLaunch (h : a.Keeps t.stored) {o} : a.Next (Machine.execLaunch o t) :=
  h.issue fun f => by dsimp only; split <;> simp [h]

theorem execLaunchRecordStore (h : a.Keeps t.stored) {id} : a.Next (Machine.execLaunchRecordStore id t) := by
  unfold Machine.execLaunchRecordStore; dsimp only; split <;> simp [h]

theorem execHostLaunchSubmit (h : a.Keeps t.stored) {die ctx} : a.Next (Machine.execHostLaunchSubmit die ctx t) := by
  simp [Machine.execHostLaunchSubmit, h]

theorem execHostLaunchStore (h : a.Keeps t.stored) {die} : a.Next (Machine.execHostLaunchStore die t) := by
  unfold Machine.execHostLaunchStore; dsimp only; split <;> simp [h]

theorem execStandPlace (h : a.Keeps t.stored) {die} : a.Next (Machine.execStandPlace die t) := by
  unfold Machine.execStandPlace; dsimp only; (repeat' split) <;> simp [h]

theorem execStandGangStart (h : a.Keeps t.stored) {sid} : a.Next (Machine.execStandGangStart sid t) := by
  unfold Machine.execStandGangStart; dsimp only; split <;> simp [h]

theorem execRegfileRelease (h : a.Keeps t.stored) {sid cord} : a.Next (Machine.execRegfileRelease sid cord t) := by
  simp [Machine.execRegfileRelease, h]

theorem execStandEnd (h : a.Keeps t.stored) {sid} : a.Next (Machine.execStandEnd sid t) := by
  unfold Machine.execStandEnd; dsimp only; split <;> simp [h]

theorem execGranuleClearDone (h : a.Keeps t.stored) {core} : a.Next (Machine.execGranuleClearDone core t) := by
  simp [Machine.execGranuleClearDone, h]

/-! Combine buffers. -/

theorem execCmbi (h : a.Keeps t.stored) {o} : a.Next (Machine.execCmbi o t) :=
  h.issue fun f => by
    extract_lets base x off b hd
    clear_value hd b
    (repeat' split) <;> simp [h]

theorem execCmbw (h : a.Keeps t.stored) {o} : a.Next (Machine.execCmbw o t) :=
  h.issue fun f => by dsimp only; (repeat' split) <;> simp [h]

theorem execCombineStep (h : a.Keeps t.stored) {id} : a.Next (Machine.execCombineStep id t) := by
  unfold Machine.execCombineStep; dsimp only; (repeat' split) <;> simp [h]

/-! Special registers and traps. -/

theorem execWrspr (h : a.Keeps t.stored) {d r} : a.Next (Machine.execWrspr d r t) :=
  h.issue fun f => by split <;> simp [h]

theorem execTrap (h : a.Keeps t.stored) {code} : a.Next (Machine.execTrap code t) :=
  h.issue fun f => by simp [h]

theorem execEret (h : a.Keeps t.stored) : a.Next (Machine.execEret t) :=
  h.issue fun f => by simp [h]

theorem execHalt (h : a.Keeps t.stored) : a.Next (Machine.execHalt t) :=
  h.issue fun f => by simp [h]

/-! Saving and restoring stands. -/

theorem execSwapoutSave (h : a.Keeps t.stored) {sid} : a.Next (Machine.execSwapoutSave sid t) := by
  unfold Machine.execSwapoutSave; dsimp only; (repeat' split) <;> simp [h]

theorem execSaveWriteDone (h : a.Keeps t.stored) {sid} : a.Next (Machine.execSaveWriteDone sid t) := by
  unfold Machine.execSaveWriteDone
  replace h := h.unfocus
  generalize t.unfocus = u at h ⊢
  dsimp only
  split
  next st _ =>
    split
    · split
      · exact h.next
      · have hv {l p x} := ((show a.Keeps (u.swapFence st).stored by simpa using h).unregisterTasks (d := st.die)
          (l := l)).putImage (p := p) (st := st) (head := x)
        simp [hv]
    · exact h.next
  · exact h.next

theorem execStandRestore (h : a.Keeps t.stored) {die} : a.Next (Machine.execStandRestore die t) := by
  unfold Machine.execStandRestore; dsimp only; (repeat' split) <;> simp [h]

theorem execPreemptCheck (h : a.Keeps t.stored) {die} : a.Next (Machine.execPreemptCheck die t) := by
  unfold Machine.execPreemptCheck; dsimp only; split <;> simp [h]

/-! System instructions. -/

theorem execTlbinv (h : a.Keeps t.stored) {x b} : a.Next (Machine.execTlbinv x b t) :=
  h.issue fun f => by simp [h]

theorem execCsave (h : a.Keeps t.stored) {d x} : a.Next (Machine.execCsave d x t) :=
  h.issue fun f => by simp [h]

theorem execCrst (h : a.Keeps t.stored) {o} : a.Next (Machine.execCrst o t) :=
  h.issue fun f => by dsimp only; (repeat' split) <;> simp [h]

theorem execWorld (h : a.Keeps t.stored) {o} : a.Next (Machine.execWorld o t) :=
  h.issue fun f => by dsimp only; (repeat' split) <;> simp [h]

/-! The host, links, resets and tests. -/

theorem execHostMemAccess (h : a.Keeps t.stored) {write secure addr data} :
    a.Next (Machine.execHostMemAccess write secure addr data t) := by
  unfold Machine.execHostMemAccess; dsimp only; (repeat' split) <;> simp [h]

theorem execEventPost (h : a.Keeps t.stored) {die} : a.Next (Machine.execEventPost die t) := by
  simp [Machine.execEventPost, h]

theorem execKeyInstall (h : a.Keeps t.stored) {port} : a.Next (Machine.execKeyInstall port t) := by
  unfold Machine.execKeyInstall
  extract_lets u r k
  have h : a.Keeps u.stored := h.unfocus
  clear_value k r u
  split
  · simp [h]
  · split <;> simp [h]

theorem execPacketSend (h : a.Keeps t.stored) {port} : a.Next (Machine.execPacketSend port t) := by
  unfold Machine.execPacketSend; dsimp only; split <;> simp [h]

theorem execKeySwitch (h : a.Keeps t.stored) {port} : a.Next (Machine.execKeySwitch port t) := by
  simp [Machine.execKeySwitch, h]

theorem execFlitReceive (h : a.Keeps t.stored) {port good} : a.Next (Machine.execFlitReceive port good t) := by
  simp [Machine.execFlitReceive, h]

theorem execLaneFail (h : a.Keeps t.stored) {port lane} : a.Next (Machine.execLaneFail port lane t) := by
  simp [Machine.execLaneFail, h]

theorem execLinkRetrainDone (h : a.Keeps t.stored) {port} : a.Next (Machine.execLinkRetrainDone port t) := by
  simp [Machine.execLinkRetrainDone, h]

theorem execCoreReset (h : a.Keeps t.stored) {die} : a.Next (Machine.execCoreReset die t) := by
  simp [Machine.execCoreReset, h]

theorem execUncoreReset (h : a.Keeps t.stored) {die} : a.Next (Machine.execUncoreReset die t) := by
  simp [Machine.execUncoreReset, h]

theorem execBistDone (h : a.Keeps t.stored) {domain} : a.Next (Machine.execBistDone domain t) := by
  unfold Machine.execBistDone
  replace h := h.unfocus
  generalize t.unfocus = u at h ⊢
  simp [h]

theorem execQcoreGo (h : a.Keeps t.stored) {die core} : a.Next (Machine.execQcoreGo die core t) := by
  simp [Machine.execQcoreGo, h]

theorem execQcoreReturn (h : a.Keeps t.stored) {die} : a.Next (Machine.execQcoreReturn die t) := by
  unfold Machine.execQcoreReturn
  replace h := h.unfocus
  generalize t.unfocus = u at h ⊢
  simp [h]

theorem execUncorrectableSoftError (h : a.Keeps t.stored) {die x} :
    a.Next (Machine.execUncorrectableSoftError die x t) := by
  unfold Machine.execUncorrectableSoftError; dsimp only; (repeat' split) <;> simp [h]

theorem execFirmwareLoad (h : a.Keeps t.stored) : a.Next (Machine.execFirmwareLoad t) := by
  unfold Machine.execFirmwareLoad; dsimp only; split <;> simp [h]

theorem execAttestationRequest (h : a.Keeps t.stored) {nonce} : a.Next (Machine.execAttestationRequest nonce t) := by
  unfold Machine.execAttestationRequest; dsimp only; split <;> simp [h]

theorem execClockThrottle (h : a.Keeps t.stored) {island mhz} : a.Next (Machine.execClockThrottle island mhz t) := by
  unfold Machine.execClockThrottle
  replace h := h.unfocus
  generalize t.unfocus = u at h ⊢
  simp [h]

end Stored.Keeps
end

end Sys2Proof.Machine
end

section
/-! SUPPORT. Every instruction but those that write the contrail table keeps what is stored. -/

namespace Sys2Proof.Machine

/-- The instructions that write the contrail table. -/
def Instr.setsContrails : Instr → Bool
  | .contrailWantWrite .. | .contrailChangeDone .. | .packageReset | .registerWrite .. => true
  | _ => false

section
variable {a : Stored} {t : State}
namespace Stored.Keeps

/-- Every instruction but the four that write the contrail table. -/
theorem exec (h : a.Keeps t.stored) {i : Instr} (hi : Instr.setsContrails i = false) : a.Next (Machine.exec i t) := by
  unfold Machine.exec
  cases i with
  | sadd | ssub | smul | smulh | smulhu | sand | sor | sxor | sshl | sshr | ssra | smin | smax | sminu | sslt
  | ssltu | saddi | smuli | sandi | sori | sxori | sslti | ssltui | sldiH | sldi | s2v | v2s | rdtag | nop
  | voteAll | voteAny | voteBal | rdseed | wrseed | rdclk | rdts | qalw | rdspr | pand | por | pxor | pandn | pnot
  | pmov => exact h.issueCord
  | sshli | sshri | ssrai => exact h.shiftImm
  | himm | hpred | hcache => exact h.prefixHint
  | hprm | hyld | hstl => exact h.actingHint
  | brc | jmp | call | rcv | brk | yield | jmpr | callr | ret | join => exact h.issueCtl
  | iadd | isub | imul | imulh | imin | imax | and | or | xor | shl | shr | sra | rot | imad | sel | laneid
  | affine | shfl | iabs | ineg | not | popc | clz | ctz | brev | mov | movi | iaddi | imuli | andi | ori | xori
  | fadd | fsub | fmul | fmin | fmax | ffma | dot2 | faddi | fmuli | fscale | fpack | fabs | fneg | funpk | fsqrt
  | frcp | frsq | fexp2 | flog2 | fsin | fcos | ftanh | ffloor | fceil | ftrunc | frint => exact h.issueAlu
  | iset | fset => exact h.issueCmp
  | fence | fenceX | fenceAcq | fenceRel => exact h.issueFence
  | gmax | gmin => exact h.foldWord
  | qdeq | qtry => exact h.dequeue
  | illegalWord => exact h.execIllegalWord
  | exit => exact h.execExit
  | trap => exact h.execTrap
  | eret => exact h.execEret
  | halt => exact h.execHalt
  | wrspr => exact h.execWrspr
  | tlbinv => exact h.execTlbinv
  | csave => exact h.execCsave
  | crst => exact h.execCrst
  | world => exact h.execWorld
  | sld => exact h.execSld
  | sst => exact h.execSst
  | fcvt => exact h.execFcvt
  | ld => exact h.execLd
  | st => exact h.execSt
  | lds => exact h.execLds
  | sts => exact h.execSts
  | atom => exact h.execAtom
  | atoms => exact h.execAtoms
  | pref => exact h.execPref
  | cpy => exact h.execCpy
  | cpyt => exact h.execCpyt
  | cpyx => exact h.execCpyx
  | cpym => exact h.execCpym
  | mcdrain => exact h.execMcdrain
  | cpyw => exact h.execCpyw
  | bari => exact h.execBari
  | barw => exact h.execBarw
  | cjoin => exact h.execCjoin
  | cleave => exact h.execCleave
  | cbar => exact h.execCbar
  | pbar => exact h.execPbar
  | pwait => exact h.execPwait
  | fres => exact h.execFres
  | fwait => exact h.execFwait
  | ftest => exact h.execFtest
  | spawn => exact h.execSpawn
  | take => exact h.execTake
  | steal => exact h.execSteal
  | done => exact h.execDone
  | grd => exact h.execGrd
  | gwait => exact h.execGwait
  | sleep => exact h.execSleep
  | mtask => exact h.execMtask
  | mfence => exact h.execMfence
  | mdrain => exact h.execMdrain
  | wpin => exact h.execWpin
  | wevict => exact h.execWevict
  | marrive => exact h.execMarrive
  | mqcfg => exact h.execMqcfg
  | mzero => exact h.execMzero
  | mstatRead => exact h.execMstatRead
  | mstatClr => exact h.execMstatClr
  | ldecl => exact h.execLdecl
  | lins => exact h.execLins
  | lmerge => exact h.execLmerge
  | lread => exact h.execLread
  | lthr => exact h.execLthr
  | lclr => exact h.execLclr
  | qbind => exact h.execQbind
  | qrsv => exact h.execQrsv
  | qput => exact h.execQput
  | qenq => exact h.execQenq
  | qinv => exact h.execQinv
  | qstat => exact h.execQstat
  | bral => exact h.execBral
  | launch => exact h.execLaunch
  | cmbi => exact h.execCmbi
  | cmbw => exact h.execCmbw
  | ageingSwap => exact h.execAgeingSwap
  | hstlExpire => exact h.execHstlExpire
  | sleepExpire => exact h.execSleepExpire
  | futureResolve => exact h.execFutureResolve
  | futureWake => exact h.execFutureWake
  | pbarBankStep => exact h.execPbarBankStep
  | dequeStep => exact h.execDequeStep
  | memAccessComplete => exact h.execMemAccessComplete
  | tlbWalkDone => exact h.execTlbWalkDone
  | copyDone => exact h.execCopyDone
  | cpyxBeatArrive => exact h.execCpyxBeatArrive
  | shareWaitTimeout => exact h.execShareWaitTimeout
  | cpymPark => exact h.execCpymPark
  | mcdrainMatch => exact h.execMcdrainMatch
  | cpywClaimGrant => exact h.execCpywClaimGrant
  | cpywFillDone => exact h.execCpywFillDone
  | wevictClaimGrant => exact h.execWevictClaimGrant
  | taskPick => exact h.execTaskPick
  | taskComplete => exact h.execTaskComplete
  | taskSkip => exact h.execTaskSkip
  | pickerReeval => exact h.execPickerReeval
  | depPoll => exact h.execDepPoll
  | taskBackingRefill => exact h.execTaskBackingRefill
  | mdrainDone => exact h.execMdrainDone
  | listInsert => exact h.execListInsert
  | listOpPerform => exact h.execListOpPerform
  | creditRequestArrive => exact h.execCreditRequestArrive
  | creditGrant => exact h.execCreditGrant
  | creditGrantArrive => exact h.execCreditGrantArrive
  | creditRetry => exact h.execCreditRetry
  | reservationArrive => exact h.execReservationArrive
  | reservationTimeout => exact h.execReservationTimeout
  | elementStore => exact h.execElementStore
  | spillRefillDone => exact h.execSpillRefillDone
  | headDeliver => exact h.execHeadDeliver
  | routeCapChange => exact h.execRouteCapChange
  | remoteErrorReport => exact h.execRemoteErrorReport
  | combineStep => exact h.execCombineStep
  | hostMemAccess => exact h.execHostMemAccess
  | flumeCreate => exact h.execFlumeCreate
  | flumeDestroy => exact h.execFlumeDestroy
  | flumeForcedDestroy => exact h.execFlumeForcedDestroy
  | flcmdInvalid => exact h.execFlcmdInvalid
  | hostLaunchSubmit => exact h.execHostLaunchSubmit
  | hostLaunchStore => exact h.execHostLaunchStore
  | launchRecordStore => exact h.execLaunchRecordStore
  | launchCapture => exact h.execLaunchCapture
  | standPlace => exact h.execStandPlace
  | standGangStart => exact h.execStandGangStart
  | standEnd => exact h.execStandEnd
  | granuleClearDone => exact h.execGranuleClearDone
  | regfileRelease => exact h.execRegfileRelease
  | preemptCheck => exact h.execPreemptCheck
  | swapoutSave => exact h.execSwapoutSave
  | saveWriteDone => exact h.execSaveWriteDone
  | standRestore => exact h.execStandRestore
  | eventPost => exact h.execEventPost
  | keyInstall => exact h.execKeyInstall
  | packetSend => exact h.execPacketSend
  | keySwitch => exact h.execKeySwitch
  | flitReceive => exact h.execFlitReceive
  | laneFail => exact h.execLaneFail
  | linkRetrainDone => exact h.execLinkRetrainDone
  | coreReset => exact h.execCoreReset
  | uncoreReset => exact h.execUncoreReset
  | bistDone => exact h.execBistDone
  | qcoreGo => exact h.execQcoreGo
  | qcoreReturn => exact h.execQcoreReturn
  | firmwareLoad => exact h.execFirmwareLoad
  | attestationRequest => exact h.execAttestationRequest
  | clockThrottle => exact h.execClockThrottle
  | storeAcknowledge => exact h.execStoreAcknowledge
  | flumeReplyArrive => exact h.execFlumeReplyArrive
  | uncorrectableSoftError => exact h.execUncorrectableSoftError
  | registerWrite | contrailWantWrite | contrailChangeDone | packageReset => simp [Instr.setsContrails] at hi
end Stored.Keeps
end

end Sys2Proof.Machine
end

section
/-! SUPPORT. Every step keeps the memories canonical (R1, R183). -/

namespace Sys2Proof.Machine

/-- The memories of an outcome's next state are canonical. -/
def Canonical (o : Host.Outcome State Fault Refusal) : Prop := ∀ u, o = .next u → u.memWf = true

section
variable {t : State}

theorem memWf_iff : t.memWf = true ↔ t.stored.hbm.wf = true ∧ t.stored.hostMem.wf = true := by
  simp [State.memWf, State.stored]

theorem memWf_of_keeps {u : State} (hw : t.memWf = true) (h : t.stored.Keeps u.stored) : u.memWf = true := by
  obtain ⟨hbm, hostMem, -⟩ := h
  exact memWf_iff.mpr ((memWf_iff.mp hw).imp hbm hostMem)

theorem memWf_of_stored {u : State} (hw : t.memWf = true) (e : u.stored = t.stored) : u.memWf = true :=
  memWf_of_keeps hw (e ▸ Stored.Keeps.refl)

theorem memWf_modContrail (hw : t.memWf = true) {i f} : (t.modContrail i f).memWf = true := hw

theorem canonical_next (hw : t.memWf = true) : Canonical (.next t) := fun _ e => by cases e; exact hw

theorem canonical_ite {c : Prop} [Decidable c] {x y} (hx : Canonical x) (hy : Canonical y) :
    Canonical (if c then x else y) := by split <;> assumption

theorem Stored.Next.canonical {o} (h : t.stored.Next o) (hw : t.memWf = true) : Canonical o := fun u e => by
  subst e; exact memWf_of_keeps hw (next_next.mp h)

/-! The instructions that write the contrail table. -/

theorem canonical_execContrailWantWrite (hw : t.memWf = true) {i w} : Canonical (execContrailWantWrite i w t) := by
  have hu := memWf_of_stored hw stored_unfocus
  unfold execContrailWantWrite; dsimp only
  split
  · exact canonical_next hu
  · exact canonical_next (memWf_modContrail hu)

theorem canonical_execContrailChangeDone (hw : t.memWf = true) {i} : Canonical (execContrailChangeDone i t) := by
  have hu := memWf_of_stored hw stored_unfocus
  unfold execContrailChangeDone; dsimp only
  split
  · exact canonical_next (memWf_modContrail hu)
  · exact canonical_next hu

/-- HBM is empty after a package reset, and host memory as before. -/
theorem canonical_execPackageReset (hw : t.memWf = true) : Canonical (execPackageReset t) := by
  have hu := memWf_iff.mp (memWf_of_stored hw stored_unfocus)
  exact canonical_next (memWf_iff.mpr ⟨rfl, hu.2⟩)

theorem Stored.Keeps.writeDie {a : Stored} (h : a.Keeps t.stored) {secure d off v} :
    a.Next (t.writeDie secure d off v) := by
  have hr := h.execCoreReset (die := d)
  have hl := h.execHostLaunchSubmit (die := d) (ctx := v.truncate 8)
  have hq {f c} := (show a.Keeps (t.modDie d f).stored by simpa using h).execQcoreGo (die := d) (core := c)
  unfold State.writeDie
  simp [h, hr, hl, hq]

theorem canonical_writeG (hw : t.memWf = true) {secure off v} : Canonical (t.writeG secure off v) := by
  have keep {u : State} (e : u.stored = t.stored) := canonical_next (memWf_of_stored hw e)
  unfold State.writeG
  iterate 6 refine canonical_ite (keep rfl) ?_
  refine canonical_ite (canonical_execContrailWantWrite (memWf_modContrail hw)) ?_
  refine canonical_ite (keep rfl) (canonical_ite ?_ ?_)
  · refine canonical_ite (keep rfl) (canonical_ite (keep stored_modLink) (canonical_ite ?_ (keep rfl)))
    exact Stored.Keeps.refl.execKeyInstall.canonical hw
  · exact canonical_ite (keep rfl) (canonical_ite (Stored.Keeps.refl.writeDie.canonical hw) (keep rfl))

theorem canonical_execRegisterWrite (hw : t.memWf = true) {secure off v} :
    Canonical (execRegisterWrite secure off v t) := by
  unfold execRegisterWrite; dsimp only
  split
  · exact canonical_next (memWf_of_stored hw (by simp))
  · exact canonical_writeG (memWf_of_stored hw (by simp))

/-! A step. -/

theorem canonical_exec (hw : t.memWf = true) {i} : Canonical (exec i t) := by
  cases hi : Instr.setsContrails i
  · exact (Stored.Keeps.refl.exec hi).canonical hw
  · unfold Instr.setsContrails at hi
    split at hi
    · exact canonical_execContrailWantWrite hw
    · exact canonical_execContrailChangeDone hw
    · exact canonical_execPackageReset hw
    · exact canonical_execRegisterWrite hw
    · cases hi

theorem canonical_issueNext (hw : t.memWf = true) {f} : Canonical (issueNext f t) := by
  unfold issueNext
  have h := Stored.Keeps.refl.fetch (t := t) (f := f)
  split
  next e => exact canonical_next (memWf_of_keeps hw (h.of_eq e).fetchTrap)
  next e => exact canonical_exec (memWf_of_stored (memWf_of_keeps hw (h.of_eq e)) stored_noteIssue)

theorem canonical_take (hw : t.memWf = true) {m} : Canonical (t.take m) := by
  have hu := memWf_of_stored hw stored_unfocus
  unfold State.take
  generalize t.unfocus = u at hu
  have h := Stored.Keeps.refl (a := u.stored)
  dsimp only
  split
  · split
    · exact canonical_exec (memWf_of_stored hu stored_withInputs)
    · exact canonical_next (memWf_of_stored hu stored_withInputs)
  · exact canonical_exec hu
  · split
    · exact canonical_next hu
    · exact h.execFlumeCreate.canonical hu
    · exact h.execFlumeDestroy.canonical hu
    · exact h.execFlumeForcedDestroy.canonical hu
    · exact h.execFlcmdInvalid.canonical hu
  · exact h.execBistDone.canonical hu
  · exact h.execQcoreReturn.canonical hu
  · exact canonical_execContrailChangeDone hu
  · exact h.execLinkRetrainDone.canonical hu
  · exact h.execTlbWalkDone.canonical hu
  · exact h.execClockThrottle.canonical hu
  · split
    · exact canonical_issueNext (memWf_of_stored hu stored_focusOn)
    · exact canonical_next (memWf_of_stored hu stored_focusOn)

theorem canonical_ticked {o} (h : Canonical o) : Canonical (ticked o) := by
  unfold ticked
  split
  next u => exact canonical_next (memWf_of_stored (h u rfl) stored_tick)
  · intro u e; cases e
  · intro u e; cases e

theorem canonical_step (hw : t.memWf = true) : Canonical (step t) := by
  unfold step
  split
  · exact canonical_ticked (canonical_issueNext hw)
  · have hs := memWf_of_stored hw stored_sense
    dsimp only
    split
    next m _ =>
      have hn := memWf_of_keeps hs (Stored.Keeps.refl.noteMove (m := m))
      exact canonical_ticked (canonical_take (by split; exacts [hn, memWf_of_stored hn stored_draw]))
    · exact canonical_next (memWf_of_stored hs stored_tick)

/-- Settles O51: every write of HBM or host memory puts bytes into it, takes a stretch over from a canonical memory, or
winds stores back, and each of them keeps the form. -/
theorem stepKeepsMemoryCanonical : Obligations.StepKeepsMemoryCanonical := fun _ u hw => canonical_step hw u

end

end Sys2Proof.Machine
end

section
/-! SUPPORT. What a new stand and its cords hold (R18, R27, R140). -/

namespace Sys2Proof.Machine

theorem lfsrSeed_ne_zero (seed : Word) (n c : Nat) : lfsrSeed seed n c ≠ 0 := by
  unfold lfsrSeed
  extract_lets
  split
  · decide
  · assumption

/-- One cord for each of a role's count (R359). -/
theorem length_rolesOf (rs : List Role) : (rolesOf rs).length = (rs.map Role.count).sum := by
  have h : ((List.range rs.length).zip rs).map (Role.count ∘ Prod.snd) = rs.map Role.count := by
    rw [← List.map_map, List.map_snd_zip (by simp)]
  simp only [rolesOf, List.length_flatMap, List.length_replicate, ← h]
  rfl

section
variable (t : Tract) (sid n die core : Nat) (slots : List Nat) (e : Ctx)

theorem newStand_cords_length :
    (newStand t sid n die core slots e).cords.length = (t.roles.map Role.count).sum := by
  simp [newStand, length_rolesOf]

theorem newStand_cords_ids :
    (newStand t sid n die core slots e).cords.map Cord.id = List.range (t.roles.map Role.count).sum := by
  rw [← length_rolesOf, newStand, List.map_map]
  exact List.map_fst_zip (by simp)

variable {t sid n die core slots e} in
theorem mem_newStand_cords {c : Cord} (h : c ∈ (newStand t sid n die core slots e).cords) :
    ∃ id role r quad slot, c = newCord t n id role r quad slot := by
  obtain ⟨x, -, rfl⟩ := List.mem_map.mp h
  exact ⟨_, _, _, _, _, rfl⟩

theorem newStand_region (b : Nat) : (newStand t sid n die core slots e).region b = none := by
  have h : (List.replicate 8 (none : Option (Nat × DWord))).findSome? (fun r => r.filter fun x => x.1 = b) = none := by
    simp
  rw [Stand.region, newStand, h]; rfl

end

section
variable (t : Tract) (n id role : Nat) (r : Role) (quad slot : Nat)

theorem newCord_vreg (k : Nat) : (newCord t n id role r quad slot).vreg k = VReg.zero :=
  List.getElem?_getD_replicate_default_eq _ _ _

theorem newCord_sreg {k : SCode} (h : k ≠ 0) : (newCord t n id role r quad slot).sreg k = 0 := by
  obtain ⟨m, hm⟩ := Nat.exists_eq_succ_of_ne_zero (n := k.toNat) (by simpa [BitVec.toNat_eq] using h)
  rw [Cord.sreg, hm]
  split
  · rfl
  · exact List.getElem?_getD_replicate_default_eq _ 23 m

theorem newCord_pred {p : Nat} (h : 1 ≤ p) : (newCord t n id role r quad slot).pred p = 0 := by
  obtain ⟨m, rfl⟩ := Nat.exists_eq_add_of_le' h
  exact List.getElem?_getD_replicate_default_eq _ 7 m

end

theorem lane_zero (l : Nat) : VReg.zero.lane l = 0 := List.getElem?_getD_replicate_default_eq _ _ _

/-- Settles O41: the storages are empty memories, and each cord is a `newCord`. -/
theorem newStandsAreClean : Obligations.NewStandsAreClean := by
  intro t sid n die core slots e
  refine ⟨fun _ => ⟨rfl, rfl⟩, newStand_region t sid n die core slots e, rfl, rfl, rfl, rfl, rfl, rfl, rfl, rfl,
    newStand_cords_length t sid n die core slots e, ?_, fun c hc => ?_⟩
  · rw [newStand_cords_length, newStand_cords_ids]
  · obtain ⟨id, role, r, quad, slot, rfl⟩ := mem_newStand_cords hc
    refine ⟨fun k l => ?_, rfl, fun _ => newCord_sreg _ _ _ _ _ _ _, rfl, fun p h _ => newCord_pred _ _ _ _ _ _ _ h,
      lfsrSeed_ne_zero _ _ _, rfl, rfl, rfl, rfl, rfl, rfl, rfl, rfl, rfl, rfl, rfl, rfl⟩
    rw [newCord_vreg]
    exact ⟨lane_zero l, rfl⟩

end Sys2Proof.Machine
end

section
/-! SUPPORT. Two launch records of one cord, listed against the order of their issue (R24, R318). -/

namespace Sys2Proof.Machine

/-- A launched tract of one cord. -/
def swappedTract : Tract :=
  { id := 0, die := 0, ctx := 0, fpid := none, prio := 0, stands := 1, next := 1, ended := 0, param := 0, fut := 0, seed := 0,
    affinity := 1, rf := 1, spGran := 0, asGran := 0, roles := [⟨0, 8, 1, 1⟩], reenter := [], poison := none, blocked := none }

/-- The LAUNCH of a stand's cord. -/
def swappedLaunch : Work := .launchRec ⟨0, 0, false, 0, BitVec.allOnes 32, 0⟩ 0 ⟨[], 0, none, 0⟩

/-- Two LAUNCHes of one cord, of which the later one, of handle 1, stands before the earlier one in the list. -/
def swappedLaunches : State :=
  { State.reset with
    stands := [newStand swappedTract 0 0 0 0 [0] {}]
    works := [⟨1, none, swappedLaunch⟩, ⟨0, none, swappedLaunch⟩]
    uid := 2 }

/-- The later record waits for the earlier one. -/
theorem launchRecordStore_swappedLaunches : exec (.launchRecordStore 1) swappedLaunches = .next swappedLaunches := rfl

theorem unreleased_swappedLaunches : swappedLaunches.unreleased 1 0 0 (BitVec.allOnes 32) = false := rfl

/-- Refutes O39: the statement takes the earlier LAUNCHes of a cord to be those before it in the list of work, and the model
those of lower handles. In a state that lists the later LAUNCH first, its record waits for the earlier one, where the
statement has it stored. -/
theorem not_launchesAdvanceOrAreRefused : ¬ Obligations.LaunchesAdvanceOrAreRefused := by
  rintro ⟨launches, -, -⟩
  obtain ⟨store, -⟩ := launches swappedLaunches 0 rfl
  obtain ⟨stored, -⟩ := store 1 _ _ rfl unreleased_swappedLaunches (by simp [swappedLaunches]) rfl rfl rfl
    (fun st hs => by cases hs; rfl) rfl
  have same := Host.Outcome.next.inj ((stored (by decide)).symm.trans launchRecordStore_swappedLaunches)
  have next_handle : swappedLaunches.uid + 1 = swappedLaunches.uid := congrArg State.uid same
  exact absurd next_handle (by decide)

end Sys2Proof.Machine
end

section
/-! SUPPORT. What the end of a stand leaves (R18, R29 to R31). -/

namespace Sys2Proof.Machine

section
variable {s : State} {d c : Nat}

/-! A core after an update. -/

theorem core_modDie {n : Nat} {f : Die → Die} (h : ∀ x, (f x).cores = x.cores) : (s.modDie n f).core d c = s.core d c := by
  have : ((s.modDie n f).die d).cores = (s.die d).cores := by
    simp only [State.die, State.modDie_dies, List.getD_eq_getElem?_getD, List.getElem?_modify]
    cases s.dies[d]? <;> split_ifs <;> simp [*]
  rw [State.core, State.core, Die.core, Die.core, this]

theorem core_modGrove {d' g : Nat} {f : Grove → Grove} : (s.modGrove d' g f).core d c = s.core d c :=
  core_modDie fun _ => rfl

theorem core_modCore {f : Core → Core} (hd : d < s.dies.length) (hc : c < (s.die d).cores.length) :
    (s.modCore d c f).core d c = f (s.core d c) := by
  simp only [State.die, List.getD_eq_getElem _ _ hd] at hc
  simp [State.core, State.modCore, State.modDie, State.die, Die.core, hd, hc]

theorem core_reshare {d' c' tract : Nat} {away : Bool} : (s.reshare d' c' tract away).core d c = s.core d c :=
  core_modDie fun _ => rfl

theorem core_freeSets {d' g : Nat} : (s.freeSets d' g).core d c = s.core d c := core_modGrove

theorem core_forgetStruck {st : Stand} : (s.forgetStruck st).core d c = s.core d c := by
  unfold State.forgetStruck
  split
  · rfl
  · exact core_modDie fun _ => rfl

theorem core_disownSlots {d' ctx : Nat} : (s.disownSlots d' ctx).core d c = s.core d c := by
  simp only [State.core, Die.core, State.die, State.disownSlots, List.getD_eq_getElem?_getD, List.getElem?_map]
  cases s.dies[d]? <;> rfl

theorem core_leaveContext {d' ctx : Nat} : (s.leaveContext d' ctx).core d c = s.core d c := by
  unfold State.leaveContext
  split
  · rfl
  · exact core_disownSlots

@[simp] theorem leaveContext_stands {ctx : Nat} : (s.leaveContext d ctx).stands = s.stands := by
  unfold State.leaveContext; split <;> rfl

@[simp] theorem leaveContext_tracts {ctx : Nat} : (s.leaveContext d ctx).tracts = s.tracts := by
  unfold State.leaveContext; split <;> rfl

/-- The resolutions of futures go on when a context leaves a die. -/
theorem resolve_mem_leaveContext {ctx fut : Nat} {o : Origin} {phys : Option Nat} {v : DWord} {poison : Bool} {i : Item}
    (h : i ∈ s.works) (hw : i.work = .resolve o fut phys v poison) : i ∈ (s.leaveContext d ctx).works := by
  unfold State.leaveContext
  split
  · exact h
  · exact List.mem_filter.mpr ⟨h, by rw [hw]⟩

/-! The pins of a stand. -/

/-- The canopy of a core after some slots have lost a pin each (R258). -/
def unpinned (canopy : List Canopy) (pins : List Nat) : List Canopy :=
  pins.foldl (fun cs w => cs.modify w fun x => { x with pins := x.pins - 1 }) canopy

theorem unpinned_pins {canopy : List Canopy} {pins : List Nat} {w : Nat} (h : w < canopy.length) :
    ((unpinned canopy pins).getD w {}).pins = (canopy.getD w {}).pins - pins.count w := by
  induction pins generalizing canopy with
  | nil => rfl
  | cons p pins ih =>
    rw [unpinned, List.foldl_cons, ← unpinned, ih (by simpa using h), List.getD_eq_getElem _ _ (by simpa using h),
      List.getD_eq_getElem _ _ h, List.getElem_modify, List.count_cons]
    by_cases hp : p = w <;> simp [hp]; omega

theorem modCore_modCore (f g : Core → Core) : (s.modCore d c f).modCore d c g = s.modCore d c (g ∘ f) := by
  simp [State.modCore, State.modDie, List.modify_modify_eq, Function.comp_def]

theorem modCore_id : s.modCore d c id = s := by
  have e : (fun x : Die => { x with cores := x.cores.modify c id }) = id := funext fun x => by rw [List.modify_id]; rfl
  rw [State.modCore, e, State.modDie, List.modify_id]

theorem unpins_eq (pins : List Nat) : pins.foldl (fun s w => s.unpin d c w) s =
    s.modCore d c fun k => { k with canopy := unpinned k.canopy pins } := by
  induction pins generalizing s with
  | nil => exact modCore_id.symm
  | cons w pins ih => rw [List.foldl_cons, ih, State.unpin, modCore_modCore]; rfl

theorem modCore_cores_length {f : Core → Core} : ((s.modCore d c f).die d).cores.length = (s.die d).cores.length := by
  simp only [State.die, State.modCore, State.modDie_dies, List.getD_eq_getElem?_getD, List.getElem?_modify_eq]
  cases s.dies[d]? <;> simp

/-! A stand that is released. -/

theorem forgetStruck_tracts {st : Stand} : (s.forgetStruck st).tracts = s.tracts := by
  unfold State.forgetStruck; split <;> rfl

theorem forgetStruck_stands {st : Stand} : (s.forgetStruck st).stands = s.stands := by
  unfold State.forgetStruck; split <;> rfl

@[simp] theorem releaseStand_tracts {st : Stand} {ended : Bool} : (s.releaseStand st ended).tracts = s.tracts :=
  forgetStruck_tracts

@[simp] theorem releaseStand_stands {st : Stand} {ended : Bool} :
    (s.releaseStand st ended).stands = s.stands.filter fun x => x.sid ≠ st.sid :=
  forgetStruck_stands

/-- A core that an ended stand has left: its granules clear, and its threshold entries and waits go (R18, R29). -/
def Core.leftBy (k : Core) (st : Stand) (clock : Nat) : Core :=
  { k.flushQinvs (fun x => decide (x.1 = st.sid)) with
    clearing := k.clearing ++ [(st.rf + st.spGran + st.asGran, clock + 64)]
    thresh := k.thresh.filter fun t => t.sid ≠ st.sid
    waits := k.waits.filter fun w => w.sid ≠ st.sid
    ended := (st.tract :: k.ended.filter (· ≠ st.tract)).take 8 }

theorem core_releaseStand {st : Stand} (hd : st.die < s.dies.length) (hc : st.core < (s.die st.die).cores.length) :
    (s.releaseStand st true).core st.die st.core = (s.core st.die st.core).leftBy st s.clock := by
  rw [State.releaseStand, core_reshare, core_freeSets, core_forgetStruck]
  exact core_modCore hd hc

/-! Tracts whose stands have all ended. -/

/-- The resolution of an ended tract's future (R31). -/
def Tract.resolution (t : Tract) : Work :=
  .resolve { die := t.die, ctx := t.ctx, dest := none, after := t.sids } t.fut none
    ((t.poison.map (BitVec.zeroExtend 64)).getD 0) t.poison.isSome

/-- An ended tract's future is resolved, where it has one. -/
def State.resolveTract (s : State) (t : Tract) : State := if t.fut = 0 then s else s.addWork t.resolution

theorem finishTracts_eq : s.finishTracts = (s.tracts.filter fun t => t.stands ≤ t.ended).foldl State.resolveTract
    { s with tracts := s.tracts.filter fun t => !decide (t.stands ≤ t.ended) } := rfl

/-- The futures of ended tracts are resolved by pieces of work, which change nothing else. -/
theorem resolveTracts_eq (l : List Tract) : ∃ n ws,
    l.foldl State.resolveTract s = { s with uid := n, works := s.works ++ ws } ∧
    ∀ t ∈ l, t.fut ≠ 0 → ∃ i ∈ ws, i.work = t.resolution := by
  induction l generalizing s with
  | nil => exact ⟨s.uid, [], by simp, by simp⟩
  | cons t l ih =>
    obtain ⟨n, ws, e, h⟩ := ih (s := s.resolveTract t)
    rw [List.foldl_cons, e, State.resolveTract]
    split
    next h0 => exact ⟨n, ws, rfl, List.forall_mem_cons.mpr ⟨absurd h0, h⟩⟩
    next =>
      refine ⟨n, { id := s.uid, work := t.resolution } :: ws, by simp [State.addWork], fun x hx hf => ?_⟩
      rcases List.mem_cons.mp hx with rfl | hx
      · exact ⟨_, List.mem_cons_self, rfl⟩
      · obtain ⟨i, hi, hw⟩ := h x hx hf
        exact ⟨i, List.mem_cons_of_mem _ hi, hw⟩

/-- Ended tracts go, and their futures are resolved (R31). -/
theorem finishTracts_spec : ∃ n ws,
    s.finishTracts = { s with
      tracts := s.tracts.filter fun t => !decide (t.stands ≤ t.ended), uid := n, works := s.works ++ ws } ∧
    ∀ t ∈ s.tracts, t.stands ≤ t.ended → t.fut ≠ 0 → ∃ i ∈ ws, i.work = t.resolution := by
  obtain ⟨n, ws, e, h⟩ := resolveTracts_eq (s := { s with tracts := s.tracts.filter fun t => !decide (t.stands ≤ t.ended) })
    (s.tracts.filter fun t => t.stands ≤ t.ended)
  exact ⟨n, ws, e, fun t ht hover => h t (List.mem_filter.mpr ⟨ht, decide_eq_true hover⟩)⟩

/-- A stand off its core, its pins lowered and its tract told (R29, R258). -/
def State.leaving (s : State) (st : Stand) : State :=
  ((st.pins.foldl (fun s w => s.unpin st.die st.core w) s).releaseStand st true).countEnded [st.tract]

/-- The state that the end of a stand leaves. -/
def State.endStand (s : State) (st : Stand) : State := (s.leaving st).finishTracts.leaveContext st.die st.ctx

/-- A stand of which nothing is left ends (R29). -/
theorem execStandEnd_eq {sid : Nat} {st : Stand} (hf : s.focus = none) (hs : s.stand? sid = some st)
    (hover : s.standOver st = true) : execStandEnd sid s = .next (s.endStand st) := by
  simp [execStandEnd, State.unfocus_of_none hf, hs, hover, State.endStand, State.leaving]

theorem standOver_iff {st : Stand} : s.standOver st = true ↔ st.phase = .running ∧
    (∀ c ∈ st.cords, c.exited = BitVec.allOnes 32 ∧ c.released = true) ∧ (∀ i ∈ s.works, i.work.ofStand st.sid = false) ∧
    (∀ t ∈ (s.core st.die st.core).allTasks, t.sid ≠ st.sid) ∧ (∀ e ∈ (s.core st.die st.core).insq, e.sid ≠ st.sid) ∧
    s.receiving st.sid = false := by
  simp [State.standOver, and_assoc]

section
variable {st : Stand}

theorem core_leaving (hd : st.die < s.dies.length) (hc : st.core < (s.die st.die).cores.length) :
    (s.leaving st).core st.die st.core =
      { (s.core st.die st.core).leftBy st s.clock with canopy := unpinned (s.core st.die st.core).canopy st.pins } := by
  rw [State.leaving, unpins_eq]
  refine (core_releaseStand ?_ ?_).trans ?_
  · simpa [State.modCore]
  · rwa [modCore_cores_length]
  · rw [core_modCore hd hc]; rfl

theorem leaving_stands : (s.leaving st).stands = s.stands.filter fun x => x.sid ≠ st.sid := by
  rw [State.leaving, unpins_eq]
  exact releaseStand_stands

theorem leaving_tracts :
    (s.leaving st).tracts = s.tracts.map fun x => { x with ended := x.ended + [st.tract].count x.id } := by
  rw [State.leaving, unpins_eq]
  simp [State.countEnded]

theorem mem_leaving_tracts {x : Tract} (hx : x ∈ s.tracts) (hid : x.id = st.tract) :
    { x with ended := x.ended + 1 } ∈ (s.leaving st).tracts := by
  rw [leaving_tracts, List.mem_map]
  exact ⟨x, hx, by simp [hid]⟩

theorem endStand_stored : (s.endStand st).stored = s.stored := by
  simp [State.endStand, State.leaving]

theorem core_endStand : (s.endStand st).core st.die st.core = (s.leaving st).core st.die st.core := by
  obtain ⟨n, ws, e, -⟩ := finishTracts_spec (s := s.leaving st)
  rw [State.endStand, core_leaveContext, e]; rfl

theorem endStand_stands : (s.endStand st).stands = s.stands.filter fun x => x.sid ≠ st.sid := by
  obtain ⟨n, ws, e, -⟩ := finishTracts_spec (s := s.leaving st)
  rw [State.endStand, leaveContext_stands, e, ← leaving_stands]

theorem mem_endStand_tracts {x : Tract} : x ∈ (s.endStand st).tracts ↔ x ∈ (s.leaving st).tracts ∧ x.ended < x.stands := by
  obtain ⟨n, ws, e, -⟩ := finishTracts_spec (s := s.leaving st)
  rw [State.endStand, leaveContext_tracts, e]
  simp

theorem endStand_resolves {x : Tract} (hx : x ∈ (s.leaving st).tracts) (hover : x.stands ≤ x.ended) (hf : x.fut ≠ 0) :
    ∃ i ∈ (s.endStand st).works, i.work = x.resolution := by
  obtain ⟨n, ws, e, h⟩ := finishTracts_spec (s := s.leaving st)
  obtain ⟨i, hi, hw⟩ := h x hx hover hf
  rw [State.endStand, e]
  exact ⟨i, resolve_mem_leaveContext (List.mem_append_right _ hi) hw, hw⟩

end

/-- A search by a number finds the changed entry, where entries keep their numbers. -/
theorem find?_map_ite {α : Type} {key : α → Nat} {g : α → α} (hg : ∀ x, key (g x) = key x) {n : Nat} {l : List α} {a : α}
    (h : l.find? (fun x => key x = n) = some a) :
    (l.map fun x => if key x = n then g x else x).find? (fun x => key x = n) = some (g a) := by
  induction l with
  | nil => cases h
  | cons x l ih =>
    by_cases hx : key x = n
    · simp_all
    · simpa [hx] using ih (by simpa [hx] using h)

theorem stand?_modStand {sid : Nat} {st : Stand} {f : Stand → Stand} (hf : ∀ x, (f x).sid = x.sid)
    (h : s.stand? sid = some st) : (s.modStand sid f).stand? sid = some (f st) := find?_map_ite hf h

theorem cord?_modCord {st : Stand} {cord : Nat} {c : Cord} {f : Cord → Cord} (hf : ∀ x, (f x).id = x.id)
    (h : st.cord? cord = some c) : (st.modCord cord f).cord? cord = some (f c) := find?_map_ite hf h

/-- The storage of an exited cord with no outstanding write is released (R30). -/
theorem execRegfileRelease_eq {sid cord : Nat} {st : Stand} {c : Cord} (hf : s.focus = none) (hs : s.stand? sid = some st)
    (hc : st.cord? cord = some c) (he : c.exited = BitVec.allOnes 32) (hw : c.draining = false) :
    ∃ t st' c', execRegfileRelease sid cord s = .next t ∧ t.stand? sid = some st' ∧ st'.cord? cord = some c' ∧
      c' = { c with released := true } ∧ t = { s with stands := t.stands } := by
  have same (c : Cord) :
      (if c.exited = BitVec.allOnes 32 ∧ c.draining = false then { c with released := true } else c).id = c.id := by
    split <;> rfl
  rw [execRegfileRelease, State.unfocus_of_none hf]
  exact ⟨_, _, _, rfl, stand?_modStand (fun _ => rfl) hs, cord?_modCord same hc, if_pos ⟨he, hw⟩, rfl⟩

end

end Sys2Proof.Machine
end

section
/-! SUPPORT. Where the distributor places the next stand (R19, R26). -/

namespace Sys2Proof.Machine

/-- In a list that a relation orders, the first entry with a value decides the search. -/
theorem findSome?_of_first {α β : Type} {R : α → α → Prop} {f : α → Option β} {l : List α} {a : α} {b : β}
    (hl : l.Pairwise R) (ha : a ∈ l) (hb : f a = some b) (before : ∀ x ∈ l, R x a → f x = none) :
    l.findSome? f = some b := by
  induction l with
  | nil => cases ha
  | cons x l ih =>
    obtain ⟨hx, hl⟩ := List.pairwise_cons.mp hl
    rcases List.mem_cons.mp ha with rfl | ha
    · rw [List.findSome?_cons, hb]
    · rw [List.findSome?_cons, before x List.mem_cons_self (hx a ha)]
      exact ih hl ha fun y hy => before y (List.mem_cons_of_mem x hy)

section
variable {s : State}

theorem foldl_laterEntry {ts : List Tract} (h : ∀ t ∈ ts, t.reenter = []) : ts.foldl laterEntry none = none := by
  induction ts with
  | nil => rfl
  | cons t ts ih =>
    obtain ⟨ht, hts⟩ := List.forall_mem_cons.mp h
    rw [List.foldl_cons, show laterEntry none t = none by simp [laterEntry, ht]]
    exact ih hts

/-- With no stand that re-enters, the head is the first tract of the highest priority with a stand to place. -/
theorem head_of_no_reentry {die : Nat} (h : ∀ x ∈ s.tracts, x.die = die → x.reenter = []) :
    s.head die = [3, 2, 1, 0].findSome? fun p =>
      s.tracts.find? fun x => x.die = die ∧ x.prio = p ∧ x.next < x.stands := by
  have none_enters (p : Nat) : (s.tracts.filter fun x => x.die = die ∧ x.prio = p).foldl laterEntry none = none :=
    foldl_laterEntry fun x hx => by
      obtain ⟨hx, hc⟩ := List.mem_filter.mp hx
      exact h x hx (of_decide_eq_true hc).1
  simp only [State.head, none_enters, Option.none_or, List.find?_filter, decide_eq_true_eq, and_assoc]

theorem head_eq_some {die : Nat} {t : Tract} {pre post : List Tract} (hs : s.tracts = pre ++ t :: post)
    (hd : t.die = die) (hp : t.prio ≤ 3) (ht : t.next < t.stands) (hr : ∀ x ∈ s.tracts, x.die = die → x.reenter = [])
    (hpre : ∀ x ∈ pre, x.die = die → x.next < x.stands → x.prio < t.prio)
    (hpost : ∀ x ∈ post, x.die = die → x.next < x.stands → x.prio ≤ t.prio) : s.head die = some t := by
  rw [head_of_no_reentry hr]
  refine findSome?_of_first (R := (· > ·)) (a := t.prio) (by decide) (by simp; omega) ?_ fun p _ hpt => ?_
  · rw [List.find?_eq_some_iff_append]
    refine ⟨by simp [hd, ht], pre, post, hs, fun x hx => ?_⟩
    have higher := hpre x hx
    simp only [Bool.not_eq_true', decide_eq_false_iff_not]
    rintro ⟨hxd, hxp, hxs⟩
    exact absurd (higher hxd hxs) (by omega)
  · rw [List.find?_eq_none]
    intro x hx hc
    obtain ⟨hxd, rfl, hxs⟩ := of_decide_eq_true hc
    rw [hs, List.mem_append, List.mem_cons] at hx
    rcases hx with hx | rfl | hx
    · exact absurd (hpre x hx hxd hxs) (by omega)
    · omega
    · exact absurd (hpost x hx hxd hxs) (by omega)

/-- Of the cores of a die below a number, none fits, or the given one fits, and no fitting one has more free granules, nor
as many at a lower number (R26). -/
def State.IsBest (s : State) (n : Need) (d k : Nat) : Option Nat → Prop
  | none => ∀ c < k, s.fits n d c = false
  | some c => c < k ∧ s.fits n d c = true ∧ ∀ c' < k, s.fits n d c' = true →
      (s.core d c').free < (s.core d c).free ∨ (s.core d c').free = (s.core d c).free ∧ c ≤ c'

theorem State.IsBest.unique {n : Need} {d k : Nat} {o o' : Option Nat} (h : s.IsBest n d k o) (h' : s.IsBest n d k o') :
    o = o' := by
  have none_some {c : Nat} (h : s.IsBest n d k none) (h' : s.IsBest n d k (some c)) : False := by
    simpa [h'.2.1] using h c h'.1
  match o, o', h, h' with
  | none, none, _, _ => rfl
  | none, some _, h, h' => exact (none_some h h').elim
  | some _, none, h, h' => exact (none_some h' h).elim
  | some c, some c', ⟨hc, hf, best⟩, ⟨hc', hf', best'⟩ =>
    have := best c' hc' hf'
    have := best' c hc hf
    rw [show c = c' by omega]

theorem isBest_bestCore (n : Need) (d k : Nat) : s.IsBest n d k (s.bestCore n d (List.range k)) := by
  induction k with
  | zero => exact fun c hc => absurd hc (by omega)
  | succ k ih =>
    rw [List.range_succ, State.bestCore, List.foldl_append, List.foldl_cons, List.foldl_nil, ← State.bestCore]
    generalize s.bestCore n d (List.range k) = o at ih
    cases hk : s.fits n d k <;> cases o
    case false.none => exact Nat.forall_lt_succ_right.mpr ⟨ih, hk⟩
    case false.some b =>
      obtain ⟨hb, hfb, best⟩ := ih
      exact ⟨by omega, hfb, Nat.forall_lt_succ_right.mpr ⟨best, by simp [hk]⟩⟩
    case true.none =>
      refine ⟨by omega, hk, Nat.forall_lt_succ_right.mpr ⟨fun c hc hf => ?_, fun _ => .inr ⟨rfl, le_rfl⟩⟩⟩
      simp [ih c hc] at hf
    case true.some b =>
      obtain ⟨hb, hfb, best⟩ := ih
      simp only [if_true]
      split
      next more =>
        refine ⟨by omega, hk, Nat.forall_lt_succ_right.mpr ⟨fun c hc hf => ?_, fun _ => .inr ⟨rfl, le_rfl⟩⟩⟩
        have := best c hc hf
        omega
      next less => exact ⟨by omega, hfb, Nat.forall_lt_succ_right.mpr ⟨best, fun _ => by omega⟩⟩

/-- A die where a tract's stands may go (R26, R371). -/
theorem mem_diesFor {t : Tract} {d : Nat} :
    d ∈ s.diesFor t ↔ d < 8 ∧ t.affinity.getLsbD d = true ∧ (s.die d).inService = true ∧ (s.die d).harvested = false ∧
      (s.die d).uncRst = false ∧ ((s.die d).ctx t.ctx).v = true ∧ ∀ p, t.fpid = some p → p = ((s.die d).ctx t.ctx).fpid := by
  simp only [State.diesFor, State.namedDies, Die.available, List.mem_append, List.mem_filter, ← and_or_left, List.mem_range,
    Bool.and_eq_true, Bool.not_eq_true', decide_eq_true_eq, Option.all_eq_true, em, and_true]
  tauto

/-- The accepting die comes first, and the others by their number (R26). -/
theorem diesFor_pairwise (t : Tract) :
    (s.diesFor t).Pairwise fun x y => x = t.die ∧ y ≠ t.die ∨ x < y ∧ x ≠ t.die ∧ y ≠ t.die := by
  have rising (p q : Nat → Bool) : (((List.range 8).filter p).filter q).Pairwise (· < ·) :=
    (List.pairwise_lt_range.filter p).filter q
  refine List.pairwise_append.mpr ⟨((rising _ _).filter _).imp_of_mem fun hx hy h => ?_,
    ((rising _ _).filter _).imp_of_mem fun hx hy h => ?_, fun x hx y hy => ?_⟩ <;>
  simp only [List.mem_filter, decide_eq_true_eq] at hx hy
  · omega
  · exact .inr ⟨h, hx.2, hy.2⟩
  · exact .inl ⟨hx.2, hy.2⟩

/-- What a core must have for a fresh stand of a tract (R19, R249, R294, R372). -/
theorem fits_needOf {t : Tract} {d c : Nat} :
    s.fits (s.needOf t d) d c = true ↔ (s.die d).coreRst = false ∧ (s.core d c).quiesced = false ∧
      (s.core d c).secure = ((s.die d).ctx t.ctx).sec ∧ t.rf + t.spGran + t.asGran ≤ (s.core d c).free ∧
      (takeSlots (s.slotsUsed d c) (quadsOf (cordsOf t.roles))).isSome = true ∧
      ((∃ x ∈ (s.grove d (c / 8)).sets, x.1 = ⟨t.ctx, ((s.die d).ctx t.ctx).fpid, ((s.die d).ctx t.ctx).sec⟩) ∨
        (s.grove d (c / 8)).sets.length < 4) ∧ (s.core d c).thresh.length ≤ 1024 := by
  simp only [State.fits, State.fitsWith, Bool.and_eq_true, Bool.or_eq_true, Bool.not_eq_true', decide_eq_true_eq, and_assoc]
  simp only [State.setsOf, State.needOf, List.contains_iff_mem, List.mem_map, List.length_map, Nat.add_zero]

theorem site_eq_some {t : Tract} {d c : Nat} (hd : d ∈ s.diesFor t) (hc : s.IsBest (s.needOf t d) d 32 (some c))
    (home : d ≠ t.die → t.die ∈ s.diesFor t → s.IsBest (s.needOf t t.die) t.die 32 none)
    (lower : ∀ d' < d, d' ≠ t.die → d ≠ t.die → d' ∈ s.diesFor t → s.IsBest (s.needOf t d') d' 32 none) :
    s.site t = some (d, c) := by
  have best {d : Nat} {o : Option Nat} (h : s.IsBest (s.needOf t d) d 32 o) :
      s.bestCore (s.needOf t d) d (List.range 32) = o := (isBest_bestCore _ _ _).unique h
  refine findSome?_of_first (diesFor_pairwise t) hd (by rw [best hc]; rfl) fun x hx before => ?_
  rw [Option.map_eq_none_iff]
  rcases before with ⟨rfl, h⟩ | ⟨hlt, hx', h⟩
  · exact best (home h hx)
  · exact best (lower x hlt hx' h hx)

theorem site_eq_none {t : Tract} (h : ∀ d ∈ s.diesFor t, s.IsBest (s.needOf t d) d 32 none) : s.site t = none := by
  refine List.findSome?_eq_none_iff.mpr fun d hd => ?_
  rw [(isBest_bestCore _ _ _).unique (h d hd)]
  rfl

theorem execStandPlace_eq {die d c : Nat} {t : Tract} {slots : List Nat} (hf : s.focus = none)
    (ha : (s.die die).available = true) (hh : s.head die = some t) (hr : t.reenter = []) (hs : s.site t = some (d, c))
    (ht : takeSlots (s.slotsUsed d c) (quadsOf (cordsOf t.roles)) = some slots) :
    execStandPlace die s = .next (({ s with uid := s.uid + 1 }.claim
      (newStand t s.uid t.next d c slots ((s.die d).ctx t.ctx))).modTract t.id
        fun t => { t with next := t.next + 1, blocked := none, sids := t.sids ++ [s.uid] }) := by
  simp [execStandPlace, State.unfocus_of_none hf, ha, hh, hr, hs, ht]

theorem execStandPlace_blocked {die : Nat} {t : Tract} (hf : s.focus = none)
    (ha : (s.die die).available = true) (hh : s.head die = some t) (hr : t.reenter = []) (hs : s.site t = none) :
    execStandPlace die s = .next (s.modTract t.id fun t => { t with blocked := t.blocked.or (some s.clock) }) := by
  simp [execStandPlace, State.unfocus_of_none hf, ha, hh, hr, hs]

/-- A started stand's cords: the path of each in slot A at its role's first instruction (R27). -/
theorem execStandGangStart_eq {sid : Nat} {st : Stand} (hf : s.focus = none) (hs : s.stand? sid = some st)
    (hp : st.phase = .placed) (first : ∀ x ∈ s.stands, x.tract = st.tract → x.phase = .placed → st.standId ≤ x.standId) :
    execStandGangStart sid s = .next ((s.modStand sid fun x => { x with
      phase := .running, started := s.clock
      cords := x.cords.map fun c => { c with
        slotA := some { pc := ((x.roles[c.role]?).map Role.pc).getD 0, mask := BitVec.allOnes 32, liveSince := s.clock } }
      }).reshare st.die st.core st.tract false) := by
  have lowest : (s.stands.any fun x => x.tract = st.tract && x.phase = .placed && x.standId < st.standId) = false := by
    simpa [and_imp] using first
  simp [execStandGangStart, State.unfocus_of_none hf, hs, hp, lowest]

end

end Sys2Proof.Machine
end

section
/-! SUPPORT. The life of a stand, from its place to its end (R18 to R31). -/

namespace Sys2Proof.Machine

/-- Settles O40: of placement, the search for the head, the die and the core finds what the statement singles out; of the
end, each stage of it leaves the rest of the state as it is. -/
theorem standsLiveAndEnd : Obligations.StandsLiveAndEnd := by
  intro s hf
  refine ⟨?_, fun sid st hs hp first => execStandGangStart_eq hf hs hp first, fun sid cord st c hs hc he hv hs' hp =>
    execRegfileRelease_eq hf hs hc he (by simp [Cord.draining, hv, hs', hp]), ?_, ?_⟩
  · intro die d c t pre post slots entry named fits hin hharv hunc hs hd hp ht hr hpre hpost
    have head := head_eq_some hs hd hp ht hr hpre hpost
    have fresh : t.reenter = [] := hr t (by simp [hs]) hd
    have avail : (s.die die).available = true := by simp [Die.available, hin, hharv, hunc]
    have hfit {d c : Nat} (hc : c < 32) (h : s.fits (s.needOf t d) d c = true) : fits d c := ⟨hc, fits_needOf.mp h⟩
    have unfit {d : Nat} (h : ∀ c, ¬fits d c) : s.IsBest (s.needOf t d) d 32 none := fun c hc =>
      Bool.eq_false_iff.mpr fun hfc => h c (hfit hc hfc)
    subst hd
    constructor
    · intro hn hfc home lower best hslots
      exact execStandPlace_eq hf avail head fresh (site_eq_some (mem_diesFor.mpr hn)
        ⟨hfc.1, fits_needOf.mpr hfc.2, fun c' hc' h => best c' (hfit hc' h)⟩
        (fun hne hm => unfit (home hne (mem_diesFor.mp hm)))
        (fun d' hlt hne' hne hm => unfit (lower d' hlt hne' hne (mem_diesFor.mp hm)))) hslots
    · exact fun h => execStandPlace_blocked hf avail head fresh (site_eq_none fun d hm => unfit (h d (mem_diesFor.mp hm)))
  · intro sid st hs hp hcords hworks htasks hinsq hrec hd hc k
    refine ⟨s.endStand st, execStandEnd_eq hf hs (standOver_iff.mpr ⟨hp, hcords, hworks, htasks, hinsq, hrec⟩), rfl, ?_,
      endStand_stands, congrArg Stored.hbm endStand_stored, congrArg Stored.hostMem endStand_stored, ?_, ?_⟩
    · rw [core_endStand, core_leaving hd hc]
      exact ⟨rfl, rfl, rfl, rfl, rfl, fun w hw => unpinned_pins hw⟩
    · exact fun x hx hid hlt => mem_endStand_tracts.mpr ⟨mem_leaving_tracts hx hid, hlt⟩
    · refine fun x hx hid hle => ⟨fun h => absurd (mem_endStand_tracts.mp h).2 (Nat.not_lt.mpr hle), ?_⟩
      exact endStand_resolves (x := { x with ended := x.ended + 1 }) (mem_leaving_tracts hx hid) hle
  · intro n
    simp only [exec, execGranuleClearDone, State.unfocus_of_none hf, List.sum_eq_foldl]

end Sys2Proof.Machine
end

section
/-! PROOFS. The fields of a word: what a field of a concatenation is, when a concatenation is a word, and the selectors
of Syntax read back from their field values (R41). -/

namespace Sys2Proof

theorem extractLsb'_append_high {m n lo len : Nat} (x : BitVec m) (y : BitVec n) (h : n ≤ lo) :
    BitVec.extractLsb' (n := no_index (m + n)) lo len (HAppend.hAppend (γ := BitVec (no_index _)) x y) =
      x.extractLsb' (lo - n) len :=
  BitVec.extractLsb'_append_eq_of_le h

theorem extractLsb'_append_low {m n lo len : Nat} (x : BitVec m) (y : BitVec n) (h : lo + len ≤ n) :
    BitVec.extractLsb' (n := no_index (m + n)) lo len (HAppend.hAppend (γ := BitVec (no_index _)) x y) =
      y.extractLsb' lo len :=
  BitVec.extractLsb'_append_eq_of_add_le h

theorem extractLsb'_append_eq_zero {m n lo len : Nat} (x : BitVec m) (y : BitVec n) (h : lo < n) (h' : n < lo + len) :
    BitVec.extractLsb' (n := no_index (m + n)) lo len (HAppend.hAppend (γ := BitVec (no_index _)) x y) = 0#len ↔
      x.extractLsb' 0 (lo + len - n) = 0 ∧ y.extractLsb' lo (n - lo) = 0 := by
  simp only [BitVec.eq_of_getLsbD_eq_iff, BitVec.getLsbD_extractLsb', BitVec.getLsbD_append, BitVec.getLsbD_zero]
  constructor
  · intro e
    constructor
    · intro i hi
      have := e (i + n - lo) (by omega)
      rw [show lo + (i + n - lo) = i + n by omega] at this
      simpa [hi, show i + n - lo < len by omega] using this
    · intro i hi
      have := e i (by omega)
      simpa [hi, show i < len by omega, show lo + i < n by omega] using this
  · intro ⟨e1, e2⟩ i hi
    by_cases c : lo + i < n
    · have := e2 i (by omega)
      simpa [hi, c, show i < n - lo by omega] using this
    · have := e1 (lo + i - n) (by omega)
      simpa [hi, c, show lo + i - n < lo + len - n by omega] using this

/-- A word is its own field of 32 bits. -/
theorem fld_all (w : BitVec 32) : fld w 0 32 = w := BitVec.extractLsb'_eq_self

/-- A field is a concatenation when its upper and its lower part are. -/
theorem append_eq_fld {m n lo : Nat} {x : BitVec m} {y : BitVec n} {w : BitVec 32} :
    @Eq (BitVec (no_index (m + n))) (HAppend.hAppend (γ := BitVec (no_index _)) x y) (fld w lo (no_index (m + n))) ↔
      x = fld w (lo + n) m ∧ y = fld w lo n := by
  have e : fld w (lo + n) m ++ fld w lo n = fld w lo (m + n) :=
    BitVec.extractLsb'_append_extractLsb'_eq_extractLsb' rfl
  rw [← e]
  constructor
  · intro h
    exact ⟨by simpa [extractLsb'_append_high] using congrArg (BitVec.extractLsb' n m) h,
      by simpa [extractLsb'_append_low] using congrArg (BitVec.extractLsb' 0 n) h⟩
  · rintro ⟨rfl, rfl⟩; rfl

theorem zero_eq_fld_append {w : BitVec 32} {lo m n : Nat} :
    0 = fld w lo (m + n) ↔ 0 = fld w (lo + n) m ∧ 0 = fld w lo n := by
  rw [← append_eq_fld, show (0 : BitVec (m + n)) = 0#m ++ 0#n by simp]; rfl

/-- A bit of a word as a field of one bit. -/
theorem bitAt_eq_fld (w : BitVec 32) (k : Nat) : bitAt w k = (fld w k 1 == 1#1) := by
  unfold bitAt fld
  cases h : w.getLsbD k <;> simp [BitVec.eq_of_getLsbD_eq_iff, h, Bool.eq_false_iff]

@[simp] theorem bit1_eq_one (b : Bool) : (bit1 b == 1#1) = b := by cases b <;> rfl

@[simp] theorem bit1_eq_fld {b : Bool} {w : BitVec 32} {k : Nat} : bit1 b = fld w k 1 ↔ b = bitAt w k := by
  rw [bitAt_eq_fld]
  cases b <;> rcases BitVec.eq_zero_or_eq_one (fld w k 1) with h | h <;> simp [h, bit1]

theorem zero_eq_fld_one {w : BitVec 32} {k : Nat} : 0#1 = fld w k 1 ↔ false = bitAt w k := bit1_eq_fld (b := false)

theorem one_eq_fld_one {w : BitVec 32} {k : Nat} : 1#1 = fld w k 1 ↔ true = bitAt w k := bit1_eq_fld (b := true)

/-! ### Selectors -/

/-- A lookup by field values that finds its entry at the first place. -/
theorem bits_of_lookup_cons {α β : Type} [DecidableEq β] {f : α → β} {b k : β} {a : α} {r : Option α} (ha : f a = k)
    (hr : ∀ t, r = some t → f t = b) : ∀ t, (if b = k then some a else r) = some t → f t = b := by
  intro t h
  split at h
  · next hb => cases h; exact ha.trans hb.symm
  · exact hr t h

/-- A lookup among no entries finds none. -/
theorem bits_of_lookup_nil {α β : Type} {f : α → β} {b : β} : ∀ t, none = some t → f t = b := nofun

@[simp] theorem ElW.ofBits_bits (t : ElW) : ElW.ofBits t.bits = some t := by cases t <;> rfl

@[simp] theorem ElW.ofBits_eq_some {b : BitVec 2} {t : ElW} : ElW.ofBits b = some t ↔ t.bits = b := by
  have h : ∀ t, ElW.ofBits b = some t → t.bits = b := by
    repeat refine bits_of_lookup_cons rfl ?_
    exact bits_of_lookup_nil
  exact ⟨h t, by rintro rfl; exact t.ofBits_bits⟩

@[simp] theorem PackTy.ofBits_bits (t : PackTy) : PackTy.ofBits t.bits = some t := by cases t <;> rfl

@[simp] theorem PackTy.ofBits_eq_some {b : BitVec 2} {t : PackTy} : PackTy.ofBits b = some t ↔ t.bits = b := by
  have h : ∀ t, PackTy.ofBits b = some t → t.bits = b := by
    repeat refine bits_of_lookup_cons rfl ?_
    exact bits_of_lookup_nil
  exact ⟨h t, by rintro rfl; exact t.ofBits_bits⟩

@[simp] theorem FImmTy.ofBits_bits (t : FImmTy) : FImmTy.ofBits t.bits = some t := by cases t <;> rfl

@[simp] theorem FImmTy.ofBits_eq_some {b : BitVec 3} {t : FImmTy} : FImmTy.ofBits b = some t ↔ t.bits = b := by
  have h : ∀ t, FImmTy.ofBits b = some t → t.bits = b := by
    repeat refine bits_of_lookup_cons rfl ?_
    exact bits_of_lookup_nil
  exact ⟨h t, by rintro rfl; exact t.ofBits_bits⟩

@[simp] theorem Spr.ofBits_bits (t : Spr) : Spr.ofBits t.bits = some t := by cases t <;> rfl

@[simp] theorem Spr.ofBits_eq_some {b : BitVec 16} {t : Spr} : Spr.ofBits b = some t ↔ t.bits = b := by
  have h : ∀ t, Spr.ofBits b = some t → t.bits = b := by
    repeat refine bits_of_lookup_cons rfl ?_
    exact bits_of_lookup_nil
  exact ⟨h t, by rintro rfl; exact t.ofBits_bits⟩

@[simp] theorem IntTy.ofBits_bits (t : IntTy) : IntTy.ofBits t.bits = some t := by cases t <;> rfl

@[simp] theorem IntTy.ofBits_eq_some {b : BitVec 2} {t : IntTy} : IntTy.ofBits b = some t ↔ t.bits = b := by
  have h : ∀ t, IntTy.ofBits b = some t → t.bits = b := by
    repeat refine bits_of_lookup_cons rfl ?_
    exact bits_of_lookup_nil
  exact ⟨h t, by rintro rfl; exact t.ofBits_bits⟩

@[simp] theorem FTy.ofBits_bits (t : FTy) : FTy.ofBits t.bits = some t := by cases t <;> rfl

@[simp] theorem FTy.ofBits_eq_some {b : BitVec 2} {t : FTy} : FTy.ofBits b = some t ↔ t.bits = b := by
  have h : ∀ t, FTy.ofBits b = some t → t.bits = b := by
    repeat refine bits_of_lookup_cons rfl ?_
    exact bits_of_lookup_nil
  exact ⟨h t, by rintro rfl; exact t.ofBits_bits⟩

@[simp] theorem Perm.ofBits_bits (t : Perm) : Perm.ofBits t.bits = some t := by cases t <;> rfl

@[simp] theorem Perm.ofBits_eq_some {b : BitVec 2} {t : Perm} : Perm.ofBits b = some t ↔ t.bits = b := by
  have h : ∀ t, Perm.ofBits b = some t → t.bits = b := by
    repeat refine bits_of_lookup_cons rfl ?_
    exact bits_of_lookup_nil
  exact ⟨h t, by rintro rfl; exact t.ofBits_bits⟩

@[simp] theorem ShflMode.ofBits_bits (t : ShflMode) : ShflMode.ofBits t.bits = some t := by cases t <;> rfl

@[simp] theorem ShflMode.ofBits_eq_some {b : BitVec 2} {t : ShflMode} : ShflMode.ofBits b = some t ↔ t.bits = b := by
  have h : ∀ t, ShflMode.ofBits b = some t → t.bits = b := by
    repeat refine bits_of_lookup_cons rfl ?_
    exact bits_of_lookup_nil
  exact ⟨h t, by rintro rfl; exact t.ofBits_bits⟩

@[simp] theorem FCond.ofBits_bits (t : FCond) : FCond.ofBits t.bits = some t := by cases t <;> rfl

@[simp] theorem FCond.ofBits_eq_some {b : BitVec 3} {t : FCond} : FCond.ofBits b = some t ↔ t.bits = b := by
  have h : ∀ t, FCond.ofBits b = some t → t.bits = b := by
    repeat refine bits_of_lookup_cons rfl ?_
    exact bits_of_lookup_nil
  exact ⟨h t, by rintro rfl; exact t.ofBits_bits⟩

@[simp] theorem ICond.ofBits_bits (t : ICond) : ICond.ofBits t.bits = some t := by cases t <;> rfl

@[simp] theorem ICond.ofBits_eq_some {b : BitVec 3} {t : ICond} : ICond.ofBits b = some t ↔ t.bits = b := by
  have h : ∀ t, ICond.ofBits b = some t → t.bits = b := by
    repeat refine bits_of_lookup_cons rfl ?_
    exact bits_of_lookup_nil
  exact ⟨h t, by rintro rfl; exact t.ofBits_bits⟩

@[simp] theorem FTy3.ofBits_bits (t : FTy3) : FTy3.ofBits t.bits = some t := by cases t <;> rfl

@[simp] theorem FTy3.ofBits_eq_some {b : BitVec 2} {t : FTy3} : FTy3.ofBits b = some t ↔ t.bits = b := by
  have h : ∀ t, FTy3.ofBits b = some t → t.bits = b := by
    repeat refine bits_of_lookup_cons rfl ?_
    exact bits_of_lookup_nil
  exact ⟨h t, by rintro rfl; exact t.ofBits_bits⟩

@[simp] theorem Rnd.ofBits_bits (t : Rnd) : Rnd.ofBits t.bits = some t := by cases t <;> rfl

@[simp] theorem Rnd.ofBits_eq_some {b : BitVec 3} {t : Rnd} : Rnd.ofBits b = some t ↔ t.bits = b := by
  have h : ∀ t, Rnd.ofBits b = some t → t.bits = b := by
    repeat refine bits_of_lookup_cons rfl ?_
    exact bits_of_lookup_nil
  exact ⟨h t, by rintro rfl; exact t.ofBits_bits⟩

@[simp] theorem Fmt.ofBits_bits (t : Fmt) : Fmt.ofBits t.bits = some t := by cases t <;> rfl

@[simp] theorem Fmt.ofBits_eq_some {b : BitVec 3} {t : Fmt} : Fmt.ofBits b = some t ↔ t.bits = b := by
  have h : ∀ t, Fmt.ofBits b = some t → t.bits = b := by
    repeat refine bits_of_lookup_cons rfl ?_
    exact bits_of_lookup_nil
  exact ⟨h t, by rintro rfl; exact t.ofBits_bits⟩

@[simp] theorem MSize.ofBits_bits (t : MSize) : MSize.ofBits t.bits = some t := by cases t <;> rfl

@[simp] theorem MSize.ofBits_eq_some {b : BitVec 3} {t : MSize} : MSize.ofBits b = some t ↔ t.bits = b := by
  have h : ∀ t, MSize.ofBits b = some t → t.bits = b := by
    repeat refine bits_of_lookup_cons rfl ?_
    exact bits_of_lookup_nil
  exact ⟨h t, by rintro rfl; exact t.ofBits_bits⟩

@[simp] theorem MoviTy.ofBits_bits (t : MoviTy) : MoviTy.ofBits t.bits = some t := by cases t <;> rfl

@[simp] theorem MoviTy.ofBits_eq_some {b : BitVec 3} {t : MoviTy} : MoviTy.ofBits b = some t ↔ t.bits = b := by
  have h : ∀ t, MoviTy.ofBits b = some t → t.bits = b := by
    repeat refine bits_of_lookup_cons rfl ?_
    exact bits_of_lookup_nil
  exact ⟨h t, by rintro rfl; exact t.ofBits_bits⟩

@[simp] theorem AOp.ofBits_bits (t : AOp) : AOp.ofBits t.bits = some t := by cases t <;> rfl

@[simp] theorem AOp.ofBits_eq_some {b : BitVec 4} {t : AOp} : AOp.ofBits b = some t ↔ t.bits = b := by
  have h : ∀ t, AOp.ofBits b = some t → t.bits = b := by
    repeat refine bits_of_lookup_cons rfl ?_
    exact bits_of_lookup_nil
  exact ⟨h t, by rintro rfl; exact t.ofBits_bits⟩

@[simp] theorem Scope.ofBits_bits (t : Scope) : Scope.ofBits t.bits = some t := by cases t <;> rfl

@[simp] theorem Scope.ofBits_eq_some {b : BitVec 2} {t : Scope} : Scope.ofBits b = some t ↔ t.bits = b := by
  have h : ∀ t, Scope.ofBits b = some t → t.bits = b := by
    repeat refine bits_of_lookup_cons rfl ?_
    exact bits_of_lookup_nil
  exact ⟨h t, by rintro rfl; exact t.ofBits_bits⟩

@[simp] theorem CopyDir.ofBits_bits (t : CopyDir) : CopyDir.ofBits t.bits = some t := by cases t <;> rfl

@[simp] theorem CopyDir.ofBits_eq_some {b : BitVec 2} {t : CopyDir} : CopyDir.ofBits b = some t ↔ t.bits = b := by
  have h : ∀ t, CopyDir.ofBits b = some t → t.bits = b := by
    repeat refine bits_of_lookup_cons rfl ?_
    exact bits_of_lookup_nil
  exact ⟨h t, by rintro rfl; exact t.ofBits_bits⟩

@[simp] theorem CopySize.ofBits_bits (t : CopySize) : CopySize.ofBits t.bits = some t := by cases t <;> rfl

@[simp] theorem CopySize.ofBits_eq_some {b : BitVec 2} {t : CopySize} : CopySize.ofBits b = some t ↔ t.bits = b := by
  have h : ∀ t, CopySize.ofBits b = some t → t.bits = b := by
    repeat refine bits_of_lookup_cons rfl ?_
    exact bits_of_lookup_nil
  exact ⟨h t, by rintro rfl; exact t.ofBits_bits⟩

@[simp] theorem DrainFmt.ofBits_bits (t : DrainFmt) : DrainFmt.ofBits t.bits = some t := by cases t <;> rfl

@[simp] theorem DrainFmt.ofBits_eq_some {b : BitVec 4} {t : DrainFmt} : DrainFmt.ofBits b = some t ↔ t.bits = b := by
  have h : ∀ t, DrainFmt.ofBits b = some t → t.bits = b := by
    repeat refine bits_of_lookup_cons rfl ?_
    exact bits_of_lookup_nil
  exact ⟨h t, by rintro rfl; exact t.ofBits_bits⟩

@[simp] theorem ListTy.ofBits_bits (t : ListTy) : ListTy.ofBits t.bits = some t := by cases t <;> rfl

@[simp] theorem ListTy.ofBits_eq_some {b : BitVec 2} {t : ListTy} : ListTy.ofBits b = some t ↔ t.bits = b := by
  have h : ∀ t, ListTy.ofBits b = some t → t.bits = b := by
    repeat refine bits_of_lookup_cons rfl ?_
    exact bits_of_lookup_nil
  exact ⟨h t, by rintro rfl; exact t.ofBits_bits⟩

/-- The destination that a d field and an NW bit name (R51). -/
@[simp] theorem dstOf_eq_some {d : VCode} {nw : Bool} {x : Dst} : dstOf d nw = some x ↔ x.code = d ∧ x.nwBit = nw := by
  cases x <;> cases nw <;> simp [dstOf, Dst.code, Dst.nwBit, @eq_comm _ _ d]

@[simp] theorem dstOf_code (d : Dst) : dstOf d.code d.nwBit = some d := dstOf_eq_some.2 ⟨rfl, rfl⟩

theorem keep_eq_some {α : Type} {c : Bool} {x y : α} : keep c x = some y ↔ c = true ∧ x = y := by
  cases c <;> simp [keep]

end Sys2Proof
end

section
/-! PROOFS. The formats of R41: the fields that a decoder reads in a word laid down, and the operands it takes from any
word. -/

namespace Sys2Proof

section
variable {w : BitVec 32}

theorem decV2_eq_some {o : V2} : decV2 w = some o ↔ o.dst.code = fld w 19 6 ∧ o.dst.nwBit = bitAt w 18 ∧
    o.a = fld w 12 6 ∧ o.b = fld w 6 6 ∧ o.pa.bits = fld w 4 2 ∧ o.pb.bits = fld w 2 2 := by
  cases o
  simp only [decV2, Option.bind_eq_bind, Option.bind_eq_some_iff, dstOf_eq_some, Perm.ofBits_eq_some, Option.pure_def,
    Option.some.injEq, V2.mk.injEq]
  grind

theorem decV1_eq_some {o : V1} : decV1 w = some o ↔ o.dst.code = fld w 19 6 ∧ o.dst.nwBit = bitAt w 18 ∧
    o.a = fld w 12 6 ∧ o.pa.bits = fld w 4 2 := by
  cases o
  simp [decV1, Option.bind_eq_some_iff]
  grind

theorem decF3_eq_some {o : F3} : decF3 w = some o ↔ o.dst.code = fld w 19 6 ∧ o.dst.nwBit = bitAt w 0 ∧
    o.a = fld w 13 6 ∧ o.b = fld w 7 6 ∧ o.c = fld w 1 6 := by
  cases o
  simp [decF3, Option.bind_eq_some_iff]
  grind

theorem decVCmp_eq_some {o : VCmp} : decVCmp w = some o ↔ bitAt w 18 = false ∧ o.p = fld w 19 3 ∧
    o.a = fld w 12 6 ∧ o.b = fld w 6 6 ∧ o.pa.bits = fld w 4 2 ∧ o.pb.bits = fld w 2 2 := by
  cases o
  simp [decVCmp, Option.bind_eq_some_iff]
  grind

theorem decM_eq_some {o : MOps} : decM w = some o ↔ o.d = fld w 19 6 ∧ o.s = fld w 14 5 ∧ o.v = fld w 8 6 ∧
    o.stream = fld w 4 4 ∧ o.size.bits = fld w 1 3 ∧ o.ordered = bitAt w 0 := by
  cases o
  simp [decM, Option.bind_eq_some_iff]
  grind

theorem decA_eq_some {o : AOps} : decA w = some o ↔ o.d = fld w 19 6 ∧ o.s = fld w 14 5 ∧ o.v = fld w 8 6 ∧
    o.stream = fld w 4 4 ∧ o.op.bits = fld w 0 4 := by
  cases o
  simp [decA, Option.bind_eq_some_iff]
  grind

end

section
variable (op : BitVec 7) (t : BitVec 2)

/-! ### The fields of a word laid down -/

@[simp] theorem encV2_fields (o : V2) :
    fld (encV2 op o t) 25 7 = op ∧ fld (encV2 op o t) 0 2 = t ∧ decV2 (encV2 op o t) = some o := by
  simp [decV2, encV2, fld, bitAt_eq_fld, extractLsb'_append_high, extractLsb'_append_low]

@[simp] theorem encV1_fields (o : V1) (sub : BitVec 6) :
    fld (encV1 op o sub t) 25 7 = op ∧ fld (encV1 op o sub t) 6 6 = sub ∧ fld (encV1 op o sub t) 2 2 = 0#2 ∧
    fld (encV1 op o sub t) 0 2 = t ∧ (fld (encV1 op o sub t) 0 4 = 0#4 ↔ t = 0#2) ∧
    decV1 (encV1 op o sub t) = some o := by
  simp [decV1, encV1, fld, bitAt_eq_fld, extractLsb'_append_high, extractLsb'_append_low, extractLsb'_append_eq_zero]

@[simp] theorem encF3_fields (o : F3) : fld (encF3 op o) 25 7 = op ∧ decF3 (encF3 op o) = some o := by
  simp [decF3, encF3, fld, bitAt_eq_fld, extractLsb'_append_high, extractLsb'_append_low]

@[simp] theorem encVCmp_fields (c : BitVec 3) (o : VCmp) :
    fld (encVCmp op c o t) 25 7 = op ∧ fld (encVCmp op c o t) 22 3 = c ∧ fld (encVCmp op c o t) 0 2 = t ∧
    decVCmp (encVCmp op c o t) = some o := by
  simp [decVCmp, encVCmp, fld, bitAt_eq_fld, extractLsb'_append_high, extractLsb'_append_low]

@[simp] theorem encS3_fields (o : S3) (sub : BitVec 4) :
    fld (encS3 op o sub) 25 7 = op ∧ fld (encS3 op o sub) 20 5 = o.d ∧ fld (encS3 op o sub) 15 5 = o.a ∧
    fld (encS3 op o sub) 10 5 = o.b ∧ fld (encS3 op o sub) 6 4 = sub ∧ fld (encS3 op o sub) 0 6 = 0#6 ∧
    decS3 (encS3 op o sub) = o := by
  simp [decS3, encS3, fld, extractLsb'_append_high, extractLsb'_append_low]

@[simp] theorem encSI_fields (d : SCode) (sub : BitVec 4) (imm : BitVec 16) :
    fld (encSI op d sub imm) 25 7 = op ∧ fld (encSI op d sub imm) 20 5 = d ∧ fld (encSI op d sub imm) 16 4 = sub ∧
    fld (encSI op d sub imm) 0 16 = imm := by
  simp [encSI, fld, extractLsb'_append_high, extractLsb'_append_low]

@[simp] theorem encI_fields (d : VCode) (t : BitVec 3) (imm : BitVec 16) :
    fld (encI op d t imm) 25 7 = op ∧ fld (encI op d t imm) 19 6 = d ∧ fld (encI op d t imm) 16 3 = t ∧
    fld (encI op d t imm) 0 16 = imm ∧ bitAt (encI op d t imm) 18 = (t.extractLsb' 2 1 == 1#1) ∧
    fld (encI op d t imm) 16 2 = t.extractLsb' 0 2 := by
  simp [encI, fld, bitAt_eq_fld, extractLsb'_append_high, extractLsb'_append_low]

@[simp] theorem encM_fields (o : MOps) : fld (encM op o) 25 7 = op ∧ decM (encM op o) = some o := by
  simp [decM, encM, fld, bitAt_eq_fld, extractLsb'_append_high, extractLsb'_append_low]

@[simp] theorem encA_fields (o : AOps) : fld (encA op o) 25 7 = op ∧ decA (encA op o) = some o := by
  simp [decA, encA, fld, extractLsb'_append_high, extractLsb'_append_low]

@[simp] theorem encC_fields (v : VCode) (s : SCode) (sub : BitVec 4) (imm : BitVec 10) :
    fld (encC op v s sub imm) 25 7 = op ∧ fld (encC op v s sub imm) 19 6 = v ∧ fld (encC op v s sub imm) 14 5 = s ∧
    fld (encC op v s sub imm) 10 4 = sub ∧ fld (encC op v s sub imm) 0 10 = imm ∧
    fld (encC op v s sub imm) 5 5 = imm.extractLsb' 5 5 ∧ fld (encC op v s sub imm) 0 5 = imm.extractLsb' 0 5 := by
  simp [encC, fld, extractLsb'_append_high, extractLsb'_append_low]

@[simp] theorem encX_fields (d v : VCode) (s : SCode) (sub flags : BitVec 4) :
    fld (encX op d s v sub flags) 25 7 = op ∧ fld (encX op d s v sub flags) 19 6 = d ∧
    fld (encX op d s v sub flags) 14 5 = s ∧ fld (encX op d s v sub flags) 8 6 = v ∧
    fld (encX op d s v sub flags) 4 4 = sub ∧ fld (encX op d s v sub flags) 0 4 = flags ∧
    decX (encX op d s v sub flags) = ⟨d, s⟩ ∧ v63 (encX op d s v sub flags) = decide (v = 63) := by
  simp [encX, decX, v63, fld, extractLsb'_append_high, extractLsb'_append_low]

/-- The parts of the sub and flag fields of an X format that some rows read by themselves. -/
@[simp] theorem encX_parts (d v : VCode) (s : SCode) (sub flags : BitVec 4) :
    (fld (encX op d s v sub flags) 0 8 = 0#8 ↔ sub = 0#4 ∧ flags = 0#4) ∧
    (fld (encX op d s v sub flags) 1 7 = 0#7 ↔ sub = 0#4 ∧ flags.extractLsb' 1 3 = 0#3) ∧
    fld (encX op d s v sub flags) 6 2 = sub.extractLsb' 2 2 ∧ fld (encX op d s v sub flags) 4 2 = sub.extractLsb' 0 2 ∧
    fld (encX op d s v sub flags) 5 3 = sub.extractLsb' 1 3 ∧
    bitAt (encX op d s v sub flags) 4 = (sub.extractLsb' 0 1 == 1#1) ∧
    fld (encX op d s v sub flags) 1 3 = flags.extractLsb' 1 3 ∧
    bitAt (encX op d s v sub flags) 0 = (flags.extractLsb' 0 1 == 1#1) := by
  simp [encX, fld, bitAt_eq_fld, extractLsb'_append_high, extractLsb'_append_low, extractLsb'_append_eq_zero]

@[simp] theorem encH_fields (kind : BitVec 4) (payload : BitVec 21) :
    fld (encH kind payload) 25 7 = 0x0F ∧ fld (encH kind payload) 21 4 = kind ∧
      fld (encH kind payload) 0 21 = payload := by
  simp [encH, fld, extractLsb'_append_high, extractLsb'_append_low]

@[simp] theorem encFence_fields (c : Scope) (sub : BitVec 4) (imm : BitVec 16) :
    fld (encFence c sub imm) 25 7 = 0x56 ∧ fld (encFence c sub imm) 23 2 = c.bits ∧
    fld (encFence c sub imm) 20 3 = 0#3 ∧ fld (encFence c sub imm) 16 4 = sub ∧
      fld (encFence c sub imm) 0 16 = imm := by
  simp [encFence, fld, extractLsb'_append_high, extractLsb'_append_low]
end

end Sys2Proof
end

section
/-! PROOFS. Decoding inverts encoding (O55). -/

namespace Sys2Proof

/-! ### The decoder of each class, by its opcodes -/

section
variable {w : BitVec 32}

theorem decodeOpt_branch (h : 0x01 ≤ (fld w 25 7).toNat) (h' : (fld w 25 7).toNat < 0x0B) :
    decodeOpt w = (decBranch w).filter fieldOk := by
  simp only [decodeOpt]
  rw [if_neg (by omega), if_pos h']

theorem decodeOpt_system (h : 0x0B ≤ (fld w 25 7).toNat) (h' : (fld w 25 7).toNat < 0x10) :
    decodeOpt w = (decSystem w).filter fieldOk := by
  simp only [decodeOpt]
  rw [if_neg (by omega), if_neg (by omega), if_pos h']

theorem decodeOpt_scalar (h : 0x10 ≤ (fld w 25 7).toNat) (h' : (fld w 25 7).toNat < 0x20) :
    decodeOpt w = (decScalar w).filter fieldOk := by
  simp only [decodeOpt]
  rw [if_neg (by omega), if_neg (by omega), if_neg (by omega), if_pos h']

theorem decodeOpt_int (h : 0x20 ≤ (fld w 25 7).toNat) (h' : (fld w 25 7).toNat < 0x40) :
    decodeOpt w = (decInt w).filter fieldOk := by
  simp only [decodeOpt]
  rw [if_neg (by omega), if_neg (by omega), if_neg (by omega), if_neg (by omega), if_pos h']

theorem decodeOpt_float (h : 0x40 ≤ (fld w 25 7).toNat) (h' : (fld w 25 7).toNat < 0x50) :
    decodeOpt w = (decFloat w).filter fieldOk := by
  simp only [decodeOpt]
  rw [if_neg (by omega), if_neg (by omega), if_neg (by omega), if_neg (by omega), if_neg (by omega), if_pos h']

theorem decodeOpt_mem (h : 0x50 ≤ (fld w 25 7).toNat) (h' : (fld w 25 7).toNat < 0x58) :
    decodeOpt w = (decMem w).filter fieldOk := by
  simp only [decodeOpt]
  rw [if_neg (by omega), if_neg (by omega), if_neg (by omega), if_neg (by omega), if_neg (by omega), if_neg (by
    omega), if_pos h']

theorem decodeOpt_copy (h : 0x58 ≤ (fld w 25 7).toNat) (h' : (fld w 25 7).toNat < 0x60) :
    decodeOpt w = (decCopy w).filter fieldOk := by
  simp only [decodeOpt]
  rw [if_neg (by omega), if_neg (by omega), if_neg (by omega), if_neg (by omega), if_neg (by omega), if_neg (by
    omega), if_neg (by omega), if_pos h']

theorem decodeOpt_sync (h : 0x60 ≤ (fld w 25 7).toNat) (h' : (fld w 25 7).toNat < 0x68) :
    decodeOpt w = (decSync w).filter fieldOk := by
  simp only [decodeOpt]
  rw [if_neg (by omega), if_neg (by omega), if_neg (by omega), if_neg (by omega), if_neg (by omega), if_neg (by
    omega), if_neg (by omega), if_neg (by omega), if_pos h']

theorem decodeOpt_matrix (h : 0x68 ≤ (fld w 25 7).toNat) (h' : (fld w 25 7).toNat < 0x70) :
    decodeOpt w = (decMatrix w).filter fieldOk := by
  simp only [decodeOpt]
  rw [if_neg (by omega), if_neg (by omega), if_neg (by omega), if_neg (by omega), if_neg (by omega), if_neg (by
    omega), if_neg (by omega), if_neg (by omega), if_neg (by omega), if_pos h']

theorem decodeOpt_list (h : 0x70 ≤ (fld w 25 7).toNat) (h' : (fld w 25 7).toNat < 0x74) :
    decodeOpt w = (decList w).filter fieldOk := by
  simp only [decodeOpt]
  rw [if_neg (by omega), if_neg (by omega), if_neg (by omega), if_neg (by omega), if_neg (by omega), if_neg (by
    omega), if_neg (by omega), if_neg (by omega), if_neg (by omega), if_neg (by omega), if_pos h']

theorem decodeOpt_flume (h : 0x74 ≤ (fld w 25 7).toNat) :
    decodeOpt w = (decFlume w).filter fieldOk := by
  simp only [decodeOpt]
  rw [if_neg (by omega), if_neg (by omega), if_neg (by omega), if_neg (by omega), if_neg (by omega), if_neg (by
    omega), if_neg (by omega), if_neg (by omega), if_neg (by omega), if_neg (by omega), if_neg (by omega)]
end

/-! ### Which operands have a word -/

@[simp] theorem wf_shifts (d : SCode) (i : BitVec 16) :
    (Instr.sshli d i).wf = decide (i.toNat < 64) ∧ (Instr.sshri d i).wf = decide (i.toNat < 64) ∧
    (Instr.ssrai d i).wf = decide (i.toNat < 64) := ⟨rfl, rfl, rfl⟩

@[simp] theorem wf_hcache (na : Bool) (l2 l1 : BitVec 2) : (Instr.hcache na l2 l1).wf = (l2 != 2) := rfl

@[simp] theorem wf_fcvt (o : V1) (df sf : Fmt) (r : Rnd) (sat : Bool) :
    (Instr.fcvt o df sf r sat).wf = fcvtOk df sf sat := rfl

@[simp] theorem wf_funpk (o : V1) (c : BitVec 6) : (Instr.funpk o c).wf = decide (c.toNat < 20) := rfl

@[simp] theorem wf_stores (o : MOps) :
    (Instr.st o).wf = o.size.storable ∧ (Instr.sts o).wf = o.size.storable := ⟨rfl, rfl⟩

@[simp] theorem wf_atomics (o : AOps) :
    (Instr.atom o).wf = (o.op != .maxsi) ∧ (Instr.atoms o).wf = (o.op != .fadd) := ⟨rfl, rfl⟩

@[simp] theorem wf_fenceX (c : Scope) (m : BitVec 16) : (Instr.fenceX c m).wf = (m != 0) := rfl

@[simp] theorem wf_mdrain (o : XOps) (f : DrainFmt) (r : Rnd) (sat : Bool) :
    (Instr.mdrain o f r sat).wf = mdrainOk f r sat := rfl

/-- The decoder finds every well-formed instruction in its word (R41, R64 to R71). -/
theorem decodeOpt_encode {i : Instr} (h : i.wf = true) : decodeOpt (encode i) = some i := by
  cases i with
  | nop | join | ret | exit | yield | eret | halt | hyld | mfence => rfl
  | jmpr v | callr v | pand o | por o | pxor o | pandn o | pnot d a | pmov d a =>
    simp [encode, decodeOpt_branch, decBranch, keep, fieldOk]
  | brc p n i | jmp i | call i | rcv i | brk d i | voteAll d p | voteAny d p | voteBal d p =>
    simp [encode, decodeOpt_branch, decBranch, keep, fieldOk, fld, bitAt_eq_fld, extractLsb'_append_high,
      extractLsb'_append_low]
  | trap c | rdspr d r | wrspr d r | tlbinv a b | csave d a | crst o | world o | rdseed s | wrseed s | rdtag v s
  | himm i | hstl n =>
    simp [encode, decodeOpt_system, decSystem, keep, fieldOk]
  | hprm wx wr wb x r b | hpred n p =>
    simp [encode, decodeOpt_system, decSystem, keep, fieldOk, encH, fld, bitAt_eq_fld, extractLsb'_append_high,
      extractLsb'_append_low]
  | hcache na l2 l1 =>
    simpa [encode, decodeOpt_system, decSystem, keep, fieldOk, encH, fld, bitAt_eq_fld, extractLsb'_append_high,
      extractLsb'_append_low, extractLsb'_append_eq_zero] using h
  | sadd o | ssub o | smul o | smulh o | smulhu o | sand o | sor o | sxor o | sshl o | sshr o | ssra o | smin o
  | smax o | sminu o | sslt o | ssltu o | saddi d i | smuli d i | sandi d i | sori d i | sxori d i | sslti d i
  | ssltui d i =>
    simp [encode, decodeOpt_scalar, decScalar, fieldOk]
  | sshli d i | sshri d i | ssrai d i =>
    simpa [encode, decodeOpt_scalar, decScalar, keep, fieldOk] using h
  | sldiH d h i | sldi d i | sld d a t z | sst d a t z =>
    simp [encode, decodeOpt_scalar, decScalar, keep, fieldOk, encSI, fld, bitAt_eq_fld, extractLsb'_append_high,
      extractLsb'_append_low]
  | s2v v s | v2s v s l =>
    simp [encode, decodeOpt_scalar, decScalar, keep, fieldOk, extractLsb'_append_high, extractLsb'_append_low]
  | iadd o t | isub o t | imul o t | imulh o t | imad o | imin o t | imax o t | iabs o t | ineg o t | and o
  | or o | xor o | not o | shl o t | shr o t | sra o t | rot o t | popc o | clz o | ctz o | brev o | iset c o t
  | mov o | movi d t i | andi d i | ori d i | xori d i | affine o | shfl o m =>
    simp [encode, decodeOpt_int, decInt, fieldOk]
  | sel d a b pa p n | laneid d =>
    simp [encode, decodeOpt_int, decInt, fieldOk, Perm.bits, encV1, fld, bitAt_eq_fld, extractLsb'_append_high,
      extractLsb'_append_low, extractLsb'_append_eq_zero]
  | iaddi d t i | imuli d t i =>
    simp [encode, decodeOpt_int, decInt, fieldOk, extractLsb'_append_high, extractLsb'_append_low]
  | fadd o t | fsub o t | fmul o t | ffma o | fmin o t | fmax o t | fset c o t | fabs o t | fneg o t | fsqrt o
  | frsq o | frcp o | fexp2 o | flog2 o | fsin o | fcos o | ftanh o | ffloor o | fceil o | ftrunc o | frint o
  | fscale o t | fpack o t | faddi d t i | fmuli d t i | dot2 o =>
    simp [encode, decodeOpt_float, decFloat, fieldOk]
  | funpk o c =>
    simpa [encode, decodeOpt_float, decFloat, keep, fieldOk] using h
  | fcvt o df sf r sat =>
    simpa [encode, decodeOpt_float, decFloat, keep, fieldOk, fld, bitAt_eq_fld, extractLsb'_append_high,
      extractLsb'_append_low, extractLsb'_append_eq_zero] using h
  | ld o | lds o | fence c | fenceAcq c | fenceRel c =>
    simp [encode, decodeOpt_mem, decMem, keep, fieldOk]
  | st o | sts o | atom o | atoms o | fenceX c m =>
    simpa [encode, decodeOpt_mem, decMem, keep, fieldOk] using h
  | pref l2 s v =>
    simp [encode, decodeOpt_mem, decMem, keep, fieldOk, fld, bitAt_eq_fld, extractLsb'_append_high,
      extractLsb'_append_low]
  | cpyx o | cpym o | mcdrain o | bari o | barw s =>
    simp [encode, decodeOpt_copy, decCopy, keep, fieldOk]
  | cpy d s v dir z =>
    simp [encode, decodeOpt_copy, decCopy, fieldOk, fld, extractLsb'_append_high, extractLsb'_append_low]
  | cpyt o b | cpyw o nb =>
    simp [encode, decodeOpt_copy, decCopy, keep, fieldOk, extractLsb'_append_high, extractLsb'_append_low]
  | cjoin o | cleave s | cbar o | pbar o | pwait o | spawn o | take o | steal o | done o | gmax s w | gmin s w
  | grd s w | gwait s w | sleep s | rdclk s | rdts s =>
    simp [encode, decodeOpt_sync, decSync, keep, fieldOk]
  | fres o p | fwait o | ftest o =>
    simp [encode, decodeOpt_sync, decSync, keep, fieldOk, extractLsb'_append_high, extractLsb'_append_low]
  | mtask o | marrive o | mqcfg s | mzero s | mstatRead s | mstatClr s =>
    simp [encode, decodeOpt_matrix, decMatrix, keep, fieldOk]
  | wpin o | wevict o nb =>
    simp [encode, decodeOpt_matrix, decMatrix, keep, fieldOk, extractLsb'_append_high, extractLsb'_append_low]
  | mdrain o f r sat =>
    simpa [encode, decodeOpt_matrix, decMatrix, keep, fieldOk, extractLsb'_append_high, extractLsb'_append_low]
      using h
  | lmerge o | lread o | lthr p s v | lclr s =>
    simp [encode, decodeOpt_list, decList, keep, fieldOk]
  | ldecl o t g | lins o v t =>
    simp [encode, decodeOpt_list, decList, fieldOk, extractLsb'_append_high, extractLsb'_append_low]
  | qbind a s | qrsv o | qput o v | qenq o | qdeq o | qtry o | qalw a s | qinv s | qstat o | launch o | cmbi o
  | cmbw o =>
    simp [encode, decodeOpt_flume, decFlume, keep, fieldOk]
  | bral a c i =>
    simp [encode, decodeOpt_flume, decFlume, fieldOk, fld, extractLsb'_append_high, extractLsb'_append_low]
  | _ => cases h

/-- The four bytes of a word, put together again (R1). -/
theorem wordOfBytes_bytes (w : BitVec 32) :
    wordOfBytes (w.extractLsb' 0 8) (w.extractLsb' 8 8) (w.extractLsb' 16 8) (w.extractLsb' 24 8) = w := by
  have e : wordOfBytes (fld w 0 8) (fld w 8 8) (fld w 16 8) (fld w 24 8) = fld w 0 32 := by
    simp [wordOfBytes, append_eq_fld]
  exact e.trans (fld_all w)

/-- Settles O55: the word's bytes are put together again, and the word's fields are those laid down. -/
theorem decodeInvertsEncode : Obligations.DecodeInvertsEncode := by
  intro i rest h
  simp only [bytesOfWord, List.cons_append, List.nil_append, decode, wordOfBytes_bytes, decodeWord, decodeOpt_encode h,
    Option.getD_some]

end Sys2Proof
end

section
/-! PROOFS. Every word that decodes is the word of its instruction (O56). -/

namespace Sys2Proof

section
variable {w : BitVec 32}

/-! ### Fields that two rows' tables cut differently -/

theorem fld_append_eq_zero {lo m n : Nat} : fld w lo (m + n) = 0 ↔ fld w (lo + n) m = 0 ∧ fld w lo n = 0 := by
  simp only [@eq_comm _ _ (0 : BitVec _), zero_eq_fld_append]

theorem fld4_eq_zero : fld w 0 4 = 0#4 ↔ fld w 2 2 = 0#2 ∧ fld w 0 2 = 0#2 := fld_append_eq_zero (m := 2) (n := 2)

theorem fld8_eq_zero : fld w 0 8 = 0#8 ↔ fld w 4 4 = 0#4 ∧ fld w 0 4 = 0#4 := fld_append_eq_zero (m := 4) (n := 4)

theorem fld7_eq_zero : fld w 1 7 = 0#7 ↔ fld w 4 4 = 0#4 ∧ fld w 1 3 = 0#3 := fld_append_eq_zero (m := 4) (n := 3)

theorem fld16_eq_zero :
    fld w 2 16 = 0#16 ↔ ((fld w 12 6 = 0#6 ∧ fld w 6 6 = 0#6) ∧ fld w 4 2 = 0#2) ∧ fld w 2 2 = 0#2 :=
  (fld_append_eq_zero (m := 14) (n := 2)).trans <| and_congr_left' <|
    (fld_append_eq_zero (m := 12) (n := 2)).trans <| and_congr_left' (fld_append_eq_zero (m := 6) (n := 6))

theorem zero_eq_fld10 : 0#10 = fld w 0 10 ↔ 0#5 = fld w 5 5 ∧ 0#5 = fld w 0 5 :=
  zero_eq_fld_append (m := 5) (n := 5)

theorem zero_eq_flags : 0#4 = fld w 0 4 ↔ 0#3 = fld w 1 3 ∧ false = bitAt w 0 :=
  (zero_eq_fld_append (m := 3) (n := 1)).trans (and_congr_right' zero_eq_fld_one)

theorem zero_eq_fld18 : 0#2 = fld w 18 2 ↔ false = bitAt w 19 ∧ false = bitAt w 18 :=
  (zero_eq_fld_append (m := 1) (n := 1)).trans (and_congr zero_eq_fld_one zero_eq_fld_one)

theorem four_eq_fld16 : 4#4 = fld w 16 4 ↔ (false = bitAt w 19 ∧ true = bitAt w 18) ∧ 0#2 = fld w 16 2 :=
  (append_eq_fld (x := 0#1 ++ 1#1) (y := 0#2)).trans <| and_congr_left' <|
    (append_eq_fld (x := 0#1) (y := 1#1)).trans (and_congr zero_eq_fld_one one_eq_fld_one)

theorem decide_ne_zero (m : BitVec 16) : decide (m ≠ 0) = (m != 0) := by simp [bne, beq_eq_decide]

/-! ### The operands of a word are those of its fields -/

theorem encode_of_decBranch : ∀ i, decBranch w = some i → fieldOk i = true → i.wf = true ∧ encode i = w := by
  unfold decBranch
  repeat' split
  all_goals simp only [keep_eq_some, and_imp, Option.some.injEq, reduceCtorEq, false_imp_iff, implies_true]
  all_goals (intros; subst_vars; refine ⟨by trivial, Eq.trans ?_ (fld_all w)⟩)
  all_goals simp_all [-BitVec.reduceAppend, encode, append_eq_fld, BitVec.toNat_eq_nat, encS3, encC, decS3,
    zero_eq_fld_one]

theorem encode_of_decSystem : ∀ i, decSystem w = some i → fieldOk i = true → i.wf = true ∧ encode i = w := by
  unfold decSystem
  repeat' split
  all_goals simp only [keep_eq_some, Option.map_eq_some_iff, forall_exists_index, and_imp, Option.some.injEq,
    reduceCtorEq, false_imp_iff, implies_true]
  all_goals (intros; subst_vars; refine ⟨by trivial, Eq.trans ?_ (fld_all w)⟩)
  all_goals simp_all [-BitVec.reduceAppend, encode, append_eq_fld, BitVec.toNat_eq_nat, encSI, encS3, encC, encH,
    decS3]

theorem encode_of_decScalar : ∀ i, decScalar w = some i → fieldOk i = true → i.wf = true ∧ encode i = w := by
  unfold decScalar
  repeat' split
  all_goals simp only [keep_eq_some, and_imp, Option.some.injEq, reduceCtorEq, false_imp_iff, implies_true]
  all_goals (intros; subst_vars; refine ⟨by trivial, Eq.trans ?_ (fld_all w)⟩)
  all_goals simp_all [-BitVec.reduceAppend, encode, append_eq_fld, BitVec.toNat_eq_nat, encS3, encSI, encC, decS3,
    zero_eq_fld_one, one_eq_fld_one, zero_eq_fld10, zero_eq_fld18, four_eq_fld16]

theorem encode_of_decInt : ∀ i, decInt w = some i → fieldOk i = true → i.wf = true ∧ encode i = w := by
  unfold decInt
  repeat' split
  all_goals simp only [Option.bind_eq_some_iff, Option.map_eq_some_iff, forall_exists_index, and_imp,
    Option.some.injEq, reduceCtorEq, false_imp_iff, implies_true]
  all_goals (intros; subst_vars; refine ⟨by trivial, Eq.trans ?_ (fld_all w)⟩)
  all_goals simp_all [-BitVec.reduceAppend, encode, append_eq_fld, BitVec.toNat_eq_nat, encV2, encV1, encI, encF3,
    encVCmp, decV2_eq_some, decV1_eq_some, decF3_eq_some, decVCmp_eq_some, fld4_eq_zero, fld16_eq_zero,
    zero_eq_fld_one, Perm.bits]

theorem encode_of_decFloat : ∀ i, decFloat w = some i → fieldOk i = true → i.wf = true ∧ encode i = w := by
  unfold decFloat
  repeat' split
  all_goals simp only [keep_eq_some, Option.bind_eq_some_iff, Option.map_eq_some_iff, Option.bind_eq_bind,
    forall_exists_index, and_imp, reduceCtorEq, false_imp_iff, implies_true]
  all_goals (intros; subst_vars; refine ⟨by trivial, Eq.trans ?_ (fld_all w)⟩)
  all_goals simp_all [-BitVec.reduceAppend, encode, append_eq_fld, BitVec.toNat_eq_nat, encV2, encV1, encI, encF3,
    encVCmp, decV2_eq_some, decV1_eq_some, decF3_eq_some, decVCmp_eq_some, fld4_eq_zero, zero_eq_fld_one]

theorem encode_of_decMem : ∀ i, decMem w = some i → fieldOk i = true → i.wf = true ∧ encode i = w := by
  unfold decMem
  repeat' split
  all_goals simp only [keep_eq_some, Option.bind_eq_some_iff, Option.map_eq_some_iff, decide_ne_zero,
    forall_exists_index, and_imp, reduceCtorEq, false_imp_iff, implies_true]
  all_goals (intros; subst_vars; refine ⟨by trivial, Eq.trans ?_ (fld_all w)⟩)
  all_goals simp_all [-BitVec.reduceAppend, encode, append_eq_fld, BitVec.toNat_eq_nat, encM, encA, encFence,
    decM_eq_some, decA_eq_some]

theorem encode_of_decCopy : ∀ i, decCopy w = some i → fieldOk i = true → i.wf = true ∧ encode i = w := by
  unfold decCopy
  repeat' split
  all_goals simp only [keep_eq_some, Option.bind_eq_some_iff, Option.map_eq_some_iff, forall_exists_index, and_imp,
    Option.some.injEq, reduceCtorEq, false_imp_iff, implies_true]
  all_goals (intros; subst_vars; refine ⟨by trivial, Eq.trans ?_ (fld_all w)⟩)
  all_goals simp_all [-BitVec.reduceAppend, encode, append_eq_fld, BitVec.toNat_eq_nat, encX, decX, v63,
    fld8_eq_zero, fld7_eq_zero]

theorem encode_of_decSync : ∀ i, decSync w = some i → fieldOk i = true → i.wf = true ∧ encode i = w := by
  unfold decSync
  repeat' split
  all_goals simp only [keep_eq_some, and_imp, Option.some.injEq, reduceCtorEq, false_imp_iff, implies_true]
  all_goals (intros; subst_vars; refine ⟨by trivial, Eq.trans ?_ (fld_all w)⟩)
  all_goals simp_all [-BitVec.reduceAppend, encode, append_eq_fld, BitVec.toNat_eq_nat, encX, decX, v63,
    fld8_eq_zero, zero_eq_flags]

theorem encode_of_decMatrix : ∀ i, decMatrix w = some i → fieldOk i = true → i.wf = true ∧ encode i = w := by
  unfold decMatrix
  repeat' split
  all_goals simp only [keep_eq_some, Option.bind_eq_some_iff, Option.bind_eq_bind, forall_exists_index, and_imp,
    Option.some.injEq, reduceCtorEq, false_imp_iff, implies_true]
  all_goals (intros; subst_vars; refine ⟨by trivial, Eq.trans ?_ (fld_all w)⟩)
  all_goals simp_all [-BitVec.reduceAppend, encode, append_eq_fld, BitVec.toNat_eq_nat, encX, decX, v63,
    fld8_eq_zero, zero_eq_flags]

theorem encode_of_decList : ∀ i, decList w = some i → fieldOk i = true → i.wf = true ∧ encode i = w := by
  unfold decList
  repeat' split
  all_goals simp only [keep_eq_some, Option.map_eq_some_iff, forall_exists_index, and_imp, Option.some.injEq,
    reduceCtorEq, false_imp_iff, implies_true]
  all_goals (intros; subst_vars; refine ⟨by trivial, Eq.trans ?_ (fld_all w)⟩)
  all_goals simp_all [-BitVec.reduceAppend, encode, append_eq_fld, BitVec.toNat_eq_nat, encX, decX, v63,
    fld8_eq_zero]

theorem encode_of_decFlume : ∀ i, decFlume w = some i → fieldOk i = true → i.wf = true ∧ encode i = w := by
  unfold decFlume
  repeat' split
  all_goals simp only [keep_eq_some, and_imp, Option.some.injEq, reduceCtorEq, false_imp_iff, implies_true]
  all_goals (intros; subst_vars; refine ⟨by trivial, Eq.trans ?_ (fld_all w)⟩)
  all_goals simp_all [-BitVec.reduceAppend, encode, append_eq_fld, BitVec.toNat_eq_nat, encX, decX, v63,
    fld8_eq_zero]

end

/-- A word that some row accepts is the word of its instruction. -/
theorem encode_of_decodeOpt {w : BitVec 32} {i : Instr} (h : decodeOpt w = some i) : i.wf = true ∧ encode i = w := by
  simp only [decodeOpt, Option.filter_eq_some_iff] at h
  obtain ⟨h, hok⟩ := h
  split at h
  · obtain ⟨hw, rfl⟩ := keep_eq_some.1 h
    exact ⟨rfl, (of_decide_eq_true hw).symm⟩
  split at h
  · exact encode_of_decBranch i h hok
  split at h
  · exact encode_of_decSystem i h hok
  split at h
  · exact encode_of_decScalar i h hok
  split at h
  · exact encode_of_decInt i h hok
  split at h
  · exact encode_of_decFloat i h hok
  split at h
  · exact encode_of_decMem i h hok
  split at h
  · exact encode_of_decCopy i h hok
  split at h
  · exact encode_of_decSync i h hok
  split at h
  · exact encode_of_decMatrix i h hok
  split at h
  · exact encode_of_decList i h hok
  · exact encode_of_decFlume i h hok

/-- Settles O56: a word that no row accepts is an illegal word, and any other is its instruction's own. -/
theorem everyWordHasOneMeaning : Obligations.EveryWordHasOneMeaning := by
  intro w
  cases h : decodeOpt w with
  | none => exact .inl (by rw [decodeWord, h]; rfl)
  | some i => exact .inr (by rw [decodeWord, h]; exact encode_of_decodeOpt h)

end Sys2Proof
end

section
/-! PROOFS. The scoreboard and the decoder's checks come before every effect, and what the codes of scalar registers
name: every word of an instruction is issued through one frame (02_encoding.md R39, R42 to R46). -/

namespace Sys2Proof.Machine

/-! ### Every instruction issues through the one frame -/

theorem issueCord_eq_issue (i : Instr) (s : State) (g : Focus → Cord) : ∃ e, issueCord i s g = issue i s e := ⟨_, rfl⟩

theorem issueAlu_eq_issue (i : Instr) (dst : Dst) (s : State) (g : Focus → (Nat → Word) × Tag × BitVec 6) :
    ∃ e, issueAlu i dst s g = issue i s e := ⟨_, rfl⟩

theorem issueCmp_eq_issue (i : Instr) (p : BitVec 3) (s : State) (g : Focus → Mask × BitVec 6) :
    ∃ e, issueCmp i p s g = issue i s e := ⟨_, rfl⟩

theorem issueCtl_eq_issue (i : Instr) (s : State) (g : Focus → Ctl) : ∃ e, issueCtl i s g = issue i s e := ⟨_, rfl⟩

theorem issueFence_eq_issue (i : Instr) (s : State) : ∃ e, issueFence i s = issue i s e := ⟨_, rfl⟩

theorem prefixHint_eq_issue (i : Instr) (s : State) (g : Prefix → Prefix) : ∃ e, prefixHint i s g = issue i s e :=
  ⟨_, rfl⟩

theorem actingHint_eq_issue (i : Instr) (s : State) (g : Focus → Focus) : ∃ e, actingHint i s g = issue i s e :=
  ⟨_, rfl⟩

/-- Whatever an instruction's effect is, it lies behind the frame's checks. -/
theorem exec_eq_issue {i : Instr} (hi : i.isStep = false) (s : State) : ∃ e, exec i s = issue i s e := by
  cases i
  all_goals try exact Bool.noConfusion (show true = false from hi)
  all_goals dsimp only [exec]
  case nop | voteAll | voteAny | voteBal | rdspr | rdseed | wrseed | rdtag | sldiH | sldi | s2v | v2s | rdclk |
    rdts | qalw | pand | por | pxor | pandn | pnot | pmov | sadd | ssub | smul | smulh | smulhu | sand | sor |
    sxor | sshl | sshr | ssra | smin | smax | sminu | sslt | ssltu | saddi | smuli | sandi | sori | sxori |
    sslti | ssltui => exact issueCord_eq_issue _ _ _
  case iadd | isub | imul | imulh | imin | imax | and | or | xor | shl | shr | sra | rot | imad | sel |
    laneid | affine | shfl | iabs | ineg | not | popc | clz | ctz | brev | mov | movi | iaddi | imuli | andi |
    ori | xori | fadd | fsub | fmul | fmin | fmax | ffma | dot2 | fabs | fneg | funpk | fsqrt | frsq | frcp |
    fexp2 | flog2 | fsin | fcos | ftanh | ffloor | fceil | ftrunc | frint | fscale | fpack | faddi | fmuli =>
    exact issueAlu_eq_issue _ _ _ _
  case iset | fset => exact issueCmp_eq_issue _ _ _ _
  case brc | jmp | call | rcv | brk | yield | jmpr | callr | ret | join => exact issueCtl_eq_issue _ _ _
  case fence | fenceX | fenceAcq | fenceRel => exact issueFence_eq_issue _ _
  case himm | hcache | hpred => exact prefixHint_eq_issue _ _ _
  case hprm | hyld | hstl => exact actingHint_eq_issue _ _ _
  case fcvt => unfold execFcvt; exact ⟨_, rfl⟩
  all_goals exact ⟨_, rfl⟩

/-- A register with an outstanding write holds the instruction back (R89). -/
theorem exec_of_marked {i : Instr} {s : State} {f : Focus} (hi : i.isStep = false) (hf : s.focus = some f)
    (h : (opndsOf i).marked f = true) : exec i s = .next s := by
  obtain ⟨e, he⟩ := exec_eq_issue hi s
  rw [he, issue_of_marked hf h]

/-- The first check that fails is the fault, and nothing else happens (R39). -/
theorem exec_of_check {i : Instr} {s : State} {f : Focus} {c : TrapCode} (hi : i.isStep = false)
    (hf : s.focus = some f) (hm : (opndsOf i).marked f = false) (hc : (opndsOf i).check f = some c) :
    exec i s = .next (s.faulted i f { code := c }) := by
  obtain ⟨e, he⟩ := exec_eq_issue hi s
  rw [he, issue_of_check hf hm hc]

/-! ### What each check asks -/

theorem Opnds.chainOk_iff (o : Opnds) (c : Chain) :
    o.chainOk c = true ↔ (o.isReader = true → c.readers < 4 ∧ c.prev = .alu ∧ c.broken = false) := by
  unfold Opnds.chainOk
  cases o.isReader <;> simp [and_assoc]

theorem Opnds.damaged_iff (o : Opnds) (f : Focus) :
    o.damaged f = true ↔
      ∃ c ∈ o.a ++ o.off.toList ++ o.rd, c.toNat < 60 ∧ (f.cord.vreg c.toNat).bad ≠ 0 := by
  simp only [Opnds.damaged, List.any_eq_true, List.mem_filter, decide_eq_true_eq, and_assoc]

/-- The hints before an instruction suit it: a hint may stand behind any but where it stands bare (R57). -/
def Opnds.suits (o : Opnds) (p : Option Prefix) : Bool :=
  (o.hint || o.prefixOk p) && !(o.hint && o.bare && p.isSome)

theorem Opnds.suits_iff (o : Opnds) (p : Option Prefix) :
    o.suits p = true ↔ ∀ x, p = some x → if o.hint then o.bare = false else o.prefixOk (some x) = true := by
  unfold Opnds.suits
  cases p <;> cases o.hint <;> simp [Opnds.prefixOk]

/-- The decoder's checks, in their order (R39). -/
theorem Opnds.check_eq (o : Opnds) (f : Focus) :
    o.check f =
      if o.codesOk f.cord.budget f.path.chain.readers = false then some .illegalReg
      else if o.chainOk f.path.chain = false then some .latchChain
      else if o.suits f.path.pfx = false then some .illegalInstr
      else if o.uniform = true ∧ f.cord.converged = false then some .divergedScalar
      else if o.priv = true ∧ f.stand.sys = false then some .privilege
      else if o.damaged f = true then some .memError
      else none := by
  unfold Opnds.check Opnds.suits
  cases o.hint <;> cases o.bare <;> simp

theorem Opnds.codesOk_iff (o : Opnds) (k n : Nat) :
    o.codesOk k n = true ↔
      (∀ c ∈ o.v, c.toNat < k) ∧ (∀ c ∈ o.a, 60 ≤ c.toNat ∨ c.toNat < k) ∧ (∀ j ∈ o.latches, j < n + 1) ∧
      (∀ c, o.off = some c → c.toNat = 63 ∨ c.toNat < k) ∧
      (∀ g ∈ o.groups, g.1.toNat % g.2 = 0 ∧ g.1.toNat + g.2 ≤ k) ∧
      (∀ c ∈ o.s, c.toNat < 24 ∨ c.toNat = 31) ∧ (∀ c ∈ o.sNoZ, c.toNat < 24) ∧ (∀ c ∈ o.ss, c.1.toNat < 22) ∧
      (∀ n ∈ o.p, n < 8) ∧ (∀ n ∈ o.pd, 0 < n ∧ n < 8) ∧ (∀ c ∈ o.al, c.toNat < 8) := by
  simp only [Opnds.codesOk, VCode.inBudget, Bool.and_eq_true, Bool.or_eq_true, List.all_eq_true, decide_eq_true_eq,
    Option.all_eq_true, and_assoc]

/-! ### Codes outside their limits -/

/-- A code that no check of the codes passes is an ILLEGAL_REG (R42 to R46). -/
theorem exec_of_badCode {i : Instr} {s : State} {f : Focus} (hi : i.isStep = false) (hf : s.focus = some f)
    (hm : (opndsOf i).marked f = false) (h : ¬(opndsOf i).codesOk f.cord.budget f.path.chain.readers = true) :
    exec i s = .next (s.faulted i f { code := .illegalReg }) :=
  exec_of_check hi hf hm (by rw [Opnds.check_eq, if_pos (Bool.eq_false_iff.mpr h)])

/-- A destination register at or above the budget (R42). -/
theorem Opnds.not_codesOk_of_v {o : Opnds} {k n : Nat} {c : VCode} (h : c ∈ o.v) (hk : k ≤ c.toNat) :
    ¬o.codesOk k n = true := by
  intro hc
  obtain ⟨hv, -⟩ := (o.codesOk_iff k n).mp hc
  have := hv c h
  omega

/-- An ALU source from the budget to 59 (R42). -/
theorem Opnds.not_codesOk_of_a {o : Opnds} {k n : Nat} {c : VCode} (h : c ∈ o.a) (hk : k ≤ c.toNat ∧ c.toNat ≤ 59) :
    ¬o.codesOk k n = true := by
  intro hc
  obtain ⟨-, ha, -⟩ := (o.codesOk_iff k n).mp hc
  have := ha c h
  omega

/-- An address offset at or above the budget that is not the code of no offset (R45). -/
theorem Opnds.not_codesOk_of_off {o : Opnds} {k n : Nat} {c : VCode} (h : o.off = some c)
    (hk : k ≤ c.toNat ∧ c.toNat < 63) : ¬o.codesOk k n = true := by
  intro hc
  obtain ⟨-, -, -, ho, -⟩ := (o.codesOk_iff k n).mp hc
  have := ho c h
  omega

/-- A group that breaks its alignment or reaches the budget (R46). -/
theorem Opnds.not_codesOk_of_group {o : Opnds} {k n m : Nat} {c : VCode} (h : (c, m) ∈ o.groups)
    (hk : c.toNat % m ≠ 0 ∨ k < c.toNat + m) : ¬o.codesOk k n = true := by
  intro hc
  obtain ⟨-, -, -, -, hg, -⟩ := (o.codesOk_iff k n).mp hc
  have ⟨h1, h2⟩ := hg _ h
  dsimp only at h1 h2
  omega

/-- A scalar code from 24 to 30 in any scalar field (R43). -/
theorem Opnds.not_codesOk_of_scalar {o : Opnds} {k n : Nat} {c : SCode} (h : c ∈ o.s ++ o.sNoZ ++ o.ss.map Prod.fst)
    (h24 : 24 ≤ c.toNat) (h30 : c.toNat ≤ 30) : ¬o.codesOk k n = true := by
  intro hc
  obtain ⟨-, -, -, -, -, hs, hz, hp, -⟩ := (o.codesOk_iff k n).mp hc
  simp only [List.mem_append, List.mem_map] at h
  rcases h with (h | h) | ⟨g, h, rfl⟩
  · have := hs c h; omega
  · have := hz c h; omega
  · have := hp g h; omega

/-! ### The obligations -/

/-- Settles O2: the check of the codes covers every scalar field, and sz is outside the register file. -/
theorem scalarCodesNameRegisters : Obligations.ScalarCodesNameRegisters := by
  unfold Obligations.ScalarCodesNameRegisters
  refine ⟨fun c n x hl hn => ?_, fun i s f n hi hf hm h h24 h30 => ?_, fun c x => ⟨c.sreg_sz, c.writeS_sz x⟩⟩
  · have hne : n ≠ 31 := by rintro rfl; exact absurd hn (by decide)
    rw [Cord.sreg, Cord.writeS, if_neg hne, if_neg hne, List.getElem?_eq_getElem (by omega),
      List.getD_eq_getElem _ _ (by omega)]
    exact ⟨rfl, rfl⟩
  · exact exec_of_badCode hi hf hm (Opnds.not_codesOk_of_scalar h h24 h30)

/-- The first check that an instruction fails is its fault (R39). -/
theorem exec_checks_in_order {i : Instr} {s : State} {f : Focus} (hi : i.isStep = false) (hf : s.focus = some f)
    (hm : (opndsOf i).marked f = false) :
    ((opndsOf i).codesOk f.cord.budget f.path.chain.readers = false →
      exec i s = .next (s.faulted i f { code := .illegalReg })) ∧
    ((opndsOf i).codesOk f.cord.budget f.path.chain.readers = true →
      ¬(opndsOf i).chainOk f.path.chain = true → exec i s = .next (s.faulted i f { code := .latchChain })) ∧
    ((opndsOf i).codesOk f.cord.budget f.path.chain.readers = true → (opndsOf i).chainOk f.path.chain = true →
      ¬(opndsOf i).suits f.path.pfx = true → exec i s = .next (s.faulted i f { code := .illegalInstr })) ∧
    ((opndsOf i).codesOk f.cord.budget f.path.chain.readers = true → (opndsOf i).chainOk f.path.chain = true →
      (opndsOf i).suits f.path.pfx = true → (opndsOf i).uniform = true → f.cord.converged = false →
      exec i s = .next (s.faulted i f { code := .divergedScalar })) ∧
    ((opndsOf i).codesOk f.cord.budget f.path.chain.readers = true → (opndsOf i).chainOk f.path.chain = true →
      (opndsOf i).suits f.path.pfx = true → ((opndsOf i).uniform = true → f.cord.converged = true) →
      ((opndsOf i).priv = true → f.stand.sys = false → exec i s = .next (s.faulted i f { code := .privilege })) ∧
      (((opndsOf i).priv = true → f.stand.sys = true) → (opndsOf i).damaged f = true →
        exec i s = .next (s.faulted i f { code := .memError }))) := by
  have raise {e : TrapCode} (h : (opndsOf i).check f = some e) := exec_of_check hi hf hm h
  have order := (opndsOf i).check_eq f
  refine ⟨fun h => raise ?_, fun h1 h => raise ?_, fun h1 h2 h => raise ?_, fun h1 h2 h3 hu h => raise ?_,
    fun h1 h2 h3 h4 => ⟨fun hp h => raise ?_, fun h5 h => raise ?_⟩⟩
  · simp [order, h]
  · simp [order, h1, h]
  · simp [order, h1, h2, h]
  · simp [order, h1, h2, h3, hu, h]
  · have h4 : ¬((opndsOf i).uniform = true ∧ f.cord.converged = false) := fun hu => by simp [h4 hu.1] at hu
    simp [order, h1, h2, h3, if_neg h4, hp, h]
  · have h4 : ¬((opndsOf i).uniform = true ∧ f.cord.converged = false) := fun hu => by simp [h4 hu.1] at hu
    have h5 : ¬((opndsOf i).priv = true ∧ f.stand.sys = false) := fun hp => by simp [h5 hp.1] at hp
    simp [order, h1, h2, h3, if_neg h4, if_neg h5, h]

/-- An atomic whose group or offset is outside its limits: a pair that CAS names, a register that another names, or
the pair of no result (R45, R46). -/
theorem aOpsOpnds_badCodes {o : AOps} {k n : Nat}
    (hcas : o.op = .cas → o.d.toNat % 2 ≠ 0 ∨ k < o.d.toNat + 2 ∨ (k ≤ o.v.toNat ∧ o.v.toNat < 63))
    (hone : o.op ≠ .cas → o.d.toNat ≠ 60 → k ≤ o.d.toNat ∨ (k ≤ o.v.toNat ∧ o.v.toNat < 63))
    (hpair : o.op ≠ .cas → o.d.toNat = 60 → o.v.toNat % 2 ≠ 0 ∨ k < o.v.toNat + 2) :
    ¬(aOpsOpnds o).codesOk k n = true := by
  have h60 : o.d = 60 ↔ o.d.toNat = 60 := ⟨fun h => by rw [h]; rfl, fun h => BitVec.eq_of_toNat_eq h⟩
  unfold aOpsOpnds
  split_ifs with hp hc
  · exact Opnds.not_codesOk_of_group (List.mem_singleton.mpr rfl) (hpair hp.2 (h60.mp hp.1))
  · rcases hcas hc with h | h | h
    · exact Opnds.not_codesOk_of_group (List.mem_singleton.mpr rfl) (.inl h)
    · exact Opnds.not_codesOk_of_group (List.mem_singleton.mpr rfl) (.inr h)
    · exact Opnds.not_codesOk_of_off rfl h
  · rcases hone hc (fun h => hp ⟨h60.mpr h, hc⟩) with h | h
    · exact Opnds.not_codesOk_of_group (List.mem_singleton.mpr rfl) (.inr (by omega))
    · exact Opnds.not_codesOk_of_off rfl h

/-- An M format whose group or offset is outside its limits, whatever registers it reads beside them (R45, R46). -/
theorem mOpsOpnds_badCodes {o : MOps} {k n : Nat} (rd : List VCode)
    (h : o.d.toNat % sizeRegs o.size ≠ 0 ∨ k < o.d.toNat + sizeRegs o.size ∨ (k ≤ o.v.toNat ∧ o.v.toNat < 63)) :
    ¬({ mOpsOpnds o with rd := rd } : Opnds).codesOk k n = true := by
  rcases h with h | h | h
  · exact Opnds.not_codesOk_of_group (c := o.d) (List.mem_singleton.mpr rfl) (.inl h)
  · exact Opnds.not_codesOk_of_group (c := o.d) (List.mem_singleton.mpr rfl) (.inr h)
  · exact Opnds.not_codesOk_of_off (c := o.v) rfl h

/-- Settles O58: the frame's checks, and then the codes that the check of the codes refuses, field by field. -/
theorem checksComeBeforeEffects : Obligations.ChecksComeBeforeEffects := by
  unfold Obligations.ChecksComeBeforeEffects
  refine ⟨fun i s f hi hf => ?_, fun s f hf => ?_⟩
  · simp only [← Opnds.chainOk_iff, ← Opnds.suits_iff, ← Opnds.damaged_iff]
    exact ⟨exec_of_marked hi hf, exec_checks_in_order hi hf⟩
  · intro k refused beyond
    refine ⟨?_, ?_, ?_, ?_, ?_, ?_⟩
    · intro i hi c
      exact ⟨fun hc _ hk hm => exec_of_badCode hi hf hm (Opnds.not_codesOk_of_v hc hk),
        fun hc hk hm => exec_of_badCode hi hf hm (Opnds.not_codesOk_of_a hc hk)⟩
    · intro o d hd h60 hk hm
      have hv : d ∈ (v2Opnds o).v := by simp [v2Opnds, dstRegs, hd]
      exact exec_of_badCode rfl hf hm (Opnds.not_codesOk_of_v hv (by omega))
    · intro o h
      have bad (n : Nat) : ¬(v2Opnds o).codesOk f.cord.budget n = true := by
        rcases h with h | h
        · exact Opnds.not_codesOk_of_a (c := o.a) (by simp [v2Opnds]) h
        · exact Opnds.not_codesOk_of_a (c := o.b) (by simp [v2Opnds]) h
      exact ⟨fun hm => exec_of_badCode rfl hf hm (bad _), fun hm => exec_of_badCode rfl hf hm (bad _)⟩
    · intro o h
      have bad (n : Nat) : ¬(f3Opnds o).codesOk f.cord.budget n = true := by
        rcases h with h | h | h
        · exact Opnds.not_codesOk_of_a (c := o.a) (by simp [f3Opnds]) h
        · exact Opnds.not_codesOk_of_a (c := o.b) (by simp [f3Opnds]) h
        · exact Opnds.not_codesOk_of_a (c := o.c) (by simp [f3Opnds]) h
      exact ⟨fun hm => exec_of_badCode rfl hf hm (bad _), fun hm => exec_of_badCode rfl hf hm (bad _)⟩
    · intro o hk c span h
      have bad (rd : List VCode) (n : Nat) := mOpsOpnds_badCodes (n := n) rd h
      exact ⟨fun hm => exec_of_badCode rfl hf hm (bad _ _), fun hm => exec_of_badCode rfl hf hm (bad _ _),
        fun hm => exec_of_badCode rfl hf hm (bad _ _), fun hm => exec_of_badCode rfl hf hm (bad _ _)⟩
    · intro o hk c h
      obtain ⟨hcas, hone, hpair⟩ := h
      have bad (n : Nat) := aOpsOpnds_badCodes (n := n) hcas hone hpair
      exact ⟨fun hm => exec_of_badCode rfl hf hm (bad _), fun hm => exec_of_badCode rfl hf hm (bad _)⟩

end Sys2Proof.Machine
end

section
/-! PROOFS. Branches, calls, region entries and indirect jumps (02_encoding.md R40; R142, R144, R155 to R157): where a
displacement leads, what an event that leaves the spill area as it is does to the state, and each instruction. -/

namespace Sys2Proof.Machine

/-! ### Displacements (R40) -/

theorem branchTo_eq {n : Nat} (pc : Pc) (d : BitVec n) : branchTo pc d = pc + (4 : Pc) * d.signExtend 57 := by
  unfold branchTo
  congr 1
  apply BitVec.eq_of_toNat_eq
  rw [BitVec.toNat_shiftLeft, Nat.shiftLeft_eq, BitVec.toNat_mul, Nat.mul_comm]
  rfl

theorem branchTo_eq_ofInt {n : Nat} (pc : Pc) (d : BitVec n) :
    branchTo pc d = pc + BitVec.ofInt 57 (4 * d.toInt) := by
  rw [branchTo_eq, BitVec.ofInt_mul]
  rfl

/-- A displacement reaches as far as its field says, both ways, when it is no wider than the pc allows. -/
theorem branchTo_reach {n : Nat} (pc : Pc) (d : BitVec (n + 1)) (h : n < 54) :
    -(4 * 2 ^ n) ≤ (branchTo pc d - pc).toInt ∧ (branchTo pc d - pc).toInt ≤ 4 * 2 ^ n - 4 := by
  have hlo := BitVec.le_toInt d
  have hhi := BitVec.toInt_lt (x := d)
  have hp : (2 : Int) ^ n ≤ 2 ^ 53 := by exact_mod_cast Nat.pow_le_pow_right (by decide) (by omega : n ≤ 53)
  simp only [Nat.add_sub_cancel] at hlo hhi
  have e : branchTo pc d - pc = BitVec.ofInt 57 (4 * d.toInt) := by
    rw [branchTo_eq_ofInt, BitVec.add_comm, BitVec.add_sub_cancel]
  rw [e, BitVec.toInt_ofInt_eq_self (by decide) (by omega) (by omega)]
  omega

/-! ### Slots and the spill area -/

@[simp] theorem Cord.slot_setSlot_same (c : Cord) (b : Bool) (p : Option Path) : (c.setSlot b p).slot b = p := by
  cases b <;> rfl

@[simp] theorem Cord.slot_setSlot_other (c : Cord) (b : Bool) (p : Option Path) :
    (c.setSlot b p).slot (!b) = c.slot (!b) := by
  cases b <;> rfl

@[simp] theorem Cord.spillPlaces_setSlot (c : Cord) (b : Bool) (p : Option Path) :
    (c.setSlot b p).spillPlaces = c.spillPlaces := by
  cases b <;> rfl

theorem filter_not_contains_self (l : List Nat) : (l.filter fun j => !l.contains j) = [] := by
  simp

/-- An event that neither fills nor frees a place of the spill area reads back no damaged entry (R374). -/
theorem State.spillBad_same (s : State) (st : Stand) {c c' : Cord} (h : c'.spillPlaces = c.spillPlaces) :
    s.spillBad st c c' = false := by
  rw [State.spillBad, h, filter_not_contains_self]; rfl

theorem State.mendSpill_same (s : State) (st : Stand) {c c' : Cord} (h : c'.spillPlaces = c.spillPlaces) :
    s.mendSpill st c c' = s := by
  rw [State.mendSpill, h, filter_not_contains_self]; rfl

/-- A control event that keeps the spill area as it is and leaves a path in its slot: that path is in focus. -/
theorem issueCtl_of_ok {i : Instr} {s : State} {f : Focus} {g : Focus → Ctl} {c : Cord} {p : Path} (h : Issues i s f)
    (hg : g f = .ok (f.stand, c)) (hs : c.spillPlaces = f.cord.spillPlaces) (hp : c.slot f.slotB = some p) :
    issueCtl i s g = .next { s with focus := some { f with cord := c, path := p } } := by
  simp only [issueCtl_of_issues h, hg, State.spillBad_same s _ hs, State.mendSpill_same s _ hs, State.settle, hp]
  rfl

/-- A control event that fails is the fault of its instruction. -/
theorem issueCtl_of_own {i : Instr} {s : State} {f : Focus} {g : Focus → Ctl} {t : Trap} (h : Issues i s f)
    (hg : g f = .error (.own t)) : issueCtl i s g = .next (s.faulted i f t) := by
  simp only [issueCtl_of_issues h, hg]

/-- The path moved to an address, in its slot. -/
theorem issueCtl_of_goto {i : Instr} {s : State} {f : Focus} {g : Focus → Ctl} {pc : Pc} (h : Issues i s f)
    (hg : g f = f.goto pc) :
    issueCtl i s g = .next { s with focus := some { f with
      cord := f.cord.setSlot f.slotB (some (f.path.next pc)), path := f.path.next pc } } :=
  issueCtl_of_ok h hg (by simp) (by simp)

/-! ### Tokens -/

/-- A token pushed where the hardware holds them all: the others stand as they are (R144). -/
theorem pushToken_room {st : Stand} {c : Cord} (t : Token) (hs : c.spilled = 0) (hl : c.tokens.length < 8) :
    pushToken st c t = .ok (st, { c with tokens := t :: c.tokens }) := by
  have hsrc : sourced st c = c.tokens.map fun x => (x, none) := by simp [sourced, hs]
  have htake : ((t, (none : Option Nat)) :: c.tokens.map fun x => (x, none)).take 8 =
      (t, none) :: c.tokens.map fun x => (x, none) := List.take_of_length_le (by simp; omega)
  have hdrop : ((t, (none : Option Nat)) :: c.tokens.map fun x => (x, none)).drop 8 = [] :=
    List.drop_eq_nil_of_le (by simp; omega)
  have hback : ((t, (none : Option Nat)) :: c.tokens.map fun x => (x, none)).filterMap Prod.snd = [] := by simp
  have hall : ((t, (none : Option Nat)) :: c.tokens.map fun x => (x, none)).map Prod.fst = t :: c.tokens := by
    simp [Function.comp_def]
  rw [pushToken, if_neg (by omega), hsrc, setTokens, htake, hdrop, hback, hall]
  simp [spillTokens, ← hs]

/-- A 41st token does not fit (R144). -/
theorem pushToken_full {st : Stand} {c : Cord} (t : Token) (h : 40 ≤ c.tokens.length + c.spilled) :
    pushToken st c t = .error (.own { code := .divergenceDepth }) := if_pos h

/-- CALL and RCV move the path and push a token (R155, R157). -/
theorem issueCtl_of_push {i : Instr} {s : State} {f : Focus} {g : Focus → Ctl} {pc : Pc} {t : Token}
    (h : Issues i s f) (hg : g f = pushToken f.stand (f.cord.setSlot f.slotB (some (f.path.next pc))) t)
    (hs : f.cord.spilled = 0) (hl : f.cord.tokens.length < 8) :
    issueCtl i s g = .next { s with focus := some { f with
      cord := { f.cord.setSlot f.slotB (some (f.path.next pc)) with tokens := t :: f.cord.tokens },
      path := f.path.next pc } } := by
  have e : (f.cord.setSlot f.slotB (some (f.path.next pc))).tokens = f.cord.tokens := by cases f.slotB <;> rfl
  have es : (f.cord.setSlot f.slotB (some (f.path.next pc))).spilled = f.cord.spilled := by cases f.slotB <;> rfl
  rw [pushToken_room t (es.trans hs) (e ▸ hl), e] at hg
  refine issueCtl_of_ok h hg ?_ ?_ <;> cases f.slotB <;> rfl

theorem issueCtl_of_push_full {i : Instr} {s : State} {f : Focus} {g : Focus → Ctl} {p : Option Path} {t : Token}
    (h : Issues i s f) (hg : g f = pushToken f.stand (f.cord.setSlot f.slotB p) t)
    (hl : 40 ≤ f.cord.tokens.length + f.cord.spilled) :
    issueCtl i s g = .next (s.faulted i f { code := .divergenceDepth }) := by
  refine issueCtl_of_own h (hg.trans (pushToken_full t ?_))
  cases f.slotB <;> exact hl

/-! ### BRC -/

theorem takeSlot_other {now : Nat} {st : Stand} {c : Cord} {b : Bool} {p : Path} {pc : Pc} {m : Mask}
    {full : Nat → Stand → Cord → Pc → Mask → Ctl} (hb : c.slot b = some p) (hfree : c.slot (!b) = none) :
    takeSlot now st c pc m full = .ok (st, c.setSlot (!b) (some (livePath now pc m))) := by
  cases b
  · have ha : c.slotA = some p := hb
    have hn : c.slotB = none := hfree
    simp [takeSlot, ha, hn]
  · have hn : c.slotA = none := hfree
    simp [takeSlot, hn]

theorem Cord.setSlot_other_comm (c : Cord) (b : Bool) (p q : Option Path) :
    (c.setSlot b p).setSlot (!b) q = (c.setSlot (!b) q).setSlot b p := by
  cases b <;> rfl

/-- The lanes of a path that take a branch on a predicate, read straight or inverted, and those that do not (R155). -/
def Focus.taken (f : Focus) (p : BitVec 3) (neg : Bool) : Mask :=
  if neg then f.path.mask &&& ~~~(f.cord.pred p.toNat) else f.path.mask &&& f.cord.pred p.toNat

def Focus.fall (f : Focus) (p : BitVec 3) (neg : Bool) : Mask :=
  if neg then f.path.mask &&& f.cord.pred p.toNat else f.path.mask &&& ~~~(f.cord.pred p.toNat)

theorem exec_brc_eq (p : BitVec 3) (neg : Bool) (disp : BitVec 21) (s : State) :
    exec (.brc p neg disp) s = issueCtl (.brc p neg disp) s fun f =>
      if f.taken p neg ≠ 0 ∧ f.fall p neg ≠ 0 then
        split s.clock f (f.taken p neg) (f.fall p neg) (branchTo f.path.pc disp)
      else f.goto (if f.taken p neg ≠ 0 then branchTo f.path.pc disp else f.path.pc + 4) := by
  change execBrc p neg disp s = _
  cases neg <;> simp only [execBrc, Focus.taken, Focus.fall, if_true, if_false, Bool.false_eq_true, BitVec.not_not]

/-- The sides of a split, the one that stays first: bit 0 of the stepped LFSR chooses (R142). -/
def splitSides (bit : Bool) (taken fall : Pc × Mask) : (Pc × Mask) × (Pc × Mask) :=
  if bit then (taken, fall) else (fall, taken)

/-- A split where the other slot is free. -/
theorem split_free {now : Nat} {f : Focus} {taken fall : Mask} {target : Pc} (hfree : f.cord.slot (!f.slotB) = none) :
    let l := lfsrStep f.cord.lfsr
    let sides := splitSides (l.getLsbD 0) (target, taken) (f.path.pc + 4, fall)
    split now f taken fall target = .ok (f.stand,
      ({ f.cord with lfsr := l }.setSlot (!f.slotB) (some (livePath now sides.2.1 sides.2.2))).setSlot f.slotB
        (some { f.path.next sides.1.1 with mask := sides.1.2 })) := by
  intro l sides
  have hfree' (q : Option Path) : ({ f.cord with lfsr := l }.setSlot f.slotB q).slot (!f.slotB) = none := by
    rw [Cord.slot_setSlot_other, ← hfree]; cases f.slotB <;> rfl
  rw [← Cord.setSlot_other_comm]
  simp only [split]
  rw [takeSlot_other (Cord.slot_setSlot_same _ _ _) (hfree' _)]
  simp only [sides, splitSides, l]
  cases (lfsrStep f.cord.lfsr).getLsbD 0 <;> rfl

/-- What BRC does to its path (R155). -/
theorem exec_brc {s : State} {f : Focus} {p : BitVec 3} {neg : Bool} {disp : BitVec 21}
    (h : Issues (.brc p neg disp) s f) :
    let went (c : Cord) (x : Path) : Prop := exec (.brc p neg disp) s =
      .next { s with focus := some { f with cord := c.setSlot f.slotB (some x), path := x } }
    (f.taken p neg = 0 → went f.cord (f.path.next (f.path.pc + 4))) ∧
    (f.taken p neg ≠ 0 → f.fall p neg = 0 → went f.cord (f.path.next (branchTo f.path.pc disp))) ∧
    (f.taken p neg ≠ 0 → f.fall p neg ≠ 0 → f.cord.slot (!f.slotB) = none →
      let l := lfsrStep f.cord.lfsr
      let sides := splitSides (l.getLsbD 0) (branchTo f.path.pc disp, f.taken p neg) (f.path.pc + 4, f.fall p neg)
      went ({ f.cord with lfsr := l }.setSlot (!f.slotB) (some (livePath s.clock sides.2.1 sides.2.2)))
        { f.path.next sides.1.1 with mask := sides.1.2 }) := by
  rw [exec_brc_eq]
  refine ⟨fun h0 => ?_, fun h1 h0 => ?_, fun h1 h2 hfree => ?_⟩
  · exact issueCtl_of_goto h (by rw [if_neg (fun hh => hh.1 h0), if_neg (not_not_intro h0)])
  · exact issueCtl_of_goto h (by rw [if_neg (fun hh => hh.2 h0), if_pos h1])
  · refine issueCtl_of_ok h ?_ ?_ (Cord.slot_setSlot_same _ _ _)
    · rw [if_pos ⟨h1, h2⟩, split_free hfree]
    · rw [Cord.spillPlaces_setSlot, Cord.spillPlaces_setSlot]; rfl

/-! ### Indirect jumps (R156) -/

/-- The mask of a list of lanes. -/
def ofLanes (ls : List Nat) : Mask := ls.foldr (fun l m => (1 : Mask) <<< l ||| m) 0

theorem getLsbD_ofLanes {k : Nat} (hk : k < 32) (ls : List Nat) : (ofLanes ls).getLsbD k = decide (k ∈ ls) := by
  induction ls with
  | nil => simp [ofLanes]
  | cons l ls ih =>
    have e : (ofLanes (l :: ls)) = (1 : Mask) <<< l ||| ofLanes ls := rfl
    rw [e, BitVec.getLsbD_or, ih, BitVec.getLsbD_shiftLeft]
    by_cases h : k = l
    · subst h; simp [hk]
    · have : ¬(¬k < l ∧ k - l = 0) := by omega
      simp [h, hk]
      omega

theorem ofLanes_toLanes (m : Mask) : ofLanes (Mask.toLanes m) = m := by
  apply BitVec.eq_of_getLsbD_eq
  intro k hk
  rw [getLsbD_ofLanes hk]
  simp [Mask.toLanes, lanes, hk]

/-- Lanes that agree on their target are one group (R156). -/
theorem groupsOf_same {tgt : Nat → Pc} {t : Pc} : ∀ {ls : List Nat}, ls ≠ [] → (∀ l ∈ ls, tgt l = t) →
    groupsOf tgt ls = [(t, ofLanes ls)]
  | [l], _, h => by simp [groupsOf, ofLanes, h]
  | l :: k :: r, _, h => by
    have ih : groupsOf tgt (k :: r) = [(t, ofLanes (k :: r))] :=
      groupsOf_same (List.cons_ne_nil _ _) fun x hx => h x (List.mem_cons_of_mem _ hx)
    have hl : tgt l = t := h l List.mem_cons_self
    rw [groupsOf, ih, hl]
    simp [ofLanes]

/-- The lanes of an indirect jump agree on an aligned target: the whole path moves, and a call has pushed its token. -/
theorem indirectJump_same {i : Instr} {call : Bool} {v : VCode} {s : State} {f : Focus} {t : Pc} {c : Cord}
    (h : Issues i s f) (hm : f.path.mask ≠ 0) (ha : t.toNat % 4 = 0)
    (ht : ∀ l < 32, f.path.mask.getLsbD l → f.indirect v l = t)
    (hc : (if call then pushToken f.stand f.cord { call := true, rpc := f.path.pc + 4, m := f.path.mask, w := 0 }
      else .ok (f.stand, f.cord)) = (.ok (f.stand, c) : Ctl)) (hs : c.spillPlaces = f.cord.spillPlaces) :
    indirectJump i call v s = .next { s with focus := some { f with
      cord := c.setSlot f.slotB (some (f.path.next t)), path := f.path.next t } } := by
  have ht' : ∀ l ∈ Mask.toLanes f.path.mask, f.indirect v l = t := by
    intro l hl
    obtain ⟨h32, hbit⟩ : l < 32 ∧ f.path.mask.getLsbD l = true := by simpa [Mask.toLanes, lanes] using hl
    exact ht l h32 hbit
  have hfind : ((Mask.toLanes f.path.mask).find? fun l => decide ((f.indirect v l).toNat % 4 ≠ 0)) = none :=
    List.find?_eq_none.mpr fun l hl => by simp [ht' l hl, ha]
  have hne : Mask.toLanes f.path.mask ≠ [] := fun hnil => hm (by rw [← ofLanes_toLanes f.path.mask, hnil]; rfl)
  refine issueCtl_of_ok h ?_ (by rw [Cord.spillPlaces_setSlot, hs]) (Cord.slot_setSlot_same _ _ _)
  simp only [hfind, hc, groupsOf_same hne ht', ofLanes_toLanes]
  rfl

/-- The lowest lane whose target is not aligned is the fault of an indirect jump. -/
theorem indirectJump_misaligned {i : Instr} {call : Bool} {v : VCode} {s : State} {f : Focus} {l : Nat}
    (h : Issues i s f) (hl : l < 32) (hm : f.path.mask.getLsbD l) (ha : (f.indirect v l).toNat % 4 ≠ 0)
    (hlow : ∀ k < l, f.path.mask.getLsbD k → (f.indirect v k).toNat % 4 = 0) :
    indirectJump i call v s =
      .next (s.faulted i f { code := .misaligned, val := some ((f.indirect v l).zeroExtend 64) }) := by
  have hfind : ((Mask.toLanes f.path.mask).find? fun l => decide ((f.indirect v l).toNat % 4 ≠ 0)) = some l := by
    rw [Mask.toLanes, List.find?_filter, lanes, List.find?_range_eq_some]
    refine ⟨by simp [hm, ha], by simpa using hl, fun k hk => ?_⟩
    cases hb : f.path.mask.getLsbD k
    · simp
    · simp [hlow k hk hb]
  refine issueCtl_of_own h ?_
  simp only [hfind]

/-! ### Each instruction's event -/

theorem exec_jmp_eq (disp : BitVec 21) (s : State) :
    exec (.jmp disp) s = issueCtl (.jmp disp) s fun f => f.goto (branchTo f.path.pc disp) := rfl

theorem exec_call_eq (disp : BitVec 21) (s : State) :
    exec (.call disp) s = issueCtl (.call disp) s fun f =>
      pushToken f.stand (f.cord.setSlot f.slotB (some (f.path.next (branchTo f.path.pc disp))))
        ⟨true, f.path.pc + 4, f.path.mask, 0⟩ := rfl

theorem exec_rcv_eq (disp : BitVec 21) (s : State) :
    exec (.rcv disp) s = issueCtl (.rcv disp) s fun f =>
      pushToken f.stand (f.cord.setSlot f.slotB (some (f.path.next (f.path.pc + 4))))
        ⟨false, branchTo f.path.pc disp, f.path.mask, 0⟩ := rfl

theorem exec_jmpr_eq (v : VCode) (s : State) : exec (.jmpr v) s = indirectJump (.jmpr v) false v s := rfl

theorem exec_callr_eq (v : VCode) (s : State) : exec (.callr v) s = indirectJump (.callr v) true v s := rfl

/-- BRAL with count 0 always branches: every allowance shows at least that many elements. -/
theorem exec_bral_zero {a : BitVec 3} {disp : BitVec 18} {s : State} {f : Focus} (h : Issues (.bral a 0 disp) s f) :
    exec (.bral a 0 disp) s = .next (s.keep { f with path := f.path.next (branchTo f.path.pc disp) }) := by
  change execBral a 0 disp s = _
  rw [execBral, issue_of_issues h]
  simp

/-! ### The obligations -/

/-- Settles O10: the displacement is the field's signed value in words, and JMP and BRAL go where it says. -/
theorem branchDisplacementsCountWords : Obligations.BranchDisplacementsCountWords := by
  unfold Obligations.BranchDisplacementsCountWords
  intro pc b q
  obtain ⟨bl, bh⟩ := branchTo_reach (n := 20) pc b (by decide)
  obtain ⟨ql, qh⟩ := branchTo_reach (n := 17) pc q (by decide)
  refine ⟨branchTo_eq_ofInt pc b, branchTo_eq_ofInt pc q, ?_, ?_, bl, bh, ql, qh, fun s f h hpc => ?_,
    fun s f a c h hpc hc => ?_⟩
  · simp [branchTo]
  · simp [branchTo]
  · rw [exec_jmp_eq, issueCtl_of_goto h rfl, ← hpc]
    exact ⟨_, _, rfl, rfl, rfl⟩
  · subst hc
    rw [exec_bral_zero h, ← hpc]
    exact ⟨_, _, rfl, rfl, rfl⟩

/-- Settles O11: each instruction's event, on a path whose token needs no spill. -/
theorem branchesAndJumpsComplete : Obligations.BranchesAndJumpsComplete := by
  unfold Obligations.BranchesAndJumpsComplete
  refine ⟨fun s f p neg disp => ?_, fun s f v => ?_⟩
  · intro target m taken fall path move push
    have htarget : branchTo f.path.pc disp = target := branchTo_eq _ _
    refine ⟨fun h => ?_, fun h hs hl => ?_, fun h hs hl => ?_, fun i hi h hfull => ?_, fun h => ?_⟩
    · rw [exec_jmp_eq, issueCtl_of_goto h rfl, htarget]; rfl
    · rw [exec_call_eq, issueCtl_of_push h rfl hs hl, htarget]; rfl
    · rw [exec_rcv_eq, issueCtl_of_push h rfl hs hl, htarget]; rfl
    · simp only [List.mem_cons, List.not_mem_nil, or_false] at hi
      rcases hi with rfl | rfl
      · rw [exec_call_eq, issueCtl_of_push_full h rfl hfull]
      · rw [exec_rcv_eq, issueCtl_of_push_full h rfl hfull]
    · obtain ⟨hnone, hall, hsplit⟩ := exec_brc h
      rw [htarget] at hall hsplit
      exact ⟨hnone, hall, hsplit⟩
  · intro m tgt path
    refine ⟨fun t hm ha ht => ⟨fun h => ?_, fun h hs hl => ?_⟩, fun l hl hm ha hlow i hi h => ?_⟩
    · rw [exec_jmpr_eq, indirectJump_same (call := false) h hm ha ht rfl rfl]; rfl
    · rw [exec_callr_eq, indirectJump_same (call := true) h hm ha ht (pushToken_room _ hs hl) rfl]
      cases f.slotB <;> rfl
    · simp only [List.mem_cons, List.not_mem_nil, or_false] at hi
      rcases hi with rfl | rfl
      · rw [exec_jmpr_eq]; exact indirectJump_misaligned h hl hm ha hlow
      · rw [exec_callr_eq]; exact indirectJump_misaligned h hl hm ha hlow

end Sys2Proof.Machine
end

section
/-! PROOFS. Special registers, TRAP, ERET and HALT (02_encoding.md R53, R65, R72; 13_system.md R377, R388, R392,
R393). -/

namespace Sys2Proof.Machine

/-! ### Words built of fields -/

/-- A field below another adds its value. -/
theorem toNat_append_eq_add {v w : Nat} (x : BitVec v) (y : BitVec w) :
    (x ++ y).toNat = x.toNat * 2 ^ w + y.toNat := by
  rw [BitVec.toNat_append, ← Nat.shiftLeft_add_eq_or_of_lt y.isLt, Nat.shiftLeft_eq]

/-- PRM is its three fields, X highest (R53). -/
theorem Cord.prmWord_eq (c : Cord) : BitVec.ofNat 64 c.prmWord = (c.prmX ++ c.prmR ++ c.prmB).zeroExtend 64 := by
  apply BitVec.eq_of_toNat_eq
  simp only [BitVec.toNat_ofNat, Cord.prmWord, BitVec.toNat_setWidth, toNat_append_eq_add]
  congr 1
  omega

/-- TRAPCAUSE is the TRAP's immediate, the handler bit and the code (R375). -/
theorem Cord.trapCause_eq (c : Cord) :
    BitVec.ofNat 64 c.trapCause = (c.trapImm ++ BitVec.ofBool c.inTrap ++ 0#7 ++ c.trapCode).zeroExtend 64 := by
  apply BitVec.eq_of_toNat_eq
  simp only [BitVec.toNat_ofNat, Cord.trapCause, BitVec.toNat_setWidth, toNat_append_eq_add, BitVec.toNat_ofBool]
  refine congrArg (· % 2 ^ 64) ?_
  omega

/-! ### What an effect comes to -/

theorem issue_of_done {i : Instr} {s t : State} {f : Focus} {e : Focus → Did} (h : Issues i s f) (he : e f = .done t) :
    issue i s e = .next t := by
  rw [issue_of_issues h, he]

theorem issue_of_trap {i : Instr} {s s' : State} {f : Focus} {e : Focus → Did} {t : Trap} (h : Issues i s f)
    (he : e f = .trap s' t) : issue i s e = .next (s'.faulted i f t) := by
  rw [issue_of_issues h, he]

/-! ### Special registers -/

/-- Reading a special register, the packed ones as their fields (R65). -/
theorem readSpr_eq (s : State) (f : Focus) (r : Spr) :
    let st := f.stand
    let c := f.cord
    let k := s.core st.die st.core
    s.readSpr f r = match r with
      | .clk => s.clk st.die st.core
      | .ts => if c.tsfloor.toNat ≤ s.ts then BitVec.ofNat 64 s.ts else c.tsfloor
      | .tsfloor => c.tsfloor
      | .fpstat => c.fpstat.zeroExtend 64
      | .mstat => k.mstatWord st
      | .prm => (c.prmX ++ c.prmR ++ c.prmB).zeroExtend 64
      | .seed => st.seed.zeroExtend 64
      | .cordid => BitVec.ofNat 64 c.id
      | .standid => BitVec.ofNat 64 st.standId
      | .coreid => s.coreId st.die st.core
      | .agelim => k.agelim.zeroExtend 64
      | .trapcause => (c.trapImm ++ BitVec.ofBool c.inTrap ++ 0#7 ++ c.trapCode).zeroExtend 64
      | .trappc => c.trapPc.zeroExtend 64
      | .trapval => c.trapVal
      | .worldstat => s.worldstat st := by
  cases r
  case prm => exact f.cord.prmWord_eq
  case trapcause => exact f.cord.trapCause_eq
  all_goals rfl

theorem exec_rdspr {d : SCode} {r : Spr} {s : State} {f : Focus} (h : Issues (.rdspr d r) s f) :
    exec (.rdspr d r) s = .next (s.goneOn f (f.cord.writeS d (s.readSpr f r))) := issueCord_of_issues h _

theorem exec_wrspr_eq (d : SCode) (r : Spr) (s : State) : exec (.wrspr d r) s = execWrspr d r s := rfl

/-- AGELIM at system level, no less than its floor (R152). -/
theorem exec_wrspr_agelim {d : SCode} {s : State} {f : Focus} (h : Issues (.wrspr d .agelim) s f)
    (hsys : f.stand.sys = true) :
    let n : BitVec 20 := (f.cord.sreg d).truncate 20
    exec (.wrspr d .agelim) s = .next ((s.modCore f.stand.die f.stand.core fun k =>
      { k with agelim := if n.toNat < 0x40 then 0x40 else n }).goneOn f f.cord) := by
  rw [exec_wrspr_eq, execWrspr]
  exact issue_of_done h (by rw [hsys]; rfl)

theorem exec_wrspr_agelim_user {d : SCode} {s : State} {f : Focus} (h : Issues (.wrspr d .agelim) s f)
    (hsys : f.stand.sys = false) :
    exec (.wrspr d .agelim) s = .next (s.faulted (.wrspr d .agelim) f { code := .privilege }) := by
  rw [exec_wrspr_eq, execWrspr]
  exact issue_of_trap h (by rw [hsys]; rfl)

/-- A register with no field to write ignores the write (R392). -/
theorem exec_wrspr_ignored {d : SCode} {r : Spr} {s : State} {f : Focus} (h : Issues (.wrspr d r) s f)
    (hr : r ∉ [.agelim, .fpstat, .mstat, .prm, .trappc]) : exec (.wrspr d r) s = .next (s.goneOn f f.cord) := by
  rw [exec_wrspr_eq, execWrspr]
  cases r
  case agelim | fpstat | mstat | prm | trappc => exact absurd (by decide) hr
  all_goals exact issue_of_done h rfl

/-- Settles O42: register by register. -/
theorem specialRegistersComplete : Obligations.SpecialRegistersComplete := by
  unfold Obligations.SpecialRegistersComplete
  intro s f d r st c x k count value
  refine ⟨fun h => ?_, fun h => ⟨?_, ?_, ?_, ?_, ?_, ?_, exec_wrspr_ignored h⟩⟩
  · rw [exec_rdspr h, readSpr_eq]
    rfl
  · rintro rfl hsys; exact exec_wrspr_agelim_user h hsys
  · rintro rfl hsys; exact exec_wrspr_agelim h hsys
  all_goals
    rintro rfl
    rw [exec_wrspr_eq, execWrspr]
    exact issue_of_done h rfl

/-! ### TRAP, ERET and HALT -/

/-- A path moved to an address has gone on from the word before it. -/
theorem State.goneOn_to (s : State) (f : Focus) (c : Cord) (pc : Pc) :
    s.goneOn { f with path := { f.path with pc := pc - 4 } } c =
      s.keep { f with cord := c, path := f.path.next pc } := by
  have e : pc - 4 + 4 = pc := BitVec.sub_add_cancel pc 4
  simp only [State.goneOn, e]
  rfl

theorem exec_trap_eq (imm : BitVec 16) (s : State) : exec (.trap imm) s = execTrap imm s := rfl
theorem exec_eret_eq (s : State) : exec .eret s = execEret s := rfl
theorem exec_halt_eq (s : State) : exec .halt s = execHalt s := rfl
theorem exec_illegalWord_eq (w : BitVec 32) (s : State) : exec (.illegalWord w) s = execIllegalWord w s := rfl

/-- Settles O43: the branches of each effect. -/
theorem trapsAndReturnsComplete : Obligations.TrapsAndReturnsComplete := by
  unfold Obligations.TrapsAndReturnsComplete
  intro s f imm c next
  refine ⟨fun h => ?_, fun h => ?_, fun h => ?_, fun w h => ?_⟩
  · rw [exec_trap_eq, execTrap]
    refine ⟨fun hv hi => ?_, fun hv => ?_⟩
    · rw [State.goneOn_to]
      exact issue_of_done h (if_pos ⟨hv, hi⟩)
    · exact issue_of_done h (if_neg fun hh => hv.elim hh.1 fun hi => by simp [c, hh.2] at hi)
  · rw [exec_eret_eq, execEret]
    refine ⟨fun hi => ?_, fun hi ha => ?_, fun hi ha => ?_⟩
    · exact issue_of_trap h (if_pos hi)
    · have hin : ¬f.cord.inTrap = false := by simp [show f.cord.inTrap = true from hi]
      exact issue_of_trap h ((if_neg hin).trans (if_pos ha))
    · have hin : ¬f.cord.inTrap = false := by simp [show f.cord.inTrap = true from hi]
      rw [State.goneOn_to]
      exact issue_of_done h ((if_neg hin).trans (if_neg (not_not_intro ha)))
  · rw [exec_halt_eq, execHalt]
    exact issue_of_done h rfl
  · rw [exec_illegalWord_eq, execIllegalWord]
    exact issue_of_trap h rfl

end Sys2Proof.Machine
end

section
/-! PROOFS. Words written out from the spec (02_encoding.md R64 to R72): the decoder is run on each. -/

namespace Sys2Proof.Machine

/-- Settles O54, by running the decoder word by word. -/
theorem wordsDecodeToTheirInstructions : Obligations.WordsDecodeToTheirInstructions := by
  unfold Obligations.WordsDecodeToTheirInstructions
  repeat' apply And.intro
  all_goals rfl

end Sys2Proof.Machine
end

section
/-! PROOFS. Vector integer instructions (03_integer_scalar.md R97 to R110): what an operation on the elements of a lane
is as an operation on words, and then each instruction's lane results and tag. -/

namespace Sys2Proof.Machine

/-! ### Exact integers and words -/

/-- The upper half of an exact integer held in at least twice the width. -/
theorem extractLsb'_ofInt_high {n w : Nat} (h : w + w ≤ n) (z : Int) :
    (BitVec.ofInt n z).extractLsb' w w = BitVec.ofInt w (z / 2 ^ w) := by
  obtain ⟨k, rfl⟩ := Nat.exists_eq_add_of_le h
  have hw : (0 : Int) < 2 ^ w := by positivity
  have hn : (0 : Int) < 2 ^ (w + w + k) := by positivity
  have hdvd : (2 : Int) ^ w ∣ 2 ^ (w + k) := pow_dvd_pow 2 (Nat.le_add_right w k)
  have hsplit : z % 2 ^ (w + w + k) / 2 ^ w = z / 2 ^ w - 2 ^ (w + k) * (z / 2 ^ (w + w + k)) := by
    rw [Int.emod_def, show (2 : Int) ^ (w + w + k) = 2 ^ w * 2 ^ (w + k) by ring, mul_assoc,
      Int.sub_mul_ediv_left _ _ hw.ne']
  have hmod : z % 2 ^ (w + w + k) / 2 ^ w % 2 ^ w = z / 2 ^ w % 2 ^ w := by
    rw [hsplit]
    exact Int.emod_eq_emod_iff_emod_sub_eq_zero.mpr
      (by rw [sub_sub_cancel_left]; exact Int.emod_eq_zero_of_dvd ((hdvd.mul_right _).neg_right))
  have hcast : ((z % 2 ^ (w + w + k)).toNat : Int) = z % 2 ^ (w + w + k) :=
    Int.toNat_of_nonneg (Int.emod_nonneg _ hn.ne')
  apply BitVec.eq_of_toNat_eq
  zify
  rw [BitVec.extractLsb'_toNat, Nat.shiftRight_eq_div_pow]
  simp only [BitVec.toNat_ofInt]
  push_cast
  rw [hcast, hmod, Int.toNat_of_nonneg (Int.emod_nonneg _ hw.ne')]

/-- The upper half of the exact product of two signed words. -/
theorem signedHigh_eq {n w : Nat} (h : w + w ≤ n) (x y : BitVec w) :
    BitVec.ofInt w (x.toInt * y.toInt / 2 ^ w) = (x.signExtend n * y.signExtend n).extractLsb' w w := by
  rw [← extractLsb'_ofInt_high h, BitVec.ofInt_mul]; rfl

/-- The upper half of the exact product of two unsigned words. -/
theorem unsignedHigh_eq {n w : Nat} (h : w + w ≤ n) (x y : BitVec w) :
    BitVec.ofInt w ((x.toNat : Int) * y.toNat / 2 ^ w) = (x.zeroExtend n * y.zeroExtend n).extractLsb' w w := by
  rw [← extractLsb'_ofInt_high h, BitVec.ofInt_mul, BitVec.ofInt_natCast, BitVec.ofInt_natCast,
    BitVec.ofNat_toNat, BitVec.ofNat_toNat]

theorem ofInt_toNat {w : Nat} (x : BitVec w) : BitVec.ofInt w x.toNat = x := by
  rw [BitVec.ofInt_natCast, BitVec.ofNat_toNat, BitVec.setWidth_eq]

/-- The smaller of two exact integers, as one of the words that hold them. -/
theorem ofInt_min {w : Nat} {x y : BitVec w} {p q : Int} {c : Bool} (hp : BitVec.ofInt w p = x)
    (hq : BitVec.ofInt w q = y) (hc : c = true ↔ q < p) : BitVec.ofInt w (min p q) = if c then y else x := by
  by_cases h : q < p
  · rw [min_eq_right h.le, hq, hc.mpr h, if_pos rfl]
  · rw [min_eq_left (Int.not_lt.mp h), hp, if_neg (mt hc.mp h)]

/-- The larger of two exact integers, as one of the words that hold them. -/
theorem ofInt_max {w : Nat} {x y : BitVec w} {p q : Int} {c : Bool} (hp : BitVec.ofInt w p = x)
    (hq : BitVec.ofInt w q = y) (hc : c = true ↔ p < q) : BitVec.ofInt w (max p q) = if c then y else x := by
  by_cases h : p < q
  · rw [max_eq_right h.le, hq, hc.mpr h, if_pos rfl]
  · rw [max_eq_left (Int.not_lt.mp h), hp, if_neg (mt hc.mp h)]

theorem ult_iff_toNat_lt_int {w : Nat} {x y : BitVec w} : x.ult y = true ↔ (x.toNat : Int) < y.toNat :=
  BitVec.ult_iff_toNat_lt.trans Int.ofNat_lt.symm

/-- The magnitude of a signed word; the most negative one is its own. -/
theorem ofInt_natAbs {w : Nat} (x : BitVec w) : BitVec.ofInt w (x.toInt.natAbs : Int) = if x.msb then -x else x := by
  simp only [BitVec.msb_eq_toInt, decide_eq_true_eq]
  split
  · rw [Int.ofNat_natAbs_of_nonpos (by omega), BitVec.ofInt_neg, BitVec.ofInt_toInt]
  · rw [Int.natAbs_of_nonneg (by omega), BitVec.ofInt_toInt]

theorem ofInt_neg_toInt {w : Nat} (x : BitVec w) : BitVec.ofInt w (-x.toInt) = -x := by
  rw [BitVec.ofInt_neg, BitVec.ofInt_toInt]

/-! ### Element operations -/

theorem intWide_eq (t : IntTy) : intWide t = decide (t = .i32 ∨ t = .n32) := by cases t <;> rfl

theorem elWide_eq (w : ElW) : elWide w = decide (w = .w32) := by cases w <;> rfl

/-- An operation on exact integers, kept to the element's width, as operations on the elements themselves (R97). -/
theorem intOp_eq_perElement {t : IntTy} {op : Nat → Int → Int → Int} {i32 n32 : Word → Word → Word}
    {i16 n16 : Half → Half → Half} (h1 : ∀ x y : Word, BitVec.ofInt 32 (op 32 x.toInt y.toInt) = i32 x y)
    (h2 : ∀ x y : Word, BitVec.ofInt 32 (op 32 x.toNat y.toNat) = n32 x y)
    (h3 : ∀ x y : Half, BitVec.ofInt 16 (op 16 x.toInt y.toInt) = i16 x y)
    (h4 : ∀ x y : Half, BitVec.ofInt 16 (op 16 x.toNat y.toNat) = n16 x y) (a b : Word) :
    intOp t op a b = perElement t i32 n32 i16 n16 a b := by
  cases t
  · exact h1 a b
  · exact h2 a b
  · exact congrArg₂ (· ++ ·) (h3 _ _) (h3 _ _)
  · exact congrArg₂ (· ++ ·) (h4 _ _) (h4 _ _)

theorem ofInt_add_toInt {w : Nat} (x y : BitVec w) : BitVec.ofInt w (x.toInt + y.toInt) = x + y := by
  rw [BitVec.ofInt_add, BitVec.ofInt_toInt, BitVec.ofInt_toInt]

theorem ofInt_add_toNat {w : Nat} (x y : BitVec w) : BitVec.ofInt w ((x.toNat : Int) + y.toNat) = x + y := by
  rw [BitVec.ofInt_add, ofInt_toNat, ofInt_toNat]

theorem ofInt_sub_toInt {w : Nat} (x y : BitVec w) : BitVec.ofInt w (x.toInt - y.toInt) = x - y := by
  rw [Int.sub_eq_add_neg, BitVec.ofInt_add, BitVec.ofInt_neg, BitVec.ofInt_toInt, BitVec.ofInt_toInt, BitVec.sub_eq_add_neg]

theorem ofInt_sub_toNat {w : Nat} (x y : BitVec w) : BitVec.ofInt w ((x.toNat : Int) - y.toNat) = x - y := by
  rw [Int.sub_eq_add_neg, BitVec.ofInt_add, BitVec.ofInt_neg, ofInt_toNat, ofInt_toNat, BitVec.sub_eq_add_neg]

theorem ofInt_mul_toInt {w : Nat} (x y : BitVec w) : BitVec.ofInt w (x.toInt * y.toInt) = x * y := by
  rw [BitVec.ofInt_mul, BitVec.ofInt_toInt, BitVec.ofInt_toInt]

theorem ofInt_mul_toNat {w : Nat} (x y : BitVec w) : BitVec.ofInt w ((x.toNat : Int) * y.toNat) = x * y := by
  rw [BitVec.ofInt_mul, ofInt_toNat, ofInt_toNat]

theorem intOp_add (t : IntTy) (a b : Word) :
    intOp t (fun _ x y => x + y) a b = perElement t (· + ·) (· + ·) (· + ·) (· + ·) a b :=
  intOp_eq_perElement ofInt_add_toInt ofInt_add_toNat ofInt_add_toInt ofInt_add_toNat a b

theorem intOp_sub (t : IntTy) (a b : Word) :
    intOp t (fun _ x y => x - y) a b = perElement t (· - ·) (· - ·) (· - ·) (· - ·) a b :=
  intOp_eq_perElement ofInt_sub_toInt ofInt_sub_toNat ofInt_sub_toInt ofInt_sub_toNat a b

theorem intOp_mul (t : IntTy) (a b : Word) :
    intOp t (fun _ x y => x * y) a b = perElement t (· * ·) (· * ·) (· * ·) (· * ·) a b :=
  intOp_eq_perElement ofInt_mul_toInt ofInt_mul_toNat ofInt_mul_toInt ofInt_mul_toNat a b

/-- The upper halves of the elements' exact products (R99). -/
theorem intOp_mulh (t : IntTy) (a b : Word) :
    intOp t (fun w x y => x * y / 2 ^ w) a b =
      perElement t (fun x y => (x.signExtend 64 * y.signExtend 64).extractLsb' 32 32)
        (fun x y => (x.zeroExtend 64 * y.zeroExtend 64).extractLsb' 32 32)
        (fun x y => (x.signExtend 32 * y.signExtend 32).extractLsb' 16 16)
        (fun x y => (x.zeroExtend 32 * y.zeroExtend 32).extractLsb' 16 16) a b :=
  intOp_eq_perElement (signedHigh_eq (by decide)) (unsignedHigh_eq (by decide)) (signedHigh_eq (by decide))
    (unsignedHigh_eq (by decide)) a b

theorem intOp_min (t : IntTy) (a b : Word) :
    intOp t (fun _ x y => min x y) a b =
      perElement t (fun x y => if y.slt x then y else x) (fun x y => if y.ult x then y else x)
        (fun x y => if y.slt x then y else x) (fun x y => if y.ult x then y else x) a b :=
  intOp_eq_perElement (fun _ _ => ofInt_min BitVec.ofInt_toInt BitVec.ofInt_toInt BitVec.slt_iff_toInt_lt)
    (fun x y => ofInt_min (ofInt_toNat x) (ofInt_toNat y) ult_iff_toNat_lt_int)
    (fun _ _ => ofInt_min BitVec.ofInt_toInt BitVec.ofInt_toInt BitVec.slt_iff_toInt_lt)
    (fun x y => ofInt_min (ofInt_toNat x) (ofInt_toNat y) ult_iff_toNat_lt_int) a b

theorem intOp_max (t : IntTy) (a b : Word) :
    intOp t (fun _ x y => max x y) a b =
      perElement t (fun x y => if x.slt y then y else x) (fun x y => if x.ult y then y else x)
        (fun x y => if x.slt y then y else x) (fun x y => if x.ult y then y else x) a b :=
  intOp_eq_perElement (fun _ _ => ofInt_max BitVec.ofInt_toInt BitVec.ofInt_toInt BitVec.slt_iff_toInt_lt)
    (fun x y => ofInt_max (ofInt_toNat x) (ofInt_toNat y) ult_iff_toNat_lt_int)
    (fun _ _ => ofInt_max BitVec.ofInt_toInt BitVec.ofInt_toInt BitVec.slt_iff_toInt_lt)
    (fun x y => ofInt_max (ofInt_toNat x) (ofInt_toNat y) ult_iff_toNat_lt_int) a b

/-- A one-source operation on exact signed integers, as an operation on the elements (R101). -/
theorem intOp_signed_eq {w : ElW} {op : Int → Int} {wide : Word → Word} {half : Half → Half}
    (h1 : ∀ x : Word, BitVec.ofInt 32 (op x.toInt) = wide x) (h2 : ∀ x : Half, BitVec.ofInt 16 (op x.toInt) = half x)
    (a b c : Word) :
    intOp (signedOf w) (fun _ x _ => op x) a b =
      perElement (signedOf w) (fun x _ => wide x) (fun x _ => wide x) (fun x _ => half x) (fun x _ => half x) a c := by
  cases w
  · exact h1 a
  · exact congrArg₂ (· ++ ·) (h2 _) (h2 _)

theorem intOp_abs (w : ElW) (a : Word) :
    intOp (signedOf w) (fun _ x _ => (x.natAbs : Int)) a a =
      perElement (signedOf w) (fun x _ => if x.msb then -x else x) (fun x _ => if x.msb then -x else x)
        (fun x _ => if x.msb then -x else x) (fun x _ => if x.msb then -x else x) a 0 :=
  intOp_signed_eq (op := fun x => (x.natAbs : Int)) ofInt_natAbs ofInt_natAbs a a 0

theorem intOp_neg (w : ElW) (a : Word) :
    intOp (signedOf w) (fun _ x _ => -x) a a =
      perElement (signedOf w) (fun x _ => -x) (fun x _ => -x) (fun x _ => -x) (fun x _ => -x) a 0 :=
  intOp_signed_eq ofInt_neg_toInt ofInt_neg_toInt a a 0

/-- The element type of a shift: its elements are read as unsigned (R104). -/
def unsignedOf : ElW → IntTy
  | .w32 => .n32
  | .w16 => .n16

/-- A shift of each element by the corresponding element (R104). -/
theorem shiftEl_eq_perElement {w : ElW} {op : (n : Nat) → BitVec n → Nat → BitVec n} {wide : Word → Word → Word}
    {half : Half → Half → Half} (h1 : ∀ x k : Word, op 32 x k.toNat = wide x k)
    (h2 : ∀ x k : Half, op 16 x k.toNat = half x k) (a b : Word) :
    shiftEl w op a b = perElement (unsignedOf w) wide wide half half a b := by
  cases w
  · exact h1 a b
  · exact congrArg₂ (· ++ ·) (h2 _ _) (h2 _ _)

theorem shlEl_eq {n : Nat} (x k : BitVec n) : shlEl n x k.toNat = x <<< k := by
  rw [shlEl, BitVec.shiftLeft_eq']
  split
  · rfl
  · exact (BitVec.shiftLeft_eq_zero (by omega)).symm

theorem shrEl_eq {n : Nat} (x k : BitVec n) : shrEl n x k.toNat = x >>> k := by
  rw [shrEl, BitVec.ushiftRight_eq']
  split
  · rfl
  · exact (BitVec.ushiftRight_eq_zero (by omega)).symm

/-- A signed shift by more than the width fills the word with the sign, as a shift by the width does. -/
theorem sshiftRight_min {n : Nat} (x : BitVec n) (k : Nat) : x.sshiftRight (min k n) = x.sshiftRight k := by
  rcases Nat.le_total k n with h | h
  · rw [Nat.min_eq_left h]
  · rw [Nat.min_eq_right h]
    apply BitVec.eq_of_getLsbD_eq
    intro i hi
    simp only [BitVec.getLsbD_sshiftRight, if_neg (show ¬n + i < n by omega), if_neg (show ¬k + i < n by omega)]

theorem sraEl_eq {n : Nat} (x k : BitVec n) : sraEl n x k.toNat = x.sshiftRight' k := by
  rw [sraEl, sshiftRight_min, BitVec.sshiftRight_eq']

/-! ### Counting bits -/

/-- A bit of a mask built from a test of each lane. -/
@[simp] theorem Mask.getLsbD_ofLanes (p : Nat → Bool) {k : Nat} (hk : k < 32) : (Mask.ofLanes p).getLsbD k = p k := by
  have sums (n : Nat) :
      let m := (List.range n).foldl (fun acc l => if p l then acc + 2 ^ l else acc) 0
      m < 2 ^ n ∧ ∀ k < n, m.testBit k = p k := by
    induction n with
    | zero => simp
    | succ n ih =>
      obtain ⟨hlt, hbits⟩ := ih
      rw [List.range_succ, List.foldl_append, List.foldl_cons, List.foldl_nil]
      set m := (List.range n).foldl (fun acc l => if p l then acc + 2 ^ l else acc) 0
      cases hp : p n
      · refine ⟨hlt.trans (Nat.pow_lt_pow_succ (by decide)), fun k hk => ?_⟩
        rcases Nat.lt_succ_iff_lt_or_eq.mp hk with h | rfl
        · exact hbits k h
        · rw [hp]; exact Nat.testBit_lt_two_pow hlt
      · refine ⟨by rw [if_pos rfl, pow_succ]; omega, fun k hk => ?_⟩
        rw [if_pos rfl, Nat.add_comm]
        rcases Nat.lt_succ_iff_lt_or_eq.mp hk with h | rfl
        · rw [Nat.testBit_two_pow_add_gt h, hbits k h]
        · rw [Nat.testBit_two_pow_add_eq, Nat.testBit_lt_two_pow hlt, hp]; rfl
  rw [Mask.ofLanes, BitVec.getLsbD_ofNat, lanes, (sums 32).2 k hk]
  simp [hk]

/-- How far a range runs before a test holds. -/
theorem length_takeWhile_range (p : Nat → Bool) (n : Nat) :
    ((List.range n).takeWhile fun k => !p k).length = ((List.range n).find? p).getD n := by
  rw [List.takeWhile_eq_take_findIdx_not, List.find?_eq_getElem?_findIdx]
  simp only [Bool.not_not, List.length_take, List.length_range]
  have hle : (List.range n).findIdx p ≤ n := by simpa using List.findIdx_le_length (xs := List.range n) (p := p)
  rcases hle.lt_or_eq with h | h
  · rw [List.getElem?_range h, Option.getD_some, Nat.min_eq_left hle]
  · rw [h, List.getElem?_eq_none (by simp), Option.getD_none, Nat.min_self]

theorem popCount_eq (x : Word) : popCount x = (List.range 32).countP fun k => x.getLsbD k :=
  List.countP_eq_length_filter.symm

theorem trailZeros_eq (x : Word) : trailZeros x = ((List.range 32).find? fun k => x.getLsbD k).getD 32 :=
  length_takeWhile_range _ 32

theorem getMsbD_word {x : Word} {k : Nat} (h : k < 32) : x.getMsbD k = x.getLsbD (31 - k) := by
  rw [BitVec.getMsbD_eq_getLsbD, decide_eq_true h, Bool.true_and]

theorem leadZeros_eq (x : Word) : leadZeros x = ((List.range 32).find? fun k => x.getMsbD k).getD 32 := by
  rw [leadZeros, lanes, length_takeWhile_range fun k => x.getLsbD (31 - k)]
  exact congrArg (Option.getD · 32)
    (List.find?_congr fun k hk => (getMsbD_word (List.mem_range.mp hk)).symm)

theorem bitReverse_eq (x : Word) : bitReverse x = x.reverse := by
  apply BitVec.eq_of_getLsbD_eq
  intro k hk
  rw [bitReverse, Mask.getLsbD_ofLanes _ hk, BitVec.getLsbD_reverse, getMsbD_word hk]

/-! ### The form of each instruction -/

section
variable (o : V2) (u : V1) (d : VCode) (t : IntTy) (w : ElW) (m : MoviTy) (imm : BitVec 16) (s : State)

theorem exec_iadd_eq : exec (.iadd o t) s = vec2 (.iadd o t) o (intOp t fun _ x y => x + y) (tagSum (intWide t)) s := rfl
theorem exec_isub_eq : exec (.isub o t) s = vec2 (.isub o t) o (intOp t fun _ x y => x - y) (tagSum (intWide t)) s := rfl
theorem exec_imul_eq : exec (.imul o t) s = vec2 (.imul o t) o (intOp t fun _ x y => x * y) (tagMul (intWide t)) s := rfl
theorem exec_imulh_eq : exec (.imulh o t) s = vec2 (.imulh o t) o (intOp t fun v x y => x * y / 2 ^ v) tagU s := rfl
theorem exec_imin_eq : exec (.imin o t) s = vec2 (.imin o t) o (intOp t fun _ x y => min x y) tagU s := rfl
theorem exec_imax_eq : exec (.imax o t) s = vec2 (.imax o t) o (intOp t fun _ x y => max x y) tagU s := rfl
theorem exec_and_eq : exec (.and o) s = vec2 (.and o) o (· &&& ·) tagU s := rfl
theorem exec_or_eq : exec (.or o) s = vec2 (.or o) o (· ||| ·) tagU s := rfl
theorem exec_xor_eq : exec (.xor o) s = vec2 (.xor o) o (· ^^^ ·) tagU s := rfl
theorem exec_shl_eq : exec (.shl o w) s = vec2 (.shl o w) o (shiftEl w shlEl) (tagShl (elWide w)) s := rfl
theorem exec_shr_eq : exec (.shr o w) s = vec2 (.shr o w) o (shiftEl w shrEl) tagU s := rfl
theorem exec_sra_eq : exec (.sra o w) s = vec2 (.sra o w) o (shiftEl w sraEl) tagU s := rfl
theorem exec_rot_eq : exec (.rot o w) s = vec2 (.rot o w) o (shiftEl w rotEl) tagU s := rfl
theorem exec_iabs_eq :
    exec (.iabs u w) s = vec1 (.iabs u w) u (fun a => intOp (signedOf w) (fun _ x _ => (x.natAbs : Int)) a a) tagU1 s := rfl
theorem exec_ineg_eq :
    exec (.ineg u w) s = vec1 (.ineg u w) u (fun a => intOp (signedOf w) (fun _ x _ => -x) a a) tagU1 s := rfl
theorem exec_not_eq : exec (.not u) s = vec1 (.not u) u (~~~ ·) tagU1 s := rfl
theorem exec_popc_eq : exec (.popc u) s = vec1 (.popc u) u (fun x => BitVec.ofNat 32 (popCount x)) tagU1 s := rfl
theorem exec_clz_eq : exec (.clz u) s = vec1 (.clz u) u (fun x => BitVec.ofNat 32 (leadZeros x)) tagU1 s := rfl
theorem exec_ctz_eq : exec (.ctz u) s = vec1 (.ctz u) u (fun x => BitVec.ofNat 32 (trailZeros x)) tagU1 s := rfl
theorem exec_brev_eq : exec (.brev u) s = vec1 (.brev u) u bitReverse tagU1 s := rfl
theorem exec_mov_eq : exec (.mov u) s = vec1 (.mov u) u (fun a => a) (fun t => t) s := rfl

/-- The 32 bits that MOVI writes (R108). -/
def moviWord (m : MoviTy) (imm : BitVec 16) (f : Focus) : Word :=
  match m with
  | .i32 => immInt f .i32 imm
  | .n32 => immInt f .n32 imm
  | .i16 => immInt f .i16 imm
  | .n16 => immInt f .n16 imm
  | .f32 => immFloat f .f32 imm
  | .f16 => immFloat f .f16 imm
  | .e4m3 => immFloat f .e4m3 imm

theorem exec_movi_eq :
    exec (.movi d m imm) s = vecImm (.movi d m imm) d (moviWord m imm) (fun _ x => x) (fun _ => .uniform) s := rfl
theorem exec_iaddi_eq : exec (.iaddi d t imm) s = vecImm (.iaddi d t imm) d (fun f => immInt f t imm)
    (intOp t fun _ x y => x + y) (fun a => tagSum (intWide t) a .uniform) s := rfl
theorem exec_imuli_eq : exec (.imuli d t imm) s = vecImm (.imuli d t imm) d (fun f => immInt f t imm)
    (intOp t fun _ x y => x * y) (fun a => tagMul (intWide t) a .uniform) s := rfl
theorem exec_andi_eq :
    exec (.andi d imm) s = vecImm (.andi d imm) d (fun f => immInt f .n32 imm) (· &&& ·) tagU1 s := rfl
theorem exec_ori_eq :
    exec (.ori d imm) s = vecImm (.ori d imm) d (fun f => immInt f .n32 imm) (· ||| ·) tagU1 s := rfl
theorem exec_xori_eq :
    exec (.xori d imm) s = vecImm (.xori d imm) d (fun f => immInt f .n32 imm) (· ^^^ ·) tagU1 s := rfl

end

/-! ### What an instruction of each form leaves -/

section
variable {i : Instr} {s : State} {f : Focus}

/-- A V-format instruction of two permuted sources, by any way to say its lane values and its tag (R97). -/
theorem exec_of_vec2 {o : V2} {op : Word → Word → Word} {tag : Tag → Tag → Tag} {vals : Nat → Word} {t : Tag}
    (he : exec i s = vec2 i o op tag s)
    (hv : ∀ l, op ((f.psrc (opndsOf i).isReader o.a o.pa).lane l) ((f.psrc (opndsOf i).isReader o.b o.pb).lane l) = vals l)
    (ht : tag (f.psrc (opndsOf i).isReader o.a o.pa).tag (f.psrc (opndsOf i).isReader o.b o.pb).tag = t)
    (h : Issues i s f) : exec i s = .next (s.afterAlu i f o.dst vals t 0) := by
  rw [he, vec2, issueAlu_of_issues h]
  simp only [hv, ht]

/-- A V-format instruction of one permuted source. -/
theorem exec_of_vec1 {o : V1} {op : Word → Word} {tag : Tag → Tag} {vals : Nat → Word} {t : Tag}
    (he : exec i s = vec1 i o op tag s)
    (hv : ∀ l, op ((f.psrc (opndsOf i).isReader o.a o.pa).lane l) = vals l)
    (ht : tag (f.psrc (opndsOf i).isReader o.a o.pa).tag = t) (h : Issues i s f) :
    exec i s = .next (s.afterAlu i f o.dst vals t 0) := by
  rw [he, vec1, issueAlu_of_issues h]
  simp only [hv, ht]

/-- An I-format instruction (R108). -/
theorem exec_of_vecImm {d : VCode} {imm : Focus → Word} {op : Word → Word → Word} {tag : Tag → Tag} {vals : Nat → Word}
    {t : Tag} {x : Word} (he : exec i s = vecImm i d imm op tag s) (hx : imm f = x)
    (hv : ∀ l, op ((f.cord.vreg d.toNat).lane l) x = vals l) (ht : tag (f.cord.vreg d.toNat).tag = t)
    (h : Issues i s f) : exec i s = .next (s.afterAlu i f (.reg d) vals t 0) := by
  rw [he, vecImm, issueAlu_of_issues h]
  simp only [hx, hv, ht]

end

theorem tagU1_eq (t : Tag) : tagU1 t = if t = .uniform then .uniform else .general := by simp [tagU1, tagU]

/-- The lane that SHFL reads, with the two conditions turned (R110). -/
theorem shflLane_eq (m : ShflMode) (k : Word) (l : Nat) :
    shflLane m k l = match m with
      | .idx => k.toNat % 32
      | .xor => l ^^^ (k.toNat % 32)
      | .up => if l < k.toNat then l else l - k.toNat
      | .down => if 31 < l + k.toNat then l else l + k.toNat := by
  cases m
  case up => simp only [shflLane]; split_ifs <;> omega
  case down => simp only [shflLane]; split_ifs <;> omega
  all_goals rfl

/-- Settles O3: each operation on exact integers or shift counts as one on words, element by element. -/
theorem integerTwoSourceComplete : Obligations.IntegerTwoSourceComplete := by
  unfold Obligations.IntegerTwoSourceComplete
  refine ⟨fun s f o t => ?_, fun s f o w m => ?_⟩
  · intro a b wide gives
    have hw : intWide t = wide := intWide_eq t
    exact ⟨exec_of_vec2 (exec_iadd_eq o t s) (fun _ => intOp_add t _ _) (hw ▸ rfl),
      exec_of_vec2 (exec_isub_eq o t s) (fun _ => intOp_sub t _ _) (hw ▸ rfl),
      exec_of_vec2 (exec_imul_eq o t s) (fun _ => intOp_mul t _ _) (hw ▸ rfl),
      exec_of_vec2 (exec_imulh_eq o t s) (fun _ => intOp_mulh t _ _) rfl,
      exec_of_vec2 (exec_imin_eq o t s) (fun _ => intOp_min t _ _) rfl,
      exec_of_vec2 (exec_imax_eq o t s) (fun _ => intOp_max t _ _) rfl⟩
  · intro a b gives el
    refine ⟨exec_of_vec2 (exec_and_eq o s) (fun _ => rfl) rfl, exec_of_vec2 (exec_or_eq o s) (fun _ => rfl) rfl,
      exec_of_vec2 (exec_xor_eq o s) (fun _ => rfl) rfl,
      exec_of_vec2 (exec_shl_eq o w s) (fun _ => shiftEl_eq_perElement shlEl_eq shlEl_eq _ _) (elWide_eq w ▸ rfl),
      exec_of_vec2 (exec_shr_eq o w s) (fun _ => shiftEl_eq_perElement shrEl_eq shrEl_eq _ _) rfl,
      exec_of_vec2 (exec_sra_eq o w s) (fun _ => shiftEl_eq_perElement sraEl_eq sraEl_eq _ _) rfl,
      exec_of_vec2 (exec_rot_eq o w s) (fun _ => shiftEl_eq_perElement (fun _ _ => rfl) (fun _ _ => rfl) _ _) rfl,
      fun h => issueAlu_of_issues h _ _, fun h => ?_⟩
    refine (issueAlu_of_issues h _ _).trans ?_
    simp only [shflLane_eq]
    rfl

/-! ### Immediates, SEL and ISET -/

/-- A predicate's bit, negated or not (R60, R106). -/
theorem getLsbD_negated (neg : Bool) (p : Mask) {l : Nat} (hl : l < 32) :
    (if neg then ~~~p else p).getLsbD l = (p.getLsbD l != neg) := by
  cases neg <;> simp [hl]

/-- The immediate of each integer form, with a HIMM and without (R55; log 72). -/
theorem immInt_eq (f : Focus) (t : IntTy) (imm : BitVec 16) :
    immInt f t imm = match (f.path.pfx.bind Prefix.himm), t with
      | some h, _ => h.extractLsb' 0 16 ++ imm
      | none, .i32 => imm.signExtend 32
      | none, .n32 => imm.zeroExtend 32
      | none, _ => imm ++ imm := by
  unfold immInt Focus.imm32
  cases f.path.pfx.bind Prefix.himm <;> cases t <;> rfl

theorem immInt_n32 (f : Focus) (imm : BitVec 16) :
    immInt f .n32 imm = match (f.path.pfx.bind Prefix.himm) with
      | some h => h.extractLsb' 0 16 ++ imm
      | none => imm.zeroExtend 32 := by
  unfold immInt Focus.imm32
  cases f.path.pfx.bind Prefix.himm <;> rfl

theorem immFloat_of_himm {f : Focus} {h : BitVec 21} (e : f.path.pfx.bind Prefix.himm = some h) (t : FImmTy)
    (imm : BitVec 16) : immFloat f t imm = h.extractLsb' 0 16 ++ imm := by
  unfold immFloat Focus.imm32
  rw [e]; rfl

theorem immFloat_of_none {f : Focus} (e : f.path.pfx.bind Prefix.himm = none) (t : FImmTy) (imm : BitVec 16) :
    immFloat f t imm = match t with | .f32 => imm ++ 0#16 | .f16 | .e4m3 => imm ++ imm := by
  unfold immFloat Focus.imm32
  rw [e]; rfl

/-- SEL leaves, in each lane, the source that the predicate's bit names (R106). -/
theorem exec_sel (s : State) (f : Focus) (d : Dst) (x y : VCode) (p : Perm) (q : BitVec 3) (neg : Bool) :
    ∃ tag, ∃ vals : Nat → Word,
      (Issues (.sel d x y p q neg) s f →
        exec (.sel d x y p q neg) s = .next (s.afterAlu (.sel d x y p q neg) f d vals tag 0)) ∧
      ∀ l < 32, vals l = if (f.cord.pred q.toNat).getLsbD l != neg
        then (f.psrc (opndsOf (.sel d x y p q neg)).isReader x p).lane l
        else (f.vsrc (opndsOf (.sel d x y p q neg)).isReader y).lane l := by
  refine ⟨_, _, fun h => issueAlu_of_issues h _ _, fun l hl => ?_⟩
  simp only [getLsbD_negated neg _ hl]

/-- MOVI's immediate in an integer form. -/
theorem moviWord_int {m : MoviTy} {t : IntTy}
    (h : (m, t) ∈ [(MoviTy.i32, IntTy.i32), (.n32, .n32), (.i16, .i16), (.n16, .n16)]) (imm : BitVec 16) (f : Focus) :
    moviWord m imm f = immInt f t imm := by
  simp only [List.mem_cons, List.not_mem_nil, or_false, Prod.mk.injEq] at h
  rcases h with ⟨rfl, rfl⟩ | ⟨rfl, rfl⟩ | ⟨rfl, rfl⟩ | ⟨rfl, rfl⟩ <;> rfl

/-- MOVI's immediate in a float form, under a HIMM. -/
theorem moviWord_float_of_himm {f : Focus} {h : BitVec 21} (e : f.path.pfx.bind Prefix.himm = some h) {m : MoviTy}
    (hm : m ∈ [MoviTy.f32, .f16, .e4m3]) (imm : BitVec 16) : moviWord m imm f = h.extractLsb' 0 16 ++ imm := by
  simp only [List.mem_cons, List.not_mem_nil, or_false] at hm
  rcases hm with rfl | rfl | rfl
  · exact immFloat_of_himm e .f32 imm
  · exact immFloat_of_himm e .f16 imm
  · exact immFloat_of_himm e .e4m3 imm

/-- Settles O4, instruction by instruction. -/
theorem integerUnaryAndImmediateComplete : Obligations.IntegerUnaryAndImmediateComplete := by
  unfold Obligations.IntegerUnaryAndImmediateComplete
  refine ⟨fun s f o w o3 d x y p q neg => ?_, fun s f d t imm => ?_⟩
  · intro a r3 gives el u
    have hu : tagU1 a.tag = u := tagU1_eq a.tag
    exact ⟨exec_of_vec1 (exec_iabs_eq o w s) (fun _ => intOp_abs w _) hu, exec_of_vec1 (exec_ineg_eq o w s) (fun _ => intOp_neg w _) hu,
      exec_of_vec1 (exec_not_eq o s) (fun _ => rfl) hu, exec_of_vec1 (exec_mov_eq o s) (fun _ => rfl) rfl,
      exec_of_vec1 (exec_popc_eq o s) (fun _ => congrArg (BitVec.ofNat 32) (popCount_eq _)) hu,
      exec_of_vec1 (exec_clz_eq o s) (fun _ => congrArg (BitVec.ofNat 32) (leadZeros_eq _)) hu,
      exec_of_vec1 (exec_ctz_eq o s) (fun _ => congrArg (BitVec.ofNat 32) (trailZeros_eq _)) hu,
      exec_of_vec1 (exec_brev_eq o s) (fun _ => bitReverse_eq _) hu, fun h => issueAlu_of_issues h _ _,
      fun h => issueAlu_of_issues h _ _, exec_sel s f d x y p q neg⟩
  · intro a x y wide u gives
    have hw : intWide t = wide := intWide_eq t
    have hu : tagU1 a.tag = u := tagU1_eq a.tag
    have hx : immInt f t imm = x := immInt_eq f t imm
    have hy : immInt f .n32 imm = y := immInt_n32 f imm
    have hmovi (m : MoviTy) {v : Word} (hv : moviWord m imm f = v) : gives (.movi d m imm) (fun _ => v) .uniform :=
      exec_of_vecImm (exec_movi_eq d m imm s) hv (fun _ => rfl) rfl
    exact ⟨fun m hm => hmovi m ((moviWord_int hm imm f).trans hx),
      fun hn => ⟨hmovi .f32 (immFloat_of_none hn .f32 imm), hmovi .f16 (immFloat_of_none hn .f16 imm),
        hmovi .e4m3 (immFloat_of_none hn .e4m3 imm)⟩,
      fun h hh m hm => hmovi m (moviWord_float_of_himm hh hm imm),
      exec_of_vecImm (exec_iaddi_eq d t imm s) hx (fun _ => intOp_add t _ x) (hw ▸ rfl),
      exec_of_vecImm (exec_imuli_eq d t imm s) hx (fun _ => intOp_mul t _ x) (hw ▸ rfl),
      exec_of_vecImm (exec_andi_eq d imm s) hy (fun _ => rfl) hu,
      exec_of_vecImm (exec_ori_eq d imm s) hy (fun _ => rfl) hu,
      exec_of_vecImm (exec_xori_eq d imm s) hy (fun _ => rfl) hu⟩

/-! ### Integer compares -/

/-- A condition on two words read as signed or as unsigned (R105). -/
def wordCond {n : Nat} (c : ICond) (signed : Bool) (x y : BitVec n) : Bool :=
  let lt (x y : BitVec n) : Bool := if signed then x.slt y else x.ult y
  match c with
  | .eq => x == y | .ne => x != y | .lt => lt x y | .le => !lt y x | .gt => lt y x | .ge => !lt x y

theorem intCond_eq_of {n : Nat} {c : ICond} {signed : Bool} {x y : BitVec n} {p q : Int} (he : p = q ↔ x = y)
    (hxy : (if signed then x.slt y else x.ult y) = decide (p < q))
    (hyx : (if signed then y.slt x else y.ult x) = decide (q < p)) : intCond c p q = wordCond c signed x y := by
  simp only [wordCond, hxy, hyx]
  cases c
  case eq => simp [intCond, he, beq_eq_decide]
  case ne => simp [intCond, he, bne, beq_eq_decide]
  all_goals simp only [intCond, ← decide_not, Int.not_lt]

theorem intCond_toInt {n : Nat} (c : ICond) (x y : BitVec n) : intCond c x.toInt y.toInt = wordCond c true x y :=
  intCond_eq_of BitVec.toInt_inj BitVec.slt_eq_decide BitVec.slt_eq_decide

theorem intCond_toNat {n : Nat} (c : ICond) (x y : BitVec n) : intCond c x.toNat y.toNat = wordCond c false x y :=
  intCond_eq_of (Int.natCast_inj.trans BitVec.toNat_inj) (by simp [BitVec.ult_eq_decide]) (by simp [BitVec.ult_eq_decide])

/-- The condition at an element type, on the words of a lane (R105). -/
theorem intHolds_eq (t : IntTy) (c : ICond) (a b : Word) :
    intHolds t c a b = match t with
      | .i32 => wordCond c true a b
      | .n32 => wordCond c false a b
      | .i16 => wordCond c true (a.extractLsb' 0 16) (b.extractLsb' 0 16) &&
          wordCond c true (a.extractLsb' 16 16) (b.extractLsb' 16 16)
      | .n16 => wordCond c false (a.extractLsb' 0 16) (b.extractLsb' 0 16) &&
          wordCond c false (a.extractLsb' 16 16) (b.extractLsb' 16 16) := by
  cases t <;> simp only [intHolds, intCond_toInt, intCond_toNat]

/-- Settles O5: the bits written are those of the condition on exact integers, lane by lane. -/
theorem integerCompareCompletes : Obligations.IntegerCompareCompletes := by
  unfold Obligations.IntegerCompareCompletes
  intro s f c o t h a b holds lane
  refine ⟨_, issueCmp_of_issues h o.p _, fun l hl => ?_⟩
  exact (Mask.getLsbD_ofLanes _ hl).trans (intHolds_eq t c (a.lane l) (b.lane l))

end Sys2Proof.Machine
end

section
/-! PROOFS. No path issues once a fault has ended its context (13_system.md R378): what the end of a context does leaves
the focus as it is. -/

namespace Sys2Proof.Machine

section
variable {s : State}

theorem State.foldl_focus {α : Type} {g : State → α → State} (h : ∀ u x, (g u x).focus = u.focus) (l : List α) :
    (l.foldl g s).focus = s.focus := by
  induction l generalizing s with
  | nil => rfl
  | cons x l ih => rw [List.foldl_cons, ih, h]

theorem State.ite_focus {c : Prop} [Decidable c] {t u : State} (ht : t.focus = s.focus) (hu : u.focus = s.focus) :
    (if c then t else u).focus = s.focus := by split <;> assumption

/-! Crews, bindings and work in flight. -/

@[simp] theorem State.acquireAt_focus (x : Scope) (sid c : Nat) (m : Mask) : (s.acquireAt x sid c m).focus = s.focus :=
  State.ite_focus rfl rfl

@[simp] theorem State.wakePath_focus (sid c : Nat) (b : Bool) (f : Mask → Cord → Cord) :
    (s.wakePath sid c b f).focus = s.focus := by
  unfold State.wakePath
  dsimp only
  split
  · exact State.acquireAt_focus _ _ _ _
  · rfl

@[simp] theorem State.crewComplete_focus (d g tract : Nat) (key : BitVec 16) :
    (s.crewComplete d g tract key).focus = s.focus := by
  unfold State.crewComplete
  split
  · rfl
  · exact State.ite_focus (State.foldl_focus (fun _ _ => State.wakePath_focus _ _ _ _) _) rfl

@[simp] theorem State.crewLeave_focus (d g tract : Nat) (key : BitVec 16) :
    (s.crewLeave d g tract key).focus = s.focus := State.crewComplete_focus _ _ _ _

@[simp] theorem State.modFlume_focus (q : Word) (f : Flume → Flume) : (s.modFlume q f).focus = s.focus :=
  State.ite_focus rfl rfl

@[simp] theorem State.unbind_focus (d e : Nat) : (s.unbind d e).focus = s.focus := by
  unfold State.unbind
  split
  · rfl
  · exact State.modFlume_focus _ _

@[simp] theorem State.dropDequeue_focus (id : Nat) : (s.dropDequeue id).focus = s.focus := by
  unfold State.dropDequeue
  split
  · exact State.modFlume_focus _ _
  · rfl

@[simp] theorem State.dropStandWork_focus (sid : Nat) : (s.dropStandWork sid).focus = s.focus :=
  State.foldl_focus (fun _ _ => State.dropDequeue_focus _) _

@[simp] theorem State.unpin_focus (d c slot : Nat) : (s.unpin d c slot).focus = s.focus := rfl

@[simp] theorem State.setFuture_focus (h : Nat) (m : Memory) : (s.setFuture h m).focus = s.focus := rfl

/-! Tile tasks. -/

@[simp] theorem State.unregisterTask_focus (d : Nat) (t : Task) : (s.unregisterTask d t).focus = s.focus :=
  State.foldl_focus (fun _ _ => State.setFuture_focus _ _) _

@[simp] theorem State.startTask_focus (d c : Nat) (r : Running) : (s.startTask d c r).focus = s.focus :=
  State.ite_focus rfl rfl

@[simp] theorem State.nextTask_focus (d c : Nat) : (s.nextTask d c).focus = s.focus := by
  unfold State.nextTask
  dsimp only
  split
  · exact State.startTask_focus _ _ _
  · rfl

@[simp] theorem State.dropTasks_focus (d c sid : Nat) : (s.dropTasks d c sid).focus = s.focus := by
  have drop (l : List Task) :
      (l.foldl (fun s t => (if t.pinned then s.unpin d c t.pin else s).unregisterTask d t) s).focus = s.focus :=
    State.foldl_focus (fun _ _ => (State.unregisterTask_focus _ _).trans (State.ite_focus (State.unpin_focus _ _ _) rfl)) l
  unfold State.dropTasks
  exact State.ite_focus ((State.nextTask_focus _ _).trans (drop _)) (drop _)

/-! Cords, stands and tracts. -/

@[simp] theorem State.forgetStruck_focus (st : Stand) : (s.forgetStruck st).focus = s.focus := State.ite_focus rfl rfl

@[simp] theorem State.releaseStand_focus (st : Stand) (ended : Bool) : (s.releaseStand st ended).focus = s.focus :=
  State.forgetStruck_focus st

@[simp] theorem State.releaseCord_focus (st : Stand) (c : Cord) : (s.releaseCord st c).focus = s.focus := by
  have unbinds (l : List (Option Nat)) :
      (l.foldl (fun s a => match a with | some e => s.unbind st.die e | none => s) s).focus = s.focus :=
    State.foldl_focus (fun _ a => by cases a <;> simp) l
  have leaves {u : State} (l : List (BitVec 16)) :
      (l.foldl (fun s k => (s.crewWithdraw st.die (st.core / 8) st.tract k st.sid c.id).crewLeave st.die (st.core / 8)
        st.tract k) u).focus = u.focus :=
    State.foldl_focus (fun u k => (State.crewLeave_focus _ _ _ _).trans (State.modGrove_focus _ _ _ _)) l
  exact (leaves _).trans (unbinds _)

@[simp] theorem State.killStand_focus (st : Stand) : (s.killStand st).focus = s.focus := by
  have cords {u : State} : (st.cords.foldl (fun s c => s.releaseCord st c) u).focus = u.focus :=
    State.foldl_focus (fun _ _ => State.releaseCord_focus _ _) _
  have pins {u : State} : (st.pins.foldl (fun s w => s.unpin st.die st.core w) u).focus = u.focus :=
    State.foldl_focus (fun _ _ => State.unpin_focus _ _ _) _
  have futures : (st.futuresWaited.foldl (fun s pa =>
      s.setFuture (hAddr st.die pa) (futureWithdraw s.hbm (hAddr st.die pa))) s).focus = s.focus :=
    State.foldl_focus (fun _ _ => State.setFuture_focus _ _) _
  calc (s.killStand st).focus
      = _ := State.releaseStand_focus _ _
    _ = _ := pins
    _ = _ := State.dropTasks_focus _ _ _
    _ = _ := cords
    _ = _ := State.dropStandWork_focus _
    _ = s.focus := futures

@[simp] theorem State.finishTracts_focus : s.finishTracts.focus = s.focus := by
  obtain ⟨n, ws, e, -⟩ := finishTracts_spec (s := s)
  rw [e]

/-- No path issues once a context has ended. -/
@[simp] theorem State.endContext_focus (d ctx : Nat) (code : BitVec 8) (e : Event) :
    (s.endContext d ctx code e).focus = none := by
  have stands {u : State} (l : List Stand) : (l.foldl State.killStand u).focus = u.focus :=
    State.foldl_focus (fun _ st => State.killStand_focus st) l
  have pins {u : State} (v : Saved) (l : List Nat) : (l.foldl (fun s w => s.unpin d v.core w) u).focus = u.focus :=
    State.foldl_focus (fun _ _ => State.unpin_focus _ _ _) l
  have saved {u : State} (l : List Saved) :
      (l.foldl (fun s v => ((v.pins ++ v.taskPins.map Prod.fst).foldl (fun s w => s.unpin d v.core w) s).dropStandWork v.sid)
        u).focus = u.focus :=
    State.foldl_focus (fun _ v => (State.dropStandWork_focus _).trans (pins v _)) l
  have unbinds {u : State} (l : List (Nat × Binding)) : (l.foldl (fun s b => s.unbind d b.1) u).focus = u.focus :=
    State.foldl_focus (fun _ _ => State.unbind_focus _ _) l
  have crews {u : State} (v : Saved) (l : List (BitVec 16)) :
      (l.foldl (fun s k => s.crewLeave d (v.core / 8) v.tract k) u).focus = u.focus :=
    State.foldl_focus (fun _ _ => State.crewLeave_focus _ _ _ _) l
  have left {u : State} (l : List Saved) :
      (l.foldl (fun s v =>
        let s := ((s.die d).bindings.filter fun b => b.2.sid = v.sid).foldl (fun s b => s.unbind d b.1) s
        v.crews.foldl (fun s k => s.crewLeave d (v.core / 8) v.tract k) s) u).focus = u.focus :=
    State.foldl_focus (fun _ v => (crews v _).trans (unbinds _)) l
  unfold State.endContext
  dsimp only
  rw [State.post_focus, State.finishTracts_focus]
  exact (left _).trans ((saved _).trans ((stands _).trans (State.unfocus_focus _)))

/-- A fault that is not recoverable ends its context: no path issues behind it. -/
theorem State.takeTrap_focus {f : Focus} {t : Trap} {imm : BitVec 16} {pc : Pc} (h : t.code.recoverable = false) :
    (s.takeTrap f t imm pc).focus = none := by
  simp only [State.takeTrap, h, Bool.false_eq_true, if_false]
  exact State.endContext_focus _ _ _ _

end

/-- What the decoder's checks raise is not recoverable (R39, R377). -/
theorem Opnds.check_not_recoverable {o : Opnds} {f : Focus} {c : TrapCode} (h : o.check f = some c) :
    c.recoverable = false := by
  rw [Opnds.check_eq] at h
  split_ifs at h <;> cases h <;> rfl

/-- An instruction that fails a check leaves no path issuing. -/
theorem State.faulted_focus_of_check {i : Instr} {s : State} {f : Focus} {c : TrapCode} (h : (opndsOf i).check f = some c) :
    (s.faulted i f { code := c }).focus = none :=
  State.takeTrap_focus (Opnds.check_not_recoverable h)

end Sys2Proof.Machine
end

section
/-! PROOFS. Shape tags (03_integer_scalar.md R82 to R86): what an exact tag says of the lanes, that the tag each ALU
instruction gives its result is exact, and where the result goes. -/

namespace Sys2Proof.Machine

/-! ### Lanes of registers -/

theorem getD_laneMap {f : Nat → Word} {l : Nat} (h : l < 32) : (laneMap f).getD l 0 = f l := by
  simp [laneMap, lanes, List.getD, h]

theorem VReg.lane_write {r : VReg} {m : Mask} {f : Nat → Word} {t : Tag} {l : Nat} (h : l < 32) :
    (r.write m f t).lane l = if m.getLsbD l then f l else r.lane l := by
  rw [VReg.lane, VReg.write, getD_laneMap h]

theorem latchOf_lane {fresh : Nat} {m : Mask} {vals : Nat → Word} {t : Tag} {l : Nat} (h : l < 32) :
    (latchOf fresh m vals t).lane l = if m.getLsbD l then vals l else Config.freeWord fresh l := by
  rw [VReg.lane, latchOf, getD_laneMap h]

theorem psrc_lane {f : Focus} {r : Bool} {c : VCode} {p : Perm} {l : Nat} (h : l < 32) :
    (f.psrc r c p).lane l = (f.vsrc r c).lane (permLane f.cord p l) := by
  rw [VReg.lane, Focus.psrc, getD_laneMap h]

theorem vreg_writeV_same {c : Cord} {n : Nat} (h : n < c.v.length) (m : Mask) (f : Nat → Word) (t : Tag) :
    (c.writeV n m f t).vreg n = (c.vreg n).write m f t := by
  simp [Cord.writeV, Cord.vreg, List.getD, h]

theorem vreg_writeV_other {c : Cord} {n k : Nat} (h : n ≠ k) (m : Mask) (f : Nat → Word) (t : Tag) :
    (c.writeV n m f t).vreg k = c.vreg k := by
  simp [Cord.writeV, Cord.vreg, List.getD, List.getElem?_set_ne h]

theorem eq_allOnes_iff {m : Mask} : m = BitVec.allOnes 32 ↔ ∀ l < 32, m.getLsbD l = true := by
  constructor
  · rintro rfl l hl; rw [BitVec.getLsbD_allOnes, decide_eq_true hl]
  · intro h
    apply BitVec.eq_of_getLsbD_eq
    intro l hl
    rw [h l hl, BitVec.getLsbD_allOnes, decide_eq_true hl]

/-! ### What an exact tag says of lane values -/

/-- The lanes 0 to 31 are as a tag says (R82). -/
def TagFits (t : Tag) (v : Nat → Word) : Prop :=
  match t with
  | .general => True
  | .uniform => ∀ l < 32, v l = v 0
  | .affine => ∃ d : Word, ∀ l < 32, v l = v 0 + BitVec.ofNat 32 l * d

theorem VReg.exact_iff (r : VReg) : r.Exact ↔ TagFits r.tag r.lane := Iff.rfl

section
variable {a b c v w : Nat → Word} {ta tb tc : Tag}

theorem TagFits.congr {t : Tag} (h : TagFits t v) (e : ∀ l < 32, w l = v l) : TagFits t w := by
  cases t
  case general => trivial
  case uniform =>
    intro l hl
    rw [e l hl, e 0 (by decide)]
    exact h l hl
  case affine =>
    obtain ⟨d, hd⟩ := h
    refine ⟨d, fun l hl => ?_⟩
    rw [e l hl, e 0 (by decide)]
    exact hd l hl

/-- Lanes that are not tagged general rise by one step, which is zero where they are uniform. -/
theorem TagFits.steps {t : Tag} (h : TagFits t v) (ht : t ≠ .general) :
    ∃ d : Word, (t = .uniform → d = 0) ∧ ∀ l < 32, v l = v 0 + BitVec.ofNat 32 l * d := by
  cases t
  case general => exact absurd rfl ht
  case uniform => exact ⟨0, fun _ => rfl, fun l hl => by rw [h l hl]; simp⟩
  case affine =>
    obtain ⟨d, hd⟩ := h
    exact ⟨d, nofun, hd⟩

/-- A result that is tagged uniform under a condition, and general otherwise. -/
theorem TagFits.uniform_if {p : Prop} [Decidable p] (h : p → ∀ l < 32, v l = v 0) :
    TagFits (if p then .uniform else .general) v := by
  by_cases hp : p
  · rw [if_pos hp]; exact h hp
  · rw [if_neg hp]; trivial

/-- An operation of uniform sources is uniform (R85). -/
theorem TagFits.map₂ (op : Word → Word → Word) (ha : TagFits ta a) (hb : TagFits tb b) :
    TagFits (tagU ta tb) fun l => op (a l) (b l) := by
  refine TagFits.uniform_if ?_
  rintro ⟨rfl, rfl⟩ l hl
  exact congrArg₂ op (ha l hl) (hb l hl)

theorem TagFits.map (op : Word → Word) (ha : TagFits ta a) : TagFits (tagU1 ta) fun l => op (a l) := by
  rw [tagU1_eq]
  refine TagFits.uniform_if ?_
  rintro rfl l hl
  exact congrArg op (ha l hl)

/-- A float result of uniform sources is uniform (R86). -/
theorem TagFits.tagF {ts : List Tag} (h : (∀ t ∈ ts, t = .uniform) → ∀ l < 32, v l = v 0) : TagFits (tagF ts) v :=
  TagFits.uniform_if fun hu => h (by simpa using hu)

/-! The three ways to a tag of R85's table. -/

theorem tagSum_cases (wide : Bool) (a b : Tag) :
    tagSum wide a b = .general ∨ (a = .uniform ∧ b = .uniform ∧ tagSum wide a b = .uniform) ∨
      (a ≠ .general ∧ b ≠ .general ∧ wide = true ∧ tagSum wide a b = .affine) := by
  cases a <;> cases b <;> cases wide <;> simp [tagSum]

theorem tagMul_cases (wide : Bool) (a b : Tag) :
    tagMul wide a b = .general ∨ (a = .uniform ∧ b = .uniform ∧ tagMul wide a b = .uniform) ∨
      (a ≠ .general ∧ b ≠ .general ∧ (a = .uniform ∨ b = .uniform) ∧ wide = true ∧ tagMul wide a b = .affine) := by
  cases a <;> cases b <;> cases wide <;> simp [tagMul]

theorem tagShl_cases (wide : Bool) (a b : Tag) :
    tagShl wide a b = .general ∨ (a = .uniform ∧ b = .uniform ∧ tagShl wide a b = .uniform) ∨
      (a = .affine ∧ b = .uniform ∧ wide = true ∧ tagShl wide a b = .affine) := by
  cases a <;> cases b <;> cases wide <;> simp [tagShl]

/-- Progressions add (R85). -/
theorem TagFits.add (ha : TagFits ta a) (hb : TagFits tb b) : TagFits (tagSum true ta tb) fun l => a l + b l := by
  obtain hg | ⟨rfl, rfl, hu⟩ | ⟨na, nb, -, hf⟩ := tagSum_cases true ta tb
  · rw [hg]; trivial
  · rw [hu]; intro l hl; exact congrArg₂ (· + ·) (ha l hl) (hb l hl)
  · rw [hf]
    obtain ⟨d, -, hd⟩ := ha.steps na
    obtain ⟨e, -, he⟩ := hb.steps nb
    refine ⟨d + e, fun l hl => ?_⟩
    dsimp only
    rw [hd l hl, he l hl]
    ring

theorem TagFits.neg (hb : TagFits tb b) : TagFits tb fun l => -b l := by
  cases tb
  case general => trivial
  case uniform => exact fun l hl => congrArg (- ·) (hb l hl)
  case affine =>
    obtain ⟨d, hd⟩ := hb
    refine ⟨-d, fun l hl => ?_⟩
    dsimp only
    rw [hd l hl]
    ring

theorem TagFits.sub (ha : TagFits ta a) (hb : TagFits tb b) : TagFits (tagSum true ta tb) fun l => a l - b l := by
  simpa only [sub_eq_add_neg] using ha.add hb.neg

/-- A progression times one value is a progression (R85). -/
theorem TagFits.mul (ha : TagFits ta a) (hb : TagFits tb b) : TagFits (tagMul true ta tb) fun l => a l * b l := by
  obtain hg | ⟨rfl, rfl, hu⟩ | ⟨na, nb, hone, -, hf⟩ := tagMul_cases true ta tb
  · rw [hg]; trivial
  · rw [hu]; intro l hl; exact congrArg₂ (· * ·) (ha l hl) (hb l hl)
  · rw [hf]
    obtain ⟨d, hd0, hd⟩ := ha.steps na
    obtain ⟨e, he0, he⟩ := hb.steps nb
    refine ⟨d * b 0 + a 0 * e, fun l hl => ?_⟩
    dsimp only
    rw [hd l hl, he l hl]
    rcases hone with h | h
    · rw [hd0 h]; ring
    · rw [he0 h]; ring

/-- A progression shifted left by one count is a progression (R85). -/
theorem TagFits.shl (ha : TagFits ta a) (hb : TagFits tb b) : TagFits (tagShl true ta tb) fun l => a l <<< b l := by
  obtain hg | ⟨rfl, rfl, hu⟩ | ⟨rfl, rfl, -, hf⟩ := tagShl_cases true ta tb
  · rw [hg]; trivial
  · rw [hu]; intro l hl; exact congrArg₂ (· <<< ·) (ha l hl) (hb l hl)
  · rw [hf]
    obtain ⟨d, hd⟩ := ha
    refine ⟨d <<< b 0, fun l hl => ?_⟩
    dsimp only
    rw [hb l hl, hd l hl]
    simp only [BitVec.shiftLeft_eq', BitVec.shiftLeft_eq_mul_twoPow]
    ring

/-- IMAD's product and its sum (R85). -/
theorem TagFits.mad (ha : TagFits ta a) (hb : TagFits tb b) (hc : TagFits tc c) :
    TagFits (tagMad ta tb tc) fun l => a l * b l + c l := (ha.mul hb).add hc

/-! A 16-bit type gives no affine tag. -/

theorem tagSum_narrow (a b : Tag) : tagSum false a b = tagU a b := by cases a <;> cases b <;> rfl
theorem tagMul_narrow (a b : Tag) : tagMul false a b = tagU a b := by cases a <;> cases b <;> rfl
theorem tagShl_narrow (a b : Tag) : tagShl false a b = tagU a b := by cases a <;> cases b <;> rfl

/-- An operation on the 32-bit elements of one of the two wide types. -/
theorem perElement_wide {t : IntTy} (h : intWide t = true) (op : Word → Word → Word) (half : Half → Half → Half) (x y : Word) :
    perElement t op op half half x y = op x y := by
  cases t
  case i32 | n32 => rfl
  all_goals exact absurd h (by decide)

theorem TagFits.intAdd (t : IntTy) (ha : TagFits ta a) (hb : TagFits tb b) :
    TagFits (tagSum (intWide t) ta tb) fun l => intOp t (fun _ x y => x + y) (a l) (b l) := by
  cases hw : intWide t
  · rw [tagSum_narrow]; exact ha.map₂ _ hb
  · exact (ha.add hb).congr fun l _ => (intOp_add t _ _).trans (perElement_wide hw _ _ _ _)

theorem TagFits.intSub (t : IntTy) (ha : TagFits ta a) (hb : TagFits tb b) :
    TagFits (tagSum (intWide t) ta tb) fun l => intOp t (fun _ x y => x - y) (a l) (b l) := by
  cases hw : intWide t
  · rw [tagSum_narrow]; exact ha.map₂ _ hb
  · exact (ha.sub hb).congr fun l _ => (intOp_sub t _ _).trans (perElement_wide hw _ _ _ _)

theorem TagFits.intMul (t : IntTy) (ha : TagFits ta a) (hb : TagFits tb b) :
    TagFits (tagMul (intWide t) ta tb) fun l => intOp t (fun _ x y => x * y) (a l) (b l) := by
  cases hw : intWide t
  · rw [tagMul_narrow]; exact ha.map₂ _ hb
  · exact (ha.mul hb).congr fun l _ => (intOp_mul t _ _).trans (perElement_wide hw _ _ _ _)

theorem TagFits.elShl (w : ElW) (ha : TagFits ta a) (hb : TagFits tb b) :
    TagFits (tagShl (elWide w) ta tb) fun l => shiftEl w shlEl (a l) (b l) := by
  cases w
  case w16 => exact (tagShl_narrow ta tb).symm ▸ ha.map₂ _ hb
  case w32 => exact (ha.shl hb).congr fun l _ => shlEl_eq (a l) (b l)

end

/-! ### Sources are exact where the registers and latches are -/

theorem VReg.zero_exact : VReg.zero.Exact := fun l _ => by rw [lane_zero, lane_zero]

section
variable {f : Focus} (hf : f.TagsExact)
include hf

theorem Focus.TagsExact.of_mem_v {r : VReg} (h : r ∈ f.cord.v) : r.Exact :=
  hf r (List.mem_append_left _ (List.mem_append_left _ h))

theorem Focus.TagsExact.of_mem_latch {r : VReg} (h : r ∈ f.cord.latch) : r.Exact :=
  hf r (List.mem_append_left _ (List.mem_append_right _ h))

theorem Focus.TagsExact.of_mem_saved {x : Nat × VReg} (h : x ∈ f.path.chain.saved) : x.2.Exact :=
  hf x.2 (List.mem_append_right _ (List.mem_map_of_mem h))

theorem Focus.TagsExact.vreg (n : Nat) : (f.cord.vreg n).Exact := by
  rcases Nat.lt_or_ge n f.cord.v.length with h | h
  · rw [Cord.vreg, List.getD_eq_getElem _ _ h]; exact hf.of_mem_v (List.getElem_mem h)
  · rw [Cord.vreg, List.getD_eq_default _ _ h]; exact VReg.zero_exact

theorem Focus.TagsExact.vsrc (reader : Bool) (c : VCode) : (f.vsrc reader c).Exact := by
  unfold Focus.vsrc
  split
  · rcases Nat.lt_or_ge (c.toNat - 60) f.cord.latch.length with h | h
    · rw [List.getD_eq_getElem _ _ h]; exact hf.of_mem_latch (List.getElem_mem h)
    · rw [List.getD_eq_default _ _ h]; exact VReg.zero_exact
  · split
    · next x hx =>
      cases reader
      · exact absurd hx nofun
      · exact hf.of_mem_saved (List.mem_of_find?_eq_some hx)
    · exact hf.vreg _

/-- A permuted source presents an exact tag (R84). -/
theorem Focus.TagsExact.psrc (reader : Bool) (c : VCode) (p : Perm) : (f.psrc reader c p).Exact := by
  have hv : TagFits (f.vsrc reader c).tag (f.vsrc reader c).lane := hf.vsrc reader c
  have hp (l : Nat) (hl : l < 32) : permLane f.cord p l < 32 := by
    cases p
    case ident => exact hl
    case bc => exact f.cord.prmB.isLt
    case rot => exact Nat.mod_lt _ (by decide)
    case bfly => exact Nat.xor_lt_two_pow (n := 5) hl f.cord.prmX.isLt
  refine TagFits.congr (v := fun l => (f.vsrc reader c).lane (permLane f.cord p l)) ?_ fun l hl => psrc_lane hl
  change TagFits (permTag p (f.vsrc reader c).tag) _
  cases ht : (f.vsrc reader c).tag
  case uniform =>
    rw [ht] at hv
    have all : ∀ l < 32, (f.vsrc reader c).lane (permLane f.cord p l) = (f.vsrc reader c).lane (permLane f.cord p 0) :=
      fun l hl => (hv _ (hp l hl)).trans (hv _ (hp 0 (by decide))).symm
    cases p <;> exact all
  all_goals
    rw [ht] at hv
    cases p
    case ident => exact hv
    case bc => exact fun _ _ => rfl
    case rot | bfly => trivial

end

end Sys2Proof.Machine
end

section
/-! PROOFS. Results and their tags (03_integer_scalar.md R85): a result whose tag fits its lanes is exact, and so is that
of each of the forms that ALU instructions share. -/

namespace Sys2Proof.Machine

/-! ### Results are exact where their tag fits their lanes -/

theorem latchOf_exact {vals : Nat → Word} {t : Tag} (fresh : Nat) (m : Mask) (h : TagFits t vals) :
    (latchOf fresh m vals t).Exact := by
  by_cases hm : m = BitVec.allOnes 32
  · rw [VReg.exact_iff, show (latchOf fresh m vals t).tag = t from if_pos hm]
    refine h.congr fun l hl => ?_
    rw [latchOf_lane hl, if_pos (eq_allOnes_iff.mp hm l hl)]
  · rw [VReg.exact_iff, show (latchOf fresh m vals t).tag = .general from if_neg hm]
    trivial

theorem VReg.write_exact {vals : Nat → Word} {t : Tag} (r : VReg) (m : Mask) (h : TagFits t vals) :
    (r.write m vals t).Exact := by
  by_cases hm : m = BitVec.allOnes 32
  · rw [VReg.exact_iff, show (r.write m vals t).tag = t from if_pos hm]
    refine h.congr fun l hl => ?_
    rw [VReg.lane_write hl, if_pos (eq_allOnes_iff.mp hm l hl)]
  · rw [VReg.exact_iff, show (r.write m vals t).tag = .general from if_neg hm]
    trivial

theorem Focus.tagsExact_iff (f : Focus) :
    f.TagsExact ↔ (∀ r ∈ f.cord.v, r.Exact) ∧ (∀ r ∈ f.cord.latch, r.Exact) ∧
      ∀ x ∈ f.path.chain.saved, x.2.Exact := by
  simp only [Focus.TagsExact, List.mem_append, List.mem_map, or_imp, forall_and, and_assoc, forall_exists_index, and_imp,
    forall_apply_eq_imp_iff₂]

/-- A chain remembers the registers it remembered, and the one its instruction writes (R50). -/
theorem mem_saved_chained {f : Focus} {reader : Bool} {k : Prev} {dst : Option Nat} {x : Nat × VReg}
    (h : x ∈ (f.chained reader k dst).saved) : x ∈ f.path.chain.saved ∨ ∃ d, x = (d, f.cord.vreg d) := by
  cases dst with
  | none =>
    cases reader
    · exact absurd h List.not_mem_nil
    · exact .inl h
  | some d =>
    cases reader
    · exact .inr ⟨d, List.mem_singleton.mp h⟩
    · change x ∈ f.path.chain.remember d (f.cord.vreg d) at h
      unfold Chain.remember at h
      split at h
      · exact .inl h
      · exact (List.mem_cons.mp h).elim (fun e => .inr ⟨d, e⟩) .inl

/-- The registers, latches and chain that an ALU result leaves are exact (R47, R86). -/
theorem Focus.TagsExact.aluResult {f : Focus} (hf : f.TagsExact) {vals : Nat → Word} {t : Tag} (h : TagFits t vals)
    (fresh : Nat) (reader : Bool) (dst : Dst) : (f.aluResult fresh reader dst vals t).TagsExact := by
  have hlatch : ∀ r ∈ (latchOf fresh f.active vals t :: f.cord.latch).take 4, r.Exact := by
    intro r hr
    rcases List.mem_cons.mp (List.mem_of_mem_take hr) with rfl | hr
    · exact latchOf_exact _ _ h
    · exact hf.of_mem_latch hr
  have hsaved (d : Option Nat) : ∀ x ∈ (f.chained reader .alu d).saved, x.2.Exact := by
    intro x hx
    rcases mem_saved_chained hx with hx | ⟨d, rfl⟩
    · exact hf.of_mem_saved hx
    · exact hf.vreg d
  refine (Focus.tagsExact_iff _).mpr ?_
  cases dst with
  | nw => exact ⟨fun r hr => hf.of_mem_v hr, hlatch, hsaved none⟩
  | reg d =>
    refine ⟨fun r hr => ?_, hlatch, hsaved (some d.toNat)⟩
    rcases List.mem_or_eq_of_mem_set hr with hr | rfl
    · exact hf.of_mem_v hr
    · exact VReg.write_exact _ _ h

/-- Whatever next state an outcome answers, the path in its focus has exact tags. -/
def AnswersExact (r : Host.Outcome State Fault Refusal) : Prop :=
  ∀ t g, r = .next t → t.focus = some g → g.TagsExact

section
variable {i : Instr} {s : State} {f : Focus}

theorem afterAlu_exact {r : Host.Outcome State Fault Refusal} {dst : Dst} {vals : Nat → Word} {t : Tag} {flags : BitVec 6}
    (hf : f.TagsExact) (h : TagFits t vals) (e : r = .next (s.afterAlu i f dst vals t flags)) : AnswersExact r := by
  intro u g hu hg
  obtain rfl : s.afterAlu i f dst vals t flags = u := Host.Outcome.next.inj (e.symm.trans hu)
  obtain rfl := Option.some.inj hg
  exact hf.aluResult h s.fresh (opndsOf i).isReader dst

variable (h : Issues i s f) (hf : f.TagsExact)
include h hf

theorem issueAlu_exact {dst : Dst} {g : Focus → (Nat → Word) × Tag × BitVec 6} (hg : TagFits (g f).2.1 (g f).1) :
    AnswersExact (issueAlu i dst s g) := afterAlu_exact hf hg (issueAlu_of_issues h dst g)

/-- An integer instruction of two permuted sources whose tag fits its lanes for all exact sources. -/
theorem vec2_exact {o : V2} {op : Word → Word → Word} {tag : Tag → Tag → Tag}
    (hop : ∀ {ta tb a b}, TagFits ta a → TagFits tb b → TagFits (tag ta tb) fun l => op (a l) (b l)) :
    AnswersExact (vec2 i o op tag s) :=
  issueAlu_exact h hf (hop (hf.psrc _ o.a o.pa) (hf.psrc _ o.b o.pb))

theorem vec1_exact {o : V1} {op : Word → Word} {tag : Tag → Tag}
    (hop : ∀ {ta a}, TagFits ta a → TagFits (tag ta) fun l => op (a l)) : AnswersExact (vec1 i o op tag s) :=
  issueAlu_exact h hf (hop (hf.psrc _ o.a o.pa))

theorem vecImm_exact {d : VCode} {imm : Focus → Word} {op : Word → Word → Word} {tag : Tag → Tag}
    (hop : ∀ {ta a} x, TagFits ta a → TagFits (tag ta) fun l => op (a l) x) : AnswersExact (vecImm i d imm op tag s) :=
  issueAlu_exact h hf (hop (imm f) (hf.vreg d.toNat))

/-- One whose result is uniform of uniform sources, and general otherwise (R85). -/
theorem vec2_uniform_exact {o : V2} {op : Word → Word → Word} : AnswersExact (vec2 i o op tagU s) :=
  vec2_exact h hf (TagFits.map₂ op)

theorem vec1_uniform_exact {o : V1} {op : Word → Word} : AnswersExact (vec1 i o op tagU1 s) :=
  vec1_exact h hf (TagFits.map op)

/-- A float instruction whose lanes are all alike where its sources are uniform (R86). -/
theorem issueFloat_exact {dst : Dst} {g : Focus → (Nat → Word × Flags) × Tag} {ts : List Tag}
    (ht : (g f).2 = tagF ts) (hg : (∀ t ∈ ts, t = .uniform) → ∀ l < 32, (g f).1 l = (g f).1 0) :
    AnswersExact (issueFloat i dst s g) := by
  refine issueAlu_exact h hf ?_
  change TagFits (g f).2 fun l => ((g f).1 l).1
  rw [ht]
  exact TagFits.tagF fun hu l hl => congrArg Prod.fst (hg hu l hl)

omit h in
/-- A permuted source that presents the uniform tag has one value in its lanes. -/
theorem Focus.TagsExact.psrc_uniform {r : Bool} {c : VCode} {p : Perm} (ht : (f.psrc r c p).tag = .uniform) {l : Nat}
    (hl : l < 32) : (f.psrc r c p).lane l = (f.psrc r c p).lane 0 := by
  have := hf.psrc r c p
  rw [VReg.exact_iff, ht] at this
  exact this l hl

omit h in
theorem Focus.TagsExact.vsrc_uniform {r : Bool} {c : VCode} (ht : (f.vsrc r c).tag = .uniform) {l : Nat} (hl : l < 32) :
    (f.vsrc r c).lane l = (f.vsrc r c).lane 0 := by
  have := hf.vsrc r c
  rw [VReg.exact_iff, ht] at this
  exact this l hl

omit h in
theorem Focus.TagsExact.vreg_uniform {n : Nat} (ht : (f.cord.vreg n).tag = .uniform) {l : Nat} (hl : l < 32) :
    (f.cord.vreg n).lane l = (f.cord.vreg n).lane 0 := by
  have := hf.vreg n
  rw [VReg.exact_iff, ht] at this
  exact this l hl

theorem float2_exact {o : V2} {k : FloatFmt} {op : Nat → Nat → Nat × Flags} : AnswersExact (float2 i o k op s) := by
  refine issueFloat_exact h hf rfl fun hu l hl => ?_
  dsimp only
  rw [hf.psrc_uniform (hu _ (by simp)) hl, hf.psrc_uniform (p := o.pb) (hu _ (by simp)) hl]

theorem float3_exact {o : F3} {op : Word → Word → Word → Num} : AnswersExact (float3 i o op s) := by
  refine issueFloat_exact h hf rfl fun hu l hl => ?_
  dsimp only
  rw [hf.vsrc_uniform (c := o.a) (hu _ (by simp)) hl, hf.vsrc_uniform (c := o.b) (hu _ (by simp)) hl,
    hf.vsrc_uniform (c := o.c) (hu _ (by simp)) hl]

theorem floatImm_exact {d : VCode} {t : FImmTy} {imm : BitVec 16} {op : Num → Num → Num} :
    AnswersExact (floatImm i d t imm op s) := by
  refine issueFloat_exact h hf rfl fun hu l hl => ?_
  dsimp only
  rw [hf.vreg_uniform (hu _ (by simp)) hl]

theorem float1_exact {o : V1} {op : Word → Word × Flags} : AnswersExact (float1 i o op s) := by
  refine issueFloat_exact h hf rfl fun hu l hl => ?_
  dsimp only
  rw [hf.psrc_uniform (hu _ (by simp)) hl]

end

/-! ### FCVT draws no number where it does not round stochastically (R116) -/

section
variable {r : Rnd} (hr : r ≠ .rs) (h h' : Nat)
include hr

theorem roundsUp_draw (neg : Bool) (t frac d : Nat) (sticky : Bool) :
    roundsUp r neg t frac d sticky h = roundsUp r neg t frac d sticky h' := by
  cases r
  case rs => exact absurd rfl hr
  all_goals rfl

theorem toFloat_draw (k : FloatFmt) (sat : Bool) (x : Num) : toFloat k r sat h x = toFloat k r sat h' x := by
  cases x with
  | nan _ | inf _ => rfl
  | num neg n e => simp only [toFloat, roundNum, roundsUp_draw hr h h']

theorem roundInt_draw (neg : Bool) (n : Nat) (e : Int) : roundInt r h neg n e = roundInt r h' neg n e := by
  simp only [roundInt, roundsUp_draw hr h h']

theorem toInteger_draw (lo hi : Int) (x : Num) : toInteger lo hi r h x = toInteger lo hi r h' x := by
  cases x with
  | nan _ | inf _ => rfl
  | num neg n e => rw [toInteger, roundInt_draw hr h h']; rfl

theorem fcvtLane_draw (df sf : Fmt) (sat : Bool) (a : Word) : fcvtLane df sf r sat h a = fcvtLane df sf r sat h' a := by
  cases df <;> simp only [fcvtLane, toFloat_draw hr h h', toInteger_draw hr h h']

end

end Sys2Proof.Machine
end

section
/-! PROOFS. The ALU instructions and their tags (03_integer_scalar.md R85, 04_float.md): the form of each float
instruction, and the answer of every ALU instruction is exact. -/

namespace Sys2Proof.Machine

/-! ### The form of each float instruction -/

section
variable (o : V2) (u : V1) (q : F3) (d : VCode) (t : FTy) (t3 : FTy3) (ti : FImmTy) (imm : BitVec 16) (s : State)

theorem exec_fadd_eq : exec (.fadd o t) s =
    float2 (.fadd o t) o (ftyFmt t) (arith (ftyFmt t) fun a b => sumNums [a, b]) s := rfl
theorem exec_fsub_eq : exec (.fsub o t) s =
    float2 (.fsub o t) o (ftyFmt t) (arith (ftyFmt t) fun a b => sumNums [a, b.neg]) s := rfl
theorem exec_fmul_eq : exec (.fmul o t) s = float2 (.fmul o t) o (ftyFmt t) (arith (ftyFmt t) Num.mul) s := rfl
theorem exec_fmin_eq : exec (.fmin o t) s = float2 (.fmin o t) o (ftyFmt t) (minMax (ftyFmt t) false) s := rfl
theorem exec_fmax_eq : exec (.fmax o t) s = float2 (.fmax o t) o (ftyFmt t) (minMax (ftyFmt t) true) s := rfl
theorem exec_ffma_eq : exec (.ffma q) s = float3 (.ffma q) q (fun a b c =>
    sumNums [(FloatFmt.f32.value a.toNat).mul (FloatFmt.f32.value b.toNat), FloatFmt.f32.value c.toNat]) s := rfl
theorem exec_dot2_eq : exec (.dot2 q) s = float3 (.dot2 q) q (fun a b c =>
    sumNums (((elems .bf16 a).zip (elems .bf16 b)).map (fun x =>
      (FloatFmt.bf16.value x.1).mul (FloatFmt.bf16.value x.2)) ++ [FloatFmt.f32.value c.toNat])) s := rfl
theorem exec_faddi_eq :
    exec (.faddi d ti imm) s = floatImm (.faddi d ti imm) d ti imm (fun a b => sumNums [a, b]) s := rfl
theorem exec_fmuli_eq : exec (.fmuli d ti imm) s = floatImm (.fmuli d ti imm) d ti imm Num.mul s := rfl
theorem exec_fabs_eq : exec (.fabs u t3) s = float1 (.fabs u t3) u (fun a => (a &&& ~~~(signBits t3), 0)) s := rfl
theorem exec_fneg_eq : exec (.fneg u t3) s = float1 (.fneg u t3) u (fun a => (a ^^^ signBits t3, 0)) s := rfl
theorem exec_funpk_eq (k : BitVec 6) : exec (.funpk u k) s = execFunpk u k s := rfl
theorem exec_fsqrt_eq : exec (.fsqrt u) s = unaryF32 (.fsqrt u) u sqrtF32 s := rfl
theorem exec_frsq_eq : exec (.frsq u) s = unaryF32 (.frsq u) u rsqF32 s := rfl
theorem exec_frcp_eq : exec (.frcp u) s = unaryF32 (.frcp u) u rcpF32 s := rfl
theorem exec_fexp2_eq : exec (.fexp2 u) s = unaryF32 (.fexp2 u) u exp2F32 s := rfl
theorem exec_flog2_eq : exec (.flog2 u) s = unaryF32 (.flog2 u) u log2F32 s := rfl
theorem exec_fsin_eq : exec (.fsin u) s = unaryF32 (.fsin u) u sinF32 s := rfl
theorem exec_fcos_eq : exec (.fcos u) s = unaryF32 (.fcos u) u cosF32 s := rfl
theorem exec_ftanh_eq : exec (.ftanh u) s = unaryF32 (.ftanh u) u tanhF32 s := rfl
theorem exec_ffloor_eq : exec (.ffloor u) s = unaryF32 (.ffloor u) u (integralF32 .rm) s := rfl
theorem exec_fceil_eq : exec (.fceil u) s = unaryF32 (.fceil u) u (integralF32 .rp) s := rfl
theorem exec_ftrunc_eq : exec (.ftrunc u) s = unaryF32 (.ftrunc u) u (integralF32 .rz) s := rfl
theorem exec_frint_eq : exec (.frint u) s = unaryF32 (.frint u) u (integralF32 .rne) s := rfl

end

section
variable {s : State} {f : Focus} (hf : f.TagsExact)
include hf

/-! ### The instructions of no common form -/

theorem imad_exact {o : F3} (h : Issues (.imad o) s f) : AnswersExact (exec (.imad o) s) :=
  issueAlu_exact h hf (TagFits.mad (hf.vsrc _ o.a) (hf.vsrc _ o.b) (hf.vsrc _ o.c))

theorem laneid_exact {d : Dst} (h : Issues (.laneid d) s f) : AnswersExact (exec (.laneid d) s) :=
  issueAlu_exact h hf ⟨1, fun l _ => by simp⟩

theorem affine_exact {o : V2} (h : Issues (.affine o) s f) : AnswersExact (exec (.affine o) s) := by
  refine issueAlu_exact h hf ?_
  dsimp only
  split
  · next hu =>
    obtain ⟨ha, hb⟩ := hu
    refine ⟨(f.psrc (opndsOf (.affine o)).isReader o.b o.pb).lane 0, fun l hl => ?_⟩
    dsimp only
    rw [hf.psrc_uniform ha hl, hf.psrc_uniform hb hl]
    simp
  · trivial

theorem shfl_exact {o : V2} {m : ShflMode} (h : Issues (.shfl o m) s f) : AnswersExact (exec (.shfl o m) s) := by
  have lane_lt (k : Word) {l : Nat} (hl : l < 32) : shflLane m k l < 32 := by
    cases m
    case idx => exact Nat.mod_lt _ (by decide)
    case xor => exact Nat.xor_lt_two_pow (n := 5) hl (Nat.mod_lt _ (by decide))
    all_goals
      simp only [shflLane]
      split <;> omega
  refine issueAlu_exact h hf (TagFits.uniform_if fun hu l hl => ?_)
  dsimp only
  rw [hf.psrc_uniform hu (lane_lt _ hl), hf.psrc_uniform hu (lane_lt _ (by decide))]

/-- The mask by which SEL chooses its first source (R106). -/
def selMask (f : Focus) (n : BitVec 3) (neg : Bool) : Mask :=
  if neg then ~~~(f.cord.pred n.toNat) else f.cord.pred n.toNat

theorem sel_exact {d : Dst} {a b : VCode} {p : Perm} {n : BitVec 3} {neg : Bool} (h : Issues (.sel d a b p n neg) s f) :
    AnswersExact (exec (.sel d a b p n neg) s) := by
  refine issueAlu_exact h hf ?_
  dsimp only
  change TagFits (if selMask f n neg = _ then _ else if selMask f n neg = 0 then _ else _) fun l =>
    if (selMask f n neg).getLsbD l then _ else _
  split
  · next hall => exact TagFits.congr (hf.psrc _ a p) fun l hl => if_pos (eq_allOnes_iff.mp hall l hl)
  · split
    · next hnone => exact TagFits.congr (hf.vsrc _ b) fun l _ => if_neg (by simp [hnone])
    · refine TagFits.uniform_if fun ⟨ha, hb, hab⟩ l hl => ?_
      rw [hf.psrc_uniform ha hl, hf.vsrc_uniform hb hl, hab, ite_self, ite_self]

theorem fscale_exact {o : V2} {t : FTy3} (h : Issues (.fscale o t) s f) : AnswersExact (exec (.fscale o t) s) := by
  refine issueFloat_exact h hf rfl fun hu l hl => ?_
  dsimp only
  rw [hf.psrc_uniform (p := o.pa) (hu _ (by simp)) hl, hf.psrc_uniform (p := o.pb) (hu _ (by simp)) hl]

theorem fpack_exact {o : V2} {t : PackTy} (h : Issues (.fpack o t) s f) : AnswersExact (exec (.fpack o t) s) := by
  refine issueFloat_exact h hf rfl fun hu l hl => ?_
  dsimp only
  rw [hf.psrc_uniform (p := o.pa) (hu _ (by simp)) hl, hf.psrc_uniform (p := o.pb) (hu _ (by simp)) hl]

omit hf in
theorem aluDone_eq (i : Instr) (dst : Dst) (s : State) (f : Focus) (r : (Nat → Word) × Tag × BitVec 6) :
    aluDone i dst s f r = .done (s.afterAlu i f dst r.1 r.2.1 r.2.2) := rfl

/-- FCVT under .rs tags its result general; every other mode draws nothing (R116). -/
theorem fcvt_exact {o : V1} {df sf : Fmt} {r : Rnd} {sat : Bool} (h : Issues (.fcvt o df sf r sat) s f) :
    AnswersExact (exec (.fcvt o df sf r sat) s) := by
  have he : exec (.fcvt o df sf r sat) s = execFcvt o df sf r sat s := rfl
  rw [he, execFcvt, issue_of_issues h]
  by_cases hr : r = .rs
  · subst hr
    simp only [if_true, aluDone_eq]
    have hf' : ({ f with cord := { f.cord with lfsr := lfsrStep f.cord.lfsr } } : Focus).TagsExact := hf
    exact afterAlu_exact (t := .general) hf' trivial rfl
  · simp only [if_neg hr, aluDone_eq]
    refine afterAlu_exact hf (TagFits.tagF fun hu l hl => ?_) rfl
    rw [hf.psrc_uniform (hu _ (by simp)) hl, fcvtLane_draw hr _ (rsDraw f.cord.lfsr 0 0)]

/-- Every ALU instruction that issues leaves exact tags (R82, R85, R86). -/
theorem exec_alu_exact {i : Instr} (hk : (opndsOf i).kind = .alu) (h : Issues i s f) : AnswersExact (exec i s) := by
  cases i
  case atom o => exact absurd ((aOpsOpnds_kind o).symm.trans hk) (by decide)
  case atoms o => exact absurd ((aOpsOpnds_kind o).symm.trans hk) (by decide)
  all_goals try exact nomatch (show AluKind.none = AluKind.alu from hk)
  case iset | fset => exact nomatch (show AluKind.compare = AluKind.alu from hk)
  case iadd o t => rw [exec_iadd_eq]; exact vec2_exact h hf (TagFits.intAdd t)
  case isub o t => rw [exec_isub_eq]; exact vec2_exact h hf (TagFits.intSub t)
  case imul o t => rw [exec_imul_eq]; exact vec2_exact h hf (TagFits.intMul t)
  case imulh o t => rw [exec_imulh_eq]; exact vec2_uniform_exact h hf
  case imin o t => rw [exec_imin_eq]; exact vec2_uniform_exact h hf
  case imax o t => rw [exec_imax_eq]; exact vec2_uniform_exact h hf
  case and o => rw [exec_and_eq]; exact vec2_uniform_exact h hf
  case or o => rw [exec_or_eq]; exact vec2_uniform_exact h hf
  case xor o => rw [exec_xor_eq]; exact vec2_uniform_exact h hf
  case shl o w => rw [exec_shl_eq]; exact vec2_exact h hf (TagFits.elShl w)
  case shr o w => rw [exec_shr_eq]; exact vec2_uniform_exact h hf
  case sra o w => rw [exec_sra_eq]; exact vec2_uniform_exact h hf
  case rot o w => rw [exec_rot_eq]; exact vec2_uniform_exact h hf
  case iabs o w => rw [exec_iabs_eq]; exact vec1_uniform_exact h hf
  case ineg o w => rw [exec_ineg_eq]; exact vec1_uniform_exact h hf
  case not o => rw [exec_not_eq]; exact vec1_uniform_exact h hf
  case popc o => rw [exec_popc_eq]; exact vec1_uniform_exact h hf
  case clz o => rw [exec_clz_eq]; exact vec1_uniform_exact h hf
  case ctz o => rw [exec_ctz_eq]; exact vec1_uniform_exact h hf
  case brev o => rw [exec_brev_eq]; exact vec1_uniform_exact h hf
  case mov o => rw [exec_mov_eq]; exact vec1_exact h hf id
  case movi d m imm => rw [exec_movi_eq]; exact vecImm_exact h hf fun _ _ _ _ => rfl
  case iaddi d t imm => rw [exec_iaddi_eq]; exact vecImm_exact h hf fun x ha => ha.intAdd t (b := fun _ => x) fun _ _ => rfl
  case imuli d t imm => rw [exec_imuli_eq]; exact vecImm_exact h hf fun x ha => ha.intMul t (b := fun _ => x) fun _ _ => rfl
  case andi d imm => rw [exec_andi_eq]; exact vecImm_exact h hf fun x => TagFits.map (· &&& x)
  case ori d imm => rw [exec_ori_eq]; exact vecImm_exact h hf fun x => TagFits.map (· ||| x)
  case xori d imm => rw [exec_xori_eq]; exact vecImm_exact h hf fun x => TagFits.map (· ^^^ x)
  case imad => exact imad_exact hf h
  case laneid => exact laneid_exact hf h
  case affine => exact affine_exact hf h
  case shfl => exact shfl_exact hf h
  case sel => exact sel_exact hf h
  case fadd => rw [exec_fadd_eq]; exact float2_exact h hf
  case fsub => rw [exec_fsub_eq]; exact float2_exact h hf
  case fmul => rw [exec_fmul_eq]; exact float2_exact h hf
  case fmin => rw [exec_fmin_eq]; exact float2_exact h hf
  case fmax => rw [exec_fmax_eq]; exact float2_exact h hf
  case ffma => rw [exec_ffma_eq]; exact float3_exact h hf
  case dot2 => rw [exec_dot2_eq]; exact float3_exact h hf
  case faddi => rw [exec_faddi_eq]; exact floatImm_exact h hf
  case fmuli => rw [exec_fmuli_eq]; exact floatImm_exact h hf
  case fabs => rw [exec_fabs_eq]; exact float1_exact h hf
  case fneg => rw [exec_fneg_eq]; exact float1_exact h hf
  case funpk => rw [exec_funpk_eq]; exact float1_exact h hf
  case fsqrt => rw [exec_fsqrt_eq]; exact float1_exact h hf
  case frsq => rw [exec_frsq_eq]; exact float1_exact h hf
  case frcp => rw [exec_frcp_eq]; exact float1_exact h hf
  case fexp2 => rw [exec_fexp2_eq]; exact float1_exact h hf
  case flog2 => rw [exec_flog2_eq]; exact float1_exact h hf
  case fsin => rw [exec_fsin_eq]; exact float1_exact h hf
  case fcos => rw [exec_fcos_eq]; exact float1_exact h hf
  case ftanh => rw [exec_ftanh_eq]; exact float1_exact h hf
  case ffloor => rw [exec_ffloor_eq]; exact float1_exact h hf
  case fceil => rw [exec_fceil_eq]; exact float1_exact h hf
  case ftrunc => rw [exec_ftrunc_eq]; exact float1_exact h hf
  case frint => rw [exec_frint_eq]; exact float1_exact h hf
  case fscale => exact fscale_exact hf h
  case fpack => exact fpack_exact hf h
  case fcvt => exact fcvt_exact hf h

end

end Sys2Proof.Machine
end

section
/-! PROOFS. Exactness under a step, and the table of R85 (03_integer_scalar.md R82 to R86). -/

namespace Sys2Proof.Machine

/-! ### Tags stay exact -/

/-- An ALU instruction is an instruction word. -/
theorem isStep_of_alu {i : Instr} (hk : (opndsOf i).kind = .alu) : i.isStep = false := by
  cases i
  all_goals try exact nomatch (show AluKind.none = AluKind.alu from hk)
  all_goals rfl

/-- An ALU instruction leaves exact tags whether it waits, issues or fails a check: then no path is in focus. -/
theorem exec_alu_keeps_exact {i : Instr} {s : State} {f : Focus} (hk : (opndsOf i).kind = .alu) (hs : s.focus = some f)
    (hf : f.TagsExact) : AnswersExact (exec i s) := by
  have hi := isStep_of_alu hk
  intro t g ht hg
  cases hm : (opndsOf i).marked f
  case true =>
    rw [exec_of_marked hi hs hm] at ht
    obtain rfl := Host.Outcome.next.inj ht
    obtain rfl := Option.some.inj (hs.symm.trans hg)
    exact hf
  case false =>
    cases hc : (opndsOf i).check f with
    | none => exact exec_alu_exact hf hk ⟨hs, hm, hc⟩ t g ht hg
    | some c =>
      rw [exec_of_check hi hs hm hc] at ht
      obtain rfl := Host.Outcome.next.inj ht
      rw [State.faulted_focus_of_check hc] at hg
      exact nomatch hg

/-! ### The table of R85 -/

section
variable {W : Tag → Prop} {a b c : Tag}

/-- The rows of IADD, ISUB and IADDI. -/
theorem tagSum_rows {t : IntTy} (h : W (tagSum (intWide t) a b)) :
    (a = .uniform → b = .uniform → W .uniform) ∧
    (.affine ∈ [a, b] → .general ∉ [a, b] →
      (t = .i32 ∨ t = .n32 → W .affine) ∧ (¬(t = .i32 ∨ t = .n32) → W .general)) ∧
    (.general ∈ [a, b] → W .general) := by
  rw [intWide_eq] at h
  refine ⟨?_, fun ha hg => ⟨fun ht => ?_, fun ht => ?_⟩, fun hg => ?_⟩
  · rintro rfl rfl; exact h
  · rw [decide_eq_true ht] at h
    cases a <;> cases b <;> simp_all [tagSum]
  · rw [decide_eq_false ht] at h
    cases a <;> cases b <;> simp_all [tagSum]
  · cases a <;> cases b <;> simp_all [tagSum]

/-- The rows of IMUL. -/
theorem tagMul_rows {t : IntTy} (h : W (tagMul (intWide t) a b)) :
    (a = .uniform → b = .uniform → W .uniform) ∧
    (.affine ∈ [a, b] → .uniform ∈ [a, b] →
      (t = .i32 ∨ t = .n32 → W .affine) ∧ (¬(t = .i32 ∨ t = .n32) → W .general)) ∧
    (a ≠ .uniform → b ≠ .uniform → W .general) ∧ (.general ∈ [a, b] → W .general) := by
  rw [intWide_eq] at h
  refine ⟨?_, fun ha hu => ⟨fun ht => ?_, fun ht => ?_⟩, fun ha hb => ?_, fun hg => ?_⟩
  · rintro rfl rfl; exact h
  · rw [decide_eq_true ht] at h
    cases a <;> cases b <;> simp_all [tagMul]
  · rw [decide_eq_false ht] at h
    cases a <;> cases b <;> simp_all [tagMul]
  · cases a <;> cases b <;> simp_all [tagMul]
  · cases a <;> cases b <;> simp_all [tagMul]

/-- The rows of SHL. -/
theorem tagShl_rows {w : ElW} (h : W (tagShl (elWide w) a b)) :
    (a = .uniform → b = .uniform → W .uniform) ∧
    (a = .affine → b = .uniform → (w = .w32 → W .affine) ∧ (w = .w16 → W .general)) ∧
    (b ≠ .uniform ∨ a = .general → W .general) := by
  refine ⟨?_, ?_, fun hg => ?_⟩
  · rintro rfl rfl; exact h
  · rintro rfl rfl
    exact ⟨fun hw => by subst hw; exact h, fun hw => by subst hw; exact h⟩
  · cases a <;> cases b <;> simp_all [tagShl]

/-- The rows of IMAD. -/
theorem tagMad_rows (h : W (tagMad a b c)) :
    (a = .uniform → b = .uniform → W c) ∧
    (.affine ∈ [a, b] → .uniform ∈ [a, b] → c ≠ .general → W .affine) ∧
    (a ≠ .uniform → b ≠ .uniform → W .general) ∧ (.general ∈ [a, b, c] → W .general) := by
  refine ⟨?_, fun ha hu hc => ?_, fun ha hb => ?_, fun hg => ?_⟩
  · rintro rfl rfl
    cases c <;> exact h
  all_goals cases a <;> cases b <;> cases c <;> simp_all [tagMad, tagMul, tagSum]

/-- Times one value and plus one value, a tag changes alike. -/
theorem tagMul_uniform (wide : Bool) (a : Tag) : tagMul wide a .uniform = tagSum wide a .uniform := by
  cases a <;> rfl

/-- The rows of IADDI and IMULI, by the tag of the register they change. -/
theorem tagImm_rows {t : IntTy} (h : W (tagSum (intWide t) a .uniform)) :
    (a = .uniform → W .uniform) ∧
    (a = .affine → (t = .i32 ∨ t = .n32 → W .affine) ∧ (¬(t = .i32 ∨ t = .n32) → W .general)) ∧
    (a = .general → W .general) := by
  obtain ⟨hu, ha, hg⟩ := tagSum_rows h
  exact ⟨fun e => hu e rfl, fun e => ha (by simp [e]) (by simp [e]), fun e => hg (by simp [e])⟩

end

/-! ### What an ALU instruction writes -/

/-- An instruction that issues leaves a register with a tag. -/
def WritesTag (s : State) (f : Focus) (d : VCode) (i : Instr) (t : Tag) : Prop :=
  Issues i s f → ∃ u g, exec i s = .next u ∧ u.focus = some g ∧ (g.cord.vreg d.toNat).tag = t

section
variable {i : Instr} {s : State} {f : Focus} {d : VCode} (hall : f.active = BitVec.allOnes 32)
  (hd : d.toNat < f.cord.v.length)
include hall hd

/-- With every lane active, the register written has the tag of the result (R86). -/
theorem writesTag_of_afterAlu {vals : Nat → Word} {t : Tag} {flags : BitVec 6}
    (he : Issues i s f → exec i s = .next (s.afterAlu i f (.reg d) vals t flags)) : WritesTag s f d i t := by
  intro h
  refine ⟨_, _, he h, rfl, ?_⟩
  refine (congrArg VReg.tag (vreg_writeV_same hd f.active vals t)).trans ?_
  exact if_pos hall

theorem writesTag_vec2 {o : V2} (ho : o.dst = .reg d) {op : Word → Word → Word} {tag : Tag → Tag → Tag}
    (he : exec i s = vec2 i o op tag s) :
    WritesTag s f d i (tag (f.psrc (opndsOf i).isReader o.a o.pa).tag (f.psrc (opndsOf i).isReader o.b o.pb).tag) :=
  writesTag_of_afterAlu hall hd fun h => ho ▸ exec_of_vec2 he (fun _ => rfl) rfl h

theorem writesTag_vec1 {o : V1} (ho : o.dst = .reg d) {op : Word → Word} {tag : Tag → Tag}
    (he : exec i s = vec1 i o op tag s) :
    WritesTag s f d i (tag (f.psrc (opndsOf i).isReader o.a o.pa).tag) :=
  writesTag_of_afterAlu hall hd fun h => ho ▸ exec_of_vec1 he (fun _ => rfl) rfl h

theorem writesTag_vecImm {imm : Focus → Word} {op : Word → Word → Word} {tag : Tag → Tag}
    (he : exec i s = vecImm i d imm op tag s) : WritesTag s f d i (tag (f.cord.vreg d.toNat).tag) :=
  writesTag_of_afterAlu hall hd fun h => exec_of_vecImm he rfl (fun _ => rfl) rfl h

/-- SEL's tag: of the one source that every lane takes, or uniform where both sources hold one value (R85). -/
theorem writesTag_sel (a b : VCode) (p : Perm) (n : BitVec 3) (neg : Bool) :
    let i : Instr := .sel (.reg d) a b p n neg
    let x := f.psrc (opndsOf i).isReader a p
    let y := f.vsrc (opndsOf i).isReader b
    let takes (l : Nat) : Bool := (f.cord.pred n.toNat).getLsbD l != neg
    ((∀ l < 32, takes l = true) → WritesTag s f d i x.tag) ∧ ((∀ l < 32, takes l = false) → WritesTag s f d i y.tag) ∧
    ((∃ l < 32, takes l = true) → (∃ l < 32, takes l = false) →
      (x.tag = .uniform → y.tag = .uniform → x.lane 0 = y.lane 0 → WritesTag s f d i .uniform) ∧
      (x.tag ≠ .uniform ∨ y.tag ≠ .uniform → WritesTag s f d i .general) ∧
      (x.lane 0 ≠ y.lane 0 → WritesTag s f d i .general)) := by
  intro i x y takes
  have bit (l : Nat) (hl : l < 32) : (selMask f n neg).getLsbD l = takes l := getLsbD_negated neg _ hl
  have hw : WritesTag s f d i (if selMask f n neg = BitVec.allOnes 32 then x.tag else if selMask f n neg = 0 then y.tag
      else if x.tag = .uniform ∧ y.tag = .uniform ∧ x.lane 0 = y.lane 0 then .uniform else .general) :=
    writesTag_of_afterAlu hall hd fun h => issueAlu_of_issues h (.reg d) _
  have all_iff : selMask f n neg = BitVec.allOnes 32 ↔ ∀ l < 32, takes l = true := by
    rw [eq_allOnes_iff]
    exact forall₂_congr fun l hl => by rw [bit l hl]
  have not_zero (h : ∃ l < 32, takes l = true) : selMask f n neg ≠ 0 := by
    rintro hz
    obtain ⟨l, hl, ht⟩ := h
    rw [← bit l hl, hz] at ht
    simp at ht
  refine ⟨fun h => ?_, fun h => ?_, fun ⟨k, hk, ht⟩ ⟨l, hl, hf⟩ => ?_⟩
  · rwa [if_pos (all_iff.mpr h)] at hw
  · have hz : selMask f n neg = 0 := by
      apply BitVec.eq_of_getLsbD_eq
      intro l hl
      rw [bit l hl, h l hl]
      simp
    rwa [if_neg (by rw [hz]; decide), if_pos hz] at hw
  · rw [if_neg fun hall => by simp [all_iff.mp hall l hl] at hf, if_neg (not_zero ⟨k, hk, ht⟩)] at hw
    refine ⟨fun hx hy hxy => ?_, fun h => ?_, fun h => ?_⟩
    · rwa [if_pos ⟨hx, hy, hxy⟩] at hw
    · rwa [if_neg fun hh => h.elim (· hh.1) (· hh.2.1)] at hw
    · rwa [if_neg fun hh => h hh.2.2] at hw

end

end Sys2Proof.Machine
end

section
/-! PROOFS. The active lanes of an ALU instruction's result, and O60 (03_integer_scalar.md R47, R86, R97). -/

namespace Sys2Proof.Machine

/-! ### Where a result goes -/

/-- The lane of a path is active where its mask and the predicate of its hint say so (R6, R60). -/
theorem getLsbD_active (f : Focus) {l : Nat} (hl : l < 32) :
    f.active.getLsbD l = (f.path.mask.getLsbD l && match f.path.pfx.bind Prefix.hpred with
      | some (neg, p) => (f.cord.pred p.toNat).getLsbD l != neg
      | none => true) := by
  unfold Focus.active
  cases f.path.pfx.bind Prefix.hpred with
  | none => simp
  | some x =>
    obtain ⟨neg, p⟩ := x
    rw [BitVec.getLsbD_and, getLsbD_negated neg _ hl]

section
variable (f : Focus) (fresh : Nat) (reader : Bool) (dst : Dst) (vals : Nat → Word) (t : Tag)

/-- The latches shift, and the result enters the first (R47). -/
theorem aluResult_latch : (f.aluResult fresh reader dst vals t).cord.latch =
    (latchOf fresh f.active vals t :: f.cord.latch).take 4 := by cases dst <;> rfl

/-- The registers a result does not name stay as they are (R51, R86). -/
theorem aluResult_vreg_other {n : Nat} (h : ∀ d ∈ dstRegs dst, d.toNat ≠ n) :
    (f.aluResult fresh reader dst vals t).cord.vreg n = f.cord.vreg n := by
  cases dst with
  | nw => rfl
  | reg d => exact vreg_writeV_other (h d (List.mem_singleton.mpr rfl)) _ _ _

/-- The register it names is written in the active lanes (R86). -/
theorem aluResult_vreg {d : VCode} (h : d ∈ dstRegs dst) (hd : d.toNat < f.cord.v.length) :
    (f.aluResult fresh reader dst vals t).cord.vreg d.toNat = (f.cord.vreg d.toNat).write f.active vals t := by
  cases dst with
  | nw => exact absurd h List.not_mem_nil
  | reg e =>
    obtain rfl := List.mem_singleton.mp h
    exact vreg_writeV_same hd _ _ _

end

/-- An ALU instruction that issues is a result of some lane values and tag, in the register of its d field; beside it
only flags and the LFSR change (R47, R51, R116, R119). -/
theorem exec_alu_result {i : Instr} {s : State} {f : Focus} (hk : (opndsOf i).kind = .alu) (h : Issues i s f) :
    ∃ dst vals t flags lfsr, dstRegs dst = (opndsOf i).v ∧
      let r := f.aluResult s.fresh (opndsOf i).isReader dst vals t
      exec i s = .next { s with fresh := s.fresh + 1, focus := some { r with cord :=
        { r.cord with fpstat := flags, lfsr := lfsr } } } := by
  obtain ⟨dst, vals, t, flags, lfsr, hv, he⟩ := exec_alu hk h
  refine ⟨dst, vals, t, f.cord.fpstat ||| flags, lfsr, hv, he.trans ?_⟩
  cases dst <;> rfl

/-- A register that an issuing instruction writes lies below the budget (R42). -/
theorem Issues.lt_budget {i : Instr} {s : State} {f : Focus} (h : Issues i s f) {d : VCode} (hd : d ∈ (opndsOf i).v) :
    d.toNat < f.cord.budget := by
  obtain ⟨-, -, hc⟩ := h
  by_contra hge
  rw [Opnds.check_eq, if_pos (Bool.eq_false_iff.mpr (Opnds.not_codesOk_of_v hd (Nat.le_of_not_lt hge)))] at hc
  exact nomatch hc

/-- Settles O60: the tags by the exactness of each result, the table by the tag of each result, and the rest by where a
result goes. -/
theorem tagsStayExact : Obligations.TagsStayExact := by
  unfold Obligations.TagsStayExact
  refine ⟨fun i s t f g hk hs hf ht hg => exec_alu_keeps_exact hk hs hf t g ht hg, ?_, ?_⟩
  · intro s f d o o1 o3 t w m imm hall hd ho ho1 ho3 writes a b x y z wide some_
    have hadd : writes (.iadd o t) (tagSum (intWide t) a b) := writesTag_vec2 hall hd ho (exec_iadd_eq o t s)
    have hsub : writes (.isub o t) (tagSum (intWide t) a b) := writesTag_vec2 hall hd ho (exec_isub_eq o t s)
    have hmul : writes (.imul o t) (tagMul (intWide t) a b) := writesTag_vec2 hall hd ho (exec_imul_eq o t s)
    have hshl : writes (.shl o w) (tagShl (elWide w) a b) := writesTag_vec2 hall hd ho (exec_shl_eq o w s)
    have haddi : writes (.iaddi d t imm) (tagSum (intWide t) z .uniform) :=
      writesTag_vecImm hall hd (exec_iaddi_eq d t imm s)
    have hmuli : writes (.imuli d t imm) (tagSum (intWide t) z .uniform) :=
      tagMul_uniform (intWide t) z ▸ writesTag_vecImm hall hd (exec_imuli_eq d t imm s)
    have hmad : writes (.imad o3) (tagMad (y o3.a) (y o3.b) (y o3.c)) :=
      writesTag_of_afterAlu hall hd fun h => by rw [← ho3]; exact issueAlu_of_issues h o3.dst _
    have haffine : writes (.affine o) (if a = .uniform ∧ b = .uniform then .affine else .general) :=
      writesTag_of_afterAlu hall hd fun h => by rw [← ho]; exact issueAlu_of_issues h o.dst _
    have hshfl : writes (.shfl o m) (if a = .uniform then .uniform else .general) :=
      writesTag_of_afterAlu hall hd fun h => by rw [← ho]; exact issueAlu_of_issues h o.dst _
    have hlaneid : writes (.laneid (.reg d)) .affine :=
      writesTag_of_afterAlu hall hd fun h => issueAlu_of_issues h (.reg d) _
    obtain ⟨sumU, sumA, sumG⟩ := tagSum_rows (W := fun τ => writes (.iadd o t) τ ∧ writes (.isub o t) τ) ⟨hadd, hsub⟩
    obtain ⟨immU, immA, immG⟩ :=
      tagImm_rows (W := fun τ => writes (.iaddi d t imm) τ ∧ writes (.imuli d t imm) τ) ⟨haddi, hmuli⟩
    obtain ⟨mulU, mulA, mulNone, mulG⟩ := tagMul_rows hmul
    obtain ⟨shlU, shlA, shlG⟩ := tagShl_rows hshl
    obtain ⟨madU, madA, madNone, madG⟩ := tagMad_rows hmad
    refine ⟨sumU, sumA, sumG, immU, immA, immG, mulU, mulA, mulNone, mulG, shlU, shlA, shlG, madU, madA, madNone, madG,
      writesTag_vec1 hall hd ho1 (exec_mov_eq o1 s), fun k => writesTag_vecImm hall hd (exec_movi_eq d k imm s), hlaneid,
      haffine, hshfl, ?_, ?_, ?_, writesTag_sel hall hd⟩
    · simp only [List.forall_mem_cons, List.not_mem_nil, false_imp_iff, implies_true, and_true]
      exact ⟨writesTag_vec2 hall hd ho (exec_imulh_eq o t s), writesTag_vec2 hall hd ho (exec_imin_eq o t s),
        writesTag_vec2 hall hd ho (exec_imax_eq o t s), writesTag_vec2 hall hd ho (exec_and_eq o s),
        writesTag_vec2 hall hd ho (exec_or_eq o s), writesTag_vec2 hall hd ho (exec_xor_eq o s),
        writesTag_vec2 hall hd ho (exec_shr_eq o w s), writesTag_vec2 hall hd ho (exec_sra_eq o w s),
        writesTag_vec2 hall hd ho (exec_rot_eq o w s)⟩
    · rw [← tagU1_eq x]
      simp only [List.forall_mem_cons, List.not_mem_nil, false_imp_iff, implies_true, and_true]
      exact ⟨writesTag_vec1 hall hd ho1 (exec_iabs_eq o1 w s), writesTag_vec1 hall hd ho1 (exec_ineg_eq o1 w s),
        writesTag_vec1 hall hd ho1 (exec_not_eq o1 s), writesTag_vec1 hall hd ho1 (exec_popc_eq o1 s),
        writesTag_vec1 hall hd ho1 (exec_clz_eq o1 s), writesTag_vec1 hall hd ho1 (exec_ctz_eq o1 s),
        writesTag_vec1 hall hd ho1 (exec_brev_eq o1 s)⟩
    · rw [← tagU1_eq z]
      simp only [List.forall_mem_cons, List.not_mem_nil, false_imp_iff, implies_true, and_true]
      exact ⟨writesTag_vecImm hall hd (exec_andi_eq d imm s), writesTag_vecImm hall hd (exec_ori_eq d imm s),
        writesTag_vecImm hall hd (exec_xori_eq d imm s)⟩
  · intro i s f hk h hlatch hlen hbudget on
    obtain ⟨dst, vals, t, flags, lfsr, hv, he⟩ := exec_alu_result hk h
    have hon (l : Nat) (hl : l < 32) : f.active.getLsbD l = on l := getLsbD_active f hl
    refine ⟨_, _, he, rfl, fun k hk => ?_, fun n _ hn => ?_, fun d hd b0 hb0 => ?_, by cases dst <;> rfl,
      by cases dst <;> rfl, by cases dst <;> rfl⟩
    · change (f.aluResult s.fresh (opndsOf i).isReader dst vals t).cord.latch[k + 1]? = _
      rw [aluResult_latch, List.getElem?_take_of_lt (by omega), List.getElem?_cons_succ]
    · exact aluResult_vreg_other f _ _ dst vals t (hv ▸ hn)
    · obtain rfl : latchOf s.fresh f.active vals t = b0 := by
        change (f.aluResult s.fresh (opndsOf i).isReader dst vals t).cord.latch[0]? = _ at hb0
        rw [aluResult_latch] at hb0
        exact Option.some.inj hb0
      have hreg := aluResult_vreg f s.fresh (opndsOf i).isReader dst vals t (hv ▸ hd)
        (by have := h.lt_budget hd; omega)
      change (∀ l < 32, ((f.aluResult s.fresh (opndsOf i).isReader dst vals t).cord.vreg d.toNat).lane l = _) ∧
        ((∀ l < 32, on l = true) → ((f.aluResult s.fresh (opndsOf i).isReader dst vals t).cord.vreg d.toNat).tag = _) ∧
        ((∃ l < 32, on l = false) → ((f.aluResult s.fresh (opndsOf i).isReader dst vals t).cord.vreg d.toNat).tag = _)
      rw [hreg]
      refine ⟨fun l hl => ?_, fun hall => ?_, fun ⟨l, hl, hoff⟩ => ?_⟩
      · rw [VReg.lane_write hl, hon l hl]
        cases ho : on l
        · rfl
        · rw [latchOf_lane hl, if_pos ((hon l hl).trans ho)]
      · rfl
      · exact if_neg fun hfull => by simp [eq_allOnes_iff.mp hfull l hl, ← hon l hl] at hoff

end Sys2Proof.Machine
end

section
/-! PROOFS. Scalar instructions (03_integer_scalar.md R90, R93 to R96): each operation of R93's table as one on words,
then the register forms, the immediate forms and the moves. -/

namespace Sys2Proof.Machine

/-! ### The operations of R93's table -/

theorem mulhD_eq (a b : DWord) : mulhD a b = (a.signExtend 128 * b.signExtend 128).extractLsb' 64 64 :=
  signedHigh_eq (by decide) a b

theorem mulhuD_eq (a b : DWord) : mulhuD a b = (a.zeroExtend 128 * b.zeroExtend 128).extractLsb' 64 64 := by
  rw [← unsignedHigh_eq (by decide), mulhuD, ← BitVec.ofInt_natCast]
  push_cast
  rfl

theorem shlD_eq (a b : DWord) : shlD a b = a <<< b := shlEl_eq a b
theorem shrD_eq (a b : DWord) : shrD a b = a >>> b := shrEl_eq a b
theorem sraD_eq (a b : DWord) : sraD a b = a.sshiftRight' b := sraEl_eq a b

theorem minD_eq (a b : DWord) : minD a b = if b.slt a then b else a := by
  simp only [minD, BitVec.slt_iff_toInt_lt, ← Int.not_lt, ite_not]

theorem maxD_eq (a b : DWord) : maxD a b = if b.slt a then a else b := by
  simp only [maxD, BitVec.slt_iff_toInt_lt, ← Int.not_lt, ite_not]

theorem minuD_eq (a b : DWord) : minuD a b = if b.ult a then b else a := by
  simp only [minuD, BitVec.ult_iff_toNat_lt, ← Nat.not_lt, ite_not]

theorem sltD_eq (a b : DWord) : sltD a b = if a.slt b then 1 else 0 := by
  simp only [sltD, BitVec.slt_iff_toInt_lt]

theorem sltuD_eq (a b : DWord) : sltuD a b = if a.ult b then 1 else 0 := by
  simp only [sltuD, BitVec.ult_iff_toNat_lt]

/-- A scalar immediate, sign-extended or not (R55). -/
theorem immScalar_eq (f : Focus) (signed : Bool) (imm : BitVec 16) :
    immScalar f signed imm =
      if signed then ((f.imm32 imm).map fun x => x.signExtend 64).getD (imm.signExtend 64)
      else ((f.imm32 imm).map fun x => x.zeroExtend 64).getD (imm.zeroExtend 64) := by
  unfold immScalar
  cases f.imm32 imm <;> cases signed <;> rfl

/-- A mask of 16 ones. -/
theorem getLsbD_ones16 (k : Nat) : (0xFFFF : DWord).getLsbD k = decide (k < 16) := by
  rw [show (0xFFFF : DWord) = (BitVec.allOnes 16).zeroExtend 64 from rfl, BitVec.getLsbD_setWidth, BitVec.getLsbD_allOnes]
  by_cases h : k < 16
  · simp [h, show k < 64 by omega]
  · simp [h]

/-- A halfword put into a register replaces that halfword alone (R95). -/
theorem extractLsb'_putHalf (a : DWord) (imm : BitVec 16) {h k : Nat} (hk : k < 4) :
    ((a &&& ~~~((0xFFFF : DWord) <<< (16 * h))) ||| (imm.zeroExtend 64 <<< (16 * h))).extractLsb' (16 * k) 16 =
      if k = h then imm else a.extractLsb' (16 * k) 16 := by
  apply BitVec.eq_of_getLsbD_eq
  intro j hj
  have hp : 16 * k + j < 64 := by omega
  simp only [BitVec.getLsbD_extractLsb', BitVec.getLsbD_or, BitVec.getLsbD_and, BitVec.getLsbD_not, BitVec.getLsbD_shiftLeft,
    BitVec.getLsbD_setWidth, getLsbD_ones16, hj, hp, decide_true, Bool.true_and]
  rcases Nat.lt_trichotomy k h with hkh | rfl | hkh
  · simp [show k ≠ h by omega, show 16 * k + j < 16 * h by omega, hj]
  · simp [hj, show j < 64 by omega]
  · have hout : 16 ≤ 16 * k + j - 16 * h := by omega
    simp [show k ≠ h by omega, show ¬16 * k + j < 16 * h by omega, show ¬16 * k + j - 16 * h < 16 by omega, hj,
      BitVec.getLsbD_of_ge _ _ hout]

/-! ### The form of each instruction -/

section
variable (o : S3) (d : SCode) (imm : BitVec 16) (s : State)

theorem exec_sadd_eq : exec (.sadd o) s = scalarOp (.sadd o) o (· + ·) s := rfl
theorem exec_ssub_eq : exec (.ssub o) s = scalarOp (.ssub o) o (· - ·) s := rfl
theorem exec_smul_eq : exec (.smul o) s = scalarOp (.smul o) o (· * ·) s := rfl
theorem exec_smulh_eq : exec (.smulh o) s = scalarOp (.smulh o) o mulhD s := rfl
theorem exec_smulhu_eq : exec (.smulhu o) s = scalarOp (.smulhu o) o mulhuD s := rfl
theorem exec_sand_eq : exec (.sand o) s = scalarOp (.sand o) o (· &&& ·) s := rfl
theorem exec_sor_eq : exec (.sor o) s = scalarOp (.sor o) o (· ||| ·) s := rfl
theorem exec_sxor_eq : exec (.sxor o) s = scalarOp (.sxor o) o (· ^^^ ·) s := rfl
theorem exec_sshl_eq : exec (.sshl o) s = scalarOp (.sshl o) o shlD s := rfl
theorem exec_sshr_eq : exec (.sshr o) s = scalarOp (.sshr o) o shrD s := rfl
theorem exec_ssra_eq : exec (.ssra o) s = scalarOp (.ssra o) o sraD s := rfl
theorem exec_smin_eq : exec (.smin o) s = scalarOp (.smin o) o minD s := rfl
theorem exec_smax_eq : exec (.smax o) s = scalarOp (.smax o) o maxD s := rfl
theorem exec_sminu_eq : exec (.sminu o) s = scalarOp (.sminu o) o minuD s := rfl
theorem exec_sslt_eq : exec (.sslt o) s = scalarOp (.sslt o) o sltD s := rfl
theorem exec_ssltu_eq : exec (.ssltu o) s = scalarOp (.ssltu o) o sltuD s := rfl
theorem exec_saddi_eq : exec (.saddi d imm) s = scalarImm (.saddi d imm) d imm true (· + ·) s := rfl
theorem exec_smuli_eq : exec (.smuli d imm) s = scalarImm (.smuli d imm) d imm true (· * ·) s := rfl
theorem exec_sandi_eq : exec (.sandi d imm) s = scalarImm (.sandi d imm) d imm false (· &&& ·) s := rfl
theorem exec_sori_eq : exec (.sori d imm) s = scalarImm (.sori d imm) d imm false (· ||| ·) s := rfl
theorem exec_sxori_eq : exec (.sxori d imm) s = scalarImm (.sxori d imm) d imm false (· ^^^ ·) s := rfl
theorem exec_sslti_eq : exec (.sslti d imm) s = scalarImm (.sslti d imm) d imm true sltD s := rfl
theorem exec_ssltui_eq : exec (.ssltui d imm) s = scalarImm (.ssltui d imm) d imm true sltuD s := rfl
theorem exec_sshli_eq : exec (.sshli d imm) s = shiftImm (.sshli d imm) d imm shlD s := rfl
theorem exec_sshri_eq : exec (.sshri d imm) s = shiftImm (.sshri d imm) d imm shrD s := rfl
theorem exec_ssrai_eq : exec (.ssrai d imm) s = shiftImm (.ssrai d imm) d imm sraD s := rfl

end

section
variable {i : Instr} {s : State} {f : Focus}

theorem exec_of_scalarOp {o : S3} {op : DWord → DWord → DWord} {x : DWord} (he : exec i s = scalarOp i o op s)
    (hx : op (f.cord.sreg o.a) (f.cord.sreg o.b) = x) (h : Issues i s f) :
    exec i s = .next (s.goneOn f (f.cord.writeS o.d x)) := by
  rw [he, scalarOp, issueCord_of_issues h, hx]

theorem exec_of_scalarImm {d : SCode} {imm : BitVec 16} {signed : Bool} {op : DWord → DWord → DWord} {k x : DWord}
    (he : exec i s = scalarImm i d imm signed op s) (hk : immScalar f signed imm = k) (hx : op (f.cord.sreg d) k = x)
    (h : Issues i s f) : exec i s = .next (s.goneOn f (f.cord.writeS d x)) := by
  rw [he, scalarImm, issueCord_of_issues h, hk, hx]

/-- A shift by an immediate below 64 goes on with its result (R94). -/
theorem exec_of_shiftImm {d : SCode} {imm : BitVec 16} {op : DWord → DWord → DWord} {k x : DWord}
    (he : exec i s = shiftImm i d imm op s) (hk : immScalar f false imm = k) (hlt : k.toNat < 64)
    (hx : op (f.cord.sreg d) k = x) (h : Issues i s f) : exec i s = .next (s.goneOn f (f.cord.writeS d x)) := by
  rw [he, shiftImm]
  refine issue_of_done h ((if_pos (hk ▸ hlt)).trans ?_)
  rw [hk, hx]
  rfl

/-- A shift by an immediate of 64 or more is an illegal instruction (R94). -/
theorem exec_of_shiftImm_beyond {d : SCode} {imm : BitVec 16} {op : DWord → DWord → DWord} {k : DWord}
    (he : exec i s = shiftImm i d imm op s) (hk : immScalar f false imm = k) (hge : 64 ≤ k.toNat) (h : Issues i s f) :
    exec i s = .next (s.faulted i f { code := .illegalInstr }) := by
  rw [he, shiftImm]
  exact issue_of_trap h (if_neg (hk ▸ Nat.not_lt.mpr hge))

end

/-- SLDI into a halfword leaves the other three (R95). -/
theorem exec_sldiH (s : State) (f : Focus) (d : SCode) (h : BitVec 2) (imm : BitVec 16) :
    ∃ x : DWord, (Issues (.sldiH d h imm) s f →
        exec (.sldiH d h imm) s = .next (s.goneOn f (f.cord.writeS d x))) ∧
      ∀ k < 4, x.extractLsb' (16 * k) 16 =
        if k = h.toNat then imm else (f.cord.sreg d).extractLsb' (16 * k) 16 :=
  ⟨_, fun hi => issueCord_of_issues hi _, fun _ hk => extractLsb'_putHalf _ imm hk⟩

theorem readTs_eq (s : State) (c : Cord) :
    s.readTs c = BitVec.ofNat 64 (if c.tsfloor.toNat ≤ s.ts then s.ts else c.tsfloor.toNat) := by
  unfold State.readTs
  split <;> simp

/-- Settles O1, instruction by instruction. -/
theorem scalarInstructionsComplete : Obligations.ScalarInstructionsComplete := by
  unfold Obligations.ScalarInstructionsComplete
  refine ⟨fun s f o => ?_, fun s f d imm => ?_, fun s f v r lane => ?_⟩
  · intro a b gives
    exact ⟨exec_of_scalarOp (exec_sadd_eq o s) rfl, exec_of_scalarOp (exec_ssub_eq o s) rfl,
      exec_of_scalarOp (exec_smul_eq o s) rfl, exec_of_scalarOp (exec_smulh_eq o s) (mulhD_eq a b),
      exec_of_scalarOp (exec_smulhu_eq o s) (mulhuD_eq a b), exec_of_scalarOp (exec_sand_eq o s) rfl,
      exec_of_scalarOp (exec_sor_eq o s) rfl, exec_of_scalarOp (exec_sxor_eq o s) rfl,
      exec_of_scalarOp (exec_sshl_eq o s) (shlD_eq a b), exec_of_scalarOp (exec_sshr_eq o s) (shrD_eq a b),
      exec_of_scalarOp (exec_ssra_eq o s) (sraD_eq a b), exec_of_scalarOp (exec_smin_eq o s) (minD_eq a b),
      exec_of_scalarOp (exec_smax_eq o s) (maxD_eq a b), exec_of_scalarOp (exec_sminu_eq o s) (minuD_eq a b),
      exec_of_scalarOp (exec_sslt_eq o s) (sltD_eq a b), exec_of_scalarOp (exec_ssltu_eq o s) (sltuD_eq a b)⟩
  · intro a w sx zx gives
    have hs : immScalar f true imm = sx := immScalar_eq f true imm
    have hz : immScalar f false imm = zx := immScalar_eq f false imm
    refine ⟨exec_of_scalarImm (exec_saddi_eq d imm s) hs rfl, exec_of_scalarImm (exec_smuli_eq d imm s) hs rfl,
      exec_of_scalarImm (exec_sandi_eq d imm s) hz rfl, exec_of_scalarImm (exec_sori_eq d imm s) hz rfl,
      exec_of_scalarImm (exec_sxori_eq d imm s) hz rfl,
      exec_of_scalarImm (exec_sslti_eq d imm s) hs (sltD_eq a sx),
      exec_of_scalarImm (exec_ssltui_eq d imm s) hs (sltuD_eq a sx), fun hlt => ?_, fun hge => ?_,
      fun h => issueCord_of_issues h _, fun h => exec_sldiH s f d h imm⟩
    · exact ⟨exec_of_shiftImm (exec_sshli_eq d imm s) hz hlt (shlD_eq a zx),
        exec_of_shiftImm (exec_sshri_eq d imm s) hz hlt (shrD_eq a zx),
        exec_of_shiftImm (exec_ssrai_eq d imm s) hz hlt (sraD_eq a zx)⟩
    · simp only [List.forall_mem_cons, List.not_mem_nil, false_imp_iff, implies_true, and_true]
      exact ⟨exec_of_shiftImm_beyond (exec_sshli_eq d imm s) hz hge, exec_of_shiftImm_beyond (exec_sshri_eq d imm s) hz hge,
        exec_of_shiftImm_beyond (exec_ssrai_eq d imm s) hz hge⟩
  · intro gives
    refine ⟨fun h => issueCord_of_issues h _, fun h => issueCord_of_issues h _, fun h => issueCord_of_issues h _,
      fun h => issueCord_of_issues h _, fun h => issueCord_of_issues h _, fun h => ?_⟩
    rw [← readTs_eq]
    exact issueCord_of_issues h _

end Sys2Proof.Machine
end

section
/-! PROOFS. The patterns of a float format and their values, and what rounding to it answers (04_float.md R111 to R117). -/

namespace Sys2Proof.Machine

/-! ### Formats -/

/-- What the rules of a format's patterns rest on: it has an exponent and a mantissa, and its largest finite value is
normal and no power of two, so that the value below it is one step away. -/
structure FloatFmt.Sound (k : FloatFmt) : Prop where
  expo_ne : k.e ≠ 0
  mant_ne : k.m ≠ 0
  max_normal : 2 ^ k.m ≤ k.maxBits
  max_mant : k.maxBits % 2 ^ k.m ≠ 0

/-- The rows of R111's table are the model's formats. -/
theorem FloatFmt.of_table {k : FloatFmt} {bits M bias top : Nat} {inf nan : Option Nat}
    (h : (k, bits, M, bias, top, inf, nan) ∈ ([
      (.f32, 32, 23, 127, 0x7F7FFFFF, some 0x7F800000, some 0x7FC00000),
      (.f16, 16, 10, 15, 0x7BFF, some 0x7C00, some 0x7E00),
      (.bf16, 16, 7, 127, 0x7F7F, some 0x7F80, some 0x7FC0),
      (.e4m3, 8, 3, 7, 0x7E, none, some 0x7F),
      (.e5m2, 8, 2, 15, 0x7B, some 0x7C, some 0x7E),
      (.e2m1, 4, 1, 1, 0x7, none, none)] : List (FloatFmt × Nat × Nat × Nat × Nat × Option Nat × Option Nat))) :
    k.Sound ∧ bits - 1 = k.e + k.m ∧ M = k.m ∧ bias = k.bias ∧ top = k.maxBits ∧
      inf = (if k.hasInf then some k.infBits else none) ∧ nan = k.nan ∧ (k = .e2m1 ↔ k.nan.isNone = true) := by
  simp only [List.mem_cons, List.not_mem_nil, or_false, Prod.mk.injEq] at h
  rcases h with ⟨rfl, rfl, rfl, rfl, rfl, rfl, rfl⟩ | ⟨rfl, rfl, rfl, rfl, rfl, rfl, rfl⟩ |
    ⟨rfl, rfl, rfl, rfl, rfl, rfl, rfl⟩ | ⟨rfl, rfl, rfl, rfl, rfl, rfl, rfl⟩ |
    ⟨rfl, rfl, rfl, rfl, rfl, rfl, rfl⟩ | ⟨rfl, rfl, rfl, rfl, rfl, rfl, rfl⟩ <;>
  exact ⟨⟨by decide, by decide, by decide, by decide⟩, by decide⟩

theorem FloatFmt.f32_sound : FloatFmt.f32.Sound := ⟨by decide, by decide, by decide, by decide⟩

section
variable {k : FloatFmt}

/-- The pattern of an infinity follows that of the largest finite value. -/
theorem FloatFmt.Sound.infBits_eq (hk : k.Sound) (hi : k.hasInf = true) : k.infBits = k.maxBits + 1 := by
  have := hk.max_normal
  have := Nat.two_pow_pos k.m
  simp only [FloatFmt.maxBits, hi, if_true] at *
  omega

/-! ### The value of a pattern -/

/-- The fields of a pattern with a sign. -/
theorem FloatFmt.value_signBit_add (k : FloatFmt) (neg : Bool) {c : Nat} (hc : c < 2 ^ (k.e + k.m)) :
    k.value (k.signBit neg + c) =
      if k.hasInf ∧ c / 2 ^ k.m = 2 ^ k.e - 1 then
        if c % 2 ^ k.m = 0 then .inf neg else .nan (decide (c % 2 ^ k.m < 2 ^ (k.m - 1)))
      else if ¬k.hasInf ∧ k.nan.isSome ∧ c = 2 ^ (k.e + k.m) - 1 then .nan false
      else if c / 2 ^ k.m = 0 then .num neg (c % 2 ^ k.m) k.qmin
      else .num neg (2 ^ k.m + c % 2 ^ k.m) (k.qmin + (c / 2 ^ k.m : ℕ) - 1) := by
  obtain ⟨b, hb, hs⟩ : ∃ b : Nat, decide (b % 2 = 1) = neg ∧ k.signBit neg = b * 2 ^ (k.e + k.m) := by
    cases neg
    · exact ⟨0, by simp [FloatFmt.signBit]⟩
    · exact ⟨1, by simp [FloatFmt.signBit]⟩
  have hp := Nat.two_pow_pos (k.e + k.m)
  have hsign : (b * 2 ^ (k.e + k.m) + c) / 2 ^ (k.e + k.m) = b := by
    rw [Nat.add_comm, Nat.add_mul_div_right _ _ hp, Nat.div_eq_of_lt hc, Nat.zero_add]
  have hrest : (b * 2 ^ (k.e + k.m) + c) % 2 ^ (k.e + k.m) = c := by
    rw [Nat.add_comm, Nat.add_mul_mod_self_right, Nat.mod_eq_of_lt hc]
  have hmant : (b * 2 ^ (k.e + k.m) + c) % 2 ^ k.m = c % 2 ^ k.m := by
    rw [pow_add, ← Nat.mul_assoc, Nat.add_comm, Nat.add_mul_mod_self_right]
  have hexp : (b * 2 ^ (k.e + k.m) + c) / 2 ^ k.m % 2 ^ k.e = c / 2 ^ k.m := by
    rw [pow_add, ← Nat.mul_assoc, Nat.add_comm, Nat.add_mul_div_right _ _ (Nat.two_pow_pos _),
      Nat.add_mul_mod_self_right, Nat.mod_eq_of_lt]
    rwa [Nat.div_lt_iff_lt_mul (Nat.two_pow_pos _), ← pow_add]
  rw [hs, FloatFmt.value, hsign, hrest, hmant, hexp, hb]

theorem FloatFmt.maxBits_lt (hk : k.Sound) : k.maxBits < 2 ^ (k.e + k.m) := by
  have hp := Nat.two_pow_pos (k.e + k.m)
  have hi : k.infBits ≤ 2 ^ (k.e + k.m) := by
    rw [FloatFmt.infBits, pow_add]
    exact Nat.mul_le_mul_right _ (Nat.sub_le _ _)
  have hm := hk.max_normal
  have := Nat.two_pow_pos k.m
  unfold FloatFmt.maxBits at *
  split_ifs at * <;> omega

/-- A pattern up to the largest finite value is a finite number of at most the mantissa's bits and one (R111). -/
theorem FloatFmt.value_finite (hk : k.Sound) (neg : Bool) {c : Nat} (hc : c ≤ k.maxBits) :
    ∃ (n : Nat) (e : Int), k.value (k.signBit neg + c) = .num neg n e ∧ (n : ℚ) * 2 ^ e = k.mag c ∧
      n < 2 ^ (k.m + 1) := by
  have hm := Nat.mod_lt c (Nat.two_pow_pos k.m)
  have hinf : ¬(k.hasInf = true ∧ c / 2 ^ k.m = 2 ^ k.e - 1) := by
    rintro ⟨hi, hx⟩
    have := hk.infBits_eq hi
    have : k.infBits ≤ c := by
      rw [FloatFmt.infBits, ← hx]
      exact Nat.div_mul_le_self c _
    omega
  have hnan : ¬(¬k.hasInf = true ∧ k.nan.isSome = true ∧ c = 2 ^ (k.e + k.m) - 1) := by
    rintro ⟨hi, hn, hx⟩
    have hM : k.maxBits = 2 ^ (k.e + k.m) - 2 := by
      unfold FloatFmt.maxBits
      rw [if_neg hi, if_pos hn]
    have : 2 ^ 1 ≤ 2 ^ (k.e + k.m) := Nat.pow_le_pow_right (by decide) (by have := hk.mant_ne; omega)
    omega
  rw [k.value_signBit_add neg (hc.trans_lt (FloatFmt.maxBits_lt hk)), if_neg hinf, if_neg hnan, FloatFmt.mag, pow_succ]
  split
  case isTrue h0 =>
    have : c % 2 ^ k.m = c := Nat.mod_eq_of_lt ((Nat.div_eq_zero_iff_lt (Nat.two_pow_pos _)).mp h0)
    exact ⟨_, _, rfl, by rw [this], by omega⟩
  case isFalse => exact ⟨_, _, rfl, rfl, by omega⟩

theorem FloatFmt.value_infinite (neg : Bool) (hi : k.hasInf = true) :
    k.value (k.signBit neg + k.infBits) = .inf neg := by
  have hp := Nat.two_pow_pos k.m
  have hd : k.infBits / 2 ^ k.m = 2 ^ k.e - 1 := Nat.mul_div_cancel _ hp
  have hr : k.infBits % 2 ^ k.m = 0 := Nat.mul_mod_left _ _
  have hlt : k.infBits < 2 ^ (k.e + k.m) := by
    rw [FloatFmt.infBits, pow_add]
    exact Nat.mul_lt_mul_of_pos_right (Nat.sub_lt (Nat.two_pow_pos _) Nat.one_pos) hp
  rw [k.value_signBit_add neg hlt, if_pos ⟨hi, hd⟩, if_pos hr]

/-- Every other pattern is a NaN; it is quiet where its mantissa's top bit is set, and in a format with no infinity
(R112). -/
theorem FloatFmt.value_nan (hk : k.Sound) (neg : Bool) {c : Nat} (hc : k.maxBits < c) (hlt : c < 2 ^ (k.e + k.m))
    (hne : k.hasInf = true → c ≠ k.infBits) :
    k.value (k.signBit neg + c) = .nan (k.hasInf && decide (c % 2 ^ k.m < 2 ^ (k.m - 1))) := by
  rw [k.value_signBit_add neg hlt]
  cases hi : k.hasInf
  · have hs : k.nan.isSome = true ∧ c = 2 ^ (k.e + k.m) - 1 := by
      simp only [FloatFmt.maxBits, hi, Bool.false_eq_true, if_false] at hc
      split_ifs at hc with h2
      · exact ⟨h2, by omega⟩
      · omega
    simp [hs]
  · have hM := hk.infBits_eq hi
    have hge : k.infBits < c := by have := hne hi; omega
    have hx : c / 2 ^ k.m = 2 ^ k.e - 1 := by
      refine Nat.le_antisymm ?_ ?_
      · rw [← Nat.lt_iff_le_pred (Nat.two_pow_pos _), Nat.div_lt_iff_lt_mul (Nat.two_pow_pos _), ← pow_add]
        exact hlt
      · exact (Nat.le_div_iff_mul_le (Nat.two_pow_pos _)).mpr hge.le
    have hm : c % 2 ^ k.m ≠ 0 := by
      intro h0
      have := Nat.div_add_mod' c (2 ^ k.m)
      rw [hx, h0] at this
      exact hge.ne this
    simp [hx, hm]

/-! ### Neighbouring values -/

/-- The value of a pattern as R111 writes it. -/
theorem FloatFmt.mag_eq (k : FloatFmt) (c : Nat) :
    k.mag c = if c / 2 ^ k.m = 0 then (2 : ℚ) ^ (1 - k.bias : ℤ) * ((c % 2 ^ k.m : ℕ) / 2 ^ k.m)
      else (2 : ℚ) ^ ((c / 2 ^ k.m : ℕ) - k.bias : ℤ) * (1 + (c % 2 ^ k.m : ℕ) / 2 ^ k.m) := by
  have z : (2 : ℚ) ≠ 0 := by norm_num
  have hq (j : ℤ) : (2 : ℚ) ^ (k.qmin + j) = 2 ^ (1 - k.bias + j : ℤ) / 2 ^ k.m := by
    rw [FloatFmt.qmin, ← zpow_natCast, ← zpow_sub₀ z]
    congr 1; omega
  unfold FloatFmt.mag
  split
  case isTrue h0 =>
    have := hq 0
    rw [Nat.mod_eq_of_lt ((Nat.div_eq_zero_iff_lt (Nat.two_pow_pos _)).mp h0)]
    simp only [add_zero] at this
    rw [this]; ring
  case isFalse =>
    rw [add_sub_assoc, hq, show (1 - k.bias + (((c / 2 ^ k.m : ℕ) : ℤ) - 1) : ℤ) = (c / 2 ^ k.m : ℕ) - k.bias by ring]
    push_cast
    field_simp

@[simp] theorem FloatFmt.mag_zero (k : FloatFmt) : k.mag 0 = 0 := by simp [FloatFmt.mag]

theorem FloatFmt.mag_nonneg (k : FloatFmt) (c : Nat) : 0 ≤ k.mag c := by
  rw [← k.mag_zero]
  exact k.mag_strictMono.monotone (Nat.zero_le c)

theorem FloatFmt.mag_pos (k : FloatFmt) {c : Nat} (hc : c ≠ 0) : 0 < k.mag c := by
  rw [← k.mag_zero]
  exact k.mag_strictMono (Nat.pos_of_ne_zero hc)

/-- Only one pattern's value lies at or below a magnitude with the next one's above it. -/
theorem FloatFmt.eq_of_mag_le_lt {c c' : Nat} {x : ℚ} (h1 : k.mag c ≤ x) (h2 : x < k.mag (c + 1))
    (h1' : k.mag c' ≤ x) (h2' : x < k.mag (c' + 1)) : c = c' := by
  have h := k.mag_strictMono.lt_iff_lt.mp (h1.trans_lt h2')
  have h' := k.mag_strictMono.lt_iff_lt.mp (h1'.trans_lt h2)
  omega

/-- Inside a binade the steps above and below a value are alike. -/
theorem FloatFmt.mag_succ_of_mant (k : FloatFmt) {c : Nat} (hc : c % 2 ^ k.m ≠ 0) :
    k.mag (c + 1) = k.mag c + (k.mag c - k.mag (c - 1)) := by
  obtain ⟨j, t, rfl, ht, hj⟩ := k.code_split c
  rw [Nat.mul_comm, Nat.mul_add_mod] at hc
  have ht0 : t ≠ 0 := by rintro rfl; simp at hc
  have htm : t ≠ 2 ^ k.m := by rintro rfl; simp at hc
  have e0 := k.mag_code ht.le hj
  have e1 := k.mag_code (j := j) (t := t + 1) (by omega) (hj.imp_right (by omega))
  have e2 := k.mag_code (j := j) (t := t - 1) (by omega) (hj.imp_right (by omega))
  rw [← Nat.add_assoc] at e1
  rw [← Nat.add_sub_assoc (Nat.one_le_iff_ne_zero.mpr ht0)] at e2
  rw [e0, e1, e2]
  push_cast [Nat.one_le_iff_ne_zero.mpr ht0]
  ring

/-! ### Rounding -/

variable (hk : k.Sound) (r : Rnd) (sat : Bool) (h : Nat) (neg : Bool) {n : Nat} {e : Int}
include hk

/-- A representable value is its own pattern, with no flag (R114). -/
theorem roundNum_of_mag_eq {c : Nat} (hc : c ≤ k.maxBits) (hx : (n : ℚ) * 2 ^ e = k.mag c) :
    roundNum k r sat h neg n e false = (k.signBit neg + c, 0) := by
  by_cases hn : n = 0
  · subst hn
    have : c = 0 := k.mag_strictMono.injective (by rw [← hx]; simp)
    simp [roundNum, this]
  · obtain ⟨c', h1, h2, hy⟩ := roundNum_spec k hk.mant_ne r sat h neg n e hn
    obtain rfl : c = c' := FloatFmt.eq_of_mag_le_lt hx.ge (hx ▸ k.mag_succ c) h1 h2
    simp [hy, hx, Nat.not_lt.mpr hc]

/-- A value between two neighbours goes to the one that the mode names (R114, R116), and sets INEX, and UF where the
result is tiny (R117). -/
theorem roundNum_between {c : Nat} (hc : c < k.maxBits) (h1 : k.mag c < (n : ℚ) * 2 ^ e)
    (h2 : (n : ℚ) * 2 ^ e < k.mag (c + 1)) :
    let c' := if goesUp r neg (decide (c % 2 = 1)) (k.mag c) ((n : ℚ) * 2 ^ e) (k.mag (c + 1)) h then c + 1 else c
    roundNum k r sat h neg n e false = (k.signBit neg + c', flagINEX ||| if c' < 2 ^ k.m then flagUF else 0) := by
  have hn : n ≠ 0 := by
    rintro rfl
    exact absurd (k.mag_nonneg c) (by simpa using h1)
  obtain ⟨c', h1', h2', hy⟩ := roundNum_spec k hk.mant_ne r sat h neg n e hn
  obtain rfl : c = c' := FloatFmt.eq_of_mag_le_lt h1.le h2 h1' h2'
  simp only [h1, decide_true, Bool.true_and, if_true, true_and] at hy
  rw [hy, if_neg (Nat.not_lt.mpr (by split <;> omega))]

/-- A value beyond the largest finite one rounds down to it, or overflows; an overflow below the next step of the
unbounded format is one that was rounded up (R115). -/
theorem roundNum_beyond (hx : k.mag k.maxBits < (n : ℚ) * 2 ^ e) :
    if (n : ℚ) * 2 ^ e < k.mag (k.maxBits + 1) ∧ goesUp r neg (decide (k.maxBits % 2 = 1)) (k.mag k.maxBits)
        ((n : ℚ) * 2 ^ e) (k.mag (k.maxBits + 1)) h = false then
      roundNum k r sat h neg n e false = (k.signBit neg + k.maxBits, flagINEX)
    else ∃ up, (up = false → k.mag (k.maxBits + 1) ≤ (n : ℚ) * 2 ^ e) ∧
      roundNum k r sat h neg n e false = overflowBits k r sat neg up := by
  have hn : n ≠ 0 := by
    rintro rfl
    exact absurd (k.mag_nonneg k.maxBits) (by simpa using hx)
  obtain ⟨c, h1, h2, hy⟩ := roundNum_spec k hk.mant_ne r sat h neg n e hn
  by_cases hlt : (n : ℚ) * 2 ^ e < k.mag (k.maxBits + 1)
  · obtain rfl : k.maxBits = c := FloatFmt.eq_of_mag_le_lt hx.le hlt h1 h2
    simp only [hx, decide_true, Bool.true_and, if_true, true_and] at hy
    split
    case isTrue hup => simp [hy, hup.2, Nat.not_lt.mpr hk.max_normal]
    case isFalse hup =>
      have hup : goesUp r neg (decide (k.maxBits % 2 = 1)) (k.mag k.maxBits) ((n : ℚ) * 2 ^ e) (k.mag (k.maxBits + 1)) h
          = true := by simpa [hlt] using hup
      exact ⟨true, by simp, by simp [hy, hup]⟩
  · rw [if_neg fun hc => hlt hc.1]
    have hc : k.maxBits < c := by
      have := k.mag_strictMono.lt_iff_lt.mp ((not_lt.mp hlt).trans_lt h2)
      omega
    refine ⟨_, fun _ => not_lt.mp hlt, hy.trans (if_pos ?_)⟩
    split <;> omega

end

end Sys2Proof.Machine
end

section
/-! PROOFS. Exact products and sums (04_float.md R113, R122 to R124), and what a float instruction of each form leaves
(R97, R119). -/

namespace Sys2Proof.Machine

/-! ### Products -/

/-- The product of two finite numbers, with the XOR of their signs. -/
theorem Num.mul_num (s s' : Bool) (n n' : Nat) (e e' : Int) :
    ∃ m q, (Num.num s n e).mul (.num s' n' e') = .num (s != s') m q ∧
      (m : ℚ) * 2 ^ q = (n : ℚ) * 2 ^ e * (n' * 2 ^ e') := by
  refine ⟨_, _, rfl, ?_⟩
  rw [zpow_add₀ (by norm_num)]
  push_cast
  ring

/-- Zero times an infinity is a NaN that raises NV (R122). -/
theorem Num.mul_inf (s s' : Bool) (n : Nat) (e : Int) :
    (Num.inf s).mul (.inf s') = .inf (s != s') ∧
    (Num.inf s).mul (.num s' n e) = (if n = 0 then .nan true else .inf (s != s')) ∧
    (Num.num s n e).mul (.inf s') = (if n = 0 then .nan true else .inf (s != s')) := by
  refine ⟨rfl, ?_, ?_⟩
  · cases n <;> rfl
  · cases n <;> rfl

theorem Num.mul_nan (v v' : Bool) {a : Num} (ha : a.isNan = false) :
    (Num.nan v).mul a = .nan v ∧ a.mul (.nan v) = .nan v ∧ (Num.nan v).mul (.nan v') = .nan (v || v') := by
  cases a with
  | nan _ => exact absurd ha (by simp [Num.isNan])
  | inf s => cases v <;> exact ⟨rfl, rfl, rfl⟩
  | num s n e => cases v <;> cases n <;> exact ⟨rfl, rfl, rfl⟩

/-! ### Sums -/

/-- A finite number is its whole number of units. -/
theorem Num.units_mul {q : Int} {a : Num} (hn : a.isNan = false) (hi : a.isInf = false) (hq : q ≤ a.expo) :
    (a.units q : ℚ) * 2 ^ q = a.rat := by
  cases a with
  | nan _ => exact absurd hn (by simp [Num.isNan])
  | inf _ => exact absurd hi (by simp [Num.isInf])
  | num s n e =>
    obtain ⟨d, hd⟩ := Int.eq_ofNat_of_zero_le (Int.sub_nonneg.mpr (show q ≤ e from hq))
    have he : (2 : ℚ) ^ e = 2 ^ d * 2 ^ q := by
      rw [show e = d + q by omega, zpow_add₀ (by norm_num), zpow_natCast]
    simp only [Num.units, Num.rat, hd, Int.toNat_natCast, he]
    cases s <;> push_cast <;> simp <;> ring

/-- An exact zero is +0, unless every term is −0 (R113). -/
theorem sumNums_finite {l : List Num} (hl : l ≠ []) (hf : ∀ a ∈ l, a.isNan = false ∧ a.isInf = false) :
    ∃ s n e, sumNums l = .num s n e ∧
      (if s then -((n : ℚ) * 2 ^ e) else (n : ℚ) * 2 ^ e) = (l.map Num.rat).sum ∧
      (n = 0 → (s = true ↔ ∀ a ∈ l, a.isNeg = true)) := by
  have hnan : l.any Num.isNan = false := List.any_eq_false.mpr fun a ha => by simp [(hf a ha).1]
  have hinf : l.any Num.isInf = false := List.any_eq_false.mpr fun a ha => by simp [(hf a ha).2]
  set q := (l.map Num.expo).foldl min ((l.map Num.expo).headD 0) with hq
  set t := (l.map (Num.units q)).foldl (· + ·) 0 with ht
  have hle : ∀ a ∈ l, q ≤ a.expo := fun a ha => by
    rw [hq, List.foldl_min_eq_min (by simpa using hl)]
    exact (Int.min_le_right _ _).trans (List.min_le_of_mem (List.mem_map_of_mem ha))
  have hsum : (t : ℚ) * 2 ^ q = (l.map Num.rat).sum := by
    rw [ht, ← List.sum_eq_foldl, Int.cast_list_sum, ← List.sum_map_mul_right, List.map_map]
    exact congrArg List.sum (List.map_congr_left fun a ha => Num.units_mul (hf a ha).1 (hf a ha).2 (hle a ha))
  have hval : sumNums l =
      if t = 0 then .num (l.all Num.isNeg && !l.isEmpty) 0 q else .num (decide (t < 0)) t.natAbs q := by
    rw [sumNums, if_neg (by simp [hnan]), if_neg (by simp [hinf])]
  by_cases h0 : t = 0
  · refine ⟨_, _, _, hval.trans (if_pos h0), ?_, fun _ => by simp [hl]⟩
    rw [← hsum, h0]
    simp
  · refine ⟨_, _, _, hval.trans (if_neg h0), ?_, fun h => absurd (Int.natAbs_eq_zero.mp h) h0⟩
    rw [← hsum, Nat.cast_natAbs]
    by_cases hneg : t < 0
    · simp [hneg, abs_of_neg hneg]
    · simp [hneg, abs_of_nonneg (not_lt.mp hneg)]

section
variable {l : List Num}

theorem Num.eq_inf {x : Num} {s : Bool} (hi : x.isInf = true) (hs : x.isNeg = s) : x = .inf s := by
  cases x with
  | inf t => exact congrArg Num.inf hs
  | nan _ | num _ _ _ => exact absurd hi Bool.false_ne_true

theorem any_inf_neg : (l.any fun x => x.isInf && x.isNeg) = true ↔ .inf true ∈ l := by
  refine List.any_eq_true.trans ⟨fun ⟨x, hx, h⟩ => ?_, fun h => ⟨_, h, rfl⟩⟩
  obtain ⟨hi, hn⟩ := (Bool.and_eq_true _ _).mp h
  exact Num.eq_inf hi hn ▸ hx

theorem any_inf_pos : (l.any fun x => x.isInf && !x.isNeg) = true ↔ .inf false ∈ l := by
  refine List.any_eq_true.trans ⟨fun ⟨x, hx, h⟩ => ?_, fun h => ⟨_, h, rfl⟩⟩
  obtain ⟨hi, hn⟩ := (Bool.and_eq_true _ _).mp h
  exact Num.eq_inf hi (by simpa using hn) ▸ hx

theorem sumNums_inf {s : Bool} (hn : ∀ a ∈ l, a.isNan = false) (h : .inf s ∈ l) (h' : .inf (!s) ∉ l) :
    sumNums l = .inf s := by
  have hnan : l.any Num.isNan = false := List.any_eq_false.mpr fun a ha => by simp [hn a ha]
  have hinf : l.any Num.isInf = true := List.any_eq_true.mpr ⟨_, h, rfl⟩
  rw [sumNums, if_neg (by simp [hnan]), if_pos hinf]
  cases s
  · have hneg : (l.any fun x => x.isInf && x.isNeg) = false := Bool.eq_false_iff.mpr (mt any_inf_neg.mp h')
    simp [hneg]
  · have hpos : (l.any fun x => x.isInf && !x.isNeg) = false := Bool.eq_false_iff.mpr (mt any_inf_pos.mp h')
    simp only [hpos, any_inf_neg.mpr h, Bool.and_false, Bool.false_eq_true, if_false]

/-- Infinities of opposite sign make a NaN that raises NV (R122). -/
theorem sumNums_opposite (hn : ∀ a ∈ l, a.isNan = false) (h : .inf true ∈ l) (h' : .inf false ∈ l) :
    sumNums l = .nan true := by
  have hnan : l.any Num.isNan = false := List.any_eq_false.mpr fun a ha => by simp [hn a ha]
  have hinf : l.any Num.isInf = true := List.any_eq_true.mpr ⟨_, h, rfl⟩
  rw [sumNums, if_neg (by simp [hnan]), if_pos hinf, if_pos (by rw [any_inf_neg.mpr h, any_inf_pos.mpr h']; rfl)]

theorem sumNums_nan (h : ∃ a ∈ l, a.isNan = true) (h' : .inf true ∉ l ∨ .inf false ∉ l) :
    sumNums l = .nan (l.any Num.raises) := by
  have hboth : ((l.any fun x => x.isInf && x.isNeg) && l.any fun x => x.isInf && !x.isNeg) = false := by
    rw [Bool.and_eq_false_iff, Bool.eq_false_iff, Bool.eq_false_iff, ne_eq, ne_eq, any_inf_neg, any_inf_pos]
    exact h'
  rw [sumNums, if_pos (List.any_eq_true.mpr h), hboth, Bool.or_false]

end

/-! ### What a float instruction leaves -/

theorem tagF_eq (ts : List Tag) : tagF ts = if ∀ t ∈ ts, t = .uniform then .uniform else .general := by
  simp [tagF]

theorem tagF_singleton (t : Tag) : tagF [t] = if t = .uniform then .uniform else .general := by
  simp [tagF]

/-- A float instruction writes its lane values, and sets a flag where an active lane sets it (R119). -/
theorem exec_of_issueFloat {i : Instr} {s : State} {f : Focus} {dst : Dst} {g : Focus → (Nat → Word × Flags) × Tag}
    {vals : Nat → Word × Flags} {t : Tag} (he : exec i s = issueFloat i dst s g) (hv : ∀ l, (g f).1 l = vals l)
    (ht : (g f).2 = t) (h : Issues i s f) :
    exec i s = .next (s.afterAlu i f dst (fun l => (vals l).1) t
      (orFlags ((Mask.toLanes f.active).map fun l => (vals l).2))) := by
  rw [he, issueFloat, issueAlu_of_issues h]
  simp only [hv, ht]

/-- The elements of a 32-bit lane in a 16-bit format (R81). -/
theorem elems_of_half {k : FloatFmt} (hk : k.width = 16) (w : Word) :
    elems k w = [(w.extractLsb' 0 16).toNat, (w.extractLsb' 16 16).toNat] := by
  simp [elems, hk, List.range_succ, Nat.shiftRight_eq_div_pow]

end Sys2Proof.Machine
end
section
/-! PROOFS. Float arithmetic (04_float.md R111 to R117, R122 to R125). -/

namespace Sys2Proof.Machine

/-! ### Sums of products -/

/-- A value rounded to an F32 lane, with its flags (R113). -/
def roundF32 (x : Num) : Word × Flags :=
  let r := x.toFmt .f32
  (BitVec.ofNat 32 r.1, r.2)

theorem ffma_sum (x y z : Word) :
    sumNums [(FloatFmt.f32.value x.toNat).mul (FloatFmt.f32.value y.toNat), FloatFmt.f32.value z.toNat] =
      sumNums [(FloatFmt.f32.value (x.extractLsb' 0 32).toNat).mul (FloatFmt.f32.value (y.extractLsb' 0 32).toNat),
        FloatFmt.f32.value (z.extractLsb' 0 32).toNat] := by
  simp only [BitVec.extractLsb'_eq_self]

theorem dot2_sum (x y z : Word) :
    sumNums (((elems .bf16 x).zip (elems .bf16 y)).map (fun p =>
        (FloatFmt.bf16.value p.1).mul (FloatFmt.bf16.value p.2)) ++ [FloatFmt.f32.value z.toNat]) =
      sumNums [(FloatFmt.bf16.value (x.extractLsb' 0 16).toNat).mul (FloatFmt.bf16.value (y.extractLsb' 0 16).toNat),
        (FloatFmt.bf16.value (x.extractLsb' 16 16).toNat).mul (FloatFmt.bf16.value (y.extractLsb' 16 16).toNat),
        FloatFmt.f32.value (z.extractLsb' 0 32).toNat] := by
  simp only [elems_of_half (k := .bf16) rfl, BitVec.extractLsb'_eq_self, List.zip_cons_cons, List.zip_nil_right,
    List.map_cons, List.map_nil, List.cons_append, List.nil_append]

/-! ### Overflow -/

/-- What an overflow gives, with the codes counted from the largest finite value (R115). -/
theorem overflowBits_eq {k : FloatFmt} (hk : k.Sound) (r : Rnd) (sat neg up : Bool) :
    overflowBits k r sat neg up =
      if sat = true ∨ k.nan.isNone = true then (k.signBit neg + k.maxBits, flagSAT ||| flagINEX)
      else match r with
        | .rne => (k.signBit neg + k.maxBits + 1, flagOF ||| flagINEX)
        | .rz => (k.signBit neg + k.maxBits, flagOF ||| flagINEX)
        | .rp => (if neg then k.signBit neg + k.maxBits else k.signBit neg + k.maxBits + 1, flagOF ||| flagINEX)
        | .rm => (if neg then k.signBit neg + k.maxBits + 1 else k.signBit neg + k.maxBits, flagOF ||| flagINEX)
        | .rs => (if up then k.signBit neg + k.maxBits + 1 else k.signBit neg + k.maxBits, flagOF ||| flagINEX) := by
  have hinf : (if k.hasInf = true then k.infBits else k.maxBits + 1) = k.maxBits + 1 :=
    ite_eq_right_iff.mpr hk.infBits_eq
  unfold overflowBits
  rw [hinf]
  split
  · rfl
  · cases r
    case rne | rz => rfl
    case rp | rm => cases neg <;> rfl
    case rs => cases up <;> rfl

/-- Settles O6: the form of each instruction; the patterns and the rounding of any sound format; exact products and sums. -/
theorem floatArithmeticCompletes : Obligations.FloatArithmeticCompletes := by
  unfold Obligations.FloatArithmeticCompletes
  refine ⟨fun s f o o3 t d ti imm => ?_, fun k bits M bias top inf nan hrow neg => ?_,
    Num.mul_num, fun s s' n e => Num.mul_inf s s' n e, fun v v' a ha => Num.mul_nan v v' ha, fun l hl =>
    ⟨sumNums_finite hl, fun s => sumNums_inf, sumNums_opposite, sumNums_nan⟩⟩
  · intro a b src gives k two ki im fused v
    exact ⟨exec_of_issueFloat (exec_fadd_eq o t s) (fun _ => rfl) (tagF_eq _),
      exec_of_issueFloat (exec_fsub_eq o t s) (fun _ => rfl) (tagF_eq _),
      exec_of_issueFloat (exec_fmul_eq o t s) (fun _ => rfl) (tagF_eq _),
      exec_of_issueFloat (exec_faddi_eq d ti imm s) (fun _ => rfl) (tagF_eq _),
      exec_of_issueFloat (exec_fmuli_eq d ti imm s) (fun _ => rfl) (tagF_eq _),
      exec_of_issueFloat (exec_ffma_eq o3 s) (fun _ => congrArg roundF32 (ffma_sum _ _ _)) (tagF_eq _),
      exec_of_issueFloat (exec_dot2_eq o3 s) (fun _ => congrArg roundF32 (dot2_sum _ _ _)) (tagF_eq _)⟩
  · obtain ⟨hk, hbits, rfl, rfl, rfl, hinf, rfl, he⟩ := FloatFmt.of_table hrow
    intro val s step
    have hs : s = k.signBit neg := by simp only [s, hbits, FloatFmt.signBit]
    have hval : val = k.mag := funext fun c => (k.mag_eq c).symm
    have hstep : k.mag k.maxBits + step = k.mag (k.maxBits + 1) := by
      rw [k.mag_succ_of_mant hk.max_mant, ← hval]
    rw [hs, hbits, hinf, hval]
    refine ⟨fun c hc => ?_, fun c hc => ?_, fun c h1 h2 h3 => ?_, fun c hc nv => ?_, fun c hc => ?_, fun n e => rfl,
      fun r sat h n e => ?_⟩
    · obtain ⟨n, e, h1, h2, -⟩ := FloatFmt.value_finite hk neg hc
      exact ⟨n, e, h1, h2⟩
    · obtain ⟨hi, rfl⟩ : k.hasInf = true ∧ k.infBits = c := by simpa using hc
      exact FloatFmt.value_infinite neg hi
    · rw [FloatFmt.value_nan hk neg h1 h2 fun hi heq => h3 (by rw [if_pos hi, heq])]
      cases hi : k.hasInf <;> simp
    · rw [Num.toFmt, Option.mem_def.mp hc]
      rfl
    · obtain ⟨hi, rfl⟩ : k.hasInf = true ∧ k.infBits = c := by simpa using hc
      rw [Num.toFmt, if_pos hi]
    · intro x y
      refine ⟨fun c hc hx => roundNum_of_mag_eq hk r sat h neg hc hx,
        fun c hc h1 h2 => roundNum_between hk r sat h neg hc h1 h2, fun hx => ?_⟩
      rw [hstep]
      intro up
      have hy := roundNum_beyond hk r sat h neg hx
      split at hy
      case isTrue hc => rw [if_pos hc]; exact hy
      case isFalse hc =>
        obtain ⟨b, hb, hy⟩ := hy
        rw [if_neg hc]
        simp only [he]
        rw [overflowBits_eq hk] at hy
        split at hy
        case isTrue hsat => rw [if_pos hsat]; exact hy
        case isFalse hsat =>
          rw [if_neg hsat]
          cases r
          case rs =>
            cases b
            · exact .inr ⟨hb rfl, hy⟩
            · exact .inl hy
          all_goals exact hy

end Sys2Proof.Machine
end

section
/-! PROOFS. FCVT (04_float.md R114 to R117, R130, R131). -/

namespace Sys2Proof.Machine

/-! ### Rounding to a whole number -/

/-- A magnitude cut without stickiness goes up where a part is cut off and the mode says so (R114, R116). -/
theorem roundsUp_eq_and_goesUp (r : Rnd) (neg : Bool) {t frac d : Nat} (h : Nat) (hl : frac < 2 ^ d) :
    roundsUp r neg t frac d false h = (decide (frac ≠ 0) &&
      goesUp r neg (decide (t % 2 = 1)) t (t + frac / 2 ^ d) (t + 1) h) := by
  by_cases hf : frac = 0
  · subst hf
    cases r <;> simp [roundsUp]
    exact fun _ h0 => absurd h0 (Nat.two_pow_pos _).ne
  · have := roundsUp_eq_goesUp r neg t frac d h 1 one_pos hf hl
    simp only [mul_one] at this
    rw [this]
    simp [hf]

/-- A magnitude is rounded to the whole number below it or the one above, as the mode says, and differs from the former
exactly when it is not whole. -/
theorem roundInt_eq (r : Rnd) (h : Nat) (neg : Bool) (n : Nat) (e : Int) :
    ∃ t : Nat, (t : ℤ) = ⌊(n : ℚ) * 2 ^ e⌋ ∧ roundInt r h neg n e =
      (if decide ((t : ℚ) < (n : ℚ) * 2 ^ e) &&
          goesUp r neg (decide (t % 2 = 1)) t ((n : ℚ) * 2 ^ e) (t + 1) h then t + 1 else t,
        decide ((t : ℚ) < (n : ℚ) * 2 ^ e)) := by
  obtain ⟨hx, hl⟩ := cut_spec n e 0
  rw [zpow_zero, mul_one] at hx
  rw [roundInt]
  generalize cut n e 0 = c at hx hl ⊢
  obtain ⟨t, frac, d⟩ := c
  dsimp only at hx hl ⊢
  have hd : (0 : ℚ) < 2 ^ d := by positivity
  have h0 : (0 : ℚ) ≤ frac / 2 ^ d := by positivity
  have h1 : (frac : ℚ) / 2 ^ d < 1 := (div_lt_one hd).mpr (by exact_mod_cast hl)
  have hlt : (t : ℚ) < (n : ℚ) * 2 ^ e ↔ frac ≠ 0 := by
    rw [hx, lt_add_iff_pos_right, div_pos_iff_of_pos_right hd, Nat.cast_pos, Nat.pos_iff_ne_zero]
  refine ⟨t, ((Int.floor_eq_iff).mpr ⟨?_, ?_⟩).symm, ?_⟩
  · rw [hx]; push_cast; linarith
  · rw [hx]; push_cast; linarith
  · simp only [roundsUp_eq_and_goesUp r neg h hl, hlt]
    rw [hx]

/-- A finite value as an integer destination gets it: rounded, and clamped with NV (R131). -/
theorem toInteger_num (lo hi : Int) (r : Rnd) (h : Nat) (neg : Bool) (n : Nat) (e : Int) :
    let m : ℚ := n * 2 ^ e
    let t : ℤ := ⌊m⌋
    let up := decide ((t : ℚ) < m) && goesUp r neg (decide (t % 2 = 1)) t m (t + 1) h
    let w : ℤ := (if neg then -1 else 1) * (if up then t + 1 else t)
    toInteger lo hi r h (.num neg n e) = if w < lo then (lo, flagNV) else if hi < w then (hi, flagNV)
      else (w, if (t : ℚ) = m then 0 else flagINEX) := by
  intro m t up w
  obtain ⟨k, hk, hr⟩ := roundInt_eq r h neg n e
  have hle : (t : ℚ) ≤ m := Int.floor_le m
  have ht : t = k := hk.symm
  clear_value t
  subst ht
  have hw : (if neg then -(((roundInt r h neg n e).1 : ℕ) : ℤ) else ((roundInt r h neg n e).1 : ℕ)) = w := by
    have hodd : (k : ℤ) % 2 = 1 ↔ k % 2 = 1 := by omega
    simp only [hr, w, up, hodd, m, Int.cast_natCast]
    cases neg <;> split_ifs <;> simp
  have hflag : (if (roundInt r h neg n e).2 then flagINEX else 0) = if ((k : ℤ) : ℚ) = m then 0 else flagINEX := by
    rw [hr]
    rw [Int.cast_natCast] at hle ⊢
    simp only [decide_eq_true_eq, m] at hle ⊢
    simp only [hle.lt_iff_ne, ne_eq, ite_not]
  simp only [toInteger, hw, hflag]

/-! ### One lane -/

/-- The float formats of FCVT with their widths, and the integer ones with their bounds (R130, R131). -/
def fcvtFloats : List (Fmt × FloatFmt × Nat) :=
  [(.f32, .f32, 32), (.f16, .f16, 16), (.bf16, .bf16, 16), (.e4m3, .e4m3, 8), (.e5m2, .e5m2, 8), (.e2m1, .e2m1, 4)]
def fcvtWholes : List (Fmt × Int × Int) := [(.i32, -2 ^ 31, 2 ^ 31 - 1), (.n32, 0, 2 ^ 32 - 1)]

theorem mem_fcvtFloats {p : Fmt × FloatFmt × Nat} : p ∈ fcvtFloats ↔ p = (.f32, .f32, 32) ∨ p = (.f16, .f16, 16) ∨
    p = (.bf16, .bf16, 16) ∨ p = (.e4m3, .e4m3, 8) ∨ p = (.e5m2, .e5m2, 8) ∨ p = (.e2m1, .e2m1, 4) := by
  simp [fcvtFloats]

/-- A lane of an integer destination. -/
def intLane (p : Int × Flags) : Word × Flags := (BitVec.ofInt 32 p.1, p.2)

section
variable {df sf : Fmt} {k : FloatFmt} {bits : Nat} {lo hi : Int} (r : Rnd) (sat : Bool) (h : Nat) (a : Word)

theorem fcvtSource_float (hs : (sf, k, bits) ∈ fcvtFloats) : fcvtSource sf a = k.value (a.toNat % 2 ^ bits) := by
  rcases mem_fcvtFloats.mp hs with e | e | e | e | e | e <;> cases e <;> rfl

theorem fcvtLane_float (hd : (df, k, bits) ∈ fcvtFloats) :
    fcvtLane df sf r sat h a = (BitVec.ofNat 32 (toFloat k r sat h (fcvtSource sf a)).1,
      (toFloat k r sat h (fcvtSource sf a)).2) := by
  rcases mem_fcvtFloats.mp hd with e | e | e | e | e | e <;> cases e <;> rfl

theorem fcvtLane_whole (hd : (df, lo, hi) ∈ fcvtWholes) :
    fcvtLane df sf r sat h a = intLane (toInteger lo hi r h (fcvtSource sf a)) := by
  simp only [fcvtWholes, List.mem_cons, List.not_mem_nil, or_false] at hd
  rcases hd with e | e <;> cases e <;> rfl

/-- An infinity as a float destination gets it, by the table of R130; in every mode it is as in .rne. -/
theorem toFloat_inf (hd : (df, k, bits) ∈ fcvtFloats) (neg : Bool) :
    let y := toFloat k .rne sat 0 (.inf neg)
    let s := if neg then 2 ^ (bits - 1) else 0
    (df = .e2m1 → y = (s + 0x7, flagSAT)) ∧
    (df = .e4m3 → y = if sat then (s + 0x7E, flagSAT) else (s + 0x7F, flagNV)) ∧
    (df = .e5m2 → y = if sat then (s + 0x7B, flagSAT) else (s + 0x7C, 0)) ∧
    (sat = false → (df = .f32 → y = (s + 0x7F800000, 0)) ∧ (df = .f16 → y = (s + 0x7C00, 0)) ∧
      (df = .bf16 → y = (s + 0x7F80, 0))) := by
  rcases mem_fcvtFloats.mp hd with e | e | e | e | e | e <;> cases e <;> revert neg sat <;> decide

/-- A NaN as a float destination gets it, by the table of R130. -/
theorem toFloat_nan (hd : (df, k, bits) ∈ fcvtFloats) (nv : Bool) :
    let y := toFloat k r sat h (.nan nv)
    let flags : Flags := if nv then flagNV else 0
    (BitVec.ofNat 32 y.1, y.2) = match (generalizing := false) df with
      | .f32 => (0x7FC00000, flags) | .f16 => (0x7E00, flags) | .bf16 => (0x7FC0, flags) | .e4m3 => (0x7F, flags)
      | .e5m2 => (0x7E, flags) | _ => (0, flagNV) := by
  rcases mem_fcvtFloats.mp hd with e | e | e | e | e | e <;> cases e <;> rfl

end

/-- FCVT converts each lane, on the LFSR that .rs alone has stepped (R116, R130). -/
theorem exec_fcvt {s : State} {f : Focus} {o : V1} {df sf : Fmt} {r : Rnd} {sat : Bool}
    (h : Issues (.fcvt o df sf r sat) s f) :
    let l' := if r = .rs then lfsrStep f.cord.lfsr else f.cord.lfsr
    let x := f.psrc (v1Opnds o).isReader o.a o.pa
    let y (l : Nat) : Word × Flags := fcvtLane df sf r sat (rsDraw l' l 0) (x.lane l)
    exec (.fcvt o df sf r sat) s =
      .next (s.afterAlu (.fcvt o df sf r sat) { f with cord := { f.cord with lfsr := l' } } o.dst (fun l => (y l).1)
        (if r ≠ .rs ∧ x.tag = .uniform then .uniform else .general)
        (orFlags ((Mask.toLanes f.active).map fun l => (y l).2))) := by
  intro l' x y
  have he : exec (.fcvt o df sf r sat) s = execFcvt o df sf r sat s := rfl
  rw [he, execFcvt, issue_of_issues h]
  by_cases hr : r = .rs
  · subst hr
    simp only [if_true, aluDone_eq]
    rfl
  · have ht : (if r ≠ .rs ∧ x.tag = .uniform then Tag.uniform else .general) = tagF [x.tag] := by
      simp [tagF_singleton, hr]
    have hl : l' = f.cord.lfsr := if_neg hr
    simp only [if_neg hr, aluDone_eq, ht, y, hl]
    rfl

/-- Settles O8: a lane's source and destination by their formats, then the value by its kind. -/
theorem floatConversionCompletes : Obligations.FloatConversionCompletes := by
  unfold Obligations.FloatConversionCompletes
  refine ⟨fun s f o df sf r sat h => exec_fcvt h, fun sf df r sat h a => ?_⟩
  intro y floats wholes lane
  refine ⟨fun k bits hd => ⟨?_, ?_⟩, fun ks ws hs => ?_⟩
  · rintro rfl
    exact fcvtLane_float r sat h a hd
  · rintro rfl
    exact fcvtLane_float r sat h a hd
  · intro x
    have hx : fcvtSource sf a = x := fcvtSource_float a hs
    refine ⟨fun k bits hd => ?_, fun lo hi hd => ?_⟩
    · have hy : y = lane (toFloat k r sat h x) := hx ▸ fcvtLane_float r sat h a hd
      refine ⟨fun neg n e hv => ?_, fun neg hv => ?_, fun nv hv => ?_⟩
      · rw [hy, hv]
        rfl
      · obtain ⟨h1, h2, h3, h4⟩ := toFloat_inf sat hd neg
        rw [hy, hv]
        exact ⟨fun e => congrArg lane (h1 e), fun e => congrArg lane (h2 e), fun e => congrArg lane (h3 e), fun hsat =>
          ⟨fun e => congrArg lane ((h4 hsat).1 e), fun e => congrArg lane ((h4 hsat).2.1 e),
            fun e => congrArg lane ((h4 hsat).2.2 e)⟩⟩
      · rw [hy, hv]
        exact toFloat_nan r sat h hd nv
    · have hy : y = intLane (toInteger lo hi r h x) := hx ▸ fcvtLane_whole r sat h a hd
      refine ⟨fun nv hv => ?_, fun neg hv => ?_, fun neg n e hv => ?_⟩
      · rw [hy, hv]
        rfl
      · rw [hy, hv]
        rfl
      · intro m t up w
        rw [hy, hv]
        refine (congrArg intLane (toInteger_num lo hi r h neg n e)).trans ?_
        rw [apply_ite intLane, apply_ite intLane]
        rfl

end Sys2Proof.Machine
end

section
/-! PROOFS. FMIN, FMAX, FSCALE, FPACK, FUNPK and the unary float instructions (04_float.md R122, R126, R128, R133,
R134). -/

namespace Sys2Proof.Machine

/-! ### The form of each instruction -/

theorem exec_fscale_eq (o : V2) (t : FTy3) (s : State) : exec (.fscale o t) s = execFscale o t s := rfl
theorem exec_fpack_eq (o : V2) (t : PackTy) (s : State) : exec (.fpack o t) s = execFpack o t s := rfl

/-- The source of the smaller value is the one that −0 below +0 makes the smaller (R122). -/
theorem minMax_eq (k : FloatFmt) (larger : Bool) (p q : Nat) :
    minMax k larger p q =
      (let u := k.value p
       let w := k.value q
       (if u.isNan && w.isNan then k.nan.getD 0 else if u.isNan then q else if w.isNan then p
          else if (u.lt w || (!w.lt u && u.isNeg && !w.isNeg)) != larger then p else q,
        if (k.value p).raises || (k.value q).raises then flagNV else 0)) := by
  have hbelow (u w : Num) :
      (u.lt w || (u.eqv w && u.isNeg && !w.isNeg)) = (u.lt w || (!w.lt u && u.isNeg && !w.isNeg)) := by
    cases h : u.lt w <;> simp [Num.eqv, h]
  simp only [minMax, hbelow]
  split_ifs <;> rfl

/-- A lane of two 16-bit elements is the two put together (R81). -/
theorem packLane_of_half {k : FloatFmt} (hk : k.width = 16) (p q : Nat) :
    packLane k [p, q] = BitVec.ofNat 16 q ++ BitVec.ofNat 16 p := by
  apply BitVec.eq_of_toNat_eq
  rw [BitVec.toNat_append, Nat.shiftLeft_eq, Nat.mul_comm,
    ← Nat.two_pow_add_eq_or_of_lt (BitVec.isLt _)]
  simp [packLane, hk]
  omega

/-- FPACK rounds its two F32 sources to one format, or joins their lower halves (R133). -/
theorem packed_eq {k : FloatFmt} (hk : k.width = 16) (p q : Nat × Flags) :
    (packLane k [p.1, q.1], p.2 ||| q.2) = (BitVec.ofNat 16 q.1 ++ BitVec.ofNat 16 p.1, p.2 ||| q.2) := by
  rw [packLane_of_half hk]

theorem elems_getD {k : FloatFmt} {w : Nat} (hk : k.width = w) (x : Word) {j : Nat} (hj : j < 32 / w) :
    (elems k x).getD j 0 = (x.extractLsb' (w * j) w).toNat := by
  simp [elems, hk, hj, Nat.shiftRight_eq_div_pow]

/-- The element that a code of FUNPK reads (R134). -/
theorem unpackElem_value {c : Nat} (hc : c < 20) (x : Word) :
    (unpackElem c).1.value ((elems (unpackElem c).1 x).getD (unpackElem c).2 0) =
      if c < 2 then FloatFmt.f16.value (x.extractLsb' (16 * c) 16).toNat
      else if c < 4 then FloatFmt.bf16.value (x.extractLsb' (16 * (c - 2)) 16).toNat
      else if c < 8 then FloatFmt.e4m3.value (x.extractLsb' (8 * (c - 4)) 8).toNat
      else if c < 12 then FloatFmt.e5m2.value (x.extractLsb' (8 * (c - 8)) 8).toNat
      else FloatFmt.e2m1.value (x.extractLsb' (4 * (c - 12)) 4).toNat := by
  unfold unpackElem
  split_ifs
  · rw [elems_getD (k := .f16) (w := 16) rfl x (by omega)]
  · rw [elems_getD (k := .bf16) (w := 16) rfl x (by omega)]
  · rw [elems_getD (k := .e4m3) (w := 8) rfl x (by omega)]
  · rw [elems_getD (k := .e5m2) (w := 8) rfl x (by omega)]
  · rw [elems_getD (k := .e2m1) (w := 4) rfl x (by omega)]

/-! ### Unary functions on zeros, infinities and NaNs -/

/-- A lane of a unary function of an F32 value (R128). -/
def unaryLane (op : Word → Num → Nat × Flags) (w : Word) : Word × Flags :=
  let r := op w (FloatFmt.f32.value w.toNat)
  (BitVec.ofNat 32 r.1, r.2)

theorem exec_of_unary {i : Instr} {s : State} {f : Focus} {o : V1} {op : Word → Num → Nat × Flags}
    (he : exec i s = unaryF32 i o op s) (h : Issues i s f) :
    let x := f.psrc (opndsOf i).isReader o.a o.pa
    exec i s = .next (s.afterAlu i f o.dst (fun l => (unaryLane op (x.lane l)).1)
      (if x.tag = .uniform then .uniform else .general)
      (orFlags ((Mask.toLanes f.active).map fun l => (unaryLane op (x.lane l)).2))) :=
  exec_of_issueFloat he (fun _ => rfl) (tagF_singleton _) h

/-- A function's results on zeros and infinities, and that a NaN gives the default NaN (R112, R128). -/
structure UnaryTable (op : Word → Num → Nat × Flags) (zero inf : Bool → Nat × Flags) : Prop where
  zeros : ∀ n, op (BitVec.ofNat 32 (zeroF32 n)) (.num n 0 (-149)) = zero n
  infs : ∀ n, op (BitVec.ofNat 32 (infF32 n)) (.inf n) = inf n
  nans : ∀ w nv, op w (.nan nv) = nanF32 nv

theorem value_zeroF32 (n : Bool) : FloatFmt.f32.value (BitVec.ofNat 32 (zeroF32 n)).toNat = .num n 0 (-149) := by
  cases n <;> decide

theorem value_infF32 (n : Bool) : FloatFmt.f32.value (BitVec.ofNat 32 (infF32 n)).toNat = .inf n := by
  cases n <;> decide

/-- A pattern with all exponent bits and some of the mantissa is a NaN, signalling where the mantissa's top bit is clear
(R112). -/
theorem value_nanF32 {w : Word} (he : w.extractLsb' 23 8 = 0xFF) (hm : w.extractLsb' 0 23 ≠ 0) :
    FloatFmt.f32.value w.toNat = .nan (!w.getLsbD 22) := by
  have he' : w.toNat / 2 ^ 23 % 2 ^ 8 = 255 := by
    simpa [Nat.shiftRight_eq_div_pow] using congrArg BitVec.toNat he
  have hm' : w.toNat % 2 ^ 23 ≠ 0 := fun h0 => hm (BitVec.eq_of_toNat_eq (by simpa using h0))
  have hb : decide (w.toNat % 2 ^ 23 < 2 ^ 22) = !w.getLsbD 22 := by
    rw [← BitVec.testBit_toNat, Nat.testBit_eq_decide_div_mod_eq, ← decide_not, decide_eq_decide]
    omega
  rw [← hb]
  exact (if_pos ⟨rfl, he'⟩).trans (if_neg hm')

theorem UnaryTable.lanes {op : Word → Num → Nat × Flags} {zero inf : Bool → Nat × Flags} (t : UnaryTable op zero inf) :
    (∀ n : Bool, unaryLane op (BitVec.ofNat 32 (zeroF32 n)) = (BitVec.ofNat 32 (zero n).1, (zero n).2)) ∧
    (∀ n : Bool, unaryLane op (BitVec.ofNat 32 (infF32 n)) = (BitVec.ofNat 32 (inf n).1, (inf n).2)) ∧
    (∀ w : Word, w.extractLsb' 23 8 = 0xFF → w.extractLsb' 0 23 ≠ 0 →
      unaryLane op w = (0x7FC00000, if w.getLsbD 22 then 0 else flagNV)) := by
  refine ⟨fun n => ?_, fun n => ?_, fun w he hm => ?_⟩
  · rw [unaryLane, value_zeroF32, t.zeros]
  · rw [unaryLane, value_infF32, t.infs]
  · rw [unaryLane, value_nanF32 he hm, t.nans]
    cases w.getLsbD 22 <;> rfl

theorem sqrtF32_table : UnaryTable sqrtF32 (fun n => (zeroF32 n, 0))
    (fun n => if n then (0x7FC00000, flagNV) else (0x7F800000, 0)) :=
  ⟨fun _ => rfl, fun n => by cases n <;> rfl, fun _ _ => rfl⟩

theorem rsqF32_table : UnaryTable rsqF32 (fun n => (infF32 n, flagDZ))
    (fun n => if n then (0x7FC00000, flagNV) else (0, 0)) :=
  ⟨fun _ => rfl, fun n => by cases n <;> rfl, fun _ _ => rfl⟩

theorem rcpF32_table : UnaryTable rcpF32 (fun n => (infF32 n, flagDZ)) (fun n => (zeroF32 n, 0)) :=
  ⟨fun _ => rfl, fun _ => rfl, fun _ _ => rfl⟩

theorem exp2F32_table : UnaryTable exp2F32 (fun _ => (0x3F800000, 0)) (fun n => (if n then 0 else 0x7F800000, 0)) :=
  ⟨fun n => by cases n <;> rfl, fun n => by cases n <;> rfl, fun _ _ => rfl⟩

theorem log2F32_table : UnaryTable log2F32 (fun _ => (0xFF800000, flagDZ))
    (fun n => if n then (0x7FC00000, flagNV) else (0x7F800000, 0)) :=
  ⟨fun _ => rfl, fun n => by cases n <;> rfl, fun _ _ => rfl⟩

theorem sinF32_table : UnaryTable sinF32 (fun n => (zeroF32 n, 0)) (fun _ => (0x7FC00000, flagNV)) :=
  ⟨fun _ => rfl, fun _ => rfl, fun _ _ => rfl⟩

theorem cosF32_table : UnaryTable cosF32 (fun _ => (0x3F800000, 0)) (fun _ => (0x7FC00000, flagNV)) :=
  ⟨fun _ => rfl, fun _ => rfl, fun _ _ => rfl⟩

theorem tanhF32_table : UnaryTable tanhF32 (fun n => (zeroF32 n, 0))
    (fun n => (if n then 0xBF800000 else 0x3F800000, 0)) :=
  ⟨fun _ => rfl, fun n => by cases n <;> rfl, fun _ _ => rfl⟩

/-- A zero keeps its sign, and an infinity is its own result (R128). -/
theorem integralF32_table (r : Rnd) :
    UnaryTable (integralF32 r) (fun n => (zeroF32 n, 0)) (fun n => (infF32 n, 0)) :=
  ⟨fun n => by cases r <;> cases n <;> decide, fun n => by cases n <;> rfl, fun _ _ => rfl⟩

/-- A unary instruction whose function has a table completes with the results of that table. -/
theorem unary_completes {i : Instr} {s : State} {f : Focus} {o : V1} {op : Word → Num → Nat × Flags}
    {zero inf : Bool → Nat × Flags} (he : exec i s = unaryF32 i o op s) (t : UnaryTable op zero inf)
    (h : Issues i s f) :
    let x := f.psrc (opndsOf i).isReader o.a o.pa
    ∃ g : Word → Word × Flags,
      exec i s = .next (s.afterAlu i f o.dst (fun l => (g (x.lane l)).1)
        (if x.tag = .uniform then .uniform else .general)
        (orFlags ((Mask.toLanes f.active).map fun l => (g (x.lane l)).2))) ∧
      (∀ n : Bool, g (BitVec.ofNat 32 (zeroF32 n)) = (BitVec.ofNat 32 (zero n).1, (zero n).2)) ∧
      (∀ n : Bool, g (BitVec.ofNat 32 (infF32 n)) = (BitVec.ofNat 32 (inf n).1, (inf n).2)) ∧
      (∀ w : Word, w.extractLsb' 23 8 = 0xFF → w.extractLsb' 0 23 ≠ 0 →
        g w = (0x7FC00000, if w.getLsbD 22 then 0 else flagNV)) :=
  ⟨unaryLane op, exec_of_unary he h, t.lanes⟩

end Sys2Proof.Machine
end

section
/-! PROOFS. FSQRT (04_float.md R113, R114, R128): the root of the model's integers, with its stickiness, is rounded as the
exact root is. -/

namespace Sys2Proof.Machine

/-! ### The nearest value -/

section
variable {k : FloatFmt}

/-- Rounding to nearest goes to a pattern whose value lies no further than half way to its neighbours (R114). -/
theorem roundNum_nearest (hk : k.Sound) (h : Nat) (neg : Bool) {n : Nat} {e : Int} (hn : n ≠ 0)
    (hx : (n : ℚ) * 2 ^ e < k.mag k.maxBits) :
    ∃ c, k.mag (c - 1) + k.mag c ≤ 2 * (n * 2 ^ e) ∧ 2 * ((n : ℚ) * 2 ^ e) ≤ k.mag c + k.mag (c + 1) ∧
      roundNum k .rne false h neg n e false = (k.signBit neg + c,
        if k.mag c = (n : ℚ) * 2 ^ e then 0 else flagINEX ||| if c < 2 ^ k.m then flagUF else 0) := by
  obtain ⟨c, h1, h2, -⟩ := roundNum_spec k hk.mant_ne .rne false h neg n e hn
  have hc : c < k.maxBits := k.mag_strictMono.lt_iff_lt.mp (h1.trans_lt hx)
  have hdown : k.mag (c - 1) ≤ k.mag c := k.mag_strictMono.monotone (Nat.sub_le _ _)
  have hup : k.mag (c + 1) < k.mag (c + 1 + 1) := k.mag_succ _
  rcases h1.eq_or_lt with heq | hlt
  · refine ⟨c, by linarith, by linarith, ?_⟩
    rw [roundNum_of_mag_eq hk _ _ _ _ hc.le heq.symm, if_pos heq]
  · have hy := roundNum_between hk .rne false h neg hc hlt h2
    by_cases hg : goesUp .rne neg (decide (c % 2 = 1)) (k.mag c) ((n : ℚ) * 2 ^ e) (k.mag (c + 1)) h = true
    · have hle : k.mag (c + 1) - n * 2 ^ e ≤ n * 2 ^ e - k.mag c := by
        simp only [goesUp, Bool.or_eq_true, Bool.and_eq_true, decide_eq_true_eq] at hg
        exact hg.elim le_of_lt fun hg => hg.1.le
      refine ⟨c + 1, ?_, by linarith, ?_⟩
      · rw [Nat.add_sub_cancel]; linarith
      · rw [hy, if_pos hg, if_neg h2.ne']
    · have hle : n * 2 ^ e - k.mag c ≤ k.mag (c + 1) - n * 2 ^ e := by
        simp only [goesUp, Bool.or_eq_true, Bool.and_eq_true, decide_eq_true_eq, not_or, not_lt] at hg
        exact hg.1
      refine ⟨c, by linarith, by linarith, ?_⟩
      rw [hy, if_neg hg, if_neg hlt.ne]

/-- A next value is at most twice the one below it. -/
theorem FloatFmt.mag_succ_le_double (k : FloatFmt) {c : Nat} (hc : c ≠ 0) : k.mag (c + 1) ≤ 2 * k.mag c := by
  obtain ⟨j, t, rfl, ht, hj⟩ := k.code_split c
  have ht0 : 1 ≤ t := by
    rcases hj with rfl | hj
    · omega
    · exact (Nat.two_pow_pos _).trans_le hj
  have e1 := k.mag_code (j := j) (t := t + 1) (by omega) (hj.imp_right (by omega))
  rw [← Nat.add_assoc] at e1
  rw [e1, k.mag_code ht.le hj]
  have : (1 : ℚ) ≤ t := by exact_mod_cast ht0
  have : (0 : ℚ) < 2 ^ (k.qmin + j) := by positivity
  push_cast
  nlinarith

/-- A value that holds more than the mantissa's bits above 2^e is a whole number of steps of twice that. -/
theorem FloatFmt.mag_eq_mul (k : FloatFmt) {c : Nat} {e : Int} (h : 2 ^ (k.m + 1) * (2 : ℚ) ^ e ≤ k.mag c) :
    ∃ a : Nat, k.mag c = (2 * a : ℕ) * 2 ^ e := by
  obtain ⟨j, t, rfl, ht, hj⟩ := k.code_split c
  have hm := k.mag_code ht.le hj
  have hu : (0 : ℚ) < 2 ^ (k.qmin + j) := by positivity
  have hlt : (2 : ℚ) ^ e < 2 ^ (k.qmin + j) := by
    have ht' : (t : ℚ) < 2 ^ (k.m + 1) := by exact_mod_cast ht
    have : 2 ^ (k.m + 1) * (2 : ℚ) ^ e < 2 ^ (k.m + 1) * 2 ^ (k.qmin + j) :=
      (h.trans_eq hm).trans_lt (mul_lt_mul_of_pos_right ht' hu)
    exact lt_of_mul_lt_mul_left this (by positivity)
  have he : e < k.qmin + j := (zpow_lt_zpow_iff_right₀ (by norm_num)).mp hlt
  obtain ⟨d, hd⟩ := Int.eq_ofNat_of_zero_le (show 0 ≤ k.qmin + j - e - 1 by omega)
  refine ⟨t * 2 ^ d, ?_⟩
  rw [hm, show k.qmin + j = e + (d + 1) by omega, zpow_add₀ (by norm_num), zpow_add_one₀ (by norm_num), zpow_natCast]
  push_cast
  ring

end

/-! ### The root -/

theorem evenExp_eq (n : Nat) (e : Int) :
    ((evenExp n e).1 : ℚ) * 2 ^ (evenExp n e).2 = n * 2 ^ e ∧ (evenExp n e).2 % 2 = 0 ∧ n ≤ (evenExp n e).1 ∧
      (evenExp n e).1 ≤ 2 * n := by
  unfold evenExp
  split
  case isTrue h => exact ⟨rfl, h, by omega, by omega⟩
  case isFalse h =>
    refine ⟨?_, by simp only []; omega, by simp only []; omega, le_rfl⟩
    rw [zpow_sub_one₀ (by norm_num)]
    push_cast
    ring

/-- The integer that FSQRT takes the root of, and its root's unit: the value is the integer times the unit's square. -/
theorem sqrt_operand {n : Nat} (e : Int) (hn : n ≠ 0) (hlt : n < 2 ^ 24) :
    ∃ (M : Nat) (q : Int), M = (evenExp n e).1 * 2 ^ 60 ∧ q = (evenExp n e).2 / 2 - 30 ∧ 2 ^ 60 ≤ M ∧ M < 2 ^ 96 ∧
      (n : ℚ) * 2 ^ e = M * (2 ^ q) ^ 2 := by
  obtain ⟨hv, he, h1, h2⟩ := evenExp_eq n e
  refine ⟨_, _, rfl, rfl, by omega, by omega, ?_⟩
  obtain ⟨a, ha⟩ : ∃ a, (evenExp n e).2 = 2 * a := ⟨_, (Int.mul_ediv_cancel' (Int.dvd_of_emod_eq_zero he)).symm⟩
  rw [← hv, ha, Int.mul_ediv_cancel_left _ (by norm_num), two_mul, zpow_add₀ (by norm_num), zpow_sub₀ (by norm_num)]
  push_cast
  ring

/-- The number that FSQRT rounds lies in the same step of 2^q as the exact root. -/
theorem sticky_root (M : Nat) {r : Nat} (q : Int) (hr : 2 ^ 24 ≤ r) :
    ∃ (n : Nat) (e : Int), n ≠ 0 ∧ roundNum .f32 .rne false 0 false r q (decide (r * r ≠ M)) =
        roundNum .f32 .rne false 0 false n e false ∧
      (if r * r = M then (n : ℚ) * 2 ^ e = r * 2 ^ q else (n : ℚ) * 2 ^ e = (r + 1 / 2) * 2 ^ q) := by
  by_cases h : r * r = M
  · exact ⟨r, q, by omega, by simp [h], by rw [if_pos h]⟩
  · refine ⟨2 * r + 1, q - 1, by omega, ?_, ?_⟩
    · rw [decide_eq_true h]
      exact roundNum_sticky .f32 .rne (by decide) false 0 false r q hr
    · rw [if_neg h, zpow_sub_one₀ (by norm_num)]
      push_cast
      ring

/-- Half way between neighbours of the rounded value lie whole numbers of units, so the exact root lies on the same side
of them as the number that is rounded. -/
theorem root_between {M r a b d : Nat} {u x : ℚ} (hu : 0 < u) (h1 : r * r ≤ M) (h2 : M < (r + 1) * (r + 1))
    (hx : if r * r = M then x = r * u else x = (r + 1 / 2) * u) (hlo : (a + b : ℕ) * u ≤ x) (hhi : x ≤ (b + d : ℕ) * u) :
    ((a + b : ℕ) * u) ^ 2 ≤ M * u ^ 2 ∧ M * u ^ 2 ≤ ((b + d : ℕ) * u) ^ 2 ∧
      ((2 * b : ℕ) * u = x ↔ ((2 * b : ℕ) * u) ^ 2 = M * u ^ 2) := by
  have scale {y z : ℕ} : ((y : ℚ) * u) ^ 2 ≤ z * u ^ 2 ↔ y * y ≤ z := by
    rw [mul_pow, mul_le_mul_iff_left₀ (by positivity), sq]
    exact_mod_cast Iff.rfl
  have scale' {y z : ℕ} : (z : ℚ) * u ^ 2 ≤ (y * u) ^ 2 ↔ z ≤ y * y := by
    rw [mul_pow, mul_le_mul_iff_left₀ (by positivity), sq]
    exact_mod_cast Iff.rfl
  have scale_eq {y z : ℕ} : ((y : ℚ) * u) ^ 2 = z * u ^ 2 ↔ y * y = z := by
    rw [le_antisymm_iff, scale, scale', ← le_antisymm_iff]
  rw [scale, scale', scale_eq]
  split_ifs at hx with hM
  · rw [hx, mul_le_mul_iff_left₀ hu, Nat.cast_le] at hlo hhi
    rw [hx, mul_left_inj' hu.ne', Nat.cast_inj, ← hM]
    exact ⟨Nat.mul_le_mul hlo hlo, Nat.mul_le_mul hhi hhi, ⟨fun h => by rw [h], Nat.mul_self_inj.mp⟩⟩
  · have hlo' : a + b < r + 1 := by
      have : ((a + b : ℕ) : ℚ) ≤ r + 1 / 2 := le_of_mul_le_mul_right (hlo.trans_eq hx) hu
      exact_mod_cast (by linarith : ((a + b : ℕ) : ℚ) < r + 1)
    have hhi' : r < b + d := by
      have : (r : ℚ) + 1 / 2 ≤ (b + d : ℕ) := le_of_mul_le_mul_right (hx.symm.trans_le hhi) hu
      exact_mod_cast (by linarith : (r : ℚ) < (b + d : ℕ))
    refine ⟨(Nat.mul_le_mul (Nat.le_of_lt_succ hlo') (Nat.le_of_lt_succ hlo')).trans h1,
      h2.le.trans (Nat.mul_le_mul hhi' hhi'), ⟨fun h => ?_, fun h => ?_⟩⟩
    · have h4 : ((2 * b : ℕ) : ℚ) = r + 1 / 2 := mul_right_cancel₀ hu.ne' (h.trans hx)
      have : 2 * (2 * b) = 2 * r + 1 := by
        have : (2 : ℚ) * (2 * b : ℕ) = 2 * r + 1 := by rw [h4]; ring
        exact_mod_cast this
      omega
    · have hr1 : r < 2 * b := Nat.mul_self_lt_mul_self_iff.mp (by omega)
      have hr2 : 2 * b < r + 1 := Nat.mul_self_lt_mul_self_iff.mp (by omega)
      omega

/-- The number that is rounded is near the exact root, which is far from F32's limits. -/
theorem root_range {M r : Nat} {u x : ℚ} (hu : 0 < u) (h1 : r * r ≤ M) (h2 : M < (r + 1) * (r + 1)) (hr : 1 ≤ r)
    (hx : if r * r = M then x = r * u else x = (r + 1 / 2) * u) (hmin : (2 : ℚ) ^ (-149 : ℤ) ≤ M * u ^ 2)
    (hmax : (M : ℚ) * u ^ 2 ≤ 2 ^ 128) : r * u ≤ x ∧ (2 : ℚ) ^ (-76 : ℤ) ≤ x ∧ x ≤ 2 ^ 65 := by
  have hr' : (1 : ℚ) ≤ r := by exact_mod_cast hr
  have hxlo : (r : ℚ) * u ≤ x := by split_ifs at hx <;> rw [hx]; linarith
  have hxhi : x ≤ (r + 1 / 2) * u := by split_ifs at hx <;> rw [hx]; linarith
  have hx0 : 0 ≤ x := le_trans (by positivity) hxlo
  have hs1 : (2 : ℚ) ^ (-149 : ℤ) ≤ (2 * x) ^ 2 := by
    have : (M : ℚ) ≤ (2 * r) ^ 2 := by exact_mod_cast h2.le.trans (by nlinarith)
    calc (2 : ℚ) ^ (-149 : ℤ) ≤ M * u ^ 2 := hmin
      _ ≤ (2 * r) ^ 2 * u ^ 2 := mul_le_mul_of_nonneg_right this (by positivity)
      _ = (2 * (r * u)) ^ 2 := by ring
      _ ≤ (2 * x) ^ 2 := by gcongr
  have hs2 : x ^ 2 ≤ 4 * 2 ^ 128 := by
    have : (r : ℚ) ^ 2 ≤ M := by rw [sq]; exact_mod_cast h1
    calc x ^ 2 ≤ ((r + 1 / 2) * u) ^ 2 := by gcongr
      _ ≤ (2 * r * u) ^ 2 := by gcongr; linarith
      _ = 4 * (r ^ 2 * u ^ 2) := by ring
      _ ≤ 4 * (M * u ^ 2) := by gcongr
      _ ≤ 4 * 2 ^ 128 := by gcongr
  refine ⟨hxlo, ?_, ?_⟩
  · have := abs_le_of_sq_le_sq' (a := (2 : ℚ) ^ (-75 : ℤ)) (le_trans (by norm_num) hs1) (by positivity)
    have e : (2 : ℚ) ^ (-75 : ℤ) = 2 * 2 ^ (-76 : ℤ) := by norm_num
    linarith [this.2]
  · exact le_of_sq_le_sq (hs2.trans (by norm_num)) (by positivity)

/-- A value that is nearest to such a number is normal and below the largest one. -/
theorem root_code_range {c : Nat} {x : ℚ} (hlo : (2 : ℚ) ^ (-76 : ℤ) ≤ x) (hhi : x ≤ 2 ^ 65)
    (h1 : FloatFmt.f32.mag (c - 1) + FloatFmt.f32.mag c ≤ 2 * x)
    (h2 : 2 * x ≤ FloatFmt.f32.mag c + FloatFmt.f32.mag (c + 1)) : 2 ^ 23 ≤ c ∧ c < FloatFmt.f32.maxBits := by
  have hmono := FloatFmt.f32.mag_strictMono
  have hup := FloatFmt.f32.mag_succ c
  have hdown : FloatFmt.f32.mag (c - 1) ≤ FloatFmt.f32.mag c := hmono.monotone (Nat.sub_le _ _)
  have hnormal : FloatFmt.f32.mag (2 ^ 23) = 2 ^ (-126 : ℤ) := by norm_num [FloatFmt.mag_eq, FloatFmt.f32]
  have hlarge : FloatFmt.f32.mag 0x7F000000 = 2 ^ 127 := by norm_num [FloatFmt.mag_eq, FloatFmt.f32]
  constructor
  · have hlt : FloatFmt.f32.mag (2 ^ 23) < FloatFmt.f32.mag (c + 1) := by
      have : (2 : ℚ) ^ (-126 : ℤ) < 2 ^ (-76 : ℤ) := by norm_num
      linarith
    exact Nat.le_of_lt_succ (hmono.lt_iff_lt.mp hlt)
  · have hlt : FloatFmt.f32.mag (c - 1) < FloatFmt.f32.mag 0x7F000000 := by
      have : (2 : ℚ) ^ 65 < 2 ^ 127 := by norm_num
      linarith
    have hM : FloatFmt.f32.maxBits = 0x7F7FFFFF := by decide
    have := hmono.lt_iff_lt.mp hlt
    omega

/-- The root of a value of F32's range, rounded: its neighbours' half ways enclose the exact root, and INEX says whether
it is not the root itself (R113, R117). -/
theorem roundNum_root {M r : Nat} {q : Int} (h1 : r * r ≤ M) (h2 : M < (r + 1) * (r + 1)) (hr : 2 ^ 30 ≤ r)
    (hmin : (2 : ℚ) ^ (-149 : ℤ) ≤ M * (2 ^ q) ^ 2) (hmax : (M : ℚ) * (2 ^ q) ^ 2 ≤ 2 ^ 128) :
    let val := FloatFmt.f32.mag
    let s : ℚ := M * (2 ^ q) ^ 2
    ∃ c, 0 < c ∧ c < FloatFmt.f32.maxBits ∧
      roundNum .f32 .rne false 0 false r q (decide (r * r ≠ M)) = (c, if val c ^ 2 = s then 0 else flagINEX) ∧
      ((val (c - 1) + val c) / 2) ^ 2 ≤ s ∧ s ≤ ((val c + val (c + 1)) / 2) ^ 2 := by
  intro val s
  have hu : (0 : ℚ) < 2 ^ q := by positivity
  obtain ⟨n, e, hn, hy, hx⟩ := sticky_root M q (le_trans (by norm_num) hr)
  set u : ℚ := 2 ^ q
  set x : ℚ := n * 2 ^ e
  have hr' : (2 : ℚ) ^ 30 ≤ r := by exact_mod_cast hr
  obtain ⟨hxr, hlo, hhi⟩ := root_range hu h1 h2 (le_trans (by norm_num) hr) hx hmin hmax
  have hbelow : x < FloatFmt.f32.mag FloatFmt.f32.maxBits :=
    hhi.trans_lt (by rw [FloatFmt.mag_eq]; norm_num [FloatFmt.f32, FloatFmt.maxBits, FloatFmt.infBits])
  obtain ⟨c, m1, m2, hc⟩ := roundNum_nearest FloatFmt.f32_sound 0 false hn hbelow
  obtain ⟨c1, c2⟩ := root_code_range hlo hhi m1 m2
  -- the value and its neighbours hold more bits than a unit
  have d1 : val (c + 1) ≤ 2 * val c := FloatFmt.f32.mag_succ_le_double (by omega)
  have d2 : val c ≤ 2 * val (c - 1) := by
    have := FloatFmt.f32.mag_succ_le_double (c := c - 1) (by omega)
    rwa [Nat.sub_add_cancel (by omega)] at this
  have hbig : (2 : ℚ) ^ 24 * u ≤ val (c - 1) := by
    have : (2 : ℚ) ^ 30 * u ≤ r * u := mul_le_mul_of_nonneg_right hr' hu.le
    linarith
  have up1 : val (c - 1) ≤ val c := FloatFmt.f32.mag_strictMono.monotone (Nat.sub_le _ _)
  have up2 : val c < val (c + 1) := FloatFmt.f32.mag_succ c
  obtain ⟨a, ha⟩ := FloatFmt.f32.mag_eq_mul (c := c - 1) (e := q) hbig
  obtain ⟨b, hb⟩ := FloatFmt.f32.mag_eq_mul (c := c) (e := q) (hbig.trans up1)
  obtain ⟨d, hd⟩ := FloatFmt.f32.mag_eq_mul (c := c + 1) (e := q) (hbig.trans (up1.trans up2.le))
  have mlo : (val (c - 1) + val c) / 2 = (a + b : ℕ) * u := by simp only [val, ha, hb]; push_cast; ring
  have mhi : (val c + val (c + 1)) / 2 = (b + d : ℕ) * u := by simp only [val, hb, hd]; push_cast; ring
  obtain ⟨r1, r2, r3⟩ := root_between hu h1 h2 hx (by rw [← mlo]; linarith) (by rw [← mhi]; linarith)
  refine ⟨c, by omega, c2, ?_, by rw [mlo]; exact r1, by rw [mhi]; exact r2⟩
  have htiny : ¬c < 2 ^ FloatFmt.f32.m := Nat.not_lt.mpr c1
  rw [hy, hc, if_neg htiny]
  simp only [val, hb, r3, x, u, s]
  simp [FloatFmt.signBit]

/-! ### The lane of FSQRT -/

/-- The pattern of an F32 value is the word's own number. -/
theorem toNat_f32_pattern (neg : Bool) {c : Nat} (hc : c ≤ FloatFmt.f32.maxBits) :
    (BitVec.ofNat 32 (FloatFmt.f32.signBit neg + c)).toNat = FloatFmt.f32.signBit neg + c := by
  have hM : FloatFmt.f32.maxBits = 0x7F7FFFFF := by decide
  have hs : FloatFmt.f32.signBit neg ≤ 2 ^ 31 := by cases neg <;> decide
  rw [BitVec.toNat_ofNat, Nat.mod_eq_of_lt (by omega)]

/-- A unary function on the pattern of a finite value. -/
theorem unaryLane_finite (op : Word → Num → Nat × Flags) (neg : Bool) {c : Nat} (hc : c ≤ FloatFmt.f32.maxBits) :
    ∃ (n : Nat) (e : Int), (n : ℚ) * 2 ^ e = FloatFmt.f32.mag c ∧ n < 2 ^ 24 ∧
      unaryLane op (BitVec.ofNat 32 (FloatFmt.f32.signBit neg + c)) =
        (BitVec.ofNat 32 (op (BitVec.ofNat 32 (FloatFmt.f32.signBit neg + c)) (.num neg n e)).1,
          (op (BitVec.ofNat 32 (FloatFmt.f32.signBit neg + c)) (.num neg n e)).2) := by
  obtain ⟨n, e, hv, hx, hlt⟩ := FloatFmt.value_finite FloatFmt.f32_sound neg hc
  exact ⟨n, e, hx, hlt, by rw [unaryLane, toNat_f32_pattern neg hc, hv]⟩

theorem num_ne_zero {n c : Nat} {e : Int} (hx : (n : ℚ) * 2 ^ e = FloatFmt.f32.mag c) (hc : c ≠ 0) : n ≠ 0 := by
  rintro rfl
  have := FloatFmt.f32.mag_pos hc
  rw [← hx] at this
  simp at this

/-- A function that answers the default NaN with NV for a negative number does so for every negative pattern (R128). -/
theorem unaryLane_negative {op : Word → Num → Nat × Flags} (hop : ∀ w n e, n ≠ 0 → op w (.num true n e) = nanF32 true)
    {c : Nat} (h0 : 0 < c) (hc : c ≤ FloatFmt.f32.maxBits) :
    unaryLane op (BitVec.ofNat 32 (2 ^ 31 + c)) = (0x7FC00000, flagNV) := by
  obtain ⟨n, e, hx, -, hy⟩ := unaryLane_finite op true hc
  rw [hop _ _ _ (num_ne_zero hx h0.ne')] at hy
  exact hy

theorem sqrtF32_negative (w : Word) (n : Nat) (e : Int) (hn : n ≠ 0) : sqrtF32 w (.num true n e) = nanF32 true := by
  simp [sqrtF32, hn]

theorem rsqF32_negative (w : Word) (n : Nat) (e : Int) (hn : n ≠ 0) : rsqF32 w (.num true n e) = nanF32 true := by
  simp [rsqF32, hn]

theorem log2F32_negative (w : Word) (n : Nat) (e : Int) (hn : n ≠ 0) : log2F32 w (.num true n e) = nanF32 true := by
  simp [log2F32, hn]

/-- FSQRT of a positive value is the nearest value to its root (R113, R128). -/
theorem unaryLane_sqrt {c : Nat} (h0 : 0 < c) (hc : c ≤ FloatFmt.f32.maxBits) :
    let val := FloatFmt.f32.mag
    ∃ c', 0 < c' ∧ c' < FloatFmt.f32.maxBits ∧
      unaryLane sqrtF32 (BitVec.ofNat 32 c) = (BitVec.ofNat 32 c', if val c' ^ 2 = val c then 0 else flagINEX) ∧
      ((val (c' - 1) + val c') / 2) ^ 2 ≤ val c ∧ val c ≤ ((val c' + val (c' + 1)) / 2) ^ 2 := by
  obtain ⟨n, e, hx, hlt, hy⟩ := unaryLane_finite sqrtF32 false hc
  have hn := num_ne_zero hx h0.ne'
  obtain ⟨M, q, hM, hq, M1, M2, hs⟩ := sqrt_operand e hn hlt
  obtain ⟨r1, r2⟩ := isqrt_spec M 48 0 (Nat.zero_le _) (by omega)
  have hr : 2 ^ 30 ≤ isqrt M 48 0 := by
    by_contra hr
    have : (isqrt M 48 0 + 1) * (isqrt M 48 0 + 1) ≤ 2 ^ 30 * 2 ^ 30 := Nat.mul_le_mul (by omega) (by omega)
    omega
  have hmin : (2 : ℚ) ^ (-149 : ℤ) ≤ FloatFmt.f32.mag c := by
    have h1 : FloatFmt.f32.mag 1 = 2 ^ (-149 : ℤ) := by norm_num [FloatFmt.mag_eq, FloatFmt.f32]
    rw [← h1]
    exact FloatFmt.f32.mag_strictMono.monotone h0
  have hmax : FloatFmt.f32.mag c ≤ 2 ^ 128 := by
    refine (FloatFmt.f32.mag_strictMono.monotone hc).trans ?_
    rw [FloatFmt.mag_eq]
    norm_num [FloatFmt.f32, FloatFmt.maxBits, FloatFmt.infBits]
  rw [hs] at hx
  obtain ⟨c', h1, h2, h3, h4, h5⟩ := roundNum_root r1 r2 hr (hx ▸ hmin) (hx ▸ hmax)
  rw [hx] at h3 h4 h5
  refine ⟨c', h1, h2, ?_, h4, h5⟩
  have hsqrt (w : Word) : sqrtF32 w (.num false n e) =
      roundNum .f32 .rne false 0 false (isqrt M 48 0) q (decide (isqrt M 48 0 * isqrt M 48 0 ≠ M)) := by
    simp only [sqrtF32, if_neg hn, Bool.false_eq_true, if_false, hM, hq]
  rw [hsqrt, h3] at hy
  simpa [FloatFmt.signBit] using hy

end Sys2Proof.Machine
end

section
/-! PROOFS. FFLOOR, FCEIL, FTRUNC and FRINT (04_float.md R114, R128), and O7. -/

namespace Sys2Proof.Machine

/-! ### Whole numbers of F32 -/

/-- Every whole number of the mantissa's bits is a value of F32. -/
theorem exists_mag_eq_whole {t : Nat} (ht : t ≤ 2 ^ 23) :
    ∃ c ≤ FloatFmt.f32.maxBits, FloatFmt.f32.mag c = t := by
  rcases Nat.eq_zero_or_pos t with rfl | h0
  · exact ⟨0, Nat.zero_le _, by simp⟩
  · have hM : FloatFmt.f32.maxBits = 0x7F7FFFFF := by decide
    have hl : Nat.log2 t ≤ 23 := by
      rw [← Nat.lt_succ_iff, Nat.log2_lt h0.ne']
      omega
    obtain ⟨d, hd⟩ := Nat.exists_eq_add_of_le hl
    have hlo : 2 ^ 23 ≤ t * 2 ^ d := by
      rw [hd, pow_add]
      exact Nat.mul_le_mul_right _ (Nat.log2_self_le h0.ne')
    have hhi : t * 2 ^ d < 2 ^ (23 + 1) := by
      rw [show 23 + 1 = Nat.log2 t + 1 + d by omega, pow_add]
      exact Nat.mul_lt_mul_of_pos_right Nat.lt_log2_self (Nat.two_pow_pos d)
    have hm := FloatFmt.f32.mag_code (j := 149 - d) hhi.le (.inr hlo)
    refine ⟨_, ?_, hm.trans ?_⟩
    · have hj : 149 - d ≤ 149 := Nat.sub_le _ _
      have := Nat.mul_le_mul_right (2 ^ FloatFmt.f32.m) hj
      change _ ≤ 149 * 2 ^ 23 at this
      omega
    · have hq : FloatFmt.f32.qmin + ((149 - d : ℕ) : ℤ) = -d := by
        change (-149 : ℤ) + _ = _
        omega
      rw [hq, zpow_neg, zpow_natCast]
      push_cast
      field_simp

/-- The whole number that a mode takes a magnitude to (R114). -/
def wholeOf (r : Rnd) (neg : Bool) (x : ℚ) : ℤ :=
  if decide ((⌊x⌋ : ℚ) < x) && goesUp r neg (decide (⌊x⌋ % 2 = 1)) ⌊x⌋ x (⌊x⌋ + 1) 0 then ⌊x⌋ + 1 else ⌊x⌋

theorem wholeOf_intCast (r : Rnd) (neg : Bool) (t : ℤ) : wholeOf r neg t = t := by simp [wholeOf]

theorem roundInt_eq_wholeOf (r : Rnd) (neg : Bool) (n : Nat) (e : Int) :
    (((roundInt r 0 neg n e).1 : ℕ) : ℤ) = wholeOf r neg ((n : ℚ) * 2 ^ e) := by
  obtain ⟨t, ht, hr⟩ := roundInt_eq r 0 neg n e
  have hodd : (t : ℤ) % 2 = 1 ↔ t % 2 = 1 := by omega
  rw [hr, wholeOf, ← ht]
  simp only [hodd, Int.cast_natCast, apply_ite (Nat.cast (R := ℤ)), Nat.cast_add, Nat.cast_one]

/-- Each of the four is exact: its result is the whole number of its mode, with the sign of its source (R128). -/
theorem unaryLane_integral (r : Rnd) (neg : Bool) {c : Nat} (hc : c ≤ FloatFmt.f32.maxBits) :
    ∃ c' ≤ FloatFmt.f32.maxBits,
      unaryLane (integralF32 r) (BitVec.ofNat 32 (FloatFmt.f32.signBit neg + c)) =
        (BitVec.ofNat 32 (FloatFmt.f32.signBit neg + c'), 0) ∧
      FloatFmt.f32.mag c' = wholeOf r neg (FloatFmt.f32.mag c) := by
  obtain ⟨n, e, hx, hlt, hy⟩ := unaryLane_finite (integralF32 r) neg hc
  rw [hy, ← hx]
  by_cases he : 0 ≤ e
  · refine ⟨c, hc, by rw [integralF32, if_pos he, toNat_f32_pattern neg hc], ?_⟩
    obtain ⟨d, rfl⟩ := Int.eq_ofNat_of_zero_le he
    have hw := wholeOf_intCast r neg (n * 2 ^ d : ℕ)
    rw [← hx, zpow_natCast]
    push_cast at hw ⊢
    rw [hw]
    push_cast
    rfl
  · have hsmall : (n : ℚ) * 2 ^ e < 2 ^ 23 := by
      have h1 : (2 : ℚ) ^ e ≤ 2 ^ (-1 : ℤ) := zpow_le_zpow_right₀ (by norm_num) (by omega)
      have h2 : (n : ℚ) < 2 ^ 24 := by exact_mod_cast hlt
      have h3 : (0 : ℚ) ≤ n := by positivity
      calc (n : ℚ) * 2 ^ e ≤ n * 2 ^ (-1 : ℤ) := mul_le_mul_of_nonneg_left h1 h3
        _ < 2 ^ 24 * 2 ^ (-1 : ℤ) := by gcongr
        _ = 2 ^ 23 := by norm_num
    have hle : (roundInt r 0 neg n e).1 ≤ 2 ^ 23 := by
      have hf : ⌊(n : ℚ) * 2 ^ e⌋ < 2 ^ 23 := Int.floor_lt.mpr (by exact_mod_cast hsmall)
      have := roundInt_eq_wholeOf r neg n e
      unfold wholeOf at this
      split_ifs at this <;> omega
    obtain ⟨c', hc', hm⟩ := exists_mag_eq_whole hle
    refine ⟨c', hc', ?_, ?_⟩
    · have := roundNum_of_mag_eq FloatFmt.f32_sound .rne false 0 neg (e := 0) hc' (by rw [hm, zpow_zero, mul_one])
      simp [integralF32, he, this]
    · rw [hm, ← roundInt_eq_wholeOf]
      simp

/-! ### What each mode's whole number is -/

section
variable (x : ℚ)

theorem ceil_of_floor_lt (h : (⌊x⌋ : ℚ) < x) : ⌈x⌉ = ⌊x⌋ + 1 :=
  Int.ceil_eq_iff.mpr ⟨by push_cast; linarith, by push_cast; exact (Int.lt_floor_add_one x).le⟩

theorem ceil_of_not_floor_lt (h : ¬(⌊x⌋ : ℚ) < x) : ⌈x⌉ = ⌊x⌋ := by
  have : (⌊x⌋ : ℚ) = x := le_antisymm (Int.floor_le x) (not_lt.mp h)
  rw [← this, Int.ceil_intCast, Int.floor_intCast]

theorem wholeOf_rm_pos : wholeOf .rm false x = ⌊x⌋ := by simp [wholeOf, goesUp]

theorem wholeOf_rm_neg : wholeOf .rm true x = ⌈x⌉ := by
  by_cases h : (⌊x⌋ : ℚ) < x
  · simp [wholeOf, goesUp, h, ceil_of_floor_lt x h]
  · simp [wholeOf, h, ceil_of_not_floor_lt x h]

theorem wholeOf_rp (neg : Bool) : wholeOf .rp neg x = wholeOf .rm (!neg) x := rfl

theorem wholeOf_rz (neg : Bool) : wholeOf .rz neg x = ⌊x⌋ := by simp [wholeOf, goesUp]

/-- The nearest whole number, and at a tie the even one. -/
theorem wholeOf_rne (neg : Bool) :
    2 * |x - wholeOf .rne neg x| ≤ 1 ∧ (2 * |x - wholeOf .rne neg x| = 1 → wholeOf .rne neg x % 2 = 0) := by
  have h1 := Int.floor_le x
  have h2 := Int.lt_floor_add_one x
  generalize ht : ⌊x⌋ = t at h1 h2
  have hup : wholeOf .rne neg x = if (t : ℚ) + 1 - x < x - t ∨ (t + 1 - x = x - t ∧ t % 2 = 1) then t + 1 else t := by
    rw [wholeOf, ht]
    by_cases h : (t : ℚ) < x
    · simp [goesUp, h]
    · rw [if_neg (by simp [h]), if_neg]
      rintro (h' | ⟨h', -⟩) <;> linarith
  rw [hup]
  split
  case isTrue h =>
    have habs : |x - ((t + 1 : ℤ) : ℚ)| = t + 1 - x := by
      rw [abs_sub_comm]
      push_cast
      exact abs_of_pos (by linarith)
    rw [habs]
    refine ⟨by rcases h with h | ⟨h, -⟩ <;> linarith, fun heq => ?_⟩
    rcases h with h | ⟨-, h⟩
    · linarith
    · omega
  case isFalse h =>
    obtain ⟨hle, htie⟩ := not_or.mp h
    rw [abs_of_nonneg (by linarith)]
    refine ⟨by linarith, fun heq => ?_⟩
    have : ¬t % 2 = 1 := fun hodd => htie ⟨by linarith, hodd⟩
    omega

end

/-- A mode's whole number of a magnitude, with its sign, is what is asked of the value. -/
def WholeFits (r : Rnd) (result : ℚ → ℤ → Prop) : Prop :=
  ∀ (neg : Bool) (x : ℚ), 0 ≤ x → result (if neg then -x else x) (if neg then -wholeOf r neg x else wholeOf r neg x)

theorem wholeFits_floor : WholeFits .rm fun a w => w = ⌊a⌋ := by
  intro neg x _
  cases neg
  · exact wholeOf_rm_pos x
  · simp [wholeOf_rm_neg, Int.floor_neg]

theorem wholeFits_ceil : WholeFits .rp fun a w => w = ⌈a⌉ := by
  intro neg x _
  cases neg
  · simp [wholeOf_rp, wholeOf_rm_neg]
  · simp [wholeOf_rp, wholeOf_rm_pos, Int.ceil_neg]

theorem wholeFits_trunc : WholeFits .rz fun a w => w = if 0 ≤ a then ⌊a⌋ else ⌈a⌉ := by
  intro neg x hx
  cases neg
  · simp [wholeOf_rz, hx]
  · rcases hx.eq_or_lt with rfl | hx
    · simp [wholeOf_rz]
    · simp [wholeOf_rz, Int.ceil_neg, not_le.mpr hx]

theorem wholeFits_nearest : WholeFits .rne fun a w => 2 * |a - w| ≤ 1 ∧ (2 * |a - w| = 1 → w % 2 = 0) := by
  intro neg x _
  obtain ⟨h1, h2⟩ := wholeOf_rne x neg
  cases neg
  · exact ⟨h1, h2⟩
  · have habs : |-x - ((-wholeOf .rne true x : ℤ) : ℚ)| = |x - wholeOf .rne true x| := by
      rw [Int.cast_neg, ← neg_sub', abs_neg]
    simp only [if_true, habs]
    exact ⟨h1, fun h => by have := h2 h; omega⟩

/-- An integral function of a pattern is the pattern of a whole number that fits it. -/
theorem unaryLane_whole {r : Rnd} {result : ℚ → ℤ → Prop} (h : WholeFits r result) (neg : Bool) {c : Nat}
    (hc : c ≤ FloatFmt.f32.maxBits) :
    ∃ c' ≤ FloatFmt.f32.maxBits, ∃ w : ℤ,
      unaryLane (integralF32 r) (BitVec.ofNat 32 (FloatFmt.f32.signBit neg + c)) =
        (BitVec.ofNat 32 (FloatFmt.f32.signBit neg + c'), 0) ∧
      result (if neg then -FloatFmt.f32.mag c else FloatFmt.f32.mag c) w ∧
      (w : ℚ) = if neg then -FloatFmt.f32.mag c' else FloatFmt.f32.mag c' := by
  obtain ⟨c', hc', hy, hm⟩ := unaryLane_integral r neg hc
  refine ⟨c', hc', _, hy, h neg _ (FloatFmt.f32.mag_nonneg c), ?_⟩
  rw [hm]
  cases neg <;> simp

/-! ### The obligation -/

/-- The value of an F32 pattern, in the terms of O7. -/
theorem f32_mag_eq (c : Nat) :
    FloatFmt.f32.mag c = if c < 2 ^ 23 then (c : ℚ) * 2 ^ (-149 : ℤ)
      else (2 ^ 23 + c % 2 ^ 23 : ℕ) * 2 ^ ((c / 2 ^ 23 : ℕ) - 150 : ℤ) := by
  have hq : FloatFmt.f32.qmin + ((c / 2 ^ 23 : ℕ) : ℤ) - 1 = (c / 2 ^ 23 : ℕ) - 150 := by
    change (-149 : ℤ) + _ - 1 = _
    omega
  rw [FloatFmt.mag, ← hq]
  exact if_congr (Nat.div_eq_zero_iff_lt (Nat.two_pow_pos 23)) rfl rfl

/-- Settles O7: the form of each instruction, the tables of the unary functions, the root, and the whole numbers. -/
theorem floatSelectAndUnaryComplete : Obligations.FloatSelectAndUnaryComplete := by
  unfold Obligations.FloatSelectAndUnaryComplete
  refine ⟨fun s f o o1 t t3 pk code => ?_, fun s f o i zero inf hi h => ?_, fun s f o => ?_⟩
  · intro a b x gives k nv pick signs f32
    refine ⟨exec_of_issueFloat (exec_fmin_eq o t s) (fun l => ?_) (tagF_eq _),
      exec_of_issueFloat (exec_fmax_eq o t s) (fun l => ?_) (tagF_eq _),
      exec_of_issueFloat (exec_fscale_eq o t3 s) (fun _ => rfl) (tagF_eq _),
      exec_of_issueFloat (exec_fabs_eq o1 t3 s) (fun _ => rfl) (tagF_eq _),
      exec_of_issueFloat (exec_fneg_eq o1 t3 s) (fun _ => rfl) (tagF_eq _),
      exec_of_issueFloat (exec_fpack_eq o pk s) (fun l => ?_) (tagF_eq _), ?_⟩
    · exact congrArg (fun op => elemOp k op (a.lane l) (b.lane l)) (funext₂ (minMax_eq k false))
    · exact congrArg (fun op => elemOp k op (a.lane l) (b.lane l)) (funext₂ (minMax_eq k true))
    · cases pk
      case merge => rfl
      case f16 => exact packed_eq (k := .f16) rfl _ _
      case bf16 => exact packed_eq (k := .bf16) rfl _ _
    · intro c el hc
      exact exec_of_issueFloat (exec_funpk_eq o1 s code)
        (fun l => congrArg roundF32 (unpackElem_value hc (x.lane l))) (tagF_eq _)
  · simp only [List.mem_cons, List.not_mem_nil, or_false, Prod.mk.injEq] at hi
    rcases hi with ⟨rfl, rfl, rfl⟩ | ⟨rfl, rfl, rfl⟩ | ⟨rfl, rfl, rfl⟩ | ⟨rfl, rfl, rfl⟩ | ⟨rfl, rfl, rfl⟩ |
      ⟨rfl, rfl, rfl⟩ | ⟨rfl, rfl, rfl⟩ | ⟨rfl, rfl, rfl⟩ | ⟨rfl, rfl, rfl⟩ | ⟨rfl, rfl, rfl⟩ | ⟨rfl, rfl, rfl⟩ |
      ⟨rfl, rfl, rfl⟩
    · exact unary_completes (exec_fsqrt_eq o s) sqrtF32_table h
    · exact unary_completes (exec_frsq_eq o s) rsqF32_table h
    · exact unary_completes (exec_frcp_eq o s) rcpF32_table h
    · exact unary_completes (exec_fexp2_eq o s) exp2F32_table h
    · exact unary_completes (exec_flog2_eq o s) log2F32_table h
    · exact unary_completes (exec_fsin_eq o s) sinF32_table h
    · exact unary_completes (exec_fcos_eq o s) cosF32_table h
    · exact unary_completes (exec_ftanh_eq o s) tanhF32_table h
    · exact unary_completes (exec_ffloor_eq o s) (integralF32_table .rm) h
    · exact unary_completes (exec_fceil_eq o s) (integralF32_table .rp) h
    · exact unary_completes (exec_ftrunc_eq o s) (integralF32_table .rz) h
    · exact unary_completes (exec_frint_eq o s) (integralF32_table .rne) h
  · intro x top val sgn gives invalid whole
    have hval : val = FloatFmt.f32.mag := funext fun c => (f32_mag_eq c).symm
    have completes {i : Instr} {op : Word → Num → Nat × Flags} {holds : (Word → Word × Flags) → Prop}
        (he : exec i s = unaryF32 i o op s) (hx : f.psrc (opndsOf i).isReader o.a o.pa = x)
        (hop : holds (unaryLane op)) : gives i holds := fun h => ⟨unaryLane op, hop, hx ▸ exec_of_unary he h⟩
    have hwhole {r : Rnd} {result : ℚ → ℤ → Prop} (h : WholeFits r result) : whole result (unaryLane (integralF32 r)) := by
      intro neg c hc
      rw [hval]
      exact unaryLane_whole h neg hc
    refine ⟨completes (exec_fsqrt_eq o s) rfl ⟨fun c => unaryLane_negative sqrtF32_negative, fun c h0 hc => ?_⟩,
      completes (exec_frsq_eq o s) rfl fun c => unaryLane_negative rsqF32_negative,
      completes (exec_flog2_eq o s) rfl fun c => unaryLane_negative log2F32_negative,
      completes (exec_ffloor_eq o s) rfl (hwhole wholeFits_floor),
      completes (exec_fceil_eq o s) rfl (hwhole wholeFits_ceil),
      completes (exec_ftrunc_eq o s) rfl (hwhole wholeFits_trunc),
      completes (exec_frint_eq o s) rfl (hwhole wholeFits_nearest)⟩
    rw [hval]
    exact unaryLane_sqrt h0 hc

end Sys2Proof.Machine
end

section
/-! PROOFS. FSET (04_float.md R127): the condition on every element of a lane, and the flag of a signalling NaN. -/

namespace Sys2Proof.Machine

/-- A condition is decided by a NaN, or else by the order of the two values (R127). -/
theorem fcondHolds_eq (c : FCond) (x y : Machine.Num) :
    fcondHolds c x y = if x.isNan || y.isNan then c == .ne || c == .un
      else match c with
        | .eq => x.eqv y | .ne => !x.eqv y | .lt => x.lt y | .le => !y.lt x | .gt => y.lt x | .ge => !x.lt y
        | .un => false | .ord => true := by
  cases hn : (x.isNan || y.isNan)
  · cases c <;> simp [fcondHolds, hn]
  · cases c <;> simp only [fcondHolds, hn] <;> rfl

/-- A lane is listed as active exactly when its bit is set. -/
theorem Mask.mem_toLanes {m : Mask} {l : Nat} : l ∈ Mask.toLanes m ↔ l < 32 ∧ m.getLsbD l = true := by
  simp [Mask.toLanes, lanes]

/-- Settles O9: the bits written are those of the condition, and the flag is that of a lane with a signalling NaN. -/
theorem floatCompareCompletes : Obligations.FloatCompareCompletes := by
  unfold Obligations.FloatCompareCompletes
  intro s f c o t h k a b vals holds
  refine ⟨_, _, issueCmp_of_issues h o.p _, fun l hl => ?_, ?_, ?_⟩
  · rw [Mask.getLsbD_ofLanes _ hl]
    simp only [fcondHolds_eq]
    rfl
  · dsimp only
    split
    · exact .inl rfl
    · exact .inr rfl
  · have hne : ¬ (0 : Flags) = flagNV := by decide
    simp only [ite_eq_left_iff, hne, imp_false, not_not, List.any_eq_true, Mask.mem_toLanes, Bool.or_eq_true, and_assoc]
    rfl

end Sys2Proof.Machine
end

section
/-! PROOFS. Events on the tokens of a cord that stand in hardware, with none in the spill area and no pending path: JOIN and
RET (05_control.md R145, R146, R148, R158). -/

namespace Sys2Proof.Machine

/-! ### Numbered lists -/

/-- The entries of a list with their places, as the token events number tokens from the newest. -/
def numbered {α : Type} (l : List α) : List (Nat × α) := (List.range l.length).zip l

theorem numbered_eq_zipIdx {α : Type} (l : List α) : numbered l = l.zipIdx.map Prod.swap := by
  rw [numbered, List.zipIdx_eq_zip_range', ← List.range_eq_range', List.zip_swap]

theorem map_numbered {α β : Type} (g : Nat × α → β) (l : List α) :
    (numbered l).map g = l.mapIdx fun k a => g (k, a) := by
  rw [numbered_eq_zipIdx, List.map_map, List.mapIdx_eq_zipIdx_map]; rfl

/-! ### Tokens in hardware -/

section
variable {st : Stand} {c : Cord}

theorem allTokens_of_unspilled (hs : c.spilled = 0) : allTokens st c = c.tokens := by
  simp [allTokens, spilledTokens, hs]

theorem sourced_of_unspilled (hs : c.spilled = 0) : sourced st c = c.tokens.map fun t => (t, none) := by
  simp [sourced, hs]

/-- Tokens that the hardware holds are kept there, none read back and none spilled (R147). -/
theorem setTokens_in_hardware {toks : List Token} (hs : c.spilled = 0) (hl : toks.length ≤ 8) :
    setTokens st c (toks.map fun t => (t, none)) = .ok (st, { c with tokens := toks }) := by
  have htake : (toks.map fun t => (t, (none : Option Nat))).take 8 = toks.map fun t => (t, none) :=
    List.take_of_length_le (by simpa using hl)
  have hdrop : (toks.map fun t => (t, (none : Option Nat))).drop 8 = [] := List.drop_eq_nil_of_le (by simpa using hl)
  have hback : (toks.map fun t => (t, (none : Option Nat))).filterMap Prod.snd = [] := by simp
  have hall : (toks.map fun t => (t, (none : Option Nat))).map Prod.fst = toks := by simp [Function.comp_def]
  rw [setTokens, htake, hdrop, hback, hall]
  simp [spillTokens, ← hs]

/-- With no pending path nothing is promoted (R148). -/
theorem promote_of_no_pending (now : Nat) (hp : c.pending = []) : promote now st c = .ok (st, c) := by
  have into (b : Bool) : promoteInto now b st c = .ok (st, c) := by simp only [promoteInto, hp]
  simp only [promote, into, ite_self]

@[simp] theorem Cord.setSlot_tokens (c : Cord) (b : Bool) (p : Option Path) : (c.setSlot b p).tokens = c.tokens := by
  cases b <;> rfl
@[simp] theorem Cord.setSlot_spilled (c : Cord) (b : Bool) (p : Option Path) : (c.setSlot b p).spilled = c.spilled := by
  cases b <;> rfl
@[simp] theorem Cord.setSlot_pending (c : Cord) (b : Bool) (p : Option Path) : (c.setSlot b p).pending = c.pending := by
  cases b <;> rfl
@[simp] theorem Cord.setSlot_id (c : Cord) (b : Bool) (p : Option Path) : (c.setSlot b p).id = c.id := by
  cases b <;> rfl

/-! ### An event on the tokens -/

/-- A cord's tokens as an event leaves each, and whether it affects it. -/
def Cord.changed (c : Cord) (change : Nat → Token → Option Token) : List ((Token × Option Nat) × Bool) :=
  c.tokens.mapIdx fun k t => (((change k t).getD t, none), (change k t).isSome)

/-- What an event comes to once its tokens are tested: the cord has those left, and the path that a completed one resumes
takes a place. -/
def afterTest (now : Nat) (st : Stand) (c : Cord) (r : List (Token × Option Nat) × Option (Pc × Mask)) : Ctl :=
  match setTokens st c r.1 with
  | .error e => .error e
  | .ok (st, c) =>
    match (match r.2 with | some (pc, m) => takeSlot now st c pc m pendHead | none => .ok (st, c)) with
    | .error e => .error e
    | .ok (st, c) => promote now st c

theorem tokenEvent_eq (now : Nat) (change : Nat → Token → Option Token) (hs : c.spilled = 0) :
    tokenEvent now st c change = afterTest now st c (testTokens (c.changed change)) := by
  have hmark : c.changed change = (numbered (sourced st c)).map fun (k, x) =>
      match change k x.1 with
      | none => (x, false)
      | some t => ((t, x.2), true) := by
    rw [sourced_of_unspilled hs, map_numbered, Cord.changed]
    apply List.ext_getElem (by simp)
    intro k h1 h2
    simp only [List.getElem_mapIdx, List.getElem_map]
    cases change k _ <;> rfl
  rw [hmark]
  rfl

theorem afterTest_none (now : Nat) {toks : List Token} (hs : c.spilled = 0) (hl : toks.length ≤ 8) (hp : c.pending = []) :
    afterTest now st c (toks.map fun t => (t, none), none) = .ok (st, { c with tokens := toks }) := by
  simp only [afterTest, setTokens_in_hardware hs hl]
  exact promote_of_no_pending now hp

theorem afterTest_some (now : Nat) {toks : List Token} {pc : Pc} {m : Mask} {c' : Cord} (hs : c.spilled = 0)
    (hl : toks.length ≤ 8) (hslot : takeSlot now st { c with tokens := toks } pc m pendHead = .ok (st, c'))
    (hp : c'.pending = []) :
    afterTest now st c (toks.map fun t => (t, none), some (pc, m)) = .ok (st, c') := by
  simp only [afterTest, setTokens_in_hardware hs hl, hslot]
  exact promote_of_no_pending now hp

/-- An event that completes none of the tokens it affects leaves every token in its place (R145). -/
theorem testTokens_of_incomplete : ∀ {l : List ((Token × Option Nat) × Bool)},
    (∀ x ∈ l, x.2 = true → x.1.1.w ≠ x.1.1.m) → testTokens l = (l.map Prod.fst, none)
  | [], _ => rfl
  | (x, false) :: r, h => by
    rw [testTokens, testTokens_of_incomplete fun y hy => h y (List.mem_cons_of_mem _ hy)]; rfl
  | (x, true) :: r, h => by rw [testTokens, if_neg (h _ List.mem_cons_self rfl)]; rfl

theorem tokenEvent_of_incomplete (now : Nat) {change : Nat → Token → Option Token} (hs : c.spilled = 0)
    (hl : c.tokens.length ≤ 8) (hp : c.pending = [])
    (h : ∀ k t t', c.tokens[k]? = some t → change k t = some t' → t'.w ≠ t'.m) :
    tokenEvent now st c change = .ok (st, { c with tokens := c.tokens.mapIdx fun k t => (change k t).getD t }) := by
  have hinc : ∀ x ∈ c.changed change, x.2 = true → x.1.1.w ≠ x.1.1.m := by
    intro x hx hs
    obtain ⟨k, hk, rfl⟩ := List.mem_mapIdx.mp hx
    obtain ⟨t', ht'⟩ := Option.isSome_iff_exists.mp hs
    simpa only [ht', Option.getD_some] using h k _ t' (List.getElem?_eq_getElem hk) ht'
  have hfst : (c.changed change).map Prod.fst =
      (c.tokens.mapIdx fun k t => (change k t).getD t).map fun t => (t, none) :=
    List.ext_getElem (by simp [Cord.changed]) fun k _ _ => by simp [Cord.changed]
  rw [tokenEvent_eq now change hs, testTokens_of_incomplete hinc, hfst]
  exact afterTest_none now hs (Nat.le_trans (Nat.le_of_eq List.length_mapIdx) hl) hp

section
variable (now : Nat) {change : Nat → Token → Option Token} {t t' : Token} {r : List Token} {c' : Cord}
  (hs : c.spilled = 0) (ht : c.tokens = t :: r) (h0 : change 0 t = some t') (hr : ∀ k x, change (k + 1) x = none)
include ht h0 hr

theorem Cord.changed_newest : c.changed change = ((t', none), true) :: r.map fun x => ((x, none), false) := by
  rw [Cord.changed, ht, List.mapIdx_cons, h0]
  exact congrArg _ (List.ext_getElem (by simp) fun k _ _ => by simp [hr])

include hs

/-- An event that affects the newest token alone and does not complete it (R145). -/
theorem tokenEvent_newest_incomplete (hl : r.length < 8) (hw : t'.w ≠ t'.m) (hp : c.pending = []) :
    tokenEvent now st c change = .ok (st, { c with tokens := t' :: r }) := by
  have htest : testTokens (c.changed change) = ((t' :: r).map fun x => (x, none), none) := by
    rw [Cord.changed_newest ht h0 hr, testTokens, if_neg hw]
    simp [Function.comp_def]
  rw [tokenEvent_eq now change hs, htest]
  exact afterTest_none now hs hl hp

/-- An event that affects the newest token alone and completes it: the token is gone, and its members go on as a path of
their own, after the JOIN or at the return address (R145). -/
theorem tokenEvent_newest_complete (hl : r.length ≤ 8) (hw : t'.w = t'.m) (hm : t'.m ≠ 0)
    (hslot : takeSlot now st { c with tokens := r } (if t'.call then t'.rpc else t'.rpc + 4) t'.m pendHead = .ok (st, c'))
    (hp : c'.pending = []) : tokenEvent now st c change = .ok (st, c') := by
  have htest : testTokens (c.changed change) =
      (r.map fun x => (x, none), some (if t'.call then t'.rpc else t'.rpc + 4, t'.m)) := by
    rw [Cord.changed_newest ht h0 hr, testTokens, if_pos hw, if_neg hm]
    simp [Function.comp_def]
  rw [tokenEvent_eq now change hs, htest]
  exact afterTest_some now hs hl hslot hp

end

/-! ### JOIN and RET -/

/-- The newest token is the innermost of every path it has a lane of (R144). -/
theorem innermost_head {t : Token} {r : List Token} {m : Mask} (h : t.m &&& m ≠ 0) : innermost (t :: r) m = some (0, t) := by
  rw [innermost, List.length_cons, List.range_succ_eq_map, List.zip_cons_cons, List.find?_cons_of_pos (by simpa using h)]

/-- A merged path takes the slot that its last arrival has left, but slot A where both are free (R419, log 29). -/
theorem takeSlot_own {now : Nat} {b : Bool} {pc : Pc} {m : Mask} {full : Nat → Stand → Cord → Pc → Mask → Ctl}
    (hb : c.slot b = none) (ha : b = true → c.slotA.isSome) :
    takeSlot now st c pc m full = .ok (st, c.setSlot b (some (livePath now pc m))) := by
  cases b
  · have hn : c.slotA = none := hb
    simp [takeSlot, hn]
  · have hn : c.slotB = none := hb
    simp [takeSlot, hn, Option.isSome_iff_ne_none.mp (ha rfl)]

end

/-- A control event that keeps the spill area as it is and leaves its slot free: no path is in focus. -/
theorem issueCtl_of_ok_gone {i : Instr} {s : State} {f : Focus} {g : Focus → Ctl} {c : Cord} (h : Issues i s f)
    (hg : g f = .ok (f.stand, c)) (hs : c.spillPlaces = f.cord.spillPlaces) (hp : c.slot f.slotB = none) :
    issueCtl i s g = .next (s.seat (f.stand.modCord c.id fun _ => c)) := by
  simp only [issueCtl_of_issues h, hg, State.spillBad_same s _ hs, State.mendSpill_same s _ hs, State.settle, hp]
  rfl

section
variable {i : Instr} {s : State} {f : Focus} {call : Bool} {t : Token} {r : List Token} (h : Issues i s f)
  (ht : f.cord.tokens = t :: r) (hl : r.length < 8) (hs : f.cord.spilled = 0) (hp : f.cord.pending = [])
  (hm : t.m &&& f.path.mask ≠ 0)
include h ht hs hm

/-- A path whose innermost token is of the other kind, or at another JOIN, is at fault (R146). -/
theorem waitIn_of_mismatch (hk : ¬(t.call = call ∧ (call = true ∨ t.rpc = f.path.pc))) :
    waitIn i call s = .next (s.faulted i f { code := .tokenMismatch }) := by
  refine issueCtl_of_own h ?_
  simp only [allTokens_of_unspilled hs, ht, innermost_head hm, if_neg hk]

include hl hp

/-- A path that is not the last to arrive waits in its innermost token, and its slot is free (R146). -/
theorem waitIn_of_incomplete (hk : t.call = call ∧ (call = true ∨ t.rpc = f.path.pc)) (hw : t.w ||| f.path.mask ≠ t.m) :
    waitIn i call s = .next (s.seat (f.stand.modCord f.cord.id fun _ =>
      { f.cord.setSlot f.slotB none with tokens := { t with w := t.w ||| f.path.mask } :: r })) := by
  rw [← Cord.setSlot_id f.cord f.slotB none]
  refine issueCtl_of_ok_gone (c := { f.cord.setSlot f.slotB none with tokens := { t with w := t.w ||| f.path.mask } :: r })
    h ?_ (Cord.spillPlaces_setSlot ..) (Cord.slot_setSlot_same ..)
  simp only [allTokens_of_unspilled hs, ht, innermost_head hm, if_pos hk]
  exact tokenEvent_newest_incomplete s.clock (by simpa using hs) (by simpa using ht) rfl (fun _ _ => rfl) hl hw
    (by simpa using hp)

/-- The last path to arrive completes its innermost token, whose members go on in its slot (R145). -/
theorem waitIn_of_complete (hk : t.call = call ∧ (call = true ∨ t.rpc = f.path.pc)) (hw : t.w ||| f.path.mask = t.m)
    (ha : f.slotB = true → f.cord.slotA.isSome) :
    let p := livePath s.clock (if call then t.rpc else t.rpc + 4) t.m
    waitIn i call s = .next { s with focus := some { f with
      cord := { f.cord.setSlot f.slotB (some p) with tokens := r }, path := p } } := by
  intro p
  have hne : t.m ≠ 0 := fun h0 => hm (by rw [h0]; exact BitVec.zero_and)
  refine issueCtl_of_ok h ?_ (Cord.spillPlaces_setSlot ..) (Cord.slot_setSlot_same ..)
  simp only [allTokens_of_unspilled hs, ht, innermost_head hm, if_pos hk]
  refine tokenEvent_newest_complete s.clock (by simpa using hs) (by simpa using ht) rfl (fun _ _ => rfl) hl.le hw hne ?_
    (by simpa using hp)
  rw [takeSlot_own (b := f.slotB), hk.1]
  · cases f.slotB <;> rfl
  · cases f.slotB <;> rfl
  · intro hb
    have := ha hb
    rw [hb]
    exact this

end

/-! ### The obligation -/

/-- Settles O12: the path's innermost token is the newest, and it is the only one that the event affects. -/
theorem joinReturnComplete : Obligations.JoinReturnComplete := by
  unfold Obligations.JoinReturnComplete
  intro s f call t r i m w h ht hl hs _ hp hm
  have he : exec i s = waitIn i call s := by cases call <;> rfl
  rw [he]
  refine ⟨fun hk hpc hw => waitIn_of_incomplete h ht hl hs hp hm ⟨hk, hpc⟩ hw,
    fun hk hpc hw ha => waitIn_of_complete h ht hl hs hp hm ⟨hk, hpc⟩ hw ha, fun hk => waitIn_of_mismatch h ht hs hm ?_⟩
  rintro ⟨hc, hpc⟩
  rcases hk with hk | ⟨hf, hne⟩
  · exact hk hc
  · exact hpc.elim (fun hcall => by rw [hf] at hcall; cases hcall) hne

end Sys2Proof.Machine
end

section
/-! PROOFS. BRK, EXIT and YIELD (05_control.md R146, R148, R159, R160). -/

namespace Sys2Proof.Machine

/-! ### The innermost tokens of a path -/

/-- Which entries are among the first d that pass a test. -/
theorem mem_take_filter_zipIdx {α : Type} (q : α → Bool) (x : α) : ∀ (l : List α) (n d k : Nat),
    (x, n + k) ∈ ((l.zipIdx n).filter fun y => q y.1).take d ↔
      l[k]? = some x ∧ q x = true ∧ ((l.take k).filter q).length < d
  | [], n, d, k => by simp
  | a :: l, n, d, k => by
    have later (e : Nat) : (x, n) ∉ ((l.zipIdx (n + 1)).filter fun y => q y.1).take e := fun h =>
      absurd (List.le_snd_of_mem_zipIdx (List.mem_of_mem_filter (List.mem_of_mem_take h))) (by simp)
    have ih (e k : Nat) := mem_take_filter_zipIdx q x l (n + 1) e k
    rw [List.zipIdx_cons]
    cases k with
    | zero =>
      cases hq : q a
      · have : ¬(a = x ∧ q x = true) := fun ⟨hax, hx⟩ => by rw [hax, hx] at hq; cases hq
        simp [hq, later, ← and_assoc, this]
      · cases d with
        | zero => simp
        | succ d =>
          have : x = a ↔ a = x ∧ q x = true := ⟨fun hx => ⟨hx.symm, hx ▸ hq⟩, fun h => h.1.symm⟩
          simpa [hq, later] using this
    | succ k =>
      have e : n + (k + 1) = n + 1 + k := by omega
      have hne : n + 1 + k ≠ n := by omega
      cases hq : q a
      · simp [hq, e, ih]
      · cases d with
        | zero => simp
        | succ d => simp [hq, e, hne, ih]

/-- The d innermost tokens of a mask, by their places from the newest (R144). -/
def innerTokens (m : Mask) (d : Nat) (toks : List Token) : List (Nat × Token) :=
  ((numbered toks).filter fun x => decide (x.2.m &&& m ≠ 0)).take d

section
variable (m : Mask) (d : Nat) (toks : List Token)

theorem map_snd_filter_numbered :
    ((numbered toks).filter fun x => decide (x.2.m &&& m ≠ 0)).map Prod.snd =
      toks.filter fun t => decide (t.m &&& m ≠ 0) := by
  have h : (numbered toks).map Prod.snd = toks := List.map_snd_zip (by simp)
  conv_rhs => rw [← h, List.filter_map]
  rfl

theorem map_snd_innerTokens :
    (innerTokens m d toks).map Prod.snd = (toks.filter fun t => decide (t.m &&& m ≠ 0)).take d := by
  rw [innerTokens, List.map_take, map_snd_filter_numbered]

theorem mem_innerTokens {k : Nat} {t : Token} :
    (k, t) ∈ innerTokens m d toks ↔ toks[k]? = some t ∧ t.m &&& m ≠ 0 ∧
      ((toks.take k).filter fun x => decide (x.m &&& m ≠ 0)).length < d := by
  have h := mem_take_filter_zipIdx (fun x : Token => decide (x.m &&& m ≠ 0)) t toks 0 d k
  rw [Nat.zero_add, decide_eq_true_iff] at h
  rw [← h, innerTokens, numbered_eq_zipIdx, List.filter_map, ← List.map_take, ← Prod.swap_prod_mk,
    List.mem_map_of_injective Prod.swap_injective]
  rfl

end

/-- A token as lanes have left it (R159). -/
def Token.leave (t : Token) (m : Mask) : Token := { t with m := t.m &&& ~~~m, w := t.w &&& ~~~m }

/-- What BRK does to the token at a place: its lanes leave the d innermost of theirs, and no others (R159). -/
def leaveInner (m : Mask) (d : Nat) (toks : List Token) (k : Nat) (x : Token) : Option Token :=
  if (innerTokens m d toks).any fun y => decide (y.1 = k) then some (x.leave m) else none

theorem leaveInner_eq {m : Mask} {d : Nat} {toks : List Token} {k : Nat} {t : Token} (hk : toks[k]? = some t) :
    leaveInner m d toks k t = if t.m &&& m ≠ 0 ∧ ((toks.take k).filter fun x => decide (x.m &&& m ≠ 0)).length < d then
      some (t.leave m) else none := by
  have h : ((innerTokens m d toks).any fun y => decide (y.1 = k)) = true ↔
      t.m &&& m ≠ 0 ∧ ((toks.take k).filter fun x => decide (x.m &&& m ≠ 0)).length < d := by
    simp only [List.any_eq_true, decide_eq_true_iff]
    constructor
    · rintro ⟨⟨j, x⟩, hmem, rfl⟩
      obtain ⟨hj, hx⟩ := (mem_innerTokens m d toks).mp hmem
      obtain rfl : t = x := Option.some.inj (hk.symm.trans hj)
      exact hx
    · exact fun hx => ⟨(k, t), (mem_innerTokens m d toks).mpr ⟨hk, hx⟩, rfl⟩
  simp only [leaveInner, h]

/-! ### BRK -/

section
variable {s : State} {f : Focus} {depth : BitVec 3} {disp : BitVec 21} (h : Issues (.brk depth disp) s f)
  (hs : f.cord.spilled = 0)
include h hs

/-- BRK of a path with too few tokens, or with a CALL token among those it would leave, is a fault (R159). -/
theorem exec_brk_of_mismatch
    (hbad : (f.cord.tokens.filter fun t => decide (t.m &&& f.path.mask ≠ 0)).length < depth.toNat + 1 ∨
      ∃ t ∈ (f.cord.tokens.filter fun t => decide (t.m &&& f.path.mask ≠ 0)).take (depth.toNat + 1), t.call = true) :
    exec (.brk depth disp) s = .next (s.faulted (.brk depth disp) f { code := .tokenMismatch }) := by
  refine issueCtl_of_own h ?_
  simp only [allTokens_of_unspilled hs]
  refine if_pos ?_
  rw [← map_snd_innerTokens, ← map_snd_filter_numbered, List.length_map] at hbad
  refine hbad.imp_right fun ⟨t, ht, hc⟩ => ?_
  obtain ⟨x, hx, rfl⟩ := List.mem_map.mp ht
  exact List.any_eq_true.mpr ⟨x, hx, hc⟩

/-- BRK that completes none of the tokens it leaves (R159). -/
theorem exec_brk_of_incomplete (hl : f.cord.tokens.length ≤ 8) (hp : f.cord.pending = [])
    (hn : depth.toNat + 1 ≤ (f.cord.tokens.filter fun t => decide (t.m &&& f.path.mask ≠ 0)).length)
    (hok : ∀ t ∈ (f.cord.tokens.filter fun t => decide (t.m &&& f.path.mask ≠ 0)).take (depth.toNat + 1),
      t.call = false ∧ (t.leave f.path.mask).w ≠ (t.leave f.path.mask).m) :
    let p := f.path.next (branchTo f.path.pc disp)
    exec (.brk depth disp) s = .next { s with focus := some { f with
      cord := { f.cord.setSlot f.slotB (some p) with tokens := f.cord.tokens.mapIdx fun k t =>
        (leaveInner f.path.mask (depth.toNat + 1) f.cord.tokens k t).getD t }, path := p } } := by
  intro p
  refine issueCtl_of_ok h ?_ (Cord.spillPlaces_setSlot ..) (Cord.slot_setSlot_same ..)
  simp only [allTokens_of_unspilled hs]
  refine (if_neg ?_).trans ?_
  · rw [← map_snd_innerTokens] at hok
    rw [← map_snd_filter_numbered, List.length_map] at hn
    rintro (hlt | hany)
    · exact absurd hn (Nat.not_le.mpr hlt)
    · obtain ⟨x, hx, hc⟩ := List.any_eq_true.mp hany
      exact absurd hc (by simp [(hok _ (List.mem_map_of_mem hx)).1])
  · have hinc (k : Nat) (t t' : Token) (ht : (f.cord.setSlot f.slotB (some p)).tokens[k]? = some t)
        (hc : leaveInner f.path.mask (depth.toNat + 1) f.cord.tokens k t = some t') : t'.w ≠ t'.m := by
      rw [Cord.setSlot_tokens] at ht
      rw [leaveInner_eq ht, Option.ite_none_right_eq_some] at hc
      obtain ⟨hin, hleft⟩ := hc
      obtain rfl := Option.some.inj hleft
      have hmem := List.mem_map_of_mem (f := Prod.snd)
        ((mem_innerTokens f.path.mask (depth.toNat + 1) f.cord.tokens).mpr ⟨ht, hin⟩)
      rw [map_snd_innerTokens] at hmem
      exact (hok t hmem).2
    have hev := tokenEvent_of_incomplete (st := f.stand) s.clock (by simpa using hs) (by simpa using hl) (by simpa using hp)
      hinc
    rw [Cord.setSlot_tokens] at hev
    exact hev

end

/-! ### EXIT -/

/-- With no token there is nothing to complete. -/
theorem tokenEvent_of_no_tokens {now : Nat} {st : Stand} {c : Cord} (change : Nat → Token → Option Token)
    (ht : c.tokens = []) (hs : c.spilled = 0) (hp : c.pending = []) : tokenEvent now st c change = .ok (st, c) := by
  have hsame : { c with tokens := [] } = c := by rw [← ht]
  rw [tokenEvent_of_incomplete now hs (by simp [ht]) hp (by simp [ht]), ht, List.mapIdx_nil, hsame]

/-- The cord that a path's EXIT leaves: its lanes have exited, and its slot is free (R160). -/
def Focus.gone (f : Focus) : Cord :=
  { f.cord.setSlot f.slotB none with exited := f.cord.exited ||| f.path.mask }

/-- EXIT of a path outside any region; that of the last lanes of a cord ends the cord (R160). -/
theorem exec_exit {s : State} {f : Focus} (h : Issues .exit s f) (ht : f.cord.tokens = []) (hs : f.cord.spilled = 0)
    (hp : f.cord.pending = []) :
    let seated := s.seat (f.stand.modCord f.cord.id fun _ => f.gone)
    exec .exit s =
      .next (if f.gone.exited = BitVec.allOnes 32 then seated.finishCord f.stand f.gone else seated) := by
  intro seated
  have hgone : ({ f.cord with exited := f.cord.exited ||| f.path.mask } : Cord).setSlot f.slotB none = f.gone := by
    rw [Focus.gone]; cases f.slotB <;> rfl
  have hev (change : Nat → Token → Option Token) : tokenEvent s.clock f.stand f.gone change = .ok (f.stand, f.gone) :=
    tokenEvent_of_no_tokens change ((Cord.setSlot_tokens ..).trans ht) ((Cord.setSlot_spilled ..).trans hs)
      ((Cord.setSlot_pending ..).trans hp)
  have hplaces : f.gone.spillPlaces = f.cord.spillPlaces := Cord.spillPlaces_setSlot ..
  have hslot : f.gone.slot f.slotB = none := Cord.slot_setSlot_same ..
  have hid : f.gone.id = f.cord.id := Cord.setSlot_id ..
  refine issue_of_done h ?_
  simp only [hgone, hev, State.spillBad_same s f.stand hplaces, State.settle, hslot, hid, Bool.false_eq_true, if_false]
  split_ifs <;> rfl

/-! ### YIELD -/

section
variable {now : Nat} {st : Stand} {c : Cord}

/-- A path joins a queue that has room in hardware (R148). -/
theorem pendTail_room {pc : Pc} {m : Mask} (hl : c.pending.length < 2) (hr : c.ringCount = 0) :
    pendTail now st c pc m = .ok (st, { c with pending := c.pending ++ [⟨pc, m, 0, now⟩] }) := if_pos ⟨hl, hr⟩

/-- The head of a queue that stands in hardware takes a slot (R148). -/
theorem promoteInto_cons {b : Bool} {q : PendPath} {r : List PendPath} (hp : c.pending = q :: r) (hr : c.ringCount = 0) :
    promoteInto now b st c = .ok (st, { c.setSlot b (some (livePath now q.pc q.mask)) with pending := r }) := by
  have hring : (c.setSlot b (some (livePath now q.pc q.mask))).ringCount = 0 := by cases b <;> exact hr
  simp only [promoteInto, hp, refill, hring, lt_irrefl, and_false, if_false]

end

/-- The path that a YIELD leaves, behind it (R160). -/
def Focus.yielding (f : Focus) : Path := { f.path.next (f.path.pc + 4) with yielded := true }

/-- YIELD with no pending path is a HYLD (R160). -/
theorem exec_yield_of_no_pending {s : State} {f : Focus} (h : Issues .yield s f) (hp : f.cord.pending = []) :
    exec .yield s = .next { s with focus := some { f with
      cord := f.cord.setSlot f.slotB (some f.yielding), path := f.yielding } } :=
  issueCtl_of_ok h (if_pos hp) (Cord.spillPlaces_setSlot ..) (Cord.slot_setSlot_same ..)

/-- YIELD with one pending path: the two change places (R160). -/
theorem exec_yield_of_pending {s : State} {f : Focus} {q : PendPath} (h : Issues .yield s f) (hr : f.cord.ringCount = 0)
    (hp : f.cord.pending = [q]) :
    let p := livePath s.clock q.pc q.mask
    exec .yield s = .next { s with focus := some { f with
      cord := { f.cord.setSlot f.slotB (some p) with pending := [⟨f.yielding.pc, f.yielding.mask, 0, s.clock⟩] },
      path := p } } := by
  intro p
  have hp' : (f.cord.setSlot f.slotB none).pending = [q] := (Cord.setSlot_pending ..).trans hp
  have hr' : (f.cord.setSlot f.slotB none).ringCount = 0 := by cases f.slotB <;> exact hr
  have htail := pendTail_room (now := s.clock) (st := f.stand) (pc := f.yielding.pc) (m := f.yielding.mask)
    (by rw [hp', List.length_singleton]; exact Nat.one_lt_two) hr'
  refine issueCtl_of_ok h ?_ (Cord.spillPlaces_setSlot ..) (Cord.slot_setSlot_same ..)
  refine (if_neg (by simp [hp])).trans ?_
  change (match pendTail s.clock f.stand (f.cord.setSlot f.slotB none) f.yielding.pc f.yielding.mask with
    | .error e => (.error e : Ctl)
    | .ok (st, c) => promoteInto s.clock f.slotB st c) = _
  rw [htail, hp']
  refine Eq.trans (promoteInto_cons (q := q) (r := [⟨f.yielding.pc, f.yielding.mask, 0, s.clock⟩]) ?_ hr') ?_
  · rfl
  · cases f.slotB <;> rfl

/-! ### The obligation -/

/-- Settles O13: BRK as the tokens it leaves, EXIT with no token, and YIELD by the queue. -/
theorem breakExitYieldComplete : Obligations.BreakExitYieldComplete := by
  unfold Obligations.BreakExitYieldComplete
  refine ⟨fun s f depth disp h hs hl _ hp => ?_, fun s f hr => ?_⟩
  · intro m d mine inner leave p
    have hlen : inner.length = min d (f.cord.tokens.filter mine).length := List.length_take
    refine ⟨fun hd hok => ?_, fun hbad => exec_brk_of_mismatch h hs (hbad.imp_left fun hlt => ?_)⟩
    · have hn : d ≤ (f.cord.tokens.filter mine).length := by omega
      refine ⟨_, branchTo_eq f.path.pc disp ▸ exec_brk_of_incomplete h hs hl hp hn hok, List.length_mapIdx, fun k t hk => ?_⟩
      · rw [List.getElem?_mapIdx, hk, Option.map_some, leaveInner_eq hk]
        simp only [mine, decide_eq_true_eq]
        split_ifs <;> rfl
    · change (f.cord.tokens.filter mine).length < d
      omega
  · intro gone seated next
    refine ⟨fun h ht hs hp => ⟨fun hne => ?_, fun heq => ?_⟩, fun h => ⟨fun hp => exec_yield_of_no_pending h hp,
      fun q hp => exec_yield_of_pending h hr hp⟩⟩
    · exact (exec_exit h ht hs hp).trans (congrArg _ (if_neg hne))
    · exact (exec_exit h ht hs hp).trans (congrArg _ (if_pos heq))

end Sys2Proof.Machine
end

section
/-! PROOFS. Predicate logic, votes, WRSEED and hints (02_encoding.md R48, R57 to R63; 05_control.md R161 to R163). -/

namespace Sys2Proof.Machine

/-! ### A predicate written in the lanes of a mask -/

/-- A write of a predicate leaves every other part of its cord, and every other predicate. -/
theorem Cord.writeP_eq (c : Cord) (n : Nat) (m x : Mask) :
    c.writeP n m x = { c with p := c.p.set n ((c.writeP n m x).p.getD n 0) } := by
  by_cases hn : n < c.p.length
  · simp [Cord.writeP, hn]
  · simp [Cord.writeP, List.set_eq_of_length_le (Nat.le_of_not_lt hn)]

/-- A predicate reads as written in the lanes of the mask, and as before in the others; p0 is not written (R44). -/
theorem Cord.getLsbD_pred_writeP (c : Cord) {n : Nat} (m x : Mask) (hn : n < c.p.length) (h0 : n ≠ 0) {l : Nat}
    (hl : l < 32) :
    ((c.writeP n m x).pred n).getLsbD l = if m.getLsbD l then x.getLsbD l else (c.pred n).getLsbD l := by
  have e : (c.writeP n m x).pred n = (c.pred n &&& ~~~m) ||| (x &&& m) := by simp [Cord.writeP, Cord.pred, h0, hn]
  rw [e, BitVec.getLsbD_or, BitVec.getLsbD_and, BitVec.getLsbD_and, BitVec.getLsbD_not]
  cases m.getLsbD l <;> simp [hl]

/-- An instruction that writes a predicate, whose bits in the lanes of the mask are those of a test, goes on with its cord
otherwise as it was (R161, R162). -/
theorem exec_of_writeP {i : Instr} {s : State} {f : Focus} {n : Nat} {m x : Mask} {g : Nat → Bool}
    (he : Issues i s f → exec i s = .next (s.goneOn f (f.cord.writeP n m x))) (hx : ∀ l < 32, x.getLsbD l = g l)
    (h : Issues i s f) :
    ∃ c : Cord, exec i s = .next (s.goneOn f c) ∧ c = { f.cord with p := f.cord.p.set n (c.p.getD n 0) } ∧
      (n < f.cord.p.length → n ≠ 0 → ∀ l < 32,
        (c.pred n).getLsbD l = if m.getLsbD l then g l else (f.cord.pred n).getLsbD l) := by
  refine ⟨_, he h, Cord.writeP_eq .., fun hn h0 l hl => ?_⟩
  rw [Cord.getLsbD_pred_writeP _ _ _ hn h0 hl, hx l hl]

/-! ### The form of each instruction -/

/-- The answer of a vote, in every lane it is written to (R162). -/
def voteAnswer (yes : Bool) : Mask := if yes then BitVec.allOnes 32 else 0

theorem getLsbD_voteAnswer (yes : Bool) {l : Nat} (hl : l < 32) : (voteAnswer yes).getLsbD l = yes := by
  cases yes
  · exact BitVec.getLsbD_zero
  · simp [voteAnswer, hl, -BitVec.reduceAllOnes]

/-- No lane of one mask lies outside the other exactly when the two have all its lanes in common. -/
theorem and_not_eq_zero_iff (a b : Mask) : a &&& ~~~b = 0 ↔ a &&& b = a := by
  simp only [BitVec.eq_of_getLsbD_eq_iff, BitVec.getLsbD_and, BitVec.getLsbD_not]
  refine forall₂_congr fun l hl => ?_
  cases a.getLsbD l <;> simp [hl]

section
variable {s : State} {f : Focus}

theorem exec_voteAll (v p : VCode) (h : Issues (.voteAll v p) s f) :
    exec (.voteAll v p) s = .next (s.goneOn f (f.cord.writeP v.toNat f.active
      (voteAnswer (decide (f.active &&& f.cord.pred p.toNat = f.active))))) := by
  simp only [voteAnswer, decide_eq_true_eq, ← and_not_eq_zero_iff]
  exact issueCord_of_issues h _

theorem exec_voteAny (v p : VCode) (h : Issues (.voteAny v p) s f) :
    exec (.voteAny v p) s = .next (s.goneOn f (f.cord.writeP v.toNat f.active
      (voteAnswer (decide (f.active &&& f.cord.pred p.toNat ≠ 0))))) := by
  simp only [voteAnswer, decide_eq_true_eq]
  exact issueCord_of_issues h _

theorem exec_voteBal (v p : VCode) (h : Issues (.voteBal v p) s f) :
    exec (.voteBal v p) s = .next (s.goneOn f (if f.active = 0 then f.cord else
      f.cord.writeV v.toNat f.active (fun _ => f.active &&& f.cord.pred p.toNat) .uniform)) :=
  issueCord_of_issues h _

theorem exec_wrseed (r : SCode) (h : Issues (.wrseed r) s f) :
    exec (.wrseed r) s = .next (s.goneOn f
      { f.cord with lfsr := if (f.cord.sreg r).truncate 32 = 0#32 then 1 else (f.cord.sreg r).truncate 32 }) :=
  issueCord_of_issues h _

theorem exec_himm_eq (pay : BitVec 21) (s : State) :
    exec (.himm pay) s = prefixHint (.himm pay) s fun g => { g with himm := some pay } := rfl

theorem exec_hpred_eq (neg : Bool) (p : BitVec 3) (s : State) :
    exec (.hpred neg p) s = prefixHint (.hpred neg p) s fun g => { g with hpred := some (neg, p) } := rfl

theorem exec_hcache_eq (na : Bool) (l2 l1 : BitVec 2) (s : State) :
    exec (.hcache na l2 l1) s = prefixHint (.hcache na l2 l1) s fun g => { g with hcache := some ⟨na, l2, l1⟩ } := rfl

theorem exec_hprm_eq (wx wr wb : Bool) (x r b : BitVec 5) (s : State) :
    exec (.hprm wx wr wb x r b) s = actingHint (.hprm wx wr wb x r b) s fun f =>
      { f with cord := { f.cord with
          prmX := if wx then x else f.cord.prmX, prmR := if wr then r else f.cord.prmR,
          prmB := if wb then b else f.cord.prmB } } := rfl

theorem exec_hyld_eq (s : State) :
    exec .hyld s = actingHint .hyld s fun f => { f with path := { f.path with yielded := true } } := rfl

theorem exec_hstl_eq (n : BitVec 21) (s : State) :
    exec (.hstl n) s = actingHint (.hstl n) s fun f =>
      { f with path := { f.path with stall := if n = 0 then none else some (s.clock + n.toNat) } } := rfl

/-- HIMM, HPRED and HCACHE join the group of their path, and begin one where there is none (R57). -/
theorem prefixHint_of_issues {i : Instr} (h : Issues i s f) (g : Prefix → Prefix) :
    prefixHint i s g = .next { s with focus := some { f with path := { f.path with
      pc := f.path.pc + 4, pfx := some (g (f.path.pfx.getD { start := f.path.pc })), yielded := false } } } :=
  issue_of_done h rfl

/-- A hint that acts at once does so on a path that has gone on and whose chain is broken (R48). -/
theorem actingHint_of_issues {i : Instr} (h : Issues i s f) (g : Focus → Focus) :
    actingHint i s g = .next { s with focus := some (g { f with path := { f.path with
      pc := f.path.pc + 4, yielded := false, chain := { f.path.chain with broken := true } } }) } :=
  issue_of_done h rfl

end

/-! ### The obligation -/

/-- Settles O14: each predicate operation and vote as the predicate it writes, and each hint as what it does to its path. -/
theorem predicatesAndHintsComplete : Obligations.PredicatesAndHintsComplete := by
  unfold Obligations.PredicatesAndHintsComplete
  refine ⟨fun s f o d a v p r => ?_, fun s f pay n na neg wx wr wb l2 l1 p x r b => ?_⟩
  · intro lanes bit x
    refine ⟨exec_of_writeP (issueCord_of_issues · _) fun l _ => BitVec.getLsbD_and,
      exec_of_writeP (issueCord_of_issues · _) fun l _ => BitVec.getLsbD_or,
      exec_of_writeP (issueCord_of_issues · _) fun l _ => BitVec.getLsbD_xor,
      exec_of_writeP (issueCord_of_issues · _) fun l hl => ?pandn,
      exec_of_writeP (issueCord_of_issues · _) fun l hl => ?pnot,
      exec_of_writeP (issueCord_of_issues · _) fun l _ => rfl,
      exec_of_writeP (exec_voteAll v p) fun l hl => getLsbD_voteAnswer _ hl,
      exec_of_writeP (exec_voteAny v p) fun l hl => getLsbD_voteAnswer _ hl, exec_voteBal v p, exec_wrseed r⟩
    case pandn => simp [bit, hl]
    case pnot => simp [bit, hl]
  · intro group joins acts
    refine ⟨fun h => ?_, fun h => ?_, fun h => ?_, fun h => ?_, fun h => ?_, fun h => ?_⟩
    · rw [exec_himm_eq, prefixHint_of_issues h]
    · rw [exec_hpred_eq, prefixHint_of_issues h]
    · rw [exec_hcache_eq, prefixHint_of_issues h]
    · rw [exec_hprm_eq, actingHint_of_issues h]; rfl
    · rw [exec_hyld_eq, actingHint_of_issues h]
    · rw [exec_hstl_eq, actingHint_of_issues h]

end Sys2Proof.Machine
end

section
/-! PROOFS. What reset leaves (R152, R258, R315, R319, R371, R389, R390, R403 to R405, R407, R418). -/

namespace Sys2Proof.Machine

/-- A core right after reset: its queues are empty, and its canopy holds 128 free slots (R152, R258). -/
theorem coreReset_isIdle :
    let k := Core.reset
    k.agelim = 0x400 ∧ k.free = 96 ∧ k.clearing = [] ∧ k.secure = false ∧ k.skSecure = false ∧ k.q0 = [] ∧ k.q1 = [] ∧
      k.running = none ∧ k.insq = [] ∧ k.canopy.length = 128 ∧
      ∀ x ∈ k.canopy, x.bytes = [] ∧ x.pins = 0 ∧ x.owner = none :=
  ⟨rfl, rfl, rfl, rfl, rfl, rfl, rfl, rfl, rfl, rfl, fun _ hx => List.eq_of_mem_replicate hx ▸ ⟨rfl, rfl, rfl⟩⟩

/-- A flume port right after reset: no command, and no flume (R315, R319). -/
theorem portReset_isEmpty :
    let p := Port.reset
    p.flcmd = 0 ∧ p.flarg = 0 ∧ p.flres = 0 ∧ p.secure = false ∧ p.flumes = [] ∧ p.qtt.length = 256 ∧ ∀ w ∈ p.qtt, w = 0 :=
  ⟨rfl, rfl, rfl, rfl, rfl, List.length_replicate, fun _ => List.eq_of_mem_replicate⟩

theorem groveReset_isEmpty :
    let g := Grove.reset
    g.crews = [] ∧ g.sets = [] ∧ g.hold.length = 64 ∧ ∀ h ∈ g.hold, h = none :=
  ⟨rfl, rfl, rfl, fun _ => List.eq_of_mem_replicate⟩

/-- The ring and the staging area of a die right after reset (R403, R404). -/
theorem ringReset_stageReset_areIdle :
    let r := Ring.reset
    let g := Stage.reset
    (r.base = 0 ∧ r.size = 0 ∧ r.head = 0 ∧ r.tail = 0 ∧ r.drop = 0 ∧ r.enable = false) ∧
      g.go = false ∧ g.ctx = 0 ∧ g.seq = 0 ∧ g.code = 0 ∧ g.image.length = 128 ∧ ∀ b ∈ g.image, b = 0 :=
  ⟨⟨rfl, rfl, rfl, rfl, rfl, rfl⟩, rfl, rfl, rfl, rfl, rfl, fun _ => List.eq_of_mem_replicate⟩

/-- Settles O49: every table is so many copies of one entry, and every entry is as its own reset leaves it. -/
theorem resetIsAsStated : Obligations.ResetIsAsStated := by
  unfold Obligations.ResetIsAsStated
  refine ⟨rfl, rfl, rfl, List.length_replicate, rfl, rfl, rfl, rfl, rfl, rfl, rfl, rfl, rfl, fun c hc => ?contrail,
    fun l hl => ?link, fun d hd => ?die⟩
  case contrail => exact List.eq_of_mem_replicate hc ▸ ⟨rfl, rfl, rfl, rfl⟩
  case link => exact List.eq_of_mem_replicate hl ▸ ⟨rfl, rfl, rfl, rfl, rfl, rfl, rfl⟩
  case die =>
    obtain rfl : d = Die.reset := List.eq_of_mem_replicate hd
    obtain ⟨⟨hbase, hsize, hhead, htail, hdrop, hen⟩, hgo, hctx, hseq, hcode, hlen, himage⟩ := ringReset_stageReset_areIdle
    exact ⟨rfl, rfl, List.length_replicate, rfl, rfl, fun _ => List.eq_of_mem_replicate, fun _ => List.eq_of_mem_replicate,
      rfl, rfl, rfl, hbase, hsize, hhead, htail, hdrop, hen, hgo, hctx, hseq, hcode, hlen, himage, rfl, rfl, rfl, rfl,
      fun p hp => List.eq_of_mem_replicate hp ▸ portReset_isEmpty,
      fun g hg => List.eq_of_mem_replicate hg ▸ groveReset_isEmpty,
      fun k hk => List.eq_of_mem_replicate hk ▸ coreReset_isIdle⟩

end Sys2Proof.Machine
end

section
/-! PROOFS. A step runs the instruction that the bytes at the PC decode to (R16, R38, R136, R173, R194). -/

namespace Sys2Proof.Machine

/-- The four bytes of memory at an offset decode to the word there. -/
theorem decode_bytes (m : Memory) (h : Nat) : decode (m.bytes h 4) = .ok (m.word h, []) := rfl

/-- What a fetch finds is a word of memory as it stands before some of the writes made since the stand was placed
(R194). -/
theorem fetchWord_eq_rewind (s : State) (st : Stand) (pa : Nat) :
    ∃ n ≤ (s.unseen st pa).length,
      s.fetchWord st pa = (rewind s.hbm ((s.unseen st pa).take n)).word (hAddr st.die pa) := by
  by_cases h : s.unseen st pa = []
  · exact ⟨0, Nat.zero_le _, by simp [State.fetchWord, h, State.wordAt, rewind]⟩
  · exact ⟨_, Nat.lt_succ_iff.mp (Nat.mod_lt (Config.freeFetch s.fresh pa) (Nat.succ_pos _)), if_neg h⟩

/-- A fetch at a mapped PC of a die that holds no damage finds its word (R173, R374). -/
theorem fetch_of_mapped {s : State} {f : Focus} {pa : Nat} {l : Leaf}
    (h : s.Mapped f.agent .fetch f.path.pc.toNat pa l) (hd : (s.die f.stand.die).damaged = []) :
    s.fetch f = (s, .ok (s.fetchWord f.stand pa)) := by
  simp [State.fetch, translate_of_mapped h, State.struck, hd]

/-- A fetch at a PC that no TLB holds and no table maps is the walk's fault, with the PC as TRAPVAL (R173). -/
theorem fetch_of_walk_error {s : State} {f : Focus} {c : TrapCode}
    (h1 : s.tlbHit f.stand.die f.stand.core f.stand.ctx f.path.pc.toNat = none)
    (h2 : s.tlbShared f.stand.die f.stand.ctx f.path.pc.toNat = none)
    (h3 : s.walk f.stand.die f.stand.ctx f.path.pc.toNat = .error c) :
    s.fetch f = (s, .error { code := c, val := some (f.path.pc.zeroExtend 64) }) := by
  have e : s.translate f.agent .fetch f.path.pc.toNat = (s, .error c) := by
    simp only [State.translate, State.lookup, Focus.agent, Stand.agent, Agent.tlbCore, Nat.zero_le, if_true, h1, h2, h3]
  simp only [State.fetch, e]

/-- A step in which a path's turn has come is its next issue, and a cycle. -/
theorem step_of_turn {s : State} {f : Focus} (hf : s.focus = some f) (ht : s.turn = true) :
    step s = ticked (issueNext f s) := by
  simp [step, ht, hf]

/-- An issue of the path in focus is noted for the round-robins (R16, R136, R299). -/
theorem noteIssue_of_focus {s : State} {f : Focus} (hf : s.focus = some f) (i : Instr) :
    s.noteIssue i = { s.modCore f.stand.die f.stand.core fun k => { k with
        lastIssue := k.lastIssue.set f.cord.quad (some (2 * f.cord.cslot + f.slotB.toNat))
        lastPipe := if usesPipe i then f.cord.quad else k.lastPipe
        lastFilter := if usesFilter i then f.cord.quad else k.lastFilter } with
      focus := some { f with cord :=
        if f.slotB then { f.cord with lastB := s.clock } else { f.cord with lastA := s.clock } } } := by
  simp [State.noteIssue, hf, State.keep]

/-- Settles O53: the fetch is settled first, mapped or not; the step is then the instruction's meaning, or the fault. -/
theorem stepRunsTheDecodedInstruction : Obligations.StepRunsTheDecodedInstruction := by
  unfold Obligations.StepRunsTheDecodedInstruction
  intro s f hf ht
  refine ⟨fun pa leaf hm hd => ?mapped, fun c h1 h2 h3 hprev => ?unmapped⟩
  case mapped =>
    obtain ⟨n, hn, hw⟩ := fetchWord_eq_rewind s f.stand pa
    refine ⟨n, hn, fun i t hi hx => ?_⟩
    obtain rfl : s.fetchWord f.stand pa = i := by
      rw [decode_bytes] at hi
      rw [hw]; exact congrArg Prod.fst (Except.ok.inj hi)
    have hx : exec _ (s.noteIssue _) = .next t := (congrArg (exec _) (noteIssue_of_focus hf _)).trans hx
    simp only [step_of_turn hf ht, issueNext, fetch_of_mapped hm hd, hx, ticked, State.tick]
  case unmapped =>
    simp only [step_of_turn hf ht, issueNext, fetch_of_walk_error h1 h2 h3, ticked, State.fetchTrap, hprev,
      Focus.faulted, Focus.restartPc, decide_false, Bool.false_and, Bool.false_eq_true, if_false]

end Sys2Proof.Machine
end

section
/-! SUPPORT. A package that no uncorrectable error has struck (R374): no read consumes damage, and no write mends any. -/

namespace Sys2Proof.Machine

section
variable {s : State} (h : s.Whole)
include h

theorem struck_of_whole (d : Nat) (x : Struck) (n : Nat) : s.struck d x n = false := by
  have hd : (s.die d).damaged = [] := by
    rw [State.die, List.getD_eq_getElem?_getD]
    cases hx : s.dies[d]? with
    | none => rfl
    | some y => exact List.isEmpty_iff.mp (List.all_eq_true.mp h y (List.mem_of_getElem? hx))
  rw [State.struck, hd]; rfl

theorem mendAt_of_whole (d : Nat) (x : Struck) (n : Nat) : s.mendAt d x n = s := if_pos h

theorem mended_of_whole (a n : Nat) : s.mended a n = s := mendAt_of_whole h _ _ n

theorem mendSp_of_whole (st : Stand) (off n : Nat) : s.mendSp st off n = s := mendAt_of_whole h _ _ n

theorem hbmBad_of_whole (a n : Nat) : s.hbmBad a n = false := struck_of_whole h _ _ n

theorem damage_of_whole (f : Focus) (ranges : List (Nat × Nat)) : f.damage s ranges = none :=
  if_neg (by simp [struck_of_whole h])

/-- A write of HBM leaves its bytes, and no damage to mend. -/
theorem hbmSet_of_whole (a : Nat) (bs : List Byte) : s.hbmSet a bs = { s with hbm := s.hbm.put a bs } :=
  mended_of_whole (s := { s with hbm := s.hbm.put a bs }) h _ _

end

end Sys2Proof.Machine
end

section
/-! PROOFS. Fences, PREF, and what an acquire gives the threads of its scope (R184 to R189, R201, R202). -/

namespace Sys2Proof.Machine

/-! ### The place a later load may take -/

/-- Component by component, a place is not after another. -/
def Place.Le (x y : Place) : Prop := x.die ≤ y.die ∧ x.stand ≤ y.stand ∧ x.cord ≤ y.cord

theorem Place.Le.trans {x y z : Place} (h : x.Le y) (k : y.Le z) : x.Le z :=
  ⟨h.1.trans k.1, h.2.1.trans k.2.1, h.2.2.trans k.2.2⟩

/-- What the threads of a scope see of a place (R183, R189). -/
theorem Place.within_die {y : Scope} (h : y = .grove ∨ y = .die) (x : Place) : (x.within y).die = x.die := by
  rcases h with rfl | rfl <;> rfl

theorem Place.within_stand {y : Scope} (h : y ≠ .cord) (x : Place) : (x.within y).stand = x.stand := by
  cases y <;> simp [Place.within] at h ⊢

theorem Place.within_cord (y : Scope) (x : Place) : (x.within y).cord = x.cord := by cases y <;> rfl

theorem Place.le_join_left (x y : Place) : x.Le (x.join y) :=
  ⟨Nat.le_max_left _ _, Nat.le_max_left _ _, Nat.le_max_left _ _⟩

theorem Place.le_join_right (x y : Place) : y.Le (x.join y) :=
  ⟨Nat.le_max_right _ _, Nat.le_max_right _ _, Nat.le_max_right _ _⟩

/-- The places of what stands before an access add up to a floor no earlier than where the fold began. -/
theorem le_foldl_orders (a : Access) (id : Nat) (p : Part) (l : List Seen) (x : Place) :
    x.Le (l.foldl (fun x e => if e.orders a id p then x.join e.place else x) x) := by
  induction l generalizing x with
  | nil => exact ⟨le_rfl, le_rfl, le_rfl⟩
  | cons e l ih =>
    refine Place.Le.trans ?_ (ih _)
    dsimp only
    split
    · exact Place.le_join_left _ _
    · exact ⟨le_rfl, le_rfl, le_rfl⟩

/-- A part of an access is placed no earlier than anything that stands before it (R185, R188). -/
theorem le_floor {s : State} {id : Nat} {a : Access} {p : Part} {e : Seen} (he : e ∈ s.seen)
    (ho : e.orders a id p = true) : e.place.Le (s.floor id a p) := by
  unfold State.floor
  generalize ({} : Place) = x
  generalize s.seen = l at he
  induction l generalizing x with
  | nil => cases he
  | cons y l ih =>
    rcases List.mem_cons.mp he with rfl | he
    · refine Place.Le.trans ?_ (le_foldl_orders a id p l _)
      simpa only [ho, if_true] using Place.le_join_right x e.place
    · exact ih _ he

/-- An acquire of some threads stands before every later access of theirs (R188). -/
theorem acquireAt_le_floor {s : State} {y : Scope} {sid c id : Nat} {m : Mask} {a : Access} {p : Part} (hm : m ≠ 0)
    (hid : s.uid ≤ id) (hs : a.sid = sid) (hc : a.cord = c) (hw : a.within p m = true) :
    (s.place.within y).Le ((s.acquireAt y sid c m).floor id a p) := by
  refine Place.Le.trans (Place.le_join_left _ (s.known y sid c)) (le_floor (e := ⟨sid, c, m, .all, s.uid, _⟩) ?_ ?_)
  · simp only [State.acquireAt, if_neg hm]
    exact List.mem_cons_self
  · simp [Seen.orders, hs, hc, hid, hw]

/-- What a completed fence leaves of something that a path has done stands no earlier afterwards (R188). -/
theorem exists_mem_fenced {s : State} {i : Instr} {sid c : Nat} {m : Mask} {r x : Seen} (hr : r ∈ s.seen)
    (hx : x ∈ r.fenced i sid c m s.uid) :
    ∃ y ∈ (s.fenced i sid c m).seen, y = { x with place := y.place } ∧ x.place.Le y.place :=
  le_foldSeen s.uid (List.mem_append_right _ (List.mem_flatMap.mpr ⟨r, hr, hx⟩))

/-- A read of some threads, performed before a FENCE.ACQ of theirs, stands behind it as the scope sees it (R188, R189). -/
theorem fenceAcq_le_floor {s : State} {y : Scope} {c id : Nat} {m : Mask} {a : Access} {p : Part} {r : Seen}
    (hid : s.uid ≤ id) (hc : a.cord = c) (hr : r ∈ s.seen) (hrs : r.sid = a.sid) (hrc : r.cord = c) (hsince : r.since ≤ id)
    (hw : a.within p (r.threads &&& m) = true) (hwhat : ∃ pa k kind stream acq, r.what = .access pa k kind stream true acq) :
    (r.place.within y).Le ((s.fenced (.fenceAcq y) a.sid c m).floor id a p) := by
  obtain ⟨pa, k, kind, stream, acq, hwhat⟩ := hwhat
  have hthreads : r.threads &&& m ≠ 0 := by
    intro h0
    simp [Access.within, h0] at hw
  let turned : Seen :=
    { r with threads := r.threads &&& m, what := .all, place := r.place.within y, since := max r.since s.uid }
  have hmem : turned ∈ r.fenced (.fenceAcq y) a.sid c m s.uid := by
    simp only [Seen.fenced, hrs, hrc, hthreads, ne_eq, not_false_eq_true, and_self, if_true, fenceTurns, hwhat, fenceScope]
    split_ifs <;> simp [turned, hrs, hrc]
  obtain ⟨x, hx, he, hle⟩ := exists_mem_fenced hr hmem
  have ho : x.orders a id p = true := by
    rw [he]
    simp [Seen.orders, turned, hrs, hrc, hc, hw, hid, hsince]
  exact Place.Le.trans hle (le_floor hx ho)

/-! ### What a load placed so may pass over -/

theorem Past.not_after_of_die {e : Past} {x : Place} {sid c : Nat} (h : e.place.die ≤ x.die) :
    e.after x sid c = false := by
  simp [Past.after, Nat.not_lt.mpr h]

theorem Past.not_after_of_stand {e : Past} {x : Place} {sid c k : Nat} (hw : e.writer = some (sid, k))
    (h : e.place.stand ≤ x.stand) : e.after x sid c = false := by
  simp [Past.after, hw, Nat.not_lt.mpr h]

theorem Past.not_after_of_cord {e : Past} {x : Place} {sid c : Nat} (hw : e.writer = some (sid, c))
    (h : e.place.cord ≤ x.cord) : e.after x sid c = false := by
  simp [Past.after, hw, Nat.not_lt.mpr h]

/-- A load that may pass over no write reads what stands (R184). -/
theorem loadPast_of_none_after {s : State} {x : Place} {sid c h n : Nat}
    (hp : ∀ e ∈ s.past, e.meets h n = true → e.after x sid c = false) : (s.loadPast x sid c h n).2.1 = s.hbm.load h n := by
  have he : s.passable x sid c h n = [] := by
    refine List.takeWhile_eq_nil_iff.mpr fun hl => ?_
    have hmem := List.mem_filter.mp (List.getElem_mem hl)
    simp [hp _ hmem.1 hmem.2]
  simp [State.loadPast, he]

/-! ### Fences and prefetches -/

/-- A fence whose wait is over goes on; one that still waits holds its path (R188, R201). -/
theorem fence_of_issues {i : Instr} {s : State} {f : Focus} {waits : Prop} (h : Issues i s f)
    (hx : exec i s = issueFence i s) (hw : fenceWaits i s f = true ↔ waits) :
    let t := (s.takePlaces (fenceScope i) (s.fenceParts i f)).fenced i f.stand.sid f.cord.id f.path.mask
    (¬waits → exec i s = .next ((t.flushHandles f).goneOnIn f (t.fenceReleases i f) f.cord)) ∧
      (waits → exec i s = .next s) := by
  rw [hx, issueFence_of_issues h]
  exact ⟨fun hn => if_neg (hn ∘ hw.mp), fun hp => if_pos (hw.mpr hp)⟩

/-- A fence waits for the parts that its scope must see, and for the synchronising steps it orders (R188, R193, R201). -/
theorem fenceWaits_iff {i : Instr} {s : State} {f : Focus} :
    fenceWaits i s f = true ↔
      (∃ y ∈ s.fenceParts i f, fenceScope i = .grove ∨ fenceScope i = .die ∨ y.2.1.kind ≠ .store) ∨
        (fenceSyncs i = true ∧ s.syncing f.stand.sid f.cord.id f.path.mask = true) := by
  simp only [fenceWaits, scopeWaits, Bool.or_eq_true, List.any_eq_true, Bool.and_eq_true, decide_eq_true_eq, or_assoc]

/-- A prefetch of an address that the core's TLB holds as the table maps it changes nothing (R202). -/
theorem prefetch_of_hit {s : State} {f : Focus} {va : Nat} {l : Leaf}
    (ht : s.tlbHit f.stand.die f.stand.core f.stand.ctx va = some l) (hw : s.walk f.stand.die f.stand.ctx va = .ok l) :
    s.prefetch f va = s := by
  simp [State.prefetch, State.lookup, State.oldOrNew, ht, hw]

theorem foldl_prefetch_of_hit {s : State} {f : Focus} (l : List (Nat × Nat))
    (h : ∀ x ∈ l, s.prefetch f x.2 = s) : l.foldl (fun s x => s.prefetch f x.2) s = s := by
  induction l with
  | nil => rfl
  | cons x l ih =>
    rw [List.foldl_cons, h x List.mem_cons_self]
    exact ih fun y hy => h y (List.mem_cons_of_mem _ hy)

theorem exec_pref_of_hits {s : State} {f : Focus} {l2 : Bool} {r : SCode} {v : VCode} (h : Issues (.pref l2 r v) s f)
    (hm : ∀ x ∈ f.laneAddrs r v, x.2 < 2 ^ 57 → ∃ l,
      s.tlbHit f.stand.die f.stand.core f.stand.ctx x.2 = some l ∧ s.walk f.stand.die f.stand.ctx x.2 = .ok l) :
    exec (.pref l2 r v) s = .next (s.goneOn f f.cord) := by
  change execPref l2 r v s = _
  simp only [execPref, issue_of_issues h]
  rw [foldl_prefetch_of_hit _ fun x hx => ?_]
  · rfl
  · obtain ⟨hx, hlt⟩ := List.mem_filter.mp hx
    obtain ⟨l, ht, hw⟩ := hm x hx (of_decide_eq_true hlt)
    exact prefetch_of_hit ht hw

/-- Settles O17: each fence by the one frame of all four, and an acquire by the floor it sets under later loads. -/
theorem fencesPrefetchComplete : Obligations.FencesPrefetchComplete := by
  unfold Obligations.FencesPrefetchComplete
  refine ⟨fun s f c m l2 r v => ⟨fun h => ?fence, fun h => ?fenceX, fun h => ?fenceAcq, fun h => ?fenceRel, fun h hm => ?pref⟩,
    fun s y sid c id h n m a p e r hm hid hs hc hw => ?acquire⟩
  case fence => exact fence_of_issues h rfl fenceWaits_iff
  case fenceX => exact fence_of_issues h rfl fenceWaits_iff
  case fenceAcq => exact fence_of_issues h rfl fenceWaits_iff
  case fenceRel => exact fence_of_issues h rfl fenceWaits_iff
  case pref => exact exec_pref_of_hits h hm
  case acquire =>
    obtain ⟨hdie, hstand, hcord⟩ := acquireAt_le_floor (y := y) hm hid hs hc hw
    have hpast : (s.acquireAt y sid c m).past = s.past := by unfold State.acquireAt; split <;> rfl
    have hhbm : (s.acquireAt y sid c m).hbm = s.hbm := by unfold State.acquireAt; split <;> rfl
    refine ⟨hhbm, hpast, fun hy he => ?_, fun hy ⟨k, hk⟩ he => ?_, fun hk he => ?_, fun hn => ?_,
      fun hr hrs hrc hsince hrw hwhat => ?_⟩
    · rw [Place.within_die hy] at hdie
      exact Past.not_after_of_die (he.trans hdie)
    · rw [Place.within_stand hy] at hstand
      exact Past.not_after_of_stand hk (he.trans hstand)
    · rw [Place.within_cord] at hcord
      exact Past.not_after_of_cord hk (he.trans hcord)
    · rw [← hhbm]
      exact loadPast_of_none_after (hpast ▸ hn)
    · subst hs
      obtain ⟨zdie, zstand, zcord⟩ := fenceAcq_le_floor (y := y) hid hc hr hrs hrc hsince hrw hwhat
      exact ⟨fun hy => Place.within_stand hy r.place ▸ zstand, fun hy => Place.within_die hy r.place ▸ zdie,
        Place.within_cord y r.place ▸ zcord⟩

end Sys2Proof.Machine
end

section
/-! PROOFS. What a load finds that passes over some of the newest writes of its bytes (R184, R190). -/

namespace Sys2Proof.Machine

/-- Memories that agree byte for byte load the same. -/
theorem Memory.load_congr {m m' : Memory} {a a' n : Nat} (h : ∀ j < n, m'.read (a' + j) = m.read (a + j)) :
    m'.load a' n = m.load a n := by
  induction n generalizing a a' with
  | zero => rfl
  | succ n ih =>
    have h0 : m'.read a' = m.read a := h 0 (Nat.succ_pos n)
    have hr : m'.load (a' + 1) n = m.load (a + 1) n :=
      ih fun j hj => by simpa only [Nat.add_assoc, Nat.add_comm 1] using h (j + 1) (Nat.succ_lt_succ hj)
    rw [Memory.load, Memory.load, h0, hr]

theorem Memory.read_map_sub {m : Memory} {a : Nat} (h : ∀ c ∈ m, a ≤ c.1) (b : Nat) :
    Memory.read (m.map fun c => (c.1 - a, c.2)) b = m.read (a + b) := by
  induction m with
  | nil => rfl
  | cons c m ih =>
    have hc := h c List.mem_cons_self
    simp only [List.map_cons, Memory.read, ih fun x hx => h x (List.mem_cons_of_mem c hx),
      show c.1 - a = b ↔ c.1 = a + b by omega, show c.1 - a < b ↔ c.1 < a + b by omega]

/-- A byte of a part of memory that is moved down to 0. -/
theorem Memory.read_slice {m : Memory} (h : m.wf = true) {a n b : Nat} (hb : b < n) :
    (m.slice a n).read b = m.read (a + b) := by
  rw [Memory.slice, Memory.read_map_sub fun c hc => ?_,
    Memory.read_filter h fun k => decide (a ≤ k) && decide (k < a + n), if_pos (by simp [hb])]
  exact (by simpa using (List.mem_filter.mp hc).2 : a ≤ c.1 ∧ c.1 < a + n).1

/-- A replaced write as a part of memory from h on sees it. -/
def Past.movedDown (e : Past) (h : Nat) : Past := { e with pa := e.pa - h, bytes := e.bytes.drop (h - e.pa) }

/-- Undoing writes on a part of memory is undoing them on the whole. -/
theorem read_rewind_movedDown {m m' : Memory} (hm : m.wf = true) (hm' : m'.wf = true) {h n : Nat} (es : List Past)
    (hr : ∀ j < n, m'.read j = m.read (h + j)) :
    ∀ j < n, (rewind m' (es.map fun e => e.movedDown h)).read j = (rewind m es).read (h + j) := by
  induction es generalizing m m' with
  | nil => exact hr
  | cons e es ih =>
    refine ih (Memory.wf_put hm _ _) (Memory.wf_put hm' _ _) fun j hj => ?_
    rw [Memory.read_put hm, Memory.read_put hm', hr j hj]
    refine if_ctx_congr ?_ (fun _ => ?_) fun _ => rfl
    · simp only [Past.movedDown, List.length_drop]
      omega
    · simp only [Past.movedDown, List.getD_eq_getElem?_getD, List.getElem?_drop]
      congr 2
      omega

/-- A load passes over a number of the newest writes that nothing orders before it, and reads what stood before them
(R184, R190). -/
theorem loadPast_eq_rewind {s : State} (hw : s.hbm.wf = true) (x : Place) (sid c h n : Nat) :
    ∃ k ≤ (s.passable x sid c h n).length, ∃ fresh,
      (s.loadPast x sid c h n).1 = { s with fresh := fresh } ∧
      (s.loadPast x sid c h n).2.1 = (rewind s.hbm ((s.passable x sid c h n).take k)).load h n := by
  by_cases he : s.passable x sid c h n = []
  · exact ⟨0, Nat.zero_le _, s.fresh, by simp [State.loadPast, he], by simp [State.loadPast, he, rewind]⟩
  · refine ⟨_, Nat.lt_succ_iff.mp (Nat.mod_lt (Config.freePick s.fresh) (Nat.succ_pos _)), s.fresh + 1, ?_, ?_⟩
    · simp only [State.loadPast, he, if_false, State.draw]
    · simp only [State.loadPast, he, if_false]
      refine Memory.load_congr fun j hj => ?_
      rw [Nat.zero_add]
      exact read_rewind_movedDown hw (Memory.wf_slice hw h n) _ (fun j hj => Memory.read_slice hw hj) j hj

end Sys2Proof.Machine
end

section
/-! PROOFS. The last part of a global access is performed, and the access delivers (R182, R199, R203). -/

namespace Sys2Proof.Machine

/-- Among parts that are done but for one, that one alone is ready. -/
theorem ready_parts_eq {s : State} {id : Nat} {a : Access} {pre post : List Part} {p : Part}
    (hp : a.parts = pre ++ p :: post) (hdone : ∀ q ∈ pre ++ post, q.done = true) (hready : s.partReady id a p = true) :
    ((List.range a.parts.length).filter fun k => (a.parts[k]?).any (s.partReady id a)) = [pre.length] := by
  have hnot (q : Part) (hq : q ∈ pre ++ post) : s.partReady id a q = false := by
    simp [State.partReady, enabledPart, hdone q hq]
  have hk (k : Nat) : (a.parts[k]?).any (s.partReady id a) = decide (k = pre.length) := by
    rcases lt_trichotomy k pre.length with hlt | rfl | hgt
    · rw [hp, List.getElem?_append_left hlt, List.getElem?_eq_getElem hlt, Option.any_some,
        hnot _ (List.mem_append_left _ (List.getElem_mem hlt)), decide_eq_false hlt.ne]
    · simp [hp, hready]
    · obtain ⟨j, rfl⟩ := Nat.exists_eq_add_of_lt hgt
      rw [hp, List.getElem?_append_right (by omega), show pre.length + j + 1 - pre.length = j + 1 by omega,
        List.getElem?_cons_succ, decide_eq_false (by omega)]
      cases hj : post[j]? with
      | none => rfl
      | some q => exact hnot q (List.mem_append_right _ (List.mem_of_getElem? hj))
  have hmem : pre.length ∈ List.range a.parts.length := List.mem_range.mpr (by simp [hp])
  simp only [hk]
  rw [List.filter_eq, List.count_eq_one_of_mem List.nodup_range hmem]
  rfl

/-- The last part of an access is performed: the access delivers, and its work is over. -/
theorem performAccess_last {s : State} {id : Nat} {x : Item} {a : Access} {pre post : List Part} {p q : Part} {t : State}
    (hf : s.focus = none) (hx : s.work? id = some x) (ha : x.work = .access a) (hp : a.parts = pre ++ p :: post)
    (hothers : ∀ q ∈ pre ++ post, q.done = true ∧ q ≠ p) (hready : s.partReady id a p = true) (hw : s.Whole)
    (hperf : s.performPart id a p = (t, q)) (hq : q.done = true) :
    s.performAccess id = { t with works := t.works.filter fun w => w.id ≠ id }.modCord a.sid a.cord
      { a with parts := pre ++ q :: post }.deliver := by
  obtain ⟨i, held, w⟩ := x
  obtain rfl : w = .access a := ha
  have hbad : s.accessBad a p = false := by
    cases hk : a.kind <;> simp [State.accessBad, hk, hbmBad_of_whole hw]
  have hmap (l : List Part) (hl : ∀ r ∈ l, r ∈ pre ++ post) : l.map (fun r => if r = p then q else r) = l :=
    (List.map_congr_left fun r hr => if_neg (hothers r (hl r hr)).2).trans (List.map_id' l)
  have hparts : a.parts.map (fun r => if r = p then q else r) = pre ++ q :: post := by
    rw [hp, List.map_append, List.map_cons, if_pos rfl, hmap pre fun r hr => List.mem_append_left _ hr,
      hmap post fun r hr => List.mem_append_right _ hr]
  have hall : (pre ++ q :: post).all Part.done = true := by
    simp only [List.all_append, List.all_cons, hq, Bool.true_and, Bool.and_eq_true, List.all_eq_true]
    exact ⟨fun r hr => (hothers r (List.mem_append_left _ hr)).1, fun r hr => (hothers r (List.mem_append_right _ hr)).1⟩
  have hget : a.parts[pre.length]? = some p := by simp [hp]
  simp only [State.performAccess, State.unfocus, hf, hx, ready_parts_eq hp (fun q hq => (hothers q hq).1) hready,
    List.length_singleton, le_refl, if_true, List.getD_cons_zero, hget, hbad, Bool.false_eq_true, if_false, hperf, hparts,
    hall]
  rfl

/-- Noting a performed part changes only what later accesses are placed behind. -/
theorem notePart_eq (s : State) (id : Nat) (a : Access) (p : Part) (x : Place) :
    ∃ seen, s.notePart id a p x = { s with seen := seen } := ⟨_, rfl⟩

theorem performPart_of_isLoad {s : State} {id : Nat} {a : Access} {p : Part} (hk : a.kind.isLoad = true) :
    let r := s.loadPast (s.floor id a p) a.sid a.cord p.pa p.n
    s.performPart id a p = (r.1.notePart id a p r.2.2, { p with val := r.2.1, done := true }) := by
  cases h : a.kind with
  | load _ | scalarLoad _ => simp only [State.performPart, h]
  | store | atomic _ _ => simp [AccessKind.isLoad, h] at hk

/-- A load is performed: it reads what stands before some of the writes it may pass over, and leaves memory alone
(R184, R190). -/
theorem performPart_of_load {s : State} (hw : s.hbm.wf = true) (id : Nat) {a : Access} (p : Part)
    (hk : a.kind.isLoad = true) :
    let passed := s.passable (s.floor id a p) a.sid a.cord p.pa p.n
    ∃ n ≤ passed.length, ∃ fresh seen, s.performPart id a p = ({ s with fresh := fresh, seen := seen },
      { p with val := (rewind s.hbm (passed.take n)).load p.pa p.n, done := true }) := by
  obtain ⟨k, hk', fresh, hs, hv⟩ := loadPast_eq_rewind hw (s.floor id a p) a.sid a.cord p.pa p.n
  obtain ⟨seen, hn⟩ := notePart_eq { s with fresh := fresh } id a p
    (s.loadPast (s.floor id a p) a.sid a.cord p.pa p.n).2.2
  refine ⟨k, hk', fresh, seen, ?_⟩
  rw [← hs] at hn
  rw [performPart_of_isLoad hk, hn, hs, hv]

/-- The state after an access has written a part now: the bytes, and what they replaced (R182, R190). -/
def State.wrotePart (s : State) (a : Access) (p : Part) (new : Nat) (seen : List Seen) : State :=
  { s with
      hbm := s.hbm.put p.pa (leBytes p.n new), seen := seen,
      past := ⟨p.pa, s.hbm.bytes p.pa p.n, s.uid, p.placeNow s.place, some (a.sid, a.cord)⟩ :: s.past }

/-- A part that is written takes effect now, and is noted. -/
theorem put_eq_wrotePart {s : State} (hw : s.Whole) (id : Nat) (a : Access) (p : Part) (new : Nat) :
    ∃ seen, (((s.remember (some (a.sid, a.cord)) (p.placeNow s.place) p.pa (leBytes p.n new).length).hbmSet p.pa
      (leBytes p.n new)).notePart id a p (p.placeNow s.place)) = s.wrotePart a p new seen := by
  rw [hbmSet_of_whole (s := s.remember _ _ _ _) hw, length_leBytes]
  exact notePart_eq _ id a p _

/-- A store is performed: it leaves its bytes, and releases what it is to release (R182, R185). -/
theorem performPart_of_store {s : State} (hw : s.Whole) (id : Nat) {a : Access} (p : Part) (hk : a.kind = .store) :
    ∃ seen, s.performPart id a p = ((s.wrotePart a p p.val seen).storeReleases a p, { p with done := true }) := by
  obtain ⟨seen, hs⟩ := put_eq_wrotePart hw id a p p.val
  exact ⟨seen, by simp only [State.performPart, hk, hs]⟩

/-- An atomic operation is performed on what stands, and leaves its new word (R182, R199). -/
theorem performPart_of_atomic {s : State} (hw : s.Whole) (id : Nat) {a : Access} (p : Part) {op : AOp} {ret : Bool}
    (hk : a.kind = .atomic op ret) :
    ∃ seen, s.performPart id a p =
      (s.wrotePart a p (atomicNew op (BitVec.ofNat 32 (s.hbm.load p.pa p.n)) (BitVec.ofNat 32 p.val)
        (BitVec.ofNat 32 p.cmp)).toNat seen, { p with val := s.hbm.load p.pa p.n, done := true }) := by
  obtain ⟨seen, hs⟩ := put_eq_wrotePart hw id a p (atomicNew op (BitVec.ofNat 32 (s.hbm.load p.pa p.n))
    (BitVec.ofNat 32 p.val) (BitVec.ofNat 32 p.cmp)).toNat
  exact ⟨seen, by simp only [State.performPart, hk, hs]⟩

end Sys2Proof.Machine
end

section
/-! PROOFS. The word that each atomic operation leaves (R199, R200). -/

namespace Sys2Proof.Machine

/-- The order of two numbers that are no NaN, an infinity beyond every finite one (R111). -/
def Num.Less (a b : Num) : Prop :=
  match a, b with
  | .num _ _ _, .num _ _ _ => a.rat < b.rat
  | .inf true, .num _ _ _ | .num _ _ _, .inf false | .inf true, .inf false => True
  | _, _ => False

/-- Two numbers that are no NaN have one value, −0 being +0. -/
def Num.Same (a b : Num) : Prop :=
  match a, b with
  | .num _ _ _, .num _ _ _ => a.rat = b.rat
  | .inf s, .inf s' => s = s'
  | _, _ => False

theorem Num.units_lt_iff {a b : Num} (ha : a.isNan = false) (hb : b.isNan = false) (ha' : a.isInf = false)
    (hb' : b.isInf = false) : a.units (min a.expo b.expo) < b.units (min a.expo b.expo) ↔ a.rat < b.rat := by
  rw [← Num.units_mul ha ha' (Int.min_le_left a.expo b.expo), ← Num.units_mul hb hb' (Int.min_le_right a.expo b.expo),
    mul_lt_mul_iff_left₀ (zpow_pos (by norm_num) _), Int.cast_lt]

theorem Num.lt_iff_less {a b : Num} (ha : a.isNan = false) (hb : b.isNan = false) : a.lt b = true ↔ a.Less b := by
  cases a with
  | nan _ => simp [Num.isNan] at ha
  | inf s =>
    cases b with
    | nan _ => simp [Num.isNan] at hb
    | inf s' => cases s <;> cases s' <;> simp [Num.lt, Num.Less]
    | num _ _ _ => cases s <;> simp [Num.lt, Num.Less]
  | num s n e =>
    cases b with
    | nan _ => simp [Num.isNan] at hb
    | inf s' => cases s' <;> simp [Num.lt, Num.Less]
    | num s' n' e' => exact decide_eq_true_iff.trans (Num.units_lt_iff ha hb rfl rfl)

theorem Num.eqv_iff_same {a b : Num} (ha : a.isNan = false) (hb : b.isNan = false) : a.eqv b = true ↔ a.Same b := by
  have h : a.eqv b = true ↔ ¬a.Less b ∧ ¬b.Less a := by
    simp only [Num.eqv, Bool.and_eq_true, Bool.not_eq_true', ← Num.lt_iff_less ha hb, ← Num.lt_iff_less hb ha,
      Bool.not_eq_true]
  rw [h]
  cases a with
  | nan _ => simp [Num.isNan] at ha
  | inf s =>
    cases b with
    | nan _ => simp [Num.isNan] at hb
    | inf s' => cases s <;> cases s' <;> simp [Num.Less, Num.Same]
    | num _ _ _ => cases s <;> simp [Num.Less, Num.Same]
  | num s n e =>
    cases b with
    | nan _ => simp [Num.isNan] at hb
    | inf s' => cases s' <;> simp [Num.Less, Num.Same]
    | num s' n' e' => simp only [Num.Less, Num.Same, not_lt, le_antisymm_iff, and_comm]

/-- Under .maxsi an operand that is no NaN replaces a NaN, a smaller score, and the same score of a larger index (R200). -/
theorem maxsiReplaces_iff (old new : Word) :
    let score (w : Word) : Num := FloatFmt.bf16.value (w.toNat / 65536)
    maxsiReplaces old new = true ↔ (score new).isNan = false ∧ ((score old).isNan = true ∨ (score old).Less (score new) ∨
      (score old).Same (score new) ∧ new.toNat % 65536 < old.toNat % 65536) := by
  intro score
  cases hn : (score new).isNan
  · cases ho : (score old).isNan
    · simp only [maxsiReplaces, hn, ho, score, Bool.false_eq_true, if_false, Bool.false_or, Bool.or_eq_true, Bool.and_eq_true,
        decide_eq_true_eq, Num.lt_iff_less ho hn, Num.eqv_iff_same ho hn, true_and, false_or]
    · simp [maxsiReplaces, hn, ho, score]
  · simp [maxsiReplaces, hn, score]

/-- An atomic sum of F32 is rounded once by .rne, and a NaN is the default one (R117, R199). -/
theorem atomicNew_fadd (old x y : Word) :
    let z := sumNums [FloatFmt.f32.value old.toNat, FloatFmt.f32.value x.toNat]
    atomicNew .fadd old x y = BitVec.ofNat 32 (z.toFmt .f32).1 ∧ (z.isNan = true → atomicNew .fadd old x y = 0x7FC00000) := by
  intro z
  refine ⟨rfl, fun hn => ?_⟩
  change BitVec.ofNat 32 (z.toFmt .f32).1 = _
  cases h : z with
  | nan nv => rfl
  | inf _ | num _ _ _ => simp [h, Num.isNan] at hn

theorem storeReleases_works (s : State) (a : Access) (p : Part) : (s.storeReleases a p).works = s.works := by
  unfold State.storeReleases
  split <;> rfl

/-- Settles O18: the access's last part is performed by its kind, and each operation's word is its rule's. -/
theorem globalAccessesArePerformed : Obligations.GlobalAccessesArePerformed := by
  unfold Obligations.GlobalAccessesArePerformed
  refine ⟨fun s id x a pre post p i hi hf hwf hx ha hp hothers hready hw => ?performed, fun old x y => ?words⟩
  case performed =>
    have he : exec i s = .next (s.performAccess id) := by
      rcases List.mem_pair.mp hi with rfl | rfl <;> rfl
    have hlast {t q} := performAccess_last (t := t) (q := q) hf hx ha hp hothers hready hw
    obtain ⟨k, hk⟩ : ∃ k, a.kind = k := ⟨_, rfl⟩
    cases k with
    | load _ | scalarLoad _ =>
      obtain ⟨n, hn, fresh, seen, hperf⟩ := performPart_of_load hwf id p (by rw [hk]; rfl : a.kind.isLoad = true)
      refine ⟨n, fresh, seen, by simpa only [hk, if_true] using hn, ?_⟩
      rw [he, hlast hperf rfl]
      simp only [hk, reduceCtorEq, if_false, if_true]
    | store =>
      obtain ⟨seen, hperf⟩ := performPart_of_store hw id p hk
      refine ⟨0, s.fresh, seen, Nat.zero_le _, ?_⟩
      rw [he, hlast hperf rfl, storeReleases_works]
      simp only [hk, if_true, Bool.false_eq_true, if_false]
      rfl
    | atomic op ret =>
      obtain ⟨seen, hperf⟩ := performPart_of_atomic hw id p hk
      refine ⟨0, s.fresh, seen, Nat.zero_le _, ?_⟩
      rw [he, hlast hperf rfl]
      simp only [hk, reduceCtorEq, Bool.false_eq_true, if_false]
      rfl
  case words =>
    obtain ⟨hfadd, hnan⟩ := atomicNew_fadd old x y
    intro new
    refine ⟨BitVec.toNat_add old x, ?_, ?_, ?_, ?_, fun k hk => ?_, rfl, fun h => if_pos h, fun h => if_neg h,
      ⟨hfadd, hnan⟩, ?_⟩
    · exact (apply_ite BitVec.toInt _ _ _).trans (min_def _ _).symm
    · exact (apply_ite BitVec.toInt _ _ _).trans (max_def _ _).symm
    · exact (apply_ite BitVec.toNat _ _ _).trans (min_def _ _).symm
    · exact (apply_ite BitVec.toNat _ _ _).trans (max_def _ _).symm
    · simp [new, atomicNew]
    · intro score index less same wins
      have hw : maxsiReplaces old x = true ↔ wins := maxsiReplaces_iff old x
      exact ⟨fun h => if_pos (hw.mpr h), fun h => if_neg fun hr => h (hw.mp hr)⟩

end Sys2Proof.Machine
end

section
/-! SUPPORT. Fields of a word as numbers, groves after an update, and a path that parks. -/

namespace Sys2Proof.Machine

/-- A field of a word is those bits of its number. -/
theorem toNat_extractLsb'_eq_nbits {w : Nat} (x : BitVec w) {hi lo n : Nat} (h : hi + 1 - lo = n) :
    (x.extractLsb' lo n).toNat = nbits x.toNat hi lo := by
  rw [BitVec.extractLsb'_toNat, Nat.shiftRight_eq_div_pow, nbits, h]

theorem extractLsb'_eq_zero_iff {w : Nat} (x : BitVec w) {hi lo n : Nat} (h : hi + 1 - lo = n) :
    x.extractLsb' lo n = 0#n ↔ nbits x.toNat hi lo = 0 := by
  rw [← toNat_extractLsb'_eq_nbits x h, ← BitVec.toNat_inj, BitVec.toNat_ofNat, Nat.zero_mod]

/-- A path that parks is put back in its slot, and a stand that stops withdraws its wait at once (R137, R379). -/
theorem park_eq_parked (s : State) (f : Focus) (w : Wait) : s.park f w = s.parked f w := rfl

section
variable {s : State} {d g : Nat}

/-- An element of a list that lies within it is changed where it stands. -/
theorem getD_modify_of_lt {α : Type} {l : List α} {n : Nat} (h : n < l.length) (f : α → α) (x : α) :
    (l.modify n f).getD n x = f (l.getD n x) := by
  simp [List.getD_eq_getElem?_getD, h]

theorem modify_congr_of_getD {α : Type} {l : List α} {n : Nat} {f f' : α → α} (x : α)
    (h : n < l.length → f (l.getD n x) = f' (l.getD n x)) : l.modify n f = l.modify n f' := by
  refine List.ext_getElem? fun i => ?_
  rw [List.getElem?_modify, List.getElem?_modify]
  by_cases hi : n = i
  · subst hi
    cases hl : l[n]? with
    | none => rfl
    | some y =>
      have hn := (List.getElem?_eq_some_iff.mp hl).1
      have hy : l.getD n x = y := by simp [List.getD_eq_getElem?_getD, hl]
      rw [hy] at h
      simp [h hn]
  · simp [hi]

/-- Two changes of a grove that agree on the grove as it stands are one. -/
theorem modGrove_congr {f f' : Grove → Grove} (h : f (s.grove d g) = f' (s.grove d g)) :
    s.modGrove d g f = s.modGrove d g f' := by
  unfold State.modGrove State.modDie
  congr 1
  refine modify_congr_of_getD Die.reset fun _ => ?_
  exact congrArg (fun l => { s.dies.getD d Die.reset with groves := l }) (modify_congr_of_getD Grove.reset fun _ => h)

theorem modGrove_modGrove (f f' : Grove → Grove) : (s.modGrove d g f).modGrove d g f' = s.modGrove d g (f' ∘ f) := by
  simp only [State.modGrove, State.modDie, List.modify_modify_eq]
  congr 2
  funext x
  simp only [Function.comp_apply, List.modify_modify_eq]

/-- A grove that is not as after reset is one of its die's, and reads as it was changed. -/
theorem grove_modGrove (h : s.grove d g ≠ Grove.reset) (f : Grove → Grove) :
    (s.modGrove d g f).grove d g = f (s.grove d g) := by
  have hd : d < s.dies.length := by
    by_contra hd
    refine h ?_
    rw [State.grove, State.die, List.getD_eq_default _ _ (Nat.le_of_not_lt hd), Die.grove, Die.reset,
      List.getD_eq_getElem?_getD, List.getElem?_replicate]
    split <;> rfl
  have hg : g < (s.die d).groves.length := by
    by_contra hg
    exact h (List.getD_eq_default _ _ (Nat.le_of_not_lt hg))
  have e : (s.modGrove d g f).die d = { s.die d with groves := (s.die d).groves.modify g f } :=
    getD_modify_of_lt hd _ _
  rw [State.grove, e]
  exact getD_modify_of_lt hg f _

end

end Sys2Proof.Machine
end

section
/-! PROOFS. Crews: a cord joins, leaves and waits, and the last arrival wakes (R229 to R233). -/

namespace Sys2Proof.Machine

/-! ### A table in which one entry alone is meant -/

/-- An entry satisfies a test, and stands alone with that in its list. -/
def OnlyEntry {α : Type} (p : α → Bool) (l pre : List α) (c : α) (post : List α) : Prop :=
  l = pre ++ c :: post ∧ p c = true ∧ ∀ x ∈ pre ++ post, p x = false

namespace OnlyEntry
variable {α : Type} {p : α → Bool} {l pre post : List α} {c : α}

theorem find?_eq (h : OnlyEntry p l pre c post) : l.find? p = some c := by
  obtain ⟨rfl, hc, hothers⟩ := h
  rw [List.find?_append, List.find?_eq_none.mpr fun x hx => by simp [hothers x (List.mem_append_left _ hx)],
    Option.none_or, List.find?_cons_of_pos hc]

theorem map_eq (h : OnlyEntry p l pre c post) (f : α → α) :
    (l.map fun x => if p x then f x else x) = pre ++ f c :: post := by
  obtain ⟨rfl, hc, hothers⟩ := h
  have hkeep (k : List α) (hk : ∀ x ∈ k, x ∈ pre ++ post) : (k.map fun x => if p x then f x else x) = k :=
    (List.map_congr_left fun x hx => if_neg (by simp [hothers x (hk x hx)])).trans (List.map_id' k)
  rw [List.map_append, List.map_cons, if_pos hc, hkeep pre fun x hx => List.mem_append_left _ hx,
    hkeep post fun x hx => List.mem_append_right _ hx]

/-- The entry stays the only one after a change that does not touch what it is told by. -/
theorem replaced (h : OnlyEntry p l pre c post) {c' : α} (hc : p c' = true) :
    OnlyEntry p (pre ++ c' :: post) pre c' post := ⟨rfl, hc, h.2.2⟩

end OnlyEntry

/-! ### CJOIN -/

theorem members_of_only {g : Grove} {tract : Nat} {key : BitVec 16} {pre post : List Crew} {c : Crew}
    (h : OnlyEntry (fun x => x.named tract key) g.crews pre c post) : g.members tract key = c.members := by
  simp only [Grove.members, h.find?_eq, Option.map_some, Option.getD_some]

theorem members_of_none {g : Grove} {tract : Nat} {key : BitVec 16} (h : ∀ x ∈ g.crews, x.named tract key = false) :
    g.members tract key = 0 := by
  rw [Grove.members, List.find?_eq_none.mpr fun x hx => by simp [h x hx]]
  rfl

/-- A scalar register holds a crew's key alone (R230). -/
theorem shiftRight_eq_zero_of_key {a : DWord} (h : a.extractLsb' 16 (64 - 16) = 0) : a >>> 16 = 0 := by
  have h0 := (extractLsb'_eq_zero_iff a (hi := 63) (lo := 16) (by rfl)).mp h
  refine BitVec.eq_of_toNat_eq ?_
  have := a.isLt
  simp only [nbits] at h0
  rw [BitVec.toNat_ushiftRight, Nat.shiftRight_eq_div_pow]
  exact (by omega : a.toNat / 2 ^ 16 = 0)

theorem truncate_eq_extractLsb' (a : DWord) : (a.truncate 16 : BitVec 16) = a.extractLsb' 0 16 := by
  refine BitVec.eq_of_toNat_eq ?_
  simp [BitVec.extractLsb'_toNat]

section
variable {s : State} {f : Focus} {o : XOps}

/-- The state in which a cord has joined a crew, with the crew table and the crew's members then (R231). -/
def State.joinedCrew (s : State) (f : Focus) (d : VCode) (key : BitVec 16) (crews : List Crew) (n : Nat) : State :=
  (s.modGrove f.stand.die f.grove fun x => { x with crews := crews }).result
    { f with cord := { f.cord with crews := f.cord.crews ++ [key] } } d (BitVec.ofNat 32 n)

/-- What CJOIN does, by what the cord and the table hold (R231). -/
theorem exec_cjoin_eq (h : Issues (.cjoin o) s f) (hz : (f.cord.sreg o.s).extractLsb' 16 (64 - 16) = 0)
    {key : BitVec 16} (hk : (f.cord.sreg o.s).extractLsb' 0 16 = key) {n : Nat}
    (hn : (s.grove f.stand.die f.grove).members f.stand.tract key = n) :
    exec (.cjoin o) s =
      if key ∈ f.cord.crews then .next (s.result f o.d (BitVec.ofNat 32 n))
      else if 4 ≤ f.cord.crews.length then .next (s.faulted (.cjoin o) f { code := .syncParam })
      else if n = 0 ∧ 16 ≤ (s.grove f.stand.die f.grove).crews.length then .next (s.result f o.d 0xFFFFFFFF)
      else .next (s.joinedCrew f o.d key
        (if n = 0 then (s.grove f.stand.die f.grove).crews ++ [⟨f.stand.tract, key, 1, 0, []⟩]
        else (s.grove f.stand.die f.grove).crews.map fun c =>
          if c.named f.stand.tract key then { c with members := c.members + 1 } else c) (n + 1)) := by
  change execCjoin o s = _
  simp only [execCjoin, issue_of_issues h, shiftRight_eq_zero_of_key hz, ne_eq, not_true_eq_false, if_false,
    truncate_eq_extractLsb', List.contains_iff_mem, hk, hn]
  split_ifs <;> rfl

/-! ### CLEAVE -/

/-- A crew table in which no entry of a key has an arrival completes no phase of it (R233). -/
theorem crewComplete_of_no_arrival {d g tract : Nat} {key : BitVec 16}
    (h : ∀ c ∈ (s.grove d g).crews, c.named tract key = true → c.arrived = []) : s.crewComplete d g tract key = s := by
  unfold State.crewComplete
  split
  · rfl
  · rename_i c hc
    have hnone : c.arrived = [] := h c (List.mem_of_find?_eq_some hc) (by simpa using List.find?_some hc)
    rw [if_neg fun ha => ha.1 hnone]

theorem grove_ne_reset {d g : Nat} {c : Crew} (h : c ∈ (s.grove d g).crews) : s.grove d g ≠ Grove.reset := by
  intro hr
  rw [hr] at h
  cases h

/-- A member that is not the last to leave, or the last, leaves a crew with no arrivals (R230, R232). -/
theorem crewLeave_of_only {d g tract : Nat} {key : BitVec 16} {pre post : List Crew} {c : Crew}
    (h : OnlyEntry (fun x => x.named tract key) (s.grove d g).crews pre c post) (ha : c.arrived = []) :
    s.crewLeave d g tract key = s.modGrove d g fun x =>
      { x with crews := (pre ++ { c with members := c.members - 1 } :: post).filter fun x => x.members ≠ 0 } := by
  have hmem : c ∈ (s.grove d g).crews := h.1 ▸ List.mem_append_right pre List.mem_cons_self
  have hmod : (s.modGrove d g fun x => { x with crews := (x.crews.map fun y =>
      if y.named tract key then { y with members := y.members - 1 } else y).filter fun y => y.members ≠ 0 }) =
      s.modGrove d g fun x =>
        { x with crews := (pre ++ { c with members := c.members - 1 } :: post).filter fun x => x.members ≠ 0 } :=
    modGrove_congr (by rw [h.map_eq fun y => { y with members := y.members - 1 }])
  rw [State.crewLeave, hmod]
  refine crewComplete_of_no_arrival fun x hx hn => ?_
  rw [grove_modGrove (grove_ne_reset hmem)] at hx
  have hx := List.mem_of_mem_filter hx
  rcases List.mem_append.mp hx with hx | hx
  · exact absurd hn (by simp [h.2.2 x (List.mem_append_left _ hx)])
  · rcases List.mem_cons.mp hx with rfl | hx
    · exact ha
    · exact absurd hn (by simp [h.2.2 x (List.mem_append_right _ hx)])

/-- What CLEAVE does, by whether its cord is a member (R232). -/
theorem exec_cleave_eq {r : SCode} (h : Issues (.cleave r) s f) (hz : (f.cord.sreg r).extractLsb' 16 (64 - 16) = 0) :
    let key : BitVec 16 := (f.cord.sreg r).extractLsb' 0 16
    exec (.cleave r) s =
      if key ∈ f.cord.crews then .next ((s.settled
        { f with cord := { f.cord with crews := f.cord.crews.filter fun k => k ≠ key } }.advance).crewLeave
          f.stand.die f.grove f.stand.tract key)
      else .next (s.goneOn f f.cord) := by
  change execCleave r s = _
  simp only [execCleave, issue_of_issues h, shiftRight_eq_zero_of_key hz, ne_eq, not_true_eq_false, if_false,
    truncate_eq_extractLsb', List.contains_iff_mem]
  split_ifs <;> rfl

/-! ### CBAR -/

/-- An arrival at a crew enters the open phase, sets its operation and parks; then the phase is complete or not (R233). -/
theorem exec_cbar_eq (h : Issues (.cbar o) s f) (hheld : releaseHeld s f = false) {v : DWord} {key : BitVec 16} {op : Nat}
    (hv : f.cord.sreg o.s = v) (hk : v.extractLsb' 0 16 = key) (ho : (v.extractLsb' 16 4).toNat = op)
    (hmine : key ∈ f.cord.crews) (hle : op ≤ 8) (hz : v.extractLsb' 20 12 = 0#12) {pre post : List Crew} {c : Crew}
    (honly : OnlyEntry (fun x => x.named f.stand.tract key) (s.grove f.stand.die f.grove).crews pre c post)
    (hphase : c.arrived = [] ∨ c.op = op) :
    let x : Arrival := ⟨f.stand.sid, f.cord.id, f.slotB, v.extractLsb' 32 32, o.d.toNat⟩
    let c' : Crew := { c with op := op, arrived := c.arrived ++ [x] }
    exec (.cbar o) s = .next (((s.modGrove f.stand.die f.grove fun g => { g with crews := pre ++ c' :: post }).parked
      (s.releaseFocus f) (.crew key o.d.toNat)).crewComplete f.stand.die f.grove f.stand.tract key) := by
  intro x c'
  change execCbar o s = _
  have e1 : BitVec.ofNat 16 v.toNat = key := hk ▸ BitVec.eq_of_toNat_eq (by simp [BitVec.extractLsb'_toNat])
  have e2 : nbits v.toNat 19 16 = op := (toNat_extractLsb'_eq_nbits v rfl).symm.trans ho
  have e3 : nbits v.toNat 31 20 = 0 := (extractLsb'_eq_zero_iff v rfl).mp hz
  have e4 : BitVec.ofNat 32 (nbits v.toNat 63 32) = v.extractLsb' 32 32 := by
    rw [← toNat_extractLsb'_eq_nbits v (n := 32) rfl, BitVec.ofNat_toNat, BitVec.setWidth_eq]
  have hphase' : (decide (c.arrived ≠ []) && decide (c.op ≠ op)) = false := by
    rcases hphase with h | h <;> simp [h]
  have hbad : ¬((!f.cord.crews.contains key) = true ∨ 8 < op ∨ (0 : Nat) ≠ 0) := by simp [hmine, hle]
  have hmod : (s.modGrove f.stand.die f.grove fun g =>
      { g with
        crews := g.crews.map fun y =>
          if y.named f.stand.tract key then { y with op := op, arrived := y.arrived ++ [x] } else y }) =
      s.modGrove f.stand.die f.grove fun g => { g with crews := pre ++ c' :: post } :=
    modGrove_congr (by rw [honly.map_eq fun y => { y with op := op, arrived := y.arrived ++ [x] }])
  simp only [execCbar, issue_of_issues h, hheld, hv, e1, e2, e3, e4, if_neg hbad, honly.find?_eq, Option.any_some, hphase',
    park_eq_parked, Bool.false_eq_true, if_false]
  rw [hmod]
  rfl

section
variable {d g tract : Nat} {key : BitVec 16} {pre post : List Crew} {c : Crew}

/-- A phase that lacks an arrival goes on (R233). -/
theorem crewComplete_of_open (h : OnlyEntry (fun x => x.named tract key) (s.grove d g).crews pre c post)
    (hn : c.arrived.length ≠ c.members) : s.crewComplete d g tract key = s := by
  simp only [State.crewComplete, h.find?_eq, hn, and_false, if_false]

/-- A phase in which every member has arrived empties, and each arrived path wakes with the result (R233). -/
theorem crewComplete_of_full (h : OnlyEntry (fun x => x.named tract key) (s.grove d g).crews pre c post)
    (hne : c.arrived ≠ []) (hn : c.arrived.length = c.members) :
    let result := if c.op = 0 then BitVec.ofNat 32 c.members else c.acc
    s.crewComplete d g tract key = c.arrived.foldl (fun s a => s.wakePath a.sid a.cord a.slotB fun m x =>
        x.writeV a.d m (fun _ => result) .general)
      (s.modGrove d g fun x => { x with crews := pre ++ { c with arrived := [] } :: post }) := by
  have hmod : (s.modGrove d g fun x =>
      { x with crews := x.crews.map fun y => if y.named tract key then { y with arrived := [] } else y }) =
      s.modGrove d g fun x => { x with crews := pre ++ { c with arrived := [] } :: post } :=
    modGrove_congr (by rw [h.map_eq fun y => { y with arrived := [] }])
  simp only [State.crewComplete, h.find?_eq, hne, hn, ne_eq, not_false_eq_true, and_self, if_true, hmod]

end

end

end Sys2Proof.Machine
end

section
/-! PROOFS. The crew instructions, settled (R229 to R233). -/

namespace Sys2Proof.Machine

/-- A path of a running stand that parks is put back in its slot, and nothing else changes (R137). -/
theorem parked_of_running {s : State} {f : Focus} (h : f.stand.phase = .running) (w : Wait) :
    s.parked f w = s.seat { f with
      cord := { f.cord with vmarks := f.cord.vmarks ++ w.vregs, smarks := f.cord.smarks ++ w.sregs },
      path := { f.path with wait := some w, yielded := false, chain := {} } }.whole := if_pos h

/-- A grove changed before and after a path of a running stand parks is changed once. -/
theorem modGrove_parked {s : State} {f : Focus} (h : f.stand.phase = .running) (w : Wait) (d g : Nat)
    (p q : Grove → Grove) : ((s.modGrove d g p).parked f w).modGrove d g q = (s.modGrove d g (q ∘ p)).parked f w := by
  rw [parked_of_running h, parked_of_running h, ← modGrove_modGrove]
  rfl

theorem grove_parked {s : State} {f : Focus} (h : f.stand.phase = .running) (w : Wait) (d g : Nat) :
    (s.parked f w).grove d g = s.grove d g := by
  rw [parked_of_running h]
  rfl

/-- The reduction of a phase's contributions, in the order of arrival (R233). -/
theorem acc_of_cons {c : Crew} {x : Arrival} {r : List Arrival} (h : c.arrived = x :: r) :
    c.acc = (r.map Arrival.value).foldl (crewFold c.op) x.value := by
  simp only [Crew.acc, h, List.foldl_map]

/-- Settles O23: CJOIN and CLEAVE by what the cord and the table hold, CBAR by whether the phase is complete. -/
theorem crewsComplete : Obligations.CrewsComplete := by
  unfold Obligations.CrewsComplete
  intro s f o r pre post c st g crews key zero named only mine answer set
  have honly {r : SCode} (h : only r) : OnlyEntry (fun x => x.named st.tract (key r)) crews pre c post :=
    ⟨h.1, decide_eq_true h.2.1, fun x hx => decide_eq_false (h.2.2 x hx)⟩
  refine ⟨fun h hz => ?join, fun h hz => ?leave, ?wait⟩
  case join =>
    have he {n : Nat} (hn : (s.grove st.die f.grove).members st.tract (key o.s) = n) := exec_cjoin_eq h hz rfl hn
    refine ⟨fun hk ho => ?_, fun hk hl => ?_, fun hk hl hnone hfull => ?_, fun hk hl hnone hroom => ?_,
      fun hk hl ho hm => ?_⟩
    · rw [he (members_of_only (honly ho)), if_pos hk]
      rfl
    · rw [he rfl, if_neg hk, if_pos hl]
    · rw [he (members_of_none fun x hx => decide_eq_false (hnone x hx)), if_neg hk, if_neg (Nat.not_le.mpr hl),
        if_pos ⟨rfl, hfull⟩]
      rfl
    · rw [he (members_of_none fun x hx => decide_eq_false (hnone x hx)), if_neg hk, if_neg (Nat.not_le.mpr hl),
        if_neg fun hc => Nat.not_le.mpr hroom hc.2, if_pos rfl]
      rfl
    · have hmap := (honly ho).map_eq fun c => { c with members := c.members + 1 }
      rw [he (members_of_only (honly ho)), if_neg hk, if_neg (Nat.not_le.mpr hl), if_neg fun hc => hm hc.1, if_neg hm]
      exact congrArg (fun l => Host.Outcome.next (s.joinedCrew f o.d (key o.s) l _)) hmap
  case leave =>
    have he := exec_cleave_eq h hz
    refine ⟨fun hk => by rw [he, if_neg hk], fun hk ho ha => ?_⟩
    rw [he, if_pos hk]
    exact congrArg _ (crewLeave_of_only (s := s.settled _) (honly ho) ha)
  case wait =>
    intro v op x all result put h hrun hheld hmine hle hz ho hphase
    have he := exec_cbar_eq h hheld rfl rfl rfl hmine hle hz (honly ho) hphase
    have hrun' : (s.releaseFocus f).stand.phase = .running := hrun
    have hmem : c ∈ crews := ho.1 ▸ List.mem_append_right pre List.mem_cons_self
    let c' : Crew := { c with op := op, arrived := all }
    have htable : OnlyEntry (fun y => y.named st.tract (key o.s)) ((put all).grove st.die g).crews pre c' post := by
      have e : (put all).grove st.die g = { s.grove st.die g with crews := pre ++ c' :: post } :=
        (grove_parked hrun' _ _ _).trans (grove_modGrove (grove_ne_reset hmem) _)
      rw [e]
      exact (honly ho).replaced (c' := c') (honly ho).2.1
    refine ⟨fun hn => ?_, fun hn => ?_⟩
    · exact he.trans (congrArg _ (crewComplete_of_open htable hn))
    · have hne : c'.arrived ≠ [] := by simp [c', all]
      have hres : (if c'.op = 0 then BitVec.ofNat 32 c'.members else c'.acc) = result := by
        obtain ⟨y, ys, hall⟩ := List.exists_cons_of_ne_nil hne
        rw [acc_of_cons hall]
        have hall : all = y :: ys := hall
        simp only [result, hall, List.map_cons, c']
      have hfull := crewComplete_of_full htable hne hn
      rw [hres] at hfull
      refine he.trans (congrArg _ (hfull.trans ?_))
      exact congrArg (all.foldl _) (modGrove_parked hrun' _ _ _ _ _)

end Sys2Proof.Machine
end

section
/-! SUPPORT. A loaded number in two halves, and a core after an update. -/

namespace Sys2Proof.Machine

theorem Memory.load_lt (m : Memory) (a n : Nat) : m.load a n < 256 ^ n := by
  induction n generalizing a with
  | zero => exact Nat.one_pos
  | succ n ih =>
    have h0 := (m.read a).isLt
    have h1 := ih (a + 1)
    rw [Memory.load, pow_succ']
    omega

/-- The bytes of a load are the bytes of its two parts, the lower first (R1). -/
theorem Memory.load_add (m : Memory) (a n k : Nat) : m.load a (n + k) = m.load a n + 256 ^ n * m.load (a + n) k := by
  induction n generalizing a with
  | zero => simp [Memory.load]
  | succ n ih =>
    rw [show n + 1 + k = n + k + 1 by omega, Memory.load, Memory.load, ih, show a + 1 + n = a + (n + 1) by omega]
    ring

/-- The halves of a 64-bit load are the 32-bit loads of its words. -/
theorem Memory.load_halves (m : Memory) (a : Nat) :
    BitVec.ofNat 32 (m.load a 8) = BitVec.ofNat 32 (m.load a 4) ∧
      BitVec.ofNat 32 (m.load a 8 / 2 ^ 32) = BitVec.ofNat 32 (m.load (a + 4) 4) := by
  have h : m.load a 8 = m.load a 4 + 256 ^ 4 * m.load (a + 4) 4 := m.load_add a 4 4
  have hl := m.load_lt a 4
  constructor
  · refine BitVec.eq_of_toNat_eq ?_
    simp only [BitVec.toNat_ofNat, h]
    omega
  · congr 1
    omega

section
variable {s : State} {d c : Nat}

/-- Two changes of a core that agree on the core as it stands are one. -/
theorem modCore_congr {f f' : Core → Core} (h : f (s.core d c) = f' (s.core d c)) : s.modCore d c f = s.modCore d c f' := by
  unfold State.modCore State.modDie
  congr 1
  refine modify_congr_of_getD Die.reset fun _ => ?_
  exact congrArg (fun l => { s.dies.getD d Die.reset with cores := l }) (modify_congr_of_getD Core.reset fun _ => h)

/-- What no change of an element touches reads the same in every element. -/
theorem getD_modify_congr {α β : Type} {l : List α} {n m : Nat} {f : α → α} (x : α) {p : α → β}
    (h : ∀ y, p (f y) = p y) : p ((l.modify n f).getD m x) = p (l.getD m x) := by
  rw [List.getD_eq_getElem?_getD, List.getD_eq_getElem?_getD, List.getElem?_modify]
  cases l[m]? with
  | none => rfl
  | some y =>
    by_cases hn : n = m
    · simp [hn, h]
    · simp [hn]

/-- A wait table stays as it is where no core's is changed. -/
theorem waits_modCore {f : Core → Core} (h : ∀ k, (f k).waits = k.waits) (d' c' : Nat) :
    ((s.modCore d c f).core d' c').waits = (s.core d' c').waits :=
  getD_modify_congr (p := fun x : Die => (x.core c').waits) Die.reset fun _ =>
    getD_modify_congr (p := Core.waits) Core.reset h

end

end Sys2Proof.Machine
end

section
/-! PROOFS. Futures: an instruction on a mapped one (R239 to R241), its resolution (R238), and its wake (R227). -/

namespace Sys2Proof.Machine

/-! ### The state word (R237) -/

/-- STATE is full or poisoned exactly when bit 63 is set. -/
theorem two_le_state_iff {n : Nat} : 2 ≤ nbits n 63 62 ↔ (BitVec.ofNat 64 n).getLsbD 63 = true := by
  rw [BitVec.getLsbD_ofNat, decide_eq_true (by omega : 63 < 64), Bool.true_and, Nat.testBit_eq_decide_div_mod_eq,
    decide_eq_true_iff, nbits]
  omega

/-- An empty future shows waiters in bit 62. -/
theorem state_eq_one_iff {n : Nat} (h : ¬ 2 ≤ nbits n 63 62) :
    nbits n 63 62 = 1 ↔ (BitVec.ofNat 64 n).getLsbD 62 = true := by
  rw [BitVec.getLsbD_ofNat, decide_eq_true (by omega : 62 < 64), Bool.true_and, Nat.testBit_eq_decide_div_mod_eq,
    decide_eq_true_iff]
  unfold nbits at *
  omega

theorem toNat_extractLsb'_ofNat (n : Nat) {hi lo : Nat} (k : Nat) (h : hi + 1 - lo = k) (hn : n < 2 ^ 64) :
    ((BitVec.ofNat 64 n).extractLsb' lo k).toNat = nbits n hi lo := by
  rw [toNat_extractLsb'_eq_nbits _ h, BitVec.toNat_ofNat, Nat.mod_eq_of_lt hn]

theorem count_eq_zero_iff {n : Nat} (hn : n < 2 ^ 64) :
    nbits n 31 0 = 0 ↔ (BitVec.ofNat 64 n).extractLsb' 0 32 = 0#32 := by
  rw [extractLsb'_eq_zero_iff _ (hi := 31) rfl, BitVec.toNat_ofNat, Nat.mod_eq_of_lt hn]

/-- The word that a waiter leaves: STATE 01, and one more in the wait count (R240). -/
theorem toNat_waited {n : Nat} (hn : n < 2 ^ 64) :
    let w : DWord := BitVec.ofNat 64 n
    (1#2 ++ w.extractLsb' 32 30 ++ (w.extractLsb' 0 32 + 1) : DWord).toNat =
      2 ^ 62 + nbits n 61 32 * 2 ^ 32 + (nbits n 31 0 + 1) % 2 ^ 32 := by
  intro w
  rw [toNat_append_eq_add, toNat_append_eq_add, BitVec.toNat_add, toNat_extractLsb'_ofNat n 30 (hi := 61) rfl hn,
    toNat_extractLsb'_ofNat n 32 (hi := 31) rfl hn]
  simp only [BitVec.toNat_ofNat, show (1 : BitVec 32).toNat = 1 from rfl]
  omega

/-- The word that a resolution leaves: STATE full or poisoned, and an empty wait count (R238). -/
theorem toNat_resolved {n : Nat} (hn : n < 2 ^ 64) (poison : Bool) :
    ((if poison then 3#2 else 2#2) ++ (BitVec.ofNat 64 n).extractLsb' 32 30 ++ 0#32 : DWord).toNat =
      (if poison then 3 else 2) * 2 ^ 62 + nbits n 61 32 * 2 ^ 32 := by
  rw [toNat_append_eq_add, toNat_append_eq_add, toNat_extractLsb'_ofNat n 30 (hi := 61) rfl hn]
  cases poison <;> simp only [BitVec.toNat_ofNat, Bool.false_eq_true, if_false, if_true] <;> omega

/-! ### FRES, FWAIT and FTEST -/

section
variable {s : State} {f : Focus} {o : XOps} {pa : Nat} {leaf : Leaf}

/-- An access that may be written may be read. -/
theorem Mapped_read_of_atomic {a : Agent} {va : Nat} (h : s.Mapped a .atomic va pa leaf) : s.Mapped a .read va pa leaf := by
  obtain ⟨h1, h2, h3, h4, -, -, h7⟩ := h
  exact ⟨h1, h2, h3, h4, nofun, nofun, h7⟩

/-- An aligned future in range, at a mapped address, is found at its physical address (R241). -/
theorem futureAddr_of_mapped {u : Use} {r : SCode} (ha : f.addr r % 16 = 0) (hr : f.addr r + 16 ≤ 2 ^ 57)
    (hm : s.Mapped f.agent u (f.addr r) pa leaf) : futureAddr s f u r = (s, .ok pa) := by
  have hrange : rangeTrap 16 [(0, f.addr r)] = none := by
    have hlt : ¬ 2 ^ 57 ≤ f.addr r + 16 - 1 := by omega
    simp only [rangeTrap, List.find?_cons, decide_eq_false hlt, List.find?_nil, Option.map_none]
  simp only [futureAddr, ha, hrange, translate_of_mapped hm, ne_eq, not_true_eq_false, if_false]

theorem spillTrap_of_room {st : Stand} (h : ((s.core st.die st.core).waits.filter fun w => !w.spilled).length < 256) :
    spillTrap s st = (false, none) := if_pos h

variable (ha : f.addr o.s % 16 = 0) (hr : f.addr o.s + 16 ≤ 2 ^ 57)
  (hm : s.Mapped f.agent .atomic (f.addr o.s) pa leaf)
include ha hr hm

/-- FRES begins a resolution (R239). -/
theorem exec_fres_of_mapped {poison : Bool} (h : Issues (.fres o poison) s f) : exec (.fres o poison) s = .next
    ((s.withWork (.resolve { die := f.stand.die, ctx := f.stand.ctx, dest := some (f.dest f.path.mask 0) } (f.addr o.s)
      (some pa) (f.low (o.d + 1) ++ f.low o.d) poison)).goneOn f f.cord) := by
  change execFres o poison s = _
  simp only [execFres, issue_of_issues h, futureAddr_of_mapped ha hr hm]
  rfl

variable (hheld : futureHeld s f (hAddr f.stand.die pa) = false) (hw : s.Whole)
include hheld hw

/-- FWAIT takes the value of a full or poisoned future, or counts itself in and parks (R240). -/
theorem exec_fwait_of_mapped (h : Issues (.fwait o) s f)
    (hroom : ((s.core f.stand.die f.stand.core).waits.filter fun w => !w.spilled).length < 256) :
    let a := hAddr f.stand.die pa
    let w := s.hbm.load a 8
    exec (.fwait o) s = .next
      (if 2 ≤ nbits w 63 62 then
        (s.acquireAt .die f.stand.sid f.cord.id f.path.mask).answered f o.d.toNat
          (BitVec.ofNat 32 (s.hbm.load (a + 8) 8)) (BitVec.ofNat 32 (s.hbm.load (a + 8) 8 / 2 ^ 32))
      else (s.setFuture a (s.hbm.store a 8 (2 ^ 62 + nbits w 61 32 * 2 ^ 32 + (nbits w 31 0 + 1) % 2 ^ 32))).register f true pa
        (f.addr o.s) false (.future pa o.d.toNat)) := by
  intro a w
  change execFwait o s = _
  simp only [execFwait, issue_of_issues h, futureAddr_of_mapped ha hr hm, hheld, spillTrap_of_room hroom,
    hbmBad_of_whole hw, Bool.false_eq_true, if_false]
  split_ifs <;> rfl

/-- FTEST takes the state word, and acquires where it is full or poisoned (R241). -/
theorem exec_ftest_of_mapped (h : Issues (.ftest o) s f) :
    let a := hAddr f.stand.die pa
    let w := s.hbm.load a 8
    exec (.ftest o) s = .next
      ((if 2 ≤ nbits w 63 62 then s.acquireAt .die f.stand.sid f.cord.id f.path.mask
        else s.noteStep f.stand.sid f.cord.id f.path.mask a 16).answered f o.d.toNat
          (BitVec.ofNat 32 w) (BitVec.ofNat 32 (w / 2 ^ 32))) := by
  intro a w
  change execFtest o s = _
  simp only [execFtest, issue_of_issues h, futureAddr_of_mapped ha hr (Mapped_read_of_atomic hm), hheld,
    hbmBad_of_whole hw, Bool.false_eq_true, if_false]
  rfl

end

/-- A wait that its core's table has room for is registered there, and its path parks (R227). -/
theorem register_of_room (s : State) (f : Focus) (glob : Bool) (addr named : Nat) (w : Wait) :
    s.register f glob addr named false w = (s.modCore f.stand.die f.stand.core fun k =>
      { k with waits := k.waits ++ [⟨f.stand.sid, f.cord.id, f.slotB, glob, addr, false⟩] }).parked f w := rfl

/-! ### Resolution and wake -/

section
variable {s : State} {id die pa : Nat}

/-- What takes effect now takes its place from the cycle alone. -/
theorem place_dropWork_noteStep (sid c : Nat) (m : Mask) (h n : Nat) :
    ((s.noteStep sid c m h n).dropWork id).place = s.place := by
  unfold State.noteStep
  split <;> rfl

theorem anyAccess_nil : s.anyAccess [] = false := by
  refine List.any_eq_false.mpr fun i _ => ?_
  split <;> simp

/-- A resolution of a translated future whose release is over: the value and an empty wait count, with wakes where waiters
are shown, or DOUBLE_RESOLVE (R238). -/
theorem exec_futureResolve_eq {va ctx : Nat} {t : Dest} {v : DWord} {poison : Bool} (hf : s.focus = none)
    (ha : s.active? id = some (.resolve { die := die, ctx := ctx, dest := some t } va (some pa) v poison))
    (hu : s.unreleased id t.sid t.cord t.mask = false) (hw : s.Whole) :
    exec (.futureResolve id) s = .next (match resolveFuture s.hbm (hAddr die pa) v poison with
      | none => (s.dropWork id).trapInFlight t { code := .doubleResolve, val := some (BitVec.ofNat 64 va) }
      | some (m, wakes) =>
        let told := (((s.releaseOf t).noteStep t.sid t.cord t.mask (hAddr die pa) 16).dropWork id).setFuture (hAddr die pa) m
        if wakes then told.sendWakes die pa else told) := by
  change Host.Outcome.next (s.unfocus.performL2 id) = _
  have hfocus : s.unfocus = s := by simp only [State.unfocus, hf]
  simp only [hfocus, State.performL2, ha, Option.any_some, hu, anyAccess_nil, hbmBad_of_whole hw, Bool.or_self,
    Bool.false_eq_true, if_false]
  rfl

/-- A wake reaches a core: the registrations of its tasks on the future end, and then its waiters wake (R227, R273). -/
theorem exec_futureWake_eq {core : Nat} (hf : s.focus = none) (ha : s.active? id = some (.wake die core pa)) :
    exec (.futureWake id) s = .next (((s.dropWork id).modCore die core fun k => k.wokenTasks pa).wakeAddr die core true pa
      none) := by
  change execFutureWake id s = _
  have hfocus : s.unfocus = s := by simp only [State.unfocus, hf]
  simp only [execFutureWake, hfocus, ha]

theorem wakeAddr_of_no_waiter {d c addr : Nat} {glob : Bool} {sid : Option Nat} (h : (s.core d c).waits = []) :
    s.wakeAddr d c glob addr sid = s := by
  simp [State.wakeAddr, State.scanWaits, State.wakeable, h]

/-- One registered waiter of an address, not spilled, is the one that a wake reaches (R227). -/
theorem wakeAddr_of_one_waiter {d c addr : Nat} {glob : Bool} {w : Waiter} (h : (s.core d c).waits = [w])
    (hs : w.spilled = false) (hg : w.global = glob) (hw : w.addr = addr) :
    s.wakeAddr d c glob addr none = s.wakeWaiter d w := by
  simp [State.wakeAddr, State.scanWaits, State.wakeable, h, hs, hg, hw]

/-- A path that waits on a future, by its only registration, wakes with the value (R240). -/
theorem wakeWaiter_of_future {sid c core d : Nat} {b : Bool} {st : Stand} {p : Path}
    (hwaits : (s.core die core).waits = [⟨sid, c, b, true, pa, false⟩]) (hst : s.stand? sid = some st) (hd : st.die = die)
    (hc : st.core = core) (hp : s.path? sid c b = some p) (hwait : p.wait = some (.future pa d)) :
    s.wakeWaiter die ⟨sid, c, b, true, pa, false⟩ =
      (s.modCore die core fun k => { k with waits := [] }).wakePath sid c b fun m x =>
        x.writePair d m (BitVec.ofNat 32 (s.hbm.load (hAddr die pa + 8) 4))
          (BitVec.ofNat 32 (s.hbm.load (hAddr die pa + 12) 4)) := by
  obtain ⟨hlow, hhigh⟩ := s.hbm.load_halves (hAddr die pa + 8)
  have hun : s.unregister sid c b = s.modCore die core fun k => { k with waits := [] } := by
    simp only [State.unregister, hst, hd, hc, hwaits, List.filter_cons, List.filter_nil, and_self, decide_true, if_true,
      List.any_cons, List.any_nil, Bool.or_false, Bool.false_eq_true, if_false]
    exact modCore_congr (by simp [hwaits])
  simp only [State.wakeWaiter, hp, Option.bind_some, hwait, hun, hlow, hhigh, Nat.add_assoc]

end

/-- Settles O25: the three instructions on a mapped future, then its resolution, then a wake at a core. -/
theorem futuresComplete : Obligations.FuturesComplete := by
  unfold Obligations.FuturesComplete
  refine ⟨fun s f o poison pa leaf => ?instructions, fun s id die pa va t ctx v poison hf ha hu hw => ?resolve,
    fun s id die core pa hf ha => ?wake⟩
  case instructions =>
    intro st va h w word low waited ready ha hr hm
    have hlt : s.hbm.load h 8 < 2 ^ 64 := s.hbm.load_lt h 8
    refine ⟨fun hi => exec_fres_of_mapped ha hr hm hi, fun hi ⟨hheld, hw, hroom⟩ => ?_, fun hi ⟨hheld, hw, _⟩ => ?_⟩
    · have he := exec_fwait_of_mapped ha hr hm hheld hw hi hroom
      obtain ⟨hlow, hhigh⟩ := s.hbm.load_halves (h + 8)
      refine ⟨fun hfull => ?_, fun hempty => ?_⟩
      · rw [he, if_pos (two_le_state_iff.mpr hfull), hlow, hhigh]
      · rw [he, if_neg fun h2 => Bool.false_ne_true (hempty.symm.trans (two_le_state_iff.mp h2)), ← toNat_waited hlt,
          register_of_room]
        rfl
    · obtain ⟨hlow, hhigh⟩ := s.hbm.load_halves h
      have hword : word 0 = BitVec.ofNat 32 (s.hbm.load h 4) := by simp only [word, Nat.add_zero]
      rw [hword, exec_ftest_of_mapped ha hr hm hheld hw hi, hlow, hhigh]
      by_cases hfull : w.getLsbD 63 = true
      · rw [if_pos (two_le_state_iff.mpr hfull), if_pos hfull]
      · rw [if_neg (hfull ∘ two_le_state_iff.mp), if_neg hfull]
  case resolve =>
    intro h w gone told full resolved
    have hlt : s.hbm.load h 8 < 2 ^ 64 := s.hbm.load_lt h 8
    have he := exec_futureResolve_eq hf ha hu hw
    refine ⟨fun hempty => ?_, fun hfull => ?_⟩
    · have hnot : ¬ 2 ≤ nbits (s.hbm.load h 8) 63 62 := fun h2 =>
        Bool.false_ne_true (hempty.symm.trans (two_le_state_iff.mp h2))
      have hwaiters : (nbits (s.hbm.load h 8) 63 62 = 1 || nbits (s.hbm.load h 8) 31 0 ≠ 0) =
          decide (w.getLsbD 62 = true ∨ w.extractLsb' 0 32 ≠ 0#32) := by
        rw [← Bool.decide_or]
        exact decide_eq_decide.mpr (or_congr (state_eq_one_iff hnot) (not_congr (count_eq_zero_iff hlt)))
      rw [he, resolveFuture, if_neg hnot, hwaiters, ← toNat_resolved hlt]
      simp only [decide_eq_true_eq, State.setFuture, place_dropWork_noteStep]
      rfl
    · rw [he, resolveFuture, if_pos (two_le_state_iff.mpr hfull)]
      rfl
  case wake =>
    intro clear arrived
    have he := exec_futureWake_eq hf ha
    let woken : State := State.modCore (s.dropWork id) die core fun k => k.wokenTasks pa
    have hsame : (woken.core die core).waits = (s.core die core).waits :=
      waits_modCore (s := s.dropWork id) (f := fun k => k.wokenTasks pa) (fun _ => rfl) die core
    refine ⟨fun hnone => ?_, fun sid c b p d st hone hst hd hc hp hwait => ?_⟩
    · rw [he, wakeAddr_of_no_waiter (s := woken) (hsame.trans hnone)]
      refine congrArg _ (modCore_congr (s := s.dropWork id) ?_)
      have hk : (State.core (s.dropWork id) die core).waits = [] := hnone
      rw [Core.wokenTasks, ← hk]
    · intro word
      have hst' : woken.stand? sid = some st := by
        simpa only [woken, State.stand?, State.modCore_stands, State.dropWork_stands] using hst
      have hp' : woken.path? sid c b = some p := by
        simpa only [State.path?, hst', hst] using hp
      rw [he, wakeAddr_of_one_waiter (s := woken) (hsame.trans hone) rfl rfl rfl,
        wakeWaiter_of_future (s := woken) (hsame.trans hone) hst' hd hc hp' hwait, modCore_modCore]
      rfl

end Sys2Proof.Machine
end

section
/-! PROOFS. Grove words (R248 to R251). -/

namespace Sys2Proof.Machine

/-- The state in which a path has folded a word and gone on, its stand released or not (R250). -/
def State.foldDone (s : State) (f : Focus) (st : Stand) (r : SCode) (v : DWord) : State :=
  s.seat { f with stand := st, cord := f.cord.writeS r v }.advance.whole

/-- A waiter of a word receives the word's new value (R251). -/
def groveReply (b : Bool) (v : DWord) (y : Cord) : Cord :=
  match (y.slot b).bind Path.wait with
  | some (.grove _ _ d) => y.writeS (BitVec.ofNat 5 d) v
  | _ => y

section
variable {s : State} {f : Focus} {r : SCode} {w : BitVec 4}

theorem toInt_le_max_eq_slt (x y : DWord) : (if y.toInt ≤ x.toInt then x else y) = if y.slt x then x else y := by
  rcases lt_trichotomy y.toInt x.toInt with h | h | h
  · rw [if_pos h.le, if_pos (BitVec.slt_iff_toInt_lt.mpr h)]
  · rw [BitVec.toInt_inj.mp h, ite_self, ite_self]
  · rw [if_neg (not_le.mpr h), if_neg fun hl => lt_asymm h (BitVec.slt_iff_toInt_lt.mp hl)]

theorem toInt_le_min_eq_slt (x y : DWord) : (if x.toInt ≤ y.toInt then x else y) = if x.slt y then x else y := by
  rcases lt_trichotomy x.toInt y.toInt with h | h | h
  · rw [if_pos h.le, if_pos (BitVec.slt_iff_toInt_lt.mpr h)]
  · rw [BitVec.toInt_inj.mp h, ite_self, ite_self]
  · rw [if_neg (not_le.mpr h), if_neg fun hl => lt_asymm h (BitVec.slt_iff_toInt_lt.mp hl)]

/-- A fold that finds the word as it would leave it only answers; any other releases, writes the word and wakes its
waiters in order (R250, R251). -/
theorem foldWord_of_issues {i : Instr} {pick : DWord → DWord → DWord} (h : Issues i s f) (hheld : releaseHeld s f = false)
    {g : GroveWord} (hg : (s.grove f.stand.die f.grove).word f.stand.owner w.toNat = g) {v : DWord}
    (hv : g.value.elim (f.cord.sreg r) (fun y => pick y (f.cord.sreg r)) = v) :
    foldWord i r w pick s = .next (if g.value = some v then s.foldDone f f.stand r v
      else g.waits.foldl (fun s a => s.wakePath a.1 a.2.1 a.2.2 fun _ c => groveReply a.2.2 v c)
        ((s.foldDone f (s.released f.stand f.cord.id f.path.mask) r v).modWord f.stand.die f.grove f.stand.owner w.toNat
          fun _ => { value := some v, waits := [] })) := by
  cases hval : g.value with
  | none =>
    obtain rfl : f.cord.sreg r = v := by simpa only [hval, Option.elim] using hv
    simp only [foldWord, issue_of_issues h, hheld, hg, hval, Bool.false_eq_true, if_false, reduceCtorEq]
    rfl
  | some y =>
    obtain rfl : pick y (f.cord.sreg r) = v := by simpa only [hval, Option.elim] using hv
    by_cases hsame : some y = some (pick y (f.cord.sreg r))
    · simp only [foldWord, issue_of_issues h, hheld, hg, hval, Bool.false_eq_true, if_false, if_pos hsame]
      rfl
    · simp only [foldWord, issue_of_issues h, hheld, hg, hval, Bool.false_eq_true, if_false, hsame]
      rfl

/-- GMAX and GMIN fold by the signed order (R250). -/
theorem exec_fold_eq {grow : Bool} (h : Issues (if grow then .gmax r w else .gmin r w) s f) (hheld : releaseHeld s f = false)
    {g : GroveWord} (hg : (s.grove f.stand.die f.grove).word f.stand.owner w.toNat = g) {v : DWord}
    (hv : g.value.elim (f.cord.sreg r) (fun y =>
      if grow then (if y.slt (f.cord.sreg r) then f.cord.sreg r else y)
      else (if (f.cord.sreg r).slt y then f.cord.sreg r else y)) = v) :
    exec (if grow then .gmax r w else .gmin r w) s = .next (if g.value = some v then s.foldDone f f.stand r v
      else g.waits.foldl (fun s a => s.wakePath a.1 a.2.1 a.2.2 fun _ c => groveReply a.2.2 v c)
        ((s.foldDone f (s.released f.stand f.cord.id f.path.mask) r v).modWord f.stand.die f.grove f.stand.owner w.toNat
          fun _ => { value := some v, waits := [] })) := by
  cases grow with
  | true =>
    have hv : g.value.elim (f.cord.sreg r) (fun y => if y.toInt ≤ (f.cord.sreg r).toInt then f.cord.sreg r else y) = v := by
      simpa only [toInt_le_max_eq_slt, if_true] using hv
    exact foldWord_of_issues (pick := fun y x => if y.toInt ≤ x.toInt then x else y) h hheld hg hv
  | false =>
    have hv : g.value.elim (f.cord.sreg r) (fun y => if (f.cord.sreg r).toInt ≤ y.toInt then f.cord.sreg r else y) = v := by
      simpa only [toInt_le_min_eq_slt, Bool.false_eq_true, if_false] using hv
    exact foldWord_of_issues (pick := fun y x => if x.toInt ≤ y.toInt then x else y) h hheld hg hv

/-- GRD takes the word as it reads, and acquires where it has been folded (R251). -/
theorem exec_grd_of_issues (h : Issues (.grd r w) s f) {g : GroveWord}
    (hg : (s.grove f.stand.die f.grove).word f.stand.owner w.toNat = g) :
    exec (.grd r w) s = .next ((s.acquireWord f g).goneOn f (f.cord.writeS r g.read)) := by
  change execGrd r w s = _
  simp only [execGrd, issue_of_issues h, hg]
  rfl

/-- GWAIT goes on where the word differs from its operand, and else registers and parks (R251). -/
theorem exec_gwait_of_issues (h : Issues (.gwait r w) s f) {g : GroveWord}
    (hg : (s.grove f.stand.die f.grove).word f.stand.owner w.toNat = g) :
    exec (.gwait r w) s = .next (if g.read ≠ f.cord.sreg r then (s.acquireWord f g).goneOn f (f.cord.writeS r g.read)
      else (s.modWord f.stand.die f.grove f.stand.owner w.toNat fun y =>
        { y with waits := y.waits ++ [(f.stand.sid, f.cord.id, f.slotB)] }).parked f
          (.grove w.toNat (f.cord.sreg r) r.toNat)) := by
  change execGwait r w s = _
  simp only [execGwait, issue_of_issues h, hg, park_eq_parked]
  split_ifs <;> rfl

end

end Sys2Proof.Machine
end

section
/-! PROOFS. Sleeps, stalls and ageing (R63, R138, R152, R253). -/

namespace Sys2Proof.Machine

theorem unfocus_of_none {s : State} (hf : s.focus = none) : s.unfocus = s := by simp only [State.unfocus, hf]

theorem exec_sleep_of_issues {s : State} {f : Focus} {r : SCode} (h : Issues (.sleep r) s f) :
    exec (.sleep r) s = .next (if (s.clk f.stand.die f.stand.core).ult (f.cord.sreg r)
      then s.parked f (.sleep (f.cord.sreg r)) else s.goneOn f f.cord) := by
  change execSleep r s = _
  simp only [execSleep, issue_of_issues h, BitVec.ult, decide_eq_true_eq, ← Nat.not_le, ite_not]
  split_ifs <;> rfl

section
variable {s : State} {sid c slot : Nat} {st : Stand} {cord : Cord} {p : Path} (hf : s.focus = none)
  (hst : s.stand? sid = some st) (hc : st.cord? c = some cord) (hp : cord.slot (slot = 1) = some p)
include hst hc hp

theorem path?_of_slot : s.path? sid c (slot = 1) = some p := by
  simp only [State.path?, hst, hc, Option.bind_some, hp]

include hf

/-- A sleep whose value CLK has reached ends (R253). -/
theorem exec_sleepExpire_of_due {t : DWord} (hw : p.wait = some (.sleep t))
    (hle : t.toNat ≤ (s.clk st.die st.core).toNat) :
    exec (.sleepExpire sid c slot) s = .next (s.wakePath sid c (slot = 1) fun _ y => y) := by
  change execSleepExpire sid c slot s = _
  simp only [execSleepExpire, unfocus_of_none hf, hst, path?_of_slot hst hc hp, Option.bind_some, hw, if_pos hle]

/-- A stall whose last cycle is over ends (R63). -/
theorem exec_hstlExpire_of_due {e : Nat} (hw : p.stall = some e) (hlt : e < s.clock) :
    exec (.hstlExpire sid c slot) s = .next (s.modCord sid c fun y =>
      match y.slot (slot = 1) with
      | some q => y.setSlot (slot = 1) (some { q with stall := none, stallEnd := e })
      | none => y) := by
  change execHstlExpire sid c slot s = _
  simp only [execHstlExpire, unfocus_of_none hf, path?_of_slot hst hc hp, Option.bind_some, hw, if_pos hlt] <;> rfl

end

/-- The slot of the youngest live path of a cord; of two of one age slot B's (R138, log 76). -/
def Cord.youngest (c : Cord) : Bool :=
  match c.slotA, c.slotB with
  | some x, some y => decide (x.liveSince ≤ y.liveSince)
  | _, y => y.isSome

theorem youngest_eq {cord : Cord} {slot : Nat} {p : Path} (hp : cord.slot (slot = 1) = some p)
    (hother : ∀ q, cord.slot (decide (slot ≠ 1)) = some q →
      if slot = 1 then q.liveSince ≤ p.liveSince else p.liveSince > q.liveSince) :
    cord.youngest = decide (slot = 1) := by
  by_cases h : slot = 1
  · subst h
    have hB : cord.slotB = some p := hp
    cases hA : cord.slotA with
    | none => simp [Cord.youngest, hA, hB]
    | some q => simpa [Cord.youngest, hA, hB] using hother q hA
  · rw [decide_eq_false h] at hp ⊢
    have hA : cord.slotA = some p := hp
    rw [decide_eq_true h] at hother
    cases hB : cord.slotB with
    | none => simp [Cord.youngest, hA, hB]
    | some q => simpa [Cord.youngest, hA, hB, h] using hother q hB

/-- The youngest path goes to the pending tail, and the head of the queue takes its slot (R148, R152). -/
theorem swap_of_pending {now : Nat} {st : Stand} {cord : Cord} {b : Bool} {h : PendPath} (pc : Pc) (m : Mask)
    (hr : cord.ringCount = 0) (hpend : cord.pending = [h]) :
    ∃ c', pendTail now st (cord.setSlot b none) pc m = .ok (st, c') ∧ promoteInto now b st c' =
      .ok (st, { cord.setSlot b (some (livePath now h.pc h.mask)) with pending := [⟨pc, m, 0, now⟩] }) := by
  have hp : (cord.setSlot b none).pending = [h] := (Cord.setSlot_pending ..).trans hpend
  have hr' : (cord.setSlot b none).ringCount = 0 := by cases b <;> exact hr
  have hl : (cord.setSlot b none).pending.length < 2 := by
    rw [hp, List.length_singleton]
    exact Nat.one_lt_two
  refine ⟨{ cord.setSlot b none with pending := (cord.setSlot b none).pending ++ [⟨pc, m, 0, now⟩] },
    pendTail_room hl hr', (promoteInto_cons (q := h) (r := [⟨pc, m, 0, now⟩]) ?_ ?_).trans ?_⟩
  · exact congrArg (· ++ _) hp
  · exact hr'
  · cases b <;> rfl

theorem withdraw_of_no_wait {s : State} {sid c : Nat} {b : Bool} {p : Path} (hp : s.path? sid c b = some p)
    (hw : p.wait = none) : s.withdraw sid c b = s := by
  unfold State.withdraw
  cases hst : s.stand? sid with
  | none => simp
  | some st => simp only [hp, hw]

/-- A pending head older than AGELIM takes the slot of the youngest live path, which waits on nothing (R138, R152). -/
theorem exec_ageingSwap_of_due {s : State} {sid c slot : Nat} {st : Stand} {cord : Cord} {p : Path} {h : PendPath}
    (hf : s.focus = none) (hst : s.stand? sid = some st) (hc : st.cord? c = some cord)
    (hp : cord.slot (slot = 1) = some p) (hw : p.wait = none)
    (hgroup : ∀ b q, cord.slot b = some q → s.inGroup st q = false) (hr : cord.ringCount = 0) (hpend : cord.pending = [h])
    (hage : (s.core st.die st.core).agelim.toNat < h.age + (s.clock - h.since))
    (hyoung : cord.youngest = decide (slot = 1)) :
    exec (.ageingSwap sid c) s = .next (s.modStand sid fun _ => st.modCord c fun _ =>
      { cord.setSlot (slot = 1) (some (livePath s.clock h.pc h.mask)) with pending := [⟨p.pc, p.mask, 0, s.clock⟩] }) := by
  have hlimit := (s.core st.die st.core).agelim.isLt
  have hdue : (cord.pending.head?.any fun p => decide ((s.core st.die st.core).agelim.toNat < p.ageAt s.clock)) = true := by
    rw [hpend]
    exact decide_eq_true (lt_min hage (by omega))
  have hfree : ((cord.slotA.toList ++ cord.slotB.toList).all fun p => !s.inGroup st p) = true := by
    simp only [List.all_append, Bool.and_eq_true, List.all_eq_true, Option.mem_toList, Bool.not_eq_true']
    exact ⟨fun q hq => hgroup false q hq, fun q hq => hgroup true q hq⟩
  obtain ⟨c', htail, hhead⟩ := swap_of_pending (now := s.clock) (st := st) (b := decide (slot = 1)) p.pc p.mask hr hpend
  have hwd : s.withdraw sid c (decide (slot = 1)) = s := withdraw_of_no_wait (path?_of_slot hst hc hp) hw
  have hplaces : ({ cord.setSlot (slot = 1) (some (livePath s.clock h.pc h.mask)) with
      pending := [⟨p.pc, p.mask, 0, s.clock⟩] } : Cord).spillPlaces = cord.spillPlaces :=
    Cord.spillPlaces_setSlot cord (slot = 1) _
  change execAgeingSwap sid c s = _
  unfold Cord.youngest at hyoung
  cases hA : cord.slotA <;> cases hB : cord.slotB <;> simp only [hA, hB] at hyoung hdue hfree <;>
    simp only [execAgeingSwap, unfocus_of_none hf, hst, hc, hA, hB, hyoung, hdue, hfree, hwd, hp, htail, hhead,
      State.spillBad_same s st hplaces, State.mendSpill_same s st hplaces, Bool.and_self, if_true, Bool.false_eq_true, if_false]

end Sys2Proof.Machine
end

section
/-! PROOFS. Translations that end their walk and that are looked up (R34, R174). -/

namespace Sys2Proof.Machine

/-- A cached translation covers an address of a context. -/
def TlbEntry.covers (e : TlbEntry) (ctx va : Nat) : Prop := e.ctx = ctx ∧ e.va ≤ va ∧ va < e.va + e.leaf.size

theorem isSome_tlbFind_singleton {e : TlbEntry} {ctx va : Nat} : (tlbFind [e] ctx va).isSome = true ↔ e.covers ctx va := by
  simp [tlbFind, TlbEntry.covers, List.find?_singleton, apply_ite]

theorem modDie_congr {s : State} {d : Nat} {f f' : Die → Die} (h : f (s.die d) = f' (s.die d)) :
    s.modDie d f = s.modDie d f' :=
  congrArg (fun l => { s with dies := l }) (modify_congr_of_getD Die.reset fun _ => h)

/-- The first walk in flight of a page ends, and fills the TLBs (R174). -/
theorem exec_tlbWalkDone_of_first {s : State} {die ctx va : Nat} {w : Walk} {pre post : List Walk} (hf : s.focus = none)
    (hw : (s.die die).walks = pre ++ w :: post) (hc : w.entry.covers ctx va) (hpre : ∀ x ∈ pre, ¬x.entry.covers ctx va) :
    exec (.tlbWalkDone die ctx va) s = .next
      ((s.modDie die fun x => { x with walks := pre ++ post }).tlbFill die w.core w.entry) := by
  have hfind : (s.die die).walks.find? (fun w => (tlbFind [w.entry] ctx va).isSome) = some w := by
    rw [hw, List.find?_append, List.find?_eq_none.mpr fun x hx => mt isSome_tlbFind_singleton.mp (hpre x hx),
      Option.none_or]
    exact List.find?_cons_of_pos (isSome_tlbFind_singleton.mpr hc)
  have herase : (s.die die).walks.erase w = pre ++ post := by
    rw [hw, List.erase_append_right _ fun hm => hpre w hm hc, List.erase_cons_head]
  change execTlbWalkDone die ctx va s = _
  simp only [execTlbWalkDone, unfocus_of_none hf, hfind, State.endWalk]
  rw [modDie_congr (s := s) (f' := fun x => { x with walks := pre ++ post }) (by rw [herase])]

section
variable {s : State} {d c ctx va : Nat} {l : Leaf} (h1 : s.tlbHit d c ctx va = none) (hw : s.walk d ctx va = .ok l)
include h1 hw

/-- A lookup that misses the core's TLB fills it from the die's (R174). -/
theorem lookup_of_shared (h2 : s.tlbShared d ctx va = some l) : s.lookup d c ctx va =
    (s.modCore d c fun k => { k with tlb := (⟨ctx, va / l.size * l.size, l⟩ :: k.tlb).take 128 }, .ok l) := by
  simp only [State.lookup, h1, h2, hw, State.oldOrNew, if_true]

/-- A lookup that misses both levels begins a walk while one of the 256 slots is free (R34, R174). -/
theorem lookup_of_walk (h2 : s.tlbShared d ctx va = none) (hroom : (s.die d).walks.length < 256) : s.lookup d c ctx va =
    (s.modDie d fun x => { x with walks := ⟨c, ⟨ctx, va / l.size * l.size, l⟩⟩ :: x.walks }, .ok l) := by
  simp only [State.lookup, h1, h2, hw, State.beginWalk, hroom, if_true]

end

/-- Settles O27: grove words by what they hold, then sleeps, stalls and ageing, then walks and lookups. -/
theorem groveWordsAndTimeComplete : Obligations.GroveWordsAndTimeComplete := by
  unfold Obligations.GroveWordsAndTimeComplete
  refine ⟨fun s f r w grow => ?words, fun s f r => ⟨fun h => issueCord_of_issues h _, exec_sleep_of_issues⟩,
    fun s sid c slot st cord p hf hst hc hp => ?paths,
    fun s die ctx va w pre post hf hw hc hpre => exec_tlbWalkDone_of_first hf hw hc hpre,
    fun s d c ctx va l h1 hw => ⟨lookup_of_shared h1 hw, lookup_of_walk h1 hw⟩⟩
  case words =>
    intro st g x now set v i folded told read
    have hv : g.value.elim x (fun y => if grow then (if y.slt x then x else y) else (if x.slt y then x else y)) = v := by
      simp only [v]
      cases g.value <;> rfl
    refine ⟨fun h hheld => ?_, fun h => exec_grd_of_issues (g := g) h rfl, fun h => ?_⟩
    · have he := exec_fold_eq (g := g) h hheld rfl hv
      refine ⟨fun hsame => ?_, fun hne hnone => ?_, fun sid c b p d hne hone _ _ => ?_⟩
      · rw [he, if_pos hsame]
        rfl
      · rw [he, if_neg hne, show (g.waits : List _) = [] from hnone]
        rfl
      · rw [he, if_neg hne, show (g.waits : List _) = [(sid, c, b)] from hone]
        rfl
    · have he := exec_gwait_of_issues (g := g) h rfl
      exact ⟨fun hne => he.trans (congrArg _ (if_pos hne)), fun heq => he.trans (congrArg _ (if_neg (not_not.mpr heq)))⟩
  case paths =>
    intro k
    refine ⟨fun t hw hle => exec_sleepExpire_of_due hf hst hc hp hw hle,
      fun e hw hlt => exec_hstlExpire_of_due hf hst hc hp hw hlt, fun h hw hgroup hr hpend hage hother => ?_⟩
    exact exec_ageingSwap_of_due hf hst hc hp hw hgroup hr hpend hage (youngest_eq hp hother)

end Sys2Proof.Machine
end

section
/-! PROOFS. Scratchpad accesses (R170, R187, R191, R196 to R199, R277). -/

namespace Sys2Proof.Machine

/-! ### The checks of an access -/

/-- The lowest lane whose address meets a condition. -/
def lowLane (p : Nat → Prop) (addrs : List (Nat × Nat)) (x : Nat) : Prop :=
  ∃ pre l post, addrs = pre ++ (l, x) :: post ∧ p x ∧ ∀ y ∈ pre, ¬p y.2

theorem find?_of_lowLane {p : Nat → Prop} [DecidablePred p] {addrs : List (Nat × Nat)} {x : Nat} (h : lowLane p addrs x) :
    ∃ l, addrs.find? (fun y => decide (p y.2)) = some (l, x) := by
  obtain ⟨pre, l, post, rfl, hx, hpre⟩ := h
  refine ⟨l, ?_⟩
  rw [List.find?_append, List.find?_eq_none.mpr fun y hy => by simpa using hpre y hy, Option.none_or]
  exact List.find?_cons_of_pos (decide_eq_true hx)

theorem alignTrap_of_aligned {n : Nat} {addrs : List (Nat × Nat)} (h : ∀ x ∈ addrs, x.2 % n = 0) : alignTrap n addrs = none := by
  rw [alignTrap, List.find?_eq_none.mpr fun x hx => by simpa using h x hx, Option.map_none]

theorem alignTrap_of_low {n : Nat} {addrs : List (Nat × Nat)} {x : Nat} (h : lowLane (fun x => x % n ≠ 0) addrs x) :
    alignTrap n addrs = some { code := .misaligned, val := some (BitVec.ofNat 64 x) } := by
  obtain ⟨l, hl⟩ := find?_of_lowLane h
  obtain ⟨-, -, -, -, hx, -⟩ := h
  have hfilter : [(x, n)].filter (fun y => decide (y.1 % y.2 ≠ 0)) = [(x, n)] := List.filter_cons_of_pos (decide_eq_true hx)
  simp only [alignTrap, hl, Option.map_some, misalign, hfilter]

theorem spTrap_of_inside {st : Stand} {n : Nat} {addrs : List (Nat × Nat)} (h : ∀ x ∈ addrs, x.2 + n ≤ st.spGran * 16384) :
    spTrap st n addrs = none := by
  rw [spTrap, List.find?_eq_none.mpr fun x hx => by simpa using h x hx, Option.map_none]

theorem spTrap_of_low {st : Stand} {n : Nat} {addrs : List (Nat × Nat)} {x : Nat}
    (h : lowLane (fun x => st.spGran * 16384 < x + n) addrs x) :
    spTrap st n addrs = some { code := .spRange, val := some (BitVec.ofNat 64 x) } := by
  obtain ⟨l, hl⟩ := find?_of_lowLane h
  rw [spTrap, hl, Option.map_some]

theorem spCheck_of_ok {f : Focus} {n : Nat} {addrs : List (Nat × Nat)}
    (h : ∀ x ∈ addrs, x.2 % n = 0 ∧ x.2 + n ≤ f.stand.spGran * 16384) : spCheck f n addrs = none := by
  rw [spCheck, alignTrap_of_aligned fun x hx => (h x hx).1, spTrap_of_inside fun x hx => (h x hx).2, Option.or_none]

theorem spCheck_of_misaligned {f : Focus} {n : Nat} {addrs : List (Nat × Nat)} {x : Nat}
    (h : lowLane (fun x => x % n ≠ 0) addrs x) :
    spCheck f n addrs = some { code := .misaligned, val := some (BitVec.ofNat 64 x) } := by
  rw [spCheck, alignTrap_of_low h, Option.some_or]

theorem spCheck_of_beyond {f : Focus} {n : Nat} {addrs : List (Nat × Nat)} {x : Nat} (ha : ∀ x ∈ addrs, x.2 % n = 0)
    (h : lowLane (fun x => f.stand.spGran * 16384 < x + n) addrs x) :
    spCheck f n addrs = some { code := .spRange, val := some (BitVec.ofNat 64 x) } := by
  rw [spCheck, alignTrap_of_aligned ha, spTrap_of_low h, Option.none_or]

theorem damage_of_struck {s : State} {f : Focus} {ranges : List (Nat × Nat)} {x : Nat × Nat} {b : Nat} (hx : x ∈ ranges)
    (hle : x.1 ≤ b) (hlt : b < x.1 + x.2) (hb : Struck.scratchpad f.stand.sid b ∈ (s.die f.stand.die).damaged) :
    f.damage s ranges = some { code := .memError } := by
  refine if_pos (List.any_eq_true.mpr ⟨x, hx, List.any_eq_true.mpr ⟨_, hb, ?_⟩⟩)
  simp only [struckWithin, decide_true, Bool.true_and, Bool.and_eq_true, decide_eq_true_eq]
  exact ⟨hle, hlt⟩

/-! ### Bytes that no tile task makes free -/

section
variable {s : State} {st : Stand}

theorem racySp_of_racyRead (h : s.racyRead st = []) : s.racySp st = [] := by
  simp only [State.racyRead, State.racySp, List.flatMap_eq_nil_iff] at h ⊢
  intro t ht
  refine h t ?_
  simp only [State.armed, State.openTasks, List.mem_append, List.mem_filter, Bool.and_eq_true] at ht ⊢
  exact ht.imp_left fun ⟨hm, ⟨hsid, _⟩, _⟩ => ⟨hm, hsid⟩

theorem mendLanes_of_whole (h : s.Whole) (n : Nat) (addrs : List (Nat × Nat)) : s.mendLanes st n addrs = s := by
  induction addrs with
  | nil => rfl
  | cons x r ih => exact (congrArg (State.mendLanes · st n r) (mendSp_of_whole h ..)).trans ih

end

theorem loadFree_nil (m : Memory) (fresh a n : Nat) : m.loadFree [] fresh a n = m.load a n := rfl
theorem storeFree_nil (m : Memory) (fresh a n v : Nat) : m.storeFree [] fresh a n v = m.store a n v := rfl
theorem drawIf_nil (s : State) : s.drawIf [] = s := rfl

/-- Which writes await an operand fence is apart from the bytes they left (R277). -/
theorem wroteLanes_sp (st : Stand) (m : Memory) (c : Nat) (k : BitVec 4) (n : Nat) (addrs : List (Nat × Nat)) :
    { st with sp := m }.wroteLanes c k n addrs = { st.wroteLanes c k n addrs with sp := m } := by
  induction addrs generalizing st with
  | nil => rfl
  | cons x r ih =>
    have hx (st : Stand) : { st with sp := m }.wrote c ((1 : Mask) <<< x.1) x.2 n k =
        { st.wrote c ((1 : Mask) <<< x.1) x.2 n k with sp := m } := by
      simp only [Stand.wrote]
      split_ifs <;> rfl
    exact (congrArg (Stand.wroteLanes · c k n r) (hx st)).trans (ih _)

/-- One lane of an atomic: the word it leaves, and the old words so far with its own behind them (R182). -/
def atomicLane (op : AOp) (data : Nat → Nat × Nat) (r : Memory × List (Nat × Word)) (x : Nat × Nat) :
    Memory × List (Nat × Word) :=
  let old : Word := BitVec.ofNat 32 (r.1.load x.2 4)
  (r.1.store x.2 4 (atomicNew op old (BitVec.ofNat 32 (data x.1).1) (BitVec.ofNat 32 (data x.1).2)).toNat, r.2 ++ [(x.1, old)])

theorem foldl_atomicLane (op : AOp) (data : Nat → Nat × Nat) (fresh : Nat) (addrs : List (Nat × Nat)) (m : Memory)
    (old : List (Nat × Word)) : addrs.foldl (atomicLane op data) (m, old) =
      ((atomicLanes op data [] [] fresh addrs m).1, old ++ (atomicLanes op data [] [] fresh addrs m).2) := by
  induction addrs generalizing m old with
  | nil => exact congrArg (Prod.mk m) (List.append_nil old).symm
  | cons x r ih =>
    obtain ⟨l, a⟩ := x
    rw [List.foldl_cons, atomicLane, ih, atomicLanes, storeFree_nil, loadFree_nil, List.append_assoc, List.singleton_append]

theorem atomicLanes_eq_foldl (op : AOp) (data : Nat → Nat × Nat) (fresh : Nat) (addrs : List (Nat × Nat)) (m : Memory) :
    atomicLanes op data [] [] fresh addrs m = addrs.foldl (atomicLane op data) (m, []) := by
  rw [foldl_atomicLane op data fresh, List.nil_append]

/-! ### The accesses -/

section
variable {s : State} {f : Focus} {o : MOps} {a : AOps}

section
variable (hr : s.racyRead f.stand = []) (hw : s.Whole)
include hr

include hw in
theorem exec_lds_of_ok (h : Issues (.lds o) s f) (hh : spHeld s f o.stream false = false)
    (ho : ∀ x ∈ f.laneAddrs o.s o.v, x.2 % sizeBytes o.size = 0 ∧ x.2 + sizeBytes o.size ≤ f.stand.spGran * 16384) :
    exec (.lds o) s = .next ((s.noteSp f o.stream true o.ordered).goneOn f
      (f.cord.loadRegs o.size o.d.toNat f.active fun l => f.stand.sp.load (f.laneAddr o.s o.v l) (sizeBytes o.size))) := by
  change execLds o s = _
  simp only [execLds, issue_of_issues h, hh, spCheck_of_ok ho, damage_of_whole hw, hr, drawIf_nil, loadFree_nil,
    Option.or_none, Bool.false_eq_true, if_false]
  rfl

include hw in
theorem exec_sts_of_ok (h : Issues (.sts o) s f) (hh : spHeld s f o.stream o.ordered = false)
    (ho : ∀ x ∈ f.laneAddrs o.s o.v, x.2 % sizeBytes o.size = 0 ∧ x.2 + sizeBytes o.size ≤ f.stand.spGran * 16384) :
    exec (.sts o) s = .next ((s.noteSp f o.stream false false).goneOnIn f
      { (if o.ordered then s.released f.stand f.cord.id f.active else f.stand).wroteLanes f.cord.id o.stream
          (sizeBytes o.size) (f.laneAddrs o.s o.v) with
        sp := (f.laneAddrs o.s o.v).foldl
          (fun m x => m.store x.2 (sizeBytes o.size) (f.storeData o.size o.d x.1)) f.stand.sp } f.cord) := by
  have hsp : (if o.ordered then s.released f.stand f.cord.id f.active else f.stand).sp = f.stand.sp := by
    split_ifs <;> rfl
  change execSts o s = _
  simp only [execSts, issue_of_issues h, hh, spCheck_of_ok ho, racySp_of_racyRead hr, drawIf_nil, mendLanes_of_whole hw,
    storeFree_nil, wroteLanes_sp, hsp, Bool.false_eq_true, if_false]
  rfl

include hw in
theorem exec_atoms_of_ok (h : Issues (.atoms a) s f) (hh : spHeld s f a.stream false = false)
    (ho : ∀ x ∈ f.laneAddrs a.s a.v, x.2 % 4 = 0 ∧ x.2 + 4 ≤ f.stand.spGran * 16384) {r : Memory × List (Nat × Word)}
    (hd : (f.laneAddrs a.s a.v).foldl (atomicLane a.op (f.atomicData a)) (f.stand.sp, []) = r) :
    exec (.atoms a) s = .next ((s.noteSp f a.stream true false).goneOnIn f
      { f.stand.wroteLanes f.cord.id a.stream 4 (f.laneAddrs a.s a.v) with sp := r.1 }
      (if a.d = 60 then f.cord else f.cord.writeV a.d.toNat f.active
        (fun l => ((r.2.find? fun x => x.1 = l).map Prod.snd).getD 0) .general)) := by
  change execAtoms a s = _
  simp only [execAtoms, issue_of_issues h, hh, spCheck_of_ok ho, damage_of_whole hw, hr, racySp_of_racyRead hr, drawIf_nil,
    atomicLanes_eq_foldl, hd, wroteLanes_sp, Option.or_none, Bool.false_eq_true, if_false]
  rfl

end

/-! An access that fails its checks takes the fault, and changes nothing (R197, R374). -/

section
variable {t : Trap}

theorem exec_lds_of_trap (h : Issues (.lds o) s f) (hh : spHeld s f o.stream false = false)
    (ht : (spCheck f (sizeBytes o.size) (f.laneAddrs o.s o.v)).or
      (f.damage s ((f.laneAddrs o.s o.v).map fun x => (x.2, sizeBytes o.size))) = some t) :
    exec (.lds o) s = .next (s.faulted (.lds o) f t) := by
  change execLds o s = _
  simp only [execLds, issue_of_issues h, hh, ht, Bool.false_eq_true, if_false]

theorem exec_sts_of_trap (h : Issues (.sts o) s f) (hh : spHeld s f o.stream o.ordered = false)
    (ht : spCheck f (sizeBytes o.size) (f.laneAddrs o.s o.v) = some t) :
    exec (.sts o) s = .next (s.faulted (.sts o) f t) := by
  change execSts o s = _
  simp only [execSts, issue_of_issues h, hh, ht, Bool.false_eq_true, if_false]

theorem exec_atoms_of_trap (h : Issues (.atoms a) s f) (hh : spHeld s f a.stream false = false)
    (ht : (spCheck f 4 (f.laneAddrs a.s a.v)).or (f.damage s ((f.laneAddrs a.s a.v).map fun x => (x.2, 4))) = some t) :
    exec (.atoms a) s = .next (s.faulted (.atoms a) f t) := by
  change execAtoms a s = _
  simp only [execAtoms, issue_of_issues h, hh, ht, Bool.false_eq_true, if_false]

/-- The check of the addresses stands before the check for damage, and a store has the first only. -/
theorem exec_of_spCheck {i : Instr} {n : Nat} {addrs : List (Nat × Nat)} {stream : BitVec 4} {rel : Bool}
    (hi : (i, n, addrs, stream, rel) ∈ [(Instr.lds o, sizeBytes o.size, f.laneAddrs o.s o.v, o.stream, false),
      (.sts o, sizeBytes o.size, f.laneAddrs o.s o.v, o.stream, o.ordered),
      (.atoms a, 4, f.laneAddrs a.s a.v, a.stream, false)])
    (h : Issues i s f) (hh : spHeld s f stream rel = false) (ht : spCheck f n addrs = some t) :
    exec i s = .next (s.faulted i f t) := by
  simp only [List.mem_cons, List.not_mem_nil, or_false, Prod.mk.injEq] at hi
  rcases hi with ⟨rfl, rfl, rfl, rfl, rfl⟩ | ⟨rfl, rfl, rfl, rfl, rfl⟩ | ⟨rfl, rfl, rfl, rfl, rfl⟩
  · exact exec_lds_of_trap h hh (by rw [ht, Option.some_or])
  · exact exec_sts_of_trap h hh ht
  · exact exec_atoms_of_trap h hh (by rw [ht, Option.some_or])

/-- A load or an atomic that passes its other checks consumes damage. -/
theorem exec_of_damage {i : Instr} {n : Nat} {addrs : List (Nat × Nat)} {stream : BitVec 4}
    (hi : (i, n, addrs, stream) ∈ [(Instr.lds o, sizeBytes o.size, f.laneAddrs o.s o.v, o.stream),
      (.atoms a, 4, f.laneAddrs a.s a.v, a.stream)])
    (h : Issues i s f) (hh : spHeld s f stream false = false) (hc : spCheck f n addrs = none)
    (ht : f.damage s (addrs.map fun x => (x.2, n)) = some t) : exec i s = .next (s.faulted i f t) := by
  simp only [List.mem_cons, List.not_mem_nil, or_false, Prod.mk.injEq] at hi
  rcases hi with ⟨rfl, rfl, rfl, rfl⟩ | ⟨rfl, rfl, rfl, rfl⟩
  · exact exec_lds_of_trap h hh (by rw [hc, Option.none_or, ht])
  · exact exec_atoms_of_trap h hh (by rw [hc, Option.none_or, ht])

end

end

/-- Settles O16: each access where its checks pass, the checks at the lowest lane, and the check for damage. -/
theorem scratchpadAccessesCompleteOrFault : Obligations.ScratchpadAccessesCompleteOrFault := by
  unfold Obligations.ScratchpadAccessesCompleteOrFault
  refine ⟨fun s f o a hr hw => ⟨exec_lds_of_ok hr hw, exec_sts_of_ok hr hw, fun h hh ho => exec_atoms_of_ok hr hw h hh ho rfl⟩,
    fun s f o a i n addrs rel stream hi h hh => ⟨fun x hx => exec_of_spCheck hi h hh (spCheck_of_misaligned hx),
      fun x ha hx => exec_of_spCheck hi h hh (spCheck_of_beyond ha hx)⟩,
    fun s f o a i n addrs stream x b hi h hh ho hx hle hlt hb => ?_⟩
  exact exec_of_damage hi h hh (spCheck_of_ok ho)
    (damage_of_struck (x := (x.2, n)) (List.mem_map.mpr ⟨x, hx, rfl⟩) hle hlt hb)

end Sys2Proof.Machine
end

section
/-! PROOFS. The sizes of an access (R196). -/

namespace Sys2Proof.Machine

theorem toInt_signExtend_ofNat {w : Nat} (hw : 0 < w) (hle : w ≤ 32) {v : Nat} (hv : v < 2 ^ w) :
    ((BitVec.ofNat w v).signExtend 32).toInt = if v < 2 ^ (w - 1) then (v : Int) else v - (2 ^ w : Nat) := by
  have hp : 2 ^ w = 2 ^ (w - 1) * 2 := by rw [← pow_succ, Nat.sub_add_cancel hw]
  rw [BitVec.toInt_signExtend_of_le hle, BitVec.toInt_eq_toNat_cond, BitVec.toNat_ofNat, Nat.mod_eq_of_lt hv]
  exact if_congr (by omega) rfl rfl

/-- The register words of a loaded value: extended from a byte or a half-word, else the value's own (R196). -/
theorem loadWord_spec {size : MSize} {v : Nat} (hv : v < 256 ^ sizeBytes size) (n : Nat) :
    (size = .i8 → (loadWord size v n).toInt = if v < 2 ^ 7 then (v : Int) else v - 2 ^ 8) ∧
    (size = .i16 → (loadWord size v n).toInt = if v < 2 ^ 15 then (v : Int) else v - 2 ^ 16) ∧
    (size ≠ .i8 → size ≠ .i16 → (loadWord size v n).toNat = v / 2 ^ (32 * n) % 2 ^ 32) := by
  cases size with
  | i8 => exact ⟨fun _ => toInt_signExtend_ofNat (w := 8) (by decide) (by decide) hv, by simp, by simp⟩
  | i16 => exact ⟨by simp, fun _ => toInt_signExtend_ofNat (w := 16) (by decide) (by decide) hv, by simp⟩
  | n8 | n16 | w32 | w64 | w128 => exact ⟨by simp, by simp, fun _ _ => BitVec.toNat_ofNat ..⟩

/-- Registers from d on written with words in the lanes of a mask. -/
def Cord.writeRegs (c : Cord) (d : Nat) (m : Mask) (w : Nat → Nat → Word) (k : Nat) : Cord :=
  (List.range k).foldl (fun c n => c.writeV (d + n) m (w n) .general) c

section
variable {c : Cord} {d : Nat} {m : Mask} {w : Nat → Nat → Word} {k : Nat}

theorem writeRegs_succ : c.writeRegs d m w (k + 1) = (c.writeRegs d m w k).writeV (d + k) m (w k) .general := by
  simp only [Cord.writeRegs, List.range_succ, List.foldl_append, List.foldl_cons, List.foldl_nil]

theorem length_writeRegs : (c.writeRegs d m w k).v.length = c.v.length := by
  induction k with
  | zero => rfl
  | succ k ih => rw [writeRegs_succ, Cord.writeV, List.length_set, ih]

theorem vreg_writeRegs_other {j : Nat} (h : j < d ∨ d + k ≤ j) : (c.writeRegs d m w k).vreg j = c.vreg j := by
  induction k with
  | zero => rfl
  | succ k ih => rw [writeRegs_succ, vreg_writeV_other (by omega), ih (by omega)]

theorem vreg_writeRegs {n : Nat} (hn : n < k) (h : d + k ≤ c.v.length) :
    (c.writeRegs d m w k).vreg (d + n) = (c.vreg (d + n)).write m (w n) .general := by
  induction k with
  | zero => omega
  | succ k ih =>
    rw [writeRegs_succ]
    by_cases hk : n = k
    · subst hk
      rw [vreg_writeV_same (by rw [length_writeRegs]; omega), vreg_writeRegs_other (Or.inr le_rfl)]
    · rw [vreg_writeV_other (by omega), ih (by omega) (by omega)]

theorem writeRegs_frame : { c.writeRegs d m w k with v := c.v } = c := by
  induction k with
  | zero => rfl
  | succ k ih => rw [writeRegs_succ]; exact ih

end

/-- A load writes its registers in the lanes of its mask, tags them general, and leaves the rest of the cord (R196). -/
theorem loadRegs_spec (size : MSize) {c : Cord} {d : Nat} (m : Mask) (v : Nat → Nat) (h : d + sizeRegs size ≤ c.v.length) :
    (∀ n < sizeRegs size, ((c.loadRegs size d m v).vreg (d + n)).tag = .general ∧ ∀ l < 32,
      ((c.loadRegs size d m v).vreg (d + n)).lane l =
        if m.getLsbD l then loadWord size (v l) n else (c.vreg (d + n)).lane l) ∧
    (∀ k, k < d ∨ d + sizeRegs size ≤ k → (c.loadRegs size d m v).vreg k = c.vreg k) ∧
    { c.loadRegs size d m v with v := c.v } = c := by
  change let t := c.writeRegs d m (fun n l => loadWord size (v l) n) (sizeRegs size)
    (∀ n < sizeRegs size, (t.vreg (d + n)).tag = .general ∧ ∀ l < 32, (t.vreg (d + n)).lane l = _) ∧
      (∀ k, k < d ∨ d + sizeRegs size ≤ k → t.vreg k = c.vreg k) ∧ { t with v := c.v } = c
  refine ⟨fun n hn => ?_, fun k hk => vreg_writeRegs_other hk, writeRegs_frame⟩
  rw [vreg_writeRegs hn h]
  exact ⟨ite_self _, fun l hl => VReg.lane_write hl⟩

/-- A store's value is its registers', the lowest first, or the low part of the first (R196). -/
theorem storeData_eq (f : Focus) (size : MSize) (d : VCode) (l : Nat) :
    let reg (n : Nat) : Nat := ((f.cord.vreg (d.toNat + n)).lane l).toNat
    f.storeData size d l = (reg 0 + (if 2 ≤ sizeRegs size then 2 ^ 32 * reg 1 else 0) +
      if sizeRegs size = 4 then 2 ^ 64 * reg 2 + 2 ^ 96 * reg 3 else 0) % 256 ^ sizeBytes size := by
  intro reg
  have hsum (k : Nat) (g : Nat → Nat) : ((List.range (k + 1)).map g).foldl (· + ·) 0 =
      ((List.range k).map g).foldl (· + ·) 0 + g k := by
    rw [List.range_succ, List.map_append, List.foldl_append]; rfl
  have hzero (g : Nat → Nat) : ((List.range 0).map g).foldl (· + ·) 0 = 0 := rfl
  rw [Focus.storeData]
  congr 1
  cases size <;> simp only [sizeRegs, hsum, hzero, reg] <;> norm_num <;> ring

/-- Memory reads the value that was stored, and its bytes from the lowest (R196). -/
theorem load_store {m : Memory} (hm : m.wf = true) (x : Nat) {n v : Nat} (hv : v < 256 ^ n) :
    (m.store x n v).load x n = v ∧ ∀ k < n, (m.store x n v).load (x + k) 1 = v / 256 ^ k % 256 := by
  rw [Memory.store_eq_put]
  refine ⟨?_, fun k hk => ?_⟩
  · have hb := Memory.bytes_put hm x (leBytes n v)
    rw [length_leBytes] at hb
    rw [Memory.load_eq_leNat, hb, leNat_leBytes, Nat.mod_eq_of_lt hv]
  · rw [Memory.load, Memory.load, Memory.read_put hm, length_leBytes, if_pos (by omega), Nat.add_sub_cancel_left,
      getD_leBytes v hk, BitVec.toNat_ofNat]
    omega

end Sys2Proof.Machine
end

section
/-! PROOFS. The walk of a page table, level by level (R171 to R173). -/

namespace Sys2Proof.Machine

/-- A level of the page table (R171). -/
def levelAt (k : Nat) : Level := levels.getD k ⟨0, 0, none, 1⟩

theorem levels_drop {k : Nat} (h : k ≤ 4) : levels.drop k = levelAt k :: levels.drop (k + 1) := by
  interval_cases k <;> rfl

theorem shift_levelAt {k : Nat} (h : k ≤ 4) : (levelAt k).shift = [48, 39, 30, 21, 16].getD k 0 := by
  interval_cases k <;> rfl

theorem entries_levelAt {k : Nat} (h : k ≤ 4) : (levelAt k).entries = if k = 4 then 32 else 512 := by
  interval_cases k <;> rfl

theorem page_levelAt_of_lt {k : Nat} (h : k < 2) : (levelAt k).page = none := by interval_cases k <;> rfl

theorem page_levelAt {k : Nat} (h : 2 ≤ k) (h4 : k ≤ 4) : (levelAt k).page = some (2 ^ (levelAt k).shift) := by
  interval_cases k <;> rfl

theorem nextAlign_levelAt {k : Nat} (h : k < 4) : (levelAt k).nextAlign = 8 * (levelAt (k + 1)).entries := by
  interval_cases k <;> rfl

/-- The entry of an address in a table of a level. -/
def tableEntry (m : Memory) (d va : Nat) (l : Level) (t : Nat) : Nat := m.load (hAddr d (t + 8 * (va / 2 ^ l.shift % l.entries))) 8

/-- The physical address that an entry holds. -/
def entryPa (e : Nat) : Nat := nbits e 47 8 * 256

/-- An entry whose reserved bits are not zero (R172). -/
def entryReserved (e : Nat) : Prop := nbits e 63 48 ≠ 0 ∨ nbits e 7 7 ≠ 0

section
variable {m : Memory} {d va t : Nat} {l : Level} {rest : List Level}

theorem walkFrom_of_outside (h : Config.hbmBytes < t + 8 * l.entries) : walkFrom m d va (l :: rest) t = .error .pteInvalid := by
  simp only [walkFrom, if_pos h]

variable (hfit : t + 8 * l.entries ≤ Config.hbmBytes)
include hfit

theorem walkFrom_of_absent (hv : nbits (tableEntry m d va l t) 0 0 = 0) : walkFrom m d va (l :: rest) t = .error .pageFault := by
  unfold tableEntry at hv
  simp only [walkFrom, if_neg (not_lt.mpr hfit), hv, if_true]

variable (hv : nbits (tableEntry m d va l t) 0 0 = 1)
include hv

theorem walkFrom_of_reserved (hr : entryReserved (tableEntry m d va l t)) :
    walkFrom m d va (l :: rest) t = .error .pteInvalid := by
  unfold tableEntry entryReserved at *
  simp only [walkFrom, if_neg (not_lt.mpr hfit), hv, if_pos hr, one_ne_zero, if_false]

theorem walkFrom_of_leaf_bad (hl : nbits (tableEntry m d va l t) 1 1 = 1)
    (h : l.page = none ∨ nbits (tableEntry m d va l t) 5 4 = 3 ∨ ∃ sz, l.page = some sz ∧
      (entryPa (tableEntry m d va l t) % sz ≠ 0 ∨ Config.hbmBytes < entryPa (tableEntry m d va l t) + sz)) :
    walkFrom m d va (l :: rest) t = .error .pteInvalid := by
  unfold tableEntry entryPa at *
  simp only [walkFrom, if_neg (not_lt.mpr hfit), hv, one_ne_zero, if_false, hl, if_true]
  split_ifs
  · rfl
  rcases h with h | h | ⟨sz, hsz, h⟩
  · rw [h]
  · rw [h]
    cases l.page <;> rfl
  · rw [hsz]
    split
    · next hs _ =>
      obtain rfl := Option.some.inj hs
      rw [if_pos h]
    · rfl

theorem walkFrom_of_table_bad (hl : nbits (tableEntry m d va l t) 1 1 = 0)
    (h : nbits (tableEntry m d va l t) 6 2 ≠ 0 ∨ rest = [] ∨ entryPa (tableEntry m d va l t) % l.nextAlign ≠ 0) :
    walkFrom m d va (l :: rest) t = .error .pteInvalid := by
  unfold tableEntry entryPa at *
  rw [← List.isEmpty_iff] at h
  simp only [walkFrom, if_neg (not_lt.mpr hfit), hv, one_ne_zero, if_false, hl, zero_ne_one, if_pos h, ite_self]

variable (hr : ¬entryReserved (tableEntry m d va l t))
include hr

theorem walkFrom_of_leaf {sz : Nat} {k : PageKind} (hl : nbits (tableEntry m d va l t) 1 1 = 1) (hsz : l.page = some sz)
    (hk : pageKindOf (nbits (tableEntry m d va l t) 5 4) = some k) (ha : entryPa (tableEntry m d va l t) % sz = 0)
    (hin : entryPa (tableEntry m d va l t) + sz ≤ Config.hbmBytes) :
    walkFrom m d va (l :: rest) t = .ok ⟨entryPa (tableEntry m d va l t), sz, k, nbits (tableEntry m d va l t) 6 6 = 1,
      nbits (tableEntry m d va l t) 2 2 = 1, nbits (tableEntry m d va l t) 3 3 = 1⟩ := by
  have hbad : ¬(entryPa (tableEntry m d va l t) % sz ≠ 0 ∨ Config.hbmBytes < entryPa (tableEntry m d va l t) + sz) := by omega
  unfold tableEntry entryReserved entryPa at *
  simp only [walkFrom, if_neg (not_lt.mpr hfit), hv, one_ne_zero, if_false, if_neg hr, hl, if_true, hsz, hk, if_neg hbad]

theorem walkFrom_of_table (hl : nbits (tableEntry m d va l t) 1 1 = 0) (hz : nbits (tableEntry m d va l t) 6 2 = 0)
    (hrest : rest ≠ []) (ha : entryPa (tableEntry m d va l t) % l.nextAlign = 0) :
    walkFrom m d va (l :: rest) t = walkFrom m d va rest (entryPa (tableEntry m d va l t)) := by
  have hgood : ¬(nbits (tableEntry m d va l t) 6 2 ≠ 0 ∨ rest.isEmpty = true ∨
      entryPa (tableEntry m d va l t) % l.nextAlign ≠ 0) := by
    simp [hz, ha, hrest]
  unfold tableEntry entryReserved entryPa at *
  simp only [walkFrom, if_neg (not_lt.mpr hfit), hv, one_ne_zero, if_false, if_neg hr, hl, zero_ne_one, if_neg hgood]

end

/-- Good entries for tables at the levels above a level lead to that level's table. -/
theorem walk_eq_walkFrom {s : State} {d ctx va k : Nat} {t : Nat → Nat} (hk : k ≤ 4)
    (h0 : t 0 = nbits ((s.die d).ctx ctx).root.toNat 47 12 * 4096)
    (h : ∀ j < k, t j + 8 * (levelAt j).entries ≤ Config.hbmBytes ∧
      let e := tableEntry s.hbm d va (levelAt j) (t j)
      nbits e 0 0 = 1 ∧ nbits e 1 1 = 0 ∧ nbits e 6 2 = 0 ∧ ¬entryReserved e ∧ t (j + 1) = entryPa e ∧
        t (j + 1) % (8 * (levelAt (j + 1)).entries) = 0) :
    s.walk d ctx va = walkFrom s.hbm d va (levelAt k :: levels.drop (k + 1)) (t k) := by
  rw [← levels_drop hk]
  induction k with
  | zero => rw [h0]; rfl
  | succ k ih =>
    obtain ⟨hfit, hv, hl, hz, hr, ht, ha⟩ := h k (Nat.lt_succ_self k)
    have hne : levels.drop (k + 1) ≠ [] := by rw [levels_drop hk]; exact List.cons_ne_nil _ _
    rw [ht, ← nextAlign_levelAt (by omega)] at ha
    rw [ih (by omega) fun j hj => h j (by omega), levels_drop (by omega), walkFrom_of_table hfit hv hr hl hz hne ha, ht]

end Sys2Proof.Machine
end

section
/-! PROOFS. Global accesses begin, or take the fault of their first bad address (R169, R173, R176, R191, R391). -/

namespace Sys2Proof.Machine

/-! ### Translations that fault -/

section
variable {s : State} {a : Agent} {u : Use} {va : Nat}

theorem translate_of_walk_error {c : TrapCode} (h1 : s.tlbHit a.die a.tlbCore a.ctx va = none)
    (h2 : s.tlbShared a.die a.ctx va = none) (hw : s.walk a.die a.ctx va = .error c) : s.translate a u va = (s, .error c) := by
  simp only [State.translate, State.lookup, h1, h2, hw]

section
variable {y : Leaf} (h1 : s.tlbHit a.die a.tlbCore a.ctx va = some y) (hw : s.walk a.die a.ctx va = .ok y)
include h1 hw

theorem lookup_of_hit : s.lookup a.die a.tlbCore a.ctx va = (s, .ok y) := by
  simp only [State.lookup, State.oldOrNew, h1, hw, if_true]

theorem translate_of_world (hs : a.sec = false) (hy : y.s = true) : s.translate a u va = (s, .error .worldViolation) := by
  simp [State.translate, lookup_of_hit h1 hw, hs, hy]

theorem translate_of_readOnly (hs : a.sec = true ∨ y.s = false) (hu : u.writes = true) (hy : y.w = false) :
    s.translate a u va = (s, .error .protection) := by
  have hworld : (!a.sec && y.s) = false := by rcases hs with h | h <;> simp [h]
  simp [State.translate, lookup_of_hit h1 hw, hworld, hu, hy]

theorem translate_of_secure (hs : a.sec = false) (hy : y.s = false) (hu : u.writes = true → y.w = true) (hx : u ≠ .fetch)
    (hpa : (s.die a.die).secureAt (y.pa + va % y.size) = true) : s.translate a u va =
      (s.violation a (y.pa + va % y.size) u.num (BitVec.ofNat 64 va), .error .worldViolation) := by
  have hwrite : (u.writes && !y.w) = false := by cases h : u.writes <;> simp_all
  simp [State.translate, lookup_of_hit h1 hw, hs, hy, hwrite, hx, hpa]

end

section
variable {t : State} {c : TrapCode}

/-- The addresses before the first that faults are mapped, so the fault is the whole list's (R176). -/
theorem translateAll_of_fault {run : Nat × Nat} {after : List (Nat × Nat)} (pa : Nat → Nat) (leaf : Nat → Leaf)
    (hrun : s.translate a u (va + run.1) = (t, .error c)) (before : List (Nat × Nat))
    (h : ∀ r ∈ before, s.Mapped a u (va + r.1) (pa r.1) (leaf r.1)) :
    s.translateAll a u ((before ++ run :: after).map fun r => va + r.1) = (t, .error (c, va + run.1)) := by
  induction before with
  | nil => simp only [List.nil_append, List.map_cons, State.translateAll, hrun]
  | cons r rs ih =>
    simp only [List.cons_append, List.map_cons, State.translateAll, translate_of_mapped (h r List.mem_cons_self),
      ih fun x hx => h x (List.mem_cons_of_mem _ hx)]

theorem reachLanes_of_fault {n l : Nat} {run : Nat × Nat} {before after post : List (Nat × Nat)} {pa : Nat → Nat → Nat}
    {leaf : Nat → Nat → Leaf} (data : Nat → Nat × Nat) (hrun : s.translate a u (va + run.1) = (t, .error c))
    (hruns : pageRuns va n = before ++ run :: after)
    (hbefore : ∀ q ∈ before, s.Mapped a u (va + q.1) (pa l q.1) (leaf l q.1)) (pre : List (Nat × Nat))
    (hpre : s.LanesMapped a u n pre pa leaf) :
    s.reachLanes a u n data (pre ++ (l, va) :: post) =
      (t, .error { code := c, val := some (BitVec.ofNat 64 (va + run.1)) }) := by
  induction pre with
  | nil =>
    simp only [List.nil_append, State.reachLanes, State.reach, hruns,
      translateAll_of_fault (pa l) (leaf l) hrun before hbefore]
  | cons x xs ih =>
    obtain ⟨l', va'⟩ := x
    simp only [List.cons_append, State.reachLanes, reach_of_mapped (pa l') (leaf l') (hpre (l', va') List.mem_cons_self).2,
      ih fun x hx => hpre x (List.mem_cons_of_mem _ hx)]

end

end

/-! ### The access -/

theorem rangeTrap_of_inside {n : Nat} {addrs : List (Nat × Nat)} (h : ∀ x ∈ addrs, x.2 + n ≤ 2 ^ 57) :
    rangeTrap n addrs = none := by
  rw [rangeTrap, List.find?_eq_none.mpr fun x hx => by simpa using (by have := h x hx; omega : x.2 + n - 1 < 2 ^ 57),
    Option.map_none]

theorem rangeTrap_of_low {n : Nat} {addrs : List (Nat × Nat)} {x : Nat}
    (h : lowLane (fun x => 2 ^ 57 ≤ x + n - 1) addrs x) :
    rangeTrap n addrs = some { code := .addressRange, val := some (BitVec.ofNat 64 x) } := by
  obtain ⟨l, hl⟩ := find?_of_lowLane h
  rw [rangeTrap, hl, Option.map_some]

/-- The end of an instruction that has issued, by what its effect did. -/
def Did.outcome (i : Instr) (s : State) (f : Focus) : Did → Host.Outcome State Fault Refusal
  | .done s' => .next s'
  | .held => .next s
  | .trap s' t => .next (s'.faulted i f t)

theorem issue_eq_outcome {i : Instr} {s : State} {f : Focus} (h : Issues i s f) (e : Focus → Did) :
    issue i s e = (e f).outcome i s f := by
  rw [issue_of_issues h]
  cases e f <;> rfl

/-- The access that a global access of the issuing path begins. -/
def Focus.access (f : Focus) (k : AccessKind) (stream : BitVec 4) (ord : Bool) (m : Mask) (d : Nat) (parts : List Part) : Access :=
  { sid := f.stand.sid, cord := f.cord.id, slotB := f.slotB, pc := f.path.restart, kind := k, stream := stream,
    ordered := ord, threads := m, d := d, parts := parts }

/-- The issuing cord with the destinations of a global access marked (R86). -/
def Focus.accessCord (f : Focus) (k : AccessKind) (d : Nat) : Cord :=
  match k with
  | .scalarLoad _ => if d = 31 then f.cord else f.cord.markS [d]
  | .load size => f.cord.markV ((List.range (sizeRegs size)).map fun n => d + n)
  | .atomic _ true => f.cord.markV [d]
  | _ => f.cord

section
variable {s : State} {f : Focus} {k : AccessKind} {u : Use} {n : Nat} {addrs : List (Nat × Nat)} {data : Nat → Nat × Nat}
  {stream : BitVec 4} {ord : Bool} {m : Mask} {d : Nat} {parts : List Part}

theorem markV_nil (c : Cord) : c.markV [] = c := by
  unfold Cord.markV; rw [List.append_nil]

theorem addAccess_of_active (hm : m ≠ 0) : s.addAccess f k stream ord m d parts =
    (s.addWork (.access (f.access k stream ord m d parts))).goneOn f (f.accessCord k d) := by
  have hc : (match k with
      | .scalarLoad _ => if d = 31 then f.cord else f.cord.markS [d]
      | _ => f.cord.markV (f.access k stream ord m d parts).regs) = f.accessCord k d := by
    rcases k with size | word | _ | ⟨op, _ | _⟩
    · rfl
    · rfl
    · exact markV_nil _
    · exact markV_nil _
    · rfl
  rw [← hc]
  exact if_neg hm

theorem addAccess_of_inactive (hm : m = 0) : s.addAccess f k stream ord m d parts =
    s.goneOn f ((f.access k stream ord m d parts).regs.foldl (fun c j => c.writeV j 0 (fun _ => 0) .general) f.cord) :=
  if_pos hm

theorem globalAccess_of_mapped {pa : Nat → Nat → Nat} {leaf : Nat → Nat → Leaf} (h : s.LanesMapped f.agent u n addrs pa leaf) :
    globalAccess s f k u n addrs data stream ord m d =
      .done (s.addAccess f k stream ord m d (lanesParts f.stand.die n addrs data pa leaf)) := by
  simp only [globalAccess, rangeTrap_of_inside fun x hx => (h x hx).1,
    reachLanes_of_mapped data addrs fun x hx => (h x hx).2]
  rfl

theorem globalAccess_of_beyond {x : Nat} (h : lowLane (fun x => 2 ^ 57 ≤ x + n - 1) addrs x) :
    globalAccess s f k u n addrs data stream ord m d =
      .trap s { code := .addressRange, val := some (BitVec.ofNat 64 x) } := by
  simp only [globalAccess, rangeTrap_of_low h]

theorem globalAccess_of_fault {t : State} {c : TrapCode} {pre post before after : List (Nat × Nat)} {l va : Nat}
    {run : Nat × Nat} {pa : Nat → Nat → Nat} {leaf : Nat → Nat → Leaf} (hr : ∀ x ∈ addrs, x.2 + n ≤ 2 ^ 57)
    (ha : addrs = pre ++ (l, va) :: post) (hpre : s.LanesMapped f.agent u n pre pa leaf)
    (hruns : pageRuns va n = before ++ run :: after)
    (hbefore : ∀ q ∈ before, s.Mapped f.agent u (va + q.1) (pa l q.1) (leaf l q.1))
    (hrun : s.translate f.agent u (va + run.1) = (t, .error c)) :
    globalAccess s f k u n addrs data stream ord m d =
      .trap t { code := c, val := some (BitVec.ofNat 64 (va + run.1)) } := by
  subst ha
  simp only [globalAccess, rangeTrap_of_inside hr, reachLanes_of_fault data hrun hruns hbefore pre hpre]

/-! ### The instructions -/

section
variable {o : MOps} {a : AOps} {dd r : SCode} {word : Bool}

theorem exec_ld_eq (h : Issues (.ld o) s f) : exec (.ld o) s =
    (globalAccess s f (.load o.size) .read (sizeBytes o.size) (f.laneAddrs o.s o.v) (fun _ => (0, 0)) o.stream o.ordered
      f.active o.d.toNat).outcome (.ld o) s f := issue_eq_outcome h _

theorem exec_st_eq (h : Issues (.st o) s f) : exec (.st o) s =
    (globalAccess s f .store .write (sizeBytes o.size) (f.laneAddrs o.s o.v) (fun l => (f.storeData o.size o.d l, 0))
      o.stream o.ordered f.active o.d.toNat).outcome (.st o) s f := issue_eq_outcome h _

theorem exec_sld_eq (h : Issues (.sld dd r stream word) s f) : exec (.sld dd r stream word) s =
    (globalAccess s f (.scalarLoad word) .read (if word then 4 else 8) [(32, f.addr r)] (fun _ => (0, 0)) stream false
      (BitVec.allOnes 32) dd.toNat).outcome (.sld dd r stream word) s f := issue_eq_outcome h _

theorem exec_sst_eq (h : Issues (.sst dd r stream word) s f) : exec (.sst dd r stream word) s =
    (globalAccess s f .store .write (if word then 4 else 8) [(32, f.addr r)]
      (fun _ => ((f.cord.sreg dd).toNat % 256 ^ (if word then 4 else 8), 0)) stream false
      (BitVec.allOnes 32) dd.toNat).outcome (.sst dd r stream word) s f := issue_eq_outcome h _

theorem exec_atom_of_misaligned {x : Nat} (h : Issues (.atom a) s f) (hx : lowLane (fun x => x % 4 ≠ 0) (f.laneAddrs a.s a.v) x) :
    exec (.atom a) s = .next (s.faulted (.atom a) f { code := .misaligned, val := some (BitVec.ofNat 64 x) }) := by
  refine (issue_eq_outcome h _).trans ?_
  simp only [alignTrap_of_low hx, Did.outcome]

theorem exec_atom_eq (h : Issues (.atom a) s f) (ha : ∀ x ∈ f.laneAddrs a.s a.v, x.2 % 4 = 0) : exec (.atom a) s =
    (globalAccess s f (.atomic a.op (decide (a.d ≠ 60))) .atomic 4 (f.laneAddrs a.s a.v) (f.atomicData a) a.stream false
      f.active a.d.toNat).outcome (.atom a) s f := by
  refine (issue_eq_outcome h _).trans ?_
  simp only [alignTrap_of_aligned ha]

/-- Each of the five is a global access, atomics once their addresses are aligned. -/
theorem exec_eq_globalAccess {i : Instr} (hi : (i, u, n, addrs) ∈ [(Instr.ld o, Use.read, sizeBytes o.size, f.laneAddrs o.s o.v),
      (.st o, .write, sizeBytes o.size, f.laneAddrs o.s o.v), (.atom a, .atomic, 4, f.laneAddrs a.s a.v),
      (.sld dd r stream word, .read, (if word then 4 else 8), [(32, f.addr r)]),
      (.sst dd r stream word, .write, (if word then 4 else 8), [(32, f.addr r)])])
    (h : Issues i s f) (ha : i = .atom a → ∀ x ∈ addrs, x.2 % 4 = 0) :
    u ≠ .fetch ∧ ∃ k data t ord m d, exec i s = (globalAccess s f k u n addrs data t ord m d).outcome i s f := by
  simp only [List.mem_cons, List.not_mem_nil, or_false, Prod.mk.injEq] at hi
  rcases hi with ⟨rfl, rfl, rfl, rfl⟩ | ⟨rfl, rfl, rfl, rfl⟩ | ⟨rfl, rfl, rfl, rfl⟩ | ⟨rfl, rfl, rfl, rfl⟩ | ⟨rfl, rfl, rfl, rfl⟩
  · exact ⟨by decide, _, _, _, _, _, _, exec_ld_eq h⟩
  · exact ⟨by decide, _, _, _, _, _, _, exec_st_eq h⟩
  · exact ⟨by decide, _, _, _, _, _, _, exec_atom_eq h (ha rfl)⟩
  · exact ⟨by decide, _, _, _, _, _, _, exec_sld_eq h⟩
  · exact ⟨by decide, _, _, _, _, _, _, exec_sst_eq h⟩

end

/-- A global access of mapped addresses: no lane, and it only tags its destination; or it begins (R86, R176). -/
theorem exec_begins {i : Instr} {pa : Nat → Nat → Nat} {leaf : Nat → Nat → Leaf} {c : Cord} {regs : List Nat}
    (he : Issues i s f → exec i s = (globalAccess s f k u n addrs data stream ord m d).outcome i s f)
    (hregs : ∀ parts, (f.access k stream ord m d parts).regs = regs) (hc : f.accessCord k d = c) (h : Issues i s f)
    (hmap : s.LanesMapped f.agent u n addrs pa leaf) :
    (m = 0 → exec i s = .next (s.goneOn f (regs.foldl (fun x j => x.writeV j 0 (fun _ => 0) .general) f.cord))) ∧
    (m ≠ 0 → exec i s = .next ((s.addWork (.access (f.access k stream ord m d
      (lanesParts f.stand.die n addrs data pa leaf)))).goneOn f c)) := by
  rw [he h, globalAccess_of_mapped hmap, Did.outcome]
  exact ⟨fun hm => by rw [addAccess_of_inactive hm, hregs], fun hm => by rw [addAccess_of_active hm, hc]⟩

end

end Sys2Proof.Machine
end

section
/-! PROOFS. The fields of a table's entry as a word's (R172), and the obligation. -/

namespace Sys2Proof.Machine

theorem toNat_field_load (m : Memory) (a hi lo : Nat) :
    ((BitVec.ofNat 64 (m.load a 8)).extractLsb' lo (hi + 1 - lo)).toNat = nbits (m.load a 8) hi lo :=
  toNat_extractLsb'_ofNat _ _ rfl (m.load_lt a 8)

theorem getLsbD_ofNat_eq_nbits (n : Nat) {k : Nat} (hk : k < 64) : (BitVec.ofNat 64 n).getLsbD k = decide (nbits n k k = 1) := by
  rw [BitVec.getLsbD_ofNat, decide_eq_true hk, Bool.true_and, Nat.testBit_eq_decide_div_mod_eq, nbits, Nat.add_sub_cancel_left,
    pow_one]

theorem lowLane_singleton {p : Nat → Prop} {l x : Nat} (h : p x) : lowLane p [(l, x)] x :=
  ⟨[], l, [], rfl, h, fun _ hy => absurd hy List.not_mem_nil⟩

/-- A scalar load marks its register, and none where that is sz (R86). -/
theorem accessCord_scalarLoad (f : Focus) (word : Bool) (d : SCode) : f.accessCord (.scalarLoad word) d.toNat =
    if d = 31 then f.cord else { f.cord with smarks := f.cord.smarks ++ [d.toNat] } := by
  refine if_congr ?_ rfl rfl
  rw [← BitVec.toNat_inj]; rfl

/-- An atomic that returns marks its register (R86, R199). -/
theorem accessCord_atomic (f : Focus) (op : AOp) (d : VCode) (n : Nat) :
    f.accessCord (.atomic op (decide (d ≠ 60))) n = if d = 60 then f.cord else f.cord.markV [n] := by
  by_cases hd : d = 60
  · rw [if_pos hd, decide_eq_false (not_not.mpr hd)]; rfl
  · rw [if_neg hd, decide_eq_true hd]; rfl

/-- Settles O15: sizes, then each access begun or faulted through `globalAccess`, and the walk level by level. -/
theorem globalAccessesBeginOrFault : Obligations.GlobalAccessesBeginOrFault := by
  unfold Obligations.GlobalAccessesBeginOrFault
  refine ⟨fun s f o a d r stream word pa leaf => ?begins, ⟨fun size bytes regs hsize => ?sizes,
      fun m x n v hm hv => load_store hm x hv⟩, fun s f o a => ?ranges, fun s d ctx va k t hk => ?walks,
    fun s f o a d r stream word i u n addrs pre post l va before after run pa leaf => ?faults⟩
  case begins =>
    intro ag dests begins marked addrs reg bytes
    refine ⟨exec_begins exec_ld_eq (fun _ => rfl) rfl, exec_begins exec_st_eq (fun _ => rfl) rfl,
      fun ha => exec_begins (exec_atom_eq · ha) ?_ ?_,
      exec_begins exec_sld_eq (fun _ => rfl) ?_, exec_begins exec_sst_eq (fun _ => rfl) rfl⟩
    · intro parts
      cases decide (a.d ≠ 60) <;> rfl
    · exact accessCord_atomic f a.op a.d a.d.toNat
    · exact accessCord_scalarLoad f word d
  case sizes =>
    have hs : sizeBytes size = bytes ∧ sizeRegs size = regs := by
      simp only [List.mem_cons, List.not_mem_nil, or_false, Prod.mk.injEq] at hsize
      rcases hsize with h | h | h | h | h | h | h <;> obtain ⟨rfl, rfl, rfl⟩ := h <;> exact ⟨rfl, rfl⟩
    obtain ⟨rfl, rfl⟩ := hs
    exact ⟨rfl, rfl, fun v hv n _ => loadWord_spec hv n, fun c d m v h => loadRegs_spec size m v h,
      fun f d l => storeData_eq f size d l⟩
  case ranges =>
    refine ⟨fun x hx => ⟨fun h => ?_, fun h => ?_⟩, fun x hx h => exec_atom_of_misaligned h hx, fun x ha hx h => ?_⟩
    · rw [exec_ld_eq h, globalAccess_of_beyond hx, Did.outcome]
    · rw [exec_st_eq h, globalAccess_of_beyond hx, Did.outcome]
    · have hx : lowLane (fun x => 2 ^ 57 ≤ x + 4 - 1) (f.laneAddrs a.s a.v) x := hx
      rw [exec_atom_eq h ha, globalAccess_of_beyond hx, Did.outcome]
  case walks =>
    intro hbm shift count entry bits fits reserved page pa h0 habove
    have hentry {j : Nat} (hj : j ≤ 4) : s.hbm.load (d * hbm + t j + 8 * (va / 2 ^ shift j % count j)) 8 =
        tableEntry s.hbm d va (levelAt j) (t j) := by
      rw [tableEntry, shift_levelAt hj, entries_levelAt hj, hAddr, ← Nat.add_assoc]
      rfl
    have hbits {j : Nat} (hj : j ≤ 4) (hi lo : Nat) :
        bits j hi lo = nbits (tableEntry s.hbm d va (levelAt j) (t j)) hi lo := by
      rw [← hentry hj]; exact toNat_field_load ..
    have hfits {j : Nat} (hj : j ≤ 4) : fits j ↔ t j + 8 * (levelAt j).entries ≤ Config.hbmBytes := by
      rw [entries_levelAt hj]; rfl
    have hreserved {j : Nat} (hj : j ≤ 4) : reserved j ↔ entryReserved (tableEntry s.hbm d va (levelAt j) (t j)) := by
      rw [entryReserved, ← hbits hj, ← hbits hj]
    have hpa {j : Nat} (hj : j ≤ 4) : pa j = entryPa (tableEntry s.hbm d va (levelAt j) (t j)) := by
      rw [entryPa, ← hbits hj]
    have hpage {j : Nat} (hj : j ≤ 4) : page j = 2 ^ (levelAt j).shift := by rw [shift_levelAt hj]
    have hwalk : s.walk d ctx va = walkFrom s.hbm d va (levelAt k :: levels.drop (k + 1)) (t k) := by
      refine walk_eq_walkFrom hk (h0.trans ?_) fun j hj => ?_
      · exact congrArg (· * 4096) (toNat_extractLsb'_eq_nbits _ rfl)
      · obtain ⟨hfit, hv, hl, hz, hr, ht, ha⟩ := habove j hj
        have hj4 : j ≤ 4 := by omega
        rw [hbits hj4] at hv hl hz
        refine ⟨(hfits hj4).mp hfit, hv, hl, hz, mt (hreserved hj4).mpr hr, ht.trans (hpa hj4), ?_⟩
        rw [entries_levelAt (by omega)]
        exact ha
    rw [hwalk, hfits hk, hbits hk, hbits hk, hbits hk, hbits hk, hreserved hk, hpa hk, hpage hk]
    refine ⟨fun hfit => walkFrom_of_outside (not_le.mp hfit), walkFrom_of_absent, fun hfit hv => ⟨walkFrom_of_reserved hfit hv,
      fun hl hbad => walkFrom_of_leaf_bad hfit hv hl ?_, fun hl hbad => walkFrom_of_table_bad hfit hv hl ?_,
      fun hl h2 hr ha hin kind hkind => ?_⟩⟩
    · by_cases h2 : k < 2
      · exact Or.inl (page_levelAt_of_lt h2)
      · rcases hbad with h | h | h
        · exact absurd h h2
        · exact Or.inr (Or.inl h)
        · exact Or.inr (Or.inr ⟨_, page_levelAt (not_lt.mp h2) hk, h⟩)
    · rcases hbad with rfl | h | h
      · exact Or.inr (Or.inl rfl)
      · exact Or.inl h
      · by_cases hk4 : k = 4
        · subst hk4
          exact Or.inr (Or.inl rfl)
        · rw [nextAlign_levelAt (by omega), entries_levelAt (by omega)]
          exact Or.inr (Or.inr h)
    · rw [walkFrom_of_leaf hfit hv hr hl (page_levelAt h2 hk) (k := kind) (by rw [hkind]; cases kind <;> rfl) ha hin]
      simp only [entry, getLsbD_ofNat_eq_nbits _ (by decide : 6 < 64), getLsbD_ofNat_eq_nbits _ (by decide : 2 < 64),
        getLsbD_ofNat_eq_nbits _ (by decide : 3 < 64), hentry hk]
  case faults =>
    intro ag bytes hi h ha
    obtain ⟨hu, k, data, t, ord, m, reg, he⟩ := exec_eq_globalAccess hi h ha
    refine ⟨fun j hj hji hx => ?_, fun hr haddrs hpre hruns hbefore => ?_⟩
    · simp only [List.mem_cons, List.not_mem_nil, or_false] at hj
      rcases hj with rfl | rfl
      all_goals subst hji
      · rw [exec_sld_eq h, globalAccess_of_beyond (lowLane_singleton hx), Did.outcome]
      · rw [exec_sst_eq h, globalAccess_of_beyond (lowLane_singleton hx), Did.outcome]
    · have hfault {s' : State} {c : TrapCode} (ht : s.translate f.agent u (va + run.1) = (s', .error c)) :
          exec i s = .next (s'.faulted i f { code := c, val := some (BitVec.ofNat 64 (va + run.1)) }) := by
        rw [he, globalAccess_of_fault hr haddrs hpre hruns hbefore ht, Did.outcome]
      refine ⟨fun c h1 h2 hw => hfault (translate_of_walk_error h1 h2 hw), fun y h1 hw => ⟨fun hs hy => ?_, fun hs hwr hy => ?_,
        fun hs hy hwr hsec => ?_⟩⟩
      · exact hfault (translate_of_world h1 hw hs hy)
      · exact hfault (translate_of_readOnly h1 hw hs hwr hy)
      · exact hfault (translate_of_secure h1 hw hs hy hwr hu hsec)

end Sys2Proof.Machine
end

section
/-! PROOFS. An image written over HBM that is not in canonical form. A byte listed twice keeps its second listing when an
image writes 0 there, so that a stand does not return with the SEED it was saved with. O45 asks for canonical scratchpads
and accumulators, and leaves HBM free. -/

namespace Sys2Proof.Machine

/-- HBM that lists byte 0x10C, the lowest of an image's SEED, twice (R384). -/
def doubledState : State := { State.reset with hbm := [(0x10C, 1), (0x10C, 1)] }

/-- A tract of one stand with no cord and a seed of 0. -/
def bareTract : Tract :=
  { id := 0, die := 0, ctx := 0, fpid := none, prio := 0, stands := 1, next := 1, ended := 0, param := 0, fut := 0, seed := 0,
    affinity := 0, rf := 0, spGran := 0, asGran := 0, roles := [], reenter := [], poison := none, blocked := none }

def bareStand : Stand := newStand bareTract 0 0 0 0 [] {}

def bareSaved : Saved :=
  { block := 0, size := 0, sid := 0, standId := 0, tract := 0, ctx := 0, core := 0, fpid := 0, bindCore := false,
    bindGrove := false, awaitCrst := false, pins := [], taskPins := [] }

/-- A package with nothing but the HBM over which the image of the stand was written. -/
def imageState : State :=
  { State.reset with
    hbm := (doubledState.putImage (hAddr bareStand.die bareSaved.block) bareStand (doubledState.imageOf bareStand 0)).hbm }

theorem cords_bareStand : bareStand.cords = [] := rfl

theorem length_imageOf_bareStand : (doubledState.imageOf bareStand 0).length < 2 ^ 32 := by decide +kernel

theorem imageState_whole : imageState.Whole := by decide +kernel

theorem imageState_stand? : imageState.stand? bareSaved.sid = none := rfl

/-- The stand returns with a seed of 1. -/
theorem seed_restored :
    ((imageState.restoreStand bareTract bareStand.die bareSaved 0 []).stand? bareSaved.sid).map Stand.seed = some 1 := by
  decide +kernel

/-- Refutes O45: over an HBM that lists a byte of the image's SEED twice, a stand saved with seed 0 is restored with
seed 1. -/
theorem not_standsAreSavedAndReturn : ¬ Obligations.StandsAreSavedAndReturn := by
  unfold Obligations.StandsAreSavedAndReturn
  rintro ⟨-, -, hrestored⟩
  obtain ⟨x, hx, hbare⟩ := hrestored doubledState imageState bareStand 0 bareSaved 0 [] bareTract rfl rfl (Nat.zero_le _)
    (Nat.zero_le _) (Nat.zero_le _) (Nat.zero_le _) (fun _ h => absurd h List.not_mem_nil) rfl rfl
    (fun b w h => absurd (List.eq_of_mem_replicate h) (Option.some_ne_none _)) length_imageOf_bareStand
    (fun k c r h => absurd h (by simp [cords_bareStand])) rfl imageState_whole imageState_stand?
  obtain ⟨-, -, -, -, -, -, -, -, -, -, -, -, -, -, -, -, hseed, -⟩ := hbare
  have hone : (some x).map Stand.seed = some 1 := by rw [← hx]; exact seed_restored
  exact absurd (hseed.symm.trans (Option.some.inj hone)) (by decide)

end Sys2Proof.Machine
end

section
/-! PROOFS. Barrier objects and phase-bit objects as numbers (07_copy.md R215, R216; 08_sync_tasks.md R234, R235). -/

namespace Sys2Proof.Machine

/-! ### Words beside a store -/

/-- A byte outside a store is as before. -/
theorem Memory.read_store_other {m : Memory} (hm : m.wf = true) {a n : Nat} (v : Nat) {b : Nat} (hb : b < a ∨ a + n ≤ b) :
    (m.store a n v).read b = m.read b := by
  rw [Memory.store_eq_put, Memory.read_put hm, length_leBytes, if_neg (by omega)]

/-- A load that a store does not touch is as before. -/
theorem Memory.load_store_other {m : Memory} (hm : m.wf = true) {a n : Nat} (v : Nat) {b k : Nat}
    (hb : b + k ≤ a ∨ a + n ≤ b) : (m.store a n v).load b k = m.load b k :=
  Memory.load_congr fun j hj => Memory.read_store_other hm v (by omega)

/-! ### Barrier objects -/

/-- The flag word of a barrier object: ARMED, COMPLETE and UNDER, below bits that are kept (R215). -/
theorem testBit_flags (b : Nat) (under done armed : Bool) :
    let x := b / 8 * 8 + under.toNat * 4 + done.toNat * 2 + armed.toNat
    x.testBit 0 = armed ∧ x.testBit 1 = done ∧ x.testBit 2 = under ∧ x / 8 = b / 8 := by
  intro x
  have hunder := under.toNat_le
  have hdone := done.toNat_le
  have harmed := armed.toNat_le
  have bit {n : Nat} {b : Bool} (h : n = b.toNat) : decide (n = 1) = b := by subst h; cases b <;> rfl
  simp only [Nat.testBit_eq_decide_div_mod_eq]
  exact ⟨bit (by omega), bit (by omega), bit (by omega), by omega⟩

/-- A bit of a number, as a field and as a test. -/
theorem nbits_one_eq_testBit (x k : Nat) : decide (nbits x k k = 1) = x.testBit k := by
  rw [Nat.testBit_eq_decide_div_mod_eq, nbits, Nat.add_sub_cancel_left, pow_one]

theorem nbits_zero_eq_not_testBit (x k : Nat) : decide (nbits x k k = 0) = !x.testBit k := by
  rw [← nbits_one_eq_testBit, nbits, Nat.add_sub_cancel_left, pow_one]
  rcases Nat.mod_two_eq_zero_or_one (x / 2 ^ k) with h | h <;> simp [h]

/-- Counting into a barrier object changes REMAIN, ARRIVED and the three flags, and no other byte (R215, R216). -/
theorem barrierCount_spec {m : Memory} (hm : m.wf = true) (o : Nat) (k : Int) (last arm : Bool) :
    let r := barrierCount m o k last arm
    let remain : DWord := BitVec.ofNat 64 (m.load o 8) + BitVec.ofInt 64 k
    let bits := m.load (o + 12) 4
    let bits' := r.1.load (o + 12) 4
    let armed := arm || bits.testBit 0
    r.1.load o 8 = remain.toNat ∧ r.1.load (o + 8) 4 = (m.load (o + 8) 4 + last.toNat) % 2 ^ 32 ∧
    bits'.testBit 0 = armed ∧
    bits'.testBit 1 = (bits.testBit 1 || armed && decide (remain.toInt ≤ 0)) ∧
    bits'.testBit 2 = (bits.testBit 2 || armed && decide (remain.toInt < 0)) ∧ bits' / 8 = bits / 8 ∧
    r.2 = (armed && !bits.testBit 1 && decide (remain.toInt ≤ 0)) ∧
    ∀ a, a < o ∨ o + 16 ≤ a → r.1.read a = m.read a := by
  intro r remain bits bits' armed
  have hremain : BitVec.ofInt 64 ((BitVec.ofNat 64 (m.load o 8)).toInt + k) = remain := by
    rw [BitVec.ofInt_add, BitVec.ofInt_toInt]
  let arrived := (m.load (o + 8) 4 + last.toNat) % 2 ^ 32
  let under := bits.testBit 2 || armed && decide (remain.toInt < 0)
  let now := armed && !bits.testBit 1 && decide (remain.toInt ≤ 0)
  let word := bits / 8 * 8 + under.toNat * 4 + (bits.testBit 1 || now).toNat * 2 + armed.toNat
  have hr : r = (((m.store o 8 remain.toNat).store (o + 8) 4 arrived).store (o + 12) 4 word, now) := by
    simp only [r, barrierCount, hremain, nbits_one_eq_testBit, nbits_zero_eq_not_testBit]
    rfl
  have hm1 := Memory.wf_store hm o 8 remain.toNat
  have hm2 := Memory.wf_store hm1 (o + 8) 4 arrived
  obtain ⟨harmed, hdone, hunder, hkept⟩ := testBit_flags bits under (bits.testBit 1 || now) armed
  have hbits : bits < 256 ^ 4 := m.load_lt _ 4
  have hword : word < 256 ^ 4 := by omega
  have hbits' : bits' = word := by simp only [bits', hr]; exact (load_store hm2 _ hword).1
  refine ⟨?_, ?_, ?_, ?_, ?_, ?_, by rw [hr], fun a ha => ?_⟩
  · rw [hr, Memory.load_store_other hm2 _ (by omega), Memory.load_store_other hm1 _ (by omega),
      (load_store hm o remain.isLt).1]
  · rw [hr, Memory.load_store_other hm2 _ (by omega), (load_store hm1 _ (v := arrived) (Nat.mod_lt _ (by norm_num))).1]
  · rw [hbits']; exact harmed
  · rw [hbits', show word.testBit 1 = _ from hdone]
    show (bits.testBit 1 || (armed && !bits.testBit 1 && decide (remain.toInt ≤ 0))) = _
    cases bits.testBit 1 <;> simp
  · rw [hbits']; exact hunder
  · rw [hbits']; exact hkept
  · rw [hr, Memory.read_store_other hm2 _ (by omega), Memory.read_store_other hm1 _ (by omega),
      Memory.read_store_other hm _ (by omega)]

/-! ### Phase-bit objects -/

/-- An arrival adds its count, and at EXPECT it flips PHASE, keeps an overrun in PAST, and clears the count (R234, R235). -/
theorem phaseArrive_eq (w : DWord) (k : Nat) :
    let expect := (w.extractLsb' 0 16).toNat
    let n := (w.extractLsb' 16 16).toNat + k
    phaseArrive w.toNat k =
      if n < expect then ((w.extractLsb' 32 32 ++ BitVec.ofNat 16 n ++ w.extractLsb' 0 16).toNat, false)
      else ((w.extractLsb' 34 30 ++ (if n = expect then w.extractLsb' 33 1 else 1#1) ++ ~~~(w.extractLsb' 32 1) ++ 0#16 ++
        w.extractLsb' 0 16).toNat, true) := by
  intro expect n
  have hw := w.isLt
  have hfield (lo len : Nat) : (w.extractLsb' lo len).toNat = w.toNat / 2 ^ lo % 2 ^ len := by
    rw [BitVec.extractLsb'_toNat, Nat.shiftRight_eq_div_pow]
  have hexpect : expect = w.toNat % 2 ^ 16 := by simp only [expect, hfield, pow_zero, Nat.div_one]
  have hn : n = w.toNat / 2 ^ 16 % 2 ^ 16 + k := by simp only [n, hfield]
  have hphase : (~~~(w.extractLsb' 32 1)).toNat = 1 - w.toNat / 2 ^ 32 % 2 := by
    rw [BitVec.toNat_not, hfield]; omega
  have hpast : (if n = expect then w.extractLsb' 33 1 else 1#1).toNat =
      if w.toNat / 2 ^ 33 % 2 = 1 ∨ n ≠ expect then 1 else 0 := by
    by_cases heq : n = expect
    · simp only [heq, if_true, hfield, ne_eq, not_true_eq_false, or_false]
      split_ifs <;> omega
    · simp only [heq, if_false, ne_eq, not_false_eq_true, or_true, if_true]; rfl
  have hcount : nbits w.toNat 31 16 + k = n := hn.symm
  have hlow : nbits w.toNat 15 0 = expect := by rw [hexpect, nbits, pow_zero, Nat.div_one]
  unfold phaseArrive
  simp only [hcount, hlow]
  by_cases hlt : n < expect
  · rw [if_neg (by omega), if_pos hlt]
    congr 1
    simp only [toNat_append_eq_add, hfield, BitVec.toNat_ofNat]
    omega
  · rw [if_pos (by omega), if_neg hlt]
    have hover : (nbits w.toNat 33 33 = 1 ∨ expect < n) ↔ (w.toNat / 2 ^ 33 % 2 = 1 ∨ n ≠ expect) := by
      rw [nbits]; omega
    rw [if_congr hover rfl rfl]
    congr 1
    simp only [toNat_append_eq_add, hpast, hphase, hfield, BitVec.toNat_ofNat]
    rw [nbits]
    omega

end Sys2Proof.Machine
end

section
/-! PROOFS. The instructions of barrier objects and phase-bit objects, and the bank's step (R216, R217, R227, R235, R236). -/

namespace Sys2Proof.Machine

/-! ### Objects of a scratchpad -/

/-- A record that is aligned and inside its window passes its checks. -/
theorem recTrap_of_inside {st : Stand} {al n off : Nat} (ha : off % al = 0) (hs : off + n ≤ st.spGran * 16384) :
    recTrap st al n off = none := by
  rw [recTrap, if_neg (not_not_intro ha), spTrap_of_inside fun x hx => by rw [List.mem_singleton.mp hx]; exact hs]

/-- Nothing that the checks of an object look at is amiss: it is aligned, inside its window and not damaged (R217, R236). -/
theorem objectTrap_of_whole {s : State} {f : Focus} {al n off : Nat} (hw : s.Whole) (ha : off % al = 0)
    (hs : off + n ≤ f.stand.spGran * 16384) : (recTrap f.stand al n off).or (f.damage s [(off, n)]) = none := by
  rw [recTrap_of_inside ha hs, damage_of_whole hw, Option.or_none]

section
variable {s : State} {f : Focus} {o : XOps} {r : SCode}

/-- BARI counts its bytes into its object, which it arms (R216, R217). -/
theorem exec_bari_of_quiet (h : Issues (.bari o) s f) (hp : pbarPending s f = false) (hw : s.Whole)
    (ha : f.off32 o.s % 16 = 0) (hs : f.off32 o.s + 16 ≤ f.stand.spGran * 16384) :
    exec (.bari o) s =
      .next ((s.seat f.advance.whole).countBarrier f.stand.sid (f.off32 o.s) (f.low o.d).toNat false true) := by
  change execBari o s = _
  simp only [execBari, issue_of_issues h, hp, objectTrap_of_whole hw ha hs, Bool.false_eq_true, if_false]
  rfl

/-- BARW goes on past a complete object, and parks on any other (R217). -/
theorem exec_barw_of_quiet (h : Issues (.barw r) s f) (hp : pbarPending s f = false) (hw : s.Whole)
    (ha : f.off32 r % 16 = 0) (hs : f.off32 r + 16 ≤ f.stand.spGran * 16384) :
    exec (.barw r) s = .next
      (if (f.stand.sp.load (f.off32 r + 12) 4).testBit 1 then
        (s.acquireAt .grove f.stand.sid f.cord.id f.path.mask).goneOn f f.cord
      else s.parked f (.barrier (f.off32 r))) := by
  change execBarw r s = _
  rw [← nbits_one_eq_testBit]
  simp only [execBarw, issue_of_issues h, hp, objectTrap_of_whole hw ha hs, park_eq_parked, Bool.false_eq_true, if_false,
    decide_eq_true_eq]
  split_ifs <;> rfl

/-- PBAR sends its arrival to the bank (R235). -/
theorem exec_pbar_of_inside (h : Issues (.pbar o) s f) (ha : f.off32 o.s % 8 = 0)
    (hs : f.off32 o.s + 8 ≤ f.stand.spGran * 16384) (h1 : 1 ≤ (f.low o.d).toNat) (h2 : (f.low o.d).toNat ≤ 0xFFFF) :
    exec (.pbar o) s = .next
      ((s.withWork (.pbar (f.dest f.path.mask 0) (f.off32 o.s) (f.low o.d).toNat)).goneOn f f.cord) := by
  change execPbar o s = _
  simp only [execPbar, issue_of_issues h, recTrap_of_inside ha hs]
  rw [if_neg (by omega)]
  rfl

/-- PWAIT goes on past a phase that is not its parity, and otherwise parks in the wait table (R227, R236). -/
theorem exec_pwait_of_quiet (h : Issues (.pwait o) s f) (hp : pbarPending s f = false) (hw : s.Whole)
    (ha : f.off32 o.s % 8 = 0) (hs : f.off32 o.s + 8 ≤ f.stand.spGran * 16384)
    (hroom : ((s.core f.stand.die f.stand.core).waits.filter fun w => !w.spilled).length < 256) :
    exec (.pwait o) s = .next
      (if (f.stand.sp.load (f.off32 o.s) 8).testBit 32 ≠ (f.low o.d).getLsbD 0 then
        (s.acquireAt .stand f.stand.sid f.cord.id f.path.mask).goneOn f f.cord
      else s.register f false (f.off32 o.s) (f.off32 o.s) false (.phase (f.off32 o.s) ((f.low o.d).getLsbD 0))) := by
  change execPwait o s = _
  simp only [execPwait, issue_of_issues h, hp, objectTrap_of_whole hw ha hs, spillTrap_of_room hroom, Bool.false_eq_true,
    if_false]
  split_ifs <;> rfl

end

/-! ### The bank's step -/

section
variable {s : State}

/-- One registered waiter of an address of a stand, not spilled, is the one that a wake of that stand reaches (R227). -/
theorem wakeAddr_of_own_waiter {d c addr : Nat} {glob : Bool} {w : Waiter} (h : (s.core d c).waits = [w])
    (hs : w.spilled = false) (hg : w.global = glob) (hw : w.addr = addr) :
    s.wakeAddr d c glob addr (some w.sid) = s.wakeWaiter d w := by
  simp [State.wakeAddr, State.scanWaits, State.wakeable, h, hs, hg, hw]

/-- A wait on a phase marks no register. -/
theorem unmarkWait_phase (c : Cord) (off : Nat) (q : Bool) : c.unmarkWait (some (.phase off q)) = c := by
  simp [Cord.unmarkWait, Wait.vregs, Wait.sregs, Cord.unmarkV, Cord.unmarkS]

/-- A path that waits on a phase, by its core's only registration, wakes past its instruction and acquires (R217, R236). -/
theorem wakeWaiter_of_phase {sid c d core off : Nat} {b q : Bool} {st : Stand} {p : Path}
    (hwaits : (s.core d core).waits = [⟨sid, c, b, false, off, false⟩]) (hst : s.stand? sid = some st) (hd : st.die = d)
    (hc : st.core = core) (hp : s.path? sid c b = some p) (hwait : p.wait = some (.phase off q)) :
    s.wakeWaiter d ⟨sid, c, b, false, off, false⟩ =
      ((s.modCore d core fun k => { k with waits := [] }).modCord sid c fun y => match y.slot b with
        | some p => y.setSlot b (some p.wake)
        | none => y).acquireAt .stand sid c p.mask := by
  have hun : s.unregister sid c b = s.modCore d core fun k => { k with waits := [] } := by
    simp only [State.unregister, hst, hd, hc, hwaits, List.filter_cons, List.filter_nil, and_self, decide_true, if_true,
      List.any_cons, List.any_nil, Bool.or_false, Bool.false_eq_true, if_false]
    exact modCore_congr (by simp [hwaits])
  have hp' : (s.modCore d core fun k => { k with waits := [] }).path? sid c b = some p := hp
  simp only [State.wakeWaiter, hp, Option.bind_some, hwait, hun, State.wakePath, hp', Option.map_some, Option.getD_some,
    unmarkWait_phase, Wait.scope]
  congr 3
  funext y
  cases y.slot b <;> rfl

/-- The bank performs an arrival: it changes the object, releases its threads, and wakes the waiters of a flipped phase
(R193, R235). -/
theorem exec_pbarBankStep_eq {id off k : Nat} {t : Dest} {st : Stand} (hf : s.focus = none)
    (ha : s.active? id = some (.pbar t off k)) (hp : s.pbarWaits id t = false) (hst : s.stand? t.sid = some st) (hw : s.Whole)
    (he : nbits (st.sp.load off 8) 15 0 ≠ 0) :
    exec (.pbarBankStep id) s =
      let r := phaseArrive (st.sp.load off 8) k
      let counted := (((s.takePlaces .stand (s.pbarParts id t)).dropWork id).noteStep t.sid t.cord t.mask 0 0).modStand t.sid
        fun y => s.released { y with sp := y.sp.store off 8 r.1 } t.cord t.mask
      .next (if r.2 then counted.wakeAddr st.die st.core false off (some t.sid) else counted) := by
  change execPbarBankStep id s = _
  simp only [execPbarBankStep, State.unfocus_of_none hf, ha, hp, hst, struck_of_whole hw, he, Bool.false_eq_true, if_false]

end

end Sys2Proof.Machine
end

section
/-! PROOFS. The barriers' obligation (R215 to R217, R234 to R236). -/

namespace Sys2Proof.Machine

/-- What the bank's step does before it wakes a waiter leaves the wait tables. -/
theorem core_takePlaces_noteStep (s : State) (ps : List (Nat × Access × Part)) (id sid c : Nat) (m : Mask) (n : Nat)
    (g : Stand → Stand) (d k : Nat) :
    ((((s.takePlaces .stand ps).dropWork id).noteStep sid c m 0 n).modStand sid g).core d k = s.core d k := by
  unfold State.takePlaces State.noteStep
  split <;> split <;> rfl

/-- And the stands but for the one it changes. -/
theorem stand?_takePlaces_noteStep (s : State) (ps : List (Nat × Access × Part)) (id sid c : Nat) (m : Mask) (n k : Nat) :
    (((s.takePlaces .stand ps).dropWork id).noteStep sid c m 0 n).stand? k = s.stand? k := by
  unfold State.takePlaces State.noteStep
  split <;> split <;> rfl

/-- Settles O22: the objects as numbers, the instructions on an object inside its window, and the bank's step. -/
theorem barriersCountAndComplete : Obligations.BarriersCountAndComplete := by
  unfold Obligations.BarriersCountAndComplete
  refine ⟨⟨fun m o k last arm hm => barrierCount_spec hm o k last arm, fun w k _ _ _ => phaseArrive_eq w k⟩,
    fun s f o r => ?instructions, fun s id t st off k hf ha hp hst hw he => ?bank⟩
  case instructions =>
    intro off sp k q quiet
    refine ⟨fun h ⟨hp, hw⟩ => exec_bari_of_quiet h hp hw, fun h ⟨hp, hw⟩ => exec_barw_of_quiet h hp hw,
      exec_pbar_of_inside, fun h ⟨hp, hw⟩ ha hs hroom => ?_⟩
    rw [exec_pwait_of_quiet h hp hw ha hs hroom, register_of_room]
    rfl
  case bank =>
    intro r left counted
    have hexec : exec (.pbarBankStep id) s =
        .next (if r.2 then counted.wakeAddr st.die st.core false off (some t.sid) else counted) :=
      exec_pbarBankStep_eq hf ha hp hst hw he
    have hcore : counted.core st.die st.core = s.core st.die st.core := core_takePlaces_noteStep ..
    refine ⟨fun hr => by rw [hexec, hr]; rfl, fun hr hnone => ?_, fun c b p q hr hone hpath hwait => ?_⟩
    · rw [hexec, hr, if_pos rfl, wakeAddr_of_no_waiter (by rw [hcore, hnone])]
    · have hwaits : (counted.core st.die st.core).waits = [⟨t.sid, c, b, false, off, false⟩] := by rw [hcore, hone]
      have hst' : counted.stand? t.sid = some (s.released { st with sp := st.sp.store off 8 r.1 } t.cord t.mask) :=
        stand?_modStand (fun _ => rfl) ((stand?_takePlaces_noteStep ..).trans hst)
      have hpath' : counted.path? t.sid c b = some p := by
        rw [State.path?, hst] at hpath
        rw [State.path?, hst']
        exact hpath
      rw [hexec, hr, if_pos rfl, wakeAddr_of_own_waiter hwaits rfl rfl rfl,
        wakeWaiter_of_phase hwaits hst' rfl rfl hpath' hwait]
      rfl

end Sys2Proof.Machine
end

section
/-! SUPPORT. The engines' common steps on a resident stand: a status is written, bytes reach its scratchpad, and a range of
mapped global memory is reached (R192, R205 to R208, R277). -/

namespace Sys2Proof.Machine

/-! ### Stands after an update -/

section
variable {s : State} {sid : Nat}

/-- Two changes of a stand that agree on the resident stands of its handle are one. -/
theorem modStand_congr {f g : Stand → Stand} (h : ∀ y ∈ s.stands, y.sid = sid → f y = g y) :
    s.modStand sid f = s.modStand sid g := by
  have hmap : (s.stands.map fun y => if y.sid = sid then f y else y) = s.stands.map fun y => if y.sid = sid then g y else y :=
    List.map_congr_left fun y hy => by
      by_cases hs : y.sid = sid
      · rw [if_pos hs, if_pos hs, h y hy hs]
      · rw [if_neg hs, if_neg hs]
  exact congrArg (fun l => { s with stands := l }) hmap

theorem modStand_modStand {f g : Stand → Stand} (hf : ∀ y, (f y).sid = y.sid) :
    (s.modStand sid f).modStand sid g = s.modStand sid (g ∘ f) := by
  have hmap : ((s.stands.map fun y => if y.sid = sid then f y else y).map fun y => if y.sid = sid then g y else y) =
      s.stands.map fun y => if y.sid = sid then (g ∘ f) y else y := by
    rw [List.map_map]
    refine List.map_congr_left fun y _ => ?_
    by_cases hs : y.sid = sid
    · simp only [Function.comp_apply, if_pos hs, hf]
    · simp only [Function.comp_apply, if_neg hs]
  exact congrArg (fun l => { s with stands := l }) hmap

theorem modStand_id : s.modStand sid (fun y => y) = s := by
  have hmap : (s.stands.map fun y => if y.sid = sid then y else y) = s.stands := by simp
  exact congrArg (fun l => { s with stands := l }) hmap

theorem sid_of_stand? {st : Stand} (h : s.stand? sid = some st) : st.sid = sid := by
  simpa using List.find?_some h

theorem tractOf_of_stand? {st : Stand} (h : s.stand? sid = some st) : s.tractOf sid = some st.tract := by
  rw [State.tractOf, h]; rfl

theorem spOf_of_stand? {st : Stand} (h : s.stand? sid = some st) : s.spOf sid = st.sp := by
  rw [State.spOf, h]

/-- An engine finds no damage in the scratchpad of a resident stand of a whole package. -/
theorem spStruck_of_whole {st : Stand} (hw : s.Whole) (h : s.stand? sid = some st) (off n : Nat) :
    s.spStruck sid off n = false := by
  simp only [State.spStruck, h, struck_of_whole hw]

end

/-! ### Results of work -/

section
variable {s : State} {t : Dest} {st : Stand} (h : s.stand? t.sid = some st)
include h

theorem writeDest_of_stand? (lo hi : Word) : s.writeDest t lo hi =
    s.modCord t.sid t.cord fun c => (c.writePair t.d t.mask lo hi).unmarkV [t.d, t.d + 1] := by
  simp only [State.writeDest, h]

theorem writeHalf_of_stand? (n : Nat) (w : Word) : s.writeHalf t n w =
    s.modCord t.sid t.cord fun c => (c.writeV n t.mask (fun _ => w) .general).unmarkV [n] := by
  simp only [State.writeHalf, h]

/-- A copy of a resident stand completes with its status, with which its threads acquire (R192, R206). -/
theorem copyStatus_of_stand? (id : Nat) (lo : Word) (count : Nat) :
    s.copyStatus id t lo count = s.finishedWork id t lo (BitVec.ofNat 32 count) := by
  have h' : (s.dropWork id).stand? t.sid = some st := h
  rw [State.copyStatus, State.writeStatus, writeDest_of_stand? h']
  rfl

/-- The agent that a copy of a resident stand translates as (R389). -/
theorem engineAgent_of_stand? : s.engineAgent t true =
    some ⟨st.die, st.ctx, st.sec && (s.core st.die st.core).skSecure, st.fpid, 1, st.core, (s.named t).2⟩ := by
  simp only [State.engineAgent, h, Bool.not_true, Bool.false_or, Bool.toNat_true]

end

/-! ### Bytes of a scratchpad -/

section
variable {s : State} {sid : Nat}

/-- A stand with no tile task has no byte that a task makes free (R277). -/
theorem racySp_of_noTasks {y : Stand} (h : s.noTasks sid) (hy : y ∈ s.stands) (hs : y.sid = sid) : s.racySp y = [] :=
  racySp_of_racyRead (by rw [State.racyRead, h y hy hs]; rfl)

theorem putFree_nil (m : Memory) (fresh a : Nat) (bs : List Byte) : m.putFree [] fresh a bs = m.put a bs := rfl

/-- An engine's write of a resident stand's scratchpad puts its bytes, and notes that no fence covers them yet (R208,
R277). -/
theorem putSp_of_whole {st : Stand} (hw : s.Whole) (h : s.stand? sid = some st) (ht : s.noTasks sid) (cord : Nat) (m : Mask)
    (off : Nat) (bs : List Byte) : s.putSp sid cord m off bs =
      { s.modStand sid fun y => { y with sp := y.sp.put off bs }.wrote cord m off bs.length with fresh := s.fresh + 1 } := by
  simp only [State.putSp, h, mendSp_of_whole hw]
  rw [modStand_congr (g := fun y => { y with sp := y.sp.put off bs }.wrote cord m off bs.length) fun y hy hs => by
    rw [racySp_of_noTasks ht hy hs, putFree_nil]]
  rfl

/-- Which writes await an operand fence is apart from every other field of a stand (R277). -/
theorem wrote_eq (y : Stand) (cord : Nat) (m : Mask) (off n : Nat) :
    y.wrote cord m off n = { y with unfenced := (y.wrote cord m off n).unfenced } := by
  unfold Stand.wrote
  dsimp only
  split <;> rfl

end

@[simp] theorem Memory.length_bytes (m : Memory) (a n : Nat) : (m.bytes a n).length = n := by
  induction n generalizing a with
  | zero => rfl
  | succ n ih => rw [Memory.bytes, List.length_cons, ih]

theorem length_gather (m : Memory) (runs : List (Nat × Nat)) : (gather m runs).length = (runs.map Prod.snd).sum := by
  simp [gather, List.length_flatMap]

/-- A piece of a copy takes the bytes of its source, where the copy reads no byte of the destination (R209). -/
theorem pieceBytes_eq_gather {m : Memory} {fresh : Nat} {overlap : List (Nat × Nat)} {p : Piece}
    (hn : (p.dst.map Prod.snd).sum = (p.src.map Prod.snd).sum)
    (ho : ∀ r ∈ overlap, ∀ w ∈ p.dst, r.1 + r.2 ≤ w.1 ∨ w.1 + w.2 ≤ r.1) :
    pieceBytes m fresh overlap p = gather m p.src := by
  let addrs := p.dst.flatMap fun w => (List.range w.2).map fun k => w.1 + k
  have hlen : (gather m p.src).length ≤ addrs.length := by
    rw [length_gather, ← hn]
    simp [addrs, List.length_flatMap]
  have hfree (x : Nat × Byte) (hx : x ∈ addrs.zip (gather m p.src)) :
      overlap.any (fun r => decide (r.1 ≤ x.1) && decide (x.1 < r.1 + r.2)) = false := by
    obtain ⟨w, hw, hk⟩ := List.mem_flatMap.mp (List.of_mem_zip hx).1
    obtain ⟨k, hk, hx1⟩ := List.mem_map.mp hk
    refine List.any_eq_false.mpr fun r hr => ?_
    have hlt := List.mem_range.mp hk
    have hapart := ho r hr w hw
    simp only [Bool.and_eq_true, decide_eq_true_eq]
    omega
  calc pieceBytes m fresh overlap p = (addrs.zip (gather m p.src)).map Prod.snd :=
        List.map_congr_left fun x hx => if_neg (by simp [hfree x hx])
    _ = gather m p.src := List.map_snd_zip hlen

/-! ### Ranges of global memory -/

/-- Steps of 65,536 from 0 up to a length, the last one cut, add up to it. -/
theorem sum_min_pages (n c : Nat) :
    ((List.range c).map fun j => min 65536 (n - 65536 * j)).sum = min (65536 * c) n := by
  induction c with
  | zero => simp
  | succ c ih =>
    rw [List.range_succ, List.map_append, List.sum_append, ih]
    simp only [List.map_cons, List.map_nil, List.sum_cons, List.sum_nil]
    omega

/-- The page runs of a range make it up (R191). -/
theorem sum_pageRuns (va n : Nat) : ((pageRuns va n).map Prod.snd).sum = n := by
  unfold pageRuns
  dsimp only
  split
  · simp
  next h =>
    simp only [List.map_cons, List.map_map, List.sum_cons]
    change (65536 - va % 65536) + ((List.range _).map fun j => min 65536 (n - (65536 - va % 65536) - 65536 * j)).sum = n
    rw [sum_min_pages, ceilDiv]
    omega

/-- Each page run lies in one page (R191). -/
theorem pageRuns_of_mem {va n : Nat} {r : Nat × Nat} (hr : r ∈ pageRuns va n) : pageRuns (va + r.1) r.2 = [(0, r.2)] := by
  have inside : r.2 ≤ 65536 - (va + r.1) % 65536 := by
    unfold pageRuns at hr
    dsimp only at hr
    split at hr
    next h => rw [List.mem_singleton.mp hr]; simpa using h
    · rcases List.mem_cons.mp hr with rfl | hr
      · simp
      · obtain ⟨j, -, rfl⟩ := List.mem_map.mp hr
        dsimp only
        omega
  rw [pageRuns, if_pos inside]

/-- One side of a move as runs of memory: the page runs of mapped global memory in window H, or a scratchpad range. -/
def sideRuns (die : Nat) (pa : Nat → Nat) (global : Bool) (va n : Nat) : List (Nat × Nat) :=
  if global then (pageRuns va n).map fun r => (hAddr die (pa (va + r.1)), r.2) else [(va, n)]

theorem sum_sideRuns (die : Nat) (pa : Nat → Nat) (global : Bool) (va n : Nat) :
    ((sideRuns die pa global va n).map Prod.snd).sum = n := by
  unfold sideRuns
  split
  · rw [List.map_map]; exact sum_pageRuns va n
  · simp

section
variable {s : State} {a : Agent} {pa : Nat → Nat} {leaf : Nat → Leaf} (hw : s.Whole)
include hw

/-- An engine reaches a range of mapped and whole global memory in its page runs (R176, R191). -/
theorem engineReach_of_mapped {u : Use} {va n : Nat}
    (h : ∀ r ∈ pageRuns va n, s.Mapped a u (va + r.1) (pa (va + r.1)) (leaf (va + r.1))) :
    s.engineReach a u va n = (s, .ok (sideRuns a.die pa true va n)) := by
  have hr := reach_of_mapped (fun x => pa (va + x)) (fun x => leaf (va + x)) h
  have hbad (rs : List (Nat × Nat)) : (rs.any fun r => s.hbmBad r.1 r.2) = false :=
    List.any_eq_false.mpr fun r _ => by rw [hbmBad_of_whole hw]; exact Bool.false_ne_true
  simp only [State.engineReach, hr, hbad, Bool.and_false, Bool.false_eq_true, if_false, List.map_map, sideRuns, if_true]
  rfl

/-- A copy whose global sides are mapped is planned whole, and the state stays as it is (R207). -/
theorem plan_of_mapped {sid : Nat} {st : Stand} (hst : s.stand? sid = some st) {srcG dstG : Bool} :
    ∀ moves : List (Nat × Nat × Nat),
      (∀ x ∈ moves,
        (srcG = true → ∀ r ∈ pageRuns x.1 x.2.2, s.Mapped a .read (x.1 + r.1) (pa (x.1 + r.1)) (leaf (x.1 + r.1))) ∧
        (dstG = true → ∀ r ∈ pageRuns x.2.1 x.2.2, s.Mapped a .write (x.2.1 + r.1) (pa (x.2.1 + r.1)) (leaf (x.2.1 + r.1)))) →
      s.plan a sid srcG dstG moves = (s, moves.map fun x =>
        ⟨sideRuns a.die pa srcG x.1 x.2.2, sideRuns a.die pa dstG x.2.1 x.2.2, x.2.2⟩, none)
  | [], _ => rfl
  | (x, y, n) :: r, h => by
    obtain ⟨hread, hwrite⟩ := h (x, y, n) List.mem_cons_self
    have hsrc : (if srcG then s.engineReach a .read x n
        else (s, if s.spStruck sid x n then .error (.memError, x) else .ok [(x, n)])) =
        (s, .ok (sideRuns a.die pa srcG x n)) := by
      cases srcG with
      | true => exact engineReach_of_mapped hw (hread rfl)
      | false => rw [spStruck_of_whole hw hst]; rfl
    have hdst : (if dstG then s.engineReach a .write y n else (s, .ok [(y, n)])) =
        (s, .ok (sideRuns a.die pa dstG y n)) := by
      cases dstG with
      | true => exact engineReach_of_mapped hw (hwrite rfl)
      | false => rfl
    simp only [State.plan, hsrc, hdst, plan_of_mapped hst r fun z hz => h z (List.mem_cons_of_mem _ hz), List.map_cons]

end

end Sys2Proof.Machine
end

section
/-! PROOFS. Cross-core transfers and shares of the holding buffer (R205, R206, R210, R214, R216, R219, R220). -/

namespace Sys2Proof.Machine

/-! ### CPYX -/

section
variable {s : State} {id die core src dst obj n rc sent : Nat} {t : Dest} {st : Stand} {x : Cross}

/-- A beat of a transfer arrives. -/
theorem exec_cpyxBeatArrive_eq (hf : s.focus = none)
    (ha : s.active? id = some (.copy t die core (.cross src dst obj n rc sent x))) :
    exec (.cpyxBeatArrive id) s = .next (s.crossBeat id t die core src dst obj n rc sent x) := by
  change execCpyxBeatArrive id s = _
  simp only [execCpyxBeatArrive, State.unfocus_of_none hf, ha]

/-- A transfer that reaches its core stands there as its receivers do (R214). -/
theorem crossBeat_of_reaching (hst : s.stand? t.sid = some st) (hu : s.unreleased id t.sid t.cord t.mask = false) :
    s.crossBeat id t die core src dst obj n rc sent .reaching =
      s.setWork id (.copy t die core (.cross src dst obj n rc sent (s.crossNow die rc st.tract))) := by
  simp only [State.crossBeat, tractOf_of_stand? hst, hu, Bool.false_eq_true, if_false]

theorem crossNow_of_receiver {tract : Nat} {rv : Stand} (h : s.receiver die rc tract = some rv) :
    s.crossNow die rc tract = .opened rv.sid := by
  rw [State.crossNow, h]

theorem receiver_of_no_resident {tract : Nat} (h : s.residentOf die rc tract = []) : s.receiver die rc tract = none := by
  rw [State.receiver, h]; rfl

theorem crossNow_of_ended {tract : Nat} (h : s.residentOf die rc tract = []) (he : (s.core die rc).ended.contains tract = true) :
    s.crossNow die rc tract = .finished := by
  rw [State.crossNow, receiver_of_no_resident h]
  exact if_pos ⟨h, he⟩

theorem crossNow_of_waiting {tract : Nat} (h : s.receiver die rc tract = none)
    (hw : s.residentOf die rc tract ≠ [] ∨ (s.core die rc).ended.contains tract = false) :
    s.crossNow die rc tract = .waiting (s.clock + 2 ^ 20) := by
  rw [State.crossNow, h]
  exact if_neg fun ⟨hnone, hended⟩ => hw.elim (· hnone) fun hn => Bool.false_ne_true (hn.symm.trans hended)

/-- A beat of an open transfer puts its bytes in the receiver's scratchpad, and counts them off its object (R216). -/
theorem crossBeat_of_opened {rv : Stand} (hst : s.stand? t.sid = some st) (hrv : s.stand? rv.sid = some rv)
    (ht : s.noTasks rv.sid) (hw : s.Whole) (hsent : sent < n) (hdst : dst + n ≤ rv.spGran * 16384)
    (hobj : obj + 16 ≤ rv.spGran * 16384) (hapart : rv.sid = st.sid → src + n ≤ dst ∨ dst + n ≤ src) :
    let k := min 64 (n - sent)
    s.crossBeat id t die core src dst obj n rc sent (.opened rv.sid) = State.setWork (State.countBarrier
      { (s.modStand rv.sid fun y => { y with
          sp := y.sp.put (dst + sent) (st.sp.bytes (src + sent) k),
          unfenced := y.unfenced ++ [⟨64, 0, dst + sent, k, none, { s.place with die := 0 }, []⟩] }) with fresh := s.fresh + 1 }
      rv.sid obj (-(k : Int)) (decide (sent + k = n)) false) id
      (.copy t die core (.cross src dst obj n rc (sent + k) (.opened rv.sid))) := by
  intro k
  have hrange : (if sent = 0 then (spTrap rv n [(0, dst)]).or (spTrap rv 16 [(0, obj)]) else none) = none := by
    split
    · rw [spTrap_of_inside fun x hx => by rw [List.mem_singleton.mp hx]; exact hdst,
        spTrap_of_inside fun x hx => by rw [List.mem_singleton.mp hx]; exact hobj, Option.or_none]
    · rfl
  have hbytes (fresh : Nat) : pieceBytes (s.spOf t.sid) fresh (if rv.sid = t.sid then [(src, n)] else [])
      ⟨[(src + sent, k)], [(dst + sent, k)], k⟩ = st.sp.bytes (src + sent) k := by
    rw [pieceBytes_eq_gather rfl fun r hr w hwr => ?_, spOf_of_stand? hst]
    · simp [gather]
    · by_cases hown : rv.sid = t.sid
      · rw [if_pos hown] at hr
        have := hapart (hown.trans (sid_of_stand? hst).symm)
        rw [List.mem_singleton.mp hr, List.mem_singleton.mp hwr]
        dsimp only
        omega
      · rw [if_neg hown] at hr
        exact absurd hr List.not_mem_nil
  have hmend : s.draw.mendSp rv (dst + sent) k = s.draw := mendSp_of_whole (s := s.draw) hw _ _ _
  have hput : (s.draw.modStand rv.sid fun y =>
        { y with sp := y.sp.putFree (s.racySp y) (s.fresh + 1) (dst + sent) (st.sp.bytes (src + sent) k),
                 unfenced := y.unfenced ++ [⟨64, 0, dst + sent, k, none, { s.place with die := 0 }, []⟩] }) =
      s.draw.modStand rv.sid fun y =>
        { y with sp := y.sp.put (dst + sent) (st.sp.bytes (src + sent) k),
                 unfenced := y.unfenced ++ [⟨64, 0, dst + sent, k, none, { s.place with die := 0 }, []⟩] } :=
    modStand_congr fun y hy hs => by rw [racySp_of_noTasks (s := s) ht hy hs, putFree_nil]
  simp only [State.crossBeat, if_neg (Nat.not_le.mpr hsent), hrv, hrange, spStruck_of_whole hw hst,
    spStruck_of_whole hw hrv, Bool.or_self, Bool.false_eq_true, if_false]
  rw [show min 64 (n - sent) = k from rfl, hbytes, hmend, hput]
  rfl

end

/-! ### Ends of transfers -/

section
variable {s : State} {id die core : Nat} {t : Dest} (hf : s.focus = none)
include hf

/-- A transfer whose bytes are all counted reports (R206). -/
theorem exec_copyDone_of_crossed {src dst obj n rc sid : Nat}
    (ha : s.active? id = some (.copy t die core (.cross src dst obj n rc n (.opened sid))))
    (hu : s.unreleased id t.sid t.cord t.mask = false) :
    exec (.copyDone id) s = .next (s.copyStatus id t (statusLow codeDone false false 0 0) n) := by
  change execCopyDone id s = _
  simp only [execCopyDone, State.unfocus_of_none hf, ha, hu, le_refl, Bool.false_eq_true, if_false, if_true]

/-- A transfer that no stand has opened in time is discarded with TMO (R214). -/
theorem exec_shareWaitTimeout_of_waiting {src dst obj n rc sent e c : Nat} (he : e ≤ s.clock)
    (ha : s.active? id = some (.copy t die core (.cross src dst obj n rc sent (.waiting e)))) :
    exec (.shareWaitTimeout id c) s = .next (s.copyStatus id t (statusLow codeDiscarded false true 0 0) 0) := by
  change execShareWaitTimeout id c s = _
  simp only [execShareWaitTimeout, State.unfocus_of_none hf, ha, he, if_true]

end

/-! ### The holding buffer -/

/-- A slot of the holding buffer of a core's grove with a new content. -/
def State.setHold (s : State) (die core slot : Nat) (h : Option Hold) : State :=
  s.modGrove die (core / 8) fun g => { g with hold := g.hold.set slot h }

/-- A change of a die that leaves its damaged bytes leaves a whole package whole. -/
theorem whole_modDie {s : State} {d : Nat} {f : Die → Die} (hf : ∀ x, (f x).damaged = x.damaged) (hw : s.Whole) :
    (s.modDie d f).Whole := by
  refine List.all_eq_true.mpr fun x hx => ?_
  obtain ⟨i, hi⟩ := List.mem_iff_getElem?.mp hx
  obtain ⟨y, hy, rfl⟩ : ∃ y, s.dies[i]? = some y ∧ (if d = i then f y else y) = x := by
    rw [State.modDie_dies, List.getElem?_modify] at hi
    obtain ⟨y, hy, hx⟩ := Option.map_eq_some_iff.mp hi
    exact ⟨y, hy, by split_ifs with h <;> simpa [h] using hx⟩
  have := List.all_eq_true.mp hw y (List.mem_of_getElem? hy)
  split_ifs
  · rw [hf]; exact this
  · exact this

theorem whole_setHold {s : State} {die core slot : Nat} {h : Option Hold} (hw : s.Whole) : (s.setHold die core slot h).Whole :=
  whole_modDie (f := fun x => { x with groves := x.groves.modify (core / 8) fun g => { g with hold := g.hold.set slot h } })
    (fun _ => rfl) hw

section
variable {s : State} {id die core slot : Nat} {t : Dest} {st : Stand} {h : Hold} (hf : s.focus = none)

/-- The first free slot is the one before which none is free. -/
theorem freeHold_eq (hfree : (s.grove die (core / 8)).hold[slot]? = some none)
    (hbefore : ∀ j < slot, ((s.grove die (core / 8)).hold.getD j none).isSome) : s.freeHold die core = some slot := by
  obtain ⟨hlt, hslot⟩ := List.getElem?_eq_some_iff.mp hfree
  rw [State.freeHold, List.findIdx?_eq_some_iff_getElem]
  refine ⟨hlt, by rw [hslot]; rfl, fun j hj => ?_⟩
  have := hbefore j hj
  rw [List.getD_eq_getElem _ _ (hj.trans hlt)] at this
  simpa [Option.isSome_iff_ne_none] using this

/-- Where every receiver has a stand of the tract, every share opens (R214). -/
theorem shareOf_of_resident {tract c : Nat} (hr : s.residentOf die c tract ≠ []) :
    shareOf s die tract c = (some (.opened c), false) := if_pos hr

include hf

/-- A CPYM for no receiver parks nothing, and reports (R219). -/
theorem exec_cpymPark_of_no_receiver {tag : BitVec 16} {n src : Nat}
    (ha : s.active? id = some (.copy t die core (.park tag n src 0))) :
    exec (.cpymPark id) s = .next (s.copyStatus id t (statusLow codeDone false false 0 0) 0) := by
  change execCpymPark id s = _
  simp only [execCpymPark, State.unfocus_of_none hf, ha, if_true]

/-- A CPYM parks its tile in the first free slot, with a share for each receiver, and writes its high word (R206, R219). -/
theorem exec_cpymPark_of_free {tag : BitVec 16} {n src : Nat} {mask : BitVec 32}
    (ha : s.active? id = some (.copy t die core (.park tag n src mask))) (hu : s.unreleased id t.sid t.cord t.mask = false)
    (hst : s.stand? t.sid = some st) (hm : mask ≠ 0) (hfree : s.freeHold die core = some slot) (hw : s.Whole)
    (hr : ∀ c < 32, mask.getLsbD c → s.residentOf die c st.tract ≠ []) :
    let h : Hold :=
      { tract := st.tract, tag := tag, bytes := st.sp.bytes src n, shares := (Mask.toLanes mask).map Share.opened,
        drained := 0, fin := false, tmo := false, order := s.uid, copy := id }
    let parked : State := State.setWork { s.setHold die core slot (some h) with uid := s.uid + 1 } id
      (.copy t die core (.parked slot))
    exec (.cpymPark id) s = .next ((parked.modCord t.sid t.cord fun c =>
      (c.writeV (t.d + 1) t.mask (fun _ => BitVec.ofNat 32 n) .general).unmarkV [t.d + 1]).acquireAt .die t.sid t.cord t.mask) := by
  intro h parked
  have hshares : (Mask.toLanes mask).map (shareOf s die st.tract) = (Mask.toLanes mask).map fun c => (some (.opened c), false) :=
    List.map_congr_left fun c hc => by
      obtain ⟨hlt, hbit⟩ := Mask.mem_toLanes.mp hc
      exact shareOf_of_resident (hr c hlt hbit)
  have hopen : ((Mask.toLanes mask).map fun c => (some (Share.opened c), false)).filterMap Prod.fst =
      (Mask.toLanes mask).map Share.opened := by
    rw [List.filterMap_map, ← List.filterMap_eq_map]
    rfl
  have hfin : (((Mask.toLanes mask).map fun c => (some (Share.opened c), false)).any Prod.snd) = false := by
    simp [List.any_map, Function.comp_def]
  have hmend : (s.setHold die core slot (some h)).mendAt die (.holding (core / 8) slot 0) 8192 =
      s.setHold die core slot (some h) := mendAt_of_whole (whole_setHold hw) _ _ _
  have hstatus := writeHalf_of_stand? (s := parked) (t := t) hst (t.d + 1) (BitVec.ofNat 32 n)
  change execCpymPark id s = _
  simp only [execCpymPark, State.unfocus_of_none hf, ha, hm, hu, spStruck_of_whole hw hst, tractOf_of_stand? hst, hfree,
    spOf_of_stand? hst, hshares, hopen, hfin, Bool.false_eq_true, if_false]
  rw [← hstatus]
  exact congrArg (fun x : State => Host.Outcome.next
    ((State.writeHalf (State.setWork { x with uid := x.uid + 1 } id (.copy t die core (.parked slot))) t (t.d + 1)
      (BitVec.ofNat 32 n)).acquireAt .die t.sid t.cord t.mask)) hmend

/-- A parked CPYM whose shares are all taken or discarded reports, and frees its slot (R206, R219). -/
theorem exec_copyDone_of_parked (ha : s.active? id = some (.copy t die core (.parked slot)))
    (hu : s.unreleased id t.sid t.cord t.mask = false) (hst : s.stand? t.sid = some st)
    (hslot : (s.grove die (core / 8)).hold[slot]? = some (some h)) (hs : h.shares = []) :
    exec (.copyDone id) s = .next ((State.modCord ((s.setHold die core slot none).dropWork id) t.sid t.cord fun c =>
      (c.writeV t.d t.mask (fun _ => statusLow (if h.fin || h.tmo then 2 else 0) h.fin h.tmo 0 h.drained) .general).unmarkV
        [t.d]).acquireAt .die t.sid t.cord t.mask) := by
  have hget : (s.grove die (core / 8)).hold.getD slot none = some h := by rw [List.getD_eq_getElem?_getD, hslot]; rfl
  rw [← writeHalf_of_stand? (s := (s.setHold die core slot none).dropWork id) (t := t) hst]
  change execCopyDone id s = _
  simp only [execCopyDone, State.unfocus_of_none hf, ha, hu, hget, hs, Bool.false_eq_true, if_false, if_true]
  rfl

/-- The last share of a parked tile that no stand has opened in time is discarded with TMO (R214). -/
theorem exec_shareWaitTimeout_of_parked {e c : Nat} (he : e ≤ s.clock)
    (ha : s.active? id = some (.copy t die core (.parked slot)))
    (hslot : (s.grove die (core / 8)).hold[slot]? = some (some h)) (hs : h.shares = [.waiting c e]) :
    exec (.shareWaitTimeout id c) s = .next (s.setHold die core slot (some { h with shares := [], tmo := true })) := by
  change execShareWaitTimeout id c s = _
  simp only [execShareWaitTimeout, State.unfocus_of_none hf, ha]
  refine congrArg _ (modGrove_congr ?_)
  refine congrArg (fun l => { s.grove die (core / 8) with hold := l }) (List.ext_getElem? fun i => ?_)
  rw [List.getElem?_modify, List.getElem?_set]
  by_cases hi : slot = i
  · subst hi
    have hlt := (List.getElem?_eq_some_iff.mp hslot).1
    simp only [hslot, Option.map_eq_map, Option.map_some, hs, if_true, hlt]
    simp [he]
  · simp [hi]

omit hf

/-! ### MCDRAIN -/

/-- A share suits an MCDRAIN of a core, a tract and a tag (R220). -/
def Hold.suits (h : Hold) (core tract : Nat) (tag : BitVec 16) : Prop :=
  h.tag = tag ∧ h.tract = tract ∧ h.shares.contains (.opened core) = true

/-- The older of the share found so far and that of a slot. -/
def olderOf (best : Option (Nat × Hold)) (i : Nat) (h : Hold) : Option (Nat × Hold) :=
  match best with
  | some (k, y) => if y.order ≤ h.order then some (k, y) else some (i, h)
  | none => some (i, h)

/-- The share found once a slot has been looked at. -/
def olderShare (core tract : Nat) (tag : BitVec 16) (best : Option (Nat × Hold)) (x : Nat × Option Hold) :
    Option (Nat × Hold) :=
  match x.2 with
  | some h => if h.tag = tag ∧ h.tract = tract ∧ h.shares.contains (.opened core) = true then olderOf best x.1 h else best
  | none => best

theorem openShare_eq_foldl (tract : Nat) (tag : BitVec 16) : s.openShare die core tract tag =
    ((List.range (s.grove die (core / 8)).hold.length).zip (s.grove die (core / 8)).hold).foldl
      (olderShare core tract tag) none := rfl

theorem olderShare_of_suits {tract i : Nat} {tag : BitVec 16} {best : Option (Nat × Hold)} {y : Hold}
    (hy : y.suits core tract tag) : olderShare core tract tag best (i, some y) = olderOf best i y := if_pos hy

theorem olderShare_of_not_suits {tract : Nat} {tag : BitVec 16} {best : Option (Nat × Hold)} {x : Nat × Option Hold}
    (hx : ∀ y, x.2 = some y → ¬y.suits core tract tag) : olderShare core tract tag best x = best := by
  unfold olderShare
  split
  next y hy => exact if_neg (hx y hy)
  · rfl

/-- The oldest suitable share of a list is found, however the younger ones stand about it. -/
theorem foldl_olderShare {tract : Nat} {tag : BitVec 16} (hsuits : h.suits core tract tag) :
    ∀ (l : List (Nat × Option Hold)) (best : Option (Nat × Hold)),
      (∀ x ∈ l, x = (slot, some h) ∨ ∀ y, x.2 = some y → y.suits core tract tag → h.order < y.order) →
      (best = some (slot, h) ∨ (∀ b ∈ best, h.order < b.2.order) ∧ (slot, some h) ∈ l) →
      l.foldl (olderShare core tract tag) best = some (slot, h)
  | [], best, _, hb => hb.resolve_right fun hb => List.not_mem_nil hb.2
  | (i, o) :: l, best, hl, hb => by
    rw [List.foldl_cons]
    refine foldl_olderShare hsuits l _ (fun y hy => hl y (List.mem_cons_of_mem _ hy)) ?_
    by_cases hx : (i, o) = (slot, some h)
    · obtain ⟨rfl, rfl⟩ := Prod.mk.inj hx
      left
      rw [olderShare_of_suits hsuits]
      rcases hb with rfl | ⟨hb, -⟩
      · exact if_pos le_rfl
      · cases best with
        | none => rfl
        | some b => exact if_neg (Nat.not_le.mpr (hb b rfl))
    · have hlater (hb : (∀ b ∈ best, h.order < b.2.order) ∧ (slot, some h) ∈ (i, o) :: l) : (slot, some h) ∈ l :=
        (List.mem_cons.mp hb.2).resolve_left (Ne.symm hx)
      by_cases hs : ∃ y, o = some y ∧ y.suits core tract tag
      · obtain ⟨y, rfl, hy⟩ := hs
        have hlt : h.order < y.order := (hl _ List.mem_cons_self).resolve_left hx y rfl hy
        rw [olderShare_of_suits hy]
        rcases hb with rfl | hb
        · exact .inl (if_pos hlt.le)
        · refine .inr ⟨fun c hc => ?_, hlater hb⟩
          cases best with
          | none => rw [← Option.some.inj hc]; exact hlt
          | some b =>
            simp only [olderOf] at hc
            split_ifs at hc
            · exact hb.1 c hc
            · rw [← Option.some.inj hc]; exact hlt
      · rw [olderShare_of_not_suits fun y hy hy' => hs ⟨y, hy, hy'⟩]
        exact hb.imp_right fun hb => ⟨hb.1, hlater hb⟩

theorem openShare_of_oldest {tract : Nat} {tag : BitVec 16}
    (hslot : (s.grove die (core / 8)).hold[slot]? = some (some h)) (hsuits : h.suits core tract tag)
    (hold : ∀ j y, (s.grove die (core / 8)).hold[j]? = some (some y) → y.suits core tract tag → j = slot ∨ h.order < y.order) :
    s.openShare die core tract tag = some (slot, h) := by
  have hmem (x : Nat × Option Hold) : x ∈ (List.range (s.grove die (core / 8)).hold.length).zip (s.grove die (core / 8)).hold ↔
      (s.grove die (core / 8)).hold[x.1]? = some x.2 := by
    simp only [List.mem_iff_getElem?, List.getElem?_zip_eq_some]
    refine ⟨fun ⟨i, hi, hx⟩ => ?_, fun hx => ⟨x.1, List.getElem?_range (List.getElem?_eq_some_iff.mp hx).1, hx⟩⟩
    obtain ⟨hlt, hi⟩ := List.getElem?_eq_some_iff.mp hi
    rw [List.getElem_range] at hi
    exact hi ▸ hx
  rw [openShare_eq_foldl]
  refine foldl_olderShare hsuits _ none (fun x hx => ?_) (.inr ⟨nofun, (hmem _).mpr hslot⟩)
  have hx := (hmem x).mp hx
  by_cases hj : x.1 = slot
  · left
    rw [hj, hslot] at hx
    exact Prod.ext hj (Option.some.inj hx).symm
  · exact .inr fun y hy hsy => (hold x.1 y (hx.trans (congrArg some hy)) hsy).resolve_left hj

include hf

/-- An MCDRAIN before which no other waits for the share takes it: the tile is put into its stand's scratchpad, and it
reports (R210, R220). -/
theorem exec_mcdrainMatch_of_first {tag : BitVec 16} {dst : Nat}
    (ha : s.active? id = some (.copy t die core (.drain tag dst))) (hst : s.stand? t.sid = some st) (ht : s.noTasks t.sid)
    (hw : s.Whole) (hsaving : st.phase.isSaving = false)
    (hfirst : ∀ i ∈ s.works.takeWhile (fun i => i.id ≠ id), ∀ t' d' c' g' p', i.work = .copy t' d' c' (.drain g' p') →
      (d', c', g') ≠ (die, core, tag))
    (hopen : s.openShare die core st.tract tag = some (slot, h)) :
    exec (.mcdrainMatch id) s = .next (State.finishedWork
      { State.setHold (s.modStand t.sid fun y => { y with sp := y.sp.put dst h.bytes }.wrote t.cord t.mask dst h.bytes.length)
          die core slot (some { h with shares := h.shares.filter fun x => x ≠ .opened core, drained := h.drained + 1 }) with
        fresh := s.fresh + 1 } id t 0 (BitVec.ofNat 32 h.bytes.length)) := by
  have hall : ((s.works.takeWhile fun i => i.id ≠ id).all fun i => match i.work with
      | .copy t' d' c' (.drain tag' _) =>
        !(decide (d' = die) && decide (c' = core) && decide (tag' = tag) &&
          (s.stand? t'.sid).any fun y => decide (y.tract = st.tract))
      | _ => true) = true := by
    refine List.all_eq_true.mpr fun i hi => ?_
    split
    next t' d' c' g' p' hwork =>
      have := hfirst i hi _ _ _ _ _ hwork
      by_cases hd : d' = die <;> by_cases hc : c' = core <;> by_cases hg : g' = tag <;> simp_all
    · rfl
  have hkeeps (y : Stand) (m : Memory) (n : Nat) : ({ y with sp := m }.wrote t.cord t.mask dst n).sid = y.sid := by
    rw [wrote_eq]
  change execMcdrainMatch id s = _
  simp only [execMcdrainMatch, State.unfocus_of_none hf, ha, hst, hopen, hsaving, struck_of_whole hw, Bool.not_false,
    Bool.and_false, Bool.false_eq_true, if_false, putSp_of_whole hw hst ht]
  refine (if_pos ((Bool.and_true _).trans hall)).trans ?_
  refine congrArg _ ((copyStatus_of_stand? (t := t) (st := { st with sp := st.sp.put dst h.bytes }.wrote t.cord t.mask dst
    h.bytes.length) ?_ id _ _).trans rfl)
  exact stand?_modStand (f := fun y => { y with sp := y.sp.put dst h.bytes }.wrote t.cord t.mask dst h.bytes.length)
    (fun y => hkeeps y _ _) hst

end

end Sys2Proof.Machine
end

section
/-! PROOFS. Claims on canopy slots and the pins that wait for them (R222, R258, R284, R285). -/

namespace Sys2Proof.Machine

/-! ### Bytes laid over a memory -/

/-- A write below the rest of a memory does not meet it. -/
theorem Memory.write_append {q : Memory} {a : Nat} (hq : ∀ c ∈ q, a < c.1) (b : Byte) :
    ∀ p : Memory, Memory.write (p ++ q) a b = p.write a b ++ q
  | [] => by
    cases q with
    | nil => rw [List.nil_append, List.append_nil]
    | cons c q =>
      have hc : a < c.1 := hq c List.mem_cons_self
      change Memory.write (c :: q) a b = (if b = 0 then [] else [(a, b)]) ++ c :: q
      rw [Memory.write, if_neg (by omega), if_neg (by omega)]
      split <;> rfl
  | (k, x) :: p => by
    simp only [List.cons_append, Memory.write, Memory.write_append hq b p]
    split_ifs <;> rfl

theorem Memory.read_append {q : Memory} {a : Nat} (hq : ∀ c ∈ q, a < c.1) :
    ∀ p : Memory, Memory.read (p ++ q) a = p.read a
  | [] => Memory.read_of_lt hq
  | (k, x) :: p => by simp only [List.cons_append, Memory.read, Memory.read_append hq p]

theorem foldl_write_append {q : Memory} {n : Nat} (hq : ∀ c ∈ q, n ≤ c.1) :
    ∀ (l p : Memory), (∀ c ∈ l, c.1 < n) →
      l.foldl (fun m c => m.write c.1 c.2) (p ++ q) = l.foldl (fun m c => m.write c.1 c.2) p ++ q
  | [], _, _ => rfl
  | c :: l, p, hl => by
    have hc : c.1 < n := hl c List.mem_cons_self
    rw [List.foldl_cons, Memory.write_append (fun x hx => lt_of_lt_of_le hc (hq x hx)),
      foldl_write_append hq l _ fun x hx => hl x (List.mem_cons_of_mem _ hx)]
    rfl

theorem ofBytes_bounds : ∀ (bs : List Byte) (a : Nat), ∀ c ∈ ofBytes a bs, a ≤ c.1 ∧ c.1 < a + bs.length
  | [], _, _, h => absurd h List.not_mem_nil
  | b :: bs, a, c, h => by
    rw [ofBytes] at h
    have hrest (h : c ∈ ofBytes (a + 1) bs) : a ≤ c.1 ∧ c.1 < a + (b :: bs).length := by
      have := ofBytes_bounds bs (a + 1) c h
      rw [List.length_cons]
      omega
    split at h
    · exact hrest h
    · rcases List.mem_cons.mp h with rfl | h
      · simp
      · exact hrest h

/-- Bytes written in order into a memory that is zero from their address on. -/
theorem read_foldl_ofBytes (bs : List Byte) (k : Nat) : ∀ (a : Nat) (m : Memory), m.wf = true →
    (∀ j, a ≤ j → m.read j = 0) → ((ofBytes a bs).foldl (fun m c => m.write c.1 c.2) m).read k =
      if k < a then m.read k else bs.getD (k - a) 0 := by
  induction bs with
  | nil =>
    intro a m _ h0
    split
    · rfl
    next h => exact h0 k (Nat.not_lt.mp h)
  | cons b bs ih =>
    intro a m hm h0
    have hfold : ((ofBytes a (b :: bs)).foldl (fun m c => m.write c.1 c.2) m).read k =
        if k < a + 1 then (m.write a b).read k else bs.getD (k - (a + 1)) 0 := by
      have h0' : ∀ j, a + 1 ≤ j → (m.write a b).read j = 0 := fun j hj => by
        rw [Memory.read_write_other hm b (by omega), h0 j (by omega)]
      rw [ofBytes]
      split
      next hb =>
        rw [ih (a + 1) m hm fun j hj => h0 j (by omega)]
        refine if_congr Iff.rfl ?_ rfl
        by_cases hk : k = a
        · rw [hk, Memory.read_write_same hm, h0 a le_rfl, hb]
        · rw [Memory.read_write_other hm b hk]
      · exact ih (a + 1) (m.write a b) (Memory.wf_write hm a b) h0'
    rw [hfold]
    rcases Nat.lt_trichotomy k a with hk | rfl | hk
    · rw [if_pos hk, if_pos (by omega), Memory.read_write_other hm b (by omega)]
    · simp [Memory.read_write_same hm]
    · rw [if_neg (by omega), if_neg (by omega), show k - a = k - (a + 1) + 1 by omega, List.getD_cons_succ]

/-- The first n bytes of a memory over which n bytes are laid are those bytes, whatever it held. -/
theorem read_overlay_ofBytes (m : Memory) {n k : Nat} {bs : List Byte} (hn : bs.length = n) (hk : k < n) :
    (m.overlay 0 n (ofBytes 0 bs)).read k = bs.getD k 0 := by
  have hin : (ofBytes 0 bs).filter (fun c => c.1 < n) = ofBytes 0 bs :=
    List.filter_eq_self.mpr fun c hc => decide_eq_true (by have := ofBytes_bounds bs 0 c hc; omega)
  have hrest : ∀ c ∈ m.zero 0 n, n ≤ c.1 := fun c hc => by simpa using (List.mem_filter.mp hc).2
  have hfold := foldl_write_append hrest (ofBytes 0 bs) [] fun c hc => by have := ofBytes_bounds bs 0 c hc; omega
  rw [Memory.overlay, hin]
  simp only [Nat.zero_add]
  rw [List.nil_append] at hfold
  rw [hfold, Memory.read_append fun c hc => lt_of_lt_of_le hk (hrest c hc)]
  exact read_foldl_ofBytes bs k 0 [] rfl fun _ _ => rfl

theorem overlay_nil (m : Memory) : m.overlay 0 0 (ofBytes 0 []) = m := by
  change m.zero 0 0 = m
  exact List.filter_eq_self.mpr fun c _ => by simp

/-! ### Ends of claims -/

/-- A change of a die that leaves what the die holds is none. -/
theorem modDie_of_eq {s : State} {d : Nat} {f : Die → Die} (h : ∀ x ∈ s.dies[d]?, f x = x) : s.modDie d f = s := by
  have hdies : s.dies.modify d f = s.dies := by
    refine List.ext_getElem? fun i => ?_
    rw [List.getElem?_modify]
    split
    next hi =>
      subst hi
      cases hx : s.dies[d]? with
      | none => rfl
      | some x => exact congrArg some (h x hx)
    · exact Option.map_id'
  exact congrArg (fun l => { s with dies := l }) hdies

/-- Work of a resident stand is over with its pair (R89). -/
theorem dropWork_writeDest_of_stand? {s : State} {t : Dest} {st : Stand} (h : s.stand? t.sid = some st) (id : Nat)
    (lo hi : Word) : (s.dropWork id).writeDest t lo hi = s.repliedWork id t lo hi := by
  rw [writeDest_of_stand? (s := s.dropWork id) h]
  rfl

section
variable {s : State} {id die core slot seq : Nat} {t : Dest} {st : Stand} (hf : s.focus = none)
include hf

/-- An eviction before which no claim and no pin stands clears its slot (R285). -/
theorem exec_wevictClaimGrant_of_grantable (hst : s.stand? t.sid = some st)
    (ha : s.active? id = some (.copy t die core (.evict slot seq)))
    (hg : s.grantable die core slot seq id = true) (hw : s.Whole) :
    exec (.wevictClaimGrant id) s = .next
      ((s.endFill die core slot none fun x => { x with bytes := [], side := [] }).repliedWork id t 0 0) := by
  have hwhole : (s.endFill die core slot none fun x => { x with bytes := [], side := [] }).Whole :=
    whole_modDie (fun _ => rfl) hw
  change execWevictClaimGrant id s = _
  simp only [execWevictClaimGrant, State.unfocus_of_none hf, ha, hg, if_true, mendAt_of_whole hwhole]
  rw [dropWork_writeDest_of_stand? (s := s.endFill die core slot none fun x => { x with bytes := [], side := [] }) hst]
  rfl

/-- A pin before which no claim stands is taken, for a stand that no other process saves (R284). -/
theorem exec_cpywClaimGrant_of_pin (hst : s.stand? t.sid = some st) (ha : s.active? id = some (.pin t die core slot))
    (hc : ∀ x ∈ s.claims die core slot, id ≤ x.1) (hv : ∀ v ∈ (s.die die).saved, v.sid ≠ t.sid)
    (hpins : ((s.core die core).canopy.getD slot {}).pins < 65535)
    (howner : ∀ c ∈ ((s.core die core).canopy.getD slot {}).owner, c = st.ctx) :
    let pinned : State := ((s.dropWork id).pinSlot die core slot).modStand t.sid fun y => { y with pins := y.pins ++ [slot] }
    exec (.cpywClaimGrant id) s = .next (pinned.modCord t.sid t.cord fun c => (c.writeV t.d t.mask
      (fun _ => BitVec.ofNat 32 (((s.core die core).canopy.getD slot {}).pins + 1)) .general).unmarkV [t.d]) := by
  intro pinned
  have hst' : pinned.stand? t.sid = some { st with pins := st.pins ++ [slot] } :=
    stand?_modStand (s := (s.dropWork id).pinSlot die core slot) (fun _ => rfl) hst
  have hany : ((s.claims die core slot).any fun x => decide (x.1 < id)) = false :=
    List.any_eq_false.mpr fun x hx => by simpa using hc x hx
  have hctx : ((s.dropWork id).engineAgent t false).map Agent.ctx = some st.ctx := by
    rw [State.engineAgent, show (s.dropWork id).stand? t.sid = some st from hst]
    rfl
  have howned : (s.dropWork id).ownedElse die core slot (some st.ctx) = false := by
    cases hx : ((s.core die core).canopy.getD slot {}).owner with
    | none => exact congrArg (Option.any _) hx
    | some c =>
      have : (s.dropWork id).ownedElse die core slot (some st.ctx) = decide (some st.ctx ≠ some c) := congrArg (Option.any _) hx
      rw [this, howner c hx]
      simp
  change execCpywClaimGrant id s = _
  simp only [execCpywClaimGrant, State.unfocus_of_none hf, ha, hany, Bool.false_eq_true, if_false, State.takePin,
    Nat.not_le.mpr hpins, hctx, howned]
  rw [← writeHalf_of_stand? hst', modDie_of_eq]
  intro x hx
  obtain ⟨y, hy, rfl⟩ := Option.map_eq_some_iff.mp ((List.getElem?_modify_eq _ _ s.dies).symm.trans hx)
  have hdie : s.die die = y := by rw [State.die, List.getD_eq_getElem?_getD, hy]; rfl
  have hsaved : (y.saved.map fun v => if v.sid = t.sid then { v with pins := v.pins ++ [slot] } else v) = y.saved :=
    (List.map_congr_left fun v hv' => if_neg (hv v (hdie ▸ hv'))).trans (List.map_id' _)
  dsimp only
  rw [hsaved]

/-- A claim on which the slot, its pins and the accesses before it no longer wait is granted (R222). -/
theorem exec_cpywClaimGrant_of_grantable {src : Nat} {scales g : Bool}
    (ha : s.active? id = some (.copy t die core (.weight slot src scales seq g)))
    (hg : s.grantable die core slot seq id = true) (hu : s.unreleased id t.sid t.cord t.mask = false) :
    exec (.cpywClaimGrant id) s = .next (s.setWork id (.copy t die core (.weight slot src scales seq true))) := by
  change execCpywClaimGrant id s = _
  simp only [execCpywClaimGrant, State.unfocus_of_none hf, ha, hg, hu, Bool.not_false, Bool.and_self, if_true]

/-- What a fill makes of a slot: its tile, and the side band of a fill that has one (R222). -/
def filledBy (bytes : List Byte) (x : Canopy) : Canopy :=
  { x with
      bytes := x.bytes.overlay 0 (min 32768 bytes.length) (ofBytes 0 (bytes.take 32768)),
      side := x.side.overlay 0 (bytes.length - 32768) (ofBytes 0 (bytes.drop 32768)) }

end

/-- A fill leaves the pins, and the slot's tile and side band hold its bytes; a fill without a side band keeps the slot's
(R222). -/
theorem filledBy_spec {bytes : List Byte} {scales : Bool} (hn : bytes.length = 32768 + if scales then 2048 else 0)
    (x : Canopy) : (filledBy bytes x).pins = x.pins ∧ (∀ k < 32768, (filledBy bytes x).bytes.read k = bytes.getD k 0) ∧
      (scales = true → ∀ k < 2048, (filledBy bytes x).side.read k = bytes.getD (32768 + k) 0) ∧
      (scales = false → (filledBy bytes x).side = x.side) := by
  refine ⟨rfl, fun k hk => ?_, ?_, ?_⟩
  · have hlen : (bytes.take 32768).length = 32768 := by rw [List.length_take]; omega
    change (x.bytes.overlay 0 (min 32768 bytes.length) _).read k = _
    rw [show min 32768 bytes.length = 32768 by omega, read_overlay_ofBytes _ hlen hk, List.getD_eq_getElem?_getD,
      List.getElem?_take_of_lt hk, List.getD_eq_getElem?_getD]
  · rintro rfl k hk
    change (x.side.overlay 0 (bytes.length - 32768) _).read k = _
    rw [read_overlay_ofBytes _ (by rw [List.length_drop]) (by rw [hn]; exact hk), List.getD_eq_getElem?_getD,
      List.getElem?_drop, List.getD_eq_getElem?_getD]
  · rintro rfl
    change x.side.overlay 0 (bytes.length - 32768) _ = _
    have hlen : bytes.length = 32768 := hn
    rw [List.drop_of_length_le hlen.le, hlen]
    exact overlay_nil _

section
variable {s : State} {id die core slot src seq : Nat} {scales : Bool} {t : Dest} {st : Stand}

/-- A granted fill reads its tile and side band from mapped memory, and reports (R222). -/
theorem exec_cpywFillDone_of_mapped {pa : Nat → Nat} {leaf : Nat → Leaf} (hf : s.focus = none)
    (hst : s.stand? t.sid = some st) (ha : s.active? id = some (.copy t die core (.weight slot src scales seq true)))
    (hw : s.Whole) :
    let n := 32768 + if scales then 2048 else 0
    let a : Agent := ⟨st.die, st.ctx, st.sec && (s.core st.die st.core).skSecure, st.fpid, 1, st.core, (s.named t).2⟩
    let bytes : List Byte := (pageRuns src n).flatMap fun r => s.hbm.bytes (hAddr st.die (pa (src + r.1))) r.2
    (∀ r ∈ pageRuns src n, s.Mapped a .read (src + r.1) (pa (src + r.1)) (leaf (src + r.1))) →
    exec (.cpywFillDone id) s = .next ((s.endFill die core slot (some st.ctx) (filledBy bytes)).finishedWork id t 0
      (BitVec.ofNat 32 n)) := by
  intro n a bytes hm
  let moves := (pageRuns src n).map fun r => (src + r.1, 0, r.2)
  have hplan := plan_of_mapped (a := a) (pa := pa) (leaf := leaf) hw hst (srcG := true) (dstG := false) moves fun x hx => by
    obtain ⟨r, hr, rfl⟩ := List.mem_map.mp hx
    refine ⟨fun _ p hp => ?_, nofun⟩
    rw [pageRuns_of_mem hr, List.mem_singleton] at hp
    subst hp
    exact hm r hr
  have hbytes : (moves.map fun x => (⟨sideRuns a.die pa true x.1 x.2.2, sideRuns a.die pa false x.2.1 x.2.2, x.2.2⟩ : Piece)).flatMap
      (fun p => gather s.hbm p.src) = bytes := by
    rw [List.flatMap_map, List.flatMap_map]
    refine List.flatMap_congr fun r hr => ?_
    simp [gather, sideRuns, pageRuns_of_mem hr, a]
  have hwhole : (s.endFill die core slot (some st.ctx) (filledBy bytes)).Whole := whole_modDie (fun _ => rfl) hw
  have hst' : (s.endFill die core slot (some st.ctx) (filledBy bytes)).stand? t.sid = some st := hst
  change execCpywFillDone id s = _
  simp only [execCpywFillDone, State.unfocus_of_none hf, ha, engineAgent_of_stand? hst]
  rw [show s.plan a t.sid true false ((pageRuns src n).map fun r => (src + r.1, 0, r.2)) = _ from hplan]
  dsimp only
  rw [hbytes]
  change Host.Outcome.next (State.copyStatus ((s.endFill die core slot (some st.ctx) (filledBy bytes)).mendAt die
    (.canopy core slot 0) n) id t 0 n) = _
  rw [mendAt_of_whole hwhole, copyStatus_of_stand? hst']

end

end Sys2Proof.Machine
end

section
/-! PROOFS. O21: cross-core transfers, shares and canopy claims advance as their rules say. -/

namespace Sys2Proof.Machine

/-- Nothing stands in the way of a claim: it is granted when every earlier claim on its slot is complete, and every pin
taken before it released (R222). -/
theorem grantable_of_free {s : State} {die core slot seq id : Nat}
    (hc : (s.claims die core slot).takeWhile (fun x => x.1 ≠ id) = []) (hp : s.pinnedBefore die core slot seq = false)
    (hb : (s.before id).any (Work.pinsSlot die core slot) = false) : s.grantable die core slot seq id = true := by
  simp only [State.grantable, hc, hp, hb, List.isEmpty_nil, Bool.not_false, Bool.and_self]

/-- Settles O21: each step of a transfer, a share or a claim is one rule of its own; those of claims turn on what stands
before them, and those of an open transfer on its beat. -/
theorem transfersAndClaimsAdvance : Obligations.TransfersAndClaimsAdvance := by
  unfold Obligations.TransfersAndClaimsAdvance
  constructor
  · intro s id t die core src dst obj n rc sent tag mask st rv slot h hf hst hsid cross grove setHold status
    refine ⟨fun ha hu => ⟨fun hrv => ?receiver, fun hnone hended => ?ended, fun hnone hwait => ?waiting⟩,
      fun ha hrv ht hw hsent hdst hobj hapart => ⟨1, ?beat⟩, fun ha hu => ?crossed, fun ha => ?finished,
      fun e he ha => ?late, fun ha hu => ⟨fun hm => ?noReceiver, fun hm hfree hbefore hw hr => ?parks⟩,
      fun ha hu hslot hs => ?taken, fun ha ht hw hsaving hfirst hslot htag htract hopen hold => ⟨1, ?exposed, ?drained⟩,
      fun e c he ha hslot hs => exec_shareWaitTimeout_of_parked hf he ha hslot hs⟩
    case receiver =>
      rw [exec_cpyxBeatArrive_eq hf ha, crossBeat_of_reaching hst hu, crossNow_of_receiver hrv]
    case ended =>
      rw [exec_cpyxBeatArrive_eq hf ha, crossBeat_of_reaching hst hu, crossNow_of_ended hnone hended]
    case waiting =>
      rw [exec_cpyxBeatArrive_eq hf ha, crossBeat_of_reaching hst hu, crossNow_of_waiting hnone hwait]
    case beat =>
      rw [exec_cpyxBeatArrive_eq hf ha, crossBeat_of_opened hst hrv ht hw hsent hdst hobj hapart]
    case crossed =>
      rw [exec_copyDone_of_crossed hf ha hu, copyStatus_of_stand? hst]; rfl
    case finished =>
      rw [exec_cpyxBeatArrive_eq hf ha]
      exact congrArg _ (copyStatus_of_stand? hst _ _ _)
    case late =>
      rw [exec_shareWaitTimeout_of_waiting hf he ha, copyStatus_of_stand? hst]; rfl
    case noReceiver =>
      subst hm
      rw [exec_cpymPark_of_no_receiver hf ha, copyStatus_of_stand? hst]; rfl
    case parks =>
      exact exec_cpymPark_of_free hf ha hu hst hm (freeHold_eq hfree hbefore) hw hr
    case taken =>
      exact exec_copyDone_of_parked hf ha hu hst hslot hs
    case exposed =>
      exact fun y => ({ y with sp := y.sp.put dst h.bytes }.wrote t.cord t.mask dst h.bytes.length).unfenced
    case drained =>
      have hsuits : h.suits core st.tract tag := ⟨htag, htract, List.contains_iff_mem.mpr hopen⟩
      have hfound := openShare_of_oldest hslot hsuits fun j y hj hy =>
        hold j y hj hy.1 hy.2.1 (List.contains_iff_mem.mp hy.2.2)
      have hexposed : (s.modStand t.sid fun y => { y with sp := y.sp.put dst h.bytes }.wrote t.cord t.mask dst h.bytes.length) =
          s.modStand t.sid fun y => { y with
            sp := y.sp.put dst h.bytes,
            unfenced := ({ y with sp := y.sp.put dst h.bytes }.wrote t.cord t.mask dst h.bytes.length).unfenced } :=
        modStand_congr fun y _ _ => wrote_eq _ _ _ _ _
      rw [exec_mcdrainMatch_of_first hf ha hst ht hw hsaving hfirst hfound, hexposed]
      rfl
  · intro s id t die core slot src seq scales g st pa leaf hf hst n a free fills bytes
    refine ⟨fun ha ⟨hc, hp, hb⟩ hw => exec_wevictClaimGrant_of_grantable hf hst ha (grantable_of_free hc hp hb) hw,
      fun ha ⟨hc, hp, hb⟩ hu => exec_cpywClaimGrant_of_grantable hf ha (grantable_of_free hc hp hb) hu,
      fun ha hw hm => ⟨filledBy bytes, exec_cpywFillDone_of_mapped hf hst ha hw hm, ?filled⟩,
      fun ha hc hv => ?pinned⟩
    case filled =>
      refine filledBy_spec ((List.length_flatMap).trans ?_)
      refine Eq.trans (congrArg List.sum (List.map_congr_left fun r _ => Memory.length_bytes _ _ _)) ?_
      exact sum_pageRuns src n
    case pinned =>
      intro x hpins howner
      rw [exec_cpywClaimGrant_of_pin hf hst ha hc hv hpins howner]
      rfl

end Sys2Proof.Machine
end

section
/-! SUPPORT. How a copy instruction ends at issue: it is held, meets the first fault of its operands, or enters the skidder's
queue (R204, R207, R374). -/

namespace Sys2Proof.Machine

/-! ### Faults in the order of their checks -/

/-- The fault of a check that fails. -/
def refuse (c : Prop) [Decidable c] (t : Trap) : Option Trap := if c then some t else none

/-- An instruction that raises its first fault, where it meets one. -/
def refused (s : State) (t : Option Trap) (d : Did) : Did :=
  match t with
  | some t => .trap s t
  | none => d

theorem refuse_of {c : Prop} [Decidable c] {t : Trap} (h : c) : refuse c t = some t := if_pos h

theorem refuse_of_not {c : Prop} [Decidable c] {t : Trap} (h : ¬c) : refuse c t = none := if_neg h

theorem refused_refuse {s : State} {c : Prop} [Decidable c] {t : Trap} {d : Did} :
    refused s (refuse c t) d = if c then .trap s t else d := by
  by_cases h : c
  · rw [refuse_of h, if_pos h]; rfl
  · rw [refuse_of_not h, if_neg h]; rfl

theorem refused_or {s : State} {t u : Option Trap} {d : Did} : refused s (t.or u) d = refused s t (refused s u d) := by
  cases t <;> rfl

/-- An operand off its alignment is the one that TRAPVAL holds (R375). -/
theorem misalign_of_misaligned {x n : Nat} (h : x % n ≠ 0) :
    misalign [(x, n)] = { code := .misaligned, val := some (BitVec.ofNat 64 x) } := by
  have hfilter : [(x, n)].filter (fun y => decide (y.1 % y.2 ≠ 0)) = [(x, n)] := List.filter_cons_of_pos (decide_eq_true h)
  simp only [misalign, hfilter]

/-- What an instruction that uses the skidder's queue does: it is held while the queue is full, then its checks are met. -/
def queued (s : State) (f : Focus) (t : Option Trap) (s' : State) : Did :=
  if skidFull s f then .held else refused s t (.done s')

section
variable {s s' : State} {f : Focus} {i : Instr} {t : Option Trap}

theorem outcome_queued_of_full (h : skidFull s f = true) : (queued s f t s').outcome i s f = .next s := by
  rw [queued, if_pos h]; rfl

theorem outcome_queued_of_free (h : skidFull s f = false) (ht : t = none) : (queued s f t s').outcome i s f = .next s' := by
  rw [queued, h, ht]; rfl

theorem outcome_queued_of_trap {r : Trap} (h : skidFull s f = false) (ht : t = some r) :
    (queued s f t s').outcome i s f = .next (s.faulted i f r) := by
  rw [queued, h, ht]; rfl

end

/-! ### Fields -/

theorem extractLsb'_eq_ofNat_nbits {w : Nat} (x : BitVec w) {hi lo n : Nat} (h : hi + 1 - lo = n) :
    x.extractLsb' lo n = BitVec.ofNat n (nbits x.toNat hi lo) := by
  rw [← toNat_extractLsb'_eq_nbits x h, BitVec.ofNat_toNat, BitVec.setWidth_eq]

theorem getLsbD_low {x : DWord} {k : Nat} (hk : k < 32) : (x.extractLsb' 0 32).getLsbD k = x.getLsbD k := by
  rw [BitVec.getLsbD_extractLsb', Nat.zero_add, decide_eq_true hk, Bool.true_and]

/-! ### Ranges -/

theorem spTrap_of_beyond {st : Stand} {n x : Nat} (h : st.spGran * 16384 < x + n) :
    spTrap st n [(0, x)] = some { code := .spRange, val := some (BitVec.ofNat 64 x) } :=
  spTrap_of_low (lowLane_singleton h)

theorem spTrap_of_within {st : Stand} {n x : Nat} (h : x + n ≤ st.spGran * 16384) : spTrap st n [(0, x)] = none :=
  spTrap_of_inside fun y hy => by rw [List.mem_singleton.mp hy]; exact h

theorem rangeTrap_of_beyond {n x : Nat} (h : 2 ^ 57 < x + n) :
    rangeTrap n [(0, x)] = some { code := .addressRange, val := some (BitVec.ofNat 64 x) } :=
  rangeTrap_of_low (lowLane_singleton (Nat.le_sub_one_of_lt h))

theorem rangeTrap_of_within {n x : Nat} (h : x + n ≤ 2 ^ 57) : rangeTrap n [(0, x)] = none :=
  rangeTrap_of_inside fun y hy => by rw [List.mem_singleton.mp hy]; exact h

/-! ### CPYX, CPYM, MCDRAIN and the claims at issue -/

section
variable {s : State} {f : Focus} {o : XOps} {nb : Bool}

/-- The checks of a CPYX, in the order of R374. -/
def cpyxTrap (st : Stand) (dst src n obj c : Nat) (reserved : Prop) [Decidable reserved] : Option Trap :=
  (refuse (dst % 16 ≠ 0 ∨ src % 16 ≠ 0 ∨ obj % 16 ≠ 0) (misalign [(dst, 16), (src, 16), (obj, 16)])).or <|
    (refuse (n < 16 ∨ 2 ^ 20 < n ∨ n % 16 ≠ 0) { code := .copyParam }).or <|
      ((spTrap st n [(0, src)]).or (castTrap st c)).or (refuse reserved { code := .copyParam })

theorem exec_cpyx_eq (h : Issues (.cpyx o) s f) :
    let a := f.cord.sreg o.s
    let b := f.cord.sreg (o.s + 1)
    let dst := (a.extractLsb' 32 32).toNat
    let src := (a.extractLsb' 0 32).toNat
    let n := (b.extractLsb' 32 21).toNat
    let obj := (b.extractLsb' 0 32).toNat
    let c := (b.extractLsb' 56 5).toNat
    exec (.cpyx o) s = (queued s f (cpyxTrap f.stand dst src n obj c (b.extractLsb' 53 3 ≠ 0#3 ∨ b.extractLsb' 61 3 ≠ 0#3))
      (s.beginCopy f o.d f.path.mask (.cross src dst obj n c 0 .reaching))).outcome (.cpyx o) s f := by
  intro a b dst src n obj c
  refine (issue_eq_outcome h _).trans (congrArg _ ?_)
  have hdst : dst = nbits a.toNat 63 32 := toNat_extractLsb'_eq_nbits a rfl
  have hsrc : src = nbits a.toNat 31 0 := toNat_extractLsb'_eq_nbits a rfl
  have hn : n = nbits b.toNat 52 32 := toNat_extractLsb'_eq_nbits b rfl
  have hobj : obj = nbits b.toNat 31 0 := toNat_extractLsb'_eq_nbits b rfl
  have hc : c = nbits b.toNat 60 56 := toNat_extractLsb'_eq_nbits b rfl
  have hres : (b.extractLsb' 53 3 ≠ 0#3 ∨ b.extractLsb' 61 3 ≠ 0#3) ↔ nbits b.toNat 63 61 ≠ 0 ∨ nbits b.toNat 55 53 ≠ 0 := by
    rw [or_comm, ne_eq, ne_eq, extractLsb'_eq_zero_iff b (hi := 63) rfl, extractLsb'_eq_zero_iff b (hi := 55) rfl]
  simp only [queued, cpyxTrap, refused_or, refused_refuse, hdst, hsrc, hn, hobj, hc, hres]
  rw [← refused_or]
  rfl

/-- The checks of a CPYM, in the order of R374. -/
def cpymTrap (st : Stand) (src n : Nat) (mask : Mask) (reserved : Prop) [Decidable reserved] : Option Trap :=
  (refuse (src % 16 ≠ 0) (misalign [(src, 16)])).or <|
    (refuse (n < 16 ∨ 8192 < n ∨ n % 16 ≠ 0) { code := .copyParam }).or <|
      ((spTrap st n [(0, src)]).or ((Mask.toLanes mask).findSome? (castTrap st))).or (refuse reserved { code := .copyParam })

theorem exec_cpym_eq (h : Issues (.cpym o) s f) :
    let a := f.cord.sreg o.s
    let b := f.cord.sreg (o.s + 1)
    let src := (a.extractLsb' 0 32).toNat
    let n := (a.extractLsb' 32 14).toNat
    let mask := b.extractLsb' 0 32
    exec (.cpym o) s = (queued s f (cpymTrap f.stand src n mask (a.extractLsb' 46 2 ≠ 0#2 ∨ b.extractLsb' 32 32 ≠ 0#32))
      (s.beginCopy f o.d f.path.mask (.park (a.extractLsb' 48 16) n src mask))).outcome (.cpym o) s f := by
  intro a b src n mask
  refine (issue_eq_outcome h _).trans (congrArg _ ?_)
  have hsrc : src = nbits a.toNat 31 0 := toNat_extractLsb'_eq_nbits a rfl
  have hn : n = nbits a.toNat 45 32 := toNat_extractLsb'_eq_nbits a rfl
  have hmask : mask = BitVec.ofNat 32 b.toNat :=
    BitVec.eq_of_toNat_eq (by rw [BitVec.extractLsb'_toNat, Nat.shiftRight_zero, BitVec.toNat_ofNat])
  have htag : a.extractLsb' 48 16 = BitVec.ofNat 16 (nbits a.toNat 63 48) := extractLsb'_eq_ofNat_nbits a rfl
  have hres : (a.extractLsb' 46 2 ≠ 0#2 ∨ b.extractLsb' 32 32 ≠ 0#32) ↔ nbits a.toNat 47 46 ≠ 0 ∨ nbits b.toNat 63 32 ≠ 0 := by
    rw [ne_eq, ne_eq, extractLsb'_eq_zero_iff a (hi := 47) rfl, extractLsb'_eq_zero_iff b (hi := 63) rfl]
  simp only [queued, cpymTrap, refused_or, refused_refuse, hsrc, hn, hmask, htag, hres]
  rw [← refused_or]
  rfl

/-- The checks of an MCDRAIN, in the order of R374. -/
def mcdrainTrap (st : Stand) (dst : Nat) (reserved : Prop) [Decidable reserved] : Option Trap :=
  (recTrap st 16 8192 dst).or (refuse reserved { code := .copyParam })

theorem exec_mcdrain_eq (h : Issues (.mcdrain o) s f) :
    let a := f.cord.sreg o.s
    let dst := (a.extractLsb' 0 32).toNat
    exec (.mcdrain o) s = (queued s f (mcdrainTrap f.stand dst (a.extractLsb' 48 16 ≠ 0#16))
      (s.beginCopy f o.d f.path.mask (.drain (a.extractLsb' 32 16) dst))).outcome (.mcdrain o) s f := by
  intro a dst
  refine (issue_eq_outcome h _).trans (congrArg _ ?_)
  have hdst : dst = nbits a.toNat 31 0 := toNat_extractLsb'_eq_nbits a rfl
  have htag : a.extractLsb' 32 16 = BitVec.ofNat 16 (nbits a.toNat 47 32) := extractLsb'_eq_ofNat_nbits a rfl
  have hres : a.extractLsb' 48 16 ≠ 0#16 ↔ nbits a.toNat 63 48 ≠ 0 := (extractLsb'_eq_zero_iff a (hi := 63) rfl).not
  simp only [queued, mcdrainTrap, refused_or, refused_refuse, hdst, htag, hres]
  rfl

/-- The checks of a CPYW, in the order of R374. -/
def cpywTrap (src n : Nat) (reserved : Prop) [Decidable reserved] : Option Trap :=
  (refuse (src % 256 ≠ 0) (misalign [(src, 256)])).or ((rangeTrap n [(0, src)]).or (refuse reserved { code := .copyParam }))

/-- A claim that takes no wait is answered where it cannot be granted at once (R222, R285). -/
def claimed (s : State) (f : Focus) (nb : Bool) (slot : Nat) (d : VCode) (k : CopyKind) : State :=
  if nb && !claimFree s f slot then s.answer f d (statusLow codeBusy false false 0 0) 0
  else s.beginCopy f d f.path.mask k

theorem exec_cpyw_eq (h : Issues (.cpyw o nb) s f) :
    let a := f.cord.sreg o.s
    let b := f.cord.sreg (o.s + 1)
    let slot := (b.extractLsb' 0 7).toNat
    let scales := b.getLsbD 8
    let n := 32768 + if scales then 2048 else 0
    exec (.cpyw o nb) s = (queued s f (cpywTrap a.toNat n (b.getLsbD 7 = true ∨ b.extractLsb' 9 55 ≠ 0#55))
      (claimed s f nb slot o.d (.weight slot a.toNat scales (s.core f.stand.die f.stand.core).taskSeq nb))).outcome
        (.cpyw o nb) s f := by
  intro a b slot scales n
  refine (issue_eq_outcome h _).trans (congrArg _ ?_)
  have hslot : slot = nbits b.toNat 6 0 := toNat_extractLsb'_eq_nbits b rfl
  have hscales : scales = decide (nbits b.toNat 8 8 = 1) := (nbits_one_eq_testBit b.toNat 8).symm
  have hres : (b.getLsbD 7 = true ∨ b.extractLsb' 9 55 ≠ 0#55) ↔ nbits b.toNat 7 7 ≠ 0 ∨ nbits b.toNat 63 9 ≠ 0 := by
    have h7 : decide (nbits b.toNat 7 7 = 0) = !b.getLsbD 7 := nbits_zero_eq_not_testBit b.toNat 7
    rw [ne_eq, extractLsb'_eq_zero_iff b (hi := 63) rfl, ← Bool.not_eq_false', ← h7, decide_eq_false_iff_not]
  simp only [queued, cpywTrap, claimed, refused_or, refused_refuse, n, hslot, hscales, hres, decide_eq_true_eq, apply_ite Did.done]
  rfl

/-- The checks of a WEVICT, in the order of R374. -/
def wevictTrap (reserved owned : Prop) [Decidable reserved] [Decidable owned] : Option Trap :=
  (refuse reserved { code := .matrixParam }).or (refuse owned { code := .protection })

theorem exec_wevict_eq (h : Issues (.wevict o nb) s f) :
    let a := f.cord.sreg o.s
    let slot := (a.extractLsb' 0 7).toNat
    exec (.wevict o nb) s = (queued s f (wevictTrap (a.extractLsb' 7 57 ≠ 0#57) (s.owned f slot = true))
      (claimed s f nb slot o.d (.evict slot (s.core f.stand.die f.stand.core).taskSeq))).outcome (.wevict o nb) s f := by
  intro a slot
  refine (issue_eq_outcome h _).trans (congrArg _ ?_)
  have hslot : slot = nbits a.toNat 6 0 := toNat_extractLsb'_eq_nbits a rfl
  have hres : a.extractLsb' 7 57 ≠ 0#57 ↔ nbits a.toNat 63 7 ≠ 0 := (extractLsb'_eq_zero_iff a (hi := 63) rfl).not
  simp only [queued, wevictTrap, claimed, refused_or, refused_refuse, hslot, hres, apply_ite Did.done]
  rfl

end

end Sys2Proof.Machine
end

section
/-! SUPPORT. The iteration space and the record of a CPYT (R212, R213). -/

namespace Sys2Proof.Machine

/-! ### Corners -/

/-- The steps along one dimension lie between their ends, and meet both. -/
theorem multiples_bounds {e : Nat} (k : Int) {i : Nat} (hi : i < e) :
    min 0 (((e : Int) - 1) * k) ≤ i * k ∧ (i : Int) * k ≤ max 0 (((e : Int) - 1) * k) := by
  have hi0 : (0 : Int) ≤ i := Int.natCast_nonneg i
  have hi1 : (i : Int) ≤ e - 1 := by omega
  rcases le_total 0 k with hk | hk
  · have h0 := mul_nonneg hi0 hk
    have h1 := mul_le_mul_of_nonneg_right hi1 hk
    omega
  · have h0 := mul_nonpos_of_nonneg_of_nonpos hi0 hk
    have h1 := mul_le_mul_of_nonpos_right hi1 hk
    omega

theorem exists_multiple_eq_min {e : Nat} (he : 1 ≤ e) (k : Int) : ∃ i < e, (i : Int) * k = min 0 (((e : Int) - 1) * k) := by
  rcases min_cases 0 (((e : Int) - 1) * k) with ⟨h, -⟩ | ⟨h, -⟩
  · exact ⟨0, he, by rw [h]; simp⟩
  · exact ⟨e - 1, by omega, by rw [h, Nat.cast_sub he, Nat.cast_one]⟩

theorem exists_multiple_eq_max {e : Nat} (he : 1 ≤ e) (k : Int) : ∃ i < e, (i : Int) * k = max 0 (((e : Int) - 1) * k) := by
  rcases max_cases 0 (((e : Int) - 1) * k) with ⟨h, -⟩ | ⟨h, -⟩
  · exact ⟨0, he, by rw [h]; simp⟩
  · exact ⟨e - 1, by omega, by rw [h, Nat.cast_sub he, Nat.cast_one]⟩

/-- A box of rows passes its bounds where one of its corners does (R213). -/
theorem corners_beyond_iff {e0 e1 e2 e3 : Nat} (h1 : 1 ≤ e1) (h2 : 1 ≤ e2) (h3 : 1 ≤ e3) (base k1 k2 k3 bound : Int) :
    ((corners base [(e1, k1), (e2, k2), (e3, k3)]).1 < 0 ∨ bound < (corners base [(e1, k1), (e2, k2), (e3, k3)]).2 + e0) ↔
      ∃ i1 < e1, ∃ i2 < e2, ∃ i3 < e3,
        base + i1 * k1 + i2 * k2 + i3 * k3 < 0 ∨ bound < base + i1 * k1 + i2 * k2 + i3 * k3 + e0 := by
  simp only [corners, List.foldl_cons, List.foldl_nil]
  constructor
  · rintro (h | h)
    · obtain ⟨i1, hi1, e1⟩ := exists_multiple_eq_min h1 k1
      obtain ⟨i2, hi2, e2⟩ := exists_multiple_eq_min h2 k2
      obtain ⟨i3, hi3, e3⟩ := exists_multiple_eq_min h3 k3
      exact ⟨i1, hi1, i2, hi2, i3, hi3, .inl (by rw [e1, e2, e3]; exact h)⟩
    · obtain ⟨i1, hi1, e1⟩ := exists_multiple_eq_max h1 k1
      obtain ⟨i2, hi2, e2⟩ := exists_multiple_eq_max h2 k2
      obtain ⟨i3, hi3, e3⟩ := exists_multiple_eq_max h3 k3
      exact ⟨i1, hi1, i2, hi2, i3, hi3, .inr (by rw [e1, e2, e3]; exact h)⟩
  · rintro ⟨i1, hi1, i2, hi2, i3, hi3, h⟩
    obtain ⟨l1, u1⟩ := multiples_bounds k1 hi1
    obtain ⟨l2, u2⟩ := multiples_bounds k2 hi2
    obtain ⟨l3, u3⟩ := multiples_bounds k3 hi3
    exact h.imp (fun h => by linarith) (fun h => by linarith)

/-! ### The record -/

/-- A field is the little-endian number of its bytes. -/
theorem recField_eq_sum (r : List Byte) (n k : Nat) :
    recField r k n = ((List.range n).map fun j => (r.getD (k + j) 0).toNat * 256 ^ j).sum := by
  induction n generalizing k with
  | zero => rfl
  | succ n ih =>
    have htail : ((List.range n).map fun j => (r.getD (k + (j + 1)) 0).toNat * 256 ^ (j + 1)).sum = 256 * recField r (k + 1) n := by
      rw [ih, ← List.sum_map_mul_left]
      refine congrArg List.sum (List.map_congr_left fun j _ => ?_)
      rw [show k + (j + 1) = k + 1 + j by omega, pow_succ]
      ring
    have hhead : recField r k (n + 1) = (r.getD k 0).toNat + 256 * recField r (k + 1) n := by
      by_cases hk : k < r.length
      · simp only [recField, List.drop_eq_getElem_cons hk, List.take_succ_cons, leNat, List.getD_eq_getElem _ _ hk]
      · have hlen := Nat.not_lt.mp hk
        rw [List.getD_eq_default _ _ hlen]
        simp [recField, List.drop_of_length_le hlen, List.drop_of_length_le (Nat.le_succ_of_le hlen), leNat]
    rw [hhead, List.range_succ_eq_map, List.map_cons, List.map_map, List.sum_cons, ← htail]
    simp [Function.comp_def]

/-- The fields of the record, each the number of its bytes, and the strides signed (R212). -/
theorem tensorRec_fields (bytes : List Byte) :
    let x := tensorRec bytes
    let u (k n : Nat) : Nat := ((List.range n).map fun j => (bytes.getD (k + j) 0).toNat * 256 ^ j).sum
    let i (k n : Nat) : Int := (BitVec.ofNat (8 * n) (u k n)).toInt
    x.gaddr = u 0 8 ∧ x.spoff = u 8 4 ∧ x.e0 = u 12 4 ∧ x.e1 = u 16 2 ∧ x.e2 = u 18 2 ∧ x.e3 = u 20 2 ∧
      x.g1 = i 24 8 ∧ x.g2 = i 32 8 ∧ x.g3 = i 40 8 ∧ x.s1 = i 48 4 ∧ x.s2 = i 52 4 ∧ x.s3 = i 56 4 := by
  intro x u i
  have hu (k n : Nat) : recField bytes k n = u k n := recField_eq_sum bytes n k
  have hi (k n : Nat) : signed (recField bytes k n) (8 * n) = i k n := congrArg (fun m => (BitVec.ofNat (8 * n) m).toInt) (hu k n)
  exact ⟨hu _ _, hu _ _, hu _ _, hu _ _, hu _ _, hu _ _, hi _ _, hi _ _, hi _ _, hi _ _, hi _ _, hi _ _⟩

theorem limits_iff (x : TensorRec) : x.limits = true ↔
    x.gaddr < 2 ^ 57 ∧ x.gaddr % 4 = 0 ∧ x.spoff % 4 = 0 ∧ 4 ≤ x.e0 ∧ x.e0 ≤ 2 ^ 20 ∧ x.e0 % 4 = 0 ∧ 1 ≤ x.e1 ∧ 1 ≤ x.e2 ∧
      1 ≤ x.e3 ∧ (∀ k ∈ [x.g1, x.g2, x.g3, x.s1, x.s2, x.s3], k % 4 = 0) ∧ x.e0 * x.e1 * x.e2 * x.e3 ≤ 2 ^ 24 := by
  simp only [TensorRec.limits, Bool.and_eq_true, decide_eq_true_eq, List.all_eq_true, and_assoc]

/-! ### Rows -/

theorem length_rows (x : TensorRec) : x.rows.length = x.e1 * x.e2 * x.e3 := by
  rw [TensorRec.rows, List.length_map, List.length_range]
  ring

theorem add_mul_lt_mul {a b i j : Nat} (hi : i < a) (hj : j < b) : i + a * j < a * b :=
  calc i + a * j < a * (j + 1) := by rw [Nat.mul_succ]; omega
    _ ≤ a * b := Nat.mul_le_mul_left a hj

/-- The row of a place of the iteration space stands at its place in R213's order. -/
theorem rows_getElem? {x : TensorRec} {i1 i2 i3 : Nat} (h1 : i1 < x.e1) (h2 : i2 < x.e2) (h3 : i3 < x.e3) :
    x.rows[i1 + x.e1 * (i2 + x.e2 * i3)]? =
      some (((x.gaddr : Int) + i1 * x.g1 + i2 * x.g2 + i3 * x.g3).toNat,
        ((x.spoff : Int) + i1 * x.s1 + i2 * x.s2 + i3 * x.s3).toNat) := by
  have hlt : i1 + x.e1 * (i2 + x.e2 * i3) < x.e3 * x.e2 * x.e1 := by
    have h23 : i2 + x.e2 * i3 < x.e2 * x.e3 := add_mul_lt_mul h2 h3
    have h123 := add_mul_lt_mul h1 h23
    calc _ < x.e1 * (x.e2 * x.e3) := h123
      _ = x.e3 * x.e2 * x.e1 := by ring
  have hmod1 : (i1 + x.e1 * (i2 + x.e2 * i3)) % x.e1 = i1 := by rw [Nat.add_mul_mod_self_left, Nat.mod_eq_of_lt h1]
  have hdiv1 : (i1 + x.e1 * (i2 + x.e2 * i3)) / x.e1 = i2 + x.e2 * i3 := by
    rw [Nat.add_mul_div_left _ _ (by omega), Nat.div_eq_of_lt h1, Nat.zero_add]
  have hmod2 : (i2 + x.e2 * i3) % x.e2 = i2 := by rw [Nat.add_mul_mod_self_left, Nat.mod_eq_of_lt h2]
  have hdiv2 : (i2 + x.e2 * i3) / x.e2 = i3 := by
    rw [Nat.add_mul_div_left _ _ (by omega), Nat.div_eq_of_lt h2, Nat.zero_add]
  rw [TensorRec.rows, List.getElem?_map, List.getElem?_range hlt]
  simp only [Option.map_some, ← Nat.div_div_eq_div_mul, hmod1, hdiv1, hmod2, hdiv2]

/-! ### CPYT at issue -/

/-- The checks of a CPYT, in the order of R374. -/
def cpytTrap (st : Stand) (off : Nat) : Option Trap :=
  let r := st.sp.bytes off 64
  let x := tensorRec r
  let g := corners x.gaddr [(x.e1, x.g1), (x.e2, x.g2), (x.e3, x.g3)]
  let p := corners x.spoff [(x.e1, x.s1), (x.e2, x.s2), (x.e3, x.s3)]
  (recTrap st 64 64 off).or <| (refuse ((!x.limits) = true) { code := .copyParam }).or <|
    (refuse (g.1 < 0 ∨ 2 ^ 57 < g.2 + x.e0) { code := .addressRange }).or <|
      (refuse (p.1 < 0 ∨ ((st.spGran * 16384 : Nat) : Int) < p.2 + x.e0) { code := .spRange }).or <|
        refuse (recField r 22 2 ≠ 0 ∨ recField r 60 4 ≠ 0) { code := .copyParam }

/-- The moves of a CPYT. -/
def TensorRec.moves (x : TensorRec) (s2h : Bool) : List (Nat × Nat × Nat) :=
  x.rows.map fun y => if s2h then (y.2, y.1, x.e0) else (y.1, y.2, x.e0)

theorem moves_getElem? {x : TensorRec} (s2h : Bool) {i1 i2 i3 : Nat} (h1 : i1 < x.e1) (h2 : i2 < x.e2) (h3 : i3 < x.e3) :
    let g := ((x.gaddr : Int) + i1 * x.g1 + i2 * x.g2 + i3 * x.g3).toNat
    let p := ((x.spoff : Int) + i1 * x.s1 + i2 * x.s2 + i3 * x.s3).toNat
    (x.moves s2h)[i1 + x.e1 * (i2 + x.e2 * i3)]? = some (if s2h then p else g, if s2h then g else p, x.e0) := by
  intro g p
  rw [TensorRec.moves, List.getElem?_map, rows_getElem? h1 h2 h3]
  cases s2h <;> rfl

theorem exec_cpyt_eq {s : State} {f : Focus} {o : XOps} {s2h : Bool} (h : Issues (.cpyt o s2h) s f) (hw : s.Whole) :
    let off := f.addr o.s % 2 ^ 32
    exec (.cpyt o s2h) s = (queued s f (cpytTrap f.stand off) (s.beginCopy f o.d f.path.mask
      (.tensor s2h ((tensorRec (f.stand.sp.bytes off 64)).moves s2h)))).outcome (.cpyt o s2h) s f := by
  intro off
  refine (issue_eq_outcome h _).trans (congrArg _ ?_)
  simp only [queued, cpytTrap, refused_or, refused_refuse, damage_of_whole hw, Option.or_none]
  rfl

end Sys2Proof.Machine
end

section
/-! SUPPORT. The lanes of a CPY and the receivers of a CPYM at issue (R211, R219, R374). -/

namespace Sys2Proof.Machine

/-! ### CPY -/

/-- Bytes of an element of a CPY (R211). -/
def copyBytes (size : CopySize) : Nat :=
  match size with
  | .b4 => 4
  | .b8 => 8
  | .b16 => 16

/-- The moves of a CPY: lane, source and destination. -/
def Focus.copyMoves (f : Focus) (r : SCode) (v : VCode) : List (Nat × Nat × Nat) :=
  (Mask.toLanes f.active).map fun l => (l, f.laneAddr r v l, f.laneAddr r (v + 1) l)

/-- The checks of a lane's two sides against their ranges: the source's before the destination's (log 43). -/
def laneRange (st : Stand) (dir : CopyDir) (n : Nat) (x : Nat × Nat × Nat) : Option Trap :=
  (sideTrap st (srcGlobal dir) n x.2.1).or (sideTrap st (dstGlobal dir) n x.2.2)

/-- The checks of a CPY, in the order of R374. -/
def cpyTrap (st : Stand) (dir : CopyDir) (n : Nat) (moves : List (Nat × Nat × Nat)) : Option Trap :=
  ((moves.find? fun x => decide (x.2.1 % n ≠ 0) || decide (x.2.2 % n ≠ 0)).map fun x => misalign [(x.2.1, n), (x.2.2, n)]).or
    (moves.findSome? (laneRange st dir n))

section
variable {s : State} {f : Focus} {d v : VCode} {r : SCode} {dir : CopyDir} {size : CopySize}

theorem exec_cpy_of_idle (h : Issues (.cpy d r v dir size) s f) (hm : f.active = 0) :
    exec (.cpy d r v dir size) s = .next (s.goneOn f f.cord) := by
  refine (issue_eq_outcome h _).trans ?_
  simp only [hm, if_true]
  rfl

theorem exec_cpy_eq (h : Issues (.cpy d r v dir size) s f) (hm : f.active ≠ 0) :
    exec (.cpy d r v dir size) s = (queued s f (cpyTrap f.stand dir (copyBytes size) (f.copyMoves r v))
      (s.beginCopy f d f.active (.lanes dir (copyBytes size) (f.copyMoves r v)))).outcome (.cpy d r v dir size) s f := by
  refine (issue_eq_outcome h _).trans (congrArg _ ?_)
  simp only [hm, if_false, queued, cpyTrap, refused_or]
  refine ite_congr rfl (fun _ => rfl) fun _ => ?_
  change (match (f.copyMoves r v).find? (fun x => decide (x.2.1 % copyBytes size ≠ 0) || decide (x.2.2 % copyBytes size ≠ 0)) with
    | some x => Did.trap s (misalign [(x.2.1, copyBytes size), (x.2.2, copyBytes size)])
    | none => _) = _
  cases (f.copyMoves r v).find? fun x => decide (x.2.1 % copyBytes size ≠ 0) || decide (x.2.2 % copyBytes size ≠ 0) <;> rfl

end

section
variable {st : Stand} {dir : CopyDir} {n : Nat} {moves pre post : List (Nat × Nat × Nat)} {l src dst : Nat}

/-- A side inside its range. -/
theorem sideTrap_of_within {g : Bool} {x : Nat} (h : if g then x + n ≤ 2 ^ 57 else x + n ≤ st.spGran * 16384) :
    sideTrap st g n x = none := by
  cases g with
  | true => exact rangeTrap_of_within h
  | false => exact spTrap_of_within h

/-- A side beyond its range, global or not, and the fault that it raises (R169, R170). -/
def sideBeyond (st : Stand) (isGlobal : Prop) (n x : Nat) (c : TrapCode) : Prop :=
  (isGlobal ∧ 2 ^ 57 < x + n ∧ c = .addressRange) ∨ (¬isGlobal ∧ st.spGran * 16384 < x + n ∧ c = .spRange)

theorem sideTrap_of_beyond {g : Bool} {p : Prop} (hg : g = true ↔ p) {x : Nat} {c : TrapCode} (h : sideBeyond st p n x c) :
    sideTrap st g n x = some { code := c, val := some (BitVec.ofNat 64 x) } := by
  rcases h with ⟨hp, h, rfl⟩ | ⟨hp, h, rfl⟩
  · rw [hg.mpr hp]; exact rangeTrap_of_beyond h
  · rw [Bool.not_eq_true g |>.mp (mt hg.mp hp)]; exact spTrap_of_beyond h

theorem sideTrap_of_not_beyond {g : Bool} {p : Prop} (hg : g = true ↔ p) {x : Nat} (h : ∀ c, ¬sideBeyond st p n x c) :
    sideTrap st g n x = none := by
  refine sideTrap_of_within ?_
  split
  next hgt => exact Nat.not_lt.mp fun hx => h _ (.inl ⟨hg.mp hgt, hx, rfl⟩)
  next hgf => exact Nat.not_lt.mp fun hx => h _ (.inr ⟨mt hg.mpr hgf, hx, rfl⟩)

/-- Aligned moves pass on to their ranges. -/
theorem cpyTrap_of_aligned (h : ∀ x ∈ moves, x.2.1 % n = 0 ∧ x.2.2 % n = 0) :
    cpyTrap st dir n moves = moves.findSome? (laneRange st dir n) := by
  have hfind : (moves.find? fun x => decide (x.2.1 % n ≠ 0) || decide (x.2.2 % n ≠ 0)) = none :=
    List.find?_eq_none.mpr fun x hx => by
      obtain ⟨hs, hd⟩ := h x hx
      simp [hs, hd]
  rw [cpyTrap, hfind]
  rfl

/-- The first move that is off its alignment is the one at fault. -/
theorem cpyTrap_of_misaligned (hpre : ∀ x ∈ pre, x.2.1 % n = 0 ∧ x.2.2 % n = 0) (h : src % n ≠ 0 ∨ dst % n ≠ 0) :
    cpyTrap st dir n (pre ++ (l, src, dst) :: post) = some (misalign [(src, n), (dst, n)]) := by
  have hfind : ((pre ++ (l, src, dst) :: post).find? fun x => decide (x.2.1 % n ≠ 0) || decide (x.2.2 % n ≠ 0)) =
      some (l, src, dst) := by
    refine List.find?_eq_some_iff_append.mpr ⟨by simpa using h, pre, post, rfl, fun x hx => ?_⟩
    obtain ⟨hs, hd⟩ := hpre x hx
    simp [hs, hd]
  rw [cpyTrap, hfind]
  rfl

/-- The first move that is beyond a range is the one at fault. -/
theorem findSome?_laneRange {t : Trap} (hpre : ∀ x ∈ pre, laneRange st dir n x = none)
    (h : laneRange st dir n (l, src, dst) = some t) :
    (pre ++ (l, src, dst) :: post).findSome? (laneRange st dir n) = some t := by
  rw [List.findSome?_append, List.findSome?_eq_none_iff.mpr hpre, List.findSome?_cons, h]
  rfl

end

/-! ### Receivers -/

theorem castTrap_of_inside {st : Stand} {c : Nat} (h : c / 8 = st.core / 8) : castTrap st c = none := if_pos h

theorem castTrap_of_outside {st : Stand} {c : Nat} (h : c / 8 ≠ st.core / 8) :
    castTrap st c = some { code := .mcastRange, val := some (BitVec.ofNat 64 c) } := if_neg h

theorem pairwise_toLanes (m : Mask) : (Mask.toLanes m).Pairwise (· < ·) := List.Pairwise.filter _ (List.pairwise_lt_range)

/-- The lowest receiver outside the grove is the one at fault (log 43). -/
theorem findSome?_castTrap {st : Stand} {m : Mask} {c : Nat} (hc : c < 32) (hm : m.getLsbD c = true)
    (hout : c / 8 ≠ st.core / 8) (hlow : ∀ k < c, m.getLsbD k = true → k / 8 = st.core / 8) :
    (Mask.toLanes m).findSome? (castTrap st) = some { code := .mcastRange, val := some (BitVec.ofNat 64 c) } := by
  obtain ⟨pre, post, hlanes⟩ := List.append_of_mem (Mask.mem_toLanes.mpr ⟨hc, hm⟩)
  have hpre : ∀ k ∈ pre, castTrap st k = none := fun k hk => by
    have hk' : k ∈ Mask.toLanes m := hlanes ▸ List.mem_append_left _ hk
    have hlt : k < c := (List.pairwise_append.mp (hlanes ▸ pairwise_toLanes m)).2.2 k hk c List.mem_cons_self
    exact castTrap_of_inside (hlow k hlt (Mask.mem_toLanes.mp hk').2)
  rw [hlanes, List.findSome?_append, List.findSome?_eq_none_iff.mpr hpre, List.findSome?_cons, castTrap_of_outside hout]
  rfl

end Sys2Proof.Machine
end

section
/-! SUPPORT. What a per-lane or bulk copy of mapped and whole memory has moved when it completes (R206, R208, R209). -/

namespace Sys2Proof.Machine

/-! ### Pieces in global memory -/

/-- Memory with bytes written over runs in turn. -/
def putRuns (m : Memory) (runs : List (Nat × Nat)) (bs : List Byte) : Memory :=
  (runs.foldl (fun q r => (q.1.put r.1 (q.2.take r.2), q.2.drop r.2)) (m, bs)).1

/-- Memory with pieces written in turn. -/
def putPieces (m : Memory) (l : List (Piece × List Byte)) : Memory := l.foldl (fun m x => putRuns m x.1.dst x.2) m

/-- Bytes scattered over runs of whole memory change it, and what is remembered of it. -/
theorem scatter_of_whole (runs : List (Nat × Nat)) : ∀ (s : State) (bs : List Byte), s.Whole →
    ∃ past, s.scatter runs bs = { s with hbm := putRuns s.hbm runs bs, past := past } := by
  induction runs with
  | nil => exact fun s bs _ => ⟨s.past, rfl⟩
  | cons r runs ih =>
    intro s bs hw
    have hput : s.hbmPut r.1 (bs.take r.2) =
        { s.remember none s.place r.1 (bs.take r.2).length with hbm := s.hbm.put r.1 (bs.take r.2) } :=
      hbmSet_of_whole (s := s.remember none s.place r.1 (bs.take r.2).length) hw _ _
    obtain ⟨past, h⟩ := ih { s.remember none s.place r.1 (bs.take r.2).length with hbm := s.hbm.put r.1 (bs.take r.2) }
      (bs.drop r.2) hw
    refine ⟨past, ?_⟩
    rw [State.scatter, hput, h]
    rfl

theorem foldl_putPiece_global (t : Dest) (l : List (Piece × List Byte)) : ∀ s : State, s.Whole →
    ∃ past, l.foldl (fun s x => s.putPiece true t x.1 x.2) s = { s with hbm := putPieces s.hbm l, past := past } := by
  induction l with
  | nil => exact fun s _ => ⟨s.past, rfl⟩
  | cons x l ih =>
    intro s hw
    obtain ⟨past, h⟩ := scatter_of_whole x.1.dst s x.2 hw
    obtain ⟨past', h'⟩ := ih { s with hbm := putRuns s.hbm x.1.dst x.2, past := past } hw
    refine ⟨past', ?_⟩
    rw [List.foldl_cons, show s.putPiece true t x.1 x.2 = _ from h, h']
    rfl

/-! ### Pieces in a scratchpad -/

/-- A stand with a piece put in its scratchpad by an engine (R208). -/
def Stand.putPiece (y : Stand) (t : Dest) (x : Piece × List Byte) : Stand :=
  { y with sp := y.sp.put ((x.1.dst.headD (0, 0)).1) x.2 }.wrote t.cord t.mask ((x.1.dst.headD (0, 0)).1) x.2.length

theorem Stand.putPiece_eq (y : Stand) (t : Dest) (x : Piece × List Byte) : y.putPiece t x =
    { y with sp := y.sp.put ((x.1.dst.headD (0, 0)).1) x.2, unfenced := (y.putPiece t x).unfenced } := wrote_eq _ _ _ _ _

theorem Stand.foldl_putPiece_eq (t : Dest) (l : List (Piece × List Byte)) : ∀ y : Stand,
    l.foldl (fun y x => y.putPiece t x) y =
      { y with
          sp := l.foldl (fun m x => m.put ((x.1.dst.headD (0, 0)).1) x.2) y.sp,
          unfenced := (l.foldl (fun y x => y.putPiece t x) y).unfenced } := by
  induction l with
  | nil => exact fun y => rfl
  | cons x l ih =>
    intro y
    rw [List.foldl_cons, ih (y.putPiece t x), Stand.putPiece_eq y t x]
    rfl

/-- A write of a scratchpad leaves its stand with no tile task. -/
theorem noTasks_putPiece {s : State} {sid : Nat} (h : s.noTasks sid) (t : Dest) (x : Piece × List Byte) (fresh : Nat) :
    State.noTasks { s.modStand sid fun y => y.putPiece t x with fresh := fresh } sid := by
  intro z hz hsid
  obtain ⟨y, hy, rfl⟩ := List.mem_map.mp (show z ∈ s.stands.map fun y => if y.sid = sid then y.putPiece t x else y from hz)
  by_cases hs : y.sid = sid
  · have hnone : s.openTasks y = [] := h y hy hs
    rw [if_pos hs, Stand.putPiece_eq]
    exact hnone
  · rw [if_neg hs] at hsid
    exact absurd hsid hs

theorem foldl_putPiece_scratchpad (t : Dest) (l : List (Piece × List Byte)) : ∀ (s : State) (st : Stand), s.Whole →
    s.stand? t.sid = some st → s.noTasks t.sid →
    l.foldl (fun s x => s.putPiece false t x.1 x.2) s =
      { s.modStand t.sid fun y => l.foldl (fun y x => y.putPiece t x) y with fresh := s.fresh + l.length } := by
  induction l with
  | nil =>
    intro s st _ _ _
    exact (modStand_id (s := s) (sid := t.sid)).symm
  | cons x l ih =>
    intro s st hw hst ht
    have hkeeps (y : Stand) : (y.putPiece t x).sid = y.sid := by rw [Stand.putPiece_eq]
    have hput : s.putPiece false t x.1 x.2 = { s.modStand t.sid fun y => y.putPiece t x with fresh := s.fresh + 1 } :=
      putSp_of_whole hw hst ht _ _ _ _
    rw [List.foldl_cons, hput, ih { s.modStand t.sid fun y => y.putPiece t x with fresh := s.fresh + 1 } (st.putPiece t x) hw
      (stand?_modStand (s := s) hkeeps hst) (noTasks_putPiece ht t x _)]
    change { (s.modStand t.sid fun y => y.putPiece t x).modStand t.sid fun y => l.foldl (fun y x => y.putPiece t x) y with
      fresh := s.fresh + 1 + l.length } = _
    rw [modStand_modStand hkeeps, Nat.add_assoc, Nat.add_comm 1]
    rfl

/-! ### The whole copy -/

section
variable {s : State} {id : Nat} {t : Dest} {st : Stand} {fromG toG : Bool} {moves : List (Nat × Nat × Nat)} {count : Nat}
  {pa : Nat → Nat} {leaf : Nat → Leaf}

/-- The bytes that a move takes from its source. -/
def moveBytes (m : Memory) (die : Nat) (pa : Nat → Nat) (fromG : Bool) (x : Nat × Nat × Nat) : List Byte :=
  (sideRuns die pa fromG x.1 x.2.2).flatMap fun r => m.bytes r.1 r.2

/-- Memory with every move's bytes written to its destination in turn. -/
def moved (src : Memory) (die : Nat) (pa : Nat → Nat) (fromG toG : Bool) (moves : List (Nat × Nat × Nat)) (m : Memory) : Memory :=
  moves.foldl (fun m x => putRuns m (sideRuns die pa toG x.2.1 x.2.2) (moveBytes src die pa fromG x)) m

/-- A move as a planned piece. -/
def movePiece (die : Nat) (pa : Nat → Nat) (fromG toG : Bool) (x : Nat × Nat × Nat) : Piece :=
  ⟨sideRuns die pa fromG x.1 x.2.2, sideRuns die pa toG x.2.1 x.2.2, x.2.2⟩

/-- The pieces of a copy that reads no byte it writes, with their bytes. -/
theorem pieces_eq {m : Memory} {fresh die : Nat} {overlap : List (Nat × Nat)}
    (ho : ∀ x ∈ moves, ∀ r ∈ overlap, ∀ w ∈ sideRuns die pa toG x.2.1 x.2.2, r.1 + r.2 ≤ w.1 ∨ w.1 + w.2 ≤ r.1) :
    ((moves.map (movePiece die pa fromG toG)).map fun p => (p, pieceBytes m fresh overlap p)) =
      moves.map fun x => (movePiece die pa fromG toG x, moveBytes m die pa fromG x) := by
  rw [List.map_map]
  refine List.map_congr_left fun x hx => Prod.ext rfl (pieceBytes_eq_gather ?_ (ho x hx))
  exact (sum_sideRuns ..).trans (sum_sideRuns ..).symm

theorem putPieces_eq_moved (src : Memory) (die : Nat) (m : Memory) :
    putPieces m (moves.map fun x => (movePiece die pa fromG toG x, moveBytes src die pa fromG x)) =
      moved src die pa fromG toG moves m := by
  rw [putPieces, List.foldl_map]
  rfl

/-- In a scratchpad a move has one run, which all its bytes fill. -/
theorem foldl_put_eq_moved (src : Memory) (die : Nat) (m : Memory) :
    (moves.map fun x => (movePiece die pa fromG false x, moveBytes src die pa fromG x)).foldl
        (fun m x => m.put ((x.1.dst.headD (0, 0)).1) x.2) m = moved src die pa fromG false moves m := by
  rw [List.foldl_map, moved]
  have hlen (x : Nat × Nat × Nat) : (moveBytes src die pa fromG x).length = x.2.2 :=
    (length_gather src _).trans (sum_sideRuns ..)
  congr 1
  funext m x
  change m.put x.2.1 (moveBytes src die pa fromG x) = m.put x.2.1 ((moveBytes src die pa fromG x).take x.2.2)
  rw [List.take_of_length_le (hlen x).le]

/-- A copy of mapped and whole memory that reads no byte it writes puts its source's bytes at its destination, changes no
other, and reports (R206, R211, R213). -/
theorem moveAll_of_mapped (hst : s.stand? t.sid = some st) (ht : s.noTasks t.sid) (hw : s.Whole)
    (stop : List Piece → State → Trap → State) :
    let a : Agent := ⟨st.die, st.ctx, st.sec && (s.core st.die st.core).skSecure, st.fpid, 1, st.core, (s.named t).2⟩
    let written := moved (if fromG then s.hbm else st.sp) st.die pa fromG toG moves
    (∀ x ∈ moves,
      (fromG = true → ∀ r ∈ pageRuns x.1 x.2.2, s.Mapped a .read (x.1 + r.1) (pa (x.1 + r.1)) (leaf (x.1 + r.1))) ∧
      (toG = true → ∀ r ∈ pageRuns x.2.1 x.2.2, s.Mapped a .write (x.2.1 + r.1) (pa (x.2.1 + r.1)) (leaf (x.2.1 + r.1)))) →
    (fromG = toG → ∀ x ∈ moves, ∀ y ∈ moves, ∀ r ∈ sideRuns st.die pa fromG x.1 x.2.2,
      ∀ w ∈ sideRuns st.die pa toG y.2.1 y.2.2, r.1 + r.2 ≤ w.1 ∨ w.1 + w.2 ≤ r.1) →
    ∃ (draws : Nat) (past : List Past) (exposed : Stand → List Unfenced), (toG = false → past = s.past) ∧
      s.moveAll id t fromG toG moves count stop = State.finishedWork
        { (s.modStand t.sid fun y => if toG then y else { y with sp := written y.sp, unfenced := exposed y }) with
            hbm := if toG then written s.hbm else s.hbm, past := past, fresh := s.fresh + draws }
        id t 0 (BitVec.ofNat 32 count) := by
  intro a written hm ho
  have hpieces := pieces_eq (fromG := fromG) (toG := toG) (moves := moves) (m := if fromG then s.hbm else st.sp)
    (fresh := s.fresh) (die := st.die) (pa := pa)
    (overlap := if fromG = toG then (moves.map (movePiece st.die pa fromG toG)).flatMap Piece.src else []) fun y hy r hr => by
      split at hr
      next heq =>
        obtain ⟨p, hp, hr⟩ := List.mem_flatMap.mp hr
        obtain ⟨x, hx, rfl⟩ := List.mem_map.mp hp
        exact ho heq x hx y hy r hr
      · exact absurd hr List.not_mem_nil
  have hmove : s.moveAll id t fromG toG moves count stop =
      ((moves.map fun x => (movePiece st.die pa fromG toG x, moveBytes (if fromG then s.hbm else st.sp) st.die pa fromG x)).foldl
        (fun s x => s.putPiece toG t x.1 x.2) s.draw).copyStatus id t 0 count := by
    have hplan := plan_of_mapped hw hst moves hm
    simp only [State.moveAll, engineAgent_of_stand? hst]
    rw [show s.plan a t.sid fromG toG moves = (s, moves.map (movePiece st.die pa fromG toG), none) from hplan]
    dsimp only
    rw [spOf_of_stand? hst, hpieces]
    rfl
  rw [hmove]
  cases toG with
  | true =>
    obtain ⟨past, h⟩ := foldl_putPiece_global t (moves.map fun x => (movePiece st.die pa fromG true x,
      moveBytes (if fromG then s.hbm else st.sp) st.die pa fromG x)) s.draw hw
    refine ⟨1, past, fun _ => [], nofun, ?_⟩
    have hst' : State.stand? { s.draw with hbm := written s.hbm, past := past } t.sid = some st := hst
    rw [h, putPieces_eq_moved]
    change State.copyStatus { s.draw with hbm := written s.hbm, past := past } id t 0 count = _
    rw [copyStatus_of_stand? hst']
    simp only [if_true, modStand_id]
    rfl
  | false =>
    let l := moves.map fun x => (movePiece st.die pa fromG false x,
      moveBytes (if fromG then s.hbm else st.sp) st.die pa fromG x)
    let exposed (y : Stand) : List Unfenced := (l.foldl (fun y x => y.putPiece t x) y).unfenced
    have hput (y : Stand) : l.foldl (fun y x => y.putPiece t x) y = { y with sp := written y.sp, unfenced := exposed y } := by
      rw [Stand.foldl_putPiece_eq, foldl_put_eq_moved]
    let s' : State := { s.modStand t.sid fun y => { y with sp := written y.sp, unfenced := exposed y } with
      fresh := s.fresh + (1 + l.length) }
    have hs' : l.foldl (fun s x => s.putPiece false t x.1 x.2) s.draw = s' := by
      rw [foldl_putPiece_scratchpad t l s.draw st hw hst ht, funext hput, State.draw, Nat.add_assoc]
      rfl
    have hst' : s'.stand? t.sid = some { st with sp := written st.sp, unfenced := exposed st } :=
      stand?_modStand (s := s) (f := fun y => { y with sp := written y.sp, unfenced := exposed y }) (fun _ => rfl) hst
    refine ⟨1 + l.length, s.past, exposed, fun _ => rfl, ?_⟩
    rw [show (moves.map _).foldl _ s.draw = s' from hs', copyStatus_of_stand? hst']
    rfl

end

/-! ### COPY_DONE -/

section
variable {s : State} {id die core : Nat} {t : Dest} (hf : s.focus = none)
include hf

/-- While an access before it is outstanding, a copy waits (R192, R206). -/
theorem exec_copyDone_of_unreleased {k : CopyKind} (ha : s.active? id = some (.copy t die core k))
    (hu : s.unreleased id t.sid t.cord t.mask = true) : exec (.copyDone id) s = .next s := by
  change execCopyDone id s = _
  simp only [execCopyDone, State.unfocus_of_none hf, ha, hu, if_true]

theorem exec_copyDone_of_lanes {dir : CopyDir} {n : Nat} {m : List (Nat × Nat × Nat)}
    (ha : s.active? id = some (.copy t die core (.lanes dir n m))) (hu : s.unreleased id t.sid t.cord t.mask = false) :
    exec (.copyDone id) s = .next (s.moveAll id t (srcGlobal dir) (dstGlobal dir) (m.map fun x => (x.2.1, x.2.2, n)) n
      fun ps => State.laneFault t n ((m.take ps.length).foldl (fun y x => y ||| (1 : Mask) <<< x.1) 0)) := by
  change execCopyDone id s = _
  simp only [execCopyDone, State.unfocus_of_none hf, ha, hu, Bool.false_eq_true, if_false]

theorem exec_copyDone_of_tensor {s2h : Bool} {rows : List (Nat × Nat × Nat)}
    (ha : s.active? id = some (.copy t die core (.tensor s2h rows))) (hu : s.unreleased id t.sid t.cord t.mask = false) :
    exec (.copyDone id) s = .next (s.moveAll id t (!s2h) s2h rows (rows.map fun x => x.2.2).sum
      fun ps => State.copyFault t ((ps.map Piece.n).foldl (· + ·) 0)) := by
  change execCopyDone id s = _
  simp only [execCopyDone, State.unfocus_of_none hf, ha, hu, Bool.false_eq_true, if_false, List.sum_eq_foldl]

end

end Sys2Proof.Machine
end

section
/-! SUPPORT. Which fault each check of a copy instruction raises, and that operands inside their limits raise none (R207,
R374). -/

namespace Sys2Proof.Machine

/-! ### Entering the queue -/

/-- A copy that meets no fault waits for an entry of the skidder, and then enters the queue (R204, R205). -/
theorem begins_of_queued {s : State} {f : Focus} {i : Instr} {t : Option Trap} {d : VCode} {m : Mask} {k : CopyKind}
    (h : exec i s = (queued s f t (s.beginCopy f d m k)).outcome i s f) (ht : t = none) :
    (skidFull s f = true → exec i s = .next s) ∧
    (skidFull s f = false → exec i s = .next
      (s.began f d.toNat 2 (.copy (f.dest m d.toNat) f.stand.die f.stand.core k))) :=
  ⟨fun hs => h.trans (outcome_queued_of_full hs), fun hs => h.trans (outcome_queued_of_free hs ht)⟩

/-- A claim that is taken at once, or may wait, enters the queue as other copies do (R222). -/
theorem claimed_of_free {s : State} {f : Focus} {nb : Bool} {slot : Nat} {d : VCode} {k : CopyKind}
    (h : nb = true → claimFree s f slot = true) : claimed s f nb slot d k = s.beginCopy f d f.path.mask k := by
  refine if_neg ?_
  rw [Bool.and_eq_true, Bool.not_eq_true', not_and]
  exact fun hnb hfree => Bool.false_ne_true (hfree.symm.trans (h hnb))

/-- A claim that may not wait and cannot be granted at once answers BUSY (R222, R285). -/
theorem claimed_of_busy {s : State} {f : Focus} {slot : Nat} {d : VCode} {k : CopyKind} (h : claimFree s f slot = false) :
    claimed s f true slot d k = s.answered f d.toNat 0x10 0 := by
  rw [claimed, h]; rfl

/-- Both ends of a claim that meets no fault: it enters the queue, or answers BUSY (R222, R285). -/
theorem claims_of_queued {s : State} {f : Focus} {i : Bool → Instr} {t : Option Trap} {slot : Nat} {d : VCode}
    {k : Bool → CopyKind} (h : ∀ nb, Issues (i nb) s f → exec (i nb) s =
      (queued s f t (claimed s f nb slot d (k nb))).outcome (i nb) s f) (ht : t = none) (nb : Bool) :
    ((nb = true → claimFree s f slot = true) → Issues (i nb) s f →
      (skidFull s f = true → exec (i nb) s = .next s) ∧
      (skidFull s f = false → exec (i nb) s = .next
        (s.began f d.toNat 2 (.copy (f.dest f.path.mask d.toNat) f.stand.die f.stand.core (k nb))))) ∧
    (claimFree s f slot = false → Issues (i true) s f → skidFull s f = false →
      exec (i true) s = .next (s.answered f d.toNat 0x10 0)) := by
  refine ⟨fun hfree hi => begins_of_queued ?_ ht, fun hbusy hi hroom => ?_⟩
  · rw [h nb hi, claimed_of_free hfree]
  · rw [h true hi, outcome_queued_of_free hroom ht, claimed_of_busy hbusy]

/-! ### CPY -/

theorem srcGlobal_eq (dir : CopyDir) : srcGlobal dir = decide (dir = .h2s ∨ dir = .h2h) := by cases dir <;> rfl

theorem dstGlobal_eq (dir : CopyDir) : dstGlobal dir = decide (dir = .s2h ∨ dir = .h2h) := by cases dir <;> rfl

theorem laneRange_of_within {st : Stand} {dir : CopyDir} {n : Nat} {x : Nat × Nat × Nat}
    (hs : if srcGlobal dir then x.2.1 + n ≤ 2 ^ 57 else x.2.1 + n ≤ st.spGran * 16384)
    (hd : if dstGlobal dir then x.2.2 + n ≤ 2 ^ 57 else x.2.2 + n ≤ st.spGran * 16384) : laneRange st dir n x = none := by
  rw [laneRange, sideTrap_of_within hs, sideTrap_of_within hd, Option.none_or]

section
variable {st : Stand} {dir : CopyDir} {n : Nat} {x : Nat × Nat × Nat} {p q : Prop} (hp : srcGlobal dir = true ↔ p)
  (hq : dstGlobal dir = true ↔ q)
include hp

theorem laneRange_of_source_beyond {c : TrapCode} (h : sideBeyond st p n x.2.1 c) :
    laneRange st dir n x = some { code := c, val := some (BitVec.ofNat 64 x.2.1) } := by
  rw [laneRange, sideTrap_of_beyond hp h, Option.some_or]

include hq

theorem laneRange_of_destination_beyond {c : TrapCode} (hs : ∀ c, ¬sideBeyond st p n x.2.1 c) (h : sideBeyond st q n x.2.2 c) :
    laneRange st dir n x = some { code := c, val := some (BitVec.ofNat 64 x.2.2) } := by
  rw [laneRange, sideTrap_of_not_beyond hp hs, Option.none_or, sideTrap_of_beyond hq h]

theorem laneRange_of_not_beyond (h : ∀ c, ¬sideBeyond st p n x.2.1 c ∧ ¬sideBeyond st q n x.2.2 c) :
    laneRange st dir n x = none := by
  rw [laneRange, sideTrap_of_not_beyond hp fun c => (h c).1, Option.none_or, sideTrap_of_not_beyond hq fun c => (h c).2]

end

theorem cpyTrap_of_inside {st : Stand} {dir : CopyDir} {n : Nat} {moves : List (Nat × Nat × Nat)}
    (ha : ∀ x ∈ moves, x.2.1 % n = 0 ∧ x.2.2 % n = 0) (hr : ∀ x ∈ moves, laneRange st dir n x = none) :
    cpyTrap st dir n moves = none := by
  rw [cpyTrap_of_aligned ha, List.findSome?_eq_none_iff.mpr hr]

theorem sides_of_mem_copyMoves {f : Focus} {r : SCode} {v : VCode} {x : Nat × Nat × Nat} (h : x ∈ f.copyMoves r v) :
    x.2 ∈ (Mask.toLanes f.active).map fun l => (f.laneAddr r v l, f.laneAddr r (v + 1) l) := by
  obtain ⟨l, hl, rfl⟩ := List.mem_map.mp h
  exact List.mem_map_of_mem hl

/-- The moves up to one that is at fault, by the addresses of their two sides. -/
theorem copyMoves_of_append {f : Focus} {r : SCode} {v : VCode} {pre post : List (Nat × Nat)} {src dst : Nat}
    (h : ((Mask.toLanes f.active).map fun l => (f.laneAddr r v l, f.laneAddr r (v + 1) l)) = pre ++ (src, dst) :: post) :
    f.active ≠ 0 ∧ ∃ pre' l post', f.copyMoves r v = pre' ++ (l, src, dst) :: post' ∧ ∀ x ∈ pre', x.2 ∈ pre := by
  constructor
  · intro h0
    rw [h0] at h
    exact absurd (h.symm.trans (by rfl)) (List.append_ne_nil_of_right_ne_nil pre (List.cons_ne_nil _ _))
  · have hsnd : (f.copyMoves r v).map Prod.snd = pre ++ (src, dst) :: post := by
      rw [← h, Focus.copyMoves, List.map_map]
      rfl
    obtain ⟨pre', rest, hmoves, hpre, hrest⟩ := List.map_eq_append_iff.mp hsnd
    obtain ⟨⟨l, y⟩, post', rfl, hy, -⟩ := List.map_eq_cons_iff.mp hrest
    obtain rfl : y = (src, dst) := hy
    exact ⟨pre', l, post', hmoves, fun x hx => hpre ▸ List.mem_map_of_mem hx⟩

/-! ### CPYX -/

section
variable {st : Stand} {dst src n obj c : Nat} {reserved : Prop} [Decidable reserved]

theorem cpyxTrap_of_misaligned (h : dst % 16 ≠ 0 ∨ src % 16 ≠ 0 ∨ obj % 16 ≠ 0) :
    cpyxTrap st dst src n obj c reserved = some (misalign [(dst, 16), (src, 16), (obj, 16)]) := by
  rw [cpyxTrap, refuse_of h, Option.some_or]

theorem cpyxTrap_of_count (hd : dst % 16 = 0) (hs : src % 16 = 0) (ho : obj % 16 = 0) (h : n < 16 ∨ 2 ^ 20 < n ∨ n % 16 ≠ 0) :
    cpyxTrap st dst src n obj c reserved = some { code := .copyParam } := by
  rw [cpyxTrap, refuse_of_not (by simp [hd, hs, ho]), Option.none_or, refuse_of h, Option.some_or]

/-- Aligned addresses and a count inside its limits leave the window, the receiver and the reserved bits. -/
theorem cpyxTrap_of_limits (hd : dst % 16 = 0) (hs : src % 16 = 0) (ho : obj % 16 = 0) (h1 : 16 ≤ n) (h2 : n ≤ 2 ^ 20)
    (h3 : n % 16 = 0) : cpyxTrap st dst src n obj c reserved =
      ((spTrap st n [(0, src)]).or (castTrap st c)).or (refuse reserved { code := .copyParam }) := by
  rw [cpyxTrap, refuse_of_not (by simp [hd, hs, ho]), Option.none_or, refuse_of_not (by omega), Option.none_or]

theorem cpyxTrap_of_inside (hd : dst % 16 = 0) (hs : src % 16 = 0) (ho : obj % 16 = 0) (h1 : 16 ≤ n) (h2 : n ≤ 2 ^ 20)
    (h3 : n % 16 = 0) (hin : src + n ≤ st.spGran * 16384) (hc : c / 8 = st.core / 8) (hz : ¬reserved) :
    cpyxTrap st dst src n obj c reserved = none := by
  rw [cpyxTrap_of_limits hd hs ho h1 h2 h3, spTrap_of_within hin, castTrap_of_inside hc, Option.none_or, Option.none_or,
    refuse_of_not hz]

end

/-! ### CPYM -/

section
variable {st : Stand} {src n : Nat} {mask : Mask} {reserved : Prop} [Decidable reserved]

theorem cpymTrap_of_misaligned (h : src % 16 ≠ 0) : cpymTrap st src n mask reserved = some (misalign [(src, 16)]) := by
  rw [cpymTrap, refuse_of h, Option.some_or]

theorem cpymTrap_of_count (hs : src % 16 = 0) (h : n < 16 ∨ 8192 < n ∨ n % 16 ≠ 0) :
    cpymTrap st src n mask reserved = some { code := .copyParam } := by
  rw [cpymTrap, refuse_of_not (not_not_intro hs), Option.none_or, refuse_of h, Option.some_or]

theorem cpymTrap_of_limits (hs : src % 16 = 0) (h1 : 16 ≤ n) (h2 : n ≤ 8192) (h3 : n % 16 = 0) :
    cpymTrap st src n mask reserved = ((spTrap st n [(0, src)]).or ((Mask.toLanes mask).findSome? (castTrap st))).or
      (refuse reserved { code := .copyParam }) := by
  rw [cpymTrap, refuse_of_not (not_not_intro hs), Option.none_or, refuse_of_not (by omega), Option.none_or]

theorem findSome?_castTrap_of_inside (h : ∀ c < 32, mask.getLsbD c = true → c / 8 = st.core / 8) :
    (Mask.toLanes mask).findSome? (castTrap st) = none :=
  List.findSome?_eq_none_iff.mpr fun c hc => castTrap_of_inside (h c (Mask.mem_toLanes.mp hc).1 (Mask.mem_toLanes.mp hc).2)

theorem cpymTrap_of_inside (hs : src % 16 = 0) (h1 : 16 ≤ n) (h2 : n ≤ 8192) (h3 : n % 16 = 0)
    (hin : src + n ≤ st.spGran * 16384) (hc : ∀ c < 32, mask.getLsbD c = true → c / 8 = st.core / 8) (hz : ¬reserved) :
    cpymTrap st src n mask reserved = none := by
  rw [cpymTrap_of_limits hs h1 h2 h3, spTrap_of_within hin, Option.none_or, findSome?_castTrap_of_inside hc, Option.none_or,
    refuse_of_not hz]

end

/-! ### MCDRAIN, CPYW and the record of a CPYT -/

theorem recTrap_of_misaligned {st : Stand} {al n off : Nat} (h : off % al ≠ 0) :
    recTrap st al n off = some (misalign [(off, al)]) := if_pos h

theorem recTrap_of_beyond {st : Stand} {al n off : Nat} (ha : off % al = 0) (h : st.spGran * 16384 < off + n) :
    recTrap st al n off = some { code := .spRange, val := some (BitVec.ofNat 64 off) } := by
  rw [recTrap, if_neg (not_not_intro ha), spTrap_of_beyond h]

section
variable {src n : Nat} {reserved : Prop} [Decidable reserved]

theorem cpywTrap_of_misaligned (h : src % 256 ≠ 0) : cpywTrap src n reserved = some (misalign [(src, 256)]) := by
  rw [cpywTrap, refuse_of h, Option.some_or]

theorem cpywTrap_of_aligned (h : src % 256 = 0) :
    cpywTrap src n reserved = (rangeTrap n [(0, src)]).or (refuse reserved { code := .copyParam }) := by
  rw [cpywTrap, refuse_of_not (not_not_intro h), Option.none_or]

theorem cpywTrap_of_inside (h : src % 256 = 0) (hin : src + n ≤ 2 ^ 57) (hz : ¬reserved) : cpywTrap src n reserved = none := by
  rw [cpywTrap_of_aligned h, rangeTrap_of_within hin, Option.none_or, refuse_of_not hz]

end

section
variable {st : Stand} {off : Nat}

/-- A place of the iteration space whose row leaves its bounds (R213). -/
def TensorRec.beyond (x : TensorRec) (base k1 k2 k3 bound : Int) : Prop :=
  ∃ i1 < x.e1, ∃ i2 < x.e2, ∃ i3 < x.e3,
    base + i1 * k1 + i2 * k2 + i3 * k3 < 0 ∨ bound < base + i1 * k1 + i2 * k2 + i3 * k3 + x.e0

theorem TensorRec.extents_of_limits {x : TensorRec} (h : x.limits = true) : 1 ≤ x.e1 ∧ 1 ≤ x.e2 ∧ 1 ≤ x.e3 := by
  obtain ⟨-, -, -, -, -, -, h1, h2, h3, -⟩ := (limits_iff x).mp h
  exact ⟨h1, h2, h3⟩

theorem cpytTrap_of_limits (ha : off % 64 = 0) (hs : off + 64 ≤ st.spGran * 16384)
    (h : (tensorRec (st.sp.bytes off 64)).limits = false) : cpytTrap st off = some { code := .copyParam } := by
  rw [cpytTrap, recTrap_of_inside ha hs, Option.none_or, refuse_of (by rw [h]; rfl), Option.some_or]

theorem cpytTrap_of_global (ha : off % 64 = 0) (hs : off + 64 ≤ st.spGran * 16384)
    (hl : (tensorRec (st.sp.bytes off 64)).limits = true)
    (h : let x := tensorRec (st.sp.bytes off 64); x.beyond x.gaddr x.g1 x.g2 x.g3 (2 ^ 57)) :
    cpytTrap st off = some { code := .addressRange } := by
  obtain ⟨h1, h2, h3⟩ := TensorRec.extents_of_limits hl
  rw [cpytTrap, recTrap_of_inside ha hs, Option.none_or, refuse_of_not (by rw [hl]; exact Bool.false_ne_true),
    Option.none_or, refuse_of ((corners_beyond_iff h1 h2 h3 ..).mpr h), Option.some_or]

/-- A record inside its limits whose global side is inside leaves the scratchpad side and the reserved bytes. -/
theorem cpytTrap_of_inside (ha : off % 64 = 0) (hs : off + 64 ≤ st.spGran * 16384)
    (hl : (tensorRec (st.sp.bytes off 64)).limits = true)
    (hg : let x := tensorRec (st.sp.bytes off 64); ¬x.beyond x.gaddr x.g1 x.g2 x.g3 (2 ^ 57)) :
    let x := tensorRec (st.sp.bytes off 64)
    let p := corners x.spoff [(x.e1, x.s1), (x.e2, x.s2), (x.e3, x.s3)]
    cpytTrap st off = (refuse (p.1 < 0 ∨ ((st.spGran * 16384 : Nat) : Int) < p.2 + x.e0) { code := .spRange }).or
      (refuse (recField (st.sp.bytes off 64) 22 2 ≠ 0 ∨ recField (st.sp.bytes off 64) 60 4 ≠ 0) { code := .copyParam }) := by
  obtain ⟨h1, h2, h3⟩ := TensorRec.extents_of_limits hl
  intro x p
  rw [cpytTrap, recTrap_of_inside ha hs, Option.none_or, refuse_of_not (by rw [hl]; exact Bool.false_ne_true),
    Option.none_or, refuse_of_not (fun h => hg ((corners_beyond_iff h1 h2 h3 ..).mp h)), Option.none_or]

theorem corners_scratchpad_iff {x : TensorRec} (hl : x.limits = true) :
    let p := corners x.spoff [(x.e1, x.s1), (x.e2, x.s2), (x.e3, x.s3)]
    (p.1 < 0 ∨ ((st.spGran * 16384 : Nat) : Int) < p.2 + x.e0) ↔
      x.beyond x.spoff x.s1 x.s2 x.s3 ((st.spGran * 16384 : Nat) : Int) := by
  obtain ⟨h1, h2, h3⟩ := TensorRec.extents_of_limits hl
  exact corners_beyond_iff h1 h2 h3 ..

/-- Rows that all lie inside their bounds. -/
theorem TensorRec.not_beyond {x : TensorRec} {base k1 k2 k3 bound : Int}
    (h : ∀ i1 < x.e1, ∀ i2 < x.e2, ∀ i3 < x.e3,
      0 ≤ base + i1 * k1 + i2 * k2 + i3 * k3 ∧ base + i1 * k1 + i2 * k2 + i3 * k3 + x.e0 ≤ bound) :
    ¬x.beyond base k1 k2 k3 bound := fun ⟨i1, h1, i2, h2, i3, h3, hb⟩ =>
  hb.elim (Int.not_lt.mpr (h i1 h1 i2 h2 i3 h3).1) (Int.not_lt.mpr (h i1 h1 i2 h2 i3 h3).2)

/-- A record inside its limits whose sides are inside meets no fault. -/
theorem cpytTrap_of_whole (ha : off % 64 = 0) (hs : off + 64 ≤ st.spGran * 16384)
    (hl : (tensorRec (st.sp.bytes off 64)).limits = true) (hz1 : recField (st.sp.bytes off 64) 22 2 = 0)
    (hz2 : recField (st.sp.bytes off 64) 60 4 = 0)
    (hg : let x := tensorRec (st.sp.bytes off 64); ¬x.beyond x.gaddr x.g1 x.g2 x.g3 (2 ^ 57))
    (hp : let x := tensorRec (st.sp.bytes off 64); ¬x.beyond x.spoff x.s1 x.s2 x.s3 ((st.spGran * 16384 : Nat) : Int)) :
    cpytTrap st off = none := by
  rw [cpytTrap_of_inside ha hs hl hg, refuse_of_not (fun h => hp ((corners_scratchpad_iff hl).mp h)), Option.none_or,
    refuse_of_not (fun h => h.elim (· hz1) (· hz2))]

end

end Sys2Proof.Machine
end

section
/-! PROOFS. O20: copies enter the skidder's queue, and a finished copy has moved exactly its bytes. -/

namespace Sys2Proof.Machine

/-- Settles O20: a copy's checks are one list of faults, none inside the limits, and else its first; a copy that completes
has its moves' bytes. -/
theorem copiesBeginAndComplete : Obligations.CopiesBeginAndComplete := by
  unfold Obligations.CopiesBeginAndComplete
  refine ⟨fun s f o d v r dir size s2h nb => ?begin, fun s f o d v r dir size s2h nb hfree hw => ?fault,
    fun s id t die core k st fromG toG moves count pa leaf => ?complete⟩
  case begin =>
    intro core sp a b field busy begins n inside moves off x whole
    refine ⟨fun hm h => exec_cpy_of_idle h hm, fun hm hin h => begins_of_queued (exec_cpy_eq h hm) ?cpy,
      fun hw ha hs hl hz1 hz2 hg hp => ⟨x.moves s2h, fun h => begins_of_queued (exec_cpyt_eq h hw) ?cpyt, ?length, ?rows⟩,
      ?cpyx, ?cpym, ?mcdrain, ?cpyw, ?wevict⟩
    case cpy =>
      refine cpyTrap_of_inside (fun y hy => ⟨(hin y hy).1.1, (hin y hy).2.1⟩) fun y hy => ?_
      refine laneRange_of_within ?_ ?_
      · rw [srcGlobal_eq]; exact (hin y hy).1.2
      · rw [dstGlobal_eq]; exact (hin y hy).2.2
    case cpyt =>
      exact cpytTrap_of_whole ha hs hl hz1 hz2 (TensorRec.not_beyond hg) (TensorRec.not_beyond hp)
    case length => exact (List.length_map _).trans (length_rows x)
    case rows => exact fun i1 h1 i2 h2 i3 h3 => moves_getElem? s2h h1 h2 h3
    case cpyx =>
      intro dst src n obj c hd hs ho h1 h2 h3 hin hc hz1 hz2 h
      exact begins_of_queued (exec_cpyx_eq h)
        (cpyxTrap_of_inside hd hs ho h1 h2 h3 hin hc fun hz => hz.elim (· hz1) (· hz2))
    case cpym =>
      intro src n hs h1 h2 h3 hin hc hz1 hz2 h
      exact begins_of_queued (exec_cpym_eq h) (cpymTrap_of_inside hs h1 h2 h3 hin
        (fun k hk hb => hc k hk ((getLsbD_low hk).symm.trans hb)) fun hz => hz.elim (· hz1) (· hz2))
    case mcdrain =>
      intro dst hd hin hz h
      refine begins_of_queued (exec_mcdrain_eq h) ?_
      rw [mcdrainTrap, recTrap_of_inside hd hin, Option.none_or, refuse_of_not (not_not_intro hz)]
    case cpyw =>
      intro slot scales hs hin h7 hz
      refine claims_of_queued (i := .cpyw o) (fun nb h => exec_cpyw_eq h) (cpywTrap_of_inside hs ?_ ?_) nb
      · rw [← Nat.add_assoc]; exact hin
      · exact fun h => h.elim (Bool.eq_false_iff.mp h7) (· hz)
    case wevict =>
      intro slot hz hown
      refine claims_of_queued (i := .wevict o) (fun nb h => exec_wevict_eq h) ?_ nb
      rw [wevictTrap, refuse_of_not (not_not_intro hz), refuse_of_not (Bool.eq_false_iff.mp hown), Option.none_or]
  case fault =>
    intro grove sp a b field faults misaligned at_ off bytes x u i beyond
    have raises {j : Instr} {t : Option Trap} {s' : State} {c : TrapCode} {val : Option DWord}
        (he : Issues j s f → exec j s = (queued s f t s').outcome j s f) (ht : t = some { code := c, val := val }) :
        faults j c val := fun h => (he h).trans (outcome_queued_of_trap hfree ht)
    refine ⟨tensorRec_fields bytes, limits_iff x, ?cpyt, ?cpy, ?cpyx, ?cpym, ?mcdrain, ?cpyw, ?evictBits, ?evictOwner⟩
    case cpyt =>
      intro cpyt
      have raises {c : TrapCode} {val : Option DWord} (ht : cpytTrap f.stand off = some { code := c, val := val }) :
          faults cpyt c val := raises (fun h => exec_cpyt_eq h hw) ht
      refine ⟨fun ha => raises ?_, fun ha hs => raises ?_, fun ha hs => ⟨fun hl => raises (cpytTrap_of_limits ha hs hl),
        fun hl hg => raises (cpytTrap_of_global ha hs hl hg), fun hl hg => ⟨fun hp => raises ?_, fun hp hz => raises ?_⟩⟩⟩
      · rw [cpytTrap, recTrap_of_misaligned ha, Option.some_or, misalign_of_misaligned ha]
      · rw [cpytTrap, recTrap_of_beyond ha hs, Option.some_or]
      · rw [cpytTrap_of_inside ha hs hl hg, refuse_of ((corners_scratchpad_iff hl).mpr hp), Option.some_or]
      · rw [cpytTrap_of_inside ha hs hl hg, refuse_of_not (fun h => hp ((corners_scratchpad_iff hl).mp h)), Option.none_or,
          recField_eq_sum, recField_eq_sum, refuse_of hz]
    case cpy =>
      intro n global outside moves j pre post src dst hmoves
      obtain ⟨hactive, pre', l, post', hcopy, hpre⟩ := copyMoves_of_append hmoves
      have raises {c : TrapCode} {val : Option DWord}
          (ht : cpyTrap f.stand dir n (pre' ++ (l, src, dst) :: post') = some { code := c, val := val }) : faults j c val :=
        raises (fun h => exec_cpy_eq h hactive) ((congrArg _ hcopy).trans ht)
      have hread : srcGlobal dir = true ↔ global false := by rw [srcGlobal_eq, decide_eq_true_eq]; rfl
      have hwrite : dstGlobal dir = true ↔ global true := by rw [dstGlobal_eq, decide_eq_true_eq]; rfl
      refine ⟨fun haligned h => ⟨_, raises (cpyTrap_of_misaligned (fun x hx => haligned _ (hpre x hx)) h)⟩,
        fun haligned hinside c => ⟨fun h => raises ?_, fun hsrc h => raises ?_⟩⟩
      all_goals
        rw [cpyTrap_of_aligned fun x hx => haligned _ (sides_of_mem_copyMoves (hcopy ▸ hx))]
        refine findSome?_laneRange (fun x hx => laneRange_of_not_beyond hread hwrite (hinside _ (hpre x hx))) ?_
      · exact laneRange_of_source_beyond hread h
      · exact laneRange_of_destination_beyond hread hwrite hsrc h
    case cpyx =>
      intro dst src n obj c j
      have raises {c : TrapCode} {val : Option DWord} (ht : cpyxTrap f.stand dst src n obj _ _ = some { code := c, val := val }) :
          faults j c val := raises exec_cpyx_eq ht
      refine ⟨fun h => ⟨_, raises (cpyxTrap_of_misaligned h)⟩, fun hd hs ho => ⟨fun hn => raises (cpyxTrap_of_count hd hs ho hn),
        fun h1 h2 h3 => ⟨fun hb => raises ?_, fun hin hc => raises ?_, fun hin hc hz => raises ?_⟩⟩⟩
      all_goals rw [cpyxTrap_of_limits hd hs ho h1 h2 h3]
      · rw [spTrap_of_beyond hb, Option.some_or, Option.some_or]
      · rw [spTrap_of_within hin, Option.none_or, castTrap_of_outside hc, Option.some_or]
      · rw [spTrap_of_within hin, Option.none_or, castTrap_of_inside hc, Option.none_or, refuse_of hz]
    case cpym =>
      intro src n j
      have raises {c : TrapCode} {val : Option DWord} (ht : cpymTrap f.stand src n _ _ = some { code := c, val := val }) :
          faults j c val := raises exec_cpym_eq ht
      refine ⟨fun h => ⟨_, raises (cpymTrap_of_misaligned h)⟩, fun hs => ⟨fun hn => raises (cpymTrap_of_count hs hn),
        fun h1 h2 h3 => ⟨fun hb => raises ?_, fun hin => ⟨fun c hc hbit hout hlow => raises ?_, fun hc hz => raises ?_⟩⟩⟩⟩
      all_goals rw [cpymTrap_of_limits hs h1 h2 h3]
      · rw [spTrap_of_beyond hb, Option.some_or, Option.some_or]
      · rw [spTrap_of_within hin, Option.none_or, findSome?_castTrap hc ((getLsbD_low hc).trans hbit) hout
          fun k hk hb => hlow k hk ((getLsbD_low (hk.trans hc)).symm.trans hb), Option.some_or]
      · rw [spTrap_of_within hin, Option.none_or, findSome?_castTrap_of_inside
          fun k hk hb => hc k hk ((getLsbD_low hk).symm.trans hb), Option.none_or, refuse_of hz]
    case mcdrain =>
      intro dst j
      have raises {c : TrapCode} {val : Option DWord} (ht : mcdrainTrap f.stand dst _ = some { code := c, val := val }) :
          faults j c val := raises exec_mcdrain_eq ht
      refine ⟨fun h => ⟨at_ dst, raises ?_⟩, fun hd hs => raises ?_, fun hd hs hz => raises ?_⟩
      · rw [mcdrainTrap, recTrap_of_misaligned h, Option.some_or, misalign_of_misaligned h]
      · rw [mcdrainTrap, recTrap_of_beyond hd hs, Option.some_or]
      · rw [mcdrainTrap, recTrap_of_inside hd hs, Option.none_or, refuse_of hz]
    case cpyw =>
      intro n j
      have raises {c : TrapCode} {val : Option DWord} (ht : cpywTrap a.toNat n _ = some { code := c, val := val }) :
          faults j c val := raises exec_cpyw_eq ht
      refine ⟨fun h => ⟨_, raises (cpywTrap_of_misaligned h)⟩, fun hs hb => raises ?_, fun hs hin hz => raises ?_⟩
      · rw [cpywTrap_of_aligned hs, rangeTrap_of_beyond hb, Option.some_or, BitVec.ofNat_toNat, BitVec.setWidth_eq]
      · rw [cpywTrap_of_aligned hs, rangeTrap_of_within hin, Option.none_or, refuse_of hz]
    case evictBits =>
      exact fun hz => raises exec_wevict_eq (by rw [wevictTrap, refuse_of hz, Option.some_or])
    case evictOwner =>
      exact fun hz hown => raises exec_wevict_eq (by
        rw [wevictTrap, refuse_of_not (not_not_intro hz), Option.none_or, refuse_of hown])
  case complete =>
    intro a runs mapped srcRuns dstRuns bytes written hf ha
    refine ⟨fun hu => exec_copyDone_of_unreleased hf ha hu, fun hu hst ht hw hm ho hk => ?_⟩
    obtain ⟨stop, hexec⟩ : ∃ stop, exec (.copyDone id) s = .next (s.moveAll id t fromG toG moves count stop) := by
      rcases hk with ⟨dir, n, m, rfl, rfl, rfl, rfl, rfl⟩ | ⟨s2h, rfl, rfl, rfl, rfl⟩
      · rw [← srcGlobal_eq, ← dstGlobal_eq]
        exact ⟨_, exec_copyDone_of_lanes hf ha hu⟩
      · exact ⟨_, exec_copyDone_of_tensor hf ha hu⟩
    obtain ⟨draws, past, exposed, hpast, hmove⟩ := moveAll_of_mapped (id := id) (count := count) hst ht hw stop hm ho
    exact ⟨draws, past, exposed, hpast, hexec.trans (congrArg _ hmove)⟩

end Sys2Proof.Machine
end
